-- ==== Sys2Proof/Word.lean ====
section
/-!
DEFINITION. The word types of the J960 (00_scope.md R6, 01_encodings.md R11) and their plainest arithmetic.
-/

namespace Sys2Proof

/-- A 64-bit register or address (R41, R91). -/
abbrev Word := BitVec 64
/-- A byte of memory. -/
abbrev Byte := BitVec 8
/-- The 512 data bits of a token (R159). -/
abbrev Flit := BitVec 512

end Sys2Proof
end

