-- ==== Sys2Proof/Syntax.lean ====
section
/-!
DEFINITION. The instructions and steps of the J960: one constructor for each row of spec/opcode_table.json.
C-words and E-words keep their operand fields as the encoding gives them (01_encodings.md R15, R25), because a
wrong operand specifier is a trap of the executed word (R12, R20) and not a word that cannot be decoded.
S-words keep out, in and ctx (R32).  The rows without a word are the machine's events (95_what_each_step_holds.md);
their arguments name the subject of the event:

* `u`   a context slot, 4 * (1024 * die + tile) + context;
* `e`   an element index of R156 within that slot;
* `t`   a tile, 1024 * die + tile index;
* `pg`  a page, 64 * die + page index;
* `d`   a die;
* `l`   a launch, 2^32 * die + LAUNCHID;
* `f`   an engine operation or a FIFO, by its number in State;
* `k`   an image context, or a link (0 X0, 1 X1, 2 Y0, 3 Y1).
-/

namespace Sys2Proof

/-- One step of the machine: a C-word, an element's operation, a route, or an event of R47 to R421. -/
inductive Instr where
  -- C-words (R21)
  /-- ADD, R58: Writes a + b modulo 2^64 to d. -/
  | add (d a b : BitVec 7)
  /-- SUB, R58: Writes a − b modulo 2^64 to d. -/
  | sub (d a b : BitVec 7)
  /-- MUL, R58: Writes the low 64 bits of a × b to d. -/
  | mul (d a b : BitVec 7)
  /-- MULH, R58: Writes the high 64 bits of the signed 128-bit product to d. -/
  | mulh (d a b : BitVec 7)
  /-- MULHN, R58: Writes the high 64 bits of the unsigned 128-bit product to d. -/
  | mulhn (d a b : BitVec 7)
  /-- DIV, R59: Signed division, truncating towards zero, with fixed results for a zero divisor and for overflow. -/
  | div (d a b : BitVec 7)
  /-- DIVN, R59: Unsigned division, with all ones for a zero divisor. -/
  | divn (d a b : BitVec 7)
  /-- REM, R59: Signed remainder, which takes the sign of a. -/
  | rem (d a b : BitVec 7)
  /-- REMN, R59: Unsigned remainder; a zero divisor gives a. -/
  | remn (d a b : BitVec 7)
  /-- AND, R58: Writes a AND b to d. -/
  | and (d a b : BitVec 7)
  /-- OR, R58: Writes a OR b to d. -/
  | or (d a b : BitVec 7)
  /-- XOR, R58: Writes a XOR b to d. -/
  | xor (d a b : BitVec 7)
  /-- ANDN, R58: Writes a AND NOT b to d. -/
  | andn (d a b : BitVec 7)
  /-- SHL, R58: Shifts a left by b<5:0>. -/
  | shl (d a b : BitVec 7)
  /-- SHR, R58: Shifts a right logically by b<5:0>. -/
  | shr (d a b : BitVec 7)
  /-- SAR, R58: Shifts a right arithmetically by b<5:0>. -/
  | sar (d a b : BitVec 7)
  /-- ROTL, R58: Rotates a left by b<5:0>. -/
  | rotl (d a b : BitVec 7)
  /-- MIN, R58: Writes the smaller of a and b as i64. -/
  | min (d a b : BitVec 7)
  /-- MAX, R58: Writes the larger of a and b as i64. -/
  | max (d a b : BitVec 7)
  /-- MINN, R58: Writes the smaller of a and b as n64. -/
  | minn (d a b : BitVec 7)
  /-- MAXN, R58: Writes the larger of a and b as n64. -/
  | maxn (d a b : BitVec 7)
  /-- CLZ, R58: Counts the leading zero bits of a. -/
  | clz (d a : BitVec 7)
  /-- CTZ, R58: Counts the trailing zero bits of a. -/
  | ctz (d a : BitVec 7)
  /-- POPC, R58: Counts the one bits of a. -/
  | popc (d a : BitVec 7)
  /-- SEXT, R60: Sign-extends a from bit b<5:0>. -/
  | sext (d a b : BitVec 7)
  /-- ZEXT, R60: Zero-extends a from bit b<5:0>. -/
  | zext (d a b : BitVec 7)
  /-- MOVX, R58: Copies a into d. -/
  | movx (d a : BitVec 7)
  /-- ADDI, R61: Writes a + sext(imm12) to d. -/
  | addi (d a : BitVec 7) (imm : BitVec 12)
  /-- ANDI, R61: Writes a AND sext(imm12) to d. -/
  | andi (d a : BitVec 7) (imm : BitVec 12)
  /-- ORI, R61: Writes a OR sext(imm12) to d. -/
  | ori (d a : BitVec 7) (imm : BitVec 12)
  /-- XORI, R61: Writes a XOR sext(imm12) to d. -/
  | xori (d a : BitVec 7) (imm : BitVec 12)
  /-- SHLI, R61: Shifts a left by imm12<5:0>. -/
  | shli (d a : BitVec 7) (imm : BitVec 6)
  /-- SHRI, R61: Shifts a right logically by imm12<5:0>. -/
  | shri (d a : BitVec 7) (imm : BitVec 6)
  /-- SARI, R61: Shifts a right arithmetically by imm12<5:0>. -/
  | sari (d a : BitVec 7) (imm : BitVec 6)
  /-- MULI, R61: Writes the low 64 bits of a × sext(imm12) to d. -/
  | muli (d a : BitVec 7) (imm : BitVec 12)
  /-- LI, R62: Loads sext(imm19) into d. -/
  | li (d : BitVec 7) (imm : BitVec 19)
  /-- LPC, R63: Writes its own address + 4 × sext(imm19) to d. -/
  | lpc (d : BitVec 7) (imm : BitVec 19)
  /-- LOOP, R71: Decrements d and branches while the result is nonzero. -/
  | loop (d : BitVec 7) (imm : BitVec 19)
  /-- CMPEQ, R64: Sets predicate d when a = b. -/
  | cmpeq (d a b : BitVec 7)
  /-- CMPNE, R64: Sets predicate d when a ≠ b. -/
  | cmpne (d a b : BitVec 7)
  /-- CMPLT, R64: Sets predicate d when a < b as i64. -/
  | cmplt (d a b : BitVec 7)
  /-- CMPLE, R64: Sets predicate d when a ≤ b as i64. -/
  | cmple (d a b : BitVec 7)
  /-- CMPLTN, R64: Sets predicate d when a < b as n64. -/
  | cmpltn (d a b : BitVec 7)
  /-- CMPLEN, R64: Sets predicate d when a ≤ b as n64. -/
  | cmplen (d a b : BitVec 7)
  /-- CMPTST, R64: Sets predicate d when a AND b is nonzero. -/
  | cmptst (d a b : BitVec 7)
  /-- CMPEQI, R65: Sets predicate d when a equals sext(imm12). -/
  | cmpeqi (d a : BitVec 7) (imm : BitVec 12)
  /-- CMPLTI, R65: Sets predicate d when a < sext(imm12) as i64. -/
  | cmplti (d a : BitVec 7) (imm : BitVec 12)
  /-- CMPLTNI, R65: Sets predicate d when a < sext(imm12) as n64. -/
  | cmpltni (d a : BitVec 7) (imm : BitVec 12)
  /-- PAND, R66: Writes the AND of two predicates. -/
  | pand (d a b : BitVec 7)
  /-- POR, R66: Writes the OR of two predicates. -/
  | por (d a b : BitVec 7)
  /-- PXOR, R66: Writes the XOR of two predicates. -/
  | pxor (d a b : BitVec 7)
  /-- PANDN, R66: Writes a AND NOT b over predicates. -/
  | pandn (d a b : BitVec 7)
  /-- PNOT, R66: Writes the inverse of a predicate. -/
  | pnot (d a : BitVec 7)
  /-- PMOV, R66: Copies a predicate. -/
  | pmov (d a : BitVec 7)
  /-- PSET, R66: Sets predicate d when value a is nonzero. -/
  | pset (d a : BitVec 7)
  /-- SEL, R67: Writes a when pN is one, and b otherwise. -/
  | sel (d a b : BitVec 7) (p : BitVec 3)
  /-- B, R69: Branches unconditionally by off22 words. -/
  | b (off : BitVec 22)
  /-- BP, R69: Branches when predicate pN is one. -/
  | bp (p : BitVec 3) (off : BitVec 22)
  /-- BNP, R69: Branches when predicate pN is zero. -/
  | bnp (p : BitVec 3) (off : BitVec 22)
  /-- CALL, R72: Writes the return address to g62 and branches. -/
  | call (off : BitVec 22)
  /-- JR, R73: Jumps to the address in a. -/
  | jr (a : BitVec 7)
  /-- JALR, R73: Jumps to a and writes the return address to d. -/
  | jalr (d a : BitVec 7)
  /-- RET, R73: Jumps to g62. -/
  | ret
  /-- BZ, R70: Branches when a is zero, with the test inverted by neg. -/
  | bz (a : BitVec 7) (n : BitVec 1) (off : BitVec 18)
  /-- BNZ, R70: Branches when a is nonzero, with the test inverted by neg. -/
  | bnz (a : BitVec 7) (n : BitVec 1) (off : BitVec 18)
  /-- FADD, R76: Binary64 addition rounded by FRM. -/
  | fadd (d a b : BitVec 7)
  /-- FSUB, R76: Binary64 subtraction rounded by FRM. -/
  | fsub (d a b : BitVec 7)
  /-- FMUL, R76: Binary64 multiplication rounded by FRM. -/
  | fmul (d a b : BitVec 7)
  /-- FDIV, R76: Binary64 division rounded by FRM. -/
  | fdiv (d a b : BitVec 7)
  /-- FSQRT, R76: Binary64 square root rounded by FRM. -/
  | fsqrt (d a : BitVec 7)
  /-- FMIN, R77: Returns the smaller binary64 operand, without rounding. -/
  | fmin (d a b : BitVec 7)
  /-- FMAX, R77: Returns the larger binary64 operand, without rounding. -/
  | fmax (d a b : BitVec 7)
  /-- FABS, R78: Clears the sign bit of a. -/
  | fabs (d a : BitVec 7)
  /-- FNEG, R78: Inverts the sign bit of a. -/
  | fneg (d a : BitVec 7)
  /-- FCMPEQ, R79: Sets predicate d when two binary64 values are equal. -/
  | fcmpeq (d a b : BitVec 7)
  /-- FCMPLT, R79: Sets predicate d when a < b in binary64. -/
  | fcmplt (d a b : BitVec 7)
  /-- FCMPLE, R79: Sets predicate d when a ≤ b in binary64. -/
  | fcmple (d a b : BitVec 7)
  /-- FCVTIF, R80: Converts i64 to binary64. -/
  | fcvtif (d a : BitVec 7)
  /-- FCVTFI, R80: Converts binary64 to i64, saturating. -/
  | fcvtfi (d a : BitVec 7)
  /-- FCVTSD, R80: Converts binary32 to binary64 exactly. -/
  | fcvtsd (d a : BitVec 7)
  /-- FCVTDS, R80: Converts binary64 to binary32 rounded by FRM. -/
  | fcvtds (d a : BitVec 7)
  /-- FCLASS, R81: Writes a one-hot class mask of a. -/
  | fclass (d a : BitVec 7)
  /-- FFMA, R82: Fused a × b + d with one rounding. -/
  | ffma (d a b : BitVec 7)
  /-- FFMS, R82: Fused a × b − d with one rounding. -/
  | ffms (d a b : BitVec 7)
  /-- LDB, R94: Loads one byte, sign-extended, with a declared scope. -/
  | ldb (t a : BitVec 7) (c : BitVec 3) (off : BitVec 7)
  /-- LDH, R94: Loads two bytes, sign-extended. -/
  | ldh (t a : BitVec 7) (c : BitVec 3) (off : BitVec 7)
  /-- LDW, R94: Loads four bytes, sign-extended. -/
  | ldw (t a : BitVec 7) (c : BitVec 3) (off : BitVec 7)
  /-- LDD, R94: Loads eight bytes. -/
  | ldd (t a : BitVec 7) (c : BitVec 3) (off : BitVec 7)
  /-- LDBZ, R94: Loads one byte, zero-extended. -/
  | ldbz (t a : BitVec 7) (c : BitVec 3) (off : BitVec 7)
  /-- LDHZ, R94: Loads two bytes, zero-extended. -/
  | ldhz (t a : BitVec 7) (c : BitVec 3) (off : BitVec 7)
  /-- LDWZ, R94: Loads four bytes, zero-extended. -/
  | ldwz (t a : BitVec 7) (c : BitVec 3) (off : BitVec 7)
  /-- LDD_Z, R22: Loads eight bytes, with the same effect as LDD. -/
  | lddZ (t a : BitVec 7) (c : BitVec 3) (off : BitVec 7)
  /-- STB, R94: Stores one byte with a declared scope. -/
  | stb (t a : BitVec 7) (c : BitVec 3) (off : BitVec 7)
  /-- STH, R94: Stores two bytes. -/
  | sth (t a : BitVec 7) (c : BitVec 3) (off : BitVec 7)
  /-- STW, R94: Stores four bytes. -/
  | stw (t a : BitVec 7) (c : BitVec 3) (off : BitVec 7)
  /-- STD, R94: Stores eight bytes. -/
  | std (t a : BitVec 7) (c : BitVec 3) (off : BitVec 7)
  /-- LDX, R95: Loads eight bytes at a + b, with a derived scope. -/
  | ldx (d a b : BitVec 7)
  /-- STX, R95: Stores eight bytes at a + b. -/
  | stx (d a b : BitVec 7)
  /-- LDF, R96: Waits for a full tagged word and reads it, leaving it full. -/
  | ldf (d a : BitVec 7)
  /-- LDFE, R96: Waits for a full tagged word, reads it and empties it. -/
  | ldfe (d a : BitVec 7)
  /-- STE, R96: Waits for an empty tagged word, stores b and fills it. -/
  | ste (a b : BitVec 7)
  /-- STF, R96: Stores b and sets the tag full, without waiting. -/
  | stf (a b : BitVec 7)
  /-- FESET, R96: Sets a word's tag full. -/
  | feset (a : BitVec 7)
  /-- FECLR, R96: Sets a word's tag empty. -/
  | feclr (a : BitVec 7)
  /-- FEQ, R96: Reads a word's tag into a predicate. -/
  | feq (d a : BitVec 7)
  /-- LDFE_NB, R96: Non-blocking LDFE that reports success in p7. -/
  | ldfeNb (d a : BitVec 7)
  /-- STE_NB, R96: Non-blocking STE that reports success in p7. -/
  | steNb (a b : BitVec 7)
  /-- AMOADD, R332: Atomic add that returns the old value. -/
  | amoadd (d a b : BitVec 7)
  /-- AMOAND, R332: Atomic AND that returns the old value. -/
  | amoand (d a b : BitVec 7)
  /-- AMOOR, R332: Atomic OR that returns the old value. -/
  | amoor (d a b : BitVec 7)
  /-- AMOXOR, R332: Atomic XOR that returns the old value. -/
  | amoxor (d a b : BitVec 7)
  /-- AMOMIN, R332: Atomic signed minimum. -/
  | amomin (d a b : BitVec 7)
  /-- AMOMAX, R332: Atomic signed maximum. -/
  | amomax (d a b : BitVec 7)
  /-- AMOMINN, R332: Atomic unsigned minimum. -/
  | amominn (d a b : BitVec 7)
  /-- AMOMAXN, R332: Atomic unsigned maximum. -/
  | amomaxn (d a b : BitVec 7)
  /-- AMOSWP, R332: Atomic swap. -/
  | amoswp (d a b : BitVec 7)
  /-- AMOCAS, R332: Atomic compare-and-swap against d. -/
  | amocas (d a b : BitVec 7)
  /-- REDADD, R334: Forks an unordered integer add at memory. -/
  | redadd (a b : BitVec 7)
  /-- REDAND, R334: Forks an unordered AND at memory. -/
  | redand (a b : BitVec 7)
  /-- REDOR, R334: Forks an unordered OR at memory. -/
  | redor (a b : BitVec 7)
  /-- REDXOR, R334: Forks an unordered XOR at memory. -/
  | redxor (a b : BitVec 7)
  /-- REDMIN, R334: Forks an unordered signed minimum at memory. -/
  | redmin (a b : BitVec 7)
  /-- REDMAX, R334: Forks an unordered signed maximum at memory. -/
  | redmax (a b : BitVec 7)
  /-- ORED_FADD, R336: Forks a binary64 contribution c to an ordered reduction object. -/
  | oredFadd (c a b : BitVec 7)
  /-- ORED_FADDS, R336: Forks a binary32 contribution to an ordered reduction object. -/
  | oredFadds (c a b : BitVec 7)
  /-- ORED_ADD, R336: Forks an integer contribution to an ordered reduction object. -/
  | oredAdd (c a b : BitVec 7)
  /-- ORED_FMAX, R336: Forks a binary64 maximum contribution. -/
  | oredFmax (c a b : BitVec 7)
  /-- ORED_FMIN, R336: Forks a binary64 minimum contribution. -/
  | oredFmin (c a b : BitVec 7)
  /-- SLEEPU, R101: Sleeps until TB reaches a or a watch fires. -/
  | sleepu (a : BitVec 7)
  /-- RDTB, R100: Reads the timebase into a. -/
  | rdtb (a : BitVec 7)
  /-- YIELD, R100: Defers the context's next issue behind the other ready contexts. -/
  | yield
  /-- FJOIN, R102: Holds the thread until every forked engine operation completes, then joins them. -/
  | fjoin
  /-- DONE, R103: Enters the draining state and disarms the watches. -/
  | done
  /-- STRM_GO, R109: Forks a datapath stream from source element e. -/
  | strmGo (a : BitVec 7) (r : BitVec 1) (e : BitVec 5)
  /-- STRM_ARG, R108: Queues an argument-slot write to element e. -/
  | strmArg (a : BitVec 7) (r : BitVec 1) (e : BitVec 5)
  /-- DRAIN, R111: Waits until every sink has passed an EOS of rank r and its rounds have committed. -/
  | drain (r : BitVec 6)
  /-- CFGLD, R112: Checks a segment and loads it into the context's pending bank. -/
  | cfgld (a : BitVec 7)
  /-- CFGQ, R114: Reads the takeover status word. -/
  | cfgq (a : BitVec 7)
  /-- STRM_TOK, R110: Queues one DATA or EOS token to an EMIT element. -/
  | strmTok (a b : BitVec 7) (e : BitVec 5)
  /-- SEND, R115: Forks a copy from the issuer's scratchpad and writes the promised time. -/
  | send (d a b : BitVec 7)
  /-- SENDR, R119: Forks a copy that merges into the destination scratchpad under k2. -/
  | sendr (d a b : BitVec 7)
  /-- CTRADD, R120: Joins every fork of the thread, then adds b to a counter. -/
  | ctradd (a b : BitVec 7)
  /-- CTRWAIT, R120: Waits until a counter reaches the target. -/
  | ctrwait (a b : BitVec 7)
  /-- CTRRD, R120: Reads a counter. -/
  | ctrrd (a b : BitVec 7)
  /-- CTRWAIT_NB, R120: Tests a counter against the target into p7. -/
  | ctrwaitNb (a b : BitVec 7)
  /-- CTRWATCH, R121: Arms watch N on a counter and clears pN. -/
  | ctrwatch (a b : BitVec 7) (n : BitVec 6)
  /-- THLD, R123: Loads and checks a tensor handle. -/
  | thld (h b : BitVec 7)
  /-- THST, R123: Stores a tensor handle. -/
  | thst (h b : BitVec 7)
  /-- THSET, R123: Writes one word of a handle, unchecked. -/
  | thset (h b : BitVec 7) (w : BitVec 6)
  /-- THGET, R123: Reads one word of a handle. -/
  | thget (a h : BitVec 7) (w : BitVec 6)
  /-- THCHK, R123: Tests whether a handle is well formed. -/
  | thchk (h : BitVec 7)
  /-- BARINIT, R272: Initialises a named barrier from a block. -/
  | barinit (a b : BitVec 7)
  /-- BARARR, R273: Joins the issuer's forks and arrives at a barrier. -/
  | bararr (a b : BitVec 7)
  /-- BARWAIT, R274: Waits until a barrier episode completes. -/
  | barwait (a b : BitVec 7)
  /-- BARSYNC, R274: Arrives at a barrier, then waits on the episode. -/
  | barsync (a b : BitVec 7)
  /-- BARRD, R277: Reads a barrier field selected by sel. -/
  | barrd (a b : BitVec 7) (s : BitVec 6)
  /-- BARCFG, R276: Sets a barrier's T, K and W. -/
  | barcfg (a b : BitVec 7)
  /-- BARLEAVE, R275: Removes the member from the barrier's later episodes. -/
  | barleave (a : BitVec 7)
  /-- CTXDEF, R278: Joins forks and writes the context's own exchange word n. -/
  | ctxdef (a : BitVec 7) (n : BitVec 6)
  /-- CTXRD, R278: Reads exchange word n of context c. -/
  | ctxrd (a b : BitVec 7) (n : BitVec 6)
  /-- CTXWT, R278: Waits until an exchange word reaches a target. -/
  | ctxwt (a b : BitVec 7) (n : BitVec 6)
  /-- RCLOSE, R281: Waits for the open rounds to commit (v = 0), or voids them (v = 1). -/
  | rclose (v : BitVec 6)
  /-- RQRY, R282: Reads the home's round status for the context. -/
  | rqry (a : BitVec 7)
  /-- ENQ, R338: Blocking enqueue of s bytes at b. -/
  | enq (a b : BitVec 7)
  /-- ENQ_NB, R338: Non-blocking enqueue. -/
  | enqNb (a b : BitVec 7)
  /-- DEQ, R338: Blocking dequeue into b. -/
  | deq (a b : BitVec 7)
  /-- DEQ_NB, R338: Non-blocking dequeue. -/
  | deqNb (a b : BitVec 7)
  /-- QSTEAL, R311: Steals an element from the tail of a stealable queue. -/
  | qsteal (a b : BitVec 7)
  /-- QINIT, R341: Initialises an AQCB. -/
  | qinit (a b : BitVec 7)
  /-- QSTAT, R342: Reads a queue's status word. -/
  | qstat (d a : BitVec 7)
  /-- QPOISON, R341: Poisons a queue and fails its waiters. -/
  | qpoison (a : BitVec 7)
  /-- QDRAIN, R341: Privileged drain of every held element to b. -/
  | qdrain (d a b : BitVec 7)
  /-- ENQV, R338: Blocking enqueue of the value b. -/
  | enqv (a b : BitVec 7)
  /-- DEQV, R338: Blocking dequeue into d. -/
  | deqv (d a : BitVec 7)
  /-- GATH, R343: Forks an indexed gather in the page slice. -/
  | gath (a b : BitVec 7) (s w : BitVec 1) (e : BitVec 2)
  /-- SCAT, R343: Forks an indexed scatter in the page slice. -/
  | scat (a b : BitVec 7) (s w : BitVec 1) (e : BitVec 2)
  /-- LAUNCH, R345: Starts a child launch from a descriptor, or reports full. -/
  | launch (d a : BitVec 7)
  /-- LAUNCH_W, R345: Starts a child launch, waiting for a pool entry. -/
  | launchW (d a : BitVec 7)
  /-- CANCEL, R347: Cancels a launch, graph, phase or job. -/
  | cancel (a b : BitVec 7)
  /-- GRAPHNEW, R346: Makes a graph with a declared launch count. -/
  | graphnew (a b : BitVec 7)
  /-- JOBDL, R348: Privileged change of a job's deadline. -/
  | jobdl (a b : BitVec 7)
  /-- LTURN, R381: Requests a lane-group turn at end L of a link. -/
  | lturn (a b : BitVec 7) (l : BitVec 2) (g : BitVec 4)
  /-- LQRY, R382: Reads a link's state or one LASTT. -/
  | lqry (a b : BitVec 7) (s : BitVec 1) (l : BitVec 2)
  /-- LFLOOR, R383: Privileged setting of a link's floors. -/
  | lfloor (a b : BitVec 7) (l : BitVec 2)
  /-- MCST, R384: Multicast store to up to four replicas as one event. -/
  | mcst (a b : BitVec 7) (m : BitVec 4)
  /-- EPBIND, R385: Privileged binding of a host endpoint. -/
  | epbind (a : BitVec 7) (e : BitVec 5)
  /-- EPUNB, R386: Privileged unbinding of a host endpoint. -/
  | epunb (e : BitVec 5)
  /-- PREEMPT, R405: Starts the marker pre-emption of a launch. -/
  | preempt (a b : BitVec 7)
  /-- RESUME, R405: Returns a suspended launch to the pool. -/
  | resume (a b : BitVec 7)
  /-- SNAPQ, R406: Reads a launch's snapshot state. -/
  | snapq (a b : BitVec 7)
  /-- TLBINV, R349: Removes the cached translations of one page of a job. -/
  | tlbinv (a b : BitVec 7)
  /-- TLBINVA, R349: Removes every cached translation of a job, or of all jobs. -/
  | tlbinva (a : BitVec 7) (m : BitVec 1)
  /-- WCINV, R349: Removes the walk-cache entries of a job. -/
  | wcinv (a : BitVec 7)
  /-- XLPROBE, R350: Walks a VA without caching and returns the result. -/
  | xlprobe (a b : BitVec 7)
  /-- CSRR, R84: Reads a CSR. -/
  | csrr (d : BitVec 7) (c : BitVec 12)
  /-- CSRW, R84: Writes a CSR and returns the old value. -/
  | csrw (d a : BitVec 7) (c : BitVec 12)
  /-- CSRS, R84: Sets bits of a CSR and returns the old value. -/
  | csrs (d a : BitVec 7) (c : BitVec 12)
  /-- CSRC, R84: Clears bits of a CSR and returns the old value. -/
  | csrc (d a : BitVec 7) (c : BitVec 12)
  /-- TRAP, R87: Raises cause 0x14 with imm6. -/
  | trap (imm : BitVec 6)
  /-- ERET, R51: Returns from a trap to TRAPPC and restores the mode. -/
  | eret
  /-- BREAK, R87: Raises cause 0x16 with imm6. -/
  | breakI (imm : BitVec 6)
  /-- ATTEST, R89: Privileged request for a signed attestation report. -/
  | attest (a b : BitVec 7)
  /-- FREEZE, R90: Privileged freeze of a unit, endpoint or host port. -/
  | freeze (a : BitVec 7)
  -- element operations (R30)
  /-- OADD, R147: Online digit addition firing. -/
  | oadd (a b p : BitVec 5)
  /-- OSUB, R147: Online digit subtraction firing. -/
  | osub (a b p : BitVec 5)
  /-- OMUL, R147: Online digit multiplication firing. -/
  | omul (a b p : BitVec 5)
  /-- OFMA, R147: Online fused multiply-add firing. -/
  | ofma (a b c p : BitVec 5)
  /-- ODIV, R147: Online division firing. -/
  | odiv (a b p : BitVec 5)
  /-- OSQRT, R147: Online square-root firing. -/
  | osqrt (a p : BitVec 5)
  /-- ORSQRT, R147: Online reciprocal square-root firing. -/
  | orsqrt (a p : BitVec 5)
  /-- OEXP2, R147: Online power-of-two firing. -/
  | oexp2 (a p : BitVec 5)
  /-- OSCL, R150: Adds the scale amount s to the exponent and passes the digits. -/
  | oscl (a p : BitVec 5)
  /-- ONEG, R150: Negates every digit. -/
  | oneg (a p : BitVec 5)
  /-- OABS, R150: Exact absolute value of a digit stream. -/
  | oabs (a p : BitVec 5)
  /-- OCMP, R151: Compares two digit streams and emits one DATA token per group. -/
  | ocmp (a b p : BitVec 5) (k : BitVec 1)
  /-- OMAX, R151: Online maximum, killing the losing operand lane when KE is set. -/
  | omax (a b p : BitVec 5) (k : BitVec 1)
  /-- ORELU, R150: Exact max(x, 0) of a digit stream. -/
  | orelu (a p : BitVec 5) (k : BitVec 1)
  /-- OTHR, R150: Thresholded max(x − θ, 0). -/
  | othr (a p : BitVec 5) (k : BitVec 1)
  /-- OW2D, R154: Converts words to digit groups exactly. -/
  | ow2d (a p : BitVec 5) (w : BitVec 2)
  /-- OD2W, R155: Converts digit groups to rounded words. -/
  | od2w (a p : BitVec 5) (r w : BitVec 2)
  /-- OACC, R152: Accumulates digit groups over an episode. -/
  | oacc (a p : BitVec 5)
  /-- VADD, R185: Vector addition firing. -/
  | vadd (a b : BitVec 5) (f : BitVec 3) (r : BitVec 2) (x : BitVec 4)
  /-- VSUB, R185: Vector subtraction firing. -/
  | vsub (a b : BitVec 5) (f : BitVec 3) (r : BitVec 2) (x : BitVec 4)
  /-- VMUL, R185: Vector multiplication firing. -/
  | vmul (a b : BitVec 5) (f : BitVec 3) (r : BitVec 2) (x : BitVec 4)
  /-- VFMA, R185: Vector fused multiply-add firing. -/
  | vfma (a b c : BitVec 5) (f : BitVec 3) (r : BitVec 2) (x : BitVec 4)
  /-- VDIV, R185: Vector division firing. -/
  | vdiv (a b : BitVec 5) (f : BitVec 3) (r : BitVec 2) (x : BitVec 4)
  /-- VSQRT, R185: Vector square-root firing. -/
  | vsqrt (a : BitVec 5) (f : BitVec 3) (r : BitVec 2) (x : BitVec 4)
  /-- VMIN, R185: Vector minimum firing. -/
  | vmin (a b : BitVec 5) (f : BitVec 3) (r : BitVec 2) (x : BitVec 4)
  /-- VMAX, R185: Vector maximum firing. -/
  | vmax (a b : BitVec 5) (f : BitVec 3) (r : BitVec 2) (x : BitVec 4)
  /-- VABS, R185: Vector absolute value firing. -/
  | vabs (a : BitVec 5) (f : BitVec 3) (r : BitVec 2) (x : BitVec 4)
  /-- VNEG, R185: Vector negation firing. -/
  | vneg (a : BitVec 5) (f : BitVec 3) (r : BitVec 2) (x : BitVec 4)
  /-- VCMP, R185: Vector comparison firing, with the relation from slot 0. -/
  | vcmp (a b : BitVec 5) (f : BitVec 3) (r : BitVec 2) (x : BitVec 4)
  /-- VSEL, R185: Bitwise vector selection by C. -/
  | vsel (a b c : BitVec 5) (f : BitVec 3) (r : BitVec 2) (x : BitVec 4)
  /-- VCVT, R186: Vector format conversion firing. -/
  | vcvt (a : BitVec 5) (f : BitVec 3) (r : BitVec 2) (x : BitVec 4)
  /-- VRED, R187: Reduces a vector by the fixed pairwise tree. -/
  | vred (a : BitVec 5) (f : BitVec 3) (r : BitVec 2) (x : BitVec 4)
  /-- VAND, R185: Vector AND firing. -/
  | vand (a b : BitVec 5) (f : BitVec 3) (r : BitVec 2) (x : BitVec 4)
  /-- VOR, R185: Vector OR firing. -/
  | vor (a b : BitVec 5) (f : BitVec 3) (r : BitVec 2) (x : BitVec 4)
  /-- VXOR, R185: Vector XOR firing. -/
  | vxor (a b : BitVec 5) (f : BitVec 3) (r : BitVec 2) (x : BitVec 4)
  /-- VSHL, R185: Vector shift left firing. -/
  | vshl (a b : BitVec 5) (f : BitVec 3) (r : BitVec 2) (x : BitVec 4)
  /-- VSHR, R185: Vector shift right firing. -/
  | vshr (a b : BitVec 5) (f : BitVec 3) (r : BitVec 2) (x : BitVec 4)
  /-- VMAC, R187: Accumulates a × b per context, emitting the sum at an EOS. -/
  | vmac (a b : BitVec 5) (f : BitVec 3) (r : BitVec 2) (x : BitVec 4)
  /-- VPERM, R185: Vector lane permutation firing. -/
  | vperm (a b : BitVec 5) (f : BitVec 3) (r : BitVec 2) (x : BitVec 4)
  /-- VSAT, R185: Clamps integer lanes to the range of a type. -/
  | vsat (a : BitVec 5) (f : BitVec 3) (r : BitVec 2) (x : BitVec 4)
  /-- MMA, R195: Matrix row product firing, without scales. -/
  | mma (a b c : BitVec 5) (f : BitVec 3) (x : BitVec 4)
  /-- MMAS, R195: Scaled FP8 matrix row product firing. -/
  | mmas (a b c : BitVec 5) (f : BitVec 3) (x : BitVec 4)
  /-- MMAC, R195: Matrix row product fed by the chained converter. -/
  | mmac (c : BitVec 5) (f : BitVec 3) (x : BitVec 4)
  /-- MLDB, R196: Loads B blocks into the B store. -/
  | mldb (a : BitVec 5) (f : BitVec 3) (x : BitVec 4)
  /-- MZERO, R196: Clears accumulator rows. -/
  | mzero (a : BitVec 5) (f : BitVec 3) (x : BitVec 4)
  /-- MRD, R196: Reads accumulator rows out as words. -/
  | mrd (a : BitVec 5) (f : BitVec 3) (r : BitVec 2) (x : BitVec 4)
  /-- MCX, R198: Top-k compare-and-exchange over a key stream. -/
  | mcx (a : BitVec 5) (f : BitVec 3) (x : BitVec 4)
  /-- MSPM, R197: Sparse matrix row-group product in the Whisk. -/
  | mspm (a b c : BitVec 5) (f : BitVec 3) (x : BitVec 4)
  /-- CVDN, R199: Down-converts word blocks to scaled FP8. -/
  | cvdn (a : BitVec 5) (f : BitVec 3) (s : BitVec 1)
  /-- CVUP, R202: Up-converts scaled FP8 blocks to words. -/
  | cvup (a : BitVec 5) (f : BitVec 3) (r : BitVec 2)
  /-- SJOIN, R203: Pairs data blocks with their SCALE tokens. -/
  | sjoin (a b : BitVec 5) (f : BitVec 3)
  /-- MLD, R207: Memory-port load firing. -/
  | mld (a : BitVec 5) (w s x : BitVec 3)
  /-- MST, R207: Memory-port store firing. -/
  | mst (a b : BitVec 5) (w s x : BitVec 3)
  /-- MLDT, R211: Typed load through a tensor handle. -/
  | mldt (a : BitVec 5) (s : BitVec 3)
  /-- MSTT, R211: Typed store through a tensor handle. -/
  | mstt (a b : BitVec 5) (s : BitVec 3)
  /-- MAMO, R209: Memory-port atomic firing. -/
  | mamo (a b c : BitVec 5) (w s : BitVec 3) (x : BitVec 1)
  /-- MLDF, R210: Waits for a full tagged word and loads it. -/
  | mldf (a : BitVec 5) (w s : BitVec 3) (x : BitVec 1)
  /-- MSTE, R210: Waits for an empty tagged word, stores and fills it. -/
  | mste (a b : BitVec 5) (w s : BitVec 3) (x : BitVec 1)
  /-- AGA, R213: Emits the next affine address. -/
  | aga
  /-- AGX, R214: Emits an address from an index token. -/
  | agx (a : BitVec 5)
  /-- AGH, R215: Emits the next address of a tensor-handle walk. -/
  | agh
  /-- XLATE, R216: Translates an address token to a physical address. -/
  | xlate (a : BitVec 5) (k : BitVec 2) (f : BitVec 1)
  /-- SIEVE, R219: Compresses dense tokens into entries; t is the integer type of R27 (R218). -/
  | sieve (a : BitVec 5) (f : BitVec 3) (t : BitVec 3) (n : BitVec 1)
  /-- UNSIEVE, R220: Expands entries into dense tokens; t is the integer type of R27 (R218). -/
  | unsieve (a : BitVec 5) (f : BitVec 3) (t : BitVec 3) (n : BitVec 1)
  /-- GATE_CTOK, R223: Passes A while it is opened by CTOK tokens on B. -/
  | gateCtok (a b : BitVec 5)
  /-- GATE_COUNTER, R223: Passes A once a counter reaches its target. -/
  | gateCounter (a : BitVec 5)
  /-- CARRY, R224: Loop-carry firing in the idle or looping state. -/
  | carry (a b c : BitVec 5)
  /-- STEER, R225: Emits A when B<0> equals SENSE. -/
  | steer (a b : BitVec 5) (s : BitVec 1)
  /-- MERGE, R225: Emits A or B as selected by C. -/
  | merge (a b c : BitVec 5)
  /-- DUP, R225: Emits each token n times. -/
  | dup (a : BitVec 5)
  /-- EOSGEN, R225: Counts tokens and inserts an EOS after every n. -/
  | eosgen (a : BitVec 5) (g : BitVec 1)
  /-- SINK, R226: Consumes tokens, writing them to an egress range when EGR is set. -/
  | sink (a : BitVec 5) (e : BitVec 1)
  /-- EMIT_TOK, R227: Emits the tokens queued by STRM.TOK. -/
  | emitTok
  /-- EMIT_IOTA, R227: Emits an arithmetic sequence of DATA tokens. -/
  | emitIota
  /-- EMIT_ING, R227: Emits the tokens that the host writes to an ingress endpoint. -/
  | emitIng
  /-- TAGOP_SET, R228: Writes ltag from slot 0. -/
  | tagopSet (a : BitVec 5)
  /-- TAGOP_CTOK, R228: Turns DATA tokens into CTOK tokens. -/
  | tagopCtok (a : BitVec 5)
  /-- TAGOP_CLEAR, R228: Clears ltag. -/
  | tagopClear (a : BitVec 5)
  -- routes (R229)
  /-- ROUTE_PASS, R229: A pass route moves one token in 1 cycle. -/
  | routePass (off imm : BitVec 4) (c : BitVec 2)
  /-- ROUTE_HOLD, R229: A hold route re-presents its held token until an EOS of rank 1 or higher. -/
  | routeHold (off imm : BitVec 4) (c : BitVec 2)
  /-- ROUTE_FANOUT, R229: A fan-out route delivers a token to every output once all have credit. -/
  | routeFanout (off imm : BitVec 4) (c : BitVec 2)
  /-- ROUTE_SEAM, R229: A seam route passes a token through the registered seam. -/
  | routeSeam (off imm : BitVec 4) (c : BitVec 2)
  -- events
  /-- BOUNDARY_TRAP, R52: A pending scope-breach or late-packet trap is taken before the next C-word. -/
  | boundaryTrap (u : Nat)
  /-- WAIT_TIMEOUT, R49: A wait's count reaches WAITLIM and raises cause 0x09. -/
  | waitTimeout (u : Nat)
  /-- SCRUB, R170: The background scrub visits and corrects a scratchpad word. -/
  | scrub (t : Nat)
  /-- SLEEPU_WAKE, R101: The sleep ends and promises are checked and joined. -/
  | sleepuWake (u : Nat)
  /-- WATCH_FIRE, R121: An armed counter watch fires and sets its predicate. -/
  | watchFire (u n : Nat)
  /-- COPY_COMPLETE, R116: A copy writes its last word and increments its counter. -/
  | copyComplete (f : Nat)
  /-- SENDR_MERGE, R119: The destination port merges a contribution in index order. -/
  | sendrMerge (f : Nat)
  /-- PENDING_TAKEOVER, R112: An element or route takes over its pending word after the old work's EOS. -/
  | pendingTakeover (u x : Nat)
  /-- SEGMENT_LOAD, R264: The region controller writes an image segment into the pending banks. -/
  | segmentLoad (l : Nat)
  /-- LAUNCH_START, R44: A placed launch starts every unit at its prologue. -/
  | launchStart (l : Nat)
  /-- UNIT_RETIRE, R103: A draining unit retires once its forks have joined and its sinks have passed rank-2 EOS. -/
  | unitRetire (u : Nat)
  /-- EOS_STEP, R164: An element forwards one EOS and releases its sticky tokens. -/
  | eosStep (u e : Nat)
  /-- ROUND_STEP, R254: An element shadows its state and forwards a TAG. -/
  | roundStep (u e : Nat)
  /-- ROUND_COMMIT, R255: The home commits a closed round at one logical time. -/
  | roundCommit (l k : Nat)
  /-- KILL, R166: A KILL message makes an element read and emit EZ in the killed lanes. -/
  | kill
  /-- CREDIT_RETURN, R160: A freed FIFO slot is credited back to the sender. -/
  | creditReturn (f : Nat)
  /-- FAULT_RECORD_WRITE, R173: The region controller writes a fault record to the job's fault queue, waiting if it is full. -/
  | faultRecordWrite (pg : Nat)
  /-- ORED_MERGE, R336: The custodian merges or holds an ordered contribution. -/
  | oredMerge (f : Nat)
  /-- RED_EVENT, R334: A reduction engine makes its indivisible event at the custodian. -/
  | redEvent (f : Nat)
  /-- GATHER_STEP, R344: A gather or scatter engine moves elements and increments its counter. -/
  | gatherStep (f : Nat)
  /-- ATTEST_REPORT, R89: The die controller writes the signed report and increments the counter. -/
  | attestReport (f : Nat)
  /-- PAGE_WALK, R316: A page walk completes with a translation or a fault. -/
  | pageWalk (t job : Nat) (va : BitVec 64) (kind : Nat)
  /-- LAUNCH_COMPLETE, R318: A launch completes, its counters advance, and its contexts are cleared. -/
  | launchComplete (l : Nat)
  /-- PHASE_COMPLETE, R318: A phase's rank-3 EOS drains and the job counter advances. -/
  | phaseComplete (job : Nat) (ctr : BitVec 64)
  /-- LOADER_DESCRIPTOR, R322: The loader checks an ingress descriptor, loads the image and places a pool entry. -/
  | loaderDescriptor (ep : Nat)
  /-- POOL_PLACE, R325: The allocator places a pool entry at the first origin that fits. -/
  | poolPlace (d : Nat)
  /-- COMPACT, R326: The allocator moves page sets to make room. -/
  | compact (l g : Nat)
  /-- VICTIM_PREEMPT, R327: The allocator pre-empts a lower-class victim job. -/
  | victimPreempt (l : Nat)
  /-- PARENT_YIELD, R324: A blocked parent is pre-empted in favour of its pooled descendant. -/
  | parentYield (l : Nat)
  /-- PACKET_ARBITRATE, R328: An arbiter sends the packet with the least slack. -/
  | packetArbitrate (a : Nat)
  /-- WATCHDOG_SNAPSHOT, R265: The progress watchdog fires, snapshots the launch, reports and resumes it. -/
  | watchdogSnapshot (l : Nat)
  /-- WATCHDOG_CANCEL, R265: The progress watchdog fires and cancels the launch. -/
  | watchdogCancel (l : Nat)
  /-- RC_RESUME, R263: RCCMD 1 resumes the selected frozen element or faulted unit. -/
  | rcResume (pg : Nat)
  /-- RC_CANCEL, R263: RCCMD 2 cancels the selected context's launch. -/
  | rcCancel (pg : Nat)
  /-- RC_SNAPSHOT, R263: RCCMD 3 snapshots the launch, reports and resumes it. -/
  | rcSnapshot (pg : Nat)
  /-- RCSEL_WRITE, R263: Selects a tile, context and element, refusing invalid element numbers. -/
  | rcselWrite (pg : Nat) (v : BitVec 64)
  /-- RC_UNIT_FRAME_WRITE, R263: Writes a faulted unit's frame, and is refused otherwise. -/
  | rcUnitFrameWrite (pg off : Nat) (v : BitVec 64)
  /-- RC_ESR_WRITE, R174: Clears the W1C bits of the selected element's ESR. -/
  | rcEsrWrite (pg : Nat) (v : BitVec 64)
  /-- RC_CVSR_WRITE, R200: Clears the converter's STEP bit. -/
  | rcCvsrWrite (pg : Nat) (v : BitVec 64)
  /-- REGISTER_WRITE, R8: A write to a register that has no row of its own. -/
  | registerWrite (dev off : Nat) (v : BitVec 64)
  /-- ELEMENT_SAVE, R399: An element with MRK on every input saves its state and forwards MRK. -/
  | elementSave (u e : Nat)
  /-- SNAPSHOT_CLOSE, R400: The snapshot closes once everything has been saved and committed. -/
  | snapshotClose (l : Nat)
  /-- RESTORE, R403: Writes a snapshot into its new tiles and resumes the launch. -/
  | restore (l : Nat)
  /-- SAVED_TOKEN_INJECT, R408: Injects one saved token into a FIFO. -/
  | savedTokenInject (f : Nat)
  /-- TURN_START, R364: The head turn entry stops placing packets on its group. -/
  | turnStart (k : Nat)
  /-- TURN_DRAINED, R364: The turning group has drained, and its dead time begins. -/
  | turnDrained (k : Nat)
  /-- TURN_COMPLETE, R364: The dead time ends, and the group takes its new direction. -/
  | turnComplete (k : Nat)
  /-- INGRESS_SLOT_WRITE, R371: A host write to an endpoint's ingress slot queues one token. -/
  | ingressSlotWrite (ep off size : Nat) (data : BitVec 512)
  /-- INGRESS_EOS_WRITE, R372: A host write to EOS queues an EOS. -/
  | ingressEosWrite (ep size : Nat) (v : BitVec 64)
  /-- HOST_WINDOW_ACCESS, R374: A host read or write through the window, made under HWJOB's tables. -/
  | hostWindowAccess (d off size : Nat) (wr : Bool) (data : BitVec 512)
  /-- HOST_ATOMIC, R302: A host atomic through the window, refused on pages without SA. -/
  | hostAtomic (d off op : Nat) (x c : BitVec 64)
  /-- HOST_BAD_OFFSET, R370: An access to an unmapped aperture offset gets an error completion. -/
  | hostBadOffset (d off : Nat)
  /-- HWJOB_WRITE, R375: Sets the window's job, refusing a job that is not live. -/
  | hwjobWrite (d : Nat) (v : BitVec 64)
  /-- HWBASE_WRITE, R375: Sets the window base, refusing a malformed value. -/
  | hwbaseWrite (d : Nat) (v : BitVec 64)
  /-- MG_RELEASE, R421: MGCMD 1 releases a frozen master. -/
  | mgRelease (d : Nat)
  /-- MG_POLICY, R421: MGCMD 2 writes a job's policy record. -/
  | mgPolicy (d : Nat)
  /-- MG_FRAME, R368: MGCMD 3 writes a frame entry, zeroing the frame for a new owner. -/
  | mgFrame (d : Nat)
  /-- MG_STANDBY, R416: MGCMD 4 enters P2 standby. -/
  | mgStandby (d : Nat)
  /-- MG_WAKE, R416: MGCMD 5 starts the wake from P2. -/
  | mgWake (d : Nat)
  /-- WAKE_COMPLETE, R416: After 2^20 reference-clock cycles the package returns to P0. -/
  | wakeComplete
  /-- MG_PAIR, R396: MGCMD 6 trains an edge link with another package. -/
  | mgPair (d : Nat)
  /-- MG_KEY, R421: MGCMD 7 copies a die's public identity key into MGBUF. -/
  | mgKey (d : Nat)
  /-- MG_LOG, R421: MGCMD 8 copies a security report into MGBUF. -/
  | mgLog (d : Nat)
  /-- MG_DEBUG, R421: A debug command, a security violation without the debug right. -/
  | mgDebug (d : Nat) (code : BitVec 64)
  /-- THCFG_WRITE, R420: Sets TSTEP and TCRIT, refusing TCRIT ≤ TSTEP. -/
  | thcfgWrite (d : Nat) (v : BitVec 64)
  /-- MONITOR_SAMPLE, R378: The monitors are sampled every 65,536 cycles. -/
  | monitorSample (d : Nat)
  /-- THERMAL_STEP_UP, R418: After 2^24 cool cycles the clock rises by one step. -/
  | thermalStepUp
  /-- PACKAGE_RESET, R415: Runs the reset order and releases all dies together. -/
  | packageReset
  /-- IDLE_GATE, R416: Automatic entry to or exit from P1 idle gating. -/
  | idleGate (enter : Bool)
  /-- ILLEGAL_C_WORD, R12: Issue of a C-word whose encoding is undefined (major 0x00, a reserved major, or an unassigned fn or
  fn6) raises cause 0x01. -/
  | illegalCWord (w : BitVec 32)
  /-- FETCH_FAULT, R68: Fetching the C-word at a target that has no translation, has a reserved bit set or lacks execute
  permission raises cause 0x05, 0x06 or 0x07 with TRAPPC and TRAPVAL holding the target. -/
  | fetchFault
  /-- UNCORRECTABLE_ERROR, R170: An uncorrectable error arises in a scratchpad word and the word becomes poisoned. -/
  | uncorrectableError (a : Nat)
  /-- RCCMD_UNASSIGNED, R263: A write of an unassigned command code to RCCMD is refused and sets RCSTAT.REF. -/
  | rccmdUnassigned (pg : Nat) (v : BitVec 64)
  /-- MGCMD_UNASSIGNED, R421: A write of an unassigned, non-debug command code to MGCMD gives MGRES = 2. -/
  | mgcmdUnassigned (d : Nat) (code : BitVec 64)
deriving DecidableEq, Repr

end Sys2Proof
end

