-- ==== Sys2Proof/Machine/State.lean ====
section
/-!
DEFINITION. The state of one J960 package, as plain data, and the state after reset (25_bringup_power.md R415).

Subjects are numbered as Syntax.lean says: a tile `t` is 1024 * die + tile index (R246), a context slot `u` is
4 * t + context, an element is 32 * u + element index (R156), a FIFO is 256 * u + 4 * element + input for an element
input and 256 * u + 128 + port for a mesh input (R160), a page `pg` is 64 * die + page index, a launch `l` is
2^32 * die + LAUNCHID, a round series is 4 * l + image context (R253), a barrier is 1024 * t + index (R267).
Tables that most runs leave empty are held as sorted lists of (number, value); a number that is not listed has the
value that reset gives it.
-/

namespace Sys2Proof.Machine

open Sys2Proof

/-- A table by number: a list with strictly rising numbers. -/
abbrev Map (α : Type) := List (Nat × α)

/-! ## Memory -/

/-- The custodian of an HBM4 line (R292, R293): its home, or a slice of level 0 quad, 1 page, 3 quadrant or 4 root. -/
inductive Custodian where
  | home
  | slice (level die idx : Nat)
deriving DecidableEq, Repr

/-- Coherence state of a line (R292, R293, R296). `served` lists when each tile was last served since the recall, and
`stores` the times of the stores made to the line, the last first, which a round's commit asks for (R300).
DEDUCED (log entry 83). -/
structure Line where
  wts      : Nat := 0
  rts      : Nat := 0
  cust     : Custodian := .home
  byRecall : Bool := false
  recallTb : Nat := 0
  served   : Map Nat := []
  leases   : List Nat := []
  stores   : List Nat := []
deriving DecidableEq, Repr

/-- Memory by physical address (R289). `cells` lists the bytes that are not zero (R415 steps 4 and 5), `full` the
scratchpad words whose tag is full (R96), `poisoned` the words with an uncorrectable error and `single` those with a
single-bit error, and `corrected` counts the errors that each tile has corrected (R170). DESIGN CHOICE (log entry 6). -/
structure Memory where
  cells    : List Host.Cell := []
  full     : List Nat := []
  poisoned : List Nat := []
  single   : List Nat := []
  corrected : Map Nat := []
  lines    : Map Line := []
deriving DecidableEq, Repr

/-! ## Units -/

/-- The unit states of R46. -/
inductive UnitState where
  | free | loaded | ready | running | waiting | draining | faulted | frozen | retired
deriving DecidableEq, Repr

/-- The objects a C-word waits on (R49, DETAIL of cause 0x09 in R54). -/
inductive WaitKind where
  | tagWord | counter | queue | barrier | launchReserve | drain | cfgld | exchange | roundClose | sleep | promise
deriving DecidableEq, Repr

/-- A wait in progress: its object, the value that a timeout reports, and its count of cycles (R49).
`aux` is the target, the episode, the round awaited or the wake time, as the kind has it. DEDUCED (log entry 15). -/
structure Wait where
  kind  : WaitKind
  value : Word
  aux   : Nat := 0
  count : Nat := 0
deriving DecidableEq, Repr

/-- A boundary trap that is pending (R52). -/
structure BoundaryTrap where
  cause  : BitVec 8
  detail : BitVec 8
  value  : Word
deriving DecidableEq, Repr

/-- A counter watch (R121). -/
structure Watch where
  addr   : Word
  target : Word
deriving DecidableEq, Repr

/-- The CSRs of R45. -/
structure Csrs where
  status   : Word := 0x5#64
  cause    : Word := 0#64
  trappc   : Word := 0#64
  trapval  : Word := 0#64
  trapvec  : Word := 0#64
  waitlim  : Word := 0x01000000#64
  roundsz  : Word := 1024#64
  scopedef : Word := 4#64
  jobid    : Word := 0#64
  launchid : Word := 0#64
  depth    : Word := 0#64
  ctxid    : Word := 0#64
  fpflags  : Word := 0#64
  scopebr  : Word := 0#64
  latecnt  : Word := 0#64
deriving DecidableEq, Repr

/-- A tensor handle: sixteen words (R122). -/
abbrev Handle := Vector Word 16

/-- The architectural state of one unit (R41, R44 to R53, R111, R121, R296). `before` is the state to return to from a
fault or a freeze (R47), and `selfFault` says that a double trap or a poisoned read faulted the unit, rather than an
element of its datapath. `yielded` is the cycle of a YIELD that marks the context, and
`issued` that of its last C-word (R100). `newBr` and `newLate` count the breaches and the late packets of the cycle, which
its end adds to SCOPEBR and LATECNT (R86). `awaits` lists the launches whose end a CANCEL awaits (R347).
DESIGN CHOICE (log entry 8). -/
structure UnitRegs where
  st      : UnitState := .free
  before  : UnitState := .ready
  selfFault : Bool := false
  g       : Vector Word 64 := Vector.replicate 64 0#64
  k       : Vector Word 8 := Vector.replicate 8 0#64
  l       : Vector Word 4 := Vector.replicate 4 0#64
  p       : Vector Bool 8 := Vector.replicate 8 false
  th      : Vector Handle 16 := Vector.replicate 16 (Vector.replicate 16 0#64)
  pc      : Word := 0#64
  csr     : Csrs := {}
  launch  : Nat := 0
  wait    : Option Wait := none
  pend    : List BoundaryTrap := []
  drains  : Vector Nat 4 := Vector.replicate 4 0
  watches : Vector (Option Watch) 8 := Vector.replicate 8 none
  pts     : Nat := 0
  yielded : Option Nat := none
  issued  : Nat := 0
  newBr   : Nat := 0
  newLate : Nat := 0
  awaits  : Option (List Nat) := none
deriving DecidableEq, Repr

/-! ## Datapath -/

/-- A token with its sideband and scale band (R36, R159). `viaXl` is the channel's knowledge of R205: the token came
by a route whose input is the port of XL in this tile and context. `xva` is the virtual address that XLATE translated, and
`stale` says that the translation has been removed since, so that the port translates `xva` anew (R350). `slot` is the aperture
offset at which the host wrote an ingress entry (R371). -/
structure Token where
  ty    : BitVec 4 := 0#4
  data  : Flit := 0#512
  seq   : BitVec 12 := 0#12
  gend  : Bool := false
  rank  : BitVec 2 := 0#2
  ltag  : BitVec 5 := 0#5
  band  : BitVec 16 := 0#16
  viaXl : Bool := false
  xva   : Option Word := none
  stale : Bool := false
  slot  : Nat := 0
deriving DecidableEq, Repr

/-- The lanes of a group that a kill names (R166). -/
structure KillMask where
  seq  : BitVec 12
  mask : BitVec 128
deriving DecidableEq, Repr

/-- An input FIFO with its sender's credit (R160), what its reader has killed (R167), the channel state recorded
after a MRK (R399), the saved tokens still to inject (R408), and the round of its head token, counted in boundaries
passed since the round series opened (R252, R256). DEDUCED (log entry 98). -/
structure Fifo where
  q      : List Token := []
  credit : Nat := 8
  owed   : Nat := 0
  killed : List KillMask := []
  final  : Bool := false
  chan   : List Token := []
  inject : List Token := []
  round  : Nat := 0
deriving DecidableEq, Repr

/-- A token, vector or value group that a sticky port holds, with the firings it is still presented for (R162);
count 7 is held until an EOS of rank 1 or higher. `pos` is the flit of the group that it presents next. -/
structure Held where
  toks : List Token
  left : Nat
  till : Bool
  pos  : Nat := 0
deriving DecidableEq, Repr

/-- A value group in an online unit (R144, R145): the flits of each port received so far, the flits emitted, the
lanes killed at the output, and the digits emitted lane by lane. `kept` lists the flits of the sticky ports as they came, each
with its port, for the firings to come (R162, R166). -/
structure GroupState where
  inA     : List Token := []
  inB     : List Token := []
  inC     : List Token := []
  kept    : List (Nat × Token) := []
  endA    : Bool := false
  endB    : Bool := false
  endC    : Bool := false
  hdrOut  : Nat := 0
  digOut  : List Flit := []
  kills   : BitVec 128 := 0#128
  decided : BitVec 128 := 0#128
  active  : Bool := false
deriving DecidableEq, Repr

/-- One lane of OACC (R152): the exponent of the accumulator, the exact sum in units of 4^(Ea - 128), and whether the
lane has become a NaN lane. -/
structure AccLane where
  member : Bool := false
  ea     : Int := 0
  sum    : Int := 0
  nan    : Bool := false
deriving DecidableEq, Repr

/-- A block of B in the array's store with its scales (R190, R193): the data tokens, the two tokens of codes β (none for
0x7F throughout), s_W, and an ERR that marks it. -/
structure BBlock where
  data : List Flit := []
  beta : List Flit := []
  sW   : BitVec 32 := 0x3F800000#32
  err  : Option Token := none
deriving DecidableEq, Repr

/-- What the matrix array keeps for a context beside its accumulator rows: the current block and the next; the tokens of
the block that arrives; the A-scale tokens of up to two passes (R193); whether the intake stands in a block and the rows
in a pass; the blocks that MLDB has loaded (R196); and what the chained converter has passed on, an A row as its two
tokens of codes and its scales, an EOS or a TAG as itself (R201, R239). -/
structure IntakeState where
  cur     : BBlock := {}
  next    : Option BBlock := none
  part    : List Token := []
  scales  : List (List Token) := []
  inBlock : Bool := false
  inPass  : Bool := false
  loaded  : Nat := 0
  chain   : List Token := []
deriving DecidableEq, Repr

/-- One level of an AGH walk (R215): the parent position, the next child to visit and where the visits stop, the last
coordinate of the segment, the set bits below the next bit of a bitmap, and the coordinate of the child visited last. -/
structure WalkFrame where
  p    : Int
  next : Nat
  stop : Nat
  last : Option Nat := none
  rank : Nat := 0
  x    : Nat := 0
deriving DecidableEq, Repr

/-- The work of an element that a round's shadow copies (R108, R152, R162, R177, R187, R200, R212, R223 to R226,
R254). Each field is used by the operations whose rule its comment names. -/
structure Work where
  args   : Vector Word 8 := Vector.replicate 8 0#64
  j      : Nat := 0
  held   : Vector (Option Held) 3 := Vector.replicate 3 none
  /-- Rows, addresses, keys or tokens counted by the operation (R192, R212, R198, R225). -/
  count  : Nat := 0
  /-- The seq of the next group, block or token (R159). -/
  seq    : Nat := 0
  /-- Tokens gathered and not yet converted, packed or emitted (R154, R186, R199, R208, R219). -/
  got    : List Token := []
  /-- The accumulator of VMAC, lane by lane (R187). -/
  vacc   : List Word := []
  /-- The accumulator of OACC, lane by lane (R152), and whether a term has come. -/
  oacc   : List AccLane := []
  /-- The key list of MCX: raw key and index (R198). -/
  keys   : List (Nat × Nat) := []
  /-- The value group in progress (R145). -/
  grp    : GroupState := {}
  /-- The intake of the matrix array (R193). -/
  intake : IntakeState := {}
  /-- GATE: open, for so many more tokens or until the next EOS (R223). -/
  openTo : Option Nat := none
  isOpen : Bool := false
  /-- GATE in counter mode: the target in force, once it is (R223). -/
  target : Option Word := none
  /-- CARRY: looping (R224). -/
  looping : Bool := false
  /-- CARRY: the EOS rank or TAG number awaited from B and C (R224). -/
  expectB : Option Token := none
  expectC : Option Token := none
  /-- EOSGEN: the rank of the EOS that it holds (R225). -/
  heldEos : Option (BitVec 2) := none
  /-- SINK: the egress offset of its endpoint, in a shadow (R226, R254). -/
  offset : Nat := 0
  /-- UNSIEVE: the coordinate of the last entry taken (R220). -/
  last   : Option Nat := none
  /-- The converter: its stream has started (R200), UCNT, STEP and BLK. -/
  cvOn   : Bool := false
  cvUcnt : Nat := 0
  cvStep : Bool := false
  cvBlk  : Nat := 0
  /-- AGH: the walk (R215), the deepest level first. -/
  walk   : List WalkFrame := []
  /-- AGX, AGA, AGH: the last page emitted (R204). -/
  page   : Option Nat := none
  /-- A discard of data up to the next EOS or TAG is due (R165). -/
  discard : Bool := false
  /-- The value group to drop after an ERR (R172). -/
  dropGrp : Bool := false
  /-- A memory port: the streams that have passed it since the series opened, by their end (R109, R211). -/
  eoss   : Nat := 0
deriving DecidableEq, Repr

/-- A stream that a source is running (R109, R227), with the arguments that it read at its first firing (R213). -/
structure Stream where
  count    : Nat
  rank     : BitVec 2
  roundsz  : Nat
  scopedef : Nat
  handles  : Vector Handle 16
  emitted  : Nat := 0
  tag      : Nat := 0
  sinceTag : Nat := 0
  started  : Bool := false
  args     : Vector Word 8 := Vector.replicate 8 0#64
deriving DecidableEq, Repr

/-- A command in an element's queue (R107): an argument, a start or a token of STRM.TOK. -/
inductive Command where
  | arg (v : Word) (reset : Bool)
  | go (str : Stream)
  | tok (v : Word) (eos : Option (BitVec 2)) (str : Option Stream)
deriving DecidableEq, Repr

/-- A shadow of R254: the round it opens, the element's work, its source's stream, the EOSs passed, the accumulator rows that
its context claims and, in `fresh`, those that the element has been first to claim since, with the contents of those that are
not zero. `taken` and `ingress` list the commands and the host tokens that the element has taken since, in order, for a
replay (R256), each host token with its endpoint. -/
structure Shadow where
  round   : Nat
  work    : Work
  stream  : Option Stream
  fin     : Bool
  ended   : Bool := false
  passed  : List (Nat × Option Nat)
  claims  : List Nat := []
  fresh   : List Nat := []
  rows    : Map (List (BitVec 64)) := []
  taken   : List Command := []
  ingress : List (Nat × Token) := []
deriving DecidableEq, Repr

/-- A translation held by a micro-cache or by XLATE (R216, R316): the base of the extent of `tsz`, its frame, bits 7:2
of the leaf, and the requester that holds it. -/
structure Xlation where
  job  : Nat
  va   : Nat
  tsz  : Nat
  pa   : Nat
  perm : BitVec 6
  who  : Nat := 0
deriving DecidableEq, Repr

/-- One element in one context (R107, R161, R164, R174, R254, R399). `passed` lists the EOSs that a sink has passed, with the
round each lies in until that round commits (R111); `round` counts the boundaries it has passed since the series opened,
`fin` says that its last step passed an EOS of rank 1 or higher, and `ended` that it was one of rank 2 or higher (R112,
R398). `sec` says that a security violation of its own froze it (R379), and `copies` lists the tensor handles that each of its
streams took at its fork, since the series opened (R109). -/
structure Elem where
  cmds    : List Command := []
  work    : Work := {}
  stream  : Option Stream := none
  out     : List Token := []
  efr     : Word := 0#64
  efv     : Word := 0#64
  esr     : Word := 0#64
  passed  : List (Nat × Option Nat) := []
  round   : Nat := 0
  fin     : Bool := false
  ended   : Bool := false
  sec     : Bool := false
  copies  : List (Vector Handle 16) := []
  shadows : List Shadow := []
  killIn  : List KillMask := []
  saved   : Bool := false
  markOut : Bool := false
  xlcur   : Option Xlation := none
  xlmicro : List Xlation := []
  parked  : Bool := false
deriving DecidableEq, Repr

/-- A hold route's held tokens, whether all of the held group has come, the next of them to present (R229), and the round
in which they were taken; the round of the last token of any route, whether that was an EOS of rank 2 or higher (R112), and
whether a MRK has passed it (R399). -/
structure RouteState where
  held  : List Token := []
  full  : Bool := false
  pos   : Nat := 0
  round : Nat := 0
  last  : Nat := 0
  ended : Bool := false
  saved : Bool := false
deriving DecidableEq, Repr

/-- A segment's words (R104): E-words and W-words by element, S-words in order. -/
structure Words where
  ewords : Map (BitVec 32) := []
  wwords : Map (BitVec 32) := []
  swords : List (BitVec 16) := []
deriving DecidableEq, Repr

/-- A configuration bank (R112, R250, R279): the words that run, the pending segment with the elements and the routes
still to take over, the exchange words with the time of each one's last write (R279), and the wave in progress at the memory
interface (R171). -/
structure Bank where
  words    : Words := {}
  pending  : Option Words := none
  oldElems : List Nat := []
  oldOuts  : List Nat := []
  x        : Vector Word 8 := Vector.replicate 8 0#64
  xpts     : Vector Nat 8 := Vector.replicate 8 0
  routes   : Map RouteState := []
  wave     : Option (Nat × Nat) := none
  launch   : Option Nat := none
deriving DecidableEq, Repr

/-! ## Rounds -/

/-- A buffered store of a round (R208, R300). `va` and `tsz` name the translation by which it was made; none for an address of
the range of R291 (R349). -/
structure RoundStore where
  pa    : Nat
  size  : Nat
  value : Word
  tile  : Nat
  va    : Option Word := none
  tsz   : Nat := 0
deriving DecidableEq, Repr

/-- An open round of a series (R252 to R257). -/
structure Round where
  num    : Nat
  loads  : Map Nat := []
  stores : List RoundStore := []
  passed : List Nat := []
  pinned : Bool := false
  fails  : Nat := 0
deriving DecidableEq, Repr

/-- A round series (R253, R282, R300): the unit whose fork opened it, with the SCOPEDEF and the handles of that fork. -/
structure Series where
  isOpen   : Bool := false
  forkUnit : Nat := 0
  scopedef : Nat := 4
  handles  : Vector Handle 16 := Vector.replicate 16 (Vector.replicate 16 0#64)
  rounds   : List Round := []
  lastc    : BitVec 32 := 0xFFFFFFFF#32
  voids    : Nat := 0
  pts      : Nat := 0
deriving DecidableEq, Repr

/-! ## Engines -/

/-- What an engine operation does (R89, R116, R119, R334, R336, R344). -/
inductive EngineKind where
  | copy (src dst len : Nat) (ctr : Word)
  | merge (src dst len : Nat) (ctr : Word) (n c op : Nat)
  | red (op : Nat) (a b : Word)
  | ored (fn : Nat) (c a b : Word)
  | move (gather : Bool) (a b k2 : Word) (n esz : Nat) (wide sv : Bool) (ctr : Word)
  | attest (buf nonce ctr : Word)
deriving DecidableEq, Repr

/-- An engine operation: the unit that forked it, its place, its promise (R117) and whether it is complete, frozen on a fault
(R331) or cancelled (R337). `counted` is the physical address of the counter that it has incremented (R116), `idx` is an index
it has read, `buf` the bytes it has read of the item in hand, `put` the bytes it has still to write with their address, and
`admitted` says that a port merges its contribution (R119). -/
structure Engine where
  unit     : Nat
  launch   : Nat
  job      : Nat
  kind     : EngineKind
  pos      : Nat := 0
  out      : Nat := 0
  pts      : Nat := 0
  promise  : Option Nat := none
  reported : Bool := false
  complete : Bool := false
  frozen   : Bool := false
  cancelled : Bool := false
  dest     : Word := 0#64
  counted  : Option Nat := none
  idx      : Option Word := none
  buf      : List Byte := []
  put      : Option (Word × List Byte) := none
  admitted : Bool := false
deriving DecidableEq, Repr

/-- An episode of SENDR at a destination range (R119); `busy` says that contribution `next` is merging.
DEDUCED (log entry 64). -/
structure Episode where
  dst  : Nat
  len  : Nat
  n    : Nat
  next : Nat
  busy : Bool := false
deriving DecidableEq, Repr

/-! ## Barriers, queues and tags -/

/-- A barrier member's state at the home (R270). -/
structure Member where
  arrived : Bool := false
  left    : Bool := false
  excused : Bool := false
  time    : Nat := 0
deriving DecidableEq, Repr

/-- A unit parked at a barrier (R274): the episode that it waits for and, for BARSYNC, the register that receives the
episode with the status of its arrival. -/
structure BarWaiter where
  unit : Nat
  epi  : BitVec 32
  reg  : Option (BitVec 7)
  ok   : Bool
deriving DecidableEq, Repr

/-- A barrier's state at its home (R259, R268 to R274): the launch that holds the slot, and the logical time of the
arrivals (R258). -/
structure Barrier where
  holder   : Nat
  nmem     : Nat
  mtb      : Word
  srb      : Word
  t        : Nat := 4096
  k        : Nat := 3
  w        : Nat := 4
  arr      : Nat := 0
  epi      : BitVec 32 := 0#32
  members  : List Member
  waiters  : List BarWaiter := []
  pts      : Nat := 0
deriving DecidableEq, Repr

/-- A parked queue operation (R310): the slice controller, the block, the unit, and what it enqueues or where it
dequeues. `taken` says that the element, in `data`, has been received and only its writes wait (R339), and `due` that an event
has called for its completion, which a pinned round holds back (R257). -/
structure QueueWaiter where
  ctrl  : Nat
  block : Nat
  unit  : Nat
  enq   : Bool
  data  : List Byte := []
  dest  : Option Word := none
  reg   : Option (BitVec 7) := none
  taken : Bool := false
  due   : Bool := false
deriving DecidableEq, Repr

/-- A parked tagged operation (R97, R210): who waits, for full or for empty, what it then does, and the address, the
declared scope and the system attribute of its event. -/
structure TagWaiter where
  pa    : Nat
  who   : Nat
  elem  : Bool
  full  : Bool
  clear : Bool := false
  value : Word := 0#64
  reg   : BitVec 7 := 0#7
  va    : Word := 0#64
  scope : Option Nat := none
  sa    : Bool := false
deriving DecidableEq, Repr

/-! ## Launches, graphs and jobs -/

/-- The states of a launch (R405, R406). -/
inductive LaunchState where
  | pool | loading | loaded | running | saving | suspended | poolSaved | restoring | completed
deriving DecidableEq, Repr

/-- The saved contents of one tile and context (R402): the record of a snapshot, held as the structures it saves. Addresses,
accumulator rows and slots are counted from the launch's own range in the tile; the rows and the barriers of a tile stand in
the record of context 0. DESIGN CHOICE (log entry 76). -/
structure Record where
  dx       : Nat
  dy       : Nat
  ctx      : Nat
  unit     : Option UnitRegs
  bank     : Bank
  elems    : Map Elem
  fifos    : Map Fifo
  rows     : Map (List (BitVec 64))
  claims   : Map Nat
  spad     : List Host.Cell
  full     : List Nat
  poisoned : List Nat
  single   : List Nat
  barriers : Map Barrier
  episodes : List Episode
  forks    : Map Engine
deriving DecidableEq, Repr

/-- A launch (R317 to R327, R398 to R406). `shared` says which pool entry it holds, `quiet` is the watchdog's count (R265),
`words` the header and the segments of its image (R322), `dest` the origin to which compaction moves it, and `saved` the die,
page and context base under which its snapshot was made, `pend` the PEND last written to its counters (R317). -/
structure Launch where
  job       : Nat
  depth     : Nat
  cfgid     : Word
  image     : Word
  words     : List Byte := []
  arg       : Word
  lctr      : Word
  gctr      : Word
  deadline  : Nat
  st        : LaunchState
  shared    : Option Bool := none
  width     : Nat := 1
  height    : Nat := 1
  nctx      : Nat := 1
  die       : Nat := 0
  page      : Nat := 0
  base      : Nat := 0
  endpoint  : Option Nat := none
  parent    : Option Nat := none
  quiet     : Nat := 0
  snaps     : Nat := 0
  moved     : Option Nat := none
  toPool    : Bool := false
  dest      : Option Nat := none
  saved     : Option (Nat × Nat × Nat) := none
  inPlace   : Option (BitVec 8) := none
  yielded   : Bool := false
  snapshot  : List Record := []
  savedSer  : Map Series := []
  cancelled : Bool := false
  pend      : Nat := 0
deriving DecidableEq, Repr

/-- A graph (R318, R346), kept until its phase completes; it is live while `complete` is below `declared`. `held` counts
the launches that name it, and `rank3` says that every sink of its completed launches passed an EOS of rank 3. -/
structure Graph where
  job      : Nat
  die      : Nat
  ctr      : Word
  phase    : Word
  declared : Nat
  held     : Nat := 0
  complete : Nat := 0
  rank3    : Bool := true
deriving DecidableEq, Repr

/-- A queue that an image declares (R39, R341): offsets from the argument pointer, and the configuration of its block. -/
structure QueueDecl where
  home  : Nat
  base  : Nat
  esz   : Nat
  capl  : Nat
  flags : Nat
deriving DecidableEq, Repr

/-- A barrier that an image declares (R387): its index and home, the offsets of its tables, and its members, each with its
tile, its image context and the offset of its registered queue. -/
structure BarrierDecl where
  index   : Nat
  dx      : Nat
  dy      : Nat
  mtb     : Nat
  srb     : Nat
  members : List (Nat × Nat × Nat × Option Nat)
deriving DecidableEq, Repr

/-- What the loader knows of the directives of an image, by its configuration id (R39, R387): no byte of an image says it
(R104), so it comes with the image from outside. DESIGN CHOICE (log entry 95). -/
structure Decls where
  image    : Word
  queues   : List QueueDecl := []
  barriers : List BarrierDecl := []
deriving DecidableEq, Repr

/-- A policy record (R320). -/
structure Policy where
  cls      : Nat := 0
  wdc      : Bool := false
  conf     : Bool := false
  pages    : Nat := 1
  lanes    : BitVec 16 := 0#16
  deadline : Nat := 0
  root     : Nat := 0
  prologue : Word := 0#64
  fq       : Word := 0#64
  save     : Word := 0#64
  ctr      : Word := 0#64
deriving DecidableEq, Repr

/-! ## Package -/

/-- A packet at an arbiter (R328): the unit, launch and job that issued it, its stamp, and the arbiters still on its path.
DEDUCED (log entry 85). -/
structure Packet where
  unit  : Option Nat
  launch : Nat := 0
  job   : Nat
  stamp : BitVec 16
  late  : Bool := false
  path  : List Nat := []
deriving DecidableEq, Repr

/-- An arbiter: its packets in arrival order and the JOBID it served last (R328). -/
structure Arbiter where
  packets : List Packet := []
  lastJob : Nat := 0
deriving DecidableEq, Repr

/-- A queued turn (R363): the group, the target direction (true for H to L) and its progress (R364): the cycle in
which it started, and the cycle in which it was drained. -/
structure Turn where
  group   : Nat
  toL     : Bool
  started : Option Nat := none
  drained : Option Nat := none
deriving DecidableEq, Repr

/-- An internal link, as end L keeps it (R361). -/
structure Link where
  dir    : BitVec 16 := 0xFF00#16
  turn   : BitVec 16 := 0#16
  floorL : Nat := 2
  floorH : Nat := 2
  lastt  : Vector Nat 16 := Vector.replicate 16 0
  queue  : List Turn := []
deriving DecidableEq, Repr

/-- An endpoint (R371 to R373, R385). -/
structure Endpoint where
  bound   : Bool := false
  frozen  : Bool := false
  isOpen  : Bool := false
  job     : Nat := 0
  egress  : Nat := 0
  extent  : Nat := 0
  compl   : Nat := 0
  errs    : Nat := 0
  egrcnt  : Nat := 0
  ingress : List Token := []
  launch  : Option Nat := none
deriving DecidableEq, Repr

/-- The 64 bytes of a security report or a fault record, as fields are laid out by R379 and R175. -/
abbrev Bytes := List Byte

/-- An entry of a die's resident-image table (R322), with the job under whose tables it was fetched, the header and the segments
as loaded, and SHA-512 of the image's bytes as loaded (R376). -/
structure Resident where
  id     : Word
  addr   : Word
  job    : Nat
  words  : List Byte
  digest : BitVec 512
deriving DecidableEq, Repr

/-- Per-die state: management registers (R420), debug right, host port (R375), security log (R379), thermal state
(R418), images (R322), monitors (R378). -/
structure Die where
  mgTev     : Bool := false
  mgBusy    : Bool := false
  mgArg     : Word := 0#64
  mgRes     : Word := 0#64
  thcfg     : Word := 0x6E5F#64
  monsel    : Word := 0#64
  mgbuf     : Map Byte := []
  debug     : Bool := false
  mgFrozen  : Bool := false
  temps     : Vector Nat 64 := Vector.replicate 64 0
  volts     : Vector Nat 32 := Vector.replicate 32 0
  procs     : Vector Nat 16 := Vector.replicate 16 0
  coolSince : Nat := 0
  hwjob     : Nat := 0
  hwbase    : Word := 0#64
  hFrozen   : Bool := false
  hrefcnt   : Nat := 0
  herrcnt   : Nat := 0
  hpts      : Nat := 0
  seclog    : List Bytes := []
  lost      : Nat := 0
  images    : List Resident := []
  nextId    : Nat := 1
deriving DecidableEq, Repr

/-- The power states of R416; `waking` counts the reference cycles that are left. -/
inductive Power where
  | p0 | p1 | p2
  | waking (left : Nat)
deriving DecidableEq, Repr

/-- A page's region controller (R263) and walker (R316). -/
structure Page where
  rcsel   : Word := 0#64
  ref     : Bool := false
  records : List Bytes := []
  qwait   : Bool := false
  walks   : Map Word := []
  micro   : List Xlation := []
  wpts    : Nat := 0
deriving DecidableEq, Repr

/-- A KILL message on its way to what feeds a FIFO (R166, R167). DEDUCED (log entry 82). -/
structure KillMsg where
  fifo : Nat
  seq  : BitVec 12
  mask : BitVec 128
deriving DecidableEq, Repr

/-- A host or management completion returned to the outside world (R370, R371, R374, R420). -/
inductive Reply where
  | ok (data : Flit)
  | error
deriving DecidableEq, Repr

/-- What happens by itself or by a request from outside, between the C-words and the firings: the rows of the opcode table
that have no encoding, with their operands as in Syntax.lean. DESIGN CHOICE (log entry 3). -/
inductive Event where
  | boundaryTrap (u : Nat)
  | waitTimeout (u : Nat)
  | scrub (t : Nat)
  | sleepuWake (u : Nat)
  | watchFire (u n : Nat)
  | copyComplete (f : Nat)
  | sendrMerge (f : Nat)
  | pendingTakeover (u x : Nat)
  | segmentLoad (l : Nat)
  | launchStart (l : Nat)
  | unitRetire (u : Nat)
  | eosStep (u e : Nat)
  | roundStep (u e : Nat)
  | roundCommit (l k : Nat)
  | kill
  | creditReturn (f : Nat)
  | faultRecordWrite (pg : Nat)
  | oredMerge (f : Nat)
  | redEvent (f : Nat)
  | gatherStep (f : Nat)
  | attestReport (f : Nat)
  | pageWalk (t job : Nat) (va : BitVec 64) (kind : Nat)
  | launchComplete (l : Nat)
  | phaseComplete (job : Nat) (ctr : BitVec 64)
  | loaderDescriptor (ep : Nat)
  | poolPlace (d : Nat)
  | compact (l g : Nat)
  | victimPreempt (l : Nat)
  | parentYield (l : Nat)
  | packetArbitrate (a : Nat)
  | watchdogSnapshot (l : Nat)
  | watchdogCancel (l : Nat)
  | rcResume (pg : Nat)
  | rcCancel (pg : Nat)
  | rcSnapshot (pg : Nat)
  | rcselWrite (pg : Nat) (v : BitVec 64)
  | rcUnitFrameWrite (pg off : Nat) (v : BitVec 64)
  | rcEsrWrite (pg : Nat) (v : BitVec 64)
  | rcCvsrWrite (pg : Nat) (v : BitVec 64)
  | registerWrite (dev off : Nat) (v : BitVec 64)
  | elementSave (u e : Nat)
  | snapshotClose (l : Nat)
  | restore (l : Nat)
  | savedTokenInject (f : Nat)
  | turnStart (k : Nat)
  | turnDrained (k : Nat)
  | turnComplete (k : Nat)
  | ingressSlotWrite (ep off size : Nat) (data : BitVec 512)
  | ingressEosWrite (ep size : Nat) (v : BitVec 64)
  | hostWindowAccess (d off size : Nat) (wr : Bool) (data : BitVec 512)
  | hostAtomic (d off op : Nat) (x c : BitVec 64)
  | hostBadOffset (d off : Nat)
  | hwjobWrite (d : Nat) (v : BitVec 64)
  | hwbaseWrite (d : Nat) (v : BitVec 64)
  | mgRelease (d : Nat)
  | mgPolicy (d : Nat)
  | mgFrame (d : Nat)
  | mgStandby (d : Nat)
  | mgWake (d : Nat)
  | wakeComplete
  | mgPair (d : Nat)
  | mgKey (d : Nat)
  | mgLog (d : Nat)
  | mgDebug (d : Nat) (code : BitVec 64)
  | thcfgWrite (d : Nat) (v : BitVec 64)
  | monitorSample (d : Nat)
  | thermalStepUp
  | packageReset
  | idleGate (enter : Bool)
  | uncorrectableError (a : Nat)
  | rccmdUnassigned (pg : Nat) (v : BitVec 64)
  | mgcmdUnassigned (d : Nat) (code : BitVec 64)
deriving DecidableEq, Repr

/-- What the step does next: a unit issues, an element or a route acts, an event happens, a register is read or written from
outside (R8), the watchdogs count the cycle (R265), or the cycle ends. DESIGN CHOICE (log entry 1). -/
inductive Action where
  | issue (u : Nat)
  | fire (u e : Nat)
  | route (u k : Nat)
  | event (e : Event)
  | access (dev off size : Nat) (wr : Bool) (v : BitVec 512)
  | watchdogs
  | cycle
deriving DecidableEq, Repr

/-- Why the machine stops. -/
inductive Fault where
  /-- Raised by the step while the package holds in reset, because a step of R415 failed. Safe: the spec lets nothing
  run until the package leaves reset. -/
  | heldInReset
deriving DecidableEq, Repr

/-- Why an instruction has no meaning here. -/
inductive Refusal where
  /-- Raised by the arm of an instruction that has no meaning yet. Safe: nothing is claimed about it. -/
  | notModelled (mnemonic : String)
  /-- Raised by a debug command given with the debug right: R421 does not say what commands 0x80 to 0xFF do. Safe: the
  machine stops where the spec names no effect. -/
  | debugCommand (code : Word)
deriving DecidableEq, Repr

/-- The state of the package. -/
structure State where
  -- time and power (R3, R416, R418)
  tb        : Nat := 0
  power     : Power := .p0
  steps     : Nat := 0
  lastStep  : Option Nat := none
  thermLog  : List (Nat × Nat) := []
  bringUp   : Nat := 0
  failed    : BitVec 4 := 0#4
  held      : Bool := false
  -- memory (R289, R292, R296)
  mem       : Memory := {}
  hostMem   : List Host.Cell := []
  -- units and tiles
  units     : Map UnitRegs := []
  banks     : Map Bank := []
  elems     : Map Elem := []
  fifos     : Map Fifo := []
  rows      : Map (List (BitVec 64)) := []
  claims    : Map Nat := []
  lastFired : Map Nat := []
  lastIssue : Map Nat := []
  kills     : List KillMsg := []
  -- rounds, engines, shared objects
  series    : Map Series := []
  engines   : Map Engine := []
  nextEng   : Nat := 0
  episodes  : List Episode := []
  barriers  : Map Barrier := []
  qwaiters  : List QueueWaiter := []
  twaiters  : List TagWaiter := []
  -- work
  launches  : Map Launch := []
  graphs    : List Graph := []
  jobs      : Map Policy := [(0, {})]
  phased    : List Nat := []
  decls     : List Decls := []
  -- page, die and package
  pages     : Map Page := []
  dies      : Vector Die 4 := Vector.replicate 4 {}
  links     : Vector Link 4 := Vector.replicate 4 {}
  endpoints : Vector Endpoint 32 := Vector.replicate 32 {}
  frames    : Map (BitVec 32) := []
  edges     : Map Bool := []
  arbiters  : Map Arbiter := []
  replies   : List Reply := []
  -- the model's own: who moves next, whose word runs, the slots that have sent a token in this cycle, the elements of tiles
  -- that have fired in it (R251), and how many free values have been taken
  agenda    : List Action := []
  cur       : Nat := 0
  curElem   : Nat := 0
  movers    : List Nat := []
  fired     : List Nat := []
  free      : Nat := 0
deriving DecidableEq, Repr

/-- The package as it leaves reset (R415): memory zero, tags empty, no launch and no unit, every link in its reset
map; the system job alone is live, with the policy record that log entry 8 names. -/
def State.reset : State := {}

end Sys2Proof.Machine
end

