-- ==== Sys2Proof/Machine/Bits.lean ====
section
/-!
DEFINITION. Tables by number, and the bit and byte helpers that the operations share (00_scope.md R6: little-endian).
-/

namespace Sys2Proof.Machine

open Sys2Proof

/-! ## Tables -/

/-- The value listed for a number. -/
def mget {α : Type} : Map α → Nat → Option α
  | [], _ => none
  | (k, v) :: m, n => if k = n then some v else mget m n

/-- The table with a value listed for a number, in rising order. -/
def mset {α : Type} : Map α → Nat → α → Map α
  | [], n, v => [(n, v)]
  | (k, w) :: m, n, v =>
    if n < k then (n, v) :: (k, w) :: m else if k = n then (n, v) :: m else (k, w) :: mset m n v

/-- The table without a number. -/
def mdel {α : Type} : Map α → Nat → Map α
  | [], _ => []
  | (k, v) :: m, n => if k = n then mdel m n else (k, v) :: mdel m n

/-- The table with a value listed, or without the number where there is none. -/
def mput {α : Type} (m : Map α) (n : Nat) : Option α → Map α
  | some v => mset m n v
  | none => mdel m n

/-- The numbers of a table rise strictly. -/
def sorted {α : Type} : Map α → Bool
  | [] => true
  | (k, _) :: m => m.all (fun x => decide (k < x.1)) && sorted m

/-- A sorted list of numbers with one more. -/
def ninsert : List Nat → Nat → List Nat
  | [], n => [n]
  | k :: l, n => if n < k then n :: k :: l else if k = n then k :: l else k :: ninsert l n

/-! ## Bits -/

/-- Bits hi down to lo of a word, as a number (R7). -/
def field {w : Nat} (x : BitVec w) (hi lo : Nat) : Nat := x.toNat / 2 ^ lo % 2 ^ (hi + 1 - lo)

/-- A bit of a word. -/
def bitOf {w : Nat} (x : BitVec w) (n : Nat) : Bool := x.toNat / 2 ^ n % 2 == 1

/-- Sign extension of the low n bits of a number to a 64-bit word. -/
def sext64 (n : Nat) (x : Nat) : Word := BitVec.ofInt 64 ((BitVec.ofNat n x).toInt)

/-- A Bool as a 64-bit word. -/
def word1 (b : Bool) : Word := if b then 1#64 else 0#64

/-- The floor of a division by a power of two, on integers. -/
def ifloor (x : Int) (k : Nat) : Int := x / (2 ^ k : Nat)

/-! ## Bytes (R6) -/

/-- The n low bytes of a number, lowest first. -/
def toBytes : Nat → Nat → List Byte
  | 0, _ => []
  | n + 1, x => BitVec.ofNat 8 x :: toBytes n (x / 256)

/-- The number whose bytes stand lowest first. -/
def ofBytes : List Byte → Nat
  | [] => 0
  | b :: l => b.toNat + 256 * ofBytes l

/-- Byte k of a list, 0 beyond its end. -/
def byteAt (l : List Byte) (k : Nat) : Byte := l.getD k 0#8

/-- The number in n bytes from offset k of a list. -/
def numAt (l : List Byte) (k n : Nat) : Nat := ofBytes ((l.drop k).take n)

/-! ## Numbering of subjects (R246) -/

/-- The tile of a context slot. -/
def tileOf (u : Nat) : Nat := u / 4
/-- The context of a context slot. -/
def ctxOf (u : Nat) : Nat := u % 4
/-- The die of a tile. -/
def dieOfTile (t : Nat) : Nat := t / 1024
/-- The die of a context slot. -/
def dieOf (u : Nat) : Nat := u / 4096
/-- Column of a tile in its die (R246). -/
def tileX (t : Nat) : Nat := t % 32
/-- Row of a tile in its die (R246). -/
def tileY (t : Nat) : Nat := t % 1024 / 32
/-- Column of a tile in the package's 64 by 64 grid (R395). -/
def gridX (t : Nat) : Nat := 32 * (dieOfTile t % 2) + tileX t
/-- Row of a tile in the package's grid (R395). -/
def gridY (t : Nat) : Nat := 32 * (dieOfTile t / 2) + tileY t
/-- The tile at a place of the package's grid (R246, R395). -/
def tileAt (x y : Nat) : Nat := 1024 * (2 * (y / 32) + x / 32) + 32 * (y % 32) + x % 32
/-- The page of a tile (R246). -/
def pageOfTile (t : Nat) : Nat := 64 * dieOfTile t + 8 * (tileY t / 4) + tileX t / 4
/-- The page of a context slot. -/
def pageOf (u : Nat) : Nat := pageOfTile (tileOf u)

end Sys2Proof.Machine
end

