-- ==== Sys2Proof/Decode.lean ====
section
/-!
DEFINITION. Decoding of C-words (01_encodings.md R15 to R22), E-words (R25 to R31) and S-words (R32), each total and
rejecting by name, then the encoder of each word, from the same maps.
-/

namespace Sys2Proof

/-- Why a word is no instruction (R12). -/
inductive DecodeError where
  /-- Major opcode 0x00, the all-zero word included: cause 0x01. -/
  | zeroMajor
  /-- A reserved major opcode: cause 0x01. -/
  | reservedMajor
  /-- An unassigned fn, fn6 or sz value of an assigned major: cause 0x01. -/
  | unassignedFn
  /-- A nonzero reserved or unused field: cause 0x01 in a C-word, 0x08 in an image. -/
  | unusedNonzero
  /-- A reserved eop: cause 0x08. -/
  | reservedEop
  /-- A reserved S-word mode: cause 0x08. -/
  | reservedMode
deriving DecidableEq, Repr

/-! The fields of the C-word formats of R15. -/

/-- Field major, bits 31:26 (R15). -/
@[inline] def fMajor (w : BitVec 32) : BitVec 6 := w.extractLsb' 26 6
/-- Field of bits 25:19 (R15). -/
@[inline] def fD (w : BitVec 32) : BitVec 7 := w.extractLsb' 19 7
/-- Field of bits 18:12 (R15). -/
@[inline] def fA (w : BitVec 32) : BitVec 7 := w.extractLsb' 12 7
/-- Field of bits 11:5 (R15). -/
@[inline] def fB (w : BitVec 32) : BitVec 7 := w.extractLsb' 5 7
/-- Field of bits 4:0 (R15). -/
@[inline] def fFn (w : BitVec 32) : BitVec 5 := w.extractLsb' 0 5
/-- Field of bits 11:0 (R15). -/
@[inline] def fI12 (w : BitVec 32) : BitVec 12 := w.extractLsb' 0 12
/-- Field of bits 18:0 (R15). -/
@[inline] def fI19 (w : BitVec 32) : BitVec 19 := w.extractLsb' 0 19
/-- Field of bits 25:25 (R15). -/
@[inline] def fNeg (w : BitVec 32) : BitVec 1 := w.extractLsb' 25 1
/-- Field of bits 24:22 (R15). -/
@[inline] def fP (w : BitVec 32) : BitVec 3 := w.extractLsb' 22 3
/-- Field of bits 21:0 (R15). -/
@[inline] def fO22 (w : BitVec 32) : BitVec 22 := w.extractLsb' 0 22
/-- Field of bits 18:18 (R15). -/
@[inline] def fNz (w : BitVec 32) : BitVec 1 := w.extractLsb' 18 1
/-- Field of bits 17:0 (R15). -/
@[inline] def fO18 (w : BitVec 32) : BitVec 18 := w.extractLsb' 0 18
/-- Field of bits 11:10 (R15). -/
@[inline] def fSz (w : BitVec 32) : BitVec 2 := w.extractLsb' 10 2
/-- Field of bits 9:7 (R15). -/
@[inline] def fSc (w : BitVec 32) : BitVec 3 := w.extractLsb' 7 3
/-- Field of bits 6:0 (R15). -/
@[inline] def fO7 (w : BitVec 32) : BitVec 7 := w.extractLsb' 0 7
/-- Field of bits 25:20 (R15). -/
@[inline] def fFn6 (w : BitVec 32) : BitVec 6 := w.extractLsb' 20 6
/-- Field of bits 19:13 (R15). -/
@[inline] def fXa (w : BitVec 32) : BitVec 7 := w.extractLsb' 13 7
/-- Field of bits 12:6 (R15). -/
@[inline] def fXb (w : BitVec 32) : BitVec 7 := w.extractLsb' 6 7
/-- Field of bits 5:0 (R15). -/
@[inline] def fI6 (w : BitVec 32) : BitVec 6 := w.extractLsb' 0 6

/-! The fields of an E-word (R25) and of an S-word (R32). -/

/-- Field eop, bits 31:24 (R25). -/
@[inline] def fEop (w : BitVec 32) : BitVec 8 := w.extractLsb' 24 8
/-- Field of bits 23:19 (R25). -/
@[inline] def fEa (w : BitVec 32) : BitVec 5 := w.extractLsb' 19 5
/-- Field of bits 18:14 (R25). -/
@[inline] def fEb (w : BitVec 32) : BitVec 5 := w.extractLsb' 14 5
/-- Field of bits 13:9 (R25). -/
@[inline] def fEc (w : BitVec 32) : BitVec 5 := w.extractLsb' 9 5
/-- Field of bits 8:0 (R25). -/
@[inline] def fMode (w : BitVec 32) : BitVec 9 := w.extractLsb' 0 9
/-- Field of bits 15:12 (R32). -/
@[inline] def fSo (w : BitVec 16) : BitVec 4 := w.extractLsb' 12 4
/-- Field of bits 11:8 (R32). -/
@[inline] def fSi (w : BitVec 16) : BitVec 4 := w.extractLsb' 8 4
/-- Field of bits 7:5 (R32). -/
@[inline] def fSm (w : BitVec 16) : BitVec 3 := w.extractLsb' 5 3
/-- Field of bits 4:3 (R32). -/
@[inline] def fSx (w : BitVec 16) : BitVec 2 := w.extractLsb' 3 2
/-- Field of bits 2:0 (R32). -/
@[inline] def fSz0 (w : BitVec 16) : BitVec 3 := w.extractLsb' 0 3

/-- An instruction whose unused fields must be zero (R12). -/
def need (ok : Bool) (i : Instr) : Except DecodeError Instr := if ok then .ok i else .error .unusedNonzero

/-- Major 0x01 (R21), by fn. -/
def decodeMajor01 (w : BitVec 32) : Except DecodeError Instr :=
  match (fFn w).toNat with
  | 0 => .ok (.add (fD w) (fA w) (fB w))
  | 1 => .ok (.sub (fD w) (fA w) (fB w))
  | 2 => .ok (.mul (fD w) (fA w) (fB w))
  | 3 => .ok (.mulh (fD w) (fA w) (fB w))
  | 4 => .ok (.mulhn (fD w) (fA w) (fB w))
  | 5 => .ok (.div (fD w) (fA w) (fB w))
  | 6 => .ok (.divn (fD w) (fA w) (fB w))
  | 7 => .ok (.rem (fD w) (fA w) (fB w))
  | 8 => .ok (.remn (fD w) (fA w) (fB w))
  | 9 => .ok (.and (fD w) (fA w) (fB w))
  | 10 => .ok (.or (fD w) (fA w) (fB w))
  | 11 => .ok (.xor (fD w) (fA w) (fB w))
  | 12 => .ok (.andn (fD w) (fA w) (fB w))
  | 13 => .ok (.shl (fD w) (fA w) (fB w))
  | 14 => .ok (.shr (fD w) (fA w) (fB w))
  | 15 => .ok (.sar (fD w) (fA w) (fB w))
  | 16 => .ok (.rotl (fD w) (fA w) (fB w))
  | 17 => .ok (.min (fD w) (fA w) (fB w))
  | 18 => .ok (.max (fD w) (fA w) (fB w))
  | 19 => .ok (.minn (fD w) (fA w) (fB w))
  | 20 => .ok (.maxn (fD w) (fA w) (fB w))
  | 21 => need ((fB w) == 0x0#7) (.clz (fD w) (fA w))
  | 22 => need ((fB w) == 0x0#7) (.ctz (fD w) (fA w))
  | 23 => need ((fB w) == 0x0#7) (.popc (fD w) (fA w))
  | 24 => .ok (.sext (fD w) (fA w) (fB w))
  | 25 => .ok (.zext (fD w) (fA w) (fB w))
  | 26 => need ((fB w) == 0x0#7) (.movx (fD w) (fA w))
  | _ => .error .unassignedFn

/-- Major 0x0d (R21), by fn. -/
def decodeMajor0d (w : BitVec 32) : Except DecodeError Instr :=
  match (fFn w).toNat with
  | 0 => .ok (.cmpeq (fD w) (fA w) (fB w))
  | 1 => .ok (.cmpne (fD w) (fA w) (fB w))
  | 2 => .ok (.cmplt (fD w) (fA w) (fB w))
  | 3 => .ok (.cmple (fD w) (fA w) (fB w))
  | 4 => .ok (.cmpltn (fD w) (fA w) (fB w))
  | 5 => .ok (.cmplen (fD w) (fA w) (fB w))
  | 6 => .ok (.cmptst (fD w) (fA w) (fB w))
  | _ => .error .unassignedFn

/-- Major 0x11 (R21), by fn. -/
def decodeMajor11 (w : BitVec 32) : Except DecodeError Instr :=
  match (fFn w).toNat with
  | 0 => .ok (.pand (fD w) (fA w) (fB w))
  | 1 => .ok (.por (fD w) (fA w) (fB w))
  | 2 => .ok (.pxor (fD w) (fA w) (fB w))
  | 3 => .ok (.pandn (fD w) (fA w) (fB w))
  | 4 => need ((fB w) == 0x0#7) (.pnot (fD w) (fA w))
  | 5 => need ((fB w) == 0x0#7) (.pmov (fD w) (fA w))
  | 6 => need ((fB w) == 0x0#7) (.pset (fD w) (fA w))
  | _ => .error .unassignedFn

/-- Major 0x14 (R17, R69): p = 0 with neg = 0 is B. -/
def decodeBranch (w : BitVec 32) : Except DecodeError Instr :=
  if fNeg w == 1#1 then .ok (.bnp (fP w) (fO22 w))
  else if fP w == 0#3 then .ok (.b (fO22 w)) else .ok (.bp (fP w) (fO22 w))

/-- Major 0x16 (R21), by fn. -/
def decodeMajor16 (w : BitVec 32) : Except DecodeError Instr :=
  match (fFn w).toNat with
  | 0 => need ((fD w) == 0x0#7 && (fB w) == 0x0#7) (.jr (fA w))
  | 1 => need ((fB w) == 0x0#7) (.jalr (fD w) (fA w))
  | 2 => need ((fD w) == 0x0#7 && (fA w) == 0x3e#7 && (fB w) == 0x0#7) (.ret)
  | _ => .error .unassignedFn

/-- Major 0x19 (R21), by fn. -/
def decodeMajor19 (w : BitVec 32) : Except DecodeError Instr :=
  match (fFn w).toNat with
  | 0 => .ok (.fadd (fD w) (fA w) (fB w))
  | 1 => .ok (.fsub (fD w) (fA w) (fB w))
  | 2 => .ok (.fmul (fD w) (fA w) (fB w))
  | 3 => .ok (.fdiv (fD w) (fA w) (fB w))
  | 4 => need ((fB w) == 0x0#7) (.fsqrt (fD w) (fA w))
  | 5 => .ok (.fmin (fD w) (fA w) (fB w))
  | 6 => .ok (.fmax (fD w) (fA w) (fB w))
  | 7 => need ((fB w) == 0x0#7) (.fabs (fD w) (fA w))
  | 8 => need ((fB w) == 0x0#7) (.fneg (fD w) (fA w))
  | 9 => .ok (.fcmpeq (fD w) (fA w) (fB w))
  | 10 => .ok (.fcmplt (fD w) (fA w) (fB w))
  | 11 => .ok (.fcmple (fD w) (fA w) (fB w))
  | 12 => need ((fB w) == 0x0#7) (.fcvtif (fD w) (fA w))
  | 13 => need ((fB w) == 0x0#7) (.fcvtfi (fD w) (fA w))
  | 14 => need ((fB w) == 0x0#7) (.fcvtsd (fD w) (fA w))
  | 15 => need ((fB w) == 0x0#7) (.fcvtds (fD w) (fA w))
  | 16 => need ((fB w) == 0x0#7) (.fclass (fD w) (fA w))
  | _ => .error .unassignedFn

/-- Major 0x1a (R21), by fn. -/
def decodeMajor1a (w : BitVec 32) : Except DecodeError Instr :=
  match (fFn w).toNat with
  | 0 => .ok (.ffma (fD w) (fA w) (fB w))
  | 1 => .ok (.ffms (fD w) (fA w) (fB w))
  | _ => .error .unassignedFn

/-- Major 0x20 (R21), by sz. -/
def decodeMajor20 (w : BitVec 32) : Except DecodeError Instr :=
  match (fSz w).toNat with
  | 0 => .ok (.ldb (fD w) (fA w) (fSc w) (fO7 w))
  | 1 => .ok (.ldh (fD w) (fA w) (fSc w) (fO7 w))
  | 2 => .ok (.ldw (fD w) (fA w) (fSc w) (fO7 w))
  | 3 => .ok (.ldd (fD w) (fA w) (fSc w) (fO7 w))
  | _ => .error .unassignedFn

/-- Major 0x21 (R21), by sz. -/
def decodeMajor21 (w : BitVec 32) : Except DecodeError Instr :=
  match (fSz w).toNat with
  | 0 => .ok (.ldbz (fD w) (fA w) (fSc w) (fO7 w))
  | 1 => .ok (.ldhz (fD w) (fA w) (fSc w) (fO7 w))
  | 2 => .ok (.ldwz (fD w) (fA w) (fSc w) (fO7 w))
  | 3 => .ok (.lddZ (fD w) (fA w) (fSc w) (fO7 w))
  | _ => .error .unassignedFn

/-- Major 0x22 (R21), by sz. -/
def decodeMajor22 (w : BitVec 32) : Except DecodeError Instr :=
  match (fSz w).toNat with
  | 0 => .ok (.stb (fD w) (fA w) (fSc w) (fO7 w))
  | 1 => .ok (.sth (fD w) (fA w) (fSc w) (fO7 w))
  | 2 => .ok (.stw (fD w) (fA w) (fSc w) (fO7 w))
  | 3 => .ok (.std (fD w) (fA w) (fSc w) (fO7 w))
  | _ => .error .unassignedFn

/-- Major 0x25 (R21), by fn. -/
def decodeMajor25 (w : BitVec 32) : Except DecodeError Instr :=
  match (fFn w).toNat with
  | 0 => need ((fB w) == 0x0#7) (.ldf (fD w) (fA w))
  | 1 => need ((fB w) == 0x0#7) (.ldfe (fD w) (fA w))
  | 2 => need ((fD w) == 0x0#7) (.ste (fA w) (fB w))
  | 3 => need ((fD w) == 0x0#7) (.stf (fA w) (fB w))
  | 4 => need ((fD w) == 0x0#7 && (fB w) == 0x0#7) (.feset (fA w))
  | 5 => need ((fD w) == 0x0#7 && (fB w) == 0x0#7) (.feclr (fA w))
  | 6 => need ((fB w) == 0x0#7) (.feq (fD w) (fA w))
  | 7 => need ((fB w) == 0x0#7) (.ldfeNb (fD w) (fA w))
  | 8 => need ((fD w) == 0x0#7) (.steNb (fA w) (fB w))
  | _ => .error .unassignedFn

/-- Major 0x26 (R21), by fn. -/
def decodeMajor26 (w : BitVec 32) : Except DecodeError Instr :=
  match (fFn w).toNat with
  | 0 => .ok (.amoadd (fD w) (fA w) (fB w))
  | 1 => .ok (.amoand (fD w) (fA w) (fB w))
  | 2 => .ok (.amoor (fD w) (fA w) (fB w))
  | 3 => .ok (.amoxor (fD w) (fA w) (fB w))
  | 4 => .ok (.amomin (fD w) (fA w) (fB w))
  | 5 => .ok (.amomax (fD w) (fA w) (fB w))
  | 6 => .ok (.amominn (fD w) (fA w) (fB w))
  | 7 => .ok (.amomaxn (fD w) (fA w) (fB w))
  | 8 => .ok (.amoswp (fD w) (fA w) (fB w))
  | 9 => .ok (.amocas (fD w) (fA w) (fB w))
  | _ => .error .unassignedFn

/-- Major 0x27 (R21), by fn. -/
def decodeMajor27 (w : BitVec 32) : Except DecodeError Instr :=
  match (fFn w).toNat with
  | 0 => need ((fD w) == 0x0#7) (.redadd (fA w) (fB w))
  | 1 => need ((fD w) == 0x0#7) (.redand (fA w) (fB w))
  | 2 => need ((fD w) == 0x0#7) (.redor (fA w) (fB w))
  | 3 => need ((fD w) == 0x0#7) (.redxor (fA w) (fB w))
  | 4 => need ((fD w) == 0x0#7) (.redmin (fA w) (fB w))
  | 5 => need ((fD w) == 0x0#7) (.redmax (fA w) (fB w))
  | _ => .error .unassignedFn

/-- Major 0x28 (R21), by fn. -/
def decodeMajor28 (w : BitVec 32) : Except DecodeError Instr :=
  match (fFn w).toNat with
  | 0 => .ok (.oredFadd (fD w) (fA w) (fB w))
  | 1 => .ok (.oredFadds (fD w) (fA w) (fB w))
  | 2 => .ok (.oredAdd (fD w) (fA w) (fB w))
  | 3 => .ok (.oredFmax (fD w) (fA w) (fB w))
  | 4 => .ok (.oredFmin (fD w) (fA w) (fB w))
  | _ => .error .unassignedFn

/-- Major 0x29 (R21), by fn6. -/
def decodeMajor29 (w : BitVec 32) : Except DecodeError Instr :=
  match (fFn6 w).toNat with
  | 0 => need ((fXb w) == 0x0#7 && (fI6 w) == 0x0#6) (.sleepu (fXa w))
  | 1 => need ((fXb w) == 0x0#7 && (fI6 w) == 0x0#6) (.rdtb (fXa w))
  | 2 => need ((fXa w) == 0x0#7 && (fXb w) == 0x0#7 && (fI6 w) == 0x0#6) (.yield)
  | 3 => need ((fXa w) == 0x0#7 && (fXb w) == 0x0#7 && (fI6 w) == 0x0#6) (.fjoin)
  | 4 => need ((fXa w) == 0x0#7 && (fXb w) == 0x0#7 && (fI6 w) == 0x0#6) (.done)
  | _ => .error .unassignedFn

/-- Major 0x2a (R21), by fn6. -/
def decodeMajor2a (w : BitVec 32) : Except DecodeError Instr :=
  match (fFn6 w).toNat with
  | 0 => need ((fXb w) == 0x0#7) (.strmGo (fXa w) ((fI6 w).extractLsb' 5 1) ((fI6 w).extractLsb' 0 5))
  | 1 => need ((fXb w) == 0x0#7) (.strmArg (fXa w) ((fI6 w).extractLsb' 5 1) ((fI6 w).extractLsb' 0 5))
  | 2 => need ((fXa w) == 0x0#7 && (fXb w) == 0x0#7) (.drain (fI6 w))
  | 3 => need ((fXb w) == 0x0#7 && (fI6 w) == 0x0#6) (.cfgld (fXa w))
  | 4 => need ((fXb w) == 0x0#7 && (fI6 w) == 0x0#6) (.cfgq (fXa w))
  | 5 => need (((fI6 w).extractLsb' 5 1) == 0x0#1) (.strmTok (fXa w) (fXb w) ((fI6 w).extractLsb' 0 5))
  | _ => .error .unassignedFn

/-- Major 0x2b (R21), by fn. -/
def decodeMajor2b (w : BitVec 32) : Except DecodeError Instr :=
  match (fFn w).toNat with
  | 0 => .ok (.send (fD w) (fA w) (fB w))
  | 1 => .ok (.sendr (fD w) (fA w) (fB w))
  | _ => .error .unassignedFn

/-- Major 0x2c (R21), by fn6. -/
def decodeMajor2c (w : BitVec 32) : Except DecodeError Instr :=
  match (fFn6 w).toNat with
  | 0 => need ((fI6 w) == 0x0#6) (.ctradd (fXa w) (fXb w))
  | 1 => need ((fI6 w) == 0x0#6) (.ctrwait (fXa w) (fXb w))
  | 2 => need ((fI6 w) == 0x0#6) (.ctrrd (fXa w) (fXb w))
  | 3 => need ((fI6 w) == 0x0#6) (.ctrwaitNb (fXa w) (fXb w))
  | 4 => .ok (.ctrwatch (fXa w) (fXb w) (fI6 w))
  | _ => .error .unassignedFn

/-- Major 0x2d (R21), by fn6. -/
def decodeMajor2d (w : BitVec 32) : Except DecodeError Instr :=
  match (fFn6 w).toNat with
  | 0 => need ((fI6 w) == 0x0#6) (.thld (fXa w) (fXb w))
  | 1 => need ((fI6 w) == 0x0#6) (.thst (fXa w) (fXb w))
  | 2 => .ok (.thset (fXa w) (fXb w) (fI6 w))
  | 3 => .ok (.thget (fXa w) (fXb w) (fI6 w))
  | 4 => need ((fXb w) == 0x0#7 && (fI6 w) == 0x0#6) (.thchk (fXa w))
  | _ => .error .unassignedFn

/-- Major 0x2e (R21), by fn6. -/
def decodeMajor2e (w : BitVec 32) : Except DecodeError Instr :=
  match (fFn6 w).toNat with
  | 0 => need ((fI6 w) == 0x0#6) (.barinit (fXa w) (fXb w))
  | 1 => need ((fI6 w) == 0x0#6) (.bararr (fXa w) (fXb w))
  | 2 => need ((fI6 w) == 0x0#6) (.barwait (fXa w) (fXb w))
  | 3 => need ((fI6 w) == 0x0#6) (.barsync (fXa w) (fXb w))
  | 4 => .ok (.barrd (fXa w) (fXb w) (fI6 w))
  | 5 => need ((fI6 w) == 0x0#6) (.barcfg (fXa w) (fXb w))
  | 6 => need ((fXb w) == 0x0#7 && (fI6 w) == 0x0#6) (.barleave (fXa w))
  | _ => .error .unassignedFn

/-- Major 0x2f (R21), by fn6. -/
def decodeMajor2f (w : BitVec 32) : Except DecodeError Instr :=
  match (fFn6 w).toNat with
  | 0 => need ((fXb w) == 0x0#7) (.ctxdef (fXa w) (fI6 w))
  | 1 => .ok (.ctxrd (fXa w) (fXb w) (fI6 w))
  | 2 => .ok (.ctxwt (fXa w) (fXb w) (fI6 w))
  | 3 => need ((fXa w) == 0x0#7 && (fXb w) == 0x0#7) (.rclose (fI6 w))
  | 4 => need ((fXb w) == 0x0#7 && (fI6 w) == 0x0#6) (.rqry (fXa w))
  | _ => .error .unassignedFn

/-- Major 0x30 (R21), by fn. -/
def decodeMajor30 (w : BitVec 32) : Except DecodeError Instr :=
  match (fFn w).toNat with
  | 0 => need ((fD w) == 0x0#7) (.enq (fA w) (fB w))
  | 1 => need ((fD w) == 0x0#7) (.enqNb (fA w) (fB w))
  | 2 => need ((fD w) == 0x0#7) (.deq (fA w) (fB w))
  | 3 => need ((fD w) == 0x0#7) (.deqNb (fA w) (fB w))
  | 4 => need ((fD w) == 0x0#7) (.qsteal (fA w) (fB w))
  | 5 => need ((fD w) == 0x0#7) (.qinit (fA w) (fB w))
  | 6 => need ((fB w) == 0x0#7) (.qstat (fD w) (fA w))
  | 7 => need ((fD w) == 0x0#7 && (fB w) == 0x0#7) (.qpoison (fA w))
  | 8 => .ok (.qdrain (fD w) (fA w) (fB w))
  | 9 => need ((fD w) == 0x0#7) (.enqv (fA w) (fB w))
  | 10 => need ((fB w) == 0x0#7) (.deqv (fD w) (fA w))
  | _ => .error .unassignedFn

/-- Major 0x31 (R21), by fn6. -/
def decodeMajor31 (w : BitVec 32) : Except DecodeError Instr :=
  match (fFn6 w).toNat with
  | 0 => need (((fI6 w).extractLsb' 4 2) == 0x0#2) (.gath (fXa w) (fXb w) ((fI6 w).extractLsb' 3 1) ((fI6 w).extractLsb' 2 1) ((fI6 w).extractLsb' 0 2))
  | 1 => need (((fI6 w).extractLsb' 4 2) == 0x0#2) (.scat (fXa w) (fXb w) ((fI6 w).extractLsb' 3 1) ((fI6 w).extractLsb' 2 1) ((fI6 w).extractLsb' 0 2))
  | _ => .error .unassignedFn

/-- Major 0x32 (R21), by fn. -/
def decodeMajor32 (w : BitVec 32) : Except DecodeError Instr :=
  match (fFn w).toNat with
  | 0 => need ((fB w) == 0x0#7) (.launch (fD w) (fA w))
  | 1 => need ((fB w) == 0x0#7) (.launchW (fD w) (fA w))
  | 2 => need ((fD w) == 0x0#7) (.cancel (fA w) (fB w))
  | 3 => need ((fD w) == 0x0#7) (.graphnew (fA w) (fB w))
  | 4 => need ((fD w) == 0x0#7) (.jobdl (fA w) (fB w))
  | _ => .error .unassignedFn

/-- Major 0x33 (R21), by fn6. -/
def decodeMajor33 (w : BitVec 32) : Except DecodeError Instr :=
  match (fFn6 w).toNat with
  | 0 => .ok (.lturn (fXa w) (fXb w) ((fI6 w).extractLsb' 4 2) ((fI6 w).extractLsb' 0 4))
  | 1 => need (((fI6 w).extractLsb' 3 3) == 0x0#3) (.lqry (fXa w) (fXb w) ((fI6 w).extractLsb' 2 1) ((fI6 w).extractLsb' 0 2))
  | 2 => need (((fI6 w).extractLsb' 2 4) == 0x0#4) (.lfloor (fXa w) (fXb w) ((fI6 w).extractLsb' 0 2))
  | 3 => need (((fI6 w).extractLsb' 4 2) == 0x0#2) (.mcst (fXa w) (fXb w) ((fI6 w).extractLsb' 0 4))
  | 4 => need ((fXb w) == 0x0#7 && ((fI6 w).extractLsb' 5 1) == 0x0#1) (.epbind (fXa w) ((fI6 w).extractLsb' 0 5))
  | 5 => need ((fXa w) == 0x0#7 && (fXb w) == 0x0#7 && ((fI6 w).extractLsb' 5 1) == 0x0#1) (.epunb ((fI6 w).extractLsb' 0 5))
  | _ => .error .unassignedFn

/-- Major 0x34 (R21), by fn6. -/
def decodeMajor34 (w : BitVec 32) : Except DecodeError Instr :=
  match (fFn6 w).toNat with
  | 0 => need ((fI6 w) == 0x0#6) (.preempt (fXa w) (fXb w))
  | 1 => need ((fI6 w) == 0x0#6) (.resume (fXa w) (fXb w))
  | 2 => need ((fI6 w) == 0x0#6) (.snapq (fXa w) (fXb w))
  | _ => .error .unassignedFn

/-- Major 0x35 (R21), by fn6. -/
def decodeMajor35 (w : BitVec 32) : Except DecodeError Instr :=
  match (fFn6 w).toNat with
  | 0 => need ((fI6 w) == 0x0#6) (.tlbinv (fXa w) (fXb w))
  | 1 => need ((fXb w) == 0x0#7 && ((fI6 w).extractLsb' 1 5) == 0x0#5) (.tlbinva (fXa w) ((fI6 w).extractLsb' 0 1))
  | 2 => need ((fXb w) == 0x0#7 && (fI6 w) == 0x0#6) (.wcinv (fXa w))
  | 3 => need ((fI6 w) == 0x0#6) (.xlprobe (fXa w) (fXb w))
  | _ => .error .unassignedFn

/-- Major 0x3f (R21), by fn6. -/
def decodeMajor3f (w : BitVec 32) : Except DecodeError Instr :=
  match (fFn6 w).toNat with
  | 0 => need ((fXa w) == 0x0#7 && (fXb w) == 0x0#7) (.trap (fI6 w))
  | 1 => need ((fXa w) == 0x0#7 && (fXb w) == 0x0#7 && (fI6 w) == 0x0#6) (.eret)
  | 2 => need ((fXa w) == 0x0#7 && (fXb w) == 0x0#7) (.breakI (fI6 w))
  | 3 => need ((fI6 w) == 0x0#6) (.attest (fXa w) (fXb w))
  | 4 => need ((fXb w) == 0x0#7 && (fI6 w) == 0x0#6) (.freeze (fXa w))
  | _ => .error .unassignedFn

/-- A C-word by its major opcode (R21). -/
def decodeC (w : BitVec 32) : Except DecodeError Instr :=
  match (fMajor w).toNat with
  | 0 => .error .zeroMajor
  | 1 => decodeMajor01 w
  | 2 => .ok (.addi (fD w) (fA w) (fI12 w))
  | 3 => .ok (.andi (fD w) (fA w) (fI12 w))
  | 4 => .ok (.ori (fD w) (fA w) (fI12 w))
  | 5 => .ok (.xori (fD w) (fA w) (fI12 w))
  | 6 => need (((fI12 w).extractLsb' 6 6) == 0x0#6) (.shli (fD w) (fA w) ((fI12 w).extractLsb' 0 6))
  | 7 => need (((fI12 w).extractLsb' 6 6) == 0x0#6) (.shri (fD w) (fA w) ((fI12 w).extractLsb' 0 6))
  | 8 => need (((fI12 w).extractLsb' 6 6) == 0x0#6) (.sari (fD w) (fA w) ((fI12 w).extractLsb' 0 6))
  | 9 => .ok (.muli (fD w) (fA w) (fI12 w))
  | 10 => .ok (.li (fD w) (fI19 w))
  | 11 => .ok (.lpc (fD w) (fI19 w))
  | 12 => .ok (.loop (fD w) (fI19 w))
  | 13 => decodeMajor0d w
  | 14 => .ok (.cmpeqi (fD w) (fA w) (fI12 w))
  | 15 => .ok (.cmplti (fD w) (fA w) (fI12 w))
  | 16 => .ok (.cmpltni (fD w) (fA w) (fI12 w))
  | 17 => decodeMajor11 w
  | 18 => need (((fFn w).extractLsb' 3 2) == 0x0#2) (.sel (fD w) (fA w) (fB w) ((fFn w).extractLsb' 0 3))
  | 20 => decodeBranch w
  | 21 => need ((fNeg w) == 0x0#1 && (fP w) == 0x0#3) (.call (fO22 w))
  | 22 => decodeMajor16 w
  | 23 => .ok (.bz (fD w) (fNz w) (fO18 w))
  | 24 => .ok (.bnz (fD w) (fNz w) (fO18 w))
  | 25 => decodeMajor19 w
  | 26 => decodeMajor1a w
  | 32 => decodeMajor20 w
  | 33 => decodeMajor21 w
  | 34 => decodeMajor22 w
  | 35 => if fFn w == 0#5 then .ok (.ldx (fD w) (fA w) (fB w)) else .error .unassignedFn
  | 36 => if fFn w == 0#5 then .ok (.stx (fD w) (fA w) (fB w)) else .error .unassignedFn
  | 37 => decodeMajor25 w
  | 38 => decodeMajor26 w
  | 39 => decodeMajor27 w
  | 40 => decodeMajor28 w
  | 41 => decodeMajor29 w
  | 42 => decodeMajor2a w
  | 43 => decodeMajor2b w
  | 44 => decodeMajor2c w
  | 45 => decodeMajor2d w
  | 46 => decodeMajor2e w
  | 47 => decodeMajor2f w
  | 48 => decodeMajor30 w
  | 49 => decodeMajor31 w
  | 50 => decodeMajor32 w
  | 51 => decodeMajor33 w
  | 52 => decodeMajor34 w
  | 53 => decodeMajor35 w
  | 54 => need ((fA w) == 0x0#7) (.csrr (fD w) (fI12 w))
  | 55 => .ok (.csrw (fD w) (fA w) (fI12 w))
  | 56 => .ok (.csrs (fD w) (fA w) (fI12 w))
  | 57 => .ok (.csrc (fD w) (fA w) (fI12 w))
  | 63 => decodeMajor3f w
  | _ => .error .reservedMajor

/-- E-words of eop 0x01 to 0x12 (R30). -/
def decodeEOnline (w : BitVec 32) : Except DecodeError Instr :=
  match (fEop w).toNat with
  | 1 => need ((fEc w) == 0x0#5 && ((fMode w).extractLsb' 0 4) == 0x0#4) (.oadd (fEa w) (fEb w) ((fMode w).extractLsb' 4 5))
  | 2 => need ((fEc w) == 0x0#5 && ((fMode w).extractLsb' 0 4) == 0x0#4) (.osub (fEa w) (fEb w) ((fMode w).extractLsb' 4 5))
  | 3 => need ((fEc w) == 0x0#5 && ((fMode w).extractLsb' 0 4) == 0x0#4) (.omul (fEa w) (fEb w) ((fMode w).extractLsb' 4 5))
  | 4 => need (((fMode w).extractLsb' 0 4) == 0x0#4) (.ofma (fEa w) (fEb w) (fEc w) ((fMode w).extractLsb' 4 5))
  | 5 => need ((fEc w) == 0x0#5 && ((fMode w).extractLsb' 0 4) == 0x0#4) (.odiv (fEa w) (fEb w) ((fMode w).extractLsb' 4 5))
  | 6 => need ((fEb w) == 0x0#5 && (fEc w) == 0x0#5 && ((fMode w).extractLsb' 0 4) == 0x0#4) (.osqrt (fEa w) ((fMode w).extractLsb' 4 5))
  | 7 => need ((fEb w) == 0x0#5 && (fEc w) == 0x0#5 && ((fMode w).extractLsb' 0 4) == 0x0#4) (.orsqrt (fEa w) ((fMode w).extractLsb' 4 5))
  | 8 => need ((fEb w) == 0x0#5 && (fEc w) == 0x0#5 && ((fMode w).extractLsb' 0 4) == 0x0#4) (.oexp2 (fEa w) ((fMode w).extractLsb' 4 5))
  | 9 => need ((fEb w) == 0x0#5 && (fEc w) == 0x0#5 && ((fMode w).extractLsb' 0 4) == 0x0#4) (.oscl (fEa w) ((fMode w).extractLsb' 4 5))
  | 10 => need ((fEb w) == 0x0#5 && (fEc w) == 0x0#5 && ((fMode w).extractLsb' 0 4) == 0x0#4) (.oneg (fEa w) ((fMode w).extractLsb' 4 5))
  | 11 => need ((fEb w) == 0x0#5 && (fEc w) == 0x0#5 && ((fMode w).extractLsb' 0 4) == 0x0#4) (.oabs (fEa w) ((fMode w).extractLsb' 4 5))
  | 12 => need ((fEc w) == 0x0#5 && ((fMode w).extractLsb' 1 3) == 0x0#3) (.ocmp (fEa w) (fEb w) ((fMode w).extractLsb' 4 5) ((fMode w).extractLsb' 0 1))
  | 13 => need ((fEc w) == 0x0#5 && ((fMode w).extractLsb' 1 3) == 0x0#3) (.omax (fEa w) (fEb w) ((fMode w).extractLsb' 4 5) ((fMode w).extractLsb' 0 1))
  | 14 => need ((fEb w) == 0x0#5 && (fEc w) == 0x0#5 && ((fMode w).extractLsb' 1 3) == 0x0#3) (.orelu (fEa w) ((fMode w).extractLsb' 4 5) ((fMode w).extractLsb' 0 1))
  | 15 => need ((fEb w) == 0x0#5 && (fEc w) == 0x0#5 && ((fMode w).extractLsb' 1 3) == 0x0#3) (.othr (fEa w) ((fMode w).extractLsb' 4 5) ((fMode w).extractLsb' 0 1))
  | 16 => need ((fEb w) == 0x0#5 && (fEc w) == 0x0#5 && ((fMode w).extractLsb' 2 2) == 0x0#2) (.ow2d (fEa w) ((fMode w).extractLsb' 4 5) ((fMode w).extractLsb' 0 2))
  | 17 => need ((fEb w) == 0x0#5 && (fEc w) == 0x0#5) (.od2w (fEa w) ((fMode w).extractLsb' 4 5) ((fMode w).extractLsb' 2 2) ((fMode w).extractLsb' 0 2))
  | 18 => need ((fEb w) == 0x0#5 && (fEc w) == 0x0#5 && ((fMode w).extractLsb' 0 4) == 0x0#4) (.oacc (fEa w) ((fMode w).extractLsb' 4 5))
  | _ => .error .reservedEop

/-- E-words of eop 0x20 to 0x35 (R30). -/
def decodeEVector (w : BitVec 32) : Except DecodeError Instr :=
  match (fEop w).toNat with
  | 32 => need ((fEc w) == 0x0#5) (.vadd (fEa w) (fEb w) ((fMode w).extractLsb' 6 3) ((fMode w).extractLsb' 4 2) ((fMode w).extractLsb' 0 4))
  | 33 => need ((fEc w) == 0x0#5) (.vsub (fEa w) (fEb w) ((fMode w).extractLsb' 6 3) ((fMode w).extractLsb' 4 2) ((fMode w).extractLsb' 0 4))
  | 34 => need ((fEc w) == 0x0#5) (.vmul (fEa w) (fEb w) ((fMode w).extractLsb' 6 3) ((fMode w).extractLsb' 4 2) ((fMode w).extractLsb' 0 4))
  | 35 => .ok (.vfma (fEa w) (fEb w) (fEc w) ((fMode w).extractLsb' 6 3) ((fMode w).extractLsb' 4 2) ((fMode w).extractLsb' 0 4))
  | 36 => need ((fEc w) == 0x0#5) (.vdiv (fEa w) (fEb w) ((fMode w).extractLsb' 6 3) ((fMode w).extractLsb' 4 2) ((fMode w).extractLsb' 0 4))
  | 37 => need ((fEb w) == 0x0#5 && (fEc w) == 0x0#5) (.vsqrt (fEa w) ((fMode w).extractLsb' 6 3) ((fMode w).extractLsb' 4 2) ((fMode w).extractLsb' 0 4))
  | 38 => need ((fEc w) == 0x0#5) (.vmin (fEa w) (fEb w) ((fMode w).extractLsb' 6 3) ((fMode w).extractLsb' 4 2) ((fMode w).extractLsb' 0 4))
  | 39 => need ((fEc w) == 0x0#5) (.vmax (fEa w) (fEb w) ((fMode w).extractLsb' 6 3) ((fMode w).extractLsb' 4 2) ((fMode w).extractLsb' 0 4))
  | 40 => need ((fEb w) == 0x0#5 && (fEc w) == 0x0#5) (.vabs (fEa w) ((fMode w).extractLsb' 6 3) ((fMode w).extractLsb' 4 2) ((fMode w).extractLsb' 0 4))
  | 41 => need ((fEb w) == 0x0#5 && (fEc w) == 0x0#5) (.vneg (fEa w) ((fMode w).extractLsb' 6 3) ((fMode w).extractLsb' 4 2) ((fMode w).extractLsb' 0 4))
  | 42 => need ((fEc w) == 0x0#5) (.vcmp (fEa w) (fEb w) ((fMode w).extractLsb' 6 3) ((fMode w).extractLsb' 4 2) ((fMode w).extractLsb' 0 4))
  | 43 => .ok (.vsel (fEa w) (fEb w) (fEc w) ((fMode w).extractLsb' 6 3) ((fMode w).extractLsb' 4 2) ((fMode w).extractLsb' 0 4))
  | 44 => need ((fEb w) == 0x0#5 && (fEc w) == 0x0#5) (.vcvt (fEa w) ((fMode w).extractLsb' 6 3) ((fMode w).extractLsb' 4 2) ((fMode w).extractLsb' 0 4))
  | 45 => need ((fEb w) == 0x0#5 && (fEc w) == 0x0#5) (.vred (fEa w) ((fMode w).extractLsb' 6 3) ((fMode w).extractLsb' 4 2) ((fMode w).extractLsb' 0 4))
  | 46 => need ((fEc w) == 0x0#5) (.vand (fEa w) (fEb w) ((fMode w).extractLsb' 6 3) ((fMode w).extractLsb' 4 2) ((fMode w).extractLsb' 0 4))
  | 47 => need ((fEc w) == 0x0#5) (.vor (fEa w) (fEb w) ((fMode w).extractLsb' 6 3) ((fMode w).extractLsb' 4 2) ((fMode w).extractLsb' 0 4))
  | 48 => need ((fEc w) == 0x0#5) (.vxor (fEa w) (fEb w) ((fMode w).extractLsb' 6 3) ((fMode w).extractLsb' 4 2) ((fMode w).extractLsb' 0 4))
  | 49 => need ((fEc w) == 0x0#5) (.vshl (fEa w) (fEb w) ((fMode w).extractLsb' 6 3) ((fMode w).extractLsb' 4 2) ((fMode w).extractLsb' 0 4))
  | 50 => need ((fEc w) == 0x0#5) (.vshr (fEa w) (fEb w) ((fMode w).extractLsb' 6 3) ((fMode w).extractLsb' 4 2) ((fMode w).extractLsb' 0 4))
  | 51 => need ((fEc w) == 0x0#5) (.vmac (fEa w) (fEb w) ((fMode w).extractLsb' 6 3) ((fMode w).extractLsb' 4 2) ((fMode w).extractLsb' 0 4))
  | 52 => need ((fEc w) == 0x0#5) (.vperm (fEa w) (fEb w) ((fMode w).extractLsb' 6 3) ((fMode w).extractLsb' 4 2) ((fMode w).extractLsb' 0 4))
  | 53 => need ((fEb w) == 0x0#5 && (fEc w) == 0x0#5) (.vsat (fEa w) ((fMode w).extractLsb' 6 3) ((fMode w).extractLsb' 4 2) ((fMode w).extractLsb' 0 4))
  | _ => .error .reservedEop

/-- E-words of eop 0x40 to 0x52 (R30). -/
noncomputable def decodeEMatrix (w : BitVec 32) : Except DecodeError Instr :=
  match (fEop w).toNat with
  | 64 => need (((fMode w).extractLsb' 4 2) == 0x0#2) (.mma (fEa w) (fEb w) (fEc w) ((fMode w).extractLsb' 6 3) ((fMode w).extractLsb' 0 4))
  | 65 => need (((fMode w).extractLsb' 4 2) == 0x0#2) (.mmas (fEa w) (fEb w) (fEc w) ((fMode w).extractLsb' 6 3) ((fMode w).extractLsb' 0 4))
  | 66 => need ((fEa w) == 0x0#5 && (fEb w) == 0x0#5 && ((fMode w).extractLsb' 4 2) == 0x0#2) (.mmac (fEc w) ((fMode w).extractLsb' 6 3) ((fMode w).extractLsb' 0 4))
  | 67 => need ((fEb w) == 0x0#5 && (fEc w) == 0x0#5 && ((fMode w).extractLsb' 4 2) == 0x0#2) (.mldb (fEa w) ((fMode w).extractLsb' 6 3) ((fMode w).extractLsb' 0 4))
  | 68 => need ((fEb w) == 0x0#5 && (fEc w) == 0x0#5 && ((fMode w).extractLsb' 4 2) == 0x0#2) (.mzero (fEa w) ((fMode w).extractLsb' 6 3) ((fMode w).extractLsb' 0 4))
  | 69 => need ((fEb w) == 0x0#5 && (fEc w) == 0x0#5) (.mrd (fEa w) ((fMode w).extractLsb' 6 3) ((fMode w).extractLsb' 4 2) ((fMode w).extractLsb' 0 4))
  | 70 => need ((fEb w) == 0x0#5 && (fEc w) == 0x0#5 && ((fMode w).extractLsb' 4 2) == 0x0#2) (.mcx (fEa w) ((fMode w).extractLsb' 6 3) ((fMode w).extractLsb' 0 4))
  | 71 => need (((fMode w).extractLsb' 4 2) == 0x0#2) (.mspm (fEa w) (fEb w) (fEc w) ((fMode w).extractLsb' 6 3) ((fMode w).extractLsb' 0 4))
  | 80 => need ((fEb w) == 0x0#5 && (fEc w) == 0x0#5 && ((fMode w).extractLsb' 1 5) == 0x0#5) (.cvdn (fEa w) ((fMode w).extractLsb' 6 3) ((fMode w).extractLsb' 0 1))
  | 81 => need ((fEb w) == 0x0#5 && (fEc w) == 0x0#5 && ((fMode w).extractLsb' 0 4) == 0x0#4) (.cvup (fEa w) ((fMode w).extractLsb' 6 3) ((fMode w).extractLsb' 4 2))
  | 82 => need ((fEc w) == 0x0#5 && ((fMode w).extractLsb' 0 6) == 0x0#6) (.sjoin (fEa w) (fEb w) ((fMode w).extractLsb' 6 3))
  | _ => .error .reservedEop

/-- E-words of eop 0x60 to 0x73 (R30). -/
noncomputable def decodeEPort (w : BitVec 32) : Except DecodeError Instr :=
  match (fEop w).toNat with
  | 96 => need ((fEb w) == 0x0#5 && (fEc w) == 0x0#5) (.mld (fEa w) ((fMode w).extractLsb' 6 3) ((fMode w).extractLsb' 3 3) ((fMode w).extractLsb' 0 3))
  | 97 => need ((fEc w) == 0x0#5) (.mst (fEa w) (fEb w) ((fMode w).extractLsb' 6 3) ((fMode w).extractLsb' 3 3) ((fMode w).extractLsb' 0 3))
  | 98 => need ((fEb w) == 0x0#5 && (fEc w) == 0x0#5 && ((fMode w).extractLsb' 6 3) == 0x0#3 && ((fMode w).extractLsb' 0 3) == 0x0#3) (.mldt (fEa w) ((fMode w).extractLsb' 3 3))
  | 99 => need ((fEc w) == 0x0#5 && ((fMode w).extractLsb' 6 3) == 0x0#3 && ((fMode w).extractLsb' 0 3) == 0x0#3) (.mstt (fEa w) (fEb w) ((fMode w).extractLsb' 3 3))
  | 100 => need (((fMode w).extractLsb' 1 2) == 0x0#2) (.mamo (fEa w) (fEb w) (fEc w) ((fMode w).extractLsb' 6 3) ((fMode w).extractLsb' 3 3) ((fMode w).extractLsb' 0 1))
  | 101 => need ((fEb w) == 0x0#5 && (fEc w) == 0x0#5 && ((fMode w).extractLsb' 1 2) == 0x0#2) (.mldf (fEa w) ((fMode w).extractLsb' 6 3) ((fMode w).extractLsb' 3 3) ((fMode w).extractLsb' 0 1))
  | 102 => need ((fEc w) == 0x0#5 && ((fMode w).extractLsb' 1 2) == 0x0#2) (.mste (fEa w) (fEb w) ((fMode w).extractLsb' 6 3) ((fMode w).extractLsb' 3 3) ((fMode w).extractLsb' 0 1))
  | 104 => need ((fEa w) == 0x0#5 && (fEb w) == 0x0#5 && (fEc w) == 0x0#5 && (fMode w) == 0x0#9) (.aga)
  | 105 => need ((fEb w) == 0x0#5 && (fEc w) == 0x0#5 && (fMode w) == 0x0#9) (.agx (fEa w))
  | 106 => need ((fEa w) == 0x0#5 && (fEb w) == 0x0#5 && (fEc w) == 0x0#5 && (fMode w) == 0x0#9) (.agh)
  | 112 => need ((fEb w) == 0x0#5 && (fEc w) == 0x0#5 && ((fMode w).extractLsb' 3 6) == 0x0#6) (.xlate (fEa w) ((fMode w).extractLsb' 1 2) ((fMode w).extractLsb' 0 1))
  | 114 => need ((fEb w) == 0x0#5 && (fEc w) == 0x0#5 && ((fMode w).extractLsb' 4 2) == 0x0#2) (.sieve (fEa w) ((fMode w).extractLsb' 6 3) ((fMode w).extractLsb' 1 3) ((fMode w).extractLsb' 0 1))
  | 115 => need ((fEb w) == 0x0#5 && (fEc w) == 0x0#5 && ((fMode w).extractLsb' 4 2) == 0x0#2) (.unsieve (fEa w) ((fMode w).extractLsb' 6 3) ((fMode w).extractLsb' 1 3) ((fMode w).extractLsb' 0 1))
  | _ => .error .reservedEop

/-- E-words of eop 0x78 to 0x81 (R30). -/
noncomputable def decodeEFlow (w : BitVec 32) : Except DecodeError Instr :=
  match (fEop w).toNat with
  | 120 => if (fMode w) == 0x0#9 then need ((fEc w) == 0x0#5) (.gateCtok (fEa w) (fEb w))
    else if (fMode w) == 0x1#9 then need ((fEb w) == 0x0#5 && (fEc w) == 0x0#5) (.gateCounter (fEa w))
    else .error .unusedNonzero
  | 121 => need ((fMode w) == 0x0#9) (.carry (fEa w) (fEb w) (fEc w))
  | 122 => need ((fEc w) == 0x0#5 && ((fMode w).extractLsb' 1 8) == 0x0#8) (.steer (fEa w) (fEb w) ((fMode w).extractLsb' 0 1))
  | 123 => need ((fMode w) == 0x0#9) (.merge (fEa w) (fEb w) (fEc w))
  | 124 => need ((fEb w) == 0x0#5 && (fEc w) == 0x0#5 && (fMode w) == 0x0#9) (.dup (fEa w))
  | 125 => need ((fEb w) == 0x0#5 && (fEc w) == 0x0#5 && ((fMode w).extractLsb' 1 8) == 0x0#8) (.eosgen (fEa w) ((fMode w).extractLsb' 0 1))
  | 127 => need ((fEb w) == 0x0#5 && (fEc w) == 0x0#5 && ((fMode w).extractLsb' 1 8) == 0x0#8) (.sink (fEa w) ((fMode w).extractLsb' 0 1))
  | 128 => if (fMode w) == 0x0#9 then need ((fEa w) == 0x0#5 && (fEb w) == 0x0#5 && (fEc w) == 0x0#5) (.emitTok)
    else if (fMode w) == 0x1#9 then need ((fEa w) == 0x0#5 && (fEb w) == 0x0#5 && (fEc w) == 0x0#5) (.emitIota)
    else if (fMode w) == 0x2#9 then need ((fEa w) == 0x0#5 && (fEb w) == 0x0#5 && (fEc w) == 0x0#5) (.emitIng)
    else .error .unusedNonzero
  | 129 => if (fMode w) == 0x0#9 then need ((fEb w) == 0x0#5 && (fEc w) == 0x0#5) (.tagopSet (fEa w))
    else if (fMode w) == 0x1#9 then need ((fEb w) == 0x0#5 && (fEc w) == 0x0#5) (.tagopCtok (fEa w))
    else if (fMode w) == 0x2#9 then need ((fEb w) == 0x0#5 && (fEc w) == 0x0#5) (.tagopClear (fEa w))
    else .error .unusedNonzero
  | _ => .error .reservedEop

/-- An E-word by its eop (R30).  An idle word, all zeros (R31), is no operation and is refused here as reserved. -/
noncomputable def decodeE (w : BitVec 32) : Except DecodeError Instr :=
  if (fEop w).toNat ≤ 0x1F then decodeEOnline w
  else if (fEop w).toNat ≤ 0x3F then decodeEVector w
  else if (fEop w).toNat ≤ 0x5F then decodeEMatrix w
  else if (fEop w).toNat ≤ 0x77 then decodeEPort w
  else decodeEFlow w

/-- An S-word by its mode (R32). -/
noncomputable def decodeS (w : BitVec 16) : Except DecodeError Instr :=
  if fSz0 w != 0#3 then .error .unusedNonzero
  else match (fSm w).toNat with
    | 0 => .ok (.routePass (fSo w) (fSi w) (fSx w))
    | 1 => .ok (.routeHold (fSo w) (fSi w) (fSx w))
    | 2 => .ok (.routeFanout (fSo w) (fSi w) (fSx w))
    | 3 => .ok (.routeSeam (fSo w) (fSi w) (fSx w))
    | _ => .error .reservedMode

/-! The encoder: the formats of R15, R25 and R32, high field first. -/

/-- Format CR (R15). -/
def packCR (m : BitVec 6) (x0 : BitVec 7) (x1 : BitVec 7) (x2 : BitVec 7) (x3 : BitVec 5) : BitVec 32 :=
  m ++ x0 ++ x1 ++ x2 ++ x3

/-- Format CI (R15). -/
def packCI (m : BitVec 6) (x0 : BitVec 7) (x1 : BitVec 7) (x2 : BitVec 12) : BitVec 32 :=
  m ++ x0 ++ x1 ++ x2

/-- Format CL (R15). -/
def packCL (m : BitVec 6) (x0 : BitVec 7) (x1 : BitVec 19) : BitVec 32 :=
  m ++ x0 ++ x1

/-- Format CB (R15). -/
def packCB (m : BitVec 6) (x0 : BitVec 1) (x1 : BitVec 3) (x2 : BitVec 22) : BitVec 32 :=
  m ++ x0 ++ x1 ++ x2

/-- Format CZ (R15). -/
def packCZ (m : BitVec 6) (x0 : BitVec 7) (x1 : BitVec 1) (x2 : BitVec 18) : BitVec 32 :=
  m ++ x0 ++ x1 ++ x2

/-- Format CM (R15). -/
def packCM (m : BitVec 6) (x0 : BitVec 7) (x1 : BitVec 7) (x2 : BitVec 2) (x3 : BitVec 3) (x4 : BitVec 7) : BitVec 32 :=
  m ++ x0 ++ x1 ++ x2 ++ x3 ++ x4

/-- Format CX (R15). -/
def packCX (m : BitVec 6) (x0 : BitVec 6) (x1 : BitVec 7) (x2 : BitVec 7) (x3 : BitVec 6) : BitVec 32 :=
  m ++ x0 ++ x1 ++ x2 ++ x3

/-- An E-word (R25). -/
def packE (eop : BitVec 8) (x0 x1 x2 : BitVec 5) (x3 : BitVec 9) : BitVec 32 :=
  eop ++ x0 ++ x1 ++ x2 ++ x3

/-- An S-word (R32). -/
def packS (x0 x1 : BitVec 4) (x2 : BitVec 3) (x3 : BitVec 2) (x4 : BitVec 3) : BitVec 16 :=
  x0 ++ x1 ++ x2 ++ x3 ++ x4

/-- The word of a C-word or of an E-word; an S-word and an event have no 32-bit word, and this is 0 for them. -/
def encode (i : Instr) : BitVec 32 :=
  match i with
  | .add d a b => packCR 0x01 d a b 0x0#5
  | .sub d a b => packCR 0x01 d a b 0x1#5
  | .mul d a b => packCR 0x01 d a b 0x2#5
  | .mulh d a b => packCR 0x01 d a b 0x3#5
  | .mulhn d a b => packCR 0x01 d a b 0x4#5
  | .div d a b => packCR 0x01 d a b 0x5#5
  | .divn d a b => packCR 0x01 d a b 0x6#5
  | .rem d a b => packCR 0x01 d a b 0x7#5
  | .remn d a b => packCR 0x01 d a b 0x8#5
  | .and d a b => packCR 0x01 d a b 0x9#5
  | .or d a b => packCR 0x01 d a b 0xa#5
  | .xor d a b => packCR 0x01 d a b 0xb#5
  | .andn d a b => packCR 0x01 d a b 0xc#5
  | .shl d a b => packCR 0x01 d a b 0xd#5
  | .shr d a b => packCR 0x01 d a b 0xe#5
  | .sar d a b => packCR 0x01 d a b 0xf#5
  | .rotl d a b => packCR 0x01 d a b 0x10#5
  | .min d a b => packCR 0x01 d a b 0x11#5
  | .max d a b => packCR 0x01 d a b 0x12#5
  | .minn d a b => packCR 0x01 d a b 0x13#5
  | .maxn d a b => packCR 0x01 d a b 0x14#5
  | .clz d a => packCR 0x01 d a 0x0#7 0x15#5
  | .ctz d a => packCR 0x01 d a 0x0#7 0x16#5
  | .popc d a => packCR 0x01 d a 0x0#7 0x17#5
  | .sext d a b => packCR 0x01 d a b 0x18#5
  | .zext d a b => packCR 0x01 d a b 0x19#5
  | .movx d a => packCR 0x01 d a 0x0#7 0x1a#5
  | .addi d a imm => packCI 0x02 d a imm
  | .andi d a imm => packCI 0x03 d a imm
  | .ori d a imm => packCI 0x04 d a imm
  | .xori d a imm => packCI 0x05 d a imm
  | .shli d a imm => packCI 0x06 d a (0x0#6 ++ imm)
  | .shri d a imm => packCI 0x07 d a (0x0#6 ++ imm)
  | .sari d a imm => packCI 0x08 d a (0x0#6 ++ imm)
  | .muli d a imm => packCI 0x09 d a imm
  | .li d imm => packCL 0x0a d imm
  | .lpc d imm => packCL 0x0b d imm
  | .loop d imm => packCL 0x0c d imm
  | .cmpeq d a b => packCR 0x0d d a b 0x0#5
  | .cmpne d a b => packCR 0x0d d a b 0x1#5
  | .cmplt d a b => packCR 0x0d d a b 0x2#5
  | .cmple d a b => packCR 0x0d d a b 0x3#5
  | .cmpltn d a b => packCR 0x0d d a b 0x4#5
  | .cmplen d a b => packCR 0x0d d a b 0x5#5
  | .cmptst d a b => packCR 0x0d d a b 0x6#5
  | .cmpeqi d a imm => packCI 0x0e d a imm
  | .cmplti d a imm => packCI 0x0f d a imm
  | .cmpltni d a imm => packCI 0x10 d a imm
  | .pand d a b => packCR 0x11 d a b 0x0#5
  | .por d a b => packCR 0x11 d a b 0x1#5
  | .pxor d a b => packCR 0x11 d a b 0x2#5
  | .pandn d a b => packCR 0x11 d a b 0x3#5
  | .pnot d a => packCR 0x11 d a 0x0#7 0x4#5
  | .pmov d a => packCR 0x11 d a 0x0#7 0x5#5
  | .pset d a => packCR 0x11 d a 0x0#7 0x6#5
  | .sel d a b p => packCR 0x12 d a b (0x0#2 ++ p)
  | .b off => packCB 0x14 0x0#1 0x0#3 off
  | .bp p off => packCB 0x14 0x0#1 p off
  | .bnp p off => packCB 0x14 0x1#1 p off
  | .call off => packCB 0x15 0x0#1 0x0#3 off
  | .jr a => packCR 0x16 0x0#7 a 0x0#7 0x0#5
  | .jalr d a => packCR 0x16 d a 0x0#7 0x1#5
  | .ret => packCR 0x16 0x0#7 0x3e#7 0x0#7 0x2#5
  | .bz a n off => packCZ 0x17 a n off
  | .bnz a n off => packCZ 0x18 a n off
  | .fadd d a b => packCR 0x19 d a b 0x0#5
  | .fsub d a b => packCR 0x19 d a b 0x1#5
  | .fmul d a b => packCR 0x19 d a b 0x2#5
  | .fdiv d a b => packCR 0x19 d a b 0x3#5
  | .fsqrt d a => packCR 0x19 d a 0x0#7 0x4#5
  | .fmin d a b => packCR 0x19 d a b 0x5#5
  | .fmax d a b => packCR 0x19 d a b 0x6#5
  | .fabs d a => packCR 0x19 d a 0x0#7 0x7#5
  | .fneg d a => packCR 0x19 d a 0x0#7 0x8#5
  | .fcmpeq d a b => packCR 0x19 d a b 0x9#5
  | .fcmplt d a b => packCR 0x19 d a b 0xa#5
  | .fcmple d a b => packCR 0x19 d a b 0xb#5
  | .fcvtif d a => packCR 0x19 d a 0x0#7 0xc#5
  | .fcvtfi d a => packCR 0x19 d a 0x0#7 0xd#5
  | .fcvtsd d a => packCR 0x19 d a 0x0#7 0xe#5
  | .fcvtds d a => packCR 0x19 d a 0x0#7 0xf#5
  | .fclass d a => packCR 0x19 d a 0x0#7 0x10#5
  | .ffma d a b => packCR 0x1a d a b 0x0#5
  | .ffms d a b => packCR 0x1a d a b 0x1#5
  | .ldb t a c off => packCM 0x20 t a 0x0#2 c off
  | .ldh t a c off => packCM 0x20 t a 0x1#2 c off
  | .ldw t a c off => packCM 0x20 t a 0x2#2 c off
  | .ldd t a c off => packCM 0x20 t a 0x3#2 c off
  | .ldbz t a c off => packCM 0x21 t a 0x0#2 c off
  | .ldhz t a c off => packCM 0x21 t a 0x1#2 c off
  | .ldwz t a c off => packCM 0x21 t a 0x2#2 c off
  | .lddZ t a c off => packCM 0x21 t a 0x3#2 c off
  | .stb t a c off => packCM 0x22 t a 0x0#2 c off
  | .sth t a c off => packCM 0x22 t a 0x1#2 c off
  | .stw t a c off => packCM 0x22 t a 0x2#2 c off
  | .std t a c off => packCM 0x22 t a 0x3#2 c off
  | .ldx d a b => packCR 0x23 d a b 0x0#5
  | .stx d a b => packCR 0x24 d a b 0x0#5
  | .ldf d a => packCR 0x25 d a 0x0#7 0x0#5
  | .ldfe d a => packCR 0x25 d a 0x0#7 0x1#5
  | .ste a b => packCR 0x25 0x0#7 a b 0x2#5
  | .stf a b => packCR 0x25 0x0#7 a b 0x3#5
  | .feset a => packCR 0x25 0x0#7 a 0x0#7 0x4#5
  | .feclr a => packCR 0x25 0x0#7 a 0x0#7 0x5#5
  | .feq d a => packCR 0x25 d a 0x0#7 0x6#5
  | .ldfeNb d a => packCR 0x25 d a 0x0#7 0x7#5
  | .steNb a b => packCR 0x25 0x0#7 a b 0x8#5
  | .amoadd d a b => packCR 0x26 d a b 0x0#5
  | .amoand d a b => packCR 0x26 d a b 0x1#5
  | .amoor d a b => packCR 0x26 d a b 0x2#5
  | .amoxor d a b => packCR 0x26 d a b 0x3#5
  | .amomin d a b => packCR 0x26 d a b 0x4#5
  | .amomax d a b => packCR 0x26 d a b 0x5#5
  | .amominn d a b => packCR 0x26 d a b 0x6#5
  | .amomaxn d a b => packCR 0x26 d a b 0x7#5
  | .amoswp d a b => packCR 0x26 d a b 0x8#5
  | .amocas d a b => packCR 0x26 d a b 0x9#5
  | .redadd a b => packCR 0x27 0x0#7 a b 0x0#5
  | .redand a b => packCR 0x27 0x0#7 a b 0x1#5
  | .redor a b => packCR 0x27 0x0#7 a b 0x2#5
  | .redxor a b => packCR 0x27 0x0#7 a b 0x3#5
  | .redmin a b => packCR 0x27 0x0#7 a b 0x4#5
  | .redmax a b => packCR 0x27 0x0#7 a b 0x5#5
  | .oredFadd c a b => packCR 0x28 c a b 0x0#5
  | .oredFadds c a b => packCR 0x28 c a b 0x1#5
  | .oredAdd c a b => packCR 0x28 c a b 0x2#5
  | .oredFmax c a b => packCR 0x28 c a b 0x3#5
  | .oredFmin c a b => packCR 0x28 c a b 0x4#5
  | .sleepu a => packCX 0x29 0x0#6 a 0x0#7 0x0#6
  | .rdtb a => packCX 0x29 0x1#6 a 0x0#7 0x0#6
  | .yield => packCX 0x29 0x2#6 0x0#7 0x0#7 0x0#6
  | .fjoin => packCX 0x29 0x3#6 0x0#7 0x0#7 0x0#6
  | .done => packCX 0x29 0x4#6 0x0#7 0x0#7 0x0#6
  | .strmGo a r e => packCX 0x2a 0x0#6 a 0x0#7 (r ++ e)
  | .strmArg a r e => packCX 0x2a 0x1#6 a 0x0#7 (r ++ e)
  | .drain r => packCX 0x2a 0x2#6 0x0#7 0x0#7 r
  | .cfgld a => packCX 0x2a 0x3#6 a 0x0#7 0x0#6
  | .cfgq a => packCX 0x2a 0x4#6 a 0x0#7 0x0#6
  | .strmTok a b e => packCX 0x2a 0x5#6 a b (0x0#1 ++ e)
  | .send d a b => packCR 0x2b d a b 0x0#5
  | .sendr d a b => packCR 0x2b d a b 0x1#5
  | .ctradd a b => packCX 0x2c 0x0#6 a b 0x0#6
  | .ctrwait a b => packCX 0x2c 0x1#6 a b 0x0#6
  | .ctrrd a b => packCX 0x2c 0x2#6 a b 0x0#6
  | .ctrwaitNb a b => packCX 0x2c 0x3#6 a b 0x0#6
  | .ctrwatch a b n => packCX 0x2c 0x4#6 a b n
  | .thld h b => packCX 0x2d 0x0#6 h b 0x0#6
  | .thst h b => packCX 0x2d 0x1#6 h b 0x0#6
  | .thset h b w => packCX 0x2d 0x2#6 h b w
  | .thget a h w => packCX 0x2d 0x3#6 a h w
  | .thchk h => packCX 0x2d 0x4#6 h 0x0#7 0x0#6
  | .barinit a b => packCX 0x2e 0x0#6 a b 0x0#6
  | .bararr a b => packCX 0x2e 0x1#6 a b 0x0#6
  | .barwait a b => packCX 0x2e 0x2#6 a b 0x0#6
  | .barsync a b => packCX 0x2e 0x3#6 a b 0x0#6
  | .barrd a b s => packCX 0x2e 0x4#6 a b s
  | .barcfg a b => packCX 0x2e 0x5#6 a b 0x0#6
  | .barleave a => packCX 0x2e 0x6#6 a 0x0#7 0x0#6
  | .ctxdef a n => packCX 0x2f 0x0#6 a 0x0#7 n
  | .ctxrd a b n => packCX 0x2f 0x1#6 a b n
  | .ctxwt a b n => packCX 0x2f 0x2#6 a b n
  | .rclose v => packCX 0x2f 0x3#6 0x0#7 0x0#7 v
  | .rqry a => packCX 0x2f 0x4#6 a 0x0#7 0x0#6
  | .enq a b => packCR 0x30 0x0#7 a b 0x0#5
  | .enqNb a b => packCR 0x30 0x0#7 a b 0x1#5
  | .deq a b => packCR 0x30 0x0#7 a b 0x2#5
  | .deqNb a b => packCR 0x30 0x0#7 a b 0x3#5
  | .qsteal a b => packCR 0x30 0x0#7 a b 0x4#5
  | .qinit a b => packCR 0x30 0x0#7 a b 0x5#5
  | .qstat d a => packCR 0x30 d a 0x0#7 0x6#5
  | .qpoison a => packCR 0x30 0x0#7 a 0x0#7 0x7#5
  | .qdrain d a b => packCR 0x30 d a b 0x8#5
  | .enqv a b => packCR 0x30 0x0#7 a b 0x9#5
  | .deqv d a => packCR 0x30 d a 0x0#7 0xa#5
  | .gath a b s w e => packCX 0x31 0x0#6 a b (0x0#2 ++ s ++ w ++ e)
  | .scat a b s w e => packCX 0x31 0x1#6 a b (0x0#2 ++ s ++ w ++ e)
  | .launch d a => packCR 0x32 d a 0x0#7 0x0#5
  | .launchW d a => packCR 0x32 d a 0x0#7 0x1#5
  | .cancel a b => packCR 0x32 0x0#7 a b 0x2#5
  | .graphnew a b => packCR 0x32 0x0#7 a b 0x3#5
  | .jobdl a b => packCR 0x32 0x0#7 a b 0x4#5
  | .lturn a b l g => packCX 0x33 0x0#6 a b (l ++ g)
  | .lqry a b s l => packCX 0x33 0x1#6 a b (0x0#3 ++ s ++ l)
  | .lfloor a b l => packCX 0x33 0x2#6 a b (0x0#4 ++ l)
  | .mcst a b m => packCX 0x33 0x3#6 a b (0x0#2 ++ m)
  | .epbind a e => packCX 0x33 0x4#6 a 0x0#7 (0x0#1 ++ e)
  | .epunb e => packCX 0x33 0x5#6 0x0#7 0x0#7 (0x0#1 ++ e)
  | .preempt a b => packCX 0x34 0x0#6 a b 0x0#6
  | .resume a b => packCX 0x34 0x1#6 a b 0x0#6
  | .snapq a b => packCX 0x34 0x2#6 a b 0x0#6
  | .tlbinv a b => packCX 0x35 0x0#6 a b 0x0#6
  | .tlbinva a m => packCX 0x35 0x1#6 a 0x0#7 (0x0#5 ++ m)
  | .wcinv a => packCX 0x35 0x2#6 a 0x0#7 0x0#6
  | .xlprobe a b => packCX 0x35 0x3#6 a b 0x0#6
  | .csrr d c => packCI 0x36 d 0x0#7 c
  | .csrw d a c => packCI 0x37 d a c
  | .csrs d a c => packCI 0x38 d a c
  | .csrc d a c => packCI 0x39 d a c
  | .trap imm => packCX 0x3f 0x0#6 0x0#7 0x0#7 imm
  | .eret => packCX 0x3f 0x1#6 0x0#7 0x0#7 0x0#6
  | .breakI imm => packCX 0x3f 0x2#6 0x0#7 0x0#7 imm
  | .attest a b => packCX 0x3f 0x3#6 a b 0x0#6
  | .freeze a => packCX 0x3f 0x4#6 a 0x0#7 0x0#6
  | .oadd a b p => packE 0x01 a b 0x0#5 (p ++ 0x0#4)
  | .osub a b p => packE 0x02 a b 0x0#5 (p ++ 0x0#4)
  | .omul a b p => packE 0x03 a b 0x0#5 (p ++ 0x0#4)
  | .ofma a b c p => packE 0x04 a b c (p ++ 0x0#4)
  | .odiv a b p => packE 0x05 a b 0x0#5 (p ++ 0x0#4)
  | .osqrt a p => packE 0x06 a 0x0#5 0x0#5 (p ++ 0x0#4)
  | .orsqrt a p => packE 0x07 a 0x0#5 0x0#5 (p ++ 0x0#4)
  | .oexp2 a p => packE 0x08 a 0x0#5 0x0#5 (p ++ 0x0#4)
  | .oscl a p => packE 0x09 a 0x0#5 0x0#5 (p ++ 0x0#4)
  | .oneg a p => packE 0x0a a 0x0#5 0x0#5 (p ++ 0x0#4)
  | .oabs a p => packE 0x0b a 0x0#5 0x0#5 (p ++ 0x0#4)
  | .ocmp a b p k => packE 0x0c a b 0x0#5 (p ++ 0x0#3 ++ k)
  | .omax a b p k => packE 0x0d a b 0x0#5 (p ++ 0x0#3 ++ k)
  | .orelu a p k => packE 0x0e a 0x0#5 0x0#5 (p ++ 0x0#3 ++ k)
  | .othr a p k => packE 0x0f a 0x0#5 0x0#5 (p ++ 0x0#3 ++ k)
  | .ow2d a p w => packE 0x10 a 0x0#5 0x0#5 (p ++ 0x0#2 ++ w)
  | .od2w a p r w => packE 0x11 a 0x0#5 0x0#5 (p ++ r ++ w)
  | .oacc a p => packE 0x12 a 0x0#5 0x0#5 (p ++ 0x0#4)
  | .vadd a b f r x => packE 0x20 a b 0x0#5 (f ++ r ++ x)
  | .vsub a b f r x => packE 0x21 a b 0x0#5 (f ++ r ++ x)
  | .vmul a b f r x => packE 0x22 a b 0x0#5 (f ++ r ++ x)
  | .vfma a b c f r x => packE 0x23 a b c (f ++ r ++ x)
  | .vdiv a b f r x => packE 0x24 a b 0x0#5 (f ++ r ++ x)
  | .vsqrt a f r x => packE 0x25 a 0x0#5 0x0#5 (f ++ r ++ x)
  | .vmin a b f r x => packE 0x26 a b 0x0#5 (f ++ r ++ x)
  | .vmax a b f r x => packE 0x27 a b 0x0#5 (f ++ r ++ x)
  | .vabs a f r x => packE 0x28 a 0x0#5 0x0#5 (f ++ r ++ x)
  | .vneg a f r x => packE 0x29 a 0x0#5 0x0#5 (f ++ r ++ x)
  | .vcmp a b f r x => packE 0x2a a b 0x0#5 (f ++ r ++ x)
  | .vsel a b c f r x => packE 0x2b a b c (f ++ r ++ x)
  | .vcvt a f r x => packE 0x2c a 0x0#5 0x0#5 (f ++ r ++ x)
  | .vred a f r x => packE 0x2d a 0x0#5 0x0#5 (f ++ r ++ x)
  | .vand a b f r x => packE 0x2e a b 0x0#5 (f ++ r ++ x)
  | .vor a b f r x => packE 0x2f a b 0x0#5 (f ++ r ++ x)
  | .vxor a b f r x => packE 0x30 a b 0x0#5 (f ++ r ++ x)
  | .vshl a b f r x => packE 0x31 a b 0x0#5 (f ++ r ++ x)
  | .vshr a b f r x => packE 0x32 a b 0x0#5 (f ++ r ++ x)
  | .vmac a b f r x => packE 0x33 a b 0x0#5 (f ++ r ++ x)
  | .vperm a b f r x => packE 0x34 a b 0x0#5 (f ++ r ++ x)
  | .vsat a f r x => packE 0x35 a 0x0#5 0x0#5 (f ++ r ++ x)
  | .mma a b c f x => packE 0x40 a b c (f ++ 0x0#2 ++ x)
  | .mmas a b c f x => packE 0x41 a b c (f ++ 0x0#2 ++ x)
  | .mmac c f x => packE 0x42 0x0#5 0x0#5 c (f ++ 0x0#2 ++ x)
  | .mldb a f x => packE 0x43 a 0x0#5 0x0#5 (f ++ 0x0#2 ++ x)
  | .mzero a f x => packE 0x44 a 0x0#5 0x0#5 (f ++ 0x0#2 ++ x)
  | .mrd a f r x => packE 0x45 a 0x0#5 0x0#5 (f ++ r ++ x)
  | .mcx a f x => packE 0x46 a 0x0#5 0x0#5 (f ++ 0x0#2 ++ x)
  | .mspm a b c f x => packE 0x47 a b c (f ++ 0x0#2 ++ x)
  | .cvdn a f s => packE 0x50 a 0x0#5 0x0#5 (f ++ 0x0#5 ++ s)
  | .cvup a f r => packE 0x51 a 0x0#5 0x0#5 (f ++ r ++ 0x0#4)
  | .sjoin a b f => packE 0x52 a b 0x0#5 (f ++ 0x0#6)
  | .mld a w s x => packE 0x60 a 0x0#5 0x0#5 (w ++ s ++ x)
  | .mst a b w s x => packE 0x61 a b 0x0#5 (w ++ s ++ x)
  | .mldt a s => packE 0x62 a 0x0#5 0x0#5 (0x0#3 ++ s ++ 0x0#3)
  | .mstt a b s => packE 0x63 a b 0x0#5 (0x0#3 ++ s ++ 0x0#3)
  | .mamo a b c w s x => packE 0x64 a b c (w ++ s ++ 0x0#2 ++ x)
  | .mldf a w s x => packE 0x65 a 0x0#5 0x0#5 (w ++ s ++ 0x0#2 ++ x)
  | .mste a b w s x => packE 0x66 a b 0x0#5 (w ++ s ++ 0x0#2 ++ x)
  | .aga => packE 0x68 0x0#5 0x0#5 0x0#5 0x0#9
  | .agx a => packE 0x69 a 0x0#5 0x0#5 0x0#9
  | .agh => packE 0x6a 0x0#5 0x0#5 0x0#5 0x0#9
  | .xlate a k f => packE 0x70 a 0x0#5 0x0#5 (0x0#6 ++ k ++ f)
  | .sieve a f t n => packE 0x72 a 0x0#5 0x0#5 (f ++ 0x0#2 ++ t ++ n)
  | .unsieve a f t n => packE 0x73 a 0x0#5 0x0#5 (f ++ 0x0#2 ++ t ++ n)
  | .gateCtok a b => packE 0x78 a b 0x0#5 0x0#9
  | .gateCounter a => packE 0x78 a 0x0#5 0x0#5 0x1#9
  | .carry a b c => packE 0x79 a b c 0x0#9
  | .steer a b s => packE 0x7a a b 0x0#5 (0x0#8 ++ s)
  | .merge a b c => packE 0x7b a b c 0x0#9
  | .dup a => packE 0x7c a 0x0#5 0x0#5 0x0#9
  | .eosgen a g => packE 0x7d a 0x0#5 0x0#5 (0x0#8 ++ g)
  | .sink a e => packE 0x7f a 0x0#5 0x0#5 (0x0#8 ++ e)
  | .emitTok => packE 0x80 0x0#5 0x0#5 0x0#5 0x0#9
  | .emitIota => packE 0x80 0x0#5 0x0#5 0x0#5 0x1#9
  | .emitIng => packE 0x80 0x0#5 0x0#5 0x0#5 0x2#9
  | .tagopSet a => packE 0x81 a 0x0#5 0x0#5 0x0#9
  | .tagopCtok a => packE 0x81 a 0x0#5 0x0#5 0x1#9
  | .tagopClear a => packE 0x81 a 0x0#5 0x0#5 0x2#9
  | .routePass _ _ _ => 0#32
  | .routeHold _ _ _ => 0#32
  | .routeFanout _ _ _ => 0#32
  | .routeSeam _ _ _ => 0#32
  | .boundaryTrap _ => 0#32
  | .waitTimeout _ => 0#32
  | .scrub _ => 0#32
  | .sleepuWake _ => 0#32
  | .watchFire _ _ => 0#32
  | .copyComplete _ => 0#32
  | .sendrMerge _ => 0#32
  | .pendingTakeover _ _ => 0#32
  | .segmentLoad _ => 0#32
  | .launchStart _ => 0#32
  | .unitRetire _ => 0#32
  | .eosStep _ _ => 0#32
  | .roundStep _ _ => 0#32
  | .roundCommit _ _ => 0#32
  | .kill => 0#32
  | .creditReturn _ => 0#32
  | .faultRecordWrite _ => 0#32
  | .oredMerge _ => 0#32
  | .redEvent _ => 0#32
  | .gatherStep _ => 0#32
  | .attestReport _ => 0#32
  | .pageWalk _ _ _ _ => 0#32
  | .launchComplete _ => 0#32
  | .phaseComplete _ _ => 0#32
  | .loaderDescriptor _ => 0#32
  | .poolPlace _ => 0#32
  | .compact _ _ => 0#32
  | .victimPreempt _ => 0#32
  | .parentYield _ => 0#32
  | .packetArbitrate _ => 0#32
  | .watchdogSnapshot _ => 0#32
  | .watchdogCancel _ => 0#32
  | .rcResume _ => 0#32
  | .rcCancel _ => 0#32
  | .rcSnapshot _ => 0#32
  | .rcselWrite _ _ => 0#32
  | .rcUnitFrameWrite _ _ _ => 0#32
  | .rcEsrWrite _ _ => 0#32
  | .rcCvsrWrite _ _ => 0#32
  | .registerWrite _ _ _ => 0#32
  | .elementSave _ _ => 0#32
  | .snapshotClose _ => 0#32
  | .restore _ => 0#32
  | .savedTokenInject _ => 0#32
  | .turnStart _ => 0#32
  | .turnDrained _ => 0#32
  | .turnComplete _ => 0#32
  | .ingressSlotWrite _ _ _ _ => 0#32
  | .ingressEosWrite _ _ _ => 0#32
  | .hostWindowAccess _ _ _ _ _ => 0#32
  | .hostAtomic _ _ _ _ _ => 0#32
  | .hostBadOffset _ _ => 0#32
  | .hwjobWrite _ _ => 0#32
  | .hwbaseWrite _ _ => 0#32
  | .mgRelease _ => 0#32
  | .mgPolicy _ => 0#32
  | .mgFrame _ => 0#32
  | .mgStandby _ => 0#32
  | .mgWake _ => 0#32
  | .wakeComplete => 0#32
  | .mgPair _ => 0#32
  | .mgKey _ => 0#32
  | .mgLog _ => 0#32
  | .mgDebug _ _ => 0#32
  | .thcfgWrite _ _ => 0#32
  | .monitorSample _ => 0#32
  | .thermalStepUp => 0#32
  | .packageReset => 0#32
  | .idleGate _ => 0#32
  | .illegalCWord _ => 0#32
  | .fetchFault => 0#32
  | .uncorrectableError _ => 0#32
  | .rccmdUnassigned _ _ => 0#32
  | .mgcmdUnassigned _ _ => 0#32

/-- The S-word of a route (R32); 0 for anything else. -/
def encodeS (i : Instr) : BitVec 16 :=
  match i with
  | .routePass o i c => packS o i 0x0#3 c 0x0#3
  | .routeHold o i c => packS o i 0x1#3 c 0x0#3
  | .routeFanout o i c => packS o i 0x2#3 c 0x0#3
  | .routeSeam o i c => packS o i 0x3#3 c 0x0#3
  | _ => 0#16

/-! ## Operand specifiers (R19, R20) -/

/-- What a 7-bit operand specifier names (R19). -/
inductive Reg where
  | g (n : BitVec 6) | k (n : BitVec 3) | l (n : BitVec 2) | p (n : BitVec 3) | th (n : BitVec 4)
deriving DecidableEq, Repr

/-- The register of an operand specifier, or none for a reserved code (R19). -/
def decodeReg (c : BitVec 7) : Option Reg :=
  if c.toNat < 0x40 then some (.g (c.setWidth 6))
  else if c.toNat < 0x48 then some (.k (c.setWidth 3))
  else if c.toNat < 0x4C then some (.l (c.setWidth 2))
  else if c.toNat < 0x50 then none
  else if c.toNat < 0x58 then some (.p (c.setWidth 3))
  else if c.toNat < 0x60 then none
  else if c.toNat < 0x70 then some (.th (c.setWidth 4))
  else none

/-- The five kinds of an operand field (R20). -/
inductive OperandKind where
  | valueSrc | valueDst | predSrc | predDst | handle
deriving DecidableEq, Repr

/-- Whether a kind accepts a specifier (R20). -/
def OperandKind.accepts (k : OperandKind) (c : BitVec 7) : Bool :=
  match k, decodeReg c with
  | .valueSrc, some (.g _) => true
  | .valueSrc, some (.k _) => true
  | .valueSrc, some (.l _) => true
  | .valueDst, some (.g _) => true
  | .valueDst, some (.k _) => true
  | .predSrc, some (.p _) => true
  | .predDst, some (.p _) => true
  | .handle, some (.th _) => true
  | _, _ => false

/-- The operand fields of a C-word with their kinds, as each instruction's description names them (R58 to R90, R94 to
R123, R271, R278, R332 to R350, R380, R404).  E-words, S-words and events have none. -/
def operandsOf (i : Instr) : List (OperandKind × BitVec 7) :=
  match i with
  | .add d a b => [(.valueDst, d), (.valueSrc, a), (.valueSrc, b)]
  | .sub d a b => [(.valueDst, d), (.valueSrc, a), (.valueSrc, b)]
  | .mul d a b => [(.valueDst, d), (.valueSrc, a), (.valueSrc, b)]
  | .mulh d a b => [(.valueDst, d), (.valueSrc, a), (.valueSrc, b)]
  | .mulhn d a b => [(.valueDst, d), (.valueSrc, a), (.valueSrc, b)]
  | .div d a b => [(.valueDst, d), (.valueSrc, a), (.valueSrc, b)]
  | .divn d a b => [(.valueDst, d), (.valueSrc, a), (.valueSrc, b)]
  | .rem d a b => [(.valueDst, d), (.valueSrc, a), (.valueSrc, b)]
  | .remn d a b => [(.valueDst, d), (.valueSrc, a), (.valueSrc, b)]
  | .and d a b => [(.valueDst, d), (.valueSrc, a), (.valueSrc, b)]
  | .or d a b => [(.valueDst, d), (.valueSrc, a), (.valueSrc, b)]
  | .xor d a b => [(.valueDst, d), (.valueSrc, a), (.valueSrc, b)]
  | .andn d a b => [(.valueDst, d), (.valueSrc, a), (.valueSrc, b)]
  | .shl d a b => [(.valueDst, d), (.valueSrc, a), (.valueSrc, b)]
  | .shr d a b => [(.valueDst, d), (.valueSrc, a), (.valueSrc, b)]
  | .sar d a b => [(.valueDst, d), (.valueSrc, a), (.valueSrc, b)]
  | .rotl d a b => [(.valueDst, d), (.valueSrc, a), (.valueSrc, b)]
  | .min d a b => [(.valueDst, d), (.valueSrc, a), (.valueSrc, b)]
  | .max d a b => [(.valueDst, d), (.valueSrc, a), (.valueSrc, b)]
  | .minn d a b => [(.valueDst, d), (.valueSrc, a), (.valueSrc, b)]
  | .maxn d a b => [(.valueDst, d), (.valueSrc, a), (.valueSrc, b)]
  | .clz d a => [(.valueDst, d), (.valueSrc, a)]
  | .ctz d a => [(.valueDst, d), (.valueSrc, a)]
  | .popc d a => [(.valueDst, d), (.valueSrc, a)]
  | .sext d a b => [(.valueDst, d), (.valueSrc, a), (.valueSrc, b)]
  | .zext d a b => [(.valueDst, d), (.valueSrc, a), (.valueSrc, b)]
  | .movx d a => [(.valueDst, d), (.valueSrc, a)]
  | .addi d a _ => [(.valueDst, d), (.valueSrc, a)]
  | .andi d a _ => [(.valueDst, d), (.valueSrc, a)]
  | .ori d a _ => [(.valueDst, d), (.valueSrc, a)]
  | .xori d a _ => [(.valueDst, d), (.valueSrc, a)]
  | .shli d a _ => [(.valueDst, d), (.valueSrc, a)]
  | .shri d a _ => [(.valueDst, d), (.valueSrc, a)]
  | .sari d a _ => [(.valueDst, d), (.valueSrc, a)]
  | .muli d a _ => [(.valueDst, d), (.valueSrc, a)]
  | .li d _ => [(.valueDst, d)]
  | .lpc d _ => [(.valueDst, d)]
  | .loop d _ => [(.valueDst, d)]
  | .cmpeq d a b => [(.predDst, d), (.valueSrc, a), (.valueSrc, b)]
  | .cmpne d a b => [(.predDst, d), (.valueSrc, a), (.valueSrc, b)]
  | .cmplt d a b => [(.predDst, d), (.valueSrc, a), (.valueSrc, b)]
  | .cmple d a b => [(.predDst, d), (.valueSrc, a), (.valueSrc, b)]
  | .cmpltn d a b => [(.predDst, d), (.valueSrc, a), (.valueSrc, b)]
  | .cmplen d a b => [(.predDst, d), (.valueSrc, a), (.valueSrc, b)]
  | .cmptst d a b => [(.predDst, d), (.valueSrc, a), (.valueSrc, b)]
  | .cmpeqi d a _ => [(.predDst, d), (.valueSrc, a)]
  | .cmplti d a _ => [(.predDst, d), (.valueSrc, a)]
  | .cmpltni d a _ => [(.predDst, d), (.valueSrc, a)]
  | .pand d a b => [(.predDst, d), (.predSrc, a), (.predSrc, b)]
  | .por d a b => [(.predDst, d), (.predSrc, a), (.predSrc, b)]
  | .pxor d a b => [(.predDst, d), (.predSrc, a), (.predSrc, b)]
  | .pandn d a b => [(.predDst, d), (.predSrc, a), (.predSrc, b)]
  | .pnot d a => [(.predDst, d), (.predSrc, a)]
  | .pmov d a => [(.predDst, d), (.predSrc, a)]
  | .pset d a => [(.predDst, d), (.valueSrc, a)]
  | .sel d a b _ => [(.valueDst, d), (.valueSrc, a), (.valueSrc, b)]
  | .jr a => [(.valueSrc, a)]
  | .jalr d a => [(.valueDst, d), (.valueSrc, a)]
  | .bz a _ _ => [(.valueSrc, a)]
  | .bnz a _ _ => [(.valueSrc, a)]
  | .fadd d a b => [(.valueDst, d), (.valueSrc, a), (.valueSrc, b)]
  | .fsub d a b => [(.valueDst, d), (.valueSrc, a), (.valueSrc, b)]
  | .fmul d a b => [(.valueDst, d), (.valueSrc, a), (.valueSrc, b)]
  | .fdiv d a b => [(.valueDst, d), (.valueSrc, a), (.valueSrc, b)]
  | .fsqrt d a => [(.valueDst, d), (.valueSrc, a)]
  | .fmin d a b => [(.valueDst, d), (.valueSrc, a), (.valueSrc, b)]
  | .fmax d a b => [(.valueDst, d), (.valueSrc, a), (.valueSrc, b)]
  | .fabs d a => [(.valueDst, d), (.valueSrc, a)]
  | .fneg d a => [(.valueDst, d), (.valueSrc, a)]
  | .fcmpeq d a b => [(.predDst, d), (.valueSrc, a), (.valueSrc, b)]
  | .fcmplt d a b => [(.predDst, d), (.valueSrc, a), (.valueSrc, b)]
  | .fcmple d a b => [(.predDst, d), (.valueSrc, a), (.valueSrc, b)]
  | .fcvtif d a => [(.valueDst, d), (.valueSrc, a)]
  | .fcvtfi d a => [(.valueDst, d), (.valueSrc, a)]
  | .fcvtsd d a => [(.valueDst, d), (.valueSrc, a)]
  | .fcvtds d a => [(.valueDst, d), (.valueSrc, a)]
  | .fclass d a => [(.valueDst, d), (.valueSrc, a)]
  | .ffma d a b => [(.valueDst, d), (.valueSrc, a), (.valueSrc, b)]
  | .ffms d a b => [(.valueDst, d), (.valueSrc, a), (.valueSrc, b)]
  | .ldb t a _ _ => [(.valueDst, t), (.valueSrc, a)]
  | .ldh t a _ _ => [(.valueDst, t), (.valueSrc, a)]
  | .ldw t a _ _ => [(.valueDst, t), (.valueSrc, a)]
  | .ldd t a _ _ => [(.valueDst, t), (.valueSrc, a)]
  | .ldbz t a _ _ => [(.valueDst, t), (.valueSrc, a)]
  | .ldhz t a _ _ => [(.valueDst, t), (.valueSrc, a)]
  | .ldwz t a _ _ => [(.valueDst, t), (.valueSrc, a)]
  | .lddZ t a _ _ => [(.valueDst, t), (.valueSrc, a)]
  | .stb t a _ _ => [(.valueSrc, t), (.valueSrc, a)]
  | .sth t a _ _ => [(.valueSrc, t), (.valueSrc, a)]
  | .stw t a _ _ => [(.valueSrc, t), (.valueSrc, a)]
  | .std t a _ _ => [(.valueSrc, t), (.valueSrc, a)]
  | .ldx d a b => [(.valueDst, d), (.valueSrc, a), (.valueSrc, b)]
  | .stx d a b => [(.valueSrc, d), (.valueSrc, a), (.valueSrc, b)]
  | .ldf d a => [(.valueDst, d), (.valueSrc, a)]
  | .ldfe d a => [(.valueDst, d), (.valueSrc, a)]
  | .ste a b => [(.valueSrc, a), (.valueSrc, b)]
  | .stf a b => [(.valueSrc, a), (.valueSrc, b)]
  | .feset a => [(.valueSrc, a)]
  | .feclr a => [(.valueSrc, a)]
  | .feq d a => [(.predDst, d), (.valueSrc, a)]
  | .ldfeNb d a => [(.valueDst, d), (.valueSrc, a)]
  | .steNb a b => [(.valueSrc, a), (.valueSrc, b)]
  | .amoadd d a b => [(.valueDst, d), (.valueSrc, a), (.valueSrc, b)]
  | .amoand d a b => [(.valueDst, d), (.valueSrc, a), (.valueSrc, b)]
  | .amoor d a b => [(.valueDst, d), (.valueSrc, a), (.valueSrc, b)]
  | .amoxor d a b => [(.valueDst, d), (.valueSrc, a), (.valueSrc, b)]
  | .amomin d a b => [(.valueDst, d), (.valueSrc, a), (.valueSrc, b)]
  | .amomax d a b => [(.valueDst, d), (.valueSrc, a), (.valueSrc, b)]
  | .amominn d a b => [(.valueDst, d), (.valueSrc, a), (.valueSrc, b)]
  | .amomaxn d a b => [(.valueDst, d), (.valueSrc, a), (.valueSrc, b)]
  | .amoswp d a b => [(.valueDst, d), (.valueSrc, a), (.valueSrc, b)]
  | .amocas d a b => [(.valueDst, d), (.valueSrc, a), (.valueSrc, b)]
  | .redadd a b => [(.valueSrc, a), (.valueSrc, b)]
  | .redand a b => [(.valueSrc, a), (.valueSrc, b)]
  | .redor a b => [(.valueSrc, a), (.valueSrc, b)]
  | .redxor a b => [(.valueSrc, a), (.valueSrc, b)]
  | .redmin a b => [(.valueSrc, a), (.valueSrc, b)]
  | .redmax a b => [(.valueSrc, a), (.valueSrc, b)]
  | .oredFadd c a b => [(.valueSrc, c), (.valueSrc, a), (.valueSrc, b)]
  | .oredFadds c a b => [(.valueSrc, c), (.valueSrc, a), (.valueSrc, b)]
  | .oredAdd c a b => [(.valueSrc, c), (.valueSrc, a), (.valueSrc, b)]
  | .oredFmax c a b => [(.valueSrc, c), (.valueSrc, a), (.valueSrc, b)]
  | .oredFmin c a b => [(.valueSrc, c), (.valueSrc, a), (.valueSrc, b)]
  | .sleepu a => [(.valueSrc, a)]
  | .rdtb a => [(.valueDst, a)]
  | .strmGo a _ _ => [(.valueSrc, a)]
  | .strmArg a _ _ => [(.valueSrc, a)]
  | .cfgld a => [(.valueSrc, a)]
  | .cfgq a => [(.valueDst, a)]
  | .strmTok a b _ => [(.valueSrc, a), (.valueSrc, b)]
  | .send d a b => [(.valueDst, d), (.valueSrc, a), (.valueSrc, b)]
  | .sendr d a b => [(.valueDst, d), (.valueSrc, a), (.valueSrc, b)]
  | .ctradd a b => [(.valueSrc, a), (.valueSrc, b)]
  | .ctrwait a b => [(.valueSrc, a), (.valueSrc, b)]
  | .ctrrd a b => [(.valueDst, a), (.valueSrc, b)]
  | .ctrwaitNb a b => [(.valueSrc, a), (.valueSrc, b)]
  | .ctrwatch a b _ => [(.valueSrc, a), (.valueSrc, b)]
  | .thld h b => [(.handle, h), (.valueSrc, b)]
  | .thst h b => [(.handle, h), (.valueSrc, b)]
  | .thset h b _ => [(.handle, h), (.valueSrc, b)]
  | .thget a h _ => [(.valueDst, a), (.handle, h)]
  | .thchk h => [(.handle, h)]
  | .barinit a b => [(.valueSrc, a), (.valueSrc, b)]
  | .bararr a b => [(.valueDst, a), (.valueSrc, b)]
  | .barwait a b => [(.valueSrc, a), (.valueSrc, b)]
  | .barsync a b => [(.valueDst, a), (.valueSrc, b)]
  | .barrd a b _ => [(.valueDst, a), (.valueSrc, b)]
  | .barcfg a b => [(.valueSrc, a), (.valueSrc, b)]
  | .barleave a => [(.valueSrc, a)]
  | .ctxdef a _ => [(.valueSrc, a)]
  | .ctxrd a b _ => [(.valueDst, a), (.valueSrc, b)]
  | .ctxwt a b _ => [(.valueSrc, a), (.valueSrc, b)]
  | .rqry a => [(.valueDst, a)]
  | .enq a b => [(.valueSrc, a), (.valueSrc, b)]
  | .enqNb a b => [(.valueSrc, a), (.valueSrc, b)]
  | .deq a b => [(.valueSrc, a), (.valueSrc, b)]
  | .deqNb a b => [(.valueSrc, a), (.valueSrc, b)]
  | .qsteal a b => [(.valueSrc, a), (.valueSrc, b)]
  | .qinit a b => [(.valueSrc, a), (.valueSrc, b)]
  | .qstat d a => [(.valueDst, d), (.valueSrc, a)]
  | .qpoison a => [(.valueSrc, a)]
  | .qdrain d a b => [(.valueDst, d), (.valueSrc, a), (.valueSrc, b)]
  | .enqv a b => [(.valueSrc, a), (.valueSrc, b)]
  | .deqv d a => [(.valueDst, d), (.valueSrc, a)]
  | .gath a b _ _ _ => [(.valueSrc, a), (.valueSrc, b)]
  | .scat a b _ _ _ => [(.valueSrc, a), (.valueSrc, b)]
  | .launch d a => [(.valueDst, d), (.valueSrc, a)]
  | .launchW d a => [(.valueDst, d), (.valueSrc, a)]
  | .cancel a b => [(.valueSrc, a), (.valueSrc, b)]
  | .graphnew a b => [(.valueSrc, a), (.valueSrc, b)]
  | .jobdl a b => [(.valueSrc, a), (.valueSrc, b)]
  | .lturn a b _ _ => [(.valueDst, a), (.valueSrc, b)]
  | .lqry a b s _ => if s = 1#1 then [(.valueDst, a), (.valueSrc, b)] else [(.valueDst, a)]
  | .lfloor a b _ => [(.valueDst, a), (.valueSrc, b)]
  | .mcst a b _ => [(.valueSrc, a), (.valueSrc, b)]
  | .epbind a _ => [(.valueSrc, a)]
  | .preempt a b => [(.valueDst, a), (.valueSrc, b)]
  | .resume a b => [(.valueDst, a), (.valueSrc, b)]
  | .snapq a b => [(.valueDst, a), (.valueSrc, b)]
  | .tlbinv a b => [(.valueSrc, a), (.valueSrc, b)]
  | .tlbinva a m => if m = 0#1 then [(.valueSrc, a)] else []
  | .wcinv a => [(.valueSrc, a)]
  | .xlprobe a b => [(.valueDst, a), (.valueSrc, b)]
  | .csrr d _ => [(.valueDst, d)]
  | .csrw d a _ => [(.valueDst, d), (.valueSrc, a)]
  | .csrs d a _ => [(.valueDst, d), (.valueSrc, a)]
  | .csrc d a _ => [(.valueDst, d), (.valueSrc, a)]
  | .attest a b => [(.valueSrc, a), (.valueSrc, b)]
  | .freeze a => [(.valueSrc, a)]
  | _ => []

/-- Whether every operand field holds a specifier of its kind; otherwise cause 0x02 (R20). -/
def operandsOk (i : Instr) : Bool := (operandsOf i).all fun o => o.1.accepts o.2

/-- Whether the fields that a description limits hold values in their range; otherwise cause 0x01 (R18, R106, R120,
R123, R277, R278, R281, R349, R380).  `bp` never has p = 0, because those words are B (R17). -/
def fieldsOk (i : Instr) : Bool :=
  match i with
  | .ldb _ _ c _ => decide (c.toNat ≤ 4)
  | .ldh _ _ c _ => decide (c.toNat ≤ 4)
  | .ldw _ _ c _ => decide (c.toNat ≤ 4)
  | .ldd _ _ c _ => decide (c.toNat ≤ 4)
  | .ldbz _ _ c _ => decide (c.toNat ≤ 4)
  | .ldhz _ _ c _ => decide (c.toNat ≤ 4)
  | .ldwz _ _ c _ => decide (c.toNat ≤ 4)
  | .lddZ _ _ c _ => decide (c.toNat ≤ 4)
  | .stb _ _ c _ => decide (c.toNat ≤ 4)
  | .sth _ _ c _ => decide (c.toNat ≤ 4)
  | .stw _ _ c _ => decide (c.toNat ≤ 4)
  | .std _ _ c _ => decide (c.toNat ≤ 4)
  | .bp p _ => decide (p ≠ 0#3)
  | .strmGo _ _ e => decide (e.toNat < 24)
  | .strmArg _ _ e => decide (e.toNat < 24)
  | .strmTok _ _ e => decide (e.toNat < 24)
  | .drain r => decide (r.toNat ≤ 3)
  | .ctrwatch _ _ n => decide (1 ≤ n.toNat) && decide (n.toNat ≤ 7)
  | .thset _ _ w => decide (w.toNat ≤ 15)
  | .thget _ _ w => decide (w.toNat ≤ 15)
  | .barrd _ _ s => decide (s.toNat ≤ 7)
  | .ctxdef _ n => decide (n.toNat ≤ 7)
  | .ctxrd _ _ n => decide (n.toNat ≤ 7)
  | .ctxwt _ _ n => decide (n.toNat ≤ 7)
  | .rclose v => decide (v.toNat ≤ 1)
  | .lqry _ b s _ => decide (s = 1#1) || decide (b = 0#7)
  | .scat _ b s _ _ => decide (s = 0#1) || decide (b = 0#7)
  | .mcst _ _ m => decide (m ≠ 0#4)
  | .tlbinva a m => decide (m = 0#1) || decide (a = 0#7)
  | _ => true

/-- The class of a CSR number (R24). -/
inductive CsrClass where
  | system | readOnly | user | unassigned
deriving DecidableEq, Repr

/-- The class of each CSR number (R24). -/
def csrClass (c : BitVec 12) : CsrClass :=
  match c.toNat with
  | 0x000 => .system | 0x001 => .system | 0x002 => .system | 0x003 => .system
  | 0x004 => .system | 0x005 => .system | 0x006 => .system | 0x007 => .user
  | 0x008 => .readOnly | 0x009 => .readOnly | 0x00A => .readOnly | 0x00B => .readOnly
  | 0x00C => .user | 0x00D => .system | 0x00E => .system
  | _ => .unassigned

/-- The privileged C-words (R23): cause 0x03 in user mode. -/
def privileged (i : Instr) : Bool :=
  match i with
  | .tlbinv _ _ => true | .tlbinva _ _ => true | .wcinv _ => true | .xlprobe _ _ => true
  | .lfloor _ _ _ => true | .epbind _ _ => true | .epunb _ => true
  | .qdrain _ _ _ => true | .jobdl _ _ => true
  | .eret => true | .attest _ _ => true | .freeze _ => true
  | .csrw _ _ c => decide (csrClass c = .system)
  | .csrs _ _ c => decide (csrClass c = .system)
  | .csrc _ _ c => decide (csrClass c = .system)
  | _ => false

/-! ## Legality of E-words (R26 to R31), read from the word itself -/

/-- The eop of an E-word, as a number. -/
@[inline] def eopOf (w : BitVec 32) : Nat := (fEop w).toNat
/-- Field fmt of mode (R27). -/
@[inline] def mFmt (w : BitVec 32) : Nat := (w.extractLsb' 6 3).toNat
/-- Field rnd of mode (R27). -/
@[inline] def mRnd (w : BitVec 32) : BitVec 2 := w.extractLsb' 4 2
/-- Field flags of mode (R27, R28). -/
@[inline] def mFlags (w : BitVec 32) : BitVec 4 := w.extractLsb' 0 4
/-- Field prec of mode (R28). -/
@[inline] def mPrec (w : BitVec 32) : Nat := (w.extractLsb' 4 5).toNat

/-- Whether the element operation of eop reads ports A, B and C whatever its arguments (R176, R207, R222). -/
def ePortsRead (w : BitVec 32) : Bool × Bool × Bool :=
  let one := (true, false, false)
  let two := (true, true, false)
  let all := (true, true, true)
  match eopOf w with
  | 0x01 => two | 0x02 => two | 0x03 => two | 0x04 => all | 0x05 => two
  | 0x0C => two | 0x0D => two
  | 0x20 => two | 0x21 => two | 0x22 => two | 0x23 => all | 0x24 => two | 0x26 => two | 0x27 => two
  | 0x2A => two | 0x2B => all | 0x2E => two | 0x2F => two | 0x30 => two | 0x31 => two | 0x32 => two
  | 0x33 => two | 0x34 => two
  | 0x40 => if mFmt w = 4 ∨ mFmt w = 5 ∨ mFmt w = 6 then two else one
  | 0x41 => all | 0x42 => (false, false, false) | 0x47 => all
  | 0x52 => two
  | 0x61 => two | 0x63 => two | 0x64 => two | 0x66 => two
  | 0x68 => (false, false, false) | 0x6A => (false, false, false)
  | 0x78 => if w.extractLsb' 0 1 = 1#1 then one else two
  | 0x79 => all | 0x7A => two | 0x7B => all
  | 0x80 => (false, false, false)
  | _ => one

/-- The ports that an element always reads, in the order A, B, C: the port fields. DEDUCED (log entry 18). -/
def ePorts (w : BitVec 32) : List (BitVec 5) :=
  let r := ePortsRead w
  (if r.1 then [fEa w] else []) ++ (if r.2.1 then [fEb w] else []) ++ (if r.2.2 then [fEc w] else [])

/-- The port that is read or not by an argument: port C of MMA, MMAC and MAMO (R422). -/
def eOptPort (w : BitVec 32) : Option (BitVec 5) :=
  match eopOf w with
  | 0x40 => some (fEc w) | 0x42 => some (fEc w) | 0x64 => some (fEc w)
  | _ => none

/-- The inputs that an element names in its E-word (R157, R422). -/
def eInputs (w : BitVec 32) : List Nat :=
  (ePorts w ++ (eOptPort w).toList).map fun p => (p.extractLsb' 3 2).toNat

/-- Two read ports that name one input carry equal sticky counts (R26). -/
def portsAgree (ps : List (BitVec 5)) : Bool :=
  ps.all fun a => ps.all fun b => decide (a.extractLsb' 3 2 ≠ b.extractLsb' 3 2 ∨ a = b)

/-- The bits of an E-word that its operation does not use, by eop (R12, R26, R29): they must be zero.  None for a
reserved eop (R30). -/
def eUnused (eop : Nat) : Option (BitVec 32) :=
  match eop with
  | 0x01 => some 0x00003e0f#32
  | 0x02 => some 0x00003e0f#32
  | 0x03 => some 0x00003e0f#32
  | 0x04 => some 0x0000000f#32
  | 0x05 => some 0x00003e0f#32
  | 0x06 => some 0x0007fe0f#32
  | 0x07 => some 0x0007fe0f#32
  | 0x08 => some 0x0007fe0f#32
  | 0x09 => some 0x0007fe0f#32
  | 0x0a => some 0x0007fe0f#32
  | 0x0b => some 0x0007fe0f#32
  | 0x0c => some 0x00003e0e#32
  | 0x0d => some 0x00003e0e#32
  | 0x0e => some 0x0007fe0e#32
  | 0x0f => some 0x0007fe0e#32
  | 0x10 => some 0x0007fe0c#32
  | 0x11 => some 0x0007fe00#32
  | 0x12 => some 0x0007fe0f#32
  | 0x20 => some 0x00003e00#32
  | 0x21 => some 0x00003e00#32
  | 0x22 => some 0x00003e00#32
  | 0x23 => some 0x00000000#32
  | 0x24 => some 0x00003e00#32
  | 0x25 => some 0x0007fe00#32
  | 0x26 => some 0x00003e00#32
  | 0x27 => some 0x00003e00#32
  | 0x28 => some 0x0007fe00#32
  | 0x29 => some 0x0007fe00#32
  | 0x2a => some 0x00003e00#32
  | 0x2b => some 0x00000000#32
  | 0x2c => some 0x0007fe00#32
  | 0x2d => some 0x0007fe00#32
  | 0x2e => some 0x00003e00#32
  | 0x2f => some 0x00003e00#32
  | 0x30 => some 0x00003e00#32
  | 0x31 => some 0x00003e00#32
  | 0x32 => some 0x00003e00#32
  | 0x33 => some 0x00003e00#32
  | 0x34 => some 0x00003e00#32
  | 0x35 => some 0x0007fe00#32
  | 0x40 => some 0x00000030#32
  | 0x41 => some 0x00000030#32
  | 0x42 => some 0x00ffc030#32
  | 0x43 => some 0x0007fe30#32
  | 0x44 => some 0x0007fe30#32
  | 0x45 => some 0x0007fe00#32
  | 0x46 => some 0x0007fe30#32
  | 0x47 => some 0x00000030#32
  | 0x50 => some 0x0007fe3e#32
  | 0x51 => some 0x0007fe0f#32
  | 0x52 => some 0x00003e3f#32
  | 0x60 => some 0x0007fe00#32
  | 0x61 => some 0x00003e00#32
  | 0x62 => some 0x0007ffc7#32
  | 0x63 => some 0x00003fc7#32
  | 0x64 => some 0x00000006#32
  | 0x65 => some 0x0007fe06#32
  | 0x66 => some 0x00003e06#32
  | 0x68 => some 0x00ffffff#32
  | 0x69 => some 0x0007ffff#32
  | 0x6a => some 0x00ffffff#32
  | 0x70 => some 0x0007fff8#32
  | 0x72 => some 0x0007fe30#32
  | 0x73 => some 0x0007fe30#32
  | 0x78 => some 0x00003ffe#32
  | 0x79 => some 0x000001ff#32
  | 0x7a => some 0x00003ffe#32
  | 0x7b => some 0x000001ff#32
  | 0x7c => some 0x0007ffff#32
  | 0x7d => some 0x0007fffe#32
  | 0x7f => some 0x0007fffe#32
  | 0x80 => some 0x00fffffc#32
  | 0x81 => some 0x0007fffc#32
  | _ => none

/-- The rules of R27 on an integer fmt: width code 11 is reserved, and fmt 110 takes flags<3> alone. -/
def intTypeOk (f : Nat) (x : BitVec 4) : Bool :=
  if f = 7 then decide (x.extractLsb' 1 2 ≠ 3#2)
  else if f = 6 then decide (x.extractLsb' 1 2 = 0#2) else true

/-- Mode legality in the layout of R27: the fmt is among `fs`, rnd is zero unless the operation rounds in that fmt, and
the only flag is flags<0>, where `flag` allows it. -/
def mode27 (w : BitVec 32) (fs : List Nat) (rounds flag : Bool) : Bool :=
  let f := mFmt w
  let x := mFlags w
  intTypeOk f x && fs.contains f && (rounds || decide (mRnd w = 0#2)) &&
    (if f ≥ 6 then flag || decide (x.extractLsb' 0 1 = 0#1)
     else decide (x.extractLsb' 1 3 = 0#3) && (flag || decide (x = 0#4)))

/-- A floating vector format (R184). -/
def vuFloat : List Nat := [0, 1, 2, 3]
/-- A vector format (R184). -/
def vuAll : List Nat := [0, 1, 2, 3, 7]
/-- The formats of the array (R189). -/
def maAll : List Nat := [0, 1, 2, 3, 4, 5, 6]

/-- Mode legality of a memory operation (R206, R207): the width is among `ws` and sc is assigned. -/
def modeMem (w : BitVec 32) (ws : List Nat) : Bool :=
  ws.contains (mFmt w) && decide ((w.extractLsb' 3 3).toNat ≤ 5)

/-- The mode rules of each element operation (R27, R28, R154, R179, R184 to R203, R206, R216, R218, R222, R238).
DEDUCED (log entry 16). DEDUCED (log entry 17). DEDUCED (log entry 19). -/
def eModeOk (w : BitVec 32) : Bool :=
  let f := mFmt w
  let x := mFlags w
  let fl := decide (f ≤ 3)
  let int := decide (f = 7)
  match eopOf w with
  | 0x10 => decide (mPrec w ≤ 28) &&
      decide (mPrec w + 4 ≥ (if x.extractLsb' 0 2 = 0#2 then 25 else if x.extractLsb' 0 2 = 1#2 then 11 else 4))
  | 0x20 => mode27 w vuAll fl int | 0x21 => mode27 w vuAll fl int | 0x22 => mode27 w vuAll fl int
  | 0x23 => mode27 w vuAll fl int
  | 0x24 => mode27 w vuFloat true false | 0x25 => mode27 w vuFloat true false
  | 0x26 => mode27 w vuAll false int | 0x27 => mode27 w vuAll false int
  | 0x28 => mode27 w vuAll false int | 0x29 => mode27 w vuAll false int
  | 0x2A => mode27 w vuAll false int | 0x2B => mode27 w vuAll false int
  | 0x2C => mode27 w [0, 1, 2, 3, 4, 5, 6, 7] true true
  | 0x2D => mode27 w vuAll fl int
  | 0x2E => mode27 w vuAll false int | 0x2F => mode27 w vuAll false int | 0x30 => mode27 w vuAll false int
  | 0x31 => mode27 w [7] false true | 0x32 => mode27 w [7] false true
  | 0x33 => mode27 w vuAll fl int
  | 0x34 => mode27 w vuAll false int
  | 0x35 => mode27 w [7] false true
  | 0x40 => mode27 w maAll false false
  | 0x41 => mode27 w [4, 5] false false
  | 0x42 => mode27 w [4, 5] false false
  | 0x43 => mode27 w maAll false (decide (f = 4 ∨ f = 5))
  | 0x44 => mode27 w maAll false false
  | 0x45 => mode27 w vuAll fl false && (decide (f ≠ 7) || decide (x = 2#4))
  | 0x46 => mode27 w [1, 2, 3, 7] false false && (decide (f ≠ 7) || decide (x.extractLsb' 1 2 = 1#2))
  | 0x47 => mode27 w [4, 5, 6] false false
  | 0x50 => decide (f = 4 ∨ f = 5)
  | 0x51 => fl
  | 0x52 => decide (f = 4 ∨ f = 5)
  | 0x60 => modeMem w maAll &&
      (decide (x.extractLsb' 1 1 = 0#1) || decide (f ≥ 3)) &&
      (decide (x.extractLsb' 2 1 = 0#1) || (decide (f = 0) && decide (x.extractLsb' 1 1 = 0#1)))
  | 0x61 => modeMem w maAll && decide (x.extractLsb' 0 1 = 0#1) && decide (x.extractLsb' 2 1 = 0#1) &&
      (decide (x.extractLsb' 1 1 = 0#1) || decide (f ≥ 3))
  | 0x62 => modeMem w [0]
  | 0x63 => modeMem w [0]
  | 0x64 => modeMem w [3, 4]
  | 0x65 => modeMem w [3]
  | 0x66 => modeMem w [3]
  | 0x70 => decide (w.extractLsb' 1 2 ≠ 3#2)
  | 0x72 => mode27 w [0, 1, 2, 3, 4, 5, 6, 7] false true
  | 0x73 => mode27 w [0, 1, 2, 3, 4, 5, 6, 7] false true
  | 0x78 => decide (w.extractLsb' 0 1 = 0#1) || decide (fEb w = 0#5)
  | 0x80 => decide (w.extractLsb' 0 2 ≠ 3#2)
  | 0x81 => decide (w.extractLsb' 0 2 ≠ 3#2)
  | e => if e ≤ 0x12 then decide (mPrec w ≤ 28) else true

/-- The elements in which an eop may be placed (R30, R156). -/
def eopPlace (eop e : Nat) : Bool :=
  if eop ≤ 0x12 then decide (e < 8)
  else if eop ≤ 0x35 then decide (e = 8)
  else if eop ≤ 0x47 then decide (e = 9)
  else if eop ≤ 0x51 then decide (e = 22)
  else if eop = 0x52 then decide (e = 23)
  else if eop ≤ 0x66 then decide (10 ≤ e) && decide (e < 14)
  else if eop ≤ 0x6A then decide (e = 14 ∨ e = 15)
  else if eop = 0x70 then decide (e = 16)
  else if eop ≤ 0x73 then decide (e = 17)
  else decide (18 ≤ e) && decide (e < 22)

/-- Whether an E-word is legal in element e by itself (R26 to R31); otherwise cause 0x08. The word 0 leaves any element
idle. -/
def eWordLegal (e : Nat) (w : BitVec 32) : Bool :=
  decide (w = 0#32) ||
  match eUnused (eopOf w) with
  | none => false
  | some m => decide (w &&& m = 0#32) && eModeOk w &&
      (decide (eopOf w ≠ 0x40 ∨ f8 w) || decide (fEb w = 0#5)) &&
      portsAgree (ePorts w) && eopPlace (eopOf w) e
where
  f8 (w : BitVec 32) : Bool := decide (mFmt w = 4 ∨ mFmt w = 5 ∨ mFmt w = 6)

/-- An element's instruction, or none where R26 to R31 refuse its E-word in element e. -/
noncomputable def decodeElement (e : Nat) (w : BitVec 32) : Option Instr :=
  if eWordLegal e w then (decodeE w).toOption else none

/-- An element drives its output unless its operation is idle, SINK, MST, MSTT or MSTE (R156). -/
def eDrives (w : BitVec 32) : Bool :=
  match eopOf w with
  | 0x00 => false | 0x61 => false | 0x63 => false | 0x66 => false | 0x7F => false
  | _ => true

/-- The sinks of DRAIN (R111). -/
def eSink (w : BitVec 32) : Bool :=
  match eopOf w with
  | 0x7F => true | 0x61 => true | 0x63 => true | 0x66 => true | 0x64 => true
  | _ => false

/-- The memory-port operations, which a W-word follows (R35). -/
def ePort (w : BitVec 32) : Bool := decide (0x60 ≤ eopOf w) && decide (eopOf w ≤ 0x66)

/-- The operations that are sources (R109, R212, R227). -/
def eSource (w : BitVec 32) : Bool :=
  decide (0x68 ≤ eopOf w ∧ eopOf w ≤ 0x6A) || decide (eopOf w = 0x80)


/-! ## W-words (R34, R35) -/

/-- Field own of a W-word. -/
@[inline] def wOwn (w : BitVec 32) : Nat := (w.extractLsb' 22 10).toNat
/-- Field pred of a W-word. -/
@[inline] def wPred (w : BitVec 32) : Nat := (w.extractLsb' 12 10).toNat
/-- Field succ of a W-word. -/
@[inline] def wSucc (w : BitVec 32) : Nat := (w.extractLsb' 2 10).toNat
/-- Field start of a W-word. -/
@[inline] def wStart (w : BitVec 32) : Bool := decide (w.extractLsb' 1 1 = 1#1)
/-- Field end of a W-word. -/
@[inline] def wEnd (w : BitVec 32) : Bool := decide (w.extractLsb' 0 1 = 1#1)

/-- Whether a W-word's contents are legal (R35). -/
def wLegal (w : BitVec 32) : Bool :=
  decide (wOwn w ≠ 0x3FF) && decide (wPred w ≠ wOwn w) && decide (wSucc w ≠ wOwn w) &&
  (!wStart w || decide (wPred w = 0x3FF)) && (!wEnd w || decide (wSucc w = 0x3FF))

/-! ## The host's table words -/

/-- The instruction of a table word: 16 bits are an S-word (R32).  32 bits are a C-word where that decodes, and
otherwise an E-word: the two kinds live in different places (R11) and their encodings overlap (log entry 2). -/
noncomputable def decodeTableWord (nbits w : Nat) : Option Instr :=
  if nbits ≤ 16 then (decodeS (BitVec.ofNat 16 w)).toOption
  else match decodeC (BitVec.ofNat 32 w) with
    | .ok i => some i
    | .error _ => (decodeE (BitVec.ofNat 32 w)).toOption

end Sys2Proof
end

