-- ==== Sys2Proof/Machine/Flags.lean ====
section
/-!
DEFINITION. Number formats, exact values, rounding and the exceptions that it raises (05_number_formats.md R124 to R131,
03_unit_instructions_compute.md R74 to R82): the scalar C-words, the vector unit, the matrix array, the converter and
the reductions at memory all round here.
-/

namespace Sys2Proof.Machine

open Sys2Proof

/-! ## Exceptions, in the bit order of FPFLAGS<4:0> (R45) -/

/-- Invalid. -/
def exNV : BitVec 5 := 16#5
/-- Divide by zero. -/
def exDZ : BitVec 5 := 8#5
/-- Overflow. -/
def exOF : BitVec 5 := 4#5
/-- Underflow. -/
def exUF : BitVec 5 := 2#5
/-- Inexact. -/
def exNX : BitVec 5 := 1#5

/-! ## Formats (R125) -/

/-- A floating format: exponent and fraction widths, bias, and whether exponent all ones holds infinities and NaNs
(in E4M3 only fraction 111 is a NaN and there is no infinity). -/
structure Fmt where
  eb   : Nat
  fb   : Nat
  bias : Nat
  ieee : Bool
deriving DecidableEq, Repr

/-- binary64. -/
def binary64 : Fmt := ⟨11, 52, 1023, true⟩
/-- binary32. -/
def binary32 : Fmt := ⟨8, 23, 127, true⟩
/-- bfloat16. -/
def bfloat16 : Fmt := ⟨8, 7, 127, true⟩
/-- binary16. -/
def binary16 : Fmt := ⟨5, 10, 15, true⟩
/-- E4M3. -/
def e4m3 : Fmt := ⟨4, 3, 7, false⟩
/-- E5M2. -/
def e5m2 : Fmt := ⟨5, 2, 15, true⟩

/-- The format of a floating fmt code of R27. -/
def fmtOf (c : Nat) : Fmt :=
  match c with
  | 0 => binary64 | 1 => binary32 | 2 => bfloat16 | 3 => binary16 | 4 => e4m3 | _ => e5m2

/-- Width in bits. -/
def Fmt.width (f : Fmt) : Nat := 1 + f.eb + f.fb
/-- The sign bit's weight. -/
def Fmt.signBit (f : Fmt) : Nat := 2 ^ (f.eb + f.fb)
/-- The largest finite magnitude, as a code without sign (R125). -/
def Fmt.maxCode (f : Fmt) : Nat :=
  if f.ieee then (2 ^ f.eb - 1) * 2 ^ f.fb - 1 else 2 ^ (f.eb + f.fb) - 2
/-- The code of +infinity (R125); in E4M3 the code of the canonical NaN, which stands in its place (R129). -/
def Fmt.infCode (f : Fmt) : Nat := if f.ieee then (2 ^ f.eb - 1) * 2 ^ f.fb else 2 ^ (f.eb + f.fb) - 1
/-- The canonical NaN (R125). -/
def Fmt.nanCode (f : Fmt) : Nat :=
  if f.ieee then (2 ^ f.eb - 1) * 2 ^ f.fb + 2 ^ (f.fb - 1) else 2 ^ (f.eb + f.fb) - 1

/-! ## Values -/

/-- What a code of a format stands for: a NaN, an infinity, or (-1)^neg * m * 2^e. -/
inductive FVal where
  | nan (signalling : Bool)
  | inf (neg : Bool)
  | fin (neg : Bool) (m : Nat) (e : Int)
deriving DecidableEq, Repr

/-- The value of a code (R125, R126). -/
def unpack (f : Fmt) (x : Nat) : FVal :=
  let neg := x / f.signBit % 2 == 1
  let ex := x / 2 ^ f.fb % 2 ^ f.eb
  let fr := x % 2 ^ f.fb
  if f.ieee && ex == 2 ^ f.eb - 1 then
    if fr = 0 then .inf neg
    else .nan (decide (f.fb ≥ 7) && decide (fr < 2 ^ (f.fb - 1)))
  else if !f.ieee && x % f.signBit == f.signBit - 1 then .nan false
  else if ex = 0 then .fin neg fr (1 - (f.bias : Int) - f.fb)
  else .fin neg (2 ^ f.fb + fr) ((ex : Int) - f.bias - f.fb)

/-- An exact result before rounding: a NaN with the exceptions it raises, an infinity with its own, or the magnitude
(m + s) * 2^e with 0 ≤ s < 1, where s > 0 exactly if `sticky`. -/
inductive Exact where
  | nan (ex : BitVec 5)
  | inf (neg : Bool) (ex : BitVec 5)
  | num (neg : Bool) (m : Nat) (e : Int) (sticky : Bool)
deriving DecidableEq, Repr

/-! ## Rounding (R129) -/

/-- The rounding modes of R27. -/
inductive Rnd where
  | rne | rtz | rup | rdn
deriving DecidableEq, Repr

/-- The mode of a code of R27. -/
def rndOf (c : BitVec 2) : Rnd :=
  match c.toNat with
  | 0 => .rne | 1 => .rtz | 2 => .rup | _ => .rdn

/-- Whether the larger magnitude is chosen, from the part of the quotient that is kept (odd or not), the remainder
against half the step, and the sign. -/
def roundsUp (r : Rnd) (neg odd : Bool) (rem half : Nat) (sticky : Bool) : Bool :=
  match r with
  | .rne => decide (rem > half) || (decide (rem = half) && (sticky || odd))
  | .rtz => false
  | .rup => !neg && (decide (rem ≠ 0) || sticky)
  | .rdn => neg && (decide (rem ≠ 0) || sticky)

/-- m / 2^k rounded to an integer, with whether it was inexact. -/
def shiftRound (r : Rnd) (neg : Bool) (m k : Nat) (sticky : Bool) : Nat × Bool :=
  if k = 0 then
    if sticky then
      match r with
      | .rup => (if neg then m else m + 1, true)
      | .rdn => (if neg then m + 1 else m, true)
      | _ => (m, true)
    else (m, false)
  else
    let q := m / 2 ^ k
    let rem := m % 2 ^ k
    (if roundsUp r neg (q % 2 == 1) rem (2 ^ (k - 1)) sticky then q + 1 else q, decide (rem ≠ 0) || sticky)

/-- (m + s) * 2^e rounded to a multiple of 2^q: the multiple, and whether it was inexact. -/
def quantum (r : Rnd) (neg : Bool) (m : Nat) (e q : Int) (sticky : Bool) : Nat × Bool :=
  if q ≤ e then (m * 2 ^ (e - q).toNat, sticky) else shiftRound r neg m (q - e).toNat sticky

/-- The result of an overflow by mode (R129), E4M3 and the saturating flag included. -/
def overflowCode (f : Fmt) (r : Rnd) (sat neg : Bool) : Nat :=
  let toInf := match r with | .rne => true | .rtz => false | .rup => !neg | .rdn => neg
  let s := if neg then f.signBit else 0
  if toInf then
    if sat && decide (f.fb ≤ 3) then s + f.maxCode
    else if f.ieee then s + f.infCode else f.nanCode
  else s + f.maxCode

/-- RoundTo of a nonzero magnitude (R129), with the exceptions; tininess is detected after rounding (R127). -/
def roundMag (f : Fmt) (r : Rnd) (sat neg : Bool) (m : Nat) (e : Int) (sticky : Bool) : Nat × BitVec 5 :=
  let top := e + Nat.log2 m
  let emin : Int := 1 - f.bias
  let q := max top emin - f.fb
  let n := quantum r neg m e q sticky
  let un := quantum r neg m e (top - f.fb) sticky
  let tiny := decide (top < emin) && !(decide (top = emin - 1) && decide (un.1 ≥ 2 ^ (f.fb + 1)))
  let s := if neg then f.signBit else 0
  let up := decide (n.1 ≥ 2 ^ (f.fb + 1))
  let m' := if up then n.1 / 2 else n.1
  let q' := if up then q + 1 else q
  let code := if m' < 2 ^ f.fb then m' else ((q' + f.fb + f.bias).toNat) * 2 ^ f.fb + (m' - 2 ^ f.fb)
  if code > f.maxCode then (overflowCode f r sat neg, exOF ||| exNX)
  else (s + code, if n.2 then (if tiny then exUF ||| exNX else exNX) else 0#5)

/-- RoundTo of an exact result (R129): the code and the exceptions. -/
def roundTo (f : Fmt) (r : Rnd) (sat : Bool) (x : Exact) : Nat × BitVec 5 :=
  match x with
  | .nan ex => (f.nanCode, ex)
  | .inf neg ex =>
    if f.ieee then ((if neg then f.signBit else 0) + f.infCode, ex)
    else (overflowCode f r sat neg, ex ||| exOF ||| exNX)
  | .num neg m e sticky =>
    if m = 0 ∧ sticky = false then ((if neg then f.signBit else 0), 0#5) else roundMag f r sat neg m e sticky

/-! ## Exact operations on values (R74 to R82, R126) -/

/-- Whether a value is a signalling NaN. -/
def FVal.isSnan : FVal → Bool
  | .nan s => s
  | _ => false
/-- Whether a value is a NaN. -/
def FVal.isNan : FVal → Bool
  | .nan _ => true
  | _ => false
/-- The sign of a value; a NaN counts as positive. -/
def FVal.sign : FVal → Bool
  | .nan _ => false
  | .inf n => n
  | .fin n _ _ => n
/-- A value with its sign inverted. -/
def FVal.negate : FVal → FVal
  | .nan s => .nan s
  | .inf n => .inf !n
  | .fin n m e => .fin (!n) m e

/-- NV where some operand is a signalling NaN. -/
def nvIf (b : Bool) : BitVec 5 := if b then exNV else 0#5

/-- The signed integer mantissa of a finite value at exponent e0 ≤ e. -/
def alignTo (neg : Bool) (m : Nat) (e e0 : Int) : Int :=
  let v : Int := (m * 2 ^ (e - e0).toNat : Nat)
  if neg then -v else v

/-- The exact sum of two finite values, with the sign of a zero sum (R76). -/
def sumFin (r : Rnd) (n1 : Bool) (m1 : Nat) (e1 : Int) (n2 : Bool) (m2 : Nat) (e2 : Int) : Exact :=
  let e0 := min e1 e2
  let s := alignTo n1 m1 e1 e0 + alignTo n2 m2 e2 e0
  if s = 0 then
    if m1 = 0 ∧ m2 = 0 ∧ n1 = n2 then .num n1 0 0 false
    else .num (decide (r = .rdn)) 0 0 false
  else .num (decide (s < 0)) s.natAbs e0 false

/-- a + b (R76). -/
def addExact (r : Rnd) (a b : FVal) : Exact :=
  match a, b with
  | .nan _, _ => .nan (nvIf (a.isSnan || b.isSnan))
  | _, .nan _ => .nan (nvIf (a.isSnan || b.isSnan))
  | .inf n1, .inf n2 => if n1 = n2 then .inf n1 0#5 else .nan exNV
  | .inf n, _ => .inf n 0#5
  | _, .inf n => .inf n 0#5
  | .fin n1 m1 e1, .fin n2 m2 e2 => sumFin r n1 m1 e1 n2 m2 e2

/-- a × b (R76). -/
def mulExact (a b : FVal) : Exact :=
  match a, b with
  | .nan _, _ => .nan (nvIf (a.isSnan || b.isSnan))
  | _, .nan _ => .nan (nvIf (a.isSnan || b.isSnan))
  | .inf n1, .inf n2 => .inf (xor n1 n2) 0#5
  | .inf n1, .fin n2 m _ => if m = 0 then .nan exNV else .inf (xor n1 n2) 0#5
  | .fin n1 m _, .inf n2 => if m = 0 then .nan exNV else .inf (xor n1 n2) 0#5
  | .fin n1 m1 e1, .fin n2 m2 e2 => .num (xor n1 n2) (m1 * m2) (e1 + e2) false

/-- a × b + c with one rounding (R82): 0 × ∞ is invalid whatever c is. -/
def fmaExact (r : Rnd) (a b c : FVal) : Exact :=
  let sn := nvIf (a.isSnan || b.isSnan || c.isSnan)
  match mulExact a b with
  | .nan ex => .nan (ex ||| sn)
  | .inf n _ =>
    match c with
    | .nan _ => .nan sn
    | .inf n2 => if n = n2 then .inf n 0#5 else .nan exNV
    | .fin _ _ _ => .inf n 0#5
  | .num n m e _ =>
    match c with
    | .nan _ => .nan sn
    | .inf n2 => .inf n2 0#5
    | .fin n2 m2 e2 => sumFin r n m e n2 m2 e2

/-- a / b (R76), with 120 quotient bits and a sticky bit below them. -/
def divExact (a b : FVal) : Exact :=
  match a, b with
  | .nan _, _ => .nan (nvIf (a.isSnan || b.isSnan))
  | _, .nan _ => .nan (nvIf (a.isSnan || b.isSnan))
  | .inf _, .inf _ => .nan exNV
  | .inf n1, .fin n2 _ _ => .inf (xor n1 n2) 0#5
  | .fin n1 _ _, .inf n2 => .num (xor n1 n2) 0 0 false
  | .fin n1 m1 e1, .fin n2 m2 e2 =>
    if m2 = 0 then (if m1 = 0 then .nan exNV else .inf (xor n1 n2) exDZ)
    else .num (xor n1 n2) (m1 * 2 ^ 120 / m2) (e1 - e2 - 120) (decide (m1 * 2 ^ 120 % m2 ≠ 0))

/-- Integer square root by bits from weight 2^k down. -/
def isqrtFrom (n : Nat) : Nat → Nat → Nat
  | 0, r => if (r + 1) * (r + 1) ≤ n then r + 1 else r
  | k + 1, r => if (r + 2 ^ (k + 1)) * (r + 2 ^ (k + 1)) ≤ n then isqrtFrom n k (r + 2 ^ (k + 1)) else isqrtFrom n k r

/-- The integer square root of a number. -/
def isqrt (n : Nat) : Nat := isqrtFrom n (Nat.log2 n / 2 + 1) 0

/-- The square root of a value (R76), with at least 64 result bits and a sticky bit below them. -/
def sqrtExact (a : FVal) : Exact :=
  match a with
  | .nan s => .nan (nvIf s)
  | .inf n => if n then .nan exNV else .inf false 0#5
  | .fin n m e =>
    if m = 0 then .num n 0 0 false
    else if n then .nan exNV
    else
      let odd := e % 2 ≠ 0
      let m' := (if odd then 2 * m else m) * 2 ^ 128
      let e' := (if odd then e - 1 else e) - 128
      let s := isqrt m'
      .num false s (e' / 2) (decide (s * s ≠ m'))

/-- A value as an exact result; a signalling NaN raises NV. -/
def FVal.toExact : FVal → Exact
  | .nan s => .nan (nvIf s)
  | .inf n => .inf n 0#5
  | .fin n m e => .num n m e false

/-- A value times 2^k. -/
def FVal.scale (x : FVal) (k : Int) : FVal :=
  match x with
  | .fin n m e => .fin n m (e + k)
  | y => y

/-- The order of two values that are not NaNs, with -0 below +0 when `zeros`: whether a < b. -/
def fvalLt (zeros : Bool) (a b : FVal) : Bool :=
  match a, b with
  | .inf n1, .inf n2 => n1 && !n2
  | .inf n, _ => n
  | _, .inf n => !n
  | .fin n1 m1 e1, .fin n2 m2 e2 =>
    let e0 := min e1 e2
    let x := alignTo n1 m1 e1 e0
    let y := alignTo n2 m2 e2 e0
    decide (x < y) || (zeros && decide (x = y) && n1 && !n2)
  | _, _ => false

/-- Numerical equality of two values, -0 equal to +0; false on a NaN. -/
def fvalEq (a b : FVal) : Bool :=
  match a, b with
  | .inf n1, .inf n2 => n1 == n2
  | .fin n1 m1 e1, .fin n2 m2 e2 =>
    let e0 := min e1 e2
    decide (alignTo n1 m1 e1 e0 = alignTo n2 m2 e2 e0)
  | _, _ => false

/-! ## Operations on codes: the code and the exceptions -/

/-- FADD in a format (R76). -/
def fpAdd (f : Fmt) (r : Rnd) (a b : Nat) : Nat × BitVec 5 := roundTo f r false (addExact r (unpack f a) (unpack f b))
/-- FSUB in a format (R76). -/
def fpSub (f : Fmt) (r : Rnd) (a b : Nat) : Nat × BitVec 5 :=
  roundTo f r false (addExact r (unpack f a) (unpack f b).negate)
/-- FMUL in a format (R76). -/
def fpMul (f : Fmt) (r : Rnd) (a b : Nat) : Nat × BitVec 5 := roundTo f r false (mulExact (unpack f a) (unpack f b))
/-- FDIV in a format (R76). -/
def fpDiv (f : Fmt) (r : Rnd) (a b : Nat) : Nat × BitVec 5 := roundTo f r false (divExact (unpack f a) (unpack f b))
/-- FSQRT in a format (R76). -/
def fpSqrt (f : Fmt) (r : Rnd) (a : Nat) : Nat × BitVec 5 := roundTo f r false (sqrtExact (unpack f a))
/-- FFMA in a format (R82). -/
def fpFma (f : Fmt) (r : Rnd) (a b c : Nat) : Nat × BitVec 5 :=
  roundTo f r false (fmaExact r (unpack f a) (unpack f b) (unpack f c))
/-- FFMS in a format (R82). -/
def fpFms (f : Fmt) (r : Rnd) (a b c : Nat) : Nat × BitVec 5 :=
  roundTo f r false (fmaExact r (unpack f a) (unpack f b) (unpack f c).negate)

/-- FMIN, or FMAX when `larger` (R77): exact, -0 below +0; a NaN yields to the other operand. -/
def fpMinMax (f : Fmt) (larger : Bool) (a b : Nat) : Nat × BitVec 5 :=
  let x := unpack f a
  let y := unpack f b
  let nv := nvIf (x.isSnan || y.isSnan)
  if x.isNan && y.isNan then (f.nanCode, nv)
  else if x.isNan then (b, nv)
  else if y.isNan then (a, nv)
  else if larger then (if fvalLt true x y then b else a, 0#5)
  else (if fvalLt true y x then b else a, 0#5)

/-- The relations of FCMPEQ, FCMPLT, FCMPLE (R79), and NE (R185). -/
inductive Rel where
  | eq | lt | le | ne
deriving DecidableEq, Repr

/-- A floating comparison (R79): the relation, and NV for a signalling NaN, or for any NaN in LT and LE. -/
def fpCmp (f : Fmt) (rel : Rel) (a b : Nat) : Bool × BitVec 5 :=
  let x := unpack f a
  let y := unpack f b
  let nan := x.isNan || y.isNan
  let sn := x.isSnan || y.isSnan
  match rel with
  | .eq => (fvalEq x y, nvIf sn)
  | .lt => (!nan && fvalLt false x y, nvIf nan)
  | .le => (!nan && (fvalLt false x y || fvalEq x y), nvIf nan)
  | .ne => (nan || !fvalEq x y, nvIf sn)

/-- A conversion between floating formats (R80, R129, R186). -/
def fpConv (src dst : Fmt) (r : Rnd) (sat : Bool) (a : Nat) : Nat × BitVec 5 := roundTo dst r sat (unpack src a).toExact

/-- An integer converted to a floating format (R80, R186). -/
def intToFp (f : Fmt) (r : Rnd) (x : Int) : Nat × BitVec 5 :=
  if x = 0 then (0, 0#5) else roundTo f r false (.num (decide (x < 0)) x.natAbs 0 false)

/-- A floating value converted to an integer from lo to hi (R80, R131): rounded by mode, saturated, NaN to 0. -/
def fpToInt (f : Fmt) (r : Rnd) (lo hi : Int) (a : Nat) : Int × BitVec 5 :=
  match unpack f a with
  | .nan _ => (0, exNV)
  | .inf n => (if n then lo else hi, exNV)
  | .fin n m e =>
    let q := quantum r n m e 0 false
    let v : Int := if n then -(q.1 : Int) else q.1
    if v < lo then (lo, exNV) else if v > hi then (hi, exNV) else (v, if q.2 then exNX else 0#5)

/-- The class mask of R81. -/
def fpClass (f : Fmt) (a : Nat) : Nat :=
  match unpack f a with
  | .nan s => if s then 1 else 2
  | .inf n => if n then 4 else 512
  | .fin n m _ =>
    if m = 0 then (if n then 32 else 64)
    else if m < 2 ^ f.fb then (if n then 16 else 128)
    else (if n then 8 else 256)

/-! ## Integer results (R58 to R60, R124) -/

/-- DIV of R59. -/
def divS (a b : Word) : Word :=
  if b = 0#64 then BitVec.allOnes 64
  else if a.toInt = -(2 ^ 63 : Int) ∧ b.toInt = -1 then a
  else BitVec.ofInt 64 (a.toInt.tdiv b.toInt)

/-- REM of R59. -/
def remS (a b : Word) : Word :=
  if b = 0#64 then a
  else if a.toInt = -(2 ^ 63 : Int) ∧ b.toInt = -1 then 0#64
  else BitVec.ofInt 64 (a.toInt - b.toInt * a.toInt.tdiv b.toInt)

/-- DIVN of R59. -/
def divU (a b : Word) : Word := if b = 0#64 then BitVec.allOnes 64 else BitVec.ofNat 64 (a.toNat / b.toNat)
/-- REMN of R59. -/
def remU (a b : Word) : Word := if b = 0#64 then a else BitVec.ofNat 64 (a.toNat % b.toNat)

/-- The number of leading zero bits (R58). -/
def clz64 (a : Word) : Word := if a = 0#64 then 64#64 else BitVec.ofNat 64 (63 - Nat.log2 a.toNat)

/-- Trailing zeros of a number, at most n. -/
def ctzN : Nat → Nat → Nat
  | 0, _ => 0
  | n + 1, x => if x % 2 = 1 then 0 else 1 + ctzN n (x / 2)

/-- The number of trailing zero bits (R58). -/
def ctz64 (a : Word) : Word := BitVec.ofNat 64 (ctzN 64 a.toNat)

/-- One bits among the n low bits of a number. -/
def popN : Nat → Nat → Nat
  | 0, _ => 0
  | n + 1, x => x % 2 + popN n (x / 2)

/-- The number of one bits (R58). -/
def popc64 (a : Word) : Word := BitVec.ofNat 64 (popN 64 a.toNat)

/-- An integer limited to a range. -/
def clampInt (lo hi x : Int) : Int := if x < lo then lo else if x > hi then hi else x

/-- The least value of an integer type of width w. -/
def intLo (w : Nat) (unsigned : Bool) : Int := if unsigned then 0 else -(2 ^ (w - 1) : Nat)
/-- The greatest value of an integer type of width w. -/
def intHi (w : Nat) (unsigned : Bool) : Int := if unsigned then (2 ^ w : Nat) - 1 else (2 ^ (w - 1) : Nat) - 1
/-- The value of w bits read as an integer type. -/
def intOf (w : Nat) (unsigned : Bool) (x : Nat) : Int :=
  let y := x % 2 ^ w
  if !unsigned && decide (y ≥ 2 ^ (w - 1)) then (y : Int) - (2 ^ w : Nat) else y
/-- The w bits of an integer, modulo 2^w. -/
def intBits (w : Nat) (x : Int) : Nat := (x % (2 ^ w : Nat)).toNat

end Sys2Proof.Machine
end

