-- ==== Sys2Proof/Config.lean ====
section
/-!
DEFINITION. What the J960's manual leaves to an implementation or leaves open, as constants without a body: no proof
can learn their values (log entry 5).
-/

namespace Sys2Proof.Config

/-- Behind the lease length of R296. -/
opaque leaseRaw : Nat
/-- The lease length of R296: a firmware setting from 1 to 65,536 that changes no outcome. -/
def lease : Nat := leaseRaw % 65536 + 1
/-- How far a die's timebase reads ahead of the earliest, in cycles, before it is taken modulo 3 (R3). -/
opaque skew : Nat → Nat
/-- Whether a walk uses the cached entry where a walk cache or a micro-cache holds one: R316 allows both. -/
opaque useCached : Nat → Bool
/-- The package serial number of a report (R376). -/
opaque serial : BitVec 128
/-- SHA-512 of the firmware of each die's controller (R376). -/
opaque firmwareDigest : Nat → BitVec 512
/-- A word of memory whose value the manual leaves open: a poisoned word for a reader without an outcome (R170), or a frame
under another key (R369), or the length and the bytes of a snapshot record (R402). -/
opaque openWord : Nat → BitVec 64
/-- A signature over the first 1,536 bytes of a report (R376), by die and by report. -/
opaque signature : Nat → Nat → BitVec 4096
/-- The modulus of a die's identity key (R377, R421). -/
opaque keyModulus : Nat → BitVec 4096
/-- The public exponent of a die's identity key (R377, R421). -/
opaque keyExponent : Nat → BitVec 32
/-- What a monitor reads at a sample, by die, kind, index and sample (R378). -/
opaque monitor : Nat → Nat → Nat → Nat → Nat

/-- Whether a package-edge link trains with another package (R396), by die and edge. -/
opaque trains : Nat → Nat → Bool

end Sys2Proof.Config
end

