-- ==== Sys2Proof/Machine/Block.lean ====
section
/-!
DEFINITION. The queue control block (R305, R306): its fields as a structure, its bytes, and its check word.
-/

namespace Sys2Proof.Machine

open Sys2Proof

/-- The fields of a block as found in its 64 bytes; `zeros` says that the bytes which R305 wants zero are, and `check`
is the stored check word. -/
structure Aqcb where
  head  : Nat
  tail  : Nat
  free  : Nat
  esz   : Nat
  capl  : Nat
  flags : Nat
  owner : Word
  home  : Nat
  base  : Word
  check : Nat
  zeros : Bool
deriving DecidableEq, Repr

/-- A block from its bytes (R305). -/
def readAqcb (b : List Byte) : Aqcb :=
  { head := numAt b 0 4, tail := numAt b 4 4, free := numAt b 8 4, esz := numAt b 12 1, capl := numAt b 13 1,
    flags := numAt b 14 1, owner := BitVec.ofNat 64 (numAt b 16 8), home := numAt b 24 8,
    base := BitVec.ofNat 64 (numAt b 32 8), check := numAt b 40 2,
    zeros := decide (numAt b 15 1 = 0) && decide (numAt b 42 22 = 0) }

/-- The first forty bytes of a block, which the check word covers. -/
def Aqcb.front (q : Aqcb) : List Byte :=
  toBytes 4 q.head ++ toBytes 4 q.tail ++ toBytes 4 q.free ++ toBytes 1 q.esz ++ toBytes 1 q.capl ++ toBytes 1 q.flags ++
  toBytes 1 0 ++ toBytes 8 q.owner.toNat ++ toBytes 8 q.home ++ toBytes 8 q.base.toNat

/-- The check word of forty bytes (R305): 0xA5A5 XOR the XOR of their twenty halfwords. -/
def checkOf (b : List Byte) : Nat :=
  ((List.range 20).map fun k => numAt b (2 * k) 2).foldl Nat.xor 0xA5A5

/-- The 64 bytes of a block, with its check word recomputed. -/
def Aqcb.bytes (q : Aqcb) : List Byte := q.front ++ toBytes 2 (checkOf q.front) ++ toBytes 22 0

/-- Capacity in slots. -/
def Aqcb.cap (q : Aqcb) : Nat := 2 ^ q.capl
/-- Element size in bytes. -/
def Aqcb.size (q : Aqcb) : Nat := 8 * 2 ^ q.esz
/-- The virtual address of a slot (R305). -/
def Aqcb.slot (q : Aqcb) (i : Nat) : Word := q.base + BitVec.ofNat 64 (q.size * i)
/-- STEAL. -/
def Aqcb.steal (q : Aqcb) : Bool := decide (q.flags % 2 = 1)
/-- POISON. -/
def Aqcb.poison (q : Aqcb) : Bool := decide (q.flags / 2 % 2 = 1)
/-- MD. -/
def Aqcb.multiDie (q : Aqcb) : Bool := decide (q.flags / 4 % 2 = 1)
/-- The flags with POISON set or cleared. -/
def Aqcb.withPoison (q : Aqcb) (p : Bool) : Aqcb := { q with flags := q.flags - (if q.poison then 2 else 0) + (if p then 2 else 0) }
/-- The flags with STEAL set or cleared. -/
def Aqcb.withSteal (q : Aqcb) (p : Bool) : Aqcb := { q with flags := q.flags - (if q.steal then 1 else 0) + (if p then 1 else 0) }

/-- The rules of R305 on a block's own fields, and its check word. -/
def Aqcb.fieldsOk (q : Aqcb) : Bool :=
  decide (q.esz ≤ 5) && decide (q.capl ≤ 24) && decide (q.flags < 8) && q.zeros &&
  decide (q.head < q.cap) && decide (q.tail < q.cap) && decide (q.free ≤ q.cap) &&
  decide (q.home < 2 ^ 52) && decide (q.base.toNat % q.size = 0) && decide (field q.owner 17 0 = 0) &&
  decide (q.check = checkOf q.front)

/-- A block found consistent at a physical address (R306). -/
def Aqcb.consistent (q : Aqcb) (pa : Nat) : Bool :=
  q.fieldsOk && decide (q.home = pa) && decide ((q.head + q.cap - q.free) % q.cap = q.tail)

/-- The owner word of a unit (R259, R305): LAUNCHID, die, tile index and context. -/
def unitName (l u : Nat) : Word :=
  BitVec.ofNat 64 (l % 2 ^ 32 * 2 ^ 32 + dieOf u * 2 ^ 30 + tileOf u % 1024 * 2 ^ 20 + ctxOf u * 2 ^ 18)

end Sys2Proof.Machine
end

