-- ==== Sys2Proof/Machine/Mem.lean ====
section
/-!
DEFINITION. Memory by physical address (15_die_memory.md): bytes, tags and poison, the physical map (R289), custody and
scope breaches (R292 to R294), leases and logical times (R296).
-/

namespace Sys2Proof.Machine

open Sys2Proof

/-! ## Bytes -/

/-- One byte of memory; an unlisted byte reads 0 (R415 steps 4 and 5). -/
def rdByte (m : Memory) (a : Nat) : Byte := (mget m.cells a).getD 0#8

/-- One byte written; a zero is not listed, so equal memories are equal data. -/
def wrCell (c : List Host.Cell) (a : Nat) (b : Byte) : List Host.Cell := if b = 0#8 then mdel c a else mset c a b

/-- One byte of memory written. -/
def wrByte (m : Memory) (a : Nat) (b : Byte) : Memory := { m with cells := wrCell m.cells a b }

/-- n bytes from an address, lowest first. -/
def rdBytes (m : Memory) (a : Nat) : Nat → List Byte
  | 0 => []
  | n + 1 => rdByte m a :: rdBytes m (a + 1) n

/-- Bytes written from an address upward. -/
def wrBytes (m : Memory) (a : Nat) : List Byte → Memory
  | [] => m
  | b :: l => wrBytes (wrByte m a b) (a + 1) l

/-- The n-byte little-endian number at an address (R6). -/
def rdNum (m : Memory) (a n : Nat) : Nat := ofBytes (rdBytes m a n)
/-- An n-byte little-endian number written at an address. -/
def wrNum (m : Memory) (a n v : Nat) : Memory := wrBytes m a (toBytes n v)
/-- The 8-byte word at an address. -/
def rd64 (m : Memory) (a : Nat) : Word := BitVec.ofNat 64 (rdNum m a 8)

/-- The canonical form of memory: addresses rise strictly and no listed byte is zero. -/
def Memory.wf (m : Memory) : Bool := sorted m.cells && m.cells.all fun c => decide (c.2 ≠ 0#8)

/-! ## Tags, poison and single-bit errors of scratchpad words (R168, R170) -/

/-- The word that holds a byte address. -/
def wordOf (a : Nat) : Nat := a / 8 * 8

/-- Whether a scratchpad word's tag is full (R96). -/
def isFull (m : Memory) (a : Nat) : Bool := m.full.contains (wordOf a)
/-- A word's tag set full or empty. -/
def setTag (m : Memory) (a : Nat) (full : Bool) : Memory :=
  { m with full := if full then ninsert m.full (wordOf a) else m.full.filter fun x => decide (x ≠ wordOf a) }

/-- Whether some word of n bytes from an address is poisoned: the first such word (R170). -/
def poisonedIn (m : Memory) (a n : Nat) : Option Nat :=
  m.poisoned.find? fun p => decide (p + 8 > a) && decide (p < a + n)

/-- A store of n bytes clears the poison of the words it covers in full (R170). -/
def clearPoison (m : Memory) (a n : Nat) : Memory :=
  { m with poisoned := m.poisoned.filter fun p => !(decide (a ≤ p) && decide (p + 8 ≤ a + n)),
           single := m.single.filter fun p => !(decide (a ≤ p) && decide (p + 8 ≤ a + n)) }

/-! ## The physical map (R289) -/

/-- Class of a physical address. -/
def paClass (a : Nat) : Nat := a / 2 ^ 48
/-- The bits of a slice address that must be zero, by level code; true where the level exists (R289). -/
def sliceOk (a : Nat) : Bool :=
  match a / 2 ^ 27 % 8 with
  | 0 => decide (a / 2 ^ 26 % 2 = 0)
  | 1 => true
  | 2 => decide (a / 2 ^ 26 % 2 = 0)
  | 3 => decide (a / 2 ^ 26 % 2 = 0)
  | 4 => decide (a / 2 ^ 25 % 4 = 0)
  | _ => false

/-- Whether a physical address is mapped (R289): device memory alone, never the host's. DESIGN CHOICE (log entry 112). -/
def mapped (a : Nat) : Bool :=
  match paClass a with
  | 0 => decide (a / 2 ^ 39 % 2 ^ 9 = 0) && decide (a % 2 ^ 36 < 64000000000)
  | 1 => decide (a / 2 ^ 30 % 2 ^ 18 = 0)
  | 2 => decide (a / 2 ^ 32 % 2 ^ 16 = 0) && sliceOk a
  | 3 => decide (a / 2 ^ 20 % 2 ^ 28 = 0)
  | _ => false

/-- The tile of a class-1 address. -/
def spadTile (a : Nat) : Nat := a / 2 ^ 18 % 2 ^ 12
/-- The class-1 address of an offset in a tile's scratchpad. -/
def spadAddr (t o : Nat) : Nat := 2 ^ 48 + t * 2 ^ 18 + o
/-- Whether an address lies in a scratchpad. -/
def isSpad (a : Nat) : Bool := decide (paClass a = 1)
/-- The single-bit errors of the words that satisfy a condition corrected, and counted for a tile (R170).
DEDUCED (log entry 60). -/
def correctIf (m : Memory) (t : Nat) (p : Nat → Bool) : Memory :=
  let bad := m.single.filter p
  if bad.isEmpty then m
  else
    { m with
      single := m.single.filter fun x => !p x
      corrected := mset m.corrected t ((mget m.corrected t).getD 0 + bad.length) }

/-- Single-bit errors in the words of n bytes corrected by a read (R170). -/
def correct (m : Memory) (a n : Nat) : Memory :=
  correctIf m (spadTile a) fun p => decide (p + 8 > a) && decide (p < a + n)

/-- Single-bit errors in the words that n bytes cover in part corrected by the read that a store of them needs (R170). -/
def correctEdges (m : Memory) (a n : Nat) : Memory :=
  correctIf m (spadTile a) fun p =>
    decide (p + 8 > a) && decide (p < a + n) && !(decide (a ≤ p) && decide (p + 8 ≤ a + n))

/-- The die that holds a mapped address. -/
def paDie (a : Nat) : Nat :=
  match paClass a with
  | 0 => a / 2 ^ 37 % 4
  | 1 => a / 2 ^ 28 % 4
  | 2 => a / 2 ^ 30 % 4
  | _ => a / 2 ^ 18 % 4

/-! ## The tree (R288) -/

/-- The instance of the switch of a level above a tile: 0 quad, 1 page, 2 block, 3 quadrant, 4 root. -/
def instOf (level t : Nat) : Nat :=
  match level with
  | 0 => 16 * (tileY t / 2) + tileX t / 2
  | 1 => 8 * (tileY t / 4) + tileX t / 4
  | 2 => 4 * (tileY t / 8) + tileX t / 8
  | 3 => 2 * (tileY t / 16) + tileX t / 16
  | _ => 0

/-- Whether a tile lies beneath a slice. -/
def under (level die idx t : Nat) : Bool := decide (dieOfTile t = die) && decide (instOf level t = idx)

/-- A tile that lies beneath a slice: the north-west one. -/
def aTileOf (level die idx : Nat) : Nat :=
  match level with
  | 0 => 1024 * die + 32 * (2 * (idx / 16)) + 2 * (idx % 16)
  | 1 => 1024 * die + 32 * (4 * (idx / 8)) + 4 * (idx % 8)
  | 2 => 1024 * die + 32 * (8 * (idx / 4)) + 8 * (idx % 4)
  | 3 => 1024 * die + 32 * (16 * (idx / 2)) + 16 * (idx % 2)
  | _ => 1024 * die

/-- The slice that a declared scope code selects for a tile, none for package, the home (R293). -/
def scopeSlice (scope t : Nat) : Option (Nat × Nat × Nat) :=
  match scope with
  | 0 => some (0, dieOfTile t, instOf 0 t)
  | 1 => some (1, dieOfTile t, instOf 1 t)
  | 2 => some (3, dieOfTile t, instOf 3 t)
  | 3 => some (4, dieOfTile t, 0)
  | _ => none

/-- Width of a custodian: the level of a slice, 5 for the home. -/
def Custodian.level : Custodian → Nat
  | .home => 5
  | .slice l _ _ => l

/-- The narrowest page, quadrant or root slice over a slice and a tile, or the home across dies (R293). -/
def recallTo (die level idx t : Nat) : Custodian :=
  let c := aTileOf level die idx
  if dieOfTile t ≠ die then .home
  else if instOf 1 t = instOf 1 c then .slice 1 die (instOf 1 t)
  else if instOf 3 t = instOf 3 c then .slice 3 die (instOf 3 t)
  else .slice 4 die 0

/-! ## Lines: custody, breaches, leases (R292 to R296) -/

/-- The line of an address. -/
def lineOf (a : Nat) : Nat := a / 64
/-- The state of a line. -/
def getLine (m : Memory) (ln : Nat) : Line := (mget m.lines ln).getD {}
/-- The state of a line written. -/
def setLine (m : Memory) (ln : Nat) (x : Line) : Memory := { m with lines := mset m.lines ln x }

/-- Whether a slice that holds custody by recall has served the tiles of a narrower slice alone for 65,536 cycles
(R293). -/
def servedAlone (x : Line) (level die idx tb : Nat) : Bool :=
  decide (x.recallTb + 65536 ≤ tb) &&
    x.served.all fun p => under level die idx p.1 || decide (p.2 + 65536 ≤ tb)

/-- No lease on a line is held outside a slice's subtree. -/
def leasesInside (x : Line) (level die idx : Nat) : Bool := x.leases.all fun t => under level die idx t

/-- Custody of an HBM4 line for an access by a tile: recalled when the tile is outside, delegated when a declared scope
allows it (R293); `sa` keeps it at the home (R302). -/
def moveCustody (x : Line) (t : Nat) (scope : Option Nat) (sa : Bool) (tb : Nat) : Line :=
  let y : Line :=
    match x.cust with
    | .home => x
    | .slice l d i =>
      if under l d i t then x
      else
        let c := recallTo d l i t
        { x with cust := c, byRecall := decide (c ≠ .home), recallTb := tb, served := [] }
  let z : Line := { y with served := if y.byRecall then mset y.served t tb else [] }
  if sa then { z with cust := .home, byRecall := false, served := [] }
  else
    match scope.bind fun s => scopeSlice s t with
    | none => z
    | some (l, d, i) =>
      let ok : Bool :=
        match z.cust with
        | .home => leasesInside z l d i
        | .slice cl _ _ =>
          z.byRecall && decide (l < cl) && leasesInside z l d i && servedAlone z l d i tb
      if ok then { z with cust := .slice l d i, byRecall := false, served := [] } else z

/-- Whether an access by a tile with a declared scope is a breach, at the custodian that the line then has (R294). -/
def isBreach (x : Line) (a t scope : Nat) : Bool :=
  match paClass a with
  | 1 =>
    let h := spadTile a
    match scope with
    | 0 => decide (h ≠ t)
    | 1 => !(decide (dieOfTile h = dieOfTile t) && decide (instOf 1 h = instOf 1 t))
    | 2 => !(decide (dieOfTile h = dieOfTile t) && decide (instOf 3 h = instOf 3 t))
    | 3 => decide (dieOfTile h ≠ dieOfTile t)
    | _ => false
  | 2 =>
    let lv := a / 2 ^ 27 % 8
    let idx := match lv with
      | 0 => a / 2 ^ 18 % 2 ^ 8 | 1 => a / 2 ^ 21 % 2 ^ 6 | 2 => a / 2 ^ 22 % 2 ^ 4 | 3 => a / 2 ^ 24 % 4 | _ => 0
    let h := aTileOf lv (paDie a) idx
    match scope with
    | 0 => !(decide (lv = 0) && under 0 (paDie a) idx t)
    | 1 => !(decide (lv ≤ 1) && decide (dieOfTile h = dieOfTile t) && decide (instOf 1 h = instOf 1 t))
    | 2 => !(decide (lv ≤ 3) && decide (dieOfTile h = dieOfTile t) && decide (instOf 3 h = instOf 3 t))
    | 3 => decide (paDie a ≠ dieOfTile t)
    | _ => false
  | 0 =>
    match scopeSlice scope t with
    | none => false
    | some (l, _, _) => decide (x.cust.level > l)
  | _ => false

/-- Whether a line holds a consistent queue block, whose custody is never delegated (R306). DEDUCED (log entry 100). -/
def blockLine (m : Memory) (ln : Nat) : Bool :=
  decide (rdNum m (64 * ln + 24) 8 = 64 * ln) && (readAqcb (rdBytes m (64 * ln) 64)).consistent (64 * ln)

/-- A line prepared for an access: custody moved, and whether the access is a breach. -/
def approach (m : Memory) (a t : Nat) (scope : Option Nat) (sa : Bool) (tb : Nat) : Line × Bool :=
  let x := getLine m (lineOf a)
  let y := if paClass a = 0 then moveCustody x t scope (sa || blockLine m (lineOf a)) tb else x
  (y, match scope with | none => false | some s => isBreach y a t s)

/-- A load event's times (R296): the thread's time after it. The lease is granted to the tile,
and no slice keeps a copy. DESIGN CHOICE (log entry 111). -/
def leaseLine (x : Line) (t pts : Nat) : Line × Nat :=
  ({ x with rts := max x.rts (max pts x.wts + Config.lease), leases := ninsert x.leases t }, max pts x.wts)

/-- A store, atomic or reduction event's times (R296): the thread's time after it. -/
def stampLine (x : Line) (pts : Nat) : Line × Nat :=
  let p := max pts (x.rts + 1)
  ({ x with wts := p, rts := p, leases := [], stores := p :: x.stores }, p)

end Sys2Proof.Machine
end

