-- ==== Sys2Proof/Machine/Translate.lean ====
section
/-!
DEFINITION. Address translation: canonical form (R91), scratchpad windows (R291, R397), the walk of the page tables
(R313 to R315), walk caches and micro-caches (R316), restrictions on frames (R290, R368).
-/

namespace Sys2Proof.Machine

open Sys2Proof

/-- The access kinds, with the DETAIL of cause 0x07 (R54), and the walk of XLPROBE, which checks no permission (R350). -/
inductive Access where
  | read | write | atomic | fetch | probe
deriving DecidableEq, Repr

/-- DETAIL of cause 0x07 for an access kind (R54). -/
def Access.detail : Access → BitVec 8
  | .read => 1#8 | .write => 2#8 | .atomic => 3#8 | .fetch => 4#8 | .probe => 0#8

/-- Why a translation fails: a cause with its DETAIL, or a frame that the job may not reach (R368). -/
inductive XFail where
  | cause (c d : BitVec 8)
  | violation
deriving DecidableEq, Repr

/-- A translation: the physical address, its extent, and bits 7:2 of the leaf (0 for a window). -/
structure XOk where
  pa   : Nat
  tsz  : Nat
  leaf : BitVec 6
deriving DecidableEq, Repr

/-- SA of a leaf (R314). -/
def XOk.sa (x : XOk) : Bool := x.leaf.getLsbD 3
/-- CL of a leaf (R314). -/
def XOk.cl (x : XOk) : Bool := x.leaf.getLsbD 5

/-! ## Who asks -/

/-- The policy record of a job (R320); a job that is not live has the defaults. -/
def policyOf (s : State) (job : Nat) : Policy := (mget s.jobs job).getD {}
/-- Whether a job is live. -/
def jobLive (s : State) (job : Nat) : Bool := (mget s.jobs job).isSome
/-- The launch of a key. -/
def launchAt (s : State) (l : Nat) : Option Launch := mget s.launches l
/-- A page's registers, walker and caches. -/
def pageAt (s : State) (pg : Nat) : Page := (mget s.pages pg).getD {}
/-- A page's registers, walker and caches written. -/
def setPage (s : State) (pg : Nat) (p : Page) : State := { s with pages := mset s.pages pg p }

/-- Column and row of a launch's first tile in the package's grid (R247, R395). -/
def originX (l : Launch) : Nat := 32 * (l.die % 2) + 4 * (l.page % 8)
/-- Row of a launch's first tile. -/
def originY (l : Launch) : Nat := 32 * (l.die / 2) + 4 * (l.page / 8)
/-- The tile at (dx, dy) of a launch's page set, where it has one (R247). -/
def launchTile (l : Launch) (dx dy : Nat) : Option Nat :=
  if dx < 4 * l.width ∧ dy < 4 * l.height ∧ originX l + dx < 64 ∧ originY l + dy < 64
  then some (tileAt (originX l + dx) (originY l + dy)) else none
/-- The tiles of a launch's page set, in ascending dy, then dx (R402). -/
def launchTiles (l : Launch) : List Nat :=
  (List.range (4 * l.height)).flatMap fun dy => (List.range (4 * l.width)).filterMap fun dx => launchTile l dx dy
/-- The context slots that a launch takes (R247). -/
def launchSlots (l : Launch) : List Nat :=
  (launchTiles l).flatMap fun t => (List.range l.nctx).map fun c => 4 * t + l.base + c
/-- Whether a launch holds pages. -/
def Launch.holds (x : Launch) : Bool :=
  !(decide (x.st = .pool) || decide (x.st = .poolSaved) || decide (x.st = .suspended) || decide (x.st = .completed))

/-- The page of a launch's origin (R246). -/
def homePage (l : Launch) : Nat := 64 * l.die + l.page

/-! ## Virtual addresses -/

/-- Bits 63:57 are copies of bit 56 (R91). -/
def canonical (va : Word) : Bool :=
  decide (va.toNat / 2 ^ 56 = 0) || decide (va.toNat / 2 ^ 56 = 2 ^ 8 - 1)

/-- The base of the windows of R291. -/
def windowBase : Nat := 0x00FFFFFF00000000
/-- LOCALBASE of R291. -/
def localBase : Nat := 0x00FFFFFFFFFC0000
/-- Whether an address lies in the range that no page table translates (R291). -/
def inWindow (va : Word) : Bool := decide (windowBase ≤ va.toNat) && decide (va.toNat < 0x0100000000000000)

/-- Whether an address of that range lies in neither window (R291). -/
def noWindow (va : Word) : Bool := decide (windowBase + 0x40000000 ≤ va.toNat) && decide (va.toNat < localBase)

/-- An address of the range of R291, for an issuer in tile t of a launch (R291, R397); an issuer without a launch has no
tile in either window. -/
def windowXlate (l : Option Launch) (t : Nat) (k : Access) (va : Word) : Except XFail XOk :=
  let bad : XFail := .cause 7#8 k.detail
  if noWindow va then .error (.cause 5#8 0#8)
  else if k = .fetch then .error bad
  else
    match l with
    | none => .error bad
    | some l =>
      if localBase ≤ va.toNat then
        let o := va.toNat - localBase
        if o < 65536 * l.nctx then .ok ⟨spadAddr t (65536 * l.base + o), 0, 0#6⟩ else .error bad
      else
        let r := va.toNat - windowBase
        match launchTile l (r / 2 ^ 18 % 64) (r / 2 ^ 24 % 64) with
        | none => .error bad
        | some t' =>
          let o := r % 2 ^ 18
          if o < 65536 * l.nctx then .ok ⟨spadAddr t' (65536 * l.base + o), 0, 0#6⟩ else .error bad

/-! ## The walk (R313 to R315) -/

/-- Bit n of a table entry. -/
def eb (e : Word) (n : Nat) : Bool := bitOf e n
/-- The address field of a table entry. -/
def ePa (e : Word) : Nat := field e 51 12 * 4096

/-- Whether the device may read a table at an address: HBM4 or a slice bank (R314). -/
def tableOk (a : Nat) : Bool := mapped a && (decide (paClass a = 0) || decide (paClass a = 2))

/-- Bytes of a leaf at a level (R313). -/
def leafBits (level : Nat) : Nat := 12 + 9 * level

/-- An entry that raises cause 0x06 at a level (R314). -/
def entryReserved (e : Word) (level : Nat) : Bool :=
  decide (field e 63 52 ≠ 0) || decide (field e 11 8 ≠ 0) ||
  (eb e 1 && decide (level ≥ 3)) || (!eb e 1 && decide (level = 0)) ||
  (!eb e 1 && decide (field e 7 2 ≠ 0)) || (eb e 6 && decide (level > 0)) || (eb e 3 && !eb e 2) ||
  (eb e 1 && decide (ePa e % 2 ^ leafBits level ≠ 0))

/-- Whether the 16 entries of a contiguous-hint group agree (R315). -/
def groupOk (es : List Word) : Bool :=
  match es with
  | [] => false
  | e0 :: _ =>
    decide (ePa e0 % 65536 = 0) &&
    (es.zip (List.range es.length)).all fun p =>
      eb p.1 0 && eb p.1 1 && eb p.1 6 && !entryReserved p.1 0 &&
      decide (field p.1 11 2 = field e0 11 2) && decide (ePa p.1 = ePa e0 + 4096 * p.2)

/-- Whether a leaf grants an access (R314). -/
def leafGrants (e : Word) (k : Access) : Bool :=
  match k with
  | .read => eb e 2
  | .write => eb e 3
  | .atomic => eb e 2 && eb e 3
  | .fetch => eb e 4
  | .probe => true

/-- What a walk did: its outcome, the table entries it read or took from a cache (with the level of each), and the
addresses that it read. -/
structure Walk where
  res   : Except XFail XOk
  used  : List (Nat × Word)
  reads : List Nat

/-- The rest of a walk after a leaf was found at a level (R290, R314, R368): permission and frame. -/
def leafResult (e : Word) (k : Access) (pa tsz : Nat) : Except XFail XOk :=
  if leafGrants e k then .ok ⟨pa, tsz, BitVec.ofNat 6 (field e 7 2)⟩ else .error (.cause 7#8 k.detail)

/-- A walk from a level down (R313 to R315). `cached` supplies the entry of a level where a cache holds one and the walk
uses it. The level falls by one at each table. -/
def walkFrom (m : Memory) (va : Word) (k : Access) (cached : Nat → Option Word) : Nat → Nat → Walk
  | level, table =>
    if !tableOk table then ⟨.error (.cause 6#8 (BitVec.ofNat 8 level)), [], []⟩
    else
      let idx := va.toNat / 2 ^ leafBits level % 512
      let at_ := table + 8 * idx
      let (e, rd) := match cached level with
        | some e => (e, [])
        | none => (rd64 m at_, [at_])
      if !eb e 0 then ⟨.error (.cause 5#8 0#8), [], rd⟩
      else if entryReserved e level then ⟨.error (.cause 6#8 (BitVec.ofNat 8 level)), [], rd⟩
      else if eb e 1 then
        if eb e 6 then
          let g := table + 8 * (idx / 16 * 16)
          let es := (List.range 16).map fun i => rd64 m (g + 8 * i)
          let reads := (List.range 16).map fun i => g + 8 * i
          if groupOk es then ⟨leafResult e k (ePa (es.getD 0 0#64) + va.toNat % 65536) 1, [], reads⟩
          else ⟨.error (.cause 6#8 0#8), [], reads⟩
        else
          let tsz := match level with | 0 => 0 | 1 => 2 | _ => 3
          ⟨leafResult e k (ePa e + va.toNat % 2 ^ leafBits level) tsz, [(level, e)], rd⟩
      else
        match level with
        | 0 => ⟨.error (.cause 6#8 0#8), [], rd⟩
        | n + 1 =>
          let w := walkFrom m va k cached n (ePa e)
          ⟨w.res, (level, e) :: w.used, rd ++ w.reads⟩
termination_by structural level => level

/-- Whether a job may reach a physical frame: classes 0 and 2 alone through its tables (R290), and HBM4 frames under
R368. -/
def frameCheck (s : State) (job : Nat) (k : Access) (x : XOk) : Except XFail XOk :=
  if !mapped x.pa then .error (.cause 7#8 k.detail)
  else if job ≠ 0 ∧ (paClass x.pa = 1 ∨ paClass x.pa = 3) then .error (.cause 7#8 k.detail)
  else if paClass x.pa = 0 then
    let f := (mget s.frames (x.pa / 4096)).getD 0#32
    let owner := field f 15 0
    if job ≠ 0 then (if bitOf f 16 && decide (owner = job) then .ok x else .error .violation)
    else if bitOf f 16 && (policyOf s owner).conf then .error .violation
    else .ok x
  else .ok x

/-! ## Caches (R316) -/

/-- The number under which a walk cache holds a table entry: job, level and the address bits that index it. -/
def walkKey (job level : Nat) (va : Word) : Nat :=
  (job * 8 + level) * 2 ^ 48 + va.toNat % 2 ^ 57 / 2 ^ leafBits level

/-- The entry of a level that a walk may take from the page's walk cache: levels 4 to 2 (R316). Whether it does is
open (log entry 5). -/
def cachedEntry (s : State) (pg job : Nat) (va : Word) (level : Nat) : Option Word :=
  if level < 2 then none
  else match mget (pageAt s pg).walks (walkKey job level va) with
    | none => none
    | some e => if Config.useCached (s.free + level) then some e else none

/-- A whole walk of a job's tables, from the walker of a page. -/
def walkJob (s : State) (pg job : Nat) (k : Access) (va : Word) : Walk :=
  walkFrom s.mem va k (cachedEntry s pg job va) 4 (policyOf s job).root

/-- Read events of the walker's thread at a list of table addresses, with package scope (R316). -/
def walkerReads (m : Memory) (t tb : Nat) : Nat → List Nat → Memory × Nat
  | pts, [] => (m, pts)
  | pts, a :: l =>
    let x := (approach m a t (some 4) false tb).1
    let y := leaseLine x t pts
    walkerReads (setLine m (lineOf a) y.1) t tb y.2 l

/-- The state after a walk: its reads made, and on success its entries of levels 4 to 2 held in the walk cache, 64 at
most (R316); a walk that faults leaves nothing behind (R354). -/
def afterWalk (s : State) (pg t job : Nat) (va : Word) (w : Walk) : State :=
  let p := pageAt s pg
  let r := walkerReads s.mem t s.tb p.wpts w.reads
  let walks := match w.res with
    | .ok _ => ((w.used.filter fun x => decide (x.1 ≥ 2)).foldl (fun m x => mset m (walkKey job x.1 va) x.2) p.walks).take 64
    | .error _ => p.walks
  setPage { s with mem := r.1, free := s.free + 8 } pg { p with walks := walks, wpts := r.2 }

/-- Extent in address bits of a TSZ code (R204). -/
def tszBits (tsz : Nat) : Nat :=
  match tsz with
  | 0 => 12 | 1 => 16 | 2 => 21 | _ => 30

/-- Whether a held translation covers an address of a job. -/
def Xlation.covers (x : Xlation) (job : Nat) (va : Word) : Bool :=
  decide (x.job = job) && decide (x.va = va.toNat / 2 ^ tszBits x.tsz)

/-- The result of a held translation for an address, with its permission checked anew. -/
def Xlation.apply (x : Xlation) (k : Access) (va : Word) : Except XFail XOk :=
  let e : Word := BitVec.ofNat 64 (x.perm.toNat * 4)
  leafResult e k (x.pa + va.toNat % 2 ^ tszBits x.tsz) x.tsz

/-- A translation held for later use. -/
def XOk.hold (x : XOk) (job who : Nat) (va : Word) : Xlation :=
  { job := job, va := va.toNat / 2 ^ tszBits x.tsz, tsz := x.tsz, pa := x.pa / 2 ^ tszBits x.tsz * 2 ^ tszBits x.tsz,
    perm := x.leaf, who := who }

/-- A requester of translation: its number for its micro-cache, its tile, its job and its launch (R316). -/
structure Requester where
  who  : Nat
  tile : Nat
  job  : Nat
  lch  : Option Launch

/-- Translation of a virtual address for a requester (R91 steps 1 and 3, R291, R313 to R316, R368): the outcome, and
the state with caches and line times as the walk leaves them. A micro-cache entry may be used or not (log entry 5).
DEDUCED (log entry 84). -/
def translate (s : State) (q : Requester) (k : Access) (va : Word) : Except XFail XOk × State :=
  if !canonical va then (.error (.cause 5#8 0#8), s)
  else if inWindow va then (windowXlate q.lch q.tile k va, s)
  else
    let pg := pageOfTile q.tile
    let p := pageAt s pg
    let hit := p.micro.find? fun x => decide (x.who = q.who) && x.covers q.job va
    match hit.filter (fun _ => Config.useCached s.free) with
    | some x => (x.apply k va >>= frameCheck s q.job k, { s with free := s.free + 8 })
    | none =>
      let w := walkJob s pg q.job k va
      let s' := afterWalk s pg q.tile q.job va w
      match w.res with
      | .error e => (.error e, s')
      | .ok x =>
        let p' := pageAt s' pg
        let kept := p'.micro.filter fun y => !(decide (y.who = q.who) && y.covers q.job va)
        (frameCheck s q.job k x, setPage s' pg { p' with micro := x.hold q.job q.who va :: kept })

end Sys2Proof.Machine
end

