-- ==== Sys2Proof/Machine/Operands.lean ====
section
/-!
DEFINITION. Reading and writing the registers of the issuing unit: operand specifiers (R19, R20), the hard-wired g0 and
p0 (R41), the last-result file (R42), and the CSRs (R45).
-/

namespace Sys2Proof.Machine

open Sys2Proof

/-! ## Tables of the state -/

/-- The unit in a context slot; a slot that holds none has a free unit. -/
def unitAt (s : State) (u : Nat) : UnitRegs := (mget s.units u).getD {}
/-- The unit in a context slot written. -/
def setUnit (s : State) (u : Nat) (x : UnitRegs) : State := { s with units := mset s.units u x }
/-- The unit whose C-word runs. -/
def me (s : State) : UnitRegs := unitAt s s.cur
/-- The unit whose C-word runs, written. -/
def setMe (s : State) (x : UnitRegs) : State := setUnit s s.cur x
/-- The unit whose C-word runs, changed. -/
def modMe (s : State) (f : UnitRegs → UnitRegs) : State := setMe s (f (me s))
/-- The bank of a context slot. -/
def bankAt (s : State) (u : Nat) : Bank := (mget s.banks u).getD {}
/-- The bank of a context slot written. -/
def setBank (s : State) (u : Nat) (b : Bank) : State := { s with banks := mset s.banks u b }
/-- An element of a context slot. -/
def elemAt (s : State) (u e : Nat) : Elem := (mget s.elems (32 * u + e)).getD {}
/-- An element of a context slot written. -/
def setElem (s : State) (u e : Nat) (x : Elem) : State := { s with elems := mset s.elems (32 * u + e) x }
/-- A FIFO by number. -/
def fifoAt (s : State) (f : Nat) : Fifo := (mget s.fifos f).getD {}
/-- A FIFO written. -/
def setFifo (s : State) (f : Nat) (x : Fifo) : State := { s with fifos := mset s.fifos f x }
/-- A launch written. -/
def setLaunch (s : State) (l : Nat) (x : Launch) : State := { s with launches := mset s.launches l x }
/-- The launch of a unit. -/
def launchOf (s : State) (u : Nat) : Option Launch := mget s.launches (unitAt s u).launch
/-- The E-word of an element in a context slot; 0 where it is idle. -/
def ewordAt (s : State) (u e : Nat) : BitVec 32 := (mget (bankAt s u).words.ewords e).getD 0#32
/-- The timebase as a die reads it (R3). DEDUCED (log entry 10). -/
def tbOf (s : State) (die : Nat) : Nat := s.tb + Config.skew die % 3

/-! ## Registers (R19, R41, R42) -/

/-- A value source: a g, k or l register; g0 reads zero. Any other specifier has been refused before (R20). -/
def readVal (x : UnitRegs) (c : BitVec 7) : Word :=
  match decodeReg c with
  | some (.g n) => if n = 0#6 then 0#64 else x.g[n.toNat]'(n.isLt)
  | some (.k n) => x.k[n.toNat]'(n.isLt)
  | some (.l n) => x.l[n.toNat]'(n.isLt)
  | _ => 0#64

/-- A predicate source: p0 reads one. -/
def readPred (x : UnitRegs) (c : BitVec 7) : Bool :=
  match decodeReg c with
  | some (.p n) => if n = 0#3 then true else x.p[n.toNat]'(n.isLt)
  | _ => false

/-- A predicate by number: p0 reads one. -/
def predNum (x : UnitRegs) (n : BitVec 3) : Bool := if n = 0#3 then true else x.p[n.toNat]'(n.isLt)

/-- The last-result shift of R42. -/
def shiftLast (x : UnitRegs) (v : Word) : UnitRegs := { x with l := #v[v, x.l[0], x.l[1], x.l[2]] }

/-- A register written without the shift of R42: a write to g0 is discarded. -/
def putReg (x : UnitRegs) (c : BitVec 7) (v : Word) : UnitRegs :=
  match decodeReg c with
  | some (.g n) => if n = 0#6 then x else { x with g := x.g.set n.toNat v n.isLt }
  | some (.k n) => { x with k := x.k.set n.toNat v n.isLt }
  | _ => x

/-- A value destination written, and the last-result file shifted with the full value (R42). -/
def writeVal (x : UnitRegs) (c : BitVec 7) (v : Word) : UnitRegs := shiftLast (putReg x c v) v

/-- A predicate written by number: a write to p0 is discarded, and any write disarms the watch of that number (R121). -/
def putPred (x : UnitRegs) (n : BitVec 3) (v : Bool) : UnitRegs :=
  if n = 0#3 then x
  else { x with p := x.p.set n.toNat v n.isLt, watches := x.watches.set n.toNat none n.isLt }

/-- A predicate destination written. -/
def writePred (x : UnitRegs) (c : BitVec 7) (v : Bool) : UnitRegs :=
  match decodeReg c with
  | some (.p n) => putPred x n v
  | _ => x

/-- The status predicate p7 written. -/
def writeP7 (x : UnitRegs) (v : Bool) : UnitRegs := putPred x 7#3 v

/-- A tensor handle read. -/
def readHandle (x : UnitRegs) (c : BitVec 7) : Handle :=
  match decodeReg c with
  | some (.th n) => x.th[n.toNat]'(n.isLt)
  | _ => Vector.replicate 16 0#64

/-- A tensor handle written. -/
def writeHandle (x : UnitRegs) (c : BitVec 7) (h : Handle) : UnitRegs :=
  match decodeReg c with
  | some (.th n) => { x with th := x.th.set n.toNat h n.isLt }
  | _ => x

/-- k0, the length of a copy or a gather. -/
def regK0 (x : UnitRegs) : Word := x.k[0]
/-- k1, a counter address. -/
def regK1 (x : UnitRegs) : Word := x.k[1]
/-- k2. -/
def regK2 (x : UnitRegs) : Word := x.k[2]
/-- k3. -/
def regK3 (x : UnitRegs) : Word := x.k[3]

/-! ## STATUS and the other CSRs (R45) -/

/-- STATUS.M. -/
def modeM (x : UnitRegs) : Bool := bitOf x.csr.status 0
/-- STATUS.PM. -/
def modePM (x : UnitRegs) : Bool := bitOf x.csr.status 1
/-- STATUS.TD. -/
def statusTD (x : UnitRegs) : Bool := bitOf x.csr.status 2
/-- STATUS.FPTE. -/
def statusFPTE (x : UnitRegs) : BitVec 5 := x.csr.status.extractLsb' 8 5
/-- STATUS.SBTE. -/
def statusSBTE (x : UnitRegs) : Bool := bitOf x.csr.status 15
/-- STATUS.LPTE. -/
def statusLPTE (x : UnitRegs) : Bool := bitOf x.csr.status 14

/-- STATUS with M, PM and TD replaced. -/
def statusWith (st : Word) (m pm td : Bool) : Word := (st &&& ~~~7#64) ||| (word1 td <<< 2) ||| (word1 pm <<< 1) ||| word1 m

/-- FPFLAGS.FRM. -/
def regFRM (x : UnitRegs) : Rnd := rndOf (x.csr.fpflags.extractLsb' 8 2)

/-- FPFLAGS with exceptions merged (R75). -/
def mergeFlags (x : UnitRegs) (e : BitVec 5) : UnitRegs :=
  { x with csr := { x.csr with fpflags := x.csr.fpflags ||| e.setWidth 64 } }

/-- A CSR read by number (R24). -/
def readCsr (x : UnitRegs) (c : BitVec 12) : Word :=
  match c.toNat with
  | 0x000 => x.csr.status | 0x001 => x.csr.cause | 0x002 => x.csr.trappc | 0x003 => x.csr.trapval
  | 0x004 => x.csr.trapvec | 0x005 => x.csr.waitlim | 0x006 => x.csr.roundsz | 0x007 => x.csr.scopedef
  | 0x008 => x.csr.jobid | 0x009 => x.csr.launchid | 0x00A => x.csr.depth | 0x00B => x.csr.ctxid
  | 0x00C => x.csr.fpflags | 0x00D => x.csr.scopebr | 0x00E => x.csr.latecnt
  | _ => 0#64

/-- The bits of a CSR that are reserved, RZ (R45). -/
def csrReserved (c : BitVec 12) : Word :=
  match c.toNat with
  | 0x000 => 0xFFFFFFFFFFFF20F8#64
  | 0x001 => 0xFFFFFFFFFFFF0000#64
  | 0x002 => 3#64
  | 0x003 => 0#64
  | 0x004 => 3#64
  | 0x005 => 0xFFFFFFFF00000000#64
  | 0x006 => 0xFFFFFFFFFFFFE000#64
  | 0x007 => 0xFFFFFFFFFFFFFFF8#64
  | 0x00C => 0xFFFFFFFFFFFFFCE0#64
  | 0x00D => 0xFFFFFFFF00000000#64
  | 0x00E => 0xFFFFFFFF00000000#64
  | _ => 0xFFFFFFFFFFFFFFFF#64

/-- Whether R45 refuses a value for a CSR. -/
def csrRefused (c : BitVec 12) (v : Word) : Bool :=
  decide (v &&& csrReserved c ≠ 0#64) ||
  (match c.toNat with
   | 0x005 => decide (v.toNat < 16)
   | 0x006 => !([64, 128, 256, 512, 1024, 2048, 4096].contains v.toNat)
   | 0x007 => decide (v.toNat ≥ 5)
   | _ => false)

/-- A CSR written by number, its RO fields kept: STATUS.M (R43, R45). -/
def writeCsr (x : UnitRegs) (c : BitVec 12) (v : Word) : UnitRegs :=
  match c.toNat with
  | 0x000 => { x with csr := { x.csr with status := (v &&& ~~~1#64) ||| (x.csr.status &&& 1#64) } }
  | 0x001 => { x with csr := { x.csr with cause := v } }
  | 0x002 => { x with csr := { x.csr with trappc := v } }
  | 0x003 => { x with csr := { x.csr with trapval := v } }
  | 0x004 => { x with csr := { x.csr with trapvec := v } }
  | 0x005 => { x with csr := { x.csr with waitlim := v } }
  | 0x006 => { x with csr := { x.csr with roundsz := v } }
  | 0x007 => { x with csr := { x.csr with scopedef := v } }
  | 0x00C => { x with csr := { x.csr with fpflags := v } }
  | 0x00D => { x with csr := { x.csr with scopebr := v } }
  | 0x00E => { x with csr := { x.csr with latecnt := v } }
  | _ => x

/-- A count that saturates at 0xFFFF_FFFF (R45). -/
def sat32 (v : Word) : Word := if v.toNat ≥ 0xFFFFFFFF then v else v + 1#64

end Sys2Proof.Machine
end

