-- ==== Sys2Proof/Machine/Events.lean ====
section
/-!
DEFINITION. Memory events: the lines that an access touches, their leases and times (R296), and the accesses that wait for
a pinned round (R257).
-/

namespace Sys2Proof.Machine

open Sys2Proof

/-! ## Memory events -/

/-- The lines that n bytes from an address touch. -/
def linesOf (a n : Nat) : List Nat := (List.range ((a % 64 + n + 63) / 64)).map fun k => a / 64 + k

/-- What a memory event leaves: memory, the thread's time, and whether it was a breach. -/
structure MemEvent where
  mem : Memory
  pts : Nat
  br  : Bool

/-- The time of a load event on lines by a thread at a time: past each line's last store (R296). -/
def loadTime (m : Memory) (pts : Nat) (l : List Nat) : Nat := l.foldl (fun p ln => max p (getLine m ln).wts) pts

/-- The time of a store, atomic or reduction event on lines by a thread at a time: past every lease of each line (R296). -/
def storeTime (m : Memory) (pts : Nat) (l : List Nat) : Nat := l.foldl (fun p ln => max p ((getLine m ln).rts + 1)) pts

/-- Load events on lines by a tile's thread (R296). -/
def leaseLines (m : Memory) (t tb : Nat) (scope : Option Nat) (sa : Bool) (pts : Nat) : List Nat → MemEvent
  | [] => ⟨m, pts, false⟩
  | ln :: l =>
    let x := approach m (64 * ln) t scope sa tb
    let y := leaseLine x.1 t pts
    let r := leaseLines (setLine m ln y.1) t tb scope sa y.2 l
    { r with br := x.2 || r.br }

/-- Store, atomic or reduction events on lines by a tile's thread (R296). -/
def stampLines (m : Memory) (t tb : Nat) (scope : Option Nat) (sa : Bool) (pts : Nat) : List Nat → MemEvent
  | [] => ⟨m, pts, false⟩
  | ln :: l =>
    let x := approach m (64 * ln) t scope sa tb
    let y := stampLine x.1 pts
    let r := stampLines (setLine m ln y.1) t tb scope sa y.2 l
    { r with br := x.2 || r.br }

/-- A read of n bytes as an event, at one time for all its lines: only line states change, and single-bit errors are
corrected (R170, R296). -/
def readEvent (m : Memory) (a n t tb : Nat) (scope : Option Nat) (sa : Bool) (pts : Nat) : MemEvent :=
  leaseLines (correct m a n) t tb scope sa (loadTime m pts (linesOf a n)) (linesOf a n)

/-- An atomic on n bytes in one line as an event, before it writes (R296). -/
def atomicEvent (m : Memory) (a n t tb : Nat) (scope : Option Nat) (sa : Bool) (pts : Nat) : MemEvent :=
  stampLines (correct m a n) t tb scope sa pts [lineOf a]

/-- A write of bytes as an event, at one time for all its lines; a word that it covers in part is read first (R170,
R296). -/
def writeEvent (m : Memory) (a : Nat) (bs : List Byte) (t tb : Nat) (scope : Option Nat) (sa : Bool) (pts : Nat) : MemEvent :=
  let ls := linesOf a bs.length
  let r := stampLines (correctEdges m a bs.length) t tb scope sa (storeTime m pts ls) ls
  { r with mem := clearPoison (wrBytes r.mem a bs) a bs.length }

/-- A read of n bytes at each of two addresses as one event (R123). -/
def readEvent2 (m : Memory) (a b n t tb : Nat) (sa : Bool) (pts : Nat) : MemEvent :=
  let e := readEvent m a n t tb none sa (loadTime m pts (linesOf b n))
  readEvent e.mem b n t tb none sa e.pts

/-- A write of bytes at each of two addresses as one event (R123). -/
def writeEvent2 (m : Memory) (a b : Nat) (as bs : List Byte) (t tb : Nat) (sa : Bool) (pts : Nat) : MemEvent :=
  let p := storeTime m (storeTime m pts (linesOf a as.length)) (linesOf b bs.length)
  let e := writeEvent m a as t tb none sa p
  writeEvent e.mem b bs t tb none sa p

/-- Whether a line is held by a pinned round of a series other than the one given (R257, R300). -/
def pinnedBy (s : State) (own : Option Nat) (ln : Nat) : Bool :=
  s.series.any fun p => decide (own ≠ some p.1) && p.2.rounds.any fun r => r.pinned && (mget r.loads ln).isSome

/-- Whether a store to n bytes from an address must wait for a pinned round. DEDUCED (log entry 26). DEDUCED (log entry 89). -/
def pinnedRange (s : State) (own : Option Nat) (a n : Nat) : Bool := (linesOf a n).any (pinnedBy s own)

end Sys2Proof.Machine
end

