-- ==== Sys2Proof/Machine/Rounds.lean ====
section
/-!
DEFINITION. Round series: where they are kept (R253), how a round closes and commits (R255, R300), and how rounds are
voided and replayed (R256, R257).
-/

namespace Sys2Proof.Machine

open Sys2Proof

/-! ## Token types (R36) -/

/-- DATA. -/
def tyData : BitVec 4 := 0#4
/-- DIGIT. -/
def tyDigit : BitVec 4 := 1#4
/-- HDR. -/
def tyHdr : BitVec 4 := 2#4
/-- EOS. -/
def tyEos : BitVec 4 := 3#4
/-- ERR. -/
def tyErr : BitVec 4 := 5#4
/-- CTOK. -/
def tyCtok : BitVec 4 := 6#4
/-- MRK. -/
def tyMrk : BitVec 4 := 7#4
/-- CFG. -/
def tyCfg : BitVec 4 := 8#4
/-- SCALE. -/
def tyScale : BitVec 4 := 9#4
/-- TAG. -/
def tyTag : BitVec 4 := 10#4

/-- An EOS of at least a rank (R164). -/
def Token.eosAtLeast (t : Token) (r : Nat) : Bool := decide (t.ty = tyEos) && decide (r ≤ t.rank.toNat)
/-- A token that ends a round: a TAG, or an EOS of rank 1 or higher (R252). -/
def Token.ends (t : Token) : Bool := decide (t.ty = tyTag) || t.eosAtLeast 1
/-- The boundaries among tokens. -/
def boundaries (q : List Token) : Nat := (q.filter Token.ends).length

/-! ## Places -/

/-- The image context of a slot within its launch (R247). -/
def imageCtx (s : State) (u : Nat) : Nat :=
  match (bankAt s u).launch.bind fun l => mget s.launches l with
  | some l => ctxOf u - l.base
  | none => ctxOf u

/-- The key of a slot's round series (R253); a slot without a launch has one of its own. DEDUCED (log entry 69). -/
def seriesOf (s : State) (u : Nat) : Nat :=
  match (bankAt s u).launch with
  | some l => 4 * l + imageCtx s u
  | none => 2 ^ 60 + 4 * u

/-- The slots of a series: the tiles of the launch in one context (R253). -/
def seriesSlots (s : State) (key : Nat) : List Nat :=
  if 2 ^ 60 ≤ key then [(key - 2 ^ 60) / 4]
  else
    match mget s.launches (key / 4) with
    | some l => (launchTiles l).map fun t => 4 * t + l.base + key % 4
    | none => []

/-- A series by key. -/
def seriesAt (s : State) (key : Nat) : Series := (mget s.series key).getD {}
/-- A series written. -/
def setSeries (s : State) (key : Nat) (x : Series) : State := { s with series := mset s.series key x }

/-- The elements of slots that are not idle, with their E-words. -/
def activeElems (s : State) (slots : List Nat) : List (Nat × Nat × BitVec 32) :=
  slots.flatMap fun u => (bankAt s u).words.ewords.filterMap fun p => if p.2 = 0#32 then none else some (u, p.1, p.2)

/-- The next round to commit. -/
def Series.next (x : Series) : Nat := (x.lastc + 1#32).toNat
/-- A round of a series by number. -/
def Series.round (x : Series) (n : Nat) : Round := (x.rounds.find? fun r => decide (r.num = n)).getD { num := n }
/-- A round of a series written. -/
def Series.setRound (x : Series) (r : Round) : Series :=
  { x with rounds := (x.rounds.filter fun y => decide (y.num < r.num)) ++ [r] ++ x.rounds.filter fun y => decide (r.num < y.num) }

/-- Whether a command starts or carries a stream. -/
def Command.runs : Command → Bool
  | .arg _ _ => false
  | _ => true

/-- Whether an element runs a stream or has one to come. -/
def Elem.runs (x : Elem) : Bool := x.stream.isSome || x.cmds.any Command.runs

/-- The FIFOs of a slot (R160). -/
def slotFifos (s : State) (u : Nat) : Map Fifo := s.fifos.filter fun f => decide (f.1 / 256 = u)

/-- Whether anything of a series' slots still runs or moves. -/
def seriesBusy (s : State) (slots : List Nat) : Bool :=
  slots.any fun u =>
    (s.elems.any fun e => decide (e.1 / 32 = u) && (e.2.runs || !e.2.out.isEmpty)) ||
    (slotFifos s u).any fun f => !f.2.q.isEmpty || !f.2.inject.isEmpty

/-- Whether an element has passed the boundary of a round that has not committed since (R255): its TAG, or an EOS of rank 1
or higher while the round's shadow stands. -/
def Elem.hasPassed (x : Elem) (n : Nat) : Bool := decide (n < x.round) || (x.fin && x.shadows.any fun h => decide (h.round = n))

/-- The largest round that an element of the slots has reached, the boundaries that it has passed counted. -/
def topRound (s : State) (slots : List Nat) : Nat :=
  s.elems.foldl (fun m e =>
    if slots.contains (e.1 / 32) then max m (if e.2.hasPassed e.2.round then e.2.round + 1 else e.2.round) else m) 0

/-- The largest round that an element of the slots has opened: a round step opens the next round, and the final EOS of a
stream opens none (R254, R255). -/
def lastRound (s : State) (slots : List Nat) : Nat :=
  s.elems.foldl (fun m e =>
    if slots.contains (e.1 / 32) then max m (if e.2.hasPassed e.2.round && !e.2.ended then e.2.round + 1 else e.2.round)
    else m) 0

/-- The rounds that are open: uncommitted, and reached by the stream (R254, R282). -/
def openRounds (s : State) (key : Nat) : List Nat :=
  let slots := seriesSlots s key
  let top := if seriesBusy s slots then lastRound s slots + 1 else topRound s slots
  let n := (seriesAt s key).next
  (List.range (top - n)).map fun k => n + k

/-! ## Opening (R253, R254) -/

/-- The endpoint of an element that runs SINK with EGR (R226). -/
def egressOf (s : State) (u e : Nat) : Option Nat :=
  let w := ewordAt s u e
  if eopOf w = 0x7F ∧ bitOf w 0 then some ((elemAt s u e).work.args[0].toNat % 32) else none

/-- The bytes written to an endpoint's egress range. -/
def egressCount (s : State) (ep : Nat) : Nat := (s.endpoints.toList.getD ep {}).egrcnt

/-- The shadow of an element for a round that opens (R254): for the matrix array, with the rows that its context has
claimed, and without what the converter has passed on of that round; for a SINK, with its egress offset. -/
def shadowOf (s : State) (u e : Nat) (n : Nat) : Shadow :=
  let x := elemAt s u e
  let off := ((egressOf s u e).map (egressCount s)).getD 0
  { round := n, work := { x.work with intake := { x.work.intake with chain := [] }, offset := off },
    stream := x.stream, fin := x.fin,
    ended := x.ended, passed := x.passed,
    claims := if e = 9 then (s.claims.filter fun c => decide (c.2 = u)).map Prod.fst else []
    rows := if e = 9 then s.rows.filter fun r => decide (mget s.claims r.1 = some u) else [] }

/-- An element's state copied into the shadow of the round that opens (R254 step 2). -/
def takeShadow (s : State) (u e : Nat) (n : Nat) : State :=
  let x := elemAt s u e
  setElem s u e { x with shadows := (x.shadows.filter fun h => decide (h.round < n)) ++ [shadowOf s u e n] }

/-- A unit of a series that opens anew: the rounds that its RCLOSE 0 awaits have committed (R281). -/
def endAwait (x : UnitRegs) : UnitRegs :=
  match x.wait with
  | some w => if w.kind = .roundClose then { x with wait := some { w with aux := 0 } } else x
  | none => x

/-- A series opened at a fork by unit u (R253): rounds are counted from 0, and every element's state is the shadow of
round 0. -/
def openSeries (s : State) (key u : Nat) : State :=
  let slots := seriesSlots s key
  let x := seriesAt s key
  let s1 := { s with
    elems := s.elems.map fun e =>
      if slots.contains (e.1 / 32) then
        (e.1, { e.2 with round := 0, fin := false, shadows := [], passed := e.2.passed.map fun p => (p.1, none),
                         copies := [], work := { e.2.work with eoss := 0 } })
      else e
    fifos := s.fifos.map fun f => if slots.contains (f.1 / 256) then (f.1, { f.2 with round := 0 }) else f
    units := s.units.map fun y => if slots.contains y.1 then (y.1, endAwait y.2) else y }
  let s2 := setSeries s1 key
    { x with isOpen := true, forkUnit := u, scopedef := (unitAt s u).csr.scopedef.toNat,
             handles := (unitAt s u).th, rounds := [], lastc := 0xFFFFFFFF#32, pts := max x.pts (unitAt s u).pts }
  (activeElems s2 slots).foldl (fun s e => takeShadow s e.1 e.2.1 0) s2

/-- A stream forked in a slot: it joins the open series, or opens one (R253). The stream's events follow the thread's
earlier ones (R109). -/
def forkStream (s : State) (u : Nat) : State :=
  let key := seriesOf s u
  let x := seriesAt s key
  if x.isOpen && (seriesBusy s (seriesSlots s key) || !(openRounds s key).isEmpty) then
    setSeries s key { x with pts := max x.pts (unitAt s u).pts }
  else openSeries s key u

/-! ## Closing and committing (R255, R300) -/

/-- The time at which a round commits (R300). -/
def commitTime (m : Memory) (pts : Nat) (r : Round) : Nat :=
  let p := r.stores.foldl (fun t x => (linesOf x.pa x.size).foldl (fun t ln => max t ((getLine m ln).rts + 1)) t) pts
  r.loads.foldl (fun t x => max t x.2) p

/-- Whether a lease of a round cannot be extended to its commit (R300): a store made to a line that it loaded lies between
the version read and the commit. -/
def leaseFails (m : Memory) (tc : Nat) (r : Round) : Bool :=
  r.loads.any fun x => (getLine m x.1).stores.any fun w => decide (x.2 < w) && decide (w ≤ tc)

/-- The order of pinned rounds (R257): the launch's deadline, then the lower LAUNCHID, then the lower context. Where two
dies' launches agree in both, the lower die comes first. DESIGN CHOICE (log entry 101). -/
def pinnedBefore (s : State) (a b : Nat) : Bool :=
  let d := fun k => match mget s.launches (k / 4) with
    | some l => if l.deadline = 0 then 2 ^ 64 else l.deadline
    | none => 2 ^ 64
  let lt := fun (x y : Nat) => decide (x < y)
  lt (d a) (d b) || (decide (d a = d b) && (lt (a / 4 % 2 ^ 32) (b / 4 % 2 ^ 32) ||
    (decide (a / 4 % 2 ^ 32 = b / 4 % 2 ^ 32) && lt a b)))

/-- Whether a round leases a line of another's stores (R257). -/
def Round.leasesOf (r q : Round) : Bool :=
  q.stores.any fun x => (linesOf x.pa x.size).any fun ln => (mget r.loads ln).isSome

/-- Whether a round's stores must wait for a pinned round of another series (R257, R300): not where both are pinned, each
leases lines of the other's stores, and it is ordered before the other. -/
def commitWaits (s : State) (key : Nat) (r : Round) : Bool :=
  s.series.any fun p => decide (p.1 ≠ key) && p.2.rounds.any fun q =>
    q.pinned && q.leasesOf r && !(r.pinned && r.leasesOf q && pinnedBefore s key p.1)

/-- A line's times set at a commit. -/
def stampAt (m : Memory) (tc ln : Nat) : Memory :=
  setLine m ln { getLine m ln with wts := tc, rts := tc, leases := [], stores := tc :: (getLine m ln).stores }

/-- The stores of a round made at one time, in wave order (R300). -/
def makeStores (m : Memory) (tc : Nat) : List RoundStore → Memory
  | [] => m
  | x :: l =>
    let m1 := (linesOf x.pa x.size).foldl (fun m ln => stampAt m tc ln) m
    makeStores (clearPoison (wrNum (correctEdges m1 x.pa x.size) x.pa x.size x.value.toNat) x.pa x.size) tc l

/-- The leases of a round extended to its commit (R300). -/
def extendLeases (m : Memory) (tc : Nat) (r : Round) : Memory :=
  r.loads.foldl (fun m x => setLine m x.1 { getLine m x.1 with rts := max (getLine m x.1).rts tc }) m

/-- The loads of a later round of the same series, after the series itself stored to lines whose times were `old`. -/
def restamp (old new : Memory) (lines : List Nat) (r : Round) : Round :=
  { r with loads := r.loads.map fun x =>
      if lines.contains x.1 && decide (x.2 = (getLine old x.1).wts) then (x.1, (getLine new x.1).wts) else x }

/-- The oldest open round committed (R255, R300): its leases extended, its stores made at one time, its shadows dropped.
Its stores to region windows are left to the commit's event. -/
def commitRound (s : State) (key n : Nat) : State :=
  let x := seriesAt s key
  let r := x.round n
  let tc := commitTime s.mem x.pts r
  let stores := r.stores.filter fun y => decide (paClass y.pa ≠ 3)
  let m := makeStores (extendLeases s.mem tc r) tc stores
  let lines := stores.flatMap fun y => linesOf y.pa y.size
  let slots := seriesSlots s key
  let s1 := { s with
    mem := m
    elems := s.elems.map fun e =>
      if slots.contains (e.1 / 32) then
        (e.1, { e.2 with
          round := if e.2.fin && decide (e.2.round ≤ n) then n + 1 else e.2.round
          shadows := e.2.shadows.filter fun h => decide (n < h.round)
          passed := e.2.passed.map fun p => if p.2.any fun r => decide (r ≤ n) then (p.1, none) else p })
      else e }
  setSeries s1 key
    { x with lastc := BitVec.ofNat 32 n, pts := tc,
             rounds := (x.rounds.filter fun y => decide (n < y.num)).map (restamp s.mem m lines) }

/-! ## What a load of the datapath sees (R171, R299) -/

/-- The stores of a tile that rounds up to n of a series have buffered, in order (R171, R208). -/
def bufferedStores (x : Series) (n t : Nat) : List RoundStore :=
  (x.rounds.filter fun r => decide (r.num ≤ n)).flatMap fun r => r.stores.filter fun y => decide (y.tile = t)

/-- What a load event of n bytes finds among buffered stores (R299): no store to any of its bytes, a last store that
covers only some of them, or the value that the last store forwards. -/
inductive Forward where
  | none | part
  | value (v : Nat)
deriving DecidableEq, Repr

/-- The last buffered store to some of n bytes, as a load of them sees it (R299). DEDUCED (log entry 52). -/
def forward (st : List RoundStore) (a n : Nat) : Forward :=
  match st.reverse.find? fun y => decide (y.pa < a + n) && decide (a < y.pa + y.size) with
  | none => .none
  | some y =>
    if y.pa ≤ a ∧ a + n ≤ y.pa + y.size then .value (y.value.toNat / 2 ^ (8 * (a - y.pa)) % 2 ^ (8 * n)) else .part

/-- The value that a load event of n bytes takes, from a buffered store or from memory; none while it waits for a store that
covers it in part (R299). -/
def seenValue (st : List RoundStore) (m : Memory) (a n : Nat) : Option Nat :=
  match forward st a n with
  | .none => some (rdNum m a n)
  | .part => none
  | .value v => some v

/-! ## Voiding (R256) -/

/-- The first tokens of a list, through its k-th boundary; all of them where it has fewer. -/
def throughBoundary : Nat → List Token → List Token
  | 0, _ => []
  | _ + 1, [] => []
  | k + 1, t :: l => t :: throughBoundary (if t.ends then k else k + 1) l

/-- The tokens ahead of the boundary that opens round n, in a list whose first token lies in round r. -/
def aheadOf (n r : Nat) (q : List Token) : List Token := throughBoundary (n - r) q

/-- A FIFO after a void of round n and later (R256 step 2): a slot freed is owed to its sender; kills are forgotten.
DEDUCED (log entry 68). -/
def voidFifo (n : Nat) (f : Fifo) : Fifo :=
  let q := aheadOf n f.round f.q
  { f with q := q, owed := f.owed + (f.q.length - q.length), killed := [], final := false, chan := [],
           inject := aheadOf n f.round f.inject, round := min f.round n }

/-- The shadow of round n of an element. -/
def Elem.shadowAt (x : Elem) (n : Nat) : Option Shadow := x.shadows.find? fun h => decide (h.round = n)

/-- An element after a void of round n and later (R256 steps 2 to 4): restored from the shadow of round n, its source
rewound, and what it took since to be taken again. -/
def voidElem (n : Nat) (x : Elem) : Elem :=
  let top := if x.fin && decide (0 < boundaries x.out) then x.round + 1 else x.round
  let out := aheadOf n (top - boundaries x.out) x.out
  let y := { x with out := out, killIn := [], saved := false, markOut := false, parked := false }
  match x.shadowAt n with
  | none =>
    let r := if x.fin then x.round + 1 else x.round
    { y with work := { x.work with intake := { x.work.intake with chain := aheadOf n r x.work.intake.chain } } }
  | some h =>
    { y with work := h.work, stream := h.stream, cmds := h.taken ++ x.cmds, passed := h.passed, round := n, fin := h.fin,
             ended := h.ended,
             shadows := (x.shadows.filter fun g => decide (g.round < n)) ++ [{ h with taken := [], ingress := [], fresh := [] }] }

/-- A host token put back at the head of an endpoint's entries; its stream is open again. -/
def putBack (t : Nat × Token) (s : State) : State :=
  if h : t.1 < 32 then
    let x := s.endpoints[t.1]
    { s with endpoints := s.endpoints.set t.1 { x with ingress := t.2 :: x.ingress, isOpen := true } h }
  else s

/-- The host tokens that a void returns to their endpoints (R256 step 4). -/
def returnIngress (s : State) (n : Nat) (x : Elem) : State :=
  match x.shadowAt n with
  | none => s
  | some h => h.ingress.foldr putBack s

/-- The egress offset of a SINK's endpoint as it was in the shadow of round n (R254, R256). -/
def returnEgress (s : State) (u e n : Nat) : State :=
  match egressOf s u e, (elemAt s u e).shadowAt n with
  | some ep, some h =>
    if hp : ep < 32 then
      let x := s.endpoints[ep]
      { s with endpoints := s.endpoints.set ep { x with egrcnt := h.work.offset } hp }
    else s
  | _, _ => s

/-- One accumulator row as a shadow holds it (R254); a row that another context has claimed since stays as it is. -/
def voidRow (u : Nat) (h : Shadow) (s : State) (r : Nat) : State :=
  if (mget s.claims r).any fun c => decide (c ≠ u) then s
  else { s with rows := mput s.rows r (mget h.rows r), claims := mset s.claims r u }

/-- A row that an element was first to claim in round n or later: it holds again what it held, and nobody claims it. -/
def freeRow (u : Nat) (h : Shadow) (s : State) (r : Nat) : State :=
  if (mget s.claims r).any fun c => decide (c ≠ u) then s
  else { s with rows := mput s.rows r (mget h.rows r), claims := mdel s.claims r }

/-- The accumulator rows that a slot's context claims as they stood when round n opened, and no other row (R254, R256): those
that it claimed first in round n or later are free again, and those that it claimed then are its own.
DEDUCED (log entry 121). -/
def voidRows (s : State) (u n : Nat) : State :=
  let ms := (s.elems.filter fun e => decide (e.1 / 32 = u)).filterMap fun e => e.2.shadowAt n
  let s1 := ms.foldl (fun s h => h.fresh.foldl (freeRow u h) s) s
  match (elemAt s u 9).shadowAt n with
  | none => s1
  | some h => h.claims.foldl (voidRow u h) s1

/-- A route after a void of round n and later: what it holds of an earlier round it presents again from the start. -/
def voidRoute (n : Nat) (r : RouteState) : RouteState :=
  let k := decide (r.round < n)
  { r with held := if k then r.held else [], full := k && r.full, pos := 0, last := min r.last n,
           ended := r.ended && decide (r.last < n), saved := false }

/-- A slot's elements, FIFOs, rows and parked firings after a void of round n and later. -/
def voidSlot (n : Nat) (s : State) (u : Nat) : State :=
  let s1 := (s.elems.filter fun e => decide (e.1 / 32 = u)).foldl
    (fun s e => returnEgress (returnIngress s n e.2) u (e.1 % 32) n) s
  let s2 := voidRows s1 u n
  { s2 with
    elems := s2.elems.map fun e => if e.1 / 32 = u then (e.1, voidElem n e.2) else e
    fifos := s2.fifos.map fun f => if f.1 / 256 = u then (f.1, voidFifo n f.2) else f
    twaiters := s2.twaiters.filter fun w => !(w.elem && decide (w.who / 32 = u))
    kills := s2.kills.filter fun k => decide (k.fifo / 256 ≠ u)
    banks := s2.banks.map fun b =>
      if b.1 = u then (b.1, { b.2 with routes := b.2.routes.map fun r => (r.1, voidRoute n r.2), wave := none }) else b }

/-- The oldest open round of a series and every later one voided (R256); `lease` says that a lease failed, which counts
towards pinning (R257). -/
def voidRounds (s : State) (key : Nat) (lease : Bool) : State :=
  let x := seriesAt s key
  let n := x.next
  let r := x.round n
  let count := (openRounds s key).length
  let s1 := (seriesSlots s key).foldl (voidSlot n) s
  let fails := if lease && !r.pinned then r.fails + 1 else r.fails
  setSeries s1 key
    { x with rounds := [{ num := n, fails := fails, pinned := r.pinned || decide (2 ≤ fails) }]
             voids := min 65535 (x.voids + count) }

end Sys2Proof.Machine
end

