-- ==== Sys2Proof/Machine/Status.lean ====
section
/-!
DEFINITION. Accesses by device agents under a job's tables, and the counters of launches, graphs, phases and jobs with
their status words (R317).
-/

namespace Sys2Proof.Machine

open Sys2Proof

/-! ## Device accesses under a job's tables -/

/-- The tile of a launch's origin. -/
def originTile (l : Launch) : Nat := tileAt (originX l) (originY l)

/-- The requester of translation for the device acting for a launch, at its origin page (R316); a launch that holds no pages
has no windows. -/
def launchReq (l : Launch) : Requester :=
  { who := 16 * originTile l + 3, tile := originTile l, job := l.job, lch := if l.holds then some l else none }

/-- A translation by a device agent, with the state it leaves. -/
def xlateD (s : State) (q : Requester) (k : Access) (va : Word) : Option (XOk × State) :=
  match translate s q k va with
  | (.ok x, s') => some (x, s')
  | (.error _, _) => none

/-- n bytes read from virtual addresses by a device agent, none where some page does not translate. -/
def readVirt (s : State) (q : Requester) (k : Access) (va : Word) : Nat → Option (List Byte)
  | 0 => some []
  | n + 1 =>
    match translate s q k va with
    | (.error _, _) => none
    | (.ok x, _) => (readVirt s q k (va + 1#64) n).map fun l => rdByte s.mem x.pa :: l

/-! ## Counters and their status words (R317) -/

/-- Bit CAN of a status word. -/
def stCan : Nat := 1
/-- Bit ERR of a status word. -/
def stErr : Nat := 2
/-- Bit DONE of a status word. -/
def stDone : Nat := 4
/-- Bit LATE of a status word. -/
def stLate : Nat := 8

/-- A counter's value and status changed as one event at its home, by a thread at a time (R317): the state, and the event's
time. Address 0 names no counter, and a counter that does not translate is left as it is. -/
def counterEvent (s : State) (q : Requester) (va : Word) (pts : Nat) (f : Word → Word → Word × Word) : State × Nat :=
  if va = 0#64 then (s, pts)
  else
    match xlateD s q .atomic va with
    | none => (s, pts)
    | some (x, s') =>
      let old := (rd64 s'.mem x.pa, rd64 s'.mem (x.pa + 8))
      let r := f old.1 old.2
      if r = old then (s', pts)
      else
        let e := writeEvent (correct s'.mem x.pa 16) x.pa (toBytes 8 r.1.toNat ++ toBytes 8 r.2.toNat) q.tile s'.tb none x.sa pts
        ({ s' with mem := e.mem }, e.pts)

/-- A counter's value and status changed, without regard to the event's time. -/
def updateCounter (s : State) (q : Requester) (va : Word) (f : Word → Word → Word × Word) : State := (counterEvent s q va 0 f).1

/-- A value with 1 added, up to the greatest value. -/
def addOne (v : Word) : Word := if v = BitVec.allOnes 64 then v else v + 1#64

/-- A cancelled level's counter (R319): all ones with CAN, unless the level is done. -/
def cancelCounter (s : State) (q : Requester) (va : Word) : State :=
  updateCounter s q va fun v st =>
    if bitOf st 2 then (v, st) else (BitVec.allOnes 64, st ||| BitVec.ofNat 64 stCan)

/-- Status bits of a counter set, its value kept. -/
def markStatus (s : State) (q : Requester) (va : Word) (bits : Nat) : State :=
  updateCounter s q va fun v st => (v, st ||| BitVec.ofNat 64 bits)

/-- The phase counter of the graph that a launch names; 0 for none (R346). -/
def phaseOf (s : State) (x : Launch) : Word :=
  match s.graphs.find? fun g => decide (g.job = x.job) && decide (g.ctr = x.gctr) && decide (x.gctr ≠ 0#64) with
  | some g => g.phase
  | none => 0#64

/-- The counters of the levels to which a launch belongs: launch, graph, phase and job (R317). -/
def levelCounters (s : State) (x : Launch) : List Word := [x.lctr, x.gctr, phaseOf s x, (policyOf s x.job).ctr]

/-- ERR set in the counters of every level to which a launch belongs (R172, R317). -/
def markLaunchErr (s : State) (l : Nat) : State :=
  match mget s.launches l with
  | none => s
  | some x => (levelCounters s x).foldl (fun s va => markStatus s (launchReq x) va stErr) s

/-- The engine operations of launches that satisfy a condition, not yet joined (R317, PEND). -/
def pendOf (s : State) (p : Nat → Launch → Bool) : Nat :=
  min 65535 (s.engines.filter fun e => match mget s.launches e.2.launch with
    | some l => p e.2.launch l
    | none => false).length

/-- A status word with PEND replaced. -/
def withPend (st : Word) (n : Nat) : Word := (st &&& 0xFFFF0000FFFFFFFF#64) ||| (BitVec.ofNat 64 n <<< 32)

/-- PEND of the counters of every level to which a launch belongs written (R317). -/
def refreshPend (s : State) (l : Nat) : State :=
  match mget s.launches l with
  | none => s
  | some x =>
    let put := fun (s : State) (va : Word) (n : Nat) => updateCounter s (launchReq x) va fun v st =>
      (v, if bitOf st 2 || bitOf st 0 then st else withPend st n)
    let sameGraph := fun (y : Launch) => decide (y.job = x.job) && decide (y.gctr = x.gctr)
    let samePhase := fun (y : Launch) => decide (y.job = x.job) && decide (phaseOf s y = phaseOf s x)
    let s1 := put s x.lctr (pendOf s fun k _ => decide (k = l))
    let s2 := put s1 x.gctr (pendOf s fun _ y => sameGraph y)
    let s3 := put s2 (phaseOf s x) (pendOf s fun _ y => samePhase y)
    put s3 (policyOf s x.job).ctr (pendOf s fun _ y => decide (y.job = x.job))

end Sys2Proof.Machine
end

