-- ==== Sys2Proof/Machine/Window.lean ====
section
/-!
DEFINITION. The region window of a page as it reads (R263).
-/

namespace Sys2Proof.Machine

open Sys2Proof

/-- EFR.V of an element. -/
def Elem.frozen (x : Elem) : Bool := bitOf x.efr 63

/-- The tile that a page's RCSEL selects. -/
def selTile (pg : Nat) (p : Page) : Nat :=
  let k := field p.rcsel 3 0
  1024 * (pg / 64) + 32 * (4 * (pg % 64 / 8) + k / 4) + 4 * (pg % 8) + k % 4
/-- The slot that RCSEL selects. -/
def selSlot (pg : Nat) (p : Page) : Nat := 4 * selTile pg p + field p.rcsel 5 4
/-- The element that RCSEL selects, 24 for the control thread. -/
def selElem (p : Page) : Nat := field p.rcsel 10 6

/-- ESR of an element as it reads: FRZ is a copy of EFR.V, and the converter's opstat a copy of UCNT (R174, R200). -/
def esrOf (x : Elem) (e : Nat) : Word :=
  let v := (x.esr &&& 0xFFDF#64) ||| (word1 x.frozen <<< 5)
  if e = 22 then (v &&& 0x00FF#64) ||| BitVec.ofNat 64 (x.work.cvUcnt * 256) else v

/-- CVSR of the converter (R200). -/
def cvsrOf (x : Elem) (e : Nat) : Word :=
  if e = 22 then BitVec.ofNat 64 (x.work.cvBlk * 4096 + (if x.work.cvStep then 256 else 0) + x.work.cvUcnt) else 0#64

/-- BUSY of RCSTAT: a snapshot that RCCMD 3 asked for is being made in the page. DEDUCED (log entry 107). -/
def pageBusy (s : State) (pg : Nat) : Bool :=
  s.launches.any fun l => decide (l.2.inPlace = some 5#8) && (decide (l.2.st = .saving) || decide (l.2.st = .restoring)) &&
    (launchTiles l.2).any fun t => decide (pageOfTile t = pg)

/-- A read of the region window of a page (R263). -/
def regionRead (s : State) (pg off : Nat) : Word :=
  let p := pageAt s pg
  let u := selSlot pg p
  let e := selElem p
  let x := elemAt s u e
  let y := unitAt s u
  match off with
  | 0x000 => BitVec.ofNat 64 pg
  | 0x008 => p.rcsel
  | 0x010 => x.efr
  | 0x018 => x.efv
  | 0x020 => esrOf x e
  | 0x028 => cvsrOf x e
  | 0x038 => BitVec.ofNat 64 ((if pageBusy s pg then 1 else 0) + (if p.qwait then 2 else 0) + (if p.ref then 4 else 0) + min 65535 p.records.length * 65536)
  | 0x040 => y.pc
  | 0x048 => y.csr.trappc
  | 0x050 => y.csr.cause
  | 0x058 => y.csr.trapval
  | 0x060 => y.csr.status
  | _ => 0#64

/-- The page of a region-window address (R289). -/
def windowPage (a : Nat) : Nat := a / 2 ^ 12 % 2 ^ 8
/-- Whether an address lies in a region window. -/
def isRegion (a : Nat) : Bool := decide (paClass a = 3)

/-- The number that a read of n bytes at a physical address finds: a register of a region window, or memory. -/
def readAt (s : State) (pa n : Nat) : Nat :=
  if isRegion pa then (regionRead s (windowPage pa) (pa % 4096)).toNat else rdNum s.mem pa n

end Sys2Proof.Machine
end

