-- ==== Sys2Proof/Machine/Ops.lean ====
section
/-!
DEFINITION. The operations that the C-words share: traps and their entry (R50 to R54), fault records (R175) and security
reports (R379), the order of a C-word's checks (R13, R23), memory events of a thread (R91 to R93, R296), tagged words and
their waiters (R96, R97), forks and joins of engine operations (R298), and packets (R328).
-/

namespace Sys2Proof.Machine

open Sys2Proof

/-! ## Why a C-word does not complete -/

/-- Why a C-word does not complete in a step: a precise trap, with or without the events that others have made for it, such
as a page walk's reads (R316) or a home's answer (R312); a floating-point trap with its exceptions (R75); a read of
a poisoned word (R170); a security violation (R379); a hold, in which the word is tried again, with or without what it has
done so far (R46); a wait (R49); the
end of the unit that issued it, by its own CANCEL (R347); or a missed promise, whose copies stay reported (R101). -/
inductive Stop where
  | trap (cause detail : BitVec 8) (value : Word)
  | trapped (s : State) (cause detail : BitVec 8) (value : Word)
  | floating (e : BitVec 5)
  | poison (va : Word)
  | violation (s : State) (va : Word)
  | hold
  | holds (s : State)
  | wait (s : State) (w : Wait)
  | ends (s : State)
  | missed (s : State) (promise : Word)

/-- A check that stops the C-word where it fails. -/
def need' (ok : Bool) (e : Stop) : Except Stop Unit := if ok then .ok () else .error e

/-- The C-word as TRAPVAL holds it (R54). -/
def wordVal (i : Instr) : Word := (encode i).setWidth 64

/-- An illegal operand or a refused CSR access: cause 0x02 (R54). -/
def badOperand (i : Instr) : Stop := .trap 2#8 0#8 (wordVal i)

/-! ## Records and reports -/

/-- What a fault record or report names: a place and the identity of the launch. -/
structure Place where
  tile   : Nat
  ctx    : Nat
  elem   : Nat
  launch : Nat
  job    : Nat

/-- The place of a context slot with an element index (24 for the control thread). -/
def placeOf (s : State) (u e : Nat) : Place :=
  let l := match (bankAt s u).launch with
    | some l => l
    | none => (unitAt s u).launch
  { tile := tileOf u, ctx := ctxOf u, elem := e, launch := l,
    job := match mget s.launches l with | some x => x.job | none => (unitAt s u).csr.jobid.toNat }

/-- A fault record (R175). -/
def faultRecord (p : Place) (kind cause detail value tb efr pc : Nat) : Bytes :=
  toBytes 1 cause ++ toBytes 1 detail ++ toBytes 1 kind ++ toBytes 1 p.ctx ++ toBytes 2 (p.tile % 1024) ++
  toBytes 1 (dieOfTile p.tile) ++ toBytes 1 p.elem ++ toBytes 8 value ++ toBytes 4 (p.launch % 2 ^ 32) ++
  toBytes 2 p.job ++ toBytes 2 0 ++ toBytes 8 tb ++ toBytes 8 efr ++ toBytes 8 pc ++ toBytes 16 0

/-- What orders the records of a region controller (R173): the cycle, then the tile, then the element. -/
def recordKey (r : Bytes) : Nat := (numAt r 24 8 * 2 ^ 16 + numAt r 4 2) * 2 ^ 8 + numAt r 7 1

/-- A record put in its place among those of a region controller (R173). -/
def insertRecord (r : Bytes) : List Bytes → List Bytes
  | [] => [r]
  | x :: l => if recordKey r < recordKey x then r :: x :: l else x :: insertRecord r l

/-- A record handed to the region controller of a page, which writes it to the job's fault queue (R173, R264). -/
def pushRecord (s : State) (pg : Nat) (r : Bytes) : State :=
  let p := pageAt s pg
  setPage s pg { p with records := insertRecord r p.records }

/-- A fault of a place, recorded (R173, R175). -/
def record (s : State) (p : Place) (kind cause detail value efr pc : Nat) : State :=
  pushRecord s (pageOfTile p.tile) (faultRecord p kind cause detail value (tbOf s (dieOfTile p.tile)) efr pc)

/-- A security report (R379). -/
def securityReport (violation kind die index ctx elem addr job tb : Nat) : Bytes :=
  toBytes 1 0x15 ++ toBytes 1 violation ++ toBytes 1 kind ++ toBytes 1 die ++ toBytes 2 index ++ toBytes 1 ctx ++
  toBytes 1 elem ++ toBytes 8 addr ++ toBytes 2 job ++ toBytes 6 0 ++ toBytes 8 tb ++ toBytes 32 0

/-- A die's state. -/
def dieAt (s : State) (d : Nat) : Die := s.dies.toList.getD d {}
/-- A die's state written; a number that is no die changes nothing. -/
def setDie (s : State) (d : Nat) (x : Die) : State :=
  if h : d < 4 then { s with dies := s.dies.set d x h } else s

/-- A report written to a die's security log of 256 entries (R379). -/
def logReport (s : State) (d : Nat) (r : Bytes) : State :=
  let x := dieAt s d
  if x.seclog.length < 256 then setDie s d { x with seclog := x.seclog ++ [r] }
  else setDie s d { x with seclog := x.seclog.drop 1 ++ [r], lost := x.lost + 1 }

/-- A unit frozen (R47); a unit that is free or already frozen is left as it is. DEDUCED (log entry 29). -/
def freezeUnit (x : UnitRegs) : UnitRegs :=
  if x.st = .free ∨ x.st = .frozen then x else { x with before := x.st, st := .frozen }

/-- What the freeze of a unit stops (R90, R379): its engine operations, the open rounds of its datapath, which are voided,
and its launch's counters, which are marked with the error status. -/
def stopForks (s : State) (u : Nat) : State :=
  let mine := fun (e : Engine) => decide (e.unit = u) && decide (e.launch = (unitAt s u).launch)
  let s1 := { s with engines := s.engines.map fun e => if mine e.2 then (e.1, { e.2 with frozen := true }) else e }
  let s2 := if (openRounds s1 (seriesOf s1 u)).isEmpty then s1 else voidRounds s1 (seriesOf s1 u) false
  markLaunchErr s2 (unitAt s2 u).launch

/-- A security violation or FREEZE that names a unit: the unit frozen, its forks stopped, and one report written (R47, R90,
R379). DESIGN CHOICE (log entry 115). -/
def freezeBySecurity (s : State) (u violation elem addr : Nat) : State :=
  let x := unitAt s u
  if x.st = .frozen ∨ x.st = .free then s
  else
    let p := placeOf s u elem
    logReport (stopForks (setUnit s u (freezeUnit x)) u) (dieOf u)
      (securityReport violation 0 (dieOf u) (tileOf u % 1024) (ctxOf u) elem addr p.job (tbOf s (dieOf u)))

/-! ## Traps (R50 to R54) -/

/-- The trap frame and the handler's entry of R50, with TD = 0. -/
def enterTrap (x : UnitRegs) (cause detail : BitVec 8) (value pc : Word) : UnitRegs :=
  { x with
    st := .ready
    wait := none
    pc := x.csr.trapvec
    csr := { x.csr with
      trappc := pc
      cause := (detail.setWidth 64 <<< 8) ||| cause.setWidth 64
      trapval := value
      status := statusWith x.csr.status true (modeM x) true } }

/-- A unit faulted by its own C-word, to return later to a state (R47). -/
def faultUnit (x : UnitRegs) (before : UnitState) : UnitRegs := { x with st := .faulted, before := before, selfFault := true }

/-- TrapEntry of R50: the handler entered or, with TD = 1, the unit faulted and a record of kind 1 written. -/
def raise (s : State) (u : Nat) (cause detail : BitVec 8) (value pc : Word) : State :=
  let x := unitAt s u
  if statusTD x then
    record (setUnit s u (faultUnit { x with wait := none } .ready)) (placeOf s u 24) 1 cause.toNat detail.toNat
      value.toNat 0 pc.toNat
  else setUnit s u (enterTrap x cause detail value pc)

/-- A C-word's read of a poisoned word (R170): the unit faulted, PC kept, and a record of kind 0 written. -/
def poisonFault (s : State) (u : Nat) (va : Word) : State :=
  let x := unitAt s u
  record (setUnit s u (faultUnit { x with wait := none } .ready)) (placeOf s u 24) 0 0x13 0 (va.toNat / 8 * 8) 0
    x.pc.toNat

/-- Free values taken by a C-word that stopped are not taken again. -/
def burn (s : State) : State := { s with free := s.free + 64 }

/-- A unit that has completed its C-word and goes on at an address. -/
def goOn (x : UnitRegs) (pc : Word) : UnitRegs :=
  { x with st := (match x.st with | .running => .ready | .waiting => .ready | y => y), wait := none, pc := pc }

/-- What a stopped C-word leaves: the trap frame alone for a trap (R13, R50), the fault, the freeze, or the unit held or
waiting. -/
def stopped (s : State) (i : Instr) (e : Stop) : State :=
  let u := s.cur
  let x := me s
  match e with
  | .trap c d v => raise (burn s) u c d v x.pc
  | .trapped s' c d v => raise (burn s') u c d v x.pc
  | .floating e => raise (burn (setMe s (mergeFlags x e))) u 0x12#8 (e.setWidth 8) (wordVal i) x.pc
  | .poison va => poisonFault (burn s) u va
  | .violation s' va => freezeBySecurity (burn s') u 0 24 va.toNat
  | .hold => burn (setMe s { x with st := .running })
  | .holds s' => modMe s' fun y => { y with st := .running }
  | .wait s' w => modMe s' fun y => { y with st := .waiting, wait := some w }
  | .ends s' => s'
  | .missed s' p => raise s' u 0x0A#8 0#8 p x.pc

/-- The decode checks of R13 and R23, in order; the cause of the first that fails. -/
def decodeChecks (i : Instr) (x : UnitRegs) : Option (BitVec 8) :=
  if !fieldsOk i then some 1#8
  else if privileged i && !modeM x then some 3#8
  else if !operandsOk i then some 2#8
  else none

/-- A C-word whose effect names the address at which the thread goes on. -/
def cflow (i : Instr) (s : State) (body : State → Except Stop (State × Word)) : Host.Outcome State Fault Refusal :=
  .next <|
    match decodeChecks i (me s) with
    | some c => stopped s i (.trap c 0#8 (wordVal i))
    | none =>
      match body s with
      | .ok (s', pc) => modMe s' fun x => goOn x pc
      | .error e => stopped s i e

/-- A C-word after which the thread goes on at the next word. DEDUCED (log entry 12). -/
def cword (i : Instr) (s : State) (body : State → Except Stop State) : Host.Outcome State Fault Refusal :=
  .next <|
    match decodeChecks i (me s) with
    | some c => stopped s i (.trap c 0#8 (wordVal i))
    | none =>
      match body s with
      | .ok s' => modMe s' fun x => goOn x (x.pc + 4#64)
      | .error e => stopped s i e

/-- A C-word that changes only the unit's registers, from the registers alone. -/
def regWord (i : Instr) (s : State) (f : UnitRegs → UnitRegs) : Host.Outcome State Fault Refusal :=
  cword i s fun s => .ok (modMe s f)

/-! ## Boundary traps (R52) -/

/-- A scope breach of a unit: counted at the end of the cycle (R86), and a boundary trap made pending where SBTE = 1 (R52,
R294). -/
def breach (s : State) (u scope : Nat) (va : Word) : State :=
  let x := unitAt s u
  let y := { x with newBr := x.newBr + 1 }
  setUnit s u (if statusSBTE x then { y with pend := y.pend ++ [⟨0x10#8, BitVec.ofNat 8 scope, va⟩] } else y)

/-! ## Packets (R328) -/

/-- The number of an arbiter: the switch of a level and instance of a die, or a direction of an internal link. -/
def switchNo (die level idx : Nat) : Nat := 1024 * (8 * die + level) + idx
/-- The number of the arbiter of a link's direction. -/
def linkNo (link : Nat) (toL : Bool) : Nat := 65536 + 2 * link + (if toL then 1 else 0)

/-- The link between neighbouring dies, with whether the crossing runs from H to L (R360). -/
def linkBetween (a b : Nat) : Nat × Bool :=
  let lo := min a b
  (if a / 2 = b / 2 then lo / 2 else 2 + lo % 2, decide (b < a))

/-- The links that a packet from one die to another crosses, X first (R360). -/
def linkPath (a b : Nat) : List (Nat × Bool) :=
  if a = b then []
  else
    let c := 2 * (a / 2) + b % 2
    (if c = a then [] else [linkBetween a c]) ++ (if c = b then [] else [linkBetween c b])

/-- The level of the narrowest subtree that holds two tiles of one die: 0 the tile, then quad to root as 1 to 5. -/
def meetLevel (t h : Nat) : Nat :=
  if t = h then 0 else if instOf 0 t = instOf 0 h then 1 else if instOf 1 t = instOf 1 h then 2
  else if instOf 2 t = instOf 2 h then 3 else if instOf 3 t = instOf 3 h then 4 else 5

/-- A tile beneath the home of an address, with the level of the slice for a slice bank (0 otherwise, 5 for HBM4). -/
def homeOf (a : Nat) : Nat × Nat :=
  match paClass a with
  | 1 => (spadTile a, 0)
  | 2 =>
    let lv := a / 2 ^ 27 % 8
    let idx := match lv with
      | 0 => a / 2 ^ 18 % 2 ^ 8 | 1 => a / 2 ^ 21 % 2 ^ 6 | 2 => a / 2 ^ 22 % 2 ^ 4 | 3 => a / 2 ^ 24 % 4 | _ => 0
    (aTileOf lv (paDie a) idx, lv + 1)
  | _ => (1024 * paDie a, 5)

/-- The number of levels of switch that a packet from a tile to an address climbs in the tile's die. -/
def climb (t a : Nat) : Nat :=
  let h := homeOf a
  if dieOfTile h.1 ≠ dieOfTile t then 5 else max (meetLevel t h.1) h.2

/-- The switches above a tile on the way down to an address, from below a number of levels. -/
def descent (a levels : Nat) : List Nat :=
  let h := homeOf a
  (((List.range levels).filter fun lv => decide (h.2 - 1 ≤ lv)).reverse).map fun lv =>
    switchNo (dieOfTile h.1) lv (instOf lv h.1)

/-- The arbiters that a packet to an address passes behind the top of its die: those of the links to the address's die and of
the switches there. -/
def crossPath (die a : Nat) : List Nat :=
  (linkPath die (paDie a)).map (fun p => linkNo p.1 p.2) ++ descent a 5

/-- The arbiters that a packet from a tile to an address passes: the switches up to the common one, those down from it, and
the links between dies (R288, R328, R360). DEDUCED (log entry 85). -/
def packetPath (t a : Nat) : List Nat :=
  ((List.range (climb t a)).map fun lv => switchNo (dieOfTile t) lv (instOf lv t)) ++
  if dieOfTile t = paDie a then descent a (climb t a - 1) else crossPath (dieOfTile t) a

/-- The deadline stamp of a packet (R328). -/
def stampOf (s : State) (deadline : Nat) : BitVec 16 :=
  if deadline = 0 ∨ deadline > s.tb + 2 ^ 23 then BitVec.ofNat 16 (s.tb / 256 % 65536 + 32767)
  else BitVec.ofNat 16 (deadline / 256)

/-- A packet put at the first arbiter of its path; an access that stays in its tile sends none. -/
def putPacket (s : State) (p : Packet) : State :=
  match p.path with
  | [] => s
  | a :: rest =>
    let x := (mget s.arbiters a).getD {}
    { s with arbiters := mset s.arbiters a { x with packets := x.packets ++ [{ p with path := rest }] } }

/-- A packet of a unit to an address (R328). -/
def sendPacket (s : State) (u a : Nat) : State :=
  let d := match launchOf s u with | some l => l.deadline | none => 0
  putPacket s { unit := some u, launch := (unitAt s u).launch, job := (unitAt s u).csr.jobid.toNat, stamp := stampOf s d,
                path := packetPath (tileOf u) a }

/-- A packet of a job from a die's host port to an address, stamped from the job's deadline (R328). -/
def sendHostPacket (s : State) (d job a : Nat) : State :=
  putPacket s { unit := none, launch := 0, job := job, stamp := stampOf s (policyOf s job).deadline,
                path := if d = paDie a then switchNo d 4 0 :: descent a 4 else switchNo d 4 0 :: crossPath d a }

/-! ## Accesses of C-words (R91, R92) -/

/-- The requester of translation for a unit's C-words (R316). -/
def requester (s : State) (u : Nat) : Requester :=
  { who := 16 * tileOf u, tile := tileOf u, job := (unitAt s u).csr.jobid.toNat, lch := launchOf s u }

/-- Check 2 of R91. -/
def checkAligned (va : Word) (align : Nat) : Except Stop Unit :=
  need' (decide (va.toNat % align = 0)) (.trap 4#8 (BitVec.ofNat 8 align) va)

/-- Checks 1 and 2 of R91. -/
def checkAddr (va : Word) (align : Nat) : Except Stop Unit := do
  need' (canonical va) (.trap 5#8 0#8 va)
  checkAligned va align

/-- Check 3 of R91: translation and permission for the issuing unit. -/
def xlateC (s : State) (k : Access) (va : Word) : Except Stop (XOk × State) :=
  match translate s (requester s s.cur) k va with
  | (.ok x, s') => .ok (x, s')
  | (.error (.cause c d), s') => .error (.trapped s' c d va)
  | (.error .violation, s') => .error (.violation s' va)

/-- An address checked and translated (R91). -/
def address (s : State) (k : Access) (va : Word) (align : Nat) : Except Stop (XOk × State) := do
  checkAddr va align
  xlateC s k va

/-- An event of the issuing unit's thread put into the state: memory, time, breach and packet. -/
def putEvent (s : State) (pa : Nat) (scope : Option Nat) (va : Word) (e : MemEvent) : State :=
  let s1 := modMe { s with mem := e.mem } fun x => { x with pts := e.pts }
  let s2 := match scope with
    | some c => if e.br then breach s1 s.cur c va else s1
    | none => s1
  sendPacket s2 s.cur pa

/-- An access to a region window is of 8 bytes (R263). -/
def regionSize (x : XOk) (n : Nat) (va : Word) : Except Stop Unit :=
  need' (!isRegion x.pa || decide (n = 8)) (.trap 4#8 8#8 va)

/-- No word of n bytes at an address is poisoned (R170). -/
def needClean (s : State) (pa n : Nat) (va : Word) : Except Stop Unit :=
  match poisonedIn s.mem pa n with
  | some p => .error (.poison (va + BitVec.ofNat 64 (p - pa)))
  | none => .ok ()

/-- A read of n bytes by the issuing unit at a translated address (R93, R170): the bytes, and the state after it. A register
of a region window is no memory, and its read no event (R263). -/
def readC (s : State) (x : XOk) (n : Nat) (scope : Option Nat) (va : Word) : Except Stop (List Byte × State) := do
  regionSize x n va
  if isRegion x.pa then .ok (toBytes n (readAt s x.pa n), s)
  else do
    needClean s x.pa n va
    .ok (rdBytes s.mem x.pa n,
      putEvent s x.pa scope va (readEvent s.mem x.pa n (tileOf s.cur) s.tb scope x.sa (me s).pts))

/-- n 8-byte words read by the issuing unit from a translated address up, each one event (R345, R385). -/
def readSeq : Nat → State → XOk → Word → Except Stop (List Byte × State)
  | 0, s, _, _ => .ok ([], s)
  | n + 1, s, x, va => do
    let (b, s1) ← readC s x 8 none va
    let (l, s2) ← readSeq n s1 { x with pa := x.pa + 8 } (va + 8#64)
    .ok (b ++ l, s2)

/-- A write of bytes by the issuing unit at a translated address (R93); it is held while a pinned round leases the line
(R257). -/
def writeC (s : State) (x : XOk) (bs : List Byte) (scope : Option Nat) (va : Word) : Except Stop State := do
  regionSize x bs.length va
  if pinnedRange s none x.pa bs.length then .error .hold
  else .ok (putEvent s x.pa scope va (writeEvent s.mem x.pa bs (tileOf s.cur) s.tb scope x.sa (me s).pts))

/-! ## The datapath's events -/

/-- The launch of a slot's datapath. -/
def slotLaunch (s : State) (u : Nat) : Option Launch := (bankAt s u).launch.bind fun l => mget s.launches l

/-- The unit to which an access of a slot's datapath counts: the one whose fork opened the series (R208, R329). -/
def streamUnit (s : State) (u : Nat) : Nat :=
  let x := seriesAt s (seriesOf s u)
  if x.isOpen then x.forkUnit else u

/-- A packet of a slot's datapath to an address (R328). -/
def sendSlotPacket (s : State) (u pa : Nat) : State :=
  let l := slotLaunch s u
  putPacket s
    { unit := some (streamUnit s u), launch := (unitAt s (streamUnit s u)).launch, job := (l.map (·.job)).getD 0,
      stamp := stampOf s ((l.map (·.deadline)).getD 0), path := packetPath (tileOf u) pa }

/-- An event of a slot's datapath thread put into the state: memory, the series' time, and a breach of the unit that opened
the series (R208). -/
def putSlotEvent (s : State) (u pa : Nat) (scope : Option Nat) (va : Word) (e : MemEvent) : State :=
  let key := seriesOf s u
  let x := seriesAt s key
  let s1 := setSeries { s with mem := e.mem } key { x with pts := e.pts }
  sendSlotPacket (if e.br && x.isOpen then breach s1 x.forkUnit (scope.getD 4) va else s1) u pa

/-- A store or atomic made at once by a slot's datapath: the rounds of its own series that loaded those lines read the new
times (R300). -/
def putSlotStore (s : State) (u pa w : Nat) (scope : Option Nat) (va : Word) (e : MemEvent) : State :=
  let key := seriesOf s u
  let s1 := putSlotEvent s u pa scope va e
  let y := seriesAt s1 key
  setSeries s1 key { y with rounds := y.rounds.map (restamp s.mem s1.mem (linesOf pa w)) }

/-- Whether a load of n bytes by an element meets a buffered store of its own thread (R299). -/
def slotForwards (s : State) (u e pa n : Nat) : Bool :=
  decide (forward (bufferedStores (seriesAt s (seriesOf s u)) (elemAt s u e).round (tileOf u)) pa n ≠ .none)

/-- What a load of n bytes by an element sees, where it need not wait (R299). -/
def slotSees (s : State) (u e pa n : Nat) : Option Nat :=
  seenValue (bufferedStores (seriesAt s (seriesOf s u)) (elemAt s u e).round (tileOf u)) s.mem pa n

/-! ## Tagged words and their waiters (R96, R97) -/

/-- Something done for another unit than the one whose C-word runs. -/
def asUnit {α : Type} (s : State) (u : Nat) (f : State → α) : α := f { s with cur := u }
/-- The unit whose C-word runs set back. -/
def backTo (s : State) (u : Nat) : State := { s with cur := u }

/-- A parked C-word completed by the bank or the home: its unit takes the registers given, and goes on (R47, R97). A
unit that is faulted or frozen meanwhile returns to the ready state later. -/
def completeParked (s : State) (u : Nat) (f : UnitRegs → UnitRegs) : State :=
  let x := f (unitAt s u)
  let ready := fun (y : UnitState) => if y = .waiting then .ready else y
  setUnit s u { x with st := ready x.st, before := ready x.before, wait := none, pc := x.pc + 4#64 }

/-- A parked C-word ended by what stops it, in a unit that waits; a unit that is faulted or frozen meanwhile keeps its state,
and meets the same when it goes on with the C-word (R47). DEDUCED (log entry 26). -/
def stopWaiting (s : State) (u : Nat) (f : State → State) : State := if (unitAt s u).st = .waiting then f s else s

/-- The payload of an ERR token (R172): its code, and the tile index within the die and the element index that it names. -/
def errData (u e code : Nat) : Flit := BitVec.ofNat 512 (code + 256 * e + 8192 * (tileOf u % 1024))

/-- A waiting element firing completed by the bank: the token that it loaded is kept for its next firing (R210). -/
def completeElem (s : State) (ue : Nat) (t : Token) : State :=
  match mget s.elems ue with
  | none => s
  | some e => { s with elems := mset s.elems ue { e with parked := false, work := { e.work with got := [t] } } }

/-- The slot of a tagged waiter. -/
def TagWaiter.slot (w : TagWaiter) : Nat := if w.elem then w.who / 32 else w.who
/-- Whether a tagged operation changes its word. -/
def TagWaiter.writes (w : TagWaiter) : Bool := !w.full || w.clear

/-- The event of a parked tagged operation, in its own thread (R96, R296). -/
def tagEvent (s : State) (w : TagWaiter) : MemEvent :=
  let u := w.slot
  let pts := if w.elem then (seriesAt s (seriesOf s u)).pts else (unitAt s u).pts
  if !w.full then writeEvent s.mem w.pa (toBytes 8 w.value.toNat) (tileOf u) s.tb w.scope w.sa pts
  else if w.clear then atomicEvent s.mem w.pa 8 (tileOf u) s.tb w.scope w.sa pts
  else readEvent s.mem w.pa 8 (tileOf u) s.tb w.scope w.sa pts

/-- The event of a parked tagged operation put into the state, and its word's tag changed (R97). -/
def putTagEvent (s : State) (w : TagWaiter) : State :=
  let e := tagEvent s w
  let s1 :=
    if !w.elem then backTo (asUnit s w.who fun s => putEvent s w.pa none w.va e) s.cur
    else if w.writes then putSlotStore s w.slot w.pa 8 w.scope w.va e
    else putSlotEvent s w.slot w.pa w.scope w.va e
  if w.writes then { s1 with mem := setTag s1.mem w.pa !w.full } else s1

/-- A tagged waiter completed at a word, as a new event (R97, R170); none while its event must wait, for a pinned round
(R257) or for a buffered store of its own thread (R299). -/
def completeTag (s : State) (w : TagWaiter) : Option State :=
  let u := w.slot
  let s0 := { s with twaiters := s.twaiters.erase w }
  let sees := if w.elem then slotSees s u (w.who % 32) w.pa 8 else some (rdNum s.mem w.pa 8)
  if w.writes && pinnedRange s (if w.elem then some (seriesOf s u) else none) w.pa 8 then none
  else if w.full && (poisonedIn s.mem w.pa 8).isSome && !(w.elem && slotForwards s u (w.who % 32) w.pa 8) then
    some (if w.elem then completeElem s0 w.who { ty := tyErr, data := errData u (w.who % 32) 3 }
          else stopWaiting s0 u fun s => poisonFault s u w.va)
  else if !w.full then
    let s1 := putTagEvent s0 w
    some (if w.elem then completeElem s1 w.who {} else completeParked s1 u id)
  else
    sees.map fun v =>
      let s1 := putTagEvent s0 w
      if w.elem then completeElem s1 w.who { data := BitVec.ofNat 512 v }
      else completeParked s1 u fun x => writeVal x w.reg (BitVec.ofNat 64 v)

/-- The waiters of a word served after it changed state (R97), at most n of them. -/
def serveTag (pa : Nat) : Nat → State → State
  | 0, s => s
  | n + 1, s =>
    match s.twaiters.find? fun w => decide (w.pa = pa) && decide (w.full = isFull s.mem pa) with
    | none => s
    | some w =>
      match completeTag s w with
      | none => s
      | some s' => serveTag pa n s'

/-- Every parked tagged operation whose condition holds served: those that a pinned round or a buffered store held back. -/
def serveTags (s : State) : State :=
  ((s.twaiters.map (·.pa)).eraseDups).foldl (fun s pa => serveTag pa s.twaiters.length s) s

/-- A word's tag set, and its waiters served (R97). -/
def tagTo (s : State) (pa : Nat) (full : Bool) : State :=
  serveTag (wordOf pa) s.twaiters.length { s with mem := setTag s.mem pa full }

/-- The tags of the scratchpad words in n bytes set full, in ascending address (R116, R344). -/
def fillTags (s : State) (pa : Nat) : Nat → State
  | 0 => s
  | n + 1 => tagTo (fillTags s pa n) (pa + 8 * n) true

/-- The bank of a scratchpad word (R168). -/
def bankNo (pa : Nat) : Nat := spadTile pa * 128 + pa / 8 % 128
/-- Whether a bank's waiter list of 32 entries is full (R169). -/
def bankListFull (s : State) (pa : Nat) : Bool :=
  decide ((s.twaiters.filter fun w => bankNo w.pa = bankNo pa).length ≥ 32)

/-! ## Engine operations: forks and joins (R298) -/

/-- An engine operation forked by the issuing unit, at its thread's time. -/
def fork (s : State) (kind : EngineKind) (promise : Option Nat) (dest : Word) : State :=
  let x := me s
  { s with
    engines := mset s.engines s.nextEng
      { unit := s.cur, launch := x.launch, job := x.csr.jobid.toNat, kind := kind, pts := x.pts, promise := promise,
        dest := dest }
    nextEng := s.nextEng + 1 }

/-- Whether an engine operation was forked by a unit. -/
def Engine.ofUnit (e : Engine) (s : State) (u : Nat) : Bool := decide (e.unit = u) && decide (e.launch = (unitAt s u).launch)

/-- Engine operations of a unit that satisfy a condition joined: they are no longer forks of the unit, and its time is
past theirs (R298). -/
def joinIf (s : State) (u : Nat) (p : Engine → Bool) : State :=
  let js := s.engines.filter fun e => e.2.ofUnit s u && p e.2
  let x := unitAt s u
  setUnit { s with engines := s.engines.filter fun e => !(e.2.ofUnit s u && p e.2) } u
    { x with pts := js.foldl (fun m e => max m e.2.pts) x.pts }

/-- Whether every engine operation that a unit has forked and not joined is complete. -/
def forksDone (s : State) (u : Nat) : Bool := s.engines.all fun e => !(e.2.ofUnit s u) || e.2.complete

/-- Every fork of the issuing unit joined; the unit is held until all are complete (R102, R120, R339). -/
def joinAll (s : State) : Except Stop State :=
  if forksDone s s.cur then .ok (joinIf s s.cur fun _ => true) else .error .hold

/-- The operations joined by a wait on the counter at a physical address that observes their increment (R116, R120). -/
def joinCounter (s : State) (u pa : Nat) : State := joinIf s u fun e => e.complete && decide (e.counted = some pa)

end Sys2Proof.Machine
end

