-- ==== Sys2Proof/Machine/Work.lean ====
section
/-!
DEFINITION. Launches, graphs, phases and jobs as the die controller keeps them: counters and their status words (R317),
completion (R318), cancels (R319, R347), and the clearing of what a launch leaves (R397).
-/

namespace Sys2Proof.Machine

open Sys2Proof

/-! ## What a launch holds -/

/-- The slots of a launch in the tiles it holds; none while it holds no pages. -/
def heldSlots (s : State) (l : Nat) : List Nat :=
  match mget s.launches l with
  | some x => if x.holds then launchSlots x else []
  | none => []

/-- Whether an address lies in the scratchpad range that a launch owns (R397). -/
def ownsAddr (l : Launch) (tiles : List Nat) (a : Nat) : Bool :=
  isSpad a && tiles.contains (spadTile a) &&
    decide (65536 * l.base ≤ a % 2 ^ 18) && decide (a % 2 ^ 18 < 65536 * (l.base + l.nctx))

/-- The rows of a tile's accumulator store that a launch's contexts hold: 64 for each context (R194). -/
def ownsRow (l : Launch) (tiles : List Nat) (r : Nat) : Bool :=
  tiles.contains (r / 256) && decide (64 * l.base ≤ r % 256) && decide (r % 256 < 64 * (l.base + l.nctx))

/-- The ranges that a launch owned written with zero, tags emptied, and accumulator rows cleared (R397). -/
def clearOwned (s : State) (l : Launch) : State :=
  let ts := launchTiles l
  { s with
    mem := { s.mem with
      cells := s.mem.cells.filter fun c => !ownsAddr l ts c.1
      full := s.mem.full.filter fun a => !ownsAddr l ts a
      poisoned := s.mem.poisoned.filter fun a => !ownsAddr l ts a
      single := s.mem.single.filter fun a => !ownsAddr l ts a }
    episodes := s.episodes.filter fun e => !ownsAddr l ts e.dst
    rows := s.rows.filter fun r => !ownsRow l ts r.1
    claims := s.claims.filter fun r => !ownsRow l ts r.1 }

/-- Waiters and parked operations of slots taken off every list (R49). -/
def unparkSlots (s : State) (slots : List Nat) : State :=
  { s with
    twaiters := s.twaiters.filter fun w => !(if w.elem then slots.contains (w.who / 32) else slots.contains w.who)
    qwaiters := s.qwaiters.filter fun w => w.taken || !slots.contains w.unit
    barriers := s.barriers.map fun b => (b.1, { b.2 with waiters := b.2.waiters.filter fun w => !slots.contains w.unit }) }

/-- Units' waits taken off every list, while the firings of elements stay (R398). -/
def unparkThreads (s : State) (slots : List Nat) : State :=
  { s with
    twaiters := s.twaiters.filter fun w => w.elem || !slots.contains w.who
    qwaiters := s.qwaiters.filter fun w => w.taken || !slots.contains w.unit
    barriers := s.barriers.map fun b => (b.1, { b.2 with waiters := b.2.waiters.filter fun w => !slots.contains w.unit }) }

/-- An element that acts no more: its registers stay, and nothing of it is frozen (R174). -/
def restElem (e : Nat × Elem) : Option (Nat × Elem) :=
  let x : Elem := { efr := e.2.efr &&& 0x7FFFFFFFFFFFFFFF#64, efv := e.2.efv, esr := e.2.esr }
  if x = {} then none else some (e.1, x)

/-- The datapath of slots emptied: elements, FIFOs and kills. -/
def dropDatapath (s : State) (slots : List Nat) : State :=
  { s with
    elems := s.elems.filterMap fun e => if slots.contains (e.1 / 32) then restElem e else some e
    fifos := s.fifos.filter fun f => !slots.contains (f.1 / 256)
    kills := s.kills.filter fun k => !slots.contains (k.fifo / 256) }

/-- A unit whose context is free (R47); its registers stay until the context is written again. -/
def freeUnit (x : UnitRegs) : UnitRegs :=
  { x with st := .free, wait := none, pend := [], yielded := none, awaits := none, watches := Vector.replicate 8 none }

/-- The slots of a launch freed: no words, nothing in its datapath, its ranges cleared (R47, R397). -/
def freeSlots (s : State) (l : Nat) : State :=
  match mget s.launches l with
  | none => s
  | some x =>
    let slots := launchSlots x
    let s1 := clearOwned (dropDatapath (unparkSlots s slots) slots) x
    { s1 with
      units := s1.units.map fun u => if slots.contains u.1 then (u.1, freeUnit u.2) else u
      banks := s1.banks.filter fun b => !slots.contains b.1
      series := s1.series.filter fun r => decide (r.1 / 4 ≠ l) }

/-! ## Cancels (R319) -/

/-- A unit that a cancel reaches (R47). -/
def cancelUnit (x : UnitRegs) : UnitRegs :=
  if x.st = .free ∨ x.st = .retired then x else { x with st := .retired, wait := none, pend := [] }

/-- An engine operation of a cancelled launch: an ordered contribution stays, as an error contribution (R337); any other
ends. -/
def cancelEngine (l : Nat) (e : Nat × Engine) : Option (Nat × Engine) :=
  if e.2.launch = l then
    match e.2.kind with
    | .ored _ _ _ _ => if e.2.complete then none else some (e.1, { e.2 with cancelled := true, frozen := false })
    | _ => none
  else some e

/-- A launch cancelled: its units retire, its rounds are voided and not replayed, its engines end or are replaced, a pool
entry or a snapshot is discarded, and its counter is marked (R319, R337, R400). -/
def cancelLaunch (s : State) (l : Nat) : State :=
  match mget s.launches l with
  | none => s
  | some x =>
    let slots := heldSlots s l
    let s1 := dropDatapath (unparkSlots s slots) slots
    let s2 := { s1 with
      units := s1.units.map fun u => if slots.contains u.1 then (u.1, cancelUnit u.2) else u
      series := s1.series.filter fun r => decide (r.1 / 4 ≠ l)
      episodes := s1.episodes.filter fun e => !ownsAddr x (launchTiles x) e.dst
      engines := s1.engines.filterMap (cancelEngine l) }
    let s3 := cancelCounter s2 (launchReq x) x.lctr
    if slots.isEmpty then { s3 with launches := mdel s3.launches l }
    else setLaunch s3 l { x with cancelled := true, st := .running, shared := none, snapshot := [], savedSer := [],
                                 inPlace := none, toPool := false }

/-- The launches that satisfy a condition, by key. -/
def launchesWhere (s : State) (p : Launch → Bool) : List Nat := (s.launches.filter fun l => p l.2).map Prod.fst

/-- Whether a graph is live (R346). -/
def Graph.live (g : Graph) : Bool := decide (g.complete < g.declared)

/-- The requester of translation for the die controller that keeps a graph. -/
def graphReq (g : Graph) : Requester := { who := 0, tile := 1024 * g.die, job := g.job, lch := none }

/-- Launches and graphs of a level cancelled: every launch, then the counter of every graph and, where the level is a job, of
every phase (R319). -/
def cancelLevel (s : State) (ls : List Nat) (gs : List Graph) (phases : Bool) : State :=
  let s1 := ls.foldl cancelLaunch s
  let s2 := gs.foldl (fun s g => cancelCounter s (graphReq g) g.ctr) s1
  let s3 := if phases then gs.foldl (fun s g => cancelCounter s (graphReq g) g.phase) s2 else s2
  { s3 with graphs := s3.graphs.filter fun g => !gs.contains g }

/-! ## Completion (R318) -/

/-- Whether every sink of slots has passed an EOS of at least a rank (R103, R318). -/
def sinksPassed (s : State) (slots : List Nat) (r : Nat) : Bool :=
  (activeElems s slots).all fun e => !eSink e.2.2 || (elemAt s e.1 e.2.1).passed.any fun p => decide (r ≤ p.1)

/-- Whether a deadline has passed. -/
def lateNow (s : State) (deadline : Nat) : Bool := decide (deadline ≠ 0) && decide (deadline < s.tb)

/-- DONE, with LATE where the deadline has passed (R318). -/
def doneBits (s : State) (deadline : Nat) : Nat := stDone + (if lateNow s deadline then stLate else 0)

/-- 1 added to a counter at a time, with status bits set in the same event: the state, and the event's time. -/
def bump (s : State) (q : Requester) (va : Word) (bits pts : Nat) : State × Nat :=
  counterEvent s q va pts fun v st => (addOne v, st ||| BitVec.ofNat 64 bits)

/-- Words from an address upward given free values. -/
def freeFill (m : Memory) (pa free : Nat) : Nat → Memory
  | 0 => m
  | n + 1 => freeFill (wrNum m (pa + 8 * n) 8 (Config.openWord (free + n)).toNat) pa free n

/-- A frame whose key is lost: its lines decrypt to no value that the spec states (R369). -/
def scrambleFrame (s : State) (fr : Nat) : State :=
  { s with mem := freeFill s.mem (4096 * fr) s.free 512, free := s.free + 512 }

/-- The frames that a job owns (R368). -/
def framesOf (s : State) (job : Nat) : List Nat :=
  (s.frames.filter fun f => bitOf f.2 16 && decide (field f.2 15 0 = job)).map Prod.fst

/-- A job completed (R318): 1 added to the job counter, which is marked done, the job no longer live, and its key destroyed
(R369). -/
def completeJob (s : State) (q : Requester) (job : Nat) : State :=
  let p := policyOf s job
  let s1 := (bump s q p.ctr (doneBits s p.deadline) 0).1
  let s2 := { s1 with phased := s1.phased.filter fun j => decide (j ≠ job) }
  if job = 0 then s2 else (framesOf s2 job).foldl scrambleFrame { s2 with jobs := mdel s2.jobs job }

/-- Whether a job has a graph that is not yet part of a completed phase, or a launch: one that is in the pool, or one that
may still start a phase, so that no phase of the job is its last. -/
def jobHasWork (s : State) (job : Nat) : Bool :=
  (s.graphs.any fun g => decide (g.job = job)) || s.launches.any fun l => decide (l.2.job = job)

/-- A job completed where a phase of it has completed and nothing of it is left (R318). DEDUCED (log entry 72). -/
def tryCompleteJob (s : State) (q : Requester) (job : Nat) : State :=
  if s.phased.contains job && !jobHasWork s job then completeJob s q job else s

/-- Whether a phase may complete (R318): each of its graphs is complete and every sink has passed its rank-3 EOS. -/
def phaseDone (s : State) (job : Nat) (ctr : Word) : Bool :=
  let gs := s.graphs.filter fun g => decide (g.job = job) && decide (g.phase = ctr)
  !gs.isEmpty && gs.all fun g => !g.live && g.rank3

/-- A phase completed (R318): its counter marked done, 1 added to the job counter, and the job completed where this was
its last phase. -/
def completePhase (s : State) (q : Requester) (job : Nat) (ctr : Word) : State :=
  let (s1, pts) := counterEvent s q ctr 0 fun v st => (v, st ||| BitVec.ofNat 64 stDone)
  let s2 := (bump s1 q (policyOf s1 job).ctr 0 pts).1
  tryCompleteJob
    { s2 with graphs := s2.graphs.filter fun g => !(decide (g.job = job) && decide (g.phase = ctr)), phased := job :: s2.phased }
    q job

/-- A launch counted in its graph, and the graph completed where it was the last that the graph declared (R318).
DEDUCED (log entry 73). -/
def countInGraph (s : State) (q : Requester) (job : Nat) (gctr : Word) (rank3 : Bool) (pts : Nat) : State :=
  match s.graphs.find? fun g => decide (g.job = job) && decide (g.ctr = gctr) && decide (gctr ≠ 0#64) && g.live with
  | none => s
  | some g =>
    let g' := { g with complete := g.complete + 1, rank3 := g.rank3 && rank3 }
    let put := fun (s : State) => { s with graphs := s.graphs.map fun h => if h = g then g' else h }
    if g'.live then put s
    else
      let (s0, p) := counterEvent (put s) q g.ctr pts fun v st => (v, st ||| BitVec.ofNat 64 stDone)
      let s1 := (bump s0 q g.phase 0 p).1
      if g.phase = 0#64 then { s1 with graphs := s1.graphs.filter fun h => decide (h ≠ g') } else s1

/-- Whether a launch is complete: every unit has retired and no engine operation is left to join (R318). -/
def launchDone (s : State) (l : Nat) : Bool :=
  match mget s.launches l with
  | none => false
  | some x =>
    decide (x.st = .running) &&
    ((heldSlots s l).all fun u => decide ((unitAt s u).st = .retired) || decide ((unitAt s u).st = .free)) &&
    decide (pendOf s (fun k _ => decide (k = l)) = 0)

/-- The time of a launch's last events: its units', with what they have joined, and its streams' (R298). -/
def launchPts (s : State) (l : Nat) : Nat :=
  (s.series.filter fun r => decide (r.1 / 4 = l)).foldl (fun m r => max m r.2.pts)
    ((heldSlots s l).foldl (fun m u => max m (unitAt s u).pts) 0)

/-- A launch completed (R318): its counters advanced, unless it was cancelled, and its contexts cleared (R397). -/
def completeLaunch (s : State) (l : Nat) : State :=
  match mget s.launches l with
  | none => s
  | some x =>
    let q := launchReq x
    let r3 := sinksPassed s (heldSlots s l) 3
    let s1 :=
      if x.cancelled then s
      else
        let late := doneBits s x.deadline
        let (s1, p1) := bump (refreshPend s l) q x.lctr late (launchPts s l)
        let (s2, p2) := bump s1 q x.gctr 0 p1
        countInGraph s2 q x.job x.gctr r3 p2
    let s2 := freeSlots s1 l
    tryCompleteJob { s2 with launches := mdel s2.launches l } { q with lch := none } x.job

end Sys2Proof.Machine
end

