-- ==== Sys2Proof/Machine/Image.lean ====
section
/-!
DEFINITION. Configuration images (R104, R105): the header, the segments and the checks of R14, R31, R33, R35, R157 and
R248. A check answers the byte offset of the first faulting word.
-/

namespace Sys2Proof.Machine

open Sys2Proof

/-! ## What a word reads and drives -/

/-- The inputs that an E-word names: those of the ports it always reads, and of the port that an argument decides
(R422). -/
def inputsOf (w : BitVec 32) : List Nat :=
  ((ePorts w) ++ (eOptPort w).toList).map fun p => p.toNat / 8

/-- The bus that input K of element e reads (R157). -/
def busOfInput (e k : Nat) : Nat := (e + 6 + k) % 8

/-- The elements of a bank that read a bus, with the input by which they read it (R157). -/
def busReaders (ws : Map (BitVec 32)) (bus : Nat) : List (Nat × Nat) :=
  ws.flatMap fun p =>
    if p.2 = 0#32 then []
    else ([0, 1, 2, 3].filter fun k => (inputsOf p.2).contains k && decide (busOfInput p.1 k = bus)).map fun k => (p.1, k)

/-- The element of a bank that drives switch input 8 + bus (R157). -/
def busDriver (ws : Map (BitVec 32)) (bus : Nat) : Option Nat :=
  (ws.find? fun p => eDrives p.2 && decide (p.1 % 8 = bus)).map Prod.fst

/-! ## S-words (R32, R33, R248) -/

/-- The neighbour of a tile beyond a mesh port, as a step in x and y: north, east, south, west by lane (R32). -/
def meshStep (port : Nat) : Int × Int :=
  match port % 4 with
  | 0 => (0, -1) | 1 => (1, 0) | 2 => (0, 1) | _ => (-1, 0)

/-- The mesh port that faces a mesh port (R248). -/
def facing (port : Nat) : Nat := 4 * (port / 4) + (port + 2) % 4

/-- The tile beyond a mesh port in the package's grid, where there is one (R248, R395). -/
def beyond (t port : Nat) : Option Nat :=
  let d := meshStep port
  let x : Int := (gridX t : Int) + d.1
  let y : Int := (gridY t : Int) + d.2
  if 0 ≤ x ∧ x < 64 ∧ 0 ≤ y ∧ y < 64 then some (tileAt x.toNat y.toNat) else none

/-- Whether a mesh port of the tile at (dx, dy) lies on its page's edge (R248). -/
def onEdge (dx dy port : Nat) : Bool :=
  match port % 4 with
  | 0 => decide (dy % 4 = 0) | 1 => decide (dx % 4 = 3) | 2 => decide (dy % 4 = 3) | _ => decide (dx % 4 = 0)

/-- Whether a page set of a width and height in tiles has a tile beyond a mesh port of (dx, dy). -/
def hasNeighbour (w h dx dy port : Nat) : Bool :=
  match port % 4 with
  | 0 => decide (0 < dy) | 1 => decide (dx + 1 < w) | 2 => decide (dy + 1 < h) | _ => decide (0 < dx)

/-- Mode of an S-word. -/
def sMode (w : BitVec 16) : Nat := (fSm w).toNat

/-- Whether an S-word is legal by itself, in a segment of a context at (dx, dy) of a page set (R32, R33, R248). -/
def sWordAlone (w : BitVec 16) (width height dx dy ctx : Nat) : Bool :=
  let out := (fSo w).toNat
  decide (sMode w ≤ 3) && decide (fSz0 w = 0#3) && decide (fSo w ≠ fSi w) && decide ((fSx w).toNat = ctx) &&
  if out < 8 then
    decide (sMode w = 3 ↔ onEdge dx dy out = true) && hasNeighbour width height dx dy out
  else decide (sMode w ≠ 3)

/-- Whether two S-words of one context conflict (R33). -/
def sConflict (a b : BitVec 16) : Bool :=
  decide (fSo a = fSo b) || (decide (fSi a = fSi b) && (decide (sMode a ≠ 2) || decide (sMode b ≠ 2)))

/-- The first faulting S-word of a segment, by its position (R33, R157). -/
def sFault (ews : Map (BitVec 32)) (width height dx dy ctx : Nat) (all : List (BitVec 16)) :
    Nat → List (BitVec 16) → Option Nat
  | _, [] => none
  | n, w :: l =>
    let out := (fSo w).toNat
    if !sWordAlone w width height dx dy ctx || (all.take n).any (sConflict w) ||
       (decide (sMode w = 2) && decide ((all.filter fun v => decide (fSi v = fSi w)).length = 1)) ||
       (decide (8 ≤ out) && (busReaders ews (out - 8)).isEmpty) then some n
    else sFault ews width height dx dy ctx all (n + 1) l

/-! ## Segments (R104) -/

/-- A segment as it is checked: its place, its words, and its unit's entry where it has one. -/
structure Segment where
  dx    : Nat
  dy    : Nat
  ctx   : Nat
  words : Words
  entry : Option Nat

/-- The E-words and W-words of a segment from an offset, for the elements that the mask names: the words and the offset
behind them, or the offset of the first faulting word. Of two words that drive one switch port (R157), the later one is at
fault. DEDUCED (log entry 70). -/
def readWords (b : List Byte) (mask : Nat) (acc : Words) : Nat → Nat → List Nat → Except Nat (Words × Nat)
  | off, _, [] => .ok (acc, off)
  | off, n, e :: l =>
    if mask / 2 ^ e % 2 = 0 then readWords b mask acc off n l
    else
      let w : BitVec 32 := BitVec.ofNat 32 (numAt b off 4)
      if !eWordLegal e w then .error off
      else if eDrives w && (busDriver acc.ewords (e % 8)).isSome then .error off
      else
        let acc1 := { acc with ewords := mset acc.ewords e w }
        if ePort w then
          let v : BitVec 32 := BitVec.ofNat 32 (numAt b (off + 4) 4)
          if wLegal v then readWords b mask { acc1 with wwords := mset acc1.wwords e v } (off + 8) n l
          else .error (off + 4)
        else readWords b mask acc1 (off + 4) n l

/-- The segment at an offset of an image, with the offset behind it (R104): the page set has `width` by `height` tiles
and the code section `code` bytes, and `free` says which places the segment may name. -/
def readSegment (b : List Byte) (off width height code : Nat) (free : Nat → Nat → Nat → Bool) :
    Except Nat (Segment × Nat) :=
  let w0 : BitVec 32 := BitVec.ofNat 32 (numAt b off 4)
  let w4 := numAt b (off + 4) 4
  let entry := numAt b (off + 8) 8
  let dx := field w0 31 26
  let dy := field w0 25 20
  let ctx := field w0 19 18
  let nS := field w0 17 12
  if b.length < off + 16 ∨ dx ≥ width ∨ dy ≥ height ∨ nS > 16 ∨ field w0 11 0 ≠ 0 ∨ !free dx dy ctx then .error off
  else if w4 / 2 ^ 24 ≠ 0 then .error (off + 4)
  else if entry ≠ 2 ^ 64 - 1 ∧ (entry % 4 ≠ 0 ∨ entry ≥ code) then .error (off + 8)
  else
    match readWords b w4 {} (off + 16) 0 (List.range 24) with
    | .error o => .error o
    | .ok (ws, o) =>
      let sw := (List.range nS).map fun k => (BitVec.ofNat 16 (numAt b (o + 2 * k) 2) : BitVec 16)
      let fin := o + 2 * nS + (if nS % 2 = 1 then 2 else 0)
      if b.length < fin then .error o
      else
        match sFault ws.ewords width height dx dy ctx sw 0 sw with
        | some k => .error (o + 2 * k)
        | none =>
          if nS % 2 = 1 ∧ numAt b (o + 2 * nS) 2 ≠ 0 then .error (o + 2 * nS)
          else .ok ({ dx := dx, dy := dy, ctx := ctx, words := { ws with swords := sw },
                      entry := if entry = 2 ^ 64 - 1 then none else some entry }, fin)

/-- The segments of an image from an offset, with the offset behind them; no two have one place (R104). -/
def readSegments (b : List Byte) (width height code : Nat) : Nat → Nat → List Segment → Except Nat (List Segment × Nat)
  | 0, off, acc => .ok (acc, off)
  | n + 1, off, acc =>
    match readSegment b off width height code fun dx dy ctx =>
      acc.all fun h => !decide (h.dx = dx ∧ h.dy = dy ∧ h.ctx = ctx) with
    | .error o => .error o
    | .ok (g, o) => readSegments b width height code n o (acc ++ [g])

/-! ## Images -/

/-- An image as the loader checks it: `head` is the length of the header with the segments, and `size` that of the image, with
its code and data sections. -/
structure Image where
  id       : Word
  width    : Nat
  height   : Nat
  code     : Nat
  segments : List Segment
  head     : Nat
  size     : Nat

/-- The number of contexts that an image uses (R247). -/
def Image.contexts (i : Image) : Nat := i.segments.foldl (fun m g => max m (g.ctx + 1)) 1

/-- The header checked, then the segments (R14, R104). DEDUCED (log entry 70). -/
def readImage (b : List Byte) : Except Nat Image :=
  let width := numAt b 6 1
  let height := numAt b 7 1
  let count := numAt b 16 4
  if b.length < 64 ∨ numAt b 0 4 ≠ 0x4A434647 then .error 0
  else if numAt b 4 2 ≠ 1 then .error 4
  else if width = 0 ∨ width > 8 then .error 6
  else if height = 0 ∨ height > 8 then .error 7
  else if count = 0 ∨ count > 64 * width * height then .error 16
  else if numAt b 20 4 % 64 ≠ 0 then .error 20
  else if numAt b 24 4 % 4 ≠ 0 then .error 24
  else if numAt b 28 4 % 64 ≠ 0 then .error 28
  else if numAt b 36 28 ≠ 0 then .error 36
  else
    match readSegments b (4 * width) (4 * height) (numAt b 24 4) count 64 [] with
    | .error o => .error o
    | .ok (gs, off) =>
      let behind := fun (o n : Nat) => if n = 0 then 0 else o + n
      .ok { id := BitVec.ofNat 64 (numAt b 8 8), width := width, height := height, code := numAt b 20 4, segments := gs,
            head := off, size := max off (max (behind (numAt b 20 4) (numAt b 24 4)) (behind (numAt b 28 4) (numAt b 32 4))) }

/-- How many bytes the header and the segments of an image may take: a segment has 16 bytes, at most 24 E-words, 4
W-words and 16 S-words. -/
def imageBytes (head : List Byte) : Nat :=
  64 + min (numAt head 16 4) (64 * 64) * (16 + 28 * 4 + 32)

/-- The bytes of an image that its check reads: as many as translate, from the image address up. -/
def readImageBytes (s : State) (q : Requester) (va : Word) : Nat → List Byte
  | 0 => []
  | n + 1 =>
    match translate s q .read va with
    | (.error _, _) => []
    | (.ok x, _) => rdByte s.mem x.pa :: readImageBytes s q (va + 1#64) n

/-- Why an image is not loaded: a translation failed at its first byte, or a word is faulty at an offset. -/
inductive ImageFault where
  | access (c d : BitVec 8)
  | word (off : Nat)

/-- An image fetched under a job's tables and checked, with the bytes of its header and segments (R14, R322).
DEDUCED (log entry 71). -/
def fetchImage (s : State) (q : Requester) (va : Word) : Except ImageFault (Image × List Byte) :=
  match translate s q .read va with
  | (.error (.cause c d), _) => .error (.access c d)
  | (.error .violation, _) => .error (.access 7#8 1#8)
  | (.ok _, _) =>
    let head := readImageBytes s q va 64
    let b := readImageBytes s q va (imageBytes head)
    match readImage b with
    | .error o => .error (.word o)
    | .ok i => .ok (i, b.take i.head)

/-- A resident image as it is fetched (R322), with the digest of its bytes as loaded (R376). -/
def residentOf (s : State) (q : Requester) (va : Word) (i : Image) (words : List Byte) : Resident :=
  { id := i.id, addr := va, job := q.job, words := words, digest := sha512 (readImageBytes s q va i.size) }

end Sys2Proof.Machine
end

