-- ==== Sys2Proof/Machine/Launch.lean ====
section
/-!
DEFINITION. Launches, graphs and cancels: major 0x32 (R321 to R323, R345 to R348).
-/

namespace Sys2Proof.Machine

open Sys2Proof

/-- A launch descriptor (R321). -/
structure Descriptor where
  id       : Word
  image    : Word
  arg      : Word
  lctr     : Word
  gctr     : Word
  deadline : Nat
  job      : Nat

/-- A descriptor's fields, none where it breaks R321. -/
def readDescriptor (b : List Byte) : Option Descriptor :=
  let w := fun k => (BitVec.ofNat 64 (numAt b k 8) : Word)
  if numAt b 8 8 % 64 ≠ 0 ∨ numAt b 24 8 % 16 ≠ 0 ∨ numAt b 32 8 % 16 ≠ 0 ∨ numAt b 50 14 ≠ 0 then none
  else some { id := w 0, image := w 8, arg := w 16, lctr := w 24, gctr := w 32, deadline := numAt b 40 8, job := numAt b 48 2 }

/-! ## The pool (R323) -/

/-- Pool entries of a die that satisfy a condition. -/
def poolCount (s : State) (d : Nat) (p : Launch → Bool) : Nat :=
  (s.launches.filter fun l => decide (l.1 / 2 ^ 32 = d) && l.2.shared.isSome && p l.2).length

/-- The entry that a launch of a depth takes: shared (true), of its reserve (false), or none free. -/
def poolEntry (s : State) (d depth : Nat) : Option Bool :=
  if poolCount s d (fun l => decide (l.shared = some true)) < 3584 then some true
  else if poolCount s d (fun l => decide (l.shared = some false ∧ l.depth = depth)) < 64 then some false
  else none

/-- The graph of a job that a counter names and that can still take a launch (R345). -/
def openGraph (s : State) (job : Nat) (gctr : Word) : Option Graph :=
  s.graphs.find? fun g => decide (g.job = job) && decide (g.ctr = gctr) && g.live && decide (g.held < g.declared)

/-- The graph that a launch names, holding one more launch; no graph for the counter 0. -/
def holdGraph (s : State) (job : Nat) (gctr : Word) : State :=
  if gctr = 0#64 then s
  else
    match openGraph s job gctr with
    | none => s
    | some g => { s with graphs := s.graphs.map fun h => if h = g then { g with held := g.held + 1 } else h }

/-- A deadline, no later than the job's where that is set (R321). -/
def capDeadline (job d : Nat) : Nat := if job ≠ 0 ∧ (d = 0 ∨ d > job) then job else d

/-- An image entered in a die's resident-image table of 64 entries, the oldest leaving (R322). -/
def makeResident (x : Die) (r : Resident) : Die :=
  { x with images := (if x.images.length < 64 then x.images else x.images.drop 1) ++ [r] }

/-- The image that a launch names: found among the resident ones of a die, where it is not fetched again, or fetched and
entered there (R322 steps 2 and 3). -/
def findImage (s : State) (d : Nat) (x : Launch) : Except ImageFault (Resident × Image × State) :=
  match (dieAt s d).images.find? fun i => decide (i.id = x.cfgid) with
  | some r =>
    match readImage r.words with
    | .ok i => .ok (r, i, s)
    | .error o => .error (.word o)
  | none => do
    let q := launchReq { x with die := d }
    let (i, words) ← fetchImage s q x.image
    if i.id ≠ x.cfgid then .error (.word 8)
    else
      let r := residentOf s q x.image i words
      .ok (r, i, setDie s d (makeResident (dieAt s d) r))

/-- Steps 2 to 4 of R322 for a descriptor: the image found or fetched and checked, and the launch put into the pool. A
failure is recorded and marks the launch counter (R322 step 3). -/
def loadLaunch (s : State) (d : Nat) (x : Launch) (p : Place) : State :=
  let id := (dieAt s d).nextId
  let key := 2 ^ 32 * d + id
  let s1 := setDie s d { dieAt s d with nextId := id + 1 }
  let fail := fun (c dt v : Nat) =>
    markStatus (record s1 { p with launch := key, job := x.job } 2 c dt v 0 0) (launchReq { x with die := d }) x.lctr stErr
  match findImage s1 d x with
  | .error (.access c dt) => fail c.toNat dt.toNat x.image.toNat
  | .error (.word o) => fail 8 0 o
  | .ok (r, i, s2) =>
    setLaunch s2 key
      { x with image := r.addr, words := r.words, width := i.width, height := i.height, nctx := i.contexts, die := d, st := .pool }

/-- A value written to d with a status in p7. -/
def putResult (s : State) (d : BitVec 7) (v : Word) (ok : Bool) : State := modMe s fun x => writeP7 (writeVal x d v) ok
/-- A status written to p7. -/
def putStatus (s : State) (ok : Bool) : State := modMe s fun x => writeP7 x ok

/-- The descriptor of a LAUNCH with its check (R345), from eight events; for a LAUNCH.W that has waited, the one it has read.
None for one that is malformed or names no graph that takes a launch. -/
def launchDesc (s : State) (va : Word) : Except Stop (Option Descriptor × List Byte × State) := do
  let x := me s
  match x.wait with
  | some w => .ok (readDescriptor (toBytes 64 w.aux), toBytes 64 w.aux, s)
  | none => do
    let (r, s1) ← address s .read va 64
    let (b, s2) ← readSeq 8 s1 r va
    let fits := fun (t : Descriptor) =>
      decide (t.job = 0) && (decide (t.gctr = 0#64) || (openGraph s2 x.csr.jobid.toNat t.gctr).isSome)
    .ok ((readDescriptor b).filter fits, b, s2)

/-- LAUNCH and LAUNCH.W (R345); `waits` tells them apart. -/
def launchWord (i : Instr) (d a : BitVec 7) (waits : Bool) (s : State) : Host.Outcome State Fault Refusal :=
  cword i s fun s => do
    let x := me s
    let va := readVal x a
    let die := dieOf s.cur
    let job := x.csr.jobid.toNat
    let depth := x.csr.depth.toNat
    need' (decide (depth ≠ 7)) (.trap 0x0F#8 0#8 x.csr.depth)
    let (desc, b, s2) ← launchDesc s va
    match desc with
    | none => .ok (putResult s2 d 2#64 false)
    | some t =>
      match poolEntry s2 die (depth + 1) with
      | none =>
        if waits then
          .error (.wait s2 { kind := .launchReserve, value := va, aux := ofBytes b, count := (x.wait.map (·.count)).getD 0 })
        else .ok (putResult s2 d 1#64 false)
      | some sh =>
        let parent := launchOf s2 s.cur
        let own := match parent with | some l => l.deadline | none => 0
        let l : Launch :=
          { job := job, depth := depth + 1, cfgid := t.id, image := t.image, arg := t.arg, lctr := t.lctr, gctr := t.gctr,
            deadline := capDeadline (policyOf s2 job).deadline (if t.deadline = 0 then own else t.deadline),
            st := .pool, shared := some sh, parent := some x.launch }
        let s3 := holdGraph s2 job t.gctr
        let id := (dieAt s3 die).nextId
        .ok (putResult (loadLaunch s3 die l (placeOf s3 s.cur 24)) d (BitVec.ofNat 64 id) true)

/-- LAUNCH (R345). -/
def execLaunch (d a : BitVec 7) (s : State) : Host.Outcome State Fault Refusal := launchWord (.launch d a) d a false s

/-- LAUNCH.W (R345). -/
def execLaunchW (d a : BitVec 7) (s : State) : Host.Outcome State Fault Refusal := launchWord (.launchW d a) d a true s

/-- Live graphs of a die (R346). -/
def liveGraphs (s : State) (d : Nat) : List Graph := s.graphs.filter fun g => decide (g.die = d) && g.live

/-- GRAPHNEW (R346). -/
def execGraphnew (a b : BitVec 7) (s : State) : Host.Outcome State Fault Refusal :=
  cword (.graphnew a b) s fun s => do
    let x := me s
    let va := readVal x a
    let n := readVal x b
    let job := x.csr.jobid.toNat
    let die := dieOf s.cur
    let (r, s1) ← address s .write va 16
    let s2 ← if regK2 x = 0#64 then .ok s1 else do
      let (_, s2) ← address s1 .write (regK2 x) 16
      pure s2
    if n.toNat = 0 ∨ n.toNat ≥ 65536 ∨ (s2.graphs.any fun g => g.live && decide (g.job = job) && decide (g.ctr = va)) ∨
        (liveGraphs s2 die).length ≥ 256 then .ok (putStatus s2 false)
    else
      let s3 ← writeC s2 r (toBytes 16 0) none va
      .ok (putStatus { s3 with
        graphs := s3.graphs ++ [{ job := job, die := die, ctr := va, phase := regK2 x, declared := n.toNat }] } true)

/-- The launches and the graphs of a level whose counter is a (R319, R347), for a job or, from the system job, for any;
none where no live level has it. -/
def levelOf (s : State) (job : Nat) (ctr : Word) (level : Nat) : Option (Nat × List Nat × List Graph) :=
  let mine := fun (j : Nat) => decide (job = 0) || decide (j = job)
  let ls := fun (p : Launch → Bool) => launchesWhere s fun l => !l.cancelled && p l
  match level with
  | 0 =>
    match s.launches.find? fun l => mine l.2.job && decide (l.2.lctr = ctr) && !l.2.cancelled with
    | some l => some (l.2.job, [l.1], [])
    | none => none
  | 1 =>
    match s.graphs.find? fun g => mine g.job && decide (g.ctr = ctr) && g.live with
    | some g => some (g.job, ls fun l => decide (l.job = g.job) && decide (l.gctr = ctr), [g])
    | none => none
  | 2 =>
    match s.graphs.find? fun g => mine g.job && decide (g.phase = ctr) with
    | some g =>
      let gs := s.graphs.filter fun h => decide (h.job = g.job) && decide (h.phase = ctr)
      some (g.job, ls fun l => decide (l.job = g.job) && gs.any fun h => decide (h.ctr = l.gctr), gs)
    | none => none
  | _ =>
    match s.jobs.find? fun j => mine j.1 && decide (j.2.ctr = ctr) with
    | some j => some (j.1, ls fun l => decide (l.job = j.1), s.graphs.filter fun g => decide (g.job = j.1))
    | none => none

/-- The launches among some that still have an engine operation to be replaced (R347). -/
def stillEnding (s : State) (ls : List Nat) : List Nat := ls.filter fun l => s.engines.any fun e => decide (e.2.launch = l)

/-- What follows a cancel of launches (R347): the issuer is held until their engine operations have ended; one that the
cancel retired goes no further. -/
def afterCancel (s : State) (ls : List Nat) : Except Stop State :=
  if (me s).st = .retired then .error (.ends s)
  else
    match stillEnding s ls with
    | [] => .ok (putStatus (modMe s fun x => { x with awaits := none }) true)
    | l => .error (.holds (modMe s fun x => { x with awaits := some l }))

/-- CANCEL (R347, R319). DEDUCED (log entry 22). -/
def execCancel (a b : BitVec 7) (s : State) : Host.Outcome State Fault Refusal :=
  cword (.cancel a b) s fun s => do
    let x := me s
    let va := readVal x a
    let lv := (readVal x b).toNat
    match x.awaits with
    | some ls => afterCancel s ls
    | none => do
      let (_, s1) ← address s .read va 16
      if lv ≥ 4 ∨ va = 0#64 then .ok (putStatus s1 false)
      else
        match levelOf s1 x.csr.jobid.toNat va lv with
        | none => .ok (putStatus s1 false)
        | some (job, ls, gs) =>
          let s2 := cancelLevel s1 ls gs (decide (lv = 3))
          afterCancel (if lv = 2 ∨ lv = 3 then cancelCounter s2 { requester s s.cur with job := job } va else s2) ls

/-- JOBDL (R348, R330). -/
def execJobdl (a b : BitVec 7) (s : State) : Host.Outcome State Fault Refusal :=
  cword (.jobdl a b) s fun s =>
    let x := me s
    let j := (readVal x a).toNat
    if j < 65536 ∧ jobLive s j then
      .ok (putStatus { s with jobs := mset s.jobs j { policyOf s j with deadline := (readVal x b).toNat } } true)
    else .ok (putStatus s false)

end Sys2Proof.Machine
end

