-- ==== Sys2Proof/Machine/Region.lean ====
section
/-!
DEFINITION. Element freezes and their resume (R173, R174), the start of a pre-emption (R398, R401), and writes to the region
window (R263).
-/

namespace Sys2Proof.Machine

open Sys2Proof

/-! ## Freezing an element (R173, R174) -/

/-- EFR of a fault (R174). -/
def efrOf (where_ cause detail ty seq : Nat) : Word :=
  BitVec.ofNat 64 (2 ^ 63 + where_ * 2 ^ 56 + cause * 2 ^ 48 + detail * 2 ^ 40 + ty * 2 ^ 36 + seq * 2 ^ 24)

/-- A unit whose datapath has an element frozen (R47). -/
def faultByElement (x : UnitRegs) : UnitRegs :=
  if x.st = .ready ∨ x.st = .running ∨ x.st = .waiting then { x with before := x.st, st := .faulted, selfFault := false } else x

/-- An element frozen under fault: EFR and EFV written, its record handed over, its unit faulted (R47, R173). -/
def freezeElem (s : State) (u e where_ cause detail : Nat) (value : Word) (ty seq : Nat) : State :=
  let efr := efrOf where_ cause detail ty seq
  let s1 := setElem s u e { elemAt s u e with efr := efr, efv := value }
  let s2 := record s1 (placeOf s1 u e) 0 cause detail value.toNat efr.toNat 0
  if (mget s2.units u).isSome then setUnit s2 u (faultByElement (unitAt s2 u)) else s2

/-- Whether an element of a slot is frozen. -/
def anyFrozen (s : State) (u : Nat) : Bool := s.elems.any fun e => decide (e.1 / 32 = u) && e.2.frozen

/-- A frozen element resumed (R173): EFR.V clears, and for causes 0x05 to 0x07 the open round is voided first. The unit
returns to its state once no element is frozen and no C-word of its own faulted it (R47). DEDUCED (log entry 97). -/
def resumeElem (s : State) (u e : Nat) : State :=
  let x := elemAt s u e
  let cause := field x.efr 55 48
  let s1 := setElem s u e { x with efr := x.efr &&& 0x7FFFFFFFFFFFFFFF#64 }
  let s2 := if 5 ≤ cause ∧ cause ≤ 7 then voidRounds s1 (seriesOf s1 u) false else s1
  let y := unitAt s2 u
  if y.st = .faulted ∧ !y.selfFault ∧ !anyFrozen s2 u then setUnit s2 u { y with st := y.before } else s2

/-- Frozen engine operations of a unit resumed at their faulting access (R331). -/
def resumeEngines (s : State) (u : Nat) : State :=
  { s with engines := s.engines.map fun e => if e.2.ofUnit s u then (e.1, { e.2 with frozen := false }) else e }

/-- Whether a resume of element 24 has something to resume (R263). -/
def canResumeUnit (s : State) (u : Nat) : Bool :=
  decide ((unitAt s u).st = .faulted) || s.engines.any fun e => e.2.ofUnit s u && e.2.frozen

/-- A faulted unit and its frozen engine operations resumed (R263). -/
def resumeUnit (s : State) (u : Nat) : State :=
  let s1 := resumeEngines s u
  let x := unitAt s1 u
  if x.st = .faulted then setUnit s1 u { x with st := x.before, selfFault := false } else s1

/-! ## Starting a pre-emption (R398, R401, R405) -/

/-- Whether an element or a unit of a launch forbids a pre-emption (R401). -/
def saveRefused (s : State) (l : Nat) : Bool :=
  (heldSlots s l).any fun u => anyFrozen s u || decide ((unitAt s u).st = .faulted) || decide ((unitAt s u).st = .frozen)

/-- Whether a launch's save slot holds the snapshot of another launch of its job (R402). -/
def slotOccupied (s : State) (l : Nat) : Bool :=
  match mget s.launches l with
  | none => false
  | some x => s.launches.any fun y => decide (y.1 ≠ l) && decide (y.2.job = x.job) && decide (y.1 % 64 = l % 64) &&
      (decide (y.2.st = .suspended) || decide (y.2.st = .poolSaved) || decide (y.2.st = .saving))

/-- The status of a pre-emption of a launch (R405), but for status 3. -/
def saveStatus (s : State) (l : Nat) : Nat :=
  match mget s.launches l with
  | none => 1
  | some x =>
    if x.st = .saving then 2
    else if x.st ≠ .running then 5
    else if x.cancelled ∨ saveRefused s l then 2
    else if slotOccupied s l then 4 else 0

/-- A pre-emption started (R398): the launch's units issue no more, and parked waits leave their lists. `toPool` says that
the allocator asked for it, and `inPlace` names the kind of the record after which the launch resumes where it is. -/
def beginSave (s : State) (l : Nat) (toPool : Bool) (inPlace : Option (BitVec 8)) : State :=
  match mget s.launches l with
  | none => s
  | some x =>
    setLaunch (unparkThreads s (heldSlots s l)) l { x with st := .saving, toPool := toPool, inPlace := inPlace, yielded := false }

/-! ## Writes to the region window (R263) -/

/-- A refused write: REF set (R263). -/
def regionRefuse (s : State) (pg : Nat) : State := setPage s pg { pageAt s pg with ref := true }
/-- An accepted command: REF clear. -/
def regionAccept (s : State) (pg : Nat) : State := setPage s pg { pageAt s pg with ref := false }

/-- RCSEL written: elements 25 to 31 and reserved bits are refused. -/
def writeRcsel (s : State) (pg : Nat) (v : Word) : State :=
  if v.toNat ≥ 2048 ∨ field v 10 6 ≥ 25 then regionRefuse s pg else setPage s pg { pageAt s pg with rcsel := v }

/-- A register of the unit frame written, where the unit is faulted (R263); reserved bits are refused (R45). -/
def writeFrame (s : State) (pg off : Nat) (v : Word) : State :=
  let u := selSlot pg (pageAt s pg)
  let x := unitAt s u
  if x.st ≠ .faulted then regionRefuse s pg
  else
    match off with
    | 0x040 => if v.toNat % 4 = 0 then setUnit s u { x with pc := v } else regionRefuse s pg
    | 0x048 => if v &&& csrReserved 2#12 = 0#64 then setUnit s u { x with csr := { x.csr with trappc := v } } else regionRefuse s pg
    | 0x050 => if v &&& csrReserved 1#12 = 0#64 then setUnit s u { x with csr := { x.csr with cause := v } } else regionRefuse s pg
    | 0x058 => setUnit s u { x with csr := { x.csr with trapval := v } }
    | _ => if v &&& csrReserved 0#12 = 0#64 then setUnit s u (writeCsr x 0#12 v) else regionRefuse s pg

/-- ESR written: its W1C bits clear where the value has a one (R174, R178). The converter's opstat is read-only (R200). -/
def writeEsr (s : State) (pg : Nat) (v : Word) : State :=
  let p := pageAt s pg
  let e := selElem p
  let x := elemAt s (selSlot pg p) e
  let m : Word := if e = 22 then 0x9F#64 else 0xFF9F#64
  if e = 24 then s else setElem s (selSlot pg p) e { x with esr := x.esr &&& ~~~(v &&& m) }

/-- CVSR written: STEP clears (R200). -/
def writeCvsr (s : State) (pg : Nat) (v : Word) : State :=
  let p := pageAt s pg
  let x := elemAt s (selSlot pg p) 22
  if selElem p = 22 ∧ bitOf v 8 then setElem s (selSlot pg p) 22 { x with work := { x.work with cvStep := false } } else s

/-- RCCMD 1 (R263). -/
def cmdResume (s : State) (pg : Nat) : State :=
  let p := pageAt s pg
  let u := selSlot pg p
  let e := selElem p
  if e = 24 then (if canResumeUnit s u then regionAccept (resumeUnit s u) pg else regionRefuse s pg)
  else if (elemAt s u e).frozen then regionAccept (resumeElem s u e) pg else regionRefuse s pg

/-- RCCMD 2 (R263). -/
def cmdCancel (s : State) (pg : Nat) : State :=
  match (bankAt s (selSlot pg (pageAt s pg))).launch with
  | some l => regionAccept (cancelLaunch s l) pg
  | none => regionRefuse s pg

/-- RCCMD 3 (R263): a snapshot in place, with a record of kind 5. -/
def cmdSnapshot (s : State) (pg : Nat) : State :=
  match (bankAt s (selSlot pg (pageAt s pg))).launch with
  | some l => if saveStatus s l = 0 then regionAccept (beginSave s l false (some 5#8)) pg else regionRefuse s pg
  | none => regionRefuse s pg

/-- A write to the region window of a page (R263). Read-only and reserved registers keep what they hold; a reserved one
written with a nonzero value is refused. -/
def regionWrite (s : State) (pg off : Nat) (v : Word) : State :=
  match off with
  | 0x000 => s
  | 0x008 => writeRcsel s pg v
  | 0x010 => s
  | 0x018 => s
  | 0x020 => writeEsr s pg v
  | 0x028 => writeCvsr s pg v
  | 0x030 =>
    match v.toNat with
    | 1 => cmdResume s pg
    | 2 => cmdCancel s pg
    | 3 => cmdSnapshot s pg
    | _ => regionRefuse s pg
  | 0x038 => s
  | 0x040 => writeFrame s pg off v
  | 0x048 => writeFrame s pg off v
  | 0x050 => writeFrame s pg off v
  | 0x058 => writeFrame s pg off v
  | 0x060 => writeFrame s pg off v
  | _ => if v = 0#64 then s else regionRefuse s pg

/-- What a slot's resumed element or unit does follows the store that resumed it, walks included (R354): the times of its unit,
its engine operations, its round series and its page's walker are at least that of the store. -/
def followStore (s : State) (u pts : Nat) : State :=
  let key := seriesOf s u
  let r := seriesAt s key
  let pg := pageOfTile (tileOf u)
  let p := pageAt s pg
  let s1 := { s with
    units := s.units.map fun x => if x.1 = u then (u, { x.2 with pts := max x.2.pts pts }) else x
    engines := s.engines.map fun e => if e.2.ofUnit s u then (e.1, { e.2 with pts := max e.2.pts pts }) else e }
  setPage (setSeries s1 key { r with pts := max r.pts pts }) pg { p with wpts := max p.wpts pts }

/-- A store to the region window of a page by a thread at a time (R263, R354). -/
def regionStore (s : State) (pg off : Nat) (v : Word) (pts : Nat) : State :=
  let s1 := regionWrite s pg off v
  if off = 0x030 ∧ v = 1#64 then followStore s1 (selSlot pg (pageAt s pg)) pts else s1

/-- A store's own effect on its unit, seen after the effect: a unit that it retired does not go on. -/
def unlessRetired (s : State) : Except Stop State :=
  if (me s).st = .retired ∨ (mget s.units s.cur).isNone then .error (.ends s) else .ok s

/-- A store of the issuing unit: to a region window (R263), or to memory as writeC makes it. -/
def storeC (s : State) (x : XOk) (bs : List Byte) (scope : Option Nat) (va : Word) : Except Stop State :=
  if isRegion x.pa && decide (bs.length = 8) then
    unlessRetired (regionStore s (windowPage x.pa) (x.pa % 4096) (BitVec.ofNat 64 (ofBytes bs)) (me s).pts)
  else writeC s x bs scope va

end Sys2Proof.Machine
end

