-- ==== Sys2Proof/Machine/Datapath.lean ====
section
/-!
DEFINITION. What every element of a tile shares (07_core.md): FIFOs and credit (R160), the ports that an operation reads
and what they present (R26, R161, R162), end of stream and mismatches (R164, R165, R254), error tokens (R172), freezes
(R173, R177), commands (R107, R108) and the round in which an element stands (R252 to R254).

An operation's tokens wait in the element's output until a route moves them (log entry 9). The element that acts is
element `curElem` of slot `cur`.
-/

namespace Sys2Proof.Machine

open Sys2Proof

/-! ## The element that acts -/

/-- The element that acts. -/
def el (s : State) : Elem := elemAt s s.cur s.curElem
/-- The element that acts, written. -/
def setEl (s : State) (x : Elem) : State := setElem s s.cur s.curElem x
/-- The element that acts, changed. -/
def modEl (s : State) (f : Elem → Elem) : State := setEl s (f (el s))
/-- The work of the element that acts. -/
def wk (s : State) : Work := (el s).work
/-- The work of the element that acts, changed. -/
def modWk (s : State) (f : Work → Work) : State := modEl s fun x => { x with work := f x.work }
/-- Argument slot n of the element that acts (R108). -/
def slot (s : State) (n : Nat) : Word := (wk s).args.toList.getD n 0#64
/-- The E-word of the element that acts. -/
def ew (s : State) : BitVec 32 := ewordAt s s.cur s.curElem
/-- The state in which an element of a slot acts. -/
def asElem (s : State) (u e : Nat) : State := { s with cur := u, curElem := e }

/-- An ERR token of the element that acts (R172). -/
def errTok (s : State) (code : Nat) : Token := { ty := tyErr, data := errData s.cur s.curElem code }

/-- Exceptions ORed into ESR (R130, R178). -/
def addExc (s : State) (x : BitVec 5) : State := modEl s fun e => { e with esr := e.esr ||| x.setWidth 64 }
/-- Bits set in ESR. -/
def addEsr (s : State) (n : Nat) : State := modEl s fun e => { e with esr := e.esr ||| BitVec.ofNat 64 n }

/-! ## FIFOs (R160) -/

/-- The number of the FIFO of an element's input. -/
def fifoNo (u e k : Nat) : Nat := 256 * u + 4 * e + k
/-- The number of the FIFO of a mesh input. -/
def meshNo (u port : Nat) : Nat := 256 * u + 128 + port

/-- The FIFOs to which a switch output of a slot sends (R157, R248). -/
def outFifos (s : State) (u out : Nat) : List Nat :=
  if out < 8 then
    match beyond (tileOf u) out with
    | some t => [meshNo (4 * t + ctxOf u) (facing out)]
    | none => []
  else (busReaders (bankAt s u).words.ewords (out - 8)).map fun r => fifoNo u r.1 r.2

/-- Whether every FIFO of a list has credit (R160); saved tokens enter first (R408). -/
def allCredit (s : State) (fs : List Nat) : Bool :=
  !fs.isEmpty && fs.all fun f => decide (0 < (fifoAt s f).credit) && (fifoAt s f).inject.isEmpty

/-- The head of a FIFO taken: its slot is owed to the sender, and a boundary moves the FIFO into the next round. -/
def popFifo (f : Fifo) : Fifo :=
  match f.q with
  | [] => f
  | t :: q =>
    { f with
      q := q
      owed := f.owed + 1
      final := t.eosAtLeast 2
      round := if t.ends then f.round + 1 else f.round
      killed := if t.ty = tyDigit ∧ t.gend then f.killed.filter fun k => decide (k.seq ≠ t.seq) else f.killed }

/-- The first n tokens of a FIFO taken. -/
def popN' : Nat → Fifo → Fifo
  | 0, f => f
  | n + 1, f => popN' n (popFifo f)

/-- A token put into a FIFO by a sender that held a credit. -/
def pushFifo (f : Fifo) (t : Token) : Fifo := { f with q := f.q ++ [t], credit := f.credit - 1 }

/-! ## Output -/

/-- Whether the output of an element is the input of some route. DESIGN CHOICE (log entry 9). -/
def routedOut (b : Bank) (e : Nat) : Bool :=
  (b.words.swords.any fun w => decide ((fSi w).toNat = 8 + e % 8)) ||
  (b.pending.map fun p => p.swords.any fun w => decide ((fSi w).toNat = 8 + e % 8)).getD false

/-- Tokens emitted by the element that acts: they wait in its output; with no route at its port there is no reader to wait
for (R161, R239), and they are gone. An ERR sets ERRS (R174). -/
def emit (s : State) (ts : List Token) : State :=
  let s1 := if ts.any fun t => decide (t.ty = tyErr) then addEsr s 128 else s
  if routedOut (bankAt s1 s1.cur) s1.curElem then modEl s1 fun x => { x with out := x.out ++ ts } else s1

/-- Whether the element of a slot sends tokens: it drives, and MAMO only where it emits old values (R172, R207). -/
def sends (w : BitVec 32) : Bool := eDrives w && (decide (eopOf w ≠ 0x64) || bitOf w 0)

/-- The FIFOs that read the output of an element of a slot, through the routes from its port (R157, R161). -/
def readersOf (s : State) (u e : Nat) : List Nat :=
  ((bankAt s u).words.swords.filter fun w => decide ((fSi w).toNat = 8 + e % 8)).flatMap fun w => outFifos s u (fSo w).toNat

/-- Whether an element that sends holds credit towards every reader of its output (R161, R163); saved tokens enter first
(R408). -/
def hasCredit (s : State) (u e : Nat) : Bool :=
  !sends (ewordAt s u e) ||
    (readersOf s u e).all fun f => decide (0 < (fifoAt s f).credit) && (fifoAt s f).inject.isEmpty

/-! ## Why a firing does not complete -/

/-- Why a firing does not take place: the element freezes (R173), with the place, the cause, DETAIL, the value and the
token presented, and in a failed translation what the walk has read (R316); it makes a security violation (R379); it waits; or
it waits at a bank (R210), with the state it then has. -/
inductive Halt where
  | freeze (wh cause detail : Nat) (value : Word) (tok : Token)
  | faulted (s : State) (wh cause detail : Nat) (value : Word) (tok : Token)
  | violation (s : State) (va : Word)
  | wait
  | park (s : State)

/-- An argument outside its range (R177). -/
def badArg (slot : Nat) (tok : Token) : Halt := .freeze 4 8 0 (BitVec.ofNat 64 slot) tok

/-- A check that halts the element where it fails. -/
def needE (ok : Bool) (e : Halt) : Except Halt Unit := if ok then .ok () else .error e

/-- A security violation by an element (R379): the element stops, its unit is frozen where the slot has one, and one report
is written. -/
def violationElem (s : State) (va : Word) : State :=
  let u := s.cur
  let s1 := modEl s fun x => { x with sec := true }
  if (unitAt s1 u).st = .free then
    let p := placeOf s1 u s1.curElem
    logReport s1 (dieOf u)
      (securityReport 0 0 (dieOf u) (tileOf u % 1024) (ctxOf u) s1.curElem va.toNat p.job (tbOf s1 (dieOf u)))
  else freezeBySecurity s1 u 0 s1.curElem va.toNat

/-- A state with the reads that a walk has made (R316). -/
def afterReads (s s' : State) : State := { s with mem := s'.mem, pages := s'.pages, free := s'.free }

/-- What a firing leaves: its state, or the element as it was, frozen or waiting (R173). -/
def settle (s : State) (r : Except Halt State) : State :=
  match r with
  | .ok s' => s'
  | .error (.freeze wh c d v t) => freezeElem s s.cur s.curElem wh c d v t.ty.toNat t.seq.toNat
  | .error (.faulted s' wh c d v t) =>
    freezeElem (afterReads s s') s.cur s.curElem wh c d v t.ty.toNat t.seq.toNat
  | .error (.violation s' va) => violationElem (afterReads s s') va
  | .error .wait => s
  | .error (.park s') => s'

/-! ## Ports (R26, R162) -/

/-- A port that an operation reads: A, B or C as 0, 1 or 2, its input and its sticky count. -/
structure Port where
  n : Nat
  k : Nat
  s : Nat
deriving DecidableEq, Repr

/-- A port field. -/
def portAs (n : Nat) (f : BitVec 5) : Port := { n := n, k := f.toNat / 8, s := f.toNat % 8 }

/-- The ports that an E-word always reads. -/
def portsOf (w : BitVec 32) : List Port :=
  let r := ePortsRead w
  (if r.1 then [portAs 0 (fEa w)] else []) ++ (if r.2.1 then [portAs 1 (fEb w)] else []) ++
    (if r.2.2 then [portAs 2 (fEc w)] else [])

/-- The port that takes the token for all the ports that name one input: the first of them. -/
def ownerOf (ps : List Port) (p : Port) : Port := (ps.find? fun q => decide (q.k = p.k)).getD p
/-- The ports that take tokens: one for each input. -/
def owners (ps : List Port) : List Port := ps.filter fun p => decide (ownerOf ps p = p)

/-- The FIFO of a port of the element that acts. -/
def portFifo (s : State) (p : Port) : Fifo := fifoAt s (fifoNo s.cur s.curElem p.k)
/-- The FIFO of a port of the element that acts, written. -/
def setPortFifo (s : State) (p : Port) (f : Fifo) : State := setFifo s (fifoNo s.cur s.curElem p.k) f
/-- What a port holds as sticky. -/
def heldAt (s : State) (p : Port) : Option Held := ((wk s).held.toList.getD p.n none)
/-- What a port holds as sticky, written. -/
def setHeld (s : State) (p : Port) (h : Option Held) : State :=
  if hn : p.n < 3 then modWk s fun w => { w with held := w.held.set p.n h hn } else s

/-- The flits that a sticky port has taken of a value group that it will hold. -/
def accAt (s : State) (p : Port) : List Token :=
  match p.n with
  | 0 => (wk s).grp.inA | 1 => (wk s).grp.inB | _ => (wk s).grp.inC
/-- The flits that a port has taken of a value group, written. -/
def setAcc (s : State) (p : Port) (l : List Token) : State :=
  modWk s fun w =>
    match p.n with
    | 0 => { w with grp := { w.grp with inA := l } }
    | 1 => { w with grp := { w.grp with inB := l } }
    | _ => { w with grp := { w.grp with inC := l } }

/-- Whether a token is part of a value group. -/
def Token.isFlit (t : Token) : Bool := decide (t.ty = tyDigit) || decide (t.ty = tyHdr)
/-- Whether a token ends what it belongs to: a value group, or itself. -/
def Token.whole (t : Token) : Bool := !t.isFlit || (decide (t.ty = tyDigit) && t.gend)

/-- The first m tokens of a FIFO; an ERR that an EOS or a TAG follows stands there alone (R183). -/
def firstOf (m : Nat) (q : List Token) : List Token :=
  (q.take m).takeWhile fun t => decide (m ≤ 1) || (decide (t.ty ≠ tyEos) && decide (t.ty ≠ tyTag))

/-- The next m tokens that a port presents (R161): those of its held token, else those of its FIFO. -/
def peekPort (s : State) (p : Port) (m : Nat) : List Token :=
  match heldAt s p with
  | some h => (h.toks.drop h.pos).take m
  | none => firstOf m (portFifo s p).q

/-- m tokens of a port consumed (R161, R162): a held token counts down, and a token that arrives at a sticky port is held,
a value group or a vector as a whole. -/
def takePort (s : State) (p : Port) (m : Nat) : State :=
  match heldAt s p with
  | some h =>
    if h.pos + m < h.toks.length then setHeld s p (some { h with pos := h.pos + m })
    else if h.till then setHeld s p (some { h with pos := 0 })
    else setHeld s p (if h.left ≤ 1 then none else some { h with pos := 0, left := h.left - 1 })
  | none =>
    let f := portFifo s p
    let ts := firstOf m f.q
    let s1 := setPortFifo s p (popN' ts.length f)
    if p.s = 0 then s1
    else
      let acc := accAt s1 p ++ ts
      if acc.getLast?.any Token.whole then
        setAcc (setHeld s1 p (some { toks := acc, left := p.s, till := decide (p.s = 7) })) p []
      else setAcc s1 p acc

/-- One firing's tokens consumed: m from each input that the ports name (R26). -/
def takeAll (s : State) (ps : List Port) (m : Nat) : State := (owners ps).foldl (fun s p => takePort s p m) s

/-- The tokens of a firing that some of an operation's ports consume: m from each input that they name (R26). -/
def takeSome (s : State) (ps sel : List Port) (m : Nat) : State :=
  ((owners ps).filter fun o => sel.any fun p => decide (ownerOf ps p = o)).foldl (fun s p => takePort s p m) s

/-- The tokens that a port presents to a firing, through the port that takes them. -/
def present (s : State) (ps : List Port) (m : Nat) (p : Port) : List Token := peekPort s (ownerOf ps p) m

/-! ## What the ports present (R164, R165, R254, R399) -/

/-- What a FIFO presents to an operation that takes `size` tokens at a time: nothing yet, data, a vector that an EOS or a
TAG cuts short (R183), an EOS or a TAG. -/
inductive Pres where
  | none | data | cut
  | eos (r : Nat)
  | tag (n : Nat)
deriving DecidableEq, Repr

/-- What a FIFO presents. -/
def presOf (q : List Token) (size : Nat) : Pres :=
  match q with
  | [] => .none
  | t :: q =>
    if t.ty = tyEos then .eos t.rank.toNat
    else if t.ty = tyTag then .tag (t.data.toNat % 2 ^ 32)
    else if size ≤ 1 then .data
    else
      match q with
      | [] => .none
      | t2 :: _ => if t.ty ≠ tyErr ∧ (t2.ty = tyEos ∨ t2.ty = tyTag) then .cut else .data

/-- What an element does next: nothing; a firing of its operation; what the array's intake takes by itself (R193); the loss of
a data token under R165; an EOS step; a round step; the save of R399; the record of tokens for a save; the freeze on a token
of a type that it never takes; or the loss of a CFG token (R113). -/
inductive Act where
  | idle
  | fire
  | intake
  | drop (ps : List Port)
  | eos (r : Nat)
  | round (n : Nat)
  | save
  | record (ps : List Port)
  | bad (p : Port) (t : Token)
  | cfg (ps : List Port)
deriving DecidableEq, Repr

/-- Whether a port presents data by a token that it holds. DEDUCED (log entry 34). -/
def holds (s : State) (p : Port) : Bool := (heldAt s p).isSome
/-- Whether a port holds a token until an EOS of rank 1 or higher. -/
def holdsTill (s : State) (p : Port) : Bool := (heldAt s p).any (·.till)

/-- Whether a port presents MRK (R398): its head is one, its last token was an EOS of rank 2 or higher, or it holds a
count-7 token. -/
def presentsMrk (s : State) (p : Port) : Bool :=
  let f := portFifo s p
  match f.q with
  | t :: _ => decide (t.ty = tyMrk)
  | [] => f.final || holdsTill s p

/-- The highest rank among what ports present. -/
def topRank (l : List Pres) : Nat := l.foldl (fun m p => match p with | .eos r => max m r | _ => m) 0
/-- The TAG numbers among what ports present. -/
def tagNums (l : List Pres) : List Nat := l.filterMap fun p => match p with | .tag n => some n | _ => none
/-- Whether a presentation is an EOS or a TAG. -/
def Pres.isEnd : Pres → Bool
  | .eos _ => true
  | .tag _ => true
  | _ => false

/-- The step of ports that all present an EOS or a TAG, by R164 and R254: an EOS step where all are EOSs, a round step where
each is a TAG of one number or an EOS of rank 1 or higher; otherwise the ports that disagree lose what they present
(R165): an EOS of rank 0 against a TAG, and a TAG behind another's. -/
def endStep (es : List (Port × Pres)) : Act :=
  let ns := tagNums (es.map (·.2))
  if ns.isEmpty then .eos (topRank (es.map (·.2)))
  else
    let top := ns.foldl max 0
    let out := es.filter fun e => match e.2 with
      | .eos r => decide (r = 0)
      | .tag n => decide (n < top)
      | _ => false
    if out.isEmpty then .round top else .drop (out.map (·.1))

/-- What ports that must agree do (R161, R162, R164, R165, R254). A port with a held token presents it while another port
presents data; where every port holds one, they are presented until the counts are used up, or where all have count 7 until an
end stands behind one of them. While all others present an end, a port of count 7 presents one too, and a port of count 1 to 6
presents what stands behind its token. -/
def agree (s : State) (ps : List Port) (size : Nat) : Act :=
  let os := (owners ps).map fun p => (p, presOf (portFifo s p).q size)
  let free := os.filter fun o => !holds s o.1
  let kept := os.filter fun o => holds s o.1
  let cuts := free.filter fun o => decide (o.2 = .cut)
  if !cuts.isEmpty then .drop (cuts.map (·.1))
  else if free.isEmpty then
    if kept.isEmpty then .idle
    else
      let ends := kept.filter fun o => o.2.isEnd
      if !ends.isEmpty && kept.all fun o => holdsTill s o.1 then endStep ends else .fire
  else if free.any fun o => decide (o.2 = .none) then .idle
  else if free.all fun o => decide (o.2 = .data) then .fire
  else if free.any fun o => decide (o.2 = .data) then .drop ((free.filter fun o => decide (o.2 = .data)).map (·.1))
  else
    let soft := kept.filter fun o => !holdsTill s o.1
    let late := soft.filter fun o => !o.2.isEnd && !decide (o.2 = .none)
    if soft.any fun o => decide (o.2 = .none) then .idle
    else if !late.isEmpty then .drop (late.map (·.1))
    else
      let tags := !(tagNums (free.map (·.2))).isEmpty
      let extra := kept.filter fun o => holdsTill s o.1 && (match o.2 with
        | .eos r => !tags || decide (1 ≤ r)
        | .tag _ => tags
        | _ => false)
      endStep (free ++ soft ++ extra)

/-- A token type reserved on a forward channel (R36). -/
def reservedType (t : Token) : Bool := decide (t.ty = 4#4) || decide (11 ≤ t.ty.toNat)

/-- What comes before an operation's own decision: CFG tokens (R113), MRK tokens (R399), and tokens of a type that the
operation never takes (R36, R161). `takes` gives the data types of a port. DEDUCED (log entry 33). -/
def preAct (s : State) (ps : List Port) (takes : Nat → BitVec 4 → Bool) (rest : Act) : Act :=
  let os := owners ps
  let head := fun (p : Port) => (portFifo s p).q.head?
  let cfgs := os.filter fun p => (head p).any fun t => decide (t.ty = tyCfg)
  if !cfgs.isEmpty then .cfg cfgs
  else if os.any fun p => (head p).any fun t => decide (t.ty = tyMrk) then
    let behind := os.filter fun p => !presentsMrk s p
    if behind.isEmpty then .save
    else .record (behind.filter fun p => !(portFifo s p).q.isEmpty)
  else
    match ps.findSome? fun p =>
      if holds s (ownerOf ps p) then none
      else (head p).bind fun t =>
        if reservedType t || !(takes p.n t.ty || t.ty = tyEos || t.ty = tyTag || t.ty = tyErr) then some (p, t) else none with
    | some b => .bad b.1 b.2
    | none => rest

/-- What an operation does whose ports must all present a token of `size` (R161). -/
def plainAct (s : State) (ps : List Port) (size : Nat) (takes : Nat → BitVec 4 → Bool) : Act :=
  preAct s ps takes (agree s ps size)

/-! ## Rounds at an element (R254) -/

/-- Whether the element that acts may open round n + 1: round n - 1 has committed (R254 step 1). -/
def mayOpen (s : State) (n : Nat) : Bool := decide (n ≤ (seriesAt s (seriesOf s s.cur)).next)

/-- The element's state copied into the shadow of the round that opens, and the element moved into it (R254 step 2). -/
def openRound (s : State) (n : Nat) : State :=
  let s1 := takeShadow s s.cur s.curElem n
  modEl s1 fun x => { x with round := n, fin := false, ended := false }

/-- The element moved out of a round that an EOS of rank 1 or higher ended, where the next token opens another (R252,
R254); it waits while two rounds are open. -/
def enterRound (s : State) : Except Halt State :=
  let x := el s
  if !x.fin then .ok (if x.ended then setEl s { x with ended := false } else s)
  else if x.shadows.any fun h => decide (h.round = x.round) then
    if mayOpen s x.round then .ok (openRound s (x.round + 1)) else .error .wait
  else .ok (openRound s x.round)

/-! ## Commands (R107, R108) -/

/-- A command taken, and recorded for a replay (R256). -/
def tookCommand (x : Elem) (c : Command) : Elem :=
  { x with shadows := x.shadows.map fun h => { h with taken := h.taken ++ [c] } }

/-- Argument slot j written, and j advanced (R108). -/
def putArg (w : Work) (v : Word) (reset : Bool) : Work :=
  let j := (if reset then 0 else w.j) % 8
  if h : j < 8 then { w with args := w.args.set j v h, j := (j + 1) % 8 } else w

/-- The commands at the head of an element's queue that it can take: arguments, and a start while it runs no stream. -/
def takeCommands : Nat → Elem → Elem
  | 0, x => x
  | n + 1, x =>
    match x.cmds with
    | .arg v r :: l => takeCommands n (tookCommand { x with cmds := l, work := putArg x.work v r } (.arg v r))
    | .go str :: l =>
      if x.stream.isSome then x
      else takeCommands n (tookCommand { x with cmds := l, stream := some str, work := { x.work with j := 0 } } (.go str))
    | _ => x

/-- Whether an element stands inside a value group, a vector or a block: its arguments stay as they are (R177). -/
def midGroup (x : Elem) : Bool := x.work.grp.active || !x.work.got.isEmpty

/-- Commands taken by the element that acts. -/
def withCommands (s : State) : State := if midGroup (el s) then s else modEl s fun x => takeCommands x.cmds.length x

/-! ## Acting -/

/-- Whether an element takes over its pending word before it does anything else (R112). -/
def takeoverDue (s : State) (u e : Nat) : Bool :=
  let b := bankAt s u
  b.pending.isSome && b.oldElems.contains e && (elemAt s u e).ended

/-- Whether an element can act at all: its output has left, it is not frozen, saved or waiting at a bank (R161, R173, R210,
R379, R399), and its pending word does not take over first. -/
def canAct (s : State) (u e : Nat) : Bool :=
  let x := elemAt s u e
  x.out.isEmpty && !x.frozen && !x.sec && !x.saved && !x.parked && !takeoverDue s u e && decide ((unitAt s u).st ≠ .frozen)

/-- An ERR at a sink (R172): a record of kind 3 with the sink's index, and the launch's counter marked. -/
def errAtSink (s : State) (t : Token) : State :=
  let s1 := record s (placeOf s s.cur s.curElem) 3 0x13 0 0 0 (t.data.toNat % 2 ^ 64)
  match (bankAt s1 s1.cur).launch with
  | some l => markLaunchErr s1 l
  | none => s1

/-- An ERR passed on in place of a result, or met by a sink or a store (R172). -/
def passErr (s : State) (t : Token) : State :=
  let s1 := if eSink (ew s) then errAtSink s t else s
  if sends (ew s) then emit s1 [t] else s1

/-- A data token of each port lost under R165, with a token that a port of count 1 to 6 holds; the ERR is due. -/
def dropData (s : State) (ps : List Port) : State :=
  let s1 := (owners ps).foldl (fun s p =>
    match heldAt s p with
    | some h => if h.till then s else setHeld (setPortFifo s p (popFifo (portFifo s p))) p none
    | none => setPortFifo s p (popFifo (portFifo s p))) s
  modWk s1 fun w => { w with discard := true }

/-- The tokens of FIFOs up to a MRK recorded as channel state (R399). -/
def recordData (s : State) (ps : List Port) : State :=
  ps.foldl (fun s p =>
    let f := portFifo s p
    let ts := f.q.takeWhile fun t => decide (t.ty ≠ tyMrk)
    setPortFifo s p { popN' ts.length f with chan := f.chan ++ ts }) s

/-- CFG tokens at the heads of ports consumed (R113); TAGOP passes them (R228). DEDUCED (log entry 103). -/
def dropCfg (s : State) (ps : List Port) : State :=
  let s1 := ps.foldl (fun s p => setPortFifo s p (popFifo (portFifo s p))) s
  if eopOf (ew s) = 0x81 then emit s1 [{ ty := tyCfg }] else s1

/-- An element that acts by itself: a firing, which takes credit towards every reader (R161), or what R36, R113, R165 and
R399 do in its place. -/
def acting (s : State) (act : State → Act) (fire : State → Except Halt State) : State :=
  if !canAct s s.cur s.curElem then s
  else
    let s1 := withCommands s
    match act s1 with
    | .fire => if hasCredit s1 s1.cur s1.curElem then settle s1 (enterRound s1 >>= fire) else s1
    | .intake => settle s1 (enterRound s1 >>= fire)
    | .drop ps => settle s1 ((enterRound s1).map fun s => dropData s ps)
    | .record ps => recordData s1 ps
    | .bad p t => settle s1 (.error (.freeze p.n 0x0E t.ty.toNat (BitVec.ofNat 64 s1.curElem) t))
    | .cfg ps => dropCfg s1 ps
    | _ => s1

/-- A firing of an operation that takes `m` tokens from each of its ports: with an ERR among them, the tokens are consumed
and the ERR of the lowest port goes on in place of the result (R172). -/
def fireOn (ps : List Port) (m : Nat) (body : State → List (List Token) → Except Halt State) (s : State) :
    Except Halt State :=
  let items := ps.map (present s ps m)
  let s1 := takeAll s ps m
  match items.findSome? fun l => l.find? fun t => decide (t.ty = tyErr) with
  | some t => .ok (passErr s1 t)
  | none => body s1 items

/-- An operation whose ports must all present a token of `size`, as one act of its element. -/
def plainOp (ps : List Port) (size : Nat) (takes : Nat → BitVec 4 → Bool)
    (body : State → List (List Token) → Except Halt State) (s : State) : Host.Outcome State Fault Refusal :=
  .next (acting s (fun s => plainAct s ps size takes) (fireOn ps size body))

/-- DATA alone is taken. -/
def onlyData (_ : Nat) (ty : BitVec 4) : Bool := decide (ty = tyData)
/-- Token i of port n of a firing. -/
def tokAt (items : List (List Token)) (n i : Nat) : Token := (items.getD n []).getD i {}
/-- The tokens of port n joined, as one number. -/
def itemBits (items : List (List Token)) (n : Nat) : Nat :=
  ((items.getD n []).zip (List.range 8)).foldl (fun m t => m + t.1.data.toNat * 2 ^ (512 * t.2)) 0

/-- A number cut into n data tokens of 512 bits, of one seq, with gend on the last. -/
def dataToks (seq : BitVec 12) (n v : Nat) : List Token :=
  (List.range n).map fun i =>
    { ty := tyData, data := BitVec.ofNat 512 (v / 2 ^ (512 * i)), seq := seq, gend := decide (i + 1 = n) }

/-- The seq of the next block or vector, taken (R159). DEDUCED (log entry 41). -/
def nextSeq (s : State) : BitVec 12 × State :=
  (BitVec.ofNat 12 (wk s).seq, modWk s fun w => { w with seq := (w.seq + 1) % 4096 })

end Sys2Proof.Machine
end

