-- ==== Sys2Proof/Machine/Vector.lean ====
section
/-!
DEFINITION. The vector unit (R183 to R188): lanes, lane operations, conversions (R186), reductions and VMAC (R187).
-/

namespace Sys2Proof.Machine

open Sys2Proof

/-! ## Lanes (R27, R183) -/

/-- A lane format: a floating format, or an integer type of a width. -/
inductive LaneFmt where
  | fp (f : Fmt)
  | int (w : Nat) (unsigned : Bool)
deriving DecidableEq, Repr

/-- The lane format of a fmt code with its flags (R27). -/
def laneFmt (f : BitVec 3) (x : BitVec 4) : LaneFmt :=
  match f.toNat with
  | 6 => .int 8 (bitOf x 3)
  | 7 => .int (16 * 2 ^ field x 2 1) (bitOf x 3)
  | n => .fp (fmtOf n)

/-- Width of a lane. -/
def LaneFmt.width : LaneFmt → Nat
  | .fp f => f.width
  | .int w _ => w

/-- Lanes of a vector (R183). -/
def lanesOf (w : Nat) : Nat := if w = 8 then 64 else if w = 16 then 32 else 16
/-- Tokens of a vector (R183). -/
def tokensOf (w : Nat) : Nat := if w = 64 then 2 else 1

/-- The lanes of a vector that stands in tokens (R183). -/
def splitLanes (w n v : Nat) : List Nat := (List.range n).map fun i => v / 2 ^ (w * i) % 2 ^ w
/-- Lanes packed from bit 0. -/
def joinLanes (w : Nat) (l : List Nat) : Nat := l.foldr (fun x n => x % 2 ^ w + 2 ^ w * n) 0

/-- An integer result: modulo 2^w, or limited to the type's range (R184). -/
def intResult (w : Nat) (u sat : Bool) (x : Int) : Nat := intBits w (if sat then clampInt (intLo w u) (intHi w u) x else x)

/-! ## Lane operations (R185) -/

/-- The operations of the vector unit on lanes. -/
inductive VecOp where
  | add | sub | mul | fma | div | sqrt | min | max | abs | neg | sel | and | or | xor | shl | shr
deriving DecidableEq, Repr

/-- A lane operation of R185. -/
def laneOp (op : VecOp) (f : LaneFmt) (r : Rnd) (sat : Bool) (a b c : Nat) : Nat × BitVec 5 :=
  let w := f.width
  match op with
  | .sel => (if c = 0 then b else a, 0#5)
  | .and => (Nat.land a b, 0#5)
  | .or => (Nat.lor a b, 0#5)
  | .xor => (Nat.xor a b, 0#5)
  | .shl => (a * 2 ^ (b % w) % 2 ^ w, 0#5)
  | .shr =>
    match f with
    | .int _ u => (intBits w (intOf w u a / ((2 ^ (b % w) : Nat) : Int)), 0#5)
    | .fp _ => (a, 0#5)
  | _ =>
    match f with
    | .fp g =>
      match op with
      | .add => fpAdd g r a b
      | .sub => fpSub g r a b
      | .mul => fpMul g r a b
      | .fma => fpFma g r a b c
      | .div => fpDiv g r a b
      | .sqrt => fpSqrt g r a
      | .min => fpMinMax g false a b
      | .max => fpMinMax g true a b
      | .abs => (a % 2 ^ (w - 1), 0#5)
      | .neg => (Nat.xor a (2 ^ (w - 1)), 0#5)
      | _ => (a, 0#5)
    | .int _ u =>
      let x := intOf w u a
      let y := intOf w u b
      match op with
      | .add => (intResult w u sat (x + y), 0#5)
      | .sub => (intResult w u sat (x - y), 0#5)
      | .mul => (intResult w u sat (x * y), 0#5)
      | .fma => (intResult w u sat (x * y + intOf w u c), 0#5)
      | .min => (if y < x then b else a, 0#5)
      | .max => (if x < y then b else a, 0#5)
      | .abs => (intResult w u sat (x.natAbs : Nat), 0#5)
      | .neg => (intResult w u sat (-x), 0#5)
      | _ => (a, 0#5)

/-- A lane comparison (R185): float by R79, with NE true on a NaN. -/
def laneCmp (f : LaneFmt) (rel : Rel) (a b : Nat) : Bool × BitVec 5 :=
  match f with
  | .fp g => fpCmp g rel a b
  | .int w u =>
    let x := intOf w u a
    let y := intOf w u b
    (match rel with
      | .eq => decide (x = y) | .lt => decide (x < y) | .le => decide (x ≤ y) | .ne => decide (x ≠ y), 0#5)

/-- The exceptions of lane results, together. -/
def laneExc (l : List (Nat × BitVec 5)) : BitVec 5 := l.foldl (fun x y => x ||| y.2) 0#5

/-! ## A firing on vectors -/

/-- One token of each pair of a presented vector that is not DATA freezes the unit (R161). -/
def vectorOk (ps : List Port) (items : List (List Token)) : Except Halt Unit :=
  match (ps.zip items).findSome? fun p => (p.2.find? fun t => decide (t.ty ≠ tyData)).map fun t => (p.1, t) with
  | some b => .error (.freeze b.1.n 0x0E b.2.ty.toNat 8#64 b.2)
  | none => .ok ()

/-- A vector emitted: its tokens with gend on the last, and one seq (R159, R183). -/
def emitVector (s : State) (w : Nat) (ls : List Nat) : State :=
  let q := nextSeq s
  emit q.2 (dataToks q.1 (tokensOf w) (joinLanes w ls))

/-- An operation that reads one vector from each port and emits one: `body` makes its lanes from those of the ports. -/
def vectorOp (f : LaneFmt) (ps : List Port)
    (body : State → Token → List (List Nat) → Except Halt (List (Nat × BitVec 5))) (s : State) :
    Host.Outcome State Fault Refusal :=
  let w := f.width
  plainOp ps (tokensOf w) onlyData (fun s items => do
    vectorOk ps items
    let vs := (List.range items.length).map fun n => splitLanes w (lanesOf w) (itemBits items n)
    let r ← body s (tokAt items 0 0) vs
    .ok (emitVector (addExc s (laneExc r)) w (r.map (·.1)))) s

/-- Lanes of three vectors combined one by one; a vector that is not read counts as zeros. -/
def zipLanes (vs : List (List Nat)) (g : Nat → Nat → Nat → Nat × BitVec 5) : List (Nat × BitVec 5) :=
  let a := vs.getD 0 []
  let b := vs.getD 1 []
  let c := vs.getD 2 []
  (List.range a.length).map fun i => g (a.getD i 0) (b.getD i 0) (c.getD i 0)

/-- An operation of R185 that works lane by lane. -/
def laneWise (op : VecOp) (f : BitVec 3) (r : BitVec 2) (x : BitVec 4) (ps : List Port) (s : State) :
    Host.Outcome State Fault Refusal :=
  let lf := laneFmt f x
  vectorOp lf ps (fun _ _ vs => .ok (zipLanes vs (laneOp op lf (rndOf r) (bitOf x 0)))) s

/-- VADD (R185). -/
def execVadd (a b : BitVec 5) (f : BitVec 3) (r : BitVec 2) (x : BitVec 4) (s : State) : Host.Outcome State Fault Refusal :=
  laneWise .add f r x [portAs 0 a, portAs 1 b] s

/-- VSUB (R185). -/
def execVsub (a b : BitVec 5) (f : BitVec 3) (r : BitVec 2) (x : BitVec 4) (s : State) : Host.Outcome State Fault Refusal :=
  laneWise .sub f r x [portAs 0 a, portAs 1 b] s

/-- VMUL (R185). -/
def execVmul (a b : BitVec 5) (f : BitVec 3) (r : BitVec 2) (x : BitVec 4) (s : State) : Host.Outcome State Fault Refusal :=
  laneWise .mul f r x [portAs 0 a, portAs 1 b] s

/-- VFMA (R185): integers are exact modulo 2^w. -/
def execVfma (a b c : BitVec 5) (f : BitVec 3) (r : BitVec 2) (x : BitVec 4) (s : State) :
    Host.Outcome State Fault Refusal :=
  laneWise .fma f r (x &&& 0xE#4) [portAs 0 a, portAs 1 b, portAs 2 c] s

/-- VDIV (R185). -/
def execVdiv (a b : BitVec 5) (f : BitVec 3) (r : BitVec 2) (x : BitVec 4) (s : State) : Host.Outcome State Fault Refusal :=
  laneWise .div f r x [portAs 0 a, portAs 1 b] s

/-- VSQRT (R185). -/
def execVsqrt (a : BitVec 5) (f : BitVec 3) (r : BitVec 2) (x : BitVec 4) (s : State) : Host.Outcome State Fault Refusal :=
  laneWise .sqrt f r x [portAs 0 a] s

/-- VMIN (R185). -/
def execVmin (a b : BitVec 5) (f : BitVec 3) (r : BitVec 2) (x : BitVec 4) (s : State) : Host.Outcome State Fault Refusal :=
  laneWise .min f r x [portAs 0 a, portAs 1 b] s

/-- VMAX (R185). -/
def execVmax (a b : BitVec 5) (f : BitVec 3) (r : BitVec 2) (x : BitVec 4) (s : State) : Host.Outcome State Fault Refusal :=
  laneWise .max f r x [portAs 0 a, portAs 1 b] s

/-- VABS (R185). -/
def execVabs (a : BitVec 5) (f : BitVec 3) (r : BitVec 2) (x : BitVec 4) (s : State) : Host.Outcome State Fault Refusal :=
  laneWise .abs f r x [portAs 0 a] s

/-- VNEG (R185). -/
def execVneg (a : BitVec 5) (f : BitVec 3) (r : BitVec 2) (x : BitVec 4) (s : State) : Host.Outcome State Fault Refusal :=
  laneWise .neg f r x [portAs 0 a] s

/-- The relation that slot 0 of VCMP names (R185). -/
def relOf (v : Word) : Rel :=
  match v.toNat % 4 with | 0 => .eq | 1 => .lt | 2 => .le | _ => .ne

/-- VCMP (R185). -/
def execVcmp (a b : BitVec 5) (f : BitVec 3) (_r : BitVec 2) (x : BitVec 4) (s : State) : Host.Outcome State Fault Refusal :=
  let lf := laneFmt f x
  vectorOp lf [portAs 0 a, portAs 1 b] (fun s _ vs =>
    .ok (zipLanes vs fun a b _ =>
      let r := laneCmp lf (relOf (slot s 0)) a b
      (if r.1 then 2 ^ lf.width - 1 else 0, r.2))) s

/-- VSEL (R185). -/
def execVsel (a b c : BitVec 5) (f : BitVec 3) (r : BitVec 2) (x : BitVec 4) (s : State) :
    Host.Outcome State Fault Refusal :=
  laneWise .sel f r x [portAs 0 a, portAs 1 b, portAs 2 c] s

/-- VAND (R185). -/
def execVand (a b : BitVec 5) (f : BitVec 3) (r : BitVec 2) (x : BitVec 4) (s : State) : Host.Outcome State Fault Refusal :=
  laneWise .and f r x [portAs 0 a, portAs 1 b] s

/-- VOR (R185). -/
def execVor (a b : BitVec 5) (f : BitVec 3) (r : BitVec 2) (x : BitVec 4) (s : State) : Host.Outcome State Fault Refusal :=
  laneWise .or f r x [portAs 0 a, portAs 1 b] s

/-- VXOR (R185). -/
def execVxor (a b : BitVec 5) (f : BitVec 3) (r : BitVec 2) (x : BitVec 4) (s : State) : Host.Outcome State Fault Refusal :=
  laneWise .xor f r x [portAs 0 a, portAs 1 b] s

/-- VSHL (R185). -/
def execVshl (a b : BitVec 5) (f : BitVec 3) (r : BitVec 2) (x : BitVec 4) (s : State) : Host.Outcome State Fault Refusal :=
  laneWise .shl f r x [portAs 0 a, portAs 1 b] s

/-- VSHR (R185). -/
def execVshr (a b : BitVec 5) (f : BitVec 3) (r : BitVec 2) (x : BitVec 4) (s : State) : Host.Outcome State Fault Refusal :=
  laneWise .shr f r x [portAs 0 a, portAs 1 b] s

/-- VPERM (R185): lane b mod L of A. -/
def execVperm (a b : BitVec 5) (f : BitVec 3) (_r : BitVec 2) (x : BitVec 4) (s : State) : Host.Outcome State Fault Refusal :=
  vectorOp (laneFmt f x) [portAs 0 a, portAs 1 b] (fun _ _ vs =>
    let as := vs.getD 0 []
    .ok ((vs.getD 1 []).map fun k => (as.getD (k % as.length) 0, 0#5))) s

/-- VSAT (R185): a target at least as wide leaves a lane as it is. -/
def execVsat (a : BitVec 5) (f : BitVec 3) (_r : BitVec 2) (x : BitVec 4) (s : State) : Host.Outcome State Fault Refusal :=
  let lf := laneFmt f x
  let w := lf.width
  vectorOp lf [portAs 0 a] (fun s t vs => do
    let v := slot s 0
    needE (decide (field v 2 1 ≠ 3)) (badArg 0 t)
    let tw := 16 * 2 ^ field v 2 1
    let tu := bitOf v 0
    .ok ((vs.getD 0 []).map fun n =>
      (if w ≤ tw then n else intBits w (clampInt (intLo tw tu) (intHi tw tu) (intOf w (bitOf x 3) n)), 0#5))) s

/-! ## Reductions (R139, R187) -/

/-- One level of the pairwise tree. -/
def treeLevel (g : Nat → Nat → Nat × BitVec 5) : List (Nat × BitVec 5) → List (Nat × BitVec 5)
  | a :: b :: l => let r := g a.1 b.1; (r.1, a.2 ||| b.2 ||| r.2) :: treeLevel g l
  | l => l

/-- The pairwise tree of R139, level by level. -/
def treeFold (g : Nat → Nat → Nat × BitVec 5) : Nat → List (Nat × BitVec 5) → List (Nat × BitVec 5)
  | 0, l => l
  | n + 1, l => treeFold g n (treeLevel g l)

/-- VRED (R187). -/
def execVred (a : BitVec 5) (f : BitVec 3) (r : BitVec 2) (x : BitVec 4) (s : State) : Host.Outcome State Fault Refusal :=
  let lf := laneFmt f x
  vectorOp lf [portAs 0 a] (fun s t vs => do
    let sel := (slot s 0).toNat % 4
    needE (decide (sel ≠ 3)) (badArg 0 t)
    let op : VecOp := match sel with | 0 => .add | 1 => .min | _ => .max
    let ls := (vs.getD 0 []).map fun v => (v, 0#5)
    let top := treeFold (fun a b => laneOp op lf (rndOf r) (bitOf x 0) a b 0) 6 ls
    .ok (top ++ List.replicate (ls.length - 1) (0, 0#5))) s

/-- VMAC (R187): the accumulator vector, which starts at +0. -/
def execVmac (a b : BitVec 5) (f : BitVec 3) (r : BitVec 2) (x : BitVec 4) (s : State) : Host.Outcome State Fault Refusal :=
  let lf := laneFmt f x
  let w := lf.width
  let ps := [portAs 0 a, portAs 1 b]
  plainOp ps (tokensOf w) onlyData (fun s items => do
    vectorOk ps items
    let vs := (List.range 2).map fun n => splitLanes w (lanesOf w) (itemBits items n)
    let acc := (wk s).vacc.map (·.toNat)
    let res := zipLanes (vs ++ [acc]) (laneOp .fma lf (rndOf r) (bitOf x 0))
    .ok (modWk (addExc s (laneExc res)) fun k => { k with vacc := res.map fun v => BitVec.ofNat 64 v.1 })) s

/-- VMAC at an EOS (R187): the accumulator emitted as one vector, and cleared. -/
def flushVmac (lf : LaneFmt) (s : State) : State :=
  let acc := (wk s).vacc.map (·.toNat)
  let s1 := emitVector s lf.width (if acc.isEmpty then List.replicate (lanesOf lf.width) 0 else acc)
  modWk s1 fun k => { k with vacc := [] }

/-! ## VCVT (R186) -/

/-- The source format in slot 0 of VCVT, none where R186 refuses it. -/
def cvtSource (v : Word) : Option LaneFmt :=
  let c := field v 2 0
  let ty := field v 5 3
  if v.toNat ≥ 64 ∨ (c < 6 ∧ ty ≠ 0) ∨ (c = 6 ∧ ty % 4 ≠ 0) ∨ (c = 7 ∧ ty % 4 = 3) then none
  else some (laneFmt (BitVec.ofNat 3 c) (BitVec.ofNat 4 (2 * ty)))

/-- One lane converted (R129, R131, R186). -/
def convLane (src dst : LaneFmt) (r : Rnd) (sat : Bool) (a : Nat) : Nat × BitVec 5 :=
  match src, dst with
  | .fp f, .fp g => fpConv f g r sat a
  | .fp f, .int w u => let x := fpToInt f r (intLo w u) (intHi w u) a; (intBits w x.1, x.2)
  | .int w u, .fp g =>
    let x := intOf w u a
    if x = 0 then (0, 0#5) else roundTo g r sat (.num (decide (x < 0)) x.natAbs 0 false)
  | .int w u, .int v t => (intBits v (clampInt (intLo v t) (intHi v t) (intOf w u a)), 0#5)

/-- The lanes that a firing of VCVT covers. -/
def cvtCover (src dst : LaneFmt) : Nat := max (lanesOf src.width) (lanesOf dst.width)

/-- The source vectors gathered converted and emitted, with missing lanes read as +0; an ERR among them goes on in their
place (R172). -/
def flushCvt (dst : LaneFmt) (r : Rnd) (sat : Bool) (s : State) : State :=
  match cvtSource (slot s 0), (wk s).got with
  | _, [] => s
  | none, _ => s
  | some src, ts =>
    let s1 := modWk s fun w => { w with got := [] }
    match ts.find? fun t => decide (t.ty = tyErr) with
    | some t => passErr s1 t
    | none =>
      let n := cvtCover src dst
      let v := (ts.zip (List.range ts.length)).foldl (fun m t => m + t.1.data.toNat * 2 ^ (512 * t.2)) 0
      let res := (splitLanes src.width n v).map (convLane src dst r sat)
      let w := dst.width
      let l := lanesOf w
      (List.range (n / l)).foldl (fun s k => emitVector s w (((res.drop (k * l)).take l).map (·.1))) (addExc s1 (laneExc res))

/-- The tokens of a source vector of VCVT. -/
def cvtSize (s : State) : Nat := ((cvtSource (slot s 0)).map fun f => tokensOf f.width).getD 1

/-- VCVT (R186). -/
def execVcvt (a : BitVec 5) (f : BitVec 3) (r : BitVec 2) (x : BitVec 4) (s : State) : Host.Outcome State Fault Refusal :=
  let ps := [portAs 0 a]
  let dst := laneFmt f x
  .next (acting s (fun s => plainAct s ps (cvtSize s) onlyData) fun s =>
    let n := cvtSize s
    let ts := present s ps n (portAs 0 a)
    match cvtSource (slot s 0) with
    | none => .error (badArg 0 (ts.headD {}))
    | some src =>
      match ts.find? fun t => decide (t.ty ≠ tyData) && decide (t.ty ≠ tyErr) with
      | some t => .error (.freeze 0 0x0E t.ty.toNat 8#64 t)
      | none =>
        let s1 := modWk (takeAll s ps n) fun w => { w with got := w.got ++ ts }
        .ok (if (wk s1).got.length * (lanesOf src.width) = n * cvtCover src dst then flushCvt dst (rndOf r) (bitOf x 0) s1
             else s1))

end Sys2Proof.Machine
end

