-- ==== Sys2Proof/Machine/Matrix.lean ====
section
/-!
DEFINITION. The matrix array (R189 to R198): the accumulator store and its claims, the intake of port C, promotion
(R132 to R134) and the order of sums (R139), and the operations MMA to MSPM.
-/

namespace Sys2Proof.Machine

open Sys2Proof

/-! ## The accumulator store (R189, R194)

A tile's store is 256 rows of 128 bytes, each kept as 16 words of 64 bits; a row of binary64 fills two of them. A row
that is not listed is zero. -/

/-- The first row of 128 bytes of a slot's launch, and the launch's contexts; a slot without a launch has its own. -/
def accPart (s : State) (u : Nat) : Nat × Nat :=
  match (bankAt s u).launch.bind fun l => mget s.launches l with
  | some l => (64 * l.base, l.nctx)
  | none => (64 * ctxOf u, 1)

/-- The launch's rows of a format with accumulators of w bits (R192, R194). DEDUCED (log entry 45). -/
def accRows (s : State) (u w : Nat) : Nat := (accPart s u).2 * (if w = 64 then 32 else 64)

/-- The rows of 128 bytes that row r of accumulators of w bits fills. -/
def accKeys (s : State) (u w r : Nat) : List Nat :=
  let b := 256 * tileOf u + (accPart s u).1
  if w = 64 then [b + 2 * r, b + 2 * r + 1] else [b + r]

/-- Whether no other context holds rows (R194). -/
def accFree (s : State) (u : Nat) (ks : List Nat) : Bool := ks.all fun k => (mget s.claims k).all fun v => decide (v = u)

/-- Rows that nobody has claimed noted in a shadow with what they hold, unless its context held them as its round opened: a
void gives them back (R254, R256). -/
def Shadow.note (rows : Map (List (BitVec 64))) (ks : List Nat) (h : Shadow) : Shadow :=
  let new := ks.filter fun k => !h.claims.contains k && !h.fresh.contains k
  { h with fresh := h.fresh ++ new, rows := new.foldl (fun m k => mput m k (mget rows k)) h.rows }

/-- Rows claimed by the context of the element that acts (R194). -/
def claimRows (s : State) (u : Nat) (ks : List Nat) : State :=
  let new := ks.filter fun k => (mget s.claims k).isNone
  { modEl s fun x => { x with shadows := x.shadows.map (·.note s.rows new) } with
    claims := ks.foldl (fun m k => mset m k u) s.claims }

/-- The 32 accumulators of row r (R189). -/
def readAcc (s : State) (u w r : Nat) : List Nat :=
  let ws := (accKeys s u w r).flatMap fun k => (mget s.rows k).getD (List.replicate 16 0#64)
  splitLanes w 32 (joinLanes 64 (ws.map (·.toNat)))

/-- 16 words written to a row of 128 bytes. -/
def putRow (m : Map (List (BitVec 64))) (k : Nat) (ws : List (BitVec 64)) : Map (List (BitVec 64)) :=
  if ws.all fun x => decide (x = 0#64) then mdel m k else mset m k ws

/-- The 32 accumulators of row r written. -/
def writeAcc (s : State) (u w r : Nat) (vs : List Nat) : State :=
  let ks := accKeys s u w r
  let ws := (splitLanes 64 (16 * ks.length) (joinLanes w vs)).map (BitVec.ofNat 64)
  { s with rows := (ks.zip (List.range ks.length)).foldl (fun m k => putRow m k.1 ((ws.drop (16 * k.2)).take 16)) s.rows }

/-! ## Promotion and sums (R132 to R134, R139) -/

/-- The exact sum of two exact terms; opposite infinities that meet before any NaN raise NV. DESIGN CHOICE (log entry 117). -/
def addTerm (x y : Exact) : Exact :=
  match x, y with
  | .nan a, .nan b => .nan (a ||| b)
  | .nan a, _ => .nan a
  | _, .nan b => .nan b
  | .inf n a, .inf m b => if n = m then .inf n (a ||| b) else .nan exNV
  | .inf n a, _ => .inf n a
  | _, .inf n a => .inf n a
  | .num n1 m1 e1 _, .num n2 m2 e2 _ =>
    let e0 := min e1 e2
    let v := alignTo n1 m1 e1 e0 + alignTo n2 m2 e2 e0
    .num (decide (v < 0)) v.natAbs e0 false

/-- The exact sum of terms; an empty sum is +0. DEDUCED (log entry 47). -/
def sumTerms (l : List Exact) : Exact := l.foldl addTerm (.num false 0 0 false)

/-- An exact term times a value; an infinite one times a zero is NaN with NV. DESIGN CHOICE (log entry 116). -/
def mulTerm (x : Exact) (v : FVal) : Exact :=
  match x with
  | .nan e => .nan e
  | .inf n _ => mulExact (.inf n) v
  | .num n m e _ => mulExact (.fin n m e) v

/-- An exact term times 2^k. -/
def scaleTerm (x : Exact) (k : Int) : Exact :=
  match x with
  | .num n m e st => .num n m (e + k) st
  | y => y

/-- Block b of a row of R132: T(b), and whether it sets MNS. A masked element is none. -/
def blockTerm (ps : List (Option FVal × FVal)) (al be : Nat) : Exact × Bool :=
  match ps.filterMap fun p => p.1.map fun x => mulExact x p.2 with
  | [] => (.num false 0 0 false, decide (al = 255) || decide (be = 255))
  | ts => (if al = 255 ∨ be = 255 then .nan exNV else scaleTerm (sumTerms ts) (((al + be : Nat) : Int) - 254), false)

/-- P of R132 before its rounding, with the cases of R133, and whether it sets MNS. -/
def promoted (a : List (Option FVal)) (w : List FVal) (al be : List Nat) (sA sW : Nat) : Exact × Bool :=
  let ts := (List.range 4).map fun b => blockTerm (((a.zip w).drop (32 * b)).take 32) (al.getD b 0) (be.getD b 0)
  let p := mulTerm (mulTerm (sumTerms (ts.map (·.1))) (unpack binary32 sA)) (unpack binary32 sW)
  (match p with | .nan _ => .nan exNV | x => x, ts.any (·.2))

/-- The scales of one A row: the codes α and s_A (R191). -/
structure RowScale where
  al : List Nat := [0x7F, 0x7F, 0x7F, 0x7F]
  sA : Nat := 0x3F800000
deriving DecidableEq, Repr

/-- Accumulate of R195: one accumulator after a row of A and a column of B, with the exceptions and MNS. -/
def accumulate (lf : LaneFmt) (acc : Nat) (a : List (Option Nat)) (w : List Nat) (sc : RowScale) (be : List Nat)
    (sW : Nat) : Nat × BitVec 5 × Bool :=
  match lf with
  | .int n u =>
    let v := (a.zip w).foldl (fun (v : Int) p => match p.1 with | some x => v + intOf n u x * intOf n u p.2 | none => v) 0
    (intBits 32 (acc + v), 0#5, false)
  | .fp g =>
    if g.width = 8 then
      let p := promoted (a.map fun x => x.map (unpack g)) (w.map (unpack g)) sc.al be sc.sA sW
      let r := roundTo binary32 .rne false p.1
      let y := fpAdd binary32 .rne acc r.1
      (y.1, r.2 ||| y.2, p.2)
    else if g.width = 64 then
      let y := (a.zip w).foldl (fun (y : Nat × BitVec 5) p =>
        let z := fpFma g .rne (p.1.getD 0) p.2 y.1
        (z.1, y.2 ||| z.2)) (acc, 0#5)
      (y.1, y.2, false)
    else
      let ts := (a.zip w).map fun p => mulExact (unpack g (p.1.getD 0)) (unpack g p.2)
      let y := roundTo binary32 .rne false (addTerm (unpack binary32 acc).toExact (sumTerms ts))
      (y.1, y.2, false)

/-! ## B blocks (R190, R193) -/

/-- The depth K of a row (R189), from the width of an element. -/
def maDepth (w : Nat) : Nat := if w = 8 then 128 else if w = 16 then 32 else if w = 32 then 8 else 2
/-- Width of the accumulator of a format (R189). -/
def accWidth (w : Nat) : Nat := if w = 64 then 64 else 32
/-- The data tokens of a B block (R190). -/
def blockToks (w : Nat) : Nat := maDepth w * 32 * w / 512

/-- A block from the tokens that have come: an ERR counts as the token that was due, and marks the block (R193). -/
def blockOf (w : Nat) (ts : List Token) : BBlock :=
  let ds := ts.map (·.data)
  let n := blockToks w
  { data := ds.take n
    beta := (ds.drop n).take 2
    sW := ((ds.getD (n + 2) 0x3F800000#512).setWidth 32)
    err := ts.find? fun t => decide (t.ty = tyErr) }

/-- The columns of a block, each of K elements. -/
def blockCols (b : BBlock) (w : Nat) : List (List Nat) :=
  let els := (b.data ++ List.replicate (blockToks w - b.data.length) 0#512).flatMap fun d => splitLanes w (512 / w) d.toNat
  (List.range (maDepth w)).foldr (fun k cs => List.zipWith (· :: ·) ((els.drop (32 * k)).take 32) cs) (List.replicate 32 [])

/-- The codes β of a column, for blocks 0 to 3 (R190). -/
def blockBeta (b : BBlock) (n : Nat) : List Nat :=
  (List.range 4).map fun k =>
    match b.beta with
    | [] => 0x7F
    | l => (l.getD (k / 2) 0#512).toNat / 2 ^ (8 * (32 * (k % 2) + n)) % 256

/-- The scales that a token of R191 gives row i of its group. -/
def tokScale (t : Token) (i : Nat) : RowScale :=
  let v := t.data.toNat / 2 ^ (64 * i)
  { al := splitLanes 8 4 v, sA := v / 2 ^ 32 % 2 ^ 32 }

/-! ## Arguments (R192) -/

/-- The arguments of an operation of the array. -/
structure MaArgs where
  row0 : Nat
  m : Nat
  rowout : Bool
  bc : Bool
  zf : Bool
  clr : Bool
  kind : Nat
deriving DecidableEq, Repr

/-- The arguments as they stand. -/
def rawArgs (s : State) : MaArgs :=
  let c := slot s 2
  { row0 := (slot s 0).toNat, m := (slot s 1).toNat, rowout := bitOf c 0, bc := bitOf c 1, zf := bitOf c 2,
    clr := bitOf c 3, kind := field c 5 4 }

/-- The arguments, checked under R177 and R192 for accumulators of w bits; `ok1` and `ok2` are an operation's own
conditions on slots 1 and 2. DEDUCED (log entry 46). -/
def maArgs (s : State) (w : Nat) (ok1 ok2 : MaArgs → Bool) (t : Token) : Except Halt MaArgs := do
  let a := rawArgs s
  let n := accRows s s.cur w
  needE (decide (a.row0 ≤ 255)) (badArg 0 t)
  needE (decide (1 ≤ a.m ∧ a.m ≤ 256) && ok1 a) (badArg 1 t)
  needE (decide ((slot s 2).toNat < 64) && ok2 a) (badArg 2 t)
  needE (decide (a.row0 < n)) (badArg 0 t)
  needE (decide (a.row0 + a.m ≤ n)) (badArg 1 t)
  .ok a

/-- Whatever the other bits. -/
def anyArgs (_ : MaArgs) : Bool := true
/-- Slot 2 of MZERO, MRD and MLDB: bits 2:0 are zero (R196). -/
def noCtl (a : MaArgs) : Bool := !a.rowout && !a.bc && !a.zf

/-! ## The product operations (R193, R195) -/

/-- The product operations of R195. -/
inductive MaOp where
  | mma | mmas | mmac | mspm
deriving DecidableEq, Repr

/-- A product operation with its format and ports. -/
structure MaWord where
  op : MaOp
  lf : LaneFmt
  ab : List Port
  c : BitVec 5
deriving DecidableEq, Repr

/-- Whether elements are FP8. -/
def LaneFmt.isFp8 : LaneFmt → Bool
  | .fp g => decide (g.width = 8)
  | .int _ _ => false

/-- Whether port C presents A scales (R195). -/
def MaWord.aScaled (w : MaWord) : Bool := decide (w.op = .mmas) || (decide (w.op = .mspm) && w.lf.isFp8)
/-- Whether blocks have their three scale tokens (R190). -/
def MaWord.bScaled (w : MaWord) : Bool := w.aScaled || decide (w.op = .mmac)
/-- The tokens of a block on port C. -/
def MaWord.total (w : MaWord) : Nat := blockToks w.lf.width + (if w.bScaled then 3 else 0)
/-- Port C where the operation reads it (R193). -/
def MaWord.cPort (w : MaWord) (s : State) : Option Port := if w.aScaled || (rawArgs s).bc then some (portAs 2 w.c) else none

/-- The intake of the element that acts. -/
def intake (s : State) : IntakeState := (wk s).intake
/-- The intake changed. -/
def modIntake (s : State) (f : IntakeState → IntakeState) : State := modWk s fun w => { w with intake := f w.intake }

/-- The A-scale tokens of a pass (R191). -/
def scaleToks (a : MaArgs) : Nat := (max 1 (min a.m 256) + 7) / 8

/-- What the intake takes next: an A scale, a token of a block, or nothing while its buffers are full (R193). -/
inductive IntakeDue where
  | scale | block | full
deriving DecidableEq, Repr

/-- What is due at port C. DEDUCED (log entry 48). -/
def intakeDue (w : MaWord) (s : State) : IntakeDue :=
  let i := intake s
  let a := rawArgs s
  if w.aScaled && !i.inBlock then
    if i.scales.length < 2 ∨ (i.scales.getLast?.any fun l => decide (l.length < scaleToks a)) then .scale else .full
  else if a.bc && i.next.isNone then .block
  else .full

/-- Whether port C has a token that the intake takes now: neither an end nor a MRK. -/
def intakeReady (w : MaWord) (s : State) : Bool :=
  match w.cPort s with
  | none => false
  | some c =>
    decide (intakeDue w s ≠ .full) &&
      (peekPort s c 1).any fun t => decide (t.ty = tyData) || decide (t.ty = tyScale) || decide (t.ty = tyErr)

/-- An A-scale token taken (R191). -/
def takeScale (a : MaArgs) (t : Token) (i : IntakeState) : IntakeState :=
  let n := scaleToks a
  let ls :=
    match i.scales.getLast? with
    | some l => if l.length < n then i.scales.dropLast ++ [l ++ [t]] else i.scales ++ [[t]]
    | none => [[t]]
  { i with scales := ls, inBlock := a.bc && (ls.getLast?.any fun l => decide (n ≤ l.length)) }

/-- A token of a block taken. -/
def takeBlock (w : MaWord) (t : Token) (i : IntakeState) : IntakeState :=
  let ts := i.part ++ [t]
  if ts.length < w.total then { i with part := ts }
  else { i with part := [], next := some (blockOf w.lf.width ts), inBlock := false }

/-- One token of port C taken (R193): of another type than the one that is due, it freezes the array. -/
def takeIntake (w : MaWord) (c : Port) (s : State) : Except Halt State :=
  match peekPort s c 1 with
  | [] => .ok s
  | t :: _ =>
    let due := intakeDue w s
    let want := if due = .scale then tyScale else if (intake s).part.length < blockToks w.lf.width then tyData else tyScale
    if t.ty ≠ want ∧ t.ty ≠ tyErr then .error (.freeze 2 0x0E t.ty.toNat (BitVec.ofNat 64 s.curElem) t)
    else
      let s1 := takePort s c 1
      .ok (modIntake s1 (if due = .scale then takeScale (rawArgs s) t else takeBlock w t))

/-- The tokens of port C taken while the buffers have room. -/
def takeIntakes (w : MaWord) : Nat → State → Except Halt State
  | 0, s => .ok s
  | n + 1, s =>
    match w.cPort s with
    | none => .ok s
    | some c => if intakeReady w s then takeIntake w c s >>= takeIntakes w n else .ok s

/-- Whether the row that comes has what it needs from port C: its scales, and at the first row of a pass its block. -/
def hasC (w : MaWord) (s : State) (a : MaArgs) : Bool :=
  let i := intake s
  let r := (wk s).count % a.m
  (!a.bc || i.inPass || i.next.isSome) && (!w.aScaled || decide (r / 8 < (i.scales.headD []).length))

/-- Whether a row waits for port C. -/
def starved (w : MaWord) (s : State) (t : Token) : Bool :=
  match maArgs s (accWidth w.lf.width) (fun a => decide (w.op ≠ .mspm) || decide (a.m % 4 = 0)) anyArgs t with
  | .ok a => !hasC w s a
  | .error _ => false

/-- What port C presents. -/
def presC (s : State) (c : Port) : Pres := presOf (portFifo s c).q 1

/-- An end that ports A and B present, or the converter, with port C's (R193, R239): the array waits for it. -/
def withC (w : MaWord) (s : State) (e : Pres) (act : Act) : Act :=
  match w.cPort s with
  | none => act
  | some c =>
    match presC s c with
    | .eos r => endStep [({ n := 0, k := 4, s := 0 }, e), (c, .eos r)]
    | .tag n => endStep [({ n := 0, k := 4, s := 0 }, e), (c, .tag n)]
    | _ => .idle

/-- A loss that `withC` gives to ports A and B falls on both of them. -/
def onAB (w : MaWord) (act : Act) : Act :=
  match act with
  | .drop ps => .drop (if ps.any fun p => decide (p.k = 4) then w.ab else ps)
  | x => x

/-- Types of tokens: DATA at A and B, SCALE too at C (R193). -/
def maTakes (n : Nat) (ty : BitVec 4) : Bool := decide (ty = tyData) || (decide (n = 2) && decide (ty = tyScale))

/-- The ports A and B that present no end. -/
def dataAB (w : MaWord) (s : State) : List Port :=
  w.ab.filter fun p => !((peekPort s p 1).any fun t => decide (t.ty = tyEos) || decide (t.ty = tyTag))

/-- A row that needs a token of port C: it waits, or where C presents an end R165 applies to the ports. -/
def awaitC (w : MaWord) (s : State) (act : Act) : Act :=
  match w.cPort s with
  | none => .idle
  | some c => if (presC s c).isEnd then act else .idle

/-- The A tokens of the group whose bitmaps stand in a token of port B (R197); where an ERR stands in their place, the
tokens through the next gend. None while they have not all come. -/
def sparseNeed (s : State) (a : Port) (b : Token) : Option Nat :=
  let q := (portFifo s a).q
  if b.ty = tyErr then
    match q with
    | [] => none
    | t :: _ =>
      if t.ty = tyEos ∨ t.ty = tyTag then some 0
      else if q.any (·.gend) then some ((q.takeWhile fun t => !t.gend).length + 1) else none
  else some ((popN 512 b.data.toNat + 63) / 64)

/-- What ports A and B of MSPM do: a group of rows fires with its bitmaps and all its A tokens (R197). -/
def sparseAct (s : State) (a b : Port) : Act :=
  match peekPort s b 1 with
  | t :: _ =>
    if t.ty = tyEos ∨ t.ty = tyTag then agree s [a, b] 1
    else if (wk s).discard then .drop [b]
    else
      match sparseNeed s a t with
      | none => .idle
      | some n =>
        let ts := peekPort s a n
        if ts.any fun t => decide (t.ty = tyEos) || decide (t.ty = tyTag) then .drop [b]
        else if ts.length < n then .idle else .fire
  | [] => .idle

/-- What ports A and B do. -/
def abAct (w : MaWord) (s : State) : Act :=
  match w.op, w.ab with
  | .mspm, [a, b] => sparseAct s a b
  | _, ab => agree s ab 1

/-- What the array does at a row of ports A and B (R193). -/
def productAct (w : MaWord) (s : State) : Act :=
  preAct s (w.ab ++ (w.cPort s).toList) maTakes
    (if intakeReady w s then .intake
    else
      match abAct w s with
      | .fire => if starved w s {} then awaitC w s (.drop (dataAB w s)) else .fire
      | .eos r => onAB w (withC w s (.eos r) (.eos r))
      | .round n => onAB w (withC w s (.tag n) (.round n))
      | x => x)

/-- The next block made current at the first row of a pass (R193). -/
def startPass (a : MaArgs) (i : IntakeState) : IntakeState :=
  if i.inPass then i
  else { i with inPass := true, cur := if a.bc then i.next.getD i.cur else i.cur, next := if a.bc then none else i.next }

/-- k rows counted (R192): the last row of a pass frees its scales. -/
def countRows (a : MaArgs) (k : Nat) (s : State) : State :=
  let n := (wk s).count + k
  let s1 := modWk s fun w => { w with count := n }
  if n % a.m = 0 then modIntake s1 fun i => { i with inPass := false, scales := i.scales.drop 1 } else s1

/-- The ERR that marks the scales of the pass or the block (R193). -/
def markOf (w : MaWord) (s : State) : Option Token :=
  let i := intake s
  match (if w.aScaled then (i.scales.headD []).find? fun t => decide (t.ty = tyErr) else none) with
  | some t => some t
  | none => i.cur.err

/-- A row emitted: its words of w bits, with gend on the last token. -/
def emitRow (s : State) (w : Nat) (vs : List Nat) : State :=
  let q := nextSeq s
  emit q.2 (dataToks q.1 (32 * w / 512) (joinLanes w vs))

/-- One row updated (R195). -/
def updateRow (w : MaWord) (a : MaArgs) (row : List (Option Nat)) (sc : RowScale) (s : State) : State :=
  let n := (wk s).count
  let aw := accWidth w.lf.width
  let r := a.row0 + n % a.m
  let old := if a.zf && decide (n / a.m = 0) then List.replicate 32 0 else readAcc s s.cur aw r
  let blk := (intake s).cur
  let cols := blockCols blk w.lf.width
  let scaled := decide (w.op ≠ .mma)
  let res := ((old.zip cols).zip (List.range 32)).map fun x =>
    accumulate w.lf x.1.1 row x.1.2 sc (if scaled then blockBeta blk x.2 else [0x7F, 0x7F, 0x7F, 0x7F])
      (if scaled then blk.sW.toNat else 0x3F800000)
  let s1 := writeAcc (addExc s (res.foldl (fun x y => x ||| y.2.1) 0#5)) s.cur aw r (res.map (·.1))
  let s2 := if res.any (·.2.2) then addEsr s1 256 else s1
  let s3 := if a.rowout then emitRow s2 aw (res.map (·.1)) else s2
  countRows a 1 s3

/-- The scales of the row that comes. -/
def rowScale (w : MaWord) (s : State) (a : MaArgs) : RowScale :=
  let r := (wk s).count % a.m
  if w.aScaled then tokScale (((intake s).scales.headD []).getD (r / 8) {}) (r % 8) else {}

/-- What R192 and R422 check at a row firing: the arguments, and the field of a port C that is not read; the pass
begins, and the rows from the next are claimed. -/
def openRow (w : MaWord) (k : Nat) (t : Token) (s : State) : Except Halt (MaArgs × State) := do
  let aw := accWidth w.lf.width
  let a ← maArgs s aw (fun a => decide (w.op ≠ .mspm) || decide (a.m % 4 = 0)) anyArgs t
  needE ((w.cPort s).isSome || decide (w.c = 0#5)) (badArg 2 t)
  let rs := (List.range k).flatMap fun j => accKeys s s.cur aw (a.row0 + ((wk s).count + j) % a.m)
  needE (accFree s s.cur rs) .wait
  .ok (a, modIntake (claimRows s s.cur rs) (startPass a))

/-- A row or group of k rows: with an ERR in its place, or a marked block, its ERR goes on (R172, R192, R193). -/
def runRows (w : MaWord) (a : MaArgs) (k : Nat) (err : Option Token) (body : State → State) (s : State) : State :=
  match (match err with | some t => some t | none => markOf w s) with
  | some t => countRows a k (passErr s t)
  | none => body s

/-- The A row of a dense operation (R189). -/
def denseRow (w : MaWord) (s : State) : Except Halt State := do
  let ts := w.ab.map fun p => ((present s w.ab 1 p).headD {})
  let t := ts.headD {}
  let (a, s1) ← openRow w 1 t s
  let err := ts.find? fun t => decide (t.ty = tyErr)
  match ts with
  | [x, y] =>
    needE (err.isSome || decide (x.seq = y.seq))
      (.freeze 1 0x0D 0 (BitVec.ofNat 64 (x.seq.toNat * 4096 + y.seq.toNat)) y)
  | _ => .ok ()
  let n := w.lf.width
  let bits := (ts.zip [0, 512]).foldl (fun v t => v + t.1.data.toNat * 2 ^ t.2) 0
  let s2 := takeAll s1 w.ab 1
  .ok (runRows w a 1 err (updateRow w a ((splitLanes n (maDepth n) bits).map some) (rowScale w s2 a)) s2)

/-- The elements of four sparse rows: for each k, the element or none (R197). -/
def unpackRows : Nat → Nat → List Nat → List (Option Nat)
  | 0, _, _ => []
  | n + 1, bits, es =>
    if bits % 2 = 1 then some (es.headD 0) :: unpackRows n (bits / 2) es.tail else none :: unpackRows n (bits / 2) es

/-- A group of four rows of MSPM (R197). -/
def sparseRows (w : MaWord) (pa pb : Port) (s : State) : Except Halt State := do
  let b := (present s w.ab 1 pb).headD {}
  let n := (sparseNeed s pa b).getD 0
  let ts := peekPort s pa n
  let (a, s1) ← openRow w 4 b s
  let err := (ts ++ [b]).find? fun t => decide (t.ty = tyErr)
  let els := ts.flatMap fun t => splitLanes 8 64 t.data.toNat
  let rows := unpackRows 512 b.data.toNat els
  let s2 := if pb.k = pa.k then takePort s1 pa n else takePort (takePort s1 pa n) pb 1
  .ok (runRows w a 4 err
    (fun s => (List.range 4).foldl (fun s r => updateRow w a ((rows.drop (128 * r)).take 128) (rowScale w s a) s) s) s2)

/-- A firing of the array: what port C presents is taken, and a row fires where it can and its output holds credit for the
row's first token (R163). -/
def productFire (w : MaWord) (s : State) : Except Halt State := do
  let s1 ← takeIntakes w 8 s
  if abAct w s1 = .fire ∧ starved w s1 {} = false ∧ hasCredit s1 s1.cur s1.curElem then
    match (match w.op, w.ab with | .mspm, [a, b] => sparseRows w a b s1 | _, _ => denseRow w s1) with
    | .error .wait => .ok s1
    | r => r
  else .ok s1

/-- A product operation that reads its rows from ports A and B. -/
def productOp (w : MaWord) (s : State) : Host.Outcome State Fault Refusal := .next (acting s (productAct w) (productFire w))

/-- MMA (R195). -/
def execMma (a b c : BitVec 5) (f : BitVec 3) (x : BitVec 4) (s : State) : Host.Outcome State Fault Refusal :=
  let lf := laneFmt f x
  productOp { op := .mma, lf := lf, ab := portAs 0 a :: (if lf.width = 8 then [portAs 1 b] else []), c := c } s

/-- MMAS (R195). -/
def execMmas (a b c : BitVec 5) (f : BitVec 3) (x : BitVec 4) (s : State) : Host.Outcome State Fault Refusal :=
  productOp { op := .mmas, lf := laneFmt f x, ab := [portAs 0 a, portAs 1 b], c := c } s

/-- MSPM (R195, R197). -/
def execMspm (a b c : BitVec 5) (f : BitVec 3) (x : BitVec 4) (s : State) : Host.Outcome State Fault Refusal :=
  productOp { op := .mspm, lf := laneFmt f x, ab := [portAs 0 a, portAs 1 b], c := c } s

/-! ## MMAC (R201, R239) -/

/-- What MMAC does: a row that the converter has passed on, or an end of its own once port C presents one too. -/
def chainAct (w : MaWord) (s : State) : Act :=
  let rest : Act :=
    if intakeReady w s then .intake
    else
      match (intake s).chain with
      | [] => .idle
      | t :: _ =>
        if t.ty = tyEos then onAB w (withC w s (.eos t.rank.toNat) (.eos t.rank.toNat))
        else if t.ty = tyTag then onAB w (withC w s (.tag (t.data.toNat % 2 ^ 32)) (.round (t.data.toNat % 2 ^ 32)))
        else if starved w s {} then awaitC w s .fire
        else .fire
  match w.cPort s with
  | some c => preAct s [c] maTakes rest
  | none => if (elemAt s s.cur 22).saved && (intake s).chain.isEmpty then .save else rest

/-- The row that the converter has passed on, taken. -/
def takeChain (s : State) : State := modIntake s fun i => { i with chain := i.chain.drop 3 }

/-- A row of the converter: codes, and α and s_A as R191 lays out row 0 (R138, R201), or the ERR that stands in its place
(R192). A format other than the converter's follows R177. -/
def chainRow (w : MaWord) (f : BitVec 3) (s : State) : Except Halt State := do
  let ts := (intake s).chain.take 3
  let (a, s1) ← openRow w 1 {} s
  needE (decide (((ewordAt s s.cur 22).extractLsb' 6 3) = f)) (badArg 0 {})
  let bits := (ts.getD 0 {}).data.toNat + (ts.getD 1 {}).data.toNat * 2 ^ 512
  let s2 := takeChain s1
  .ok (runRows w a 1 (ts.find? fun t => decide (t.ty = tyErr)) (updateRow w a ((splitLanes 8 128 bits).map some) (tokScale (ts.getD 2 {}) 0)) s2)

/-- A firing of MMAC. -/
def chainFire (w : MaWord) (f : BitVec 3) (s : State) : Except Halt State := do
  let s1 ← takeIntakes w 8 s
  match (intake s1).chain with
  | [] => .ok s1
  | t :: _ =>
    if t.ty = tyEos ∨ t.ty = tyTag then .ok s1
    else if starved w s1 {} then
      match awaitC w s1 .fire with
      | .fire => .ok (modWk (takeChain s1) fun k => { k with discard := true })
      | _ => .ok s1
    else if hasCredit s1 s1.cur s1.curElem then
      match chainRow w f s1 with
      | .error .wait => .ok s1
      | r => r
    else .ok s1

/-- MMAC (R195, R201). -/
def execMmac (c : BitVec 5) (f : BitVec 3) (x : BitVec 4) (s : State) : Host.Outcome State Fault Refusal :=
  let w : MaWord := { op := .mmac, lf := laneFmt f x, ab := [], c := c }
  .next (acting s (chainAct w) (chainFire w f))

/-! ## The row store (R196) -/

/-- A trigger token of MZERO or MRD: the next row of accumulators of aw bits, claimed, and what the operation does with
it; an ERR counts as a row (R192). -/
def triggerOp (p : Port) (aw : State → Nat) (ok2 : MaArgs → Bool) (body : MaArgs → Nat → State → State) (s : State) :
    Host.Outcome State Fault Refusal :=
  .next (acting s (fun s => plainAct s [p] 1 onlyData) fun s => do
    let t := (present s [p] 1 p).headD {}
    let a ← maArgs s (aw s) anyArgs (fun a => noCtl a && ok2 a) t
    let r := a.row0 + (wk s).count % a.m
    let ks := accKeys s s.cur (aw s) r
    needE (accFree s s.cur ks) .wait
    let s1 := modWk (takePort (claimRows s s.cur ks) p 1) fun w => { w with count := w.count + 1 }
    .ok (if t.ty = tyErr then passErr s1 t else body a r s1))

/-- MZERO (R196). -/
def execMzero (a : BitVec 5) (f : BitVec 3) (x : BitVec 4) (s : State) : Host.Outcome State Fault Refusal :=
  let aw := accWidth (laneFmt f x).width
  triggerOp (portAs 0 a) (fun _ => aw) anyArgs (fun _ r s => writeAcc s s.cur aw r (List.replicate 32 0)) s

/-- Width of an accumulator of a kind (R192). -/
def kindWidth (s : State) : Nat := if (rawArgs s).kind = 1 then 64 else 32

/-- Whether a format suits an accumulator kind (R196). -/
def kindSuits (f : Nat) (a : MaArgs) : Bool :=
  match a.kind with
  | 0 => decide (1 ≤ f ∧ f ≤ 3)
  | 1 => decide (f ≤ 1)
  | 2 => decide (f = 7)
  | _ => false

/-- MRD (R196): a row converted under R129 and emitted, then cleared under CLR. -/
def execMrd (a : BitVec 5) (f : BitVec 3) (r : BitVec 2) (x : BitVec 4) (s : State) : Host.Outcome State Fault Refusal :=
  triggerOp (portAs 0 a) kindWidth (kindSuits f.toNat) (fun a row s =>
    let aw := kindWidth s
    let src := if a.kind = 1 then binary64 else binary32
    let old := readAcc s s.cur aw row
    let res := match laneFmt f x with
      | .fp g => old.map (fpConv src g (rndOf r) false)
      | .int _ _ => old.map fun v => (v, 0#5)
    let s1 := addExc s (laneExc res)
    let s2 := if a.clr then writeAcc s1 s1.cur aw row (List.replicate 32 0) else s1
    emitRow s2 (laneFmt f x).width (res.map (·.1))) s

/-- The B block that MLDB has gathered made current, with one DATA token that counts it; an ERR among its tokens goes on
in its place (R172, R196). -/
def loadBlock (w : Nat) (s : State) : State :=
  let b := blockOf w (intake s).part
  let s1 := modIntake s fun i => { i with part := [] }
  match b.err with
  | some t => passErr s1 t
  | none =>
    let s2 := modIntake s1 fun i => { i with cur := b, loaded := i.loaded + 1 }
    let q := nextSeq s2
    emit q.2 (dataToks q.1 1 ((intake s2).loaded % 2 ^ 32))

/-- MLDB (R190, R196). -/
def execMldb (a : BitVec 5) (f : BitVec 3) (x : BitVec 4) (s : State) : Host.Outcome State Fault Refusal :=
  let p := portAs 0 a
  let lf := laneFmt f x
  let nd := blockToks lf.width
  let total := nd + (if lf.isFp8 && bitOf x 0 then 3 else 0)
  .next (acting s (fun s => preAct s [p] (fun _ ty => maTakes 2 ty) (agree s [p] 1)) fun s => do
    let t := (present s [p] 1 p).headD {}
    let n := (intake s).part.length
    if n = 0 then
      let _ ← maArgs s (accWidth lf.width) anyArgs noCtl t
    let want := if n < nd then tyData else tyScale
    needE (decide (t.ty = want) || decide (t.ty = tyErr)) (.freeze 0 0x0E t.ty.toNat (BitVec.ofNat 64 s.curElem) t)
    let s1 := modIntake (takePort s p 1) fun i => { i with part := i.part ++ [t] }
    .ok (if n + 1 = total then loadBlock lf.width s1 else s1))

/-- The array at an EOS of rank r (R192 to R194): rows are counted from 0, the intake keeps the
block in use alone, and from rank 2 the context's claims are released. DESIGN CHOICE (log entry 120). -/
def endArray (r : Nat) (s : State) : State :=
  let s1 := modWk s fun w =>
    { w with
      count := 0
      intake := { cur := w.intake.cur, chain := w.intake.chain, loaded := if 2 ≤ r then 0 else w.intake.loaded } }
  if 2 ≤ r then { s1 with claims := s1.claims.filter fun c => decide (c.2 ≠ s1.cur) } else s1

/-! ## MCX (R198) -/

/-- Whether key x is better than key y: NaNs last, then the larger (or smaller) key, then the lower index. -/
def keyBetter (lf : LaneFmt) (asc : Bool) (x y : Nat × Nat) : Bool :=
  match lf with
  | .fp g =>
    let a := unpack g x.1
    let b := unpack g y.1
    let first := decide (x.2 < y.2)
    if a.isNan then b.isNan && first
    else if b.isNan then true
    else if fvalLt true a b then asc
    else if fvalLt true b a then !asc
    else first
  | .int w u =>
    let a := intOf w u x.1
    let b := intOf w u y.1
    if a < b then asc else if b < a then !asc else decide (x.2 < y.2)

/-- A key put in its place in a list from best to worst. -/
def insertKey (lf : LaneFmt) (asc : Bool) (x : Nat × Nat) : List (Nat × Nat) → List (Nat × Nat)
  | [] => [x]
  | y :: l => if keyBetter lf asc x y then x :: y :: l else y :: insertKey lf asc x l

/-- The arguments of MCX: k and ASC (R198). DEDUCED (log entry 50). -/
def mcxArgs (s : State) (t : Token) : Except Halt (Nat × Bool) := do
  let k := (slot s 0).toNat
  needE (decide (1 ≤ k ∧ k ≤ 32)) (badArg 0 t)
  needE (decide ((slot s 1).toNat < 2)) (badArg 1 t)
  .ok (k, bitOf (slot s 1) 0)

/-- The best keys of an episode emitted at an EOS (R198). -/
def flushMcx (lf : LaneFmt) (s : State) : Except Halt State := do
  let ks := (wk s).keys
  let s1 := modWk s fun w => { w with keys := [], count := 0 }
  if ks.isEmpty then .ok s1
  else
    let (k, asc) ← mcxArgs s {}
    let best := (ks.foldr (insertKey lf asc) []).take k
    let q := nextSeq s1
    .ok (emit q.2 ((best.zip (List.range best.length)).map fun x =>
      { ty := tyData, data := BitVec.ofNat 512 (x.1.1 + x.1.2 % 2 ^ 32 * 2 ^ 64), seq := q.1,
        gend := decide (x.2 + 1 = best.length) }))

/-- MCX (R198). -/
def execMcx (a : BitVec 5) (f : BitVec 3) (x : BitVec 4) (s : State) : Host.Outcome State Fault Refusal :=
  let p := portAs 0 a
  let w := (laneFmt f x).width
  let n := 512 / w
  .next (acting s (fun s => plainAct s [p] 1 onlyData) fun s => do
    let t := (present s [p] 1 p).headD {}
    let _ ← mcxArgs s t
    let i := (wk s).count
    let s1 := modWk (takePort s p 1) fun k => { k with count := i + n }
    if t.ty = tyErr then .ok (passErr s1 t)
    else
      let ks := (splitLanes w n t.data.toNat).zip ((List.range n).map fun j => (i + j) % 2 ^ 32)
      .ok (modWk s1 fun k => { k with keys := k.keys ++ ks }))

end Sys2Proof.Machine
end

