-- ==== Sys2Proof/Machine/Convert.lean ====
section
/-!
DEFINITION. The converter (R135 to R138, R199 to R202) and the scale joiner (R203).
-/

namespace Sys2Proof.Machine

open Sys2Proof

/-! ## Scale selection (R135, R136) -/

/-- floor(log2) of the largest finite magnitude among values, none where all are zero. -/
def topLog (xs : List FVal) : Option Int :=
  xs.foldl (fun m x =>
    match x with
    | .fin _ n e =>
      if n = 0 then m
      else
        let l := e + Nat.log2 n
        some (match m with | some y => max y l | none => l)
    | _ => m) none

/-- Whether a value is finite and not zero. -/
def FVal.isNormal : FVal → Bool
  | .fin _ m _ => decide (m ≠ 0)
  | _ => false

/-- Convert(k) of R136: the codes, the exceptions and the underflow count. -/
def convertBy (f : Fmt) (sat : Bool) (xs : List FVal) (k : Int) : List Nat × BitVec 5 × Nat :=
  let qs := xs.map fun x => roundTo f .rne sat (x.scale (-k)).toExact
  (qs.map (·.1), laneExc qs,
   ((xs.zip qs).filter fun p => p.1.isNormal && decide (p.2.1 % f.signBit = 0)).length)

/-- A block converted: its codes, the exceptions of its final conversion, u, c and STEP (R136). -/
structure Converted where
  q : List Nat
  ex : BitVec 5
  u : Nat
  c : Nat
  step : Bool
deriving DecidableEq, Repr

/-- A block of the down-converter, with target f, margin m and threshold th (R135, R136). DEDUCED (log entry 51). -/
def downConvert (f : Fmt) (sat : Bool) (m : Int) (th : Nat) (xs : List FVal) : Converted :=
  let emax : Int := if f.ieee then 15 else 8
  let k := clampInt (-127) 127 (match topLog xs with | none => 0 | some l => l - emax + m)
  let r := convertBy f sat xs k
  if r.2.2 > th ∧ k > -127 then
    let r2 := convertBy f sat xs (k - 1)
    { q := r2.1, ex := r2.2.1, u := r2.2.2, c := (k + 126).toNat, step := true }
  else { q := r.1, ex := r.2.1, u := r.2.2, c := (k + 127).toNat, step := false }

/-! ## CVDN (R199 to R201) -/

/-- The arguments of CVDN. -/
structure CvArgs where
  m : Int
  th : Nat
  chain : Bool
  stat : Bool
  src : Nat
  srow0 : Nat
  sigma : Nat
  mc : Nat
  sA : Nat
deriving DecidableEq, Repr

/-- The arguments of CVDN, checked under R177; slots 1 and 2 are read in chain mode only. -/
def cvArgs (s : State) (t : Token) : Except Halt CvArgs := do
  let v := slot s 0
  let w := slot s 1
  let chain := bitOf v 16
  needE (decide (field v 7 4 = 0 ∧ v.toNat < 2 ^ 21 ∧ field v 20 18 < 4)) (badArg 0 t)
  needE (!chain || decide (w.toNat < 2 ^ 25 ∧ 1 ≤ field w 15 8 ∧ field w 15 8 ≤ 64 ∧ 1 ≤ field w 24 16 ∧
    field w 24 16 ≤ 256)) (badArg 1 t)
  needE (!chain || decide ((slot s 2).toNat < 2 ^ 32)) (badArg 2 t)
  .ok { m := intOf 4 false (field v 3 0), th := field v 15 8, chain := chain, stat := bitOf v 17, src := field v 20 18,
        srow0 := field w 7 0, sigma := field w 15 8, mc := field w 24 16, sA := (slot s 2).toNat }

/-- The converter's stream started by the first token after a launch's start or an EOS of rank 2 (R200). -/
def startConv (s : State) : State :=
  if (wk s).cvOn then s else modWk s fun w => { w with cvOn := true, cvUcnt := 0, cvBlk := 0 }

/-- A block counted in CVSR (R137, R200). -/
def countBlock (r : Converted) (s : State) : State :=
  modWk (addExc s r.ex) fun w =>
    { w with
      cvUcnt := min 255 (w.cvUcnt + r.u)
      cvStep := w.cvStep || r.step
      cvBlk := min 4095 (w.cvBlk + 1) }

/-- The words that CVDN has gathered converted as one block and emitted, missing words read as +0; an ERR among their
tokens goes on in its place (R137, R172, R199). -/
def flushBlock (f : Fmt) (sat : Bool) (a : CvArgs) (s : State) : State :=
  let ts := (wk s).got
  let s1 := modWk s fun w => { w with got := [] }
  match ts.find? fun t => decide (t.ty = tyErr) with
  | some t => passErr s1 t
  | none =>
    let g := fmtOf a.src
    let v := (ts.zip (List.range ts.length)).foldl (fun m t => m + t.1.data.toNat * 2 ^ (512 * t.2)) 0
    let r := downConvert f sat a.m a.th ((splitLanes g.width 32 v).map (unpack g))
    let q := nextSeq (countBlock r s1)
    emit q.2 [{ ty := tyData, data := BitVec.ofNat 512 (joinLanes 8 r.q), seq := q.1, gend := true,
                band := BitVec.ofNat 16 (r.c + 256 * r.u) }]

/-- A word token of CVDN outside chain mode. -/
def gatherWords (f : Fmt) (sat : Bool) (a : CvArgs) (p : Port) (t : Token) (s : State) : State :=
  let s1 := modWk (takePort s p 1) fun w => { w with got := w.got ++ [t] }
  if (wk s1).got.length * 512 = 32 * (fmtOf a.src).width then flushBlock f sat a s1 else s1

/-- Tokens passed to the chained MMAC (R201, R239). DEDUCED (log entry 49). -/
def chainTo (s : State) (ts : List Token) : State :=
  let x := elemAt s s.cur 9
  setElem s s.cur 9
    { x with work := { x.work with intake := { x.work.intake with chain := x.work.intake.chain ++ ts } } }

/-- A trigger token in chain mode: one A row of four blocks passed to MMAC (R201), or the ERR that stands in its place, which
counts as that row (R172, R192). DEDUCED (log entry 49). -/
def triggerRow (f : Fmt) (sat : Bool) (a : CvArgs) (p : Port) (t : Token) (s : State) : Except Halt State := do
  let i := (wk s).count
  needE (decide (eopOf (ewordAt s s.cur 9) = 0x42)) (badArg 0 t)
  needE (decide (i < a.mc)) (badArg 1 t)
  if t.ty = tyErr then
    return chainTo (modWk (takePort s p 1) fun w => { w with count := i + 1 }) (List.replicate 3 t)
  let rows := (List.range 4).map fun q => a.srow0 + i + a.sigma * q
  needE (rows.all fun r => decide (r < accRows s s.cur 32)) (badArg 1 t)
  let ks := rows.flatMap (accKeys s s.cur 32)
  needE (accFree s s.cur ks) .wait
  let bs := rows.map fun r => downConvert f sat a.m a.th ((readAcc s s.cur 32 r).map (unpack binary32))
  let s1 := modWk (takePort (claimRows s s.cur ks) p 1) fun w => { w with count := i + 1 }
  let codes := bs.flatMap (·.q)
  .ok (chainTo (bs.foldl (fun s b => countBlock b s) s1)
    [{ ty := tyData, data := BitVec.ofNat 512 (joinLanes 8 (codes.take 64)) },
     { ty := tyData, data := BitVec.ofNat 512 (joinLanes 8 (codes.drop 64)) },
     { ty := tyScale, data := BitVec.ofNat 512 (joinLanes 8 (bs.map (·.c)) + a.sA * 2 ^ 32) }])

/-- CVDN (R199). -/
def execCvdn (a : BitVec 5) (f : BitVec 3) (z : BitVec 1) (s : State) : Host.Outcome State Fault Refusal :=
  let p := portAs 0 a
  let g := fmtOf f.toNat
  let sat := decide (z = 1#1)
  .next (acting s (fun s => plainAct s [p] 1 onlyData) fun s0 => do
    let s := startConv s0
    let t := (present s [p] 1 p).headD {}
    let v ← cvArgs s t
    if v.chain then triggerRow g sat v p t s
    else .ok (gatherWords g sat v p t s))

/-- CVDN at an EOS of rank r (R199 to R201): a block cut short is padded, the status token is emitted under STAT, and in
chain mode the rows count from 0 again and MMAC learns of the EOS. -/
def flushCvdn (f : BitVec 3) (z : BitVec 1) (r : Nat) (s0 : State) : Except Halt State := do
  let s := startConv s0
  let a ← cvArgs s {}
  let s1 := if (wk s).got.isEmpty || a.chain then s else flushBlock (fmtOf f.toNat) (decide (z = 1#1)) a s
  let s2 :=
    if a.stat && decide (1 ≤ r) then
      let q := nextSeq s1
      emit q.2 [{ ty := tyData, data := (cvsrOf (el s1) 22).setWidth 512, seq := q.1, gend := true }]
    else s1
  let s3 := modWk s2 fun w => { w with count := 0, got := [], cvOn := w.cvOn && decide (r < 2) }
  .ok (if a.chain then chainTo s3 [{ ty := tyEos, rank := BitVec.ofNat 2 r }] else s3)

/-- CVDN at a TAG: in chain mode MMAC learns of it. -/
def tagCvdn (n : Nat) (s : State) : State :=
  let s1 := startConv s
  if bitOf (slot s1 0) 16 then chainTo s1 [{ ty := tyTag, data := BitVec.ofNat 512 n }] else s1

/-! ## CVUP (R202) -/

/-- The words of a scaled block: q_j times 2^(c - 127), each rounded (R202). -/
def upConvert (src dst : Fmt) (r : Rnd) (c : Nat) (qs : List Nat) : List (Nat × BitVec 5) :=
  qs.map fun q =>
    if c = 255 then (dst.nanCode, exNV) else roundTo dst r false ((unpack src q).scale ((c : Int) - 127)).toExact

/-- CVUP (R202). A DATA token with gend = 0 is no block, and is taken without a result. -/
def execCvup (a : BitVec 5) (f : BitVec 3) (r : BitVec 2) (s : State) : Host.Outcome State Fault Refusal :=
  let ps := [portAs 0 a]
  let dst := fmtOf f.toNat
  plainOp ps 1 onlyData (fun s items => do
    let t := tokAt items 0 0
    let c := field (slot s 0) 2 0
    needE (decide (c = 4 ∨ c = 5)) (badArg 0 t)
    if !t.gend then .ok s
    else
      let ws := upConvert (fmtOf c) dst (rndOf r) (t.band.toNat % 256) (splitLanes 8 32 t.data.toNat)
      .ok (emitRow (addExc s (laneExc ws)) dst.width (ws.map (·.1)))) s

/-! ## SJOIN (R203) -/

/-- What SJOIN does: a DATA token with gend = 0 passes at once; any other pairs with a SCALE token. -/
def sjoinAct (a b : Port) (s : State) : Act :=
  preAct s [a, b] (fun n ty => if n = 0 then decide (ty = tyData) else decide (ty = tyScale))
    (match peekPort s a 1 with
    | t :: _ => if t.ty = tyData ∧ t.gend = false ∧ (wk s).discard = false then .fire else agree s [a, b] 1
    | [] => agree s [a, b] 1)

/-- A firing of SJOIN. -/
def sjoinFire (a b : Port) (s : State) : Except Halt State :=
  let t := (peekPort s a 1).headD {}
  if t.ty = tyData ∧ t.gend = false then .ok (emit (takePort s a 1) [{ t with band := 0#16 }])
  else
    fireOn [a, b] 1 (fun s items =>
      let x := tokAt items 0 0
      let y := tokAt items 1 0
      if x.seq ≠ y.seq then .error (.freeze 1 0x0D 0 (BitVec.ofNat 64 (x.seq.toNat * 4096 + y.seq.toNat)) y)
      else .ok (emit s [{ x with band := y.data.setWidth 16 }])) s

/-- SJOIN (R203). -/
def execSjoin (a b : BitVec 5) (_f : BitVec 3) (s : State) : Host.Outcome State Fault Refusal :=
  .next (acting s (sjoinAct (portAs 0 a) (portAs 1 b)) (sjoinFire (portAs 0 a) (portAs 1 b)))

end Sys2Proof.Machine
end

