-- ==== Sys2Proof/Machine/LoadStore.lean ====
section
/-!
DEFINITION. Scalar loads and stores (R91 to R95): majors 0x20 to 0x24.
-/

namespace Sys2Proof.Machine

open Sys2Proof

/-- A load of n bytes into t, with a declared scope or a derived one (R92, R94, R95). -/
def loadBody (t : BitVec 7) (n : Nat) (scope : Option Nat) (signed : Bool) (va : Word) (s : State) : Except Stop State := do
  let (x, s1) ← address s .read va n
  let (b, s2) ← readC s1 x n scope va
  .ok (modMe s2 fun y => writeVal y t (if signed then sext64 (8 * n) (ofBytes b) else BitVec.ofNat 64 (ofBytes b)))

/-- A store of the low n bytes of a value (R92, R94, R95). -/
def storeBody (v : Word) (n : Nat) (scope : Option Nat) (va : Word) (s : State) : Except Stop State := do
  let (x, s1) ← address s .write va n
  storeC s1 x (toBytes n v.toNat) scope va

/-- The address of a CM form: a + sext(off7) × n (R94). -/
def addrCM (x : UnitRegs) (a : BitVec 7) (off : BitVec 7) (k : Nat) : Word := readVal x a + (off.signExtend 64 <<< k)

/-- The declared scope of a scope field: 0 to 4 are tile to package (R18). -/
def declared (c : BitVec 3) : Option Nat := some c.toNat

/-- LDB (R94). -/
def execLdb (t a : BitVec 7) (c : BitVec 3) (off : BitVec 7) (s : State) : Host.Outcome State Fault Refusal :=
  cword (.ldb t a c off) s fun s => loadBody t 1 (declared c) true (addrCM (me s) a off 0) s

/-- LDH (R94). -/
def execLdh (t a : BitVec 7) (c : BitVec 3) (off : BitVec 7) (s : State) : Host.Outcome State Fault Refusal :=
  cword (.ldh t a c off) s fun s => loadBody t 2 (declared c) true (addrCM (me s) a off 1) s

/-- LDW (R94). -/
def execLdw (t a : BitVec 7) (c : BitVec 3) (off : BitVec 7) (s : State) : Host.Outcome State Fault Refusal :=
  cword (.ldw t a c off) s fun s => loadBody t 4 (declared c) true (addrCM (me s) a off 2) s

/-- LDD (R94). -/
def execLdd (t a : BitVec 7) (c : BitVec 3) (off : BitVec 7) (s : State) : Host.Outcome State Fault Refusal :=
  cword (.ldd t a c off) s fun s => loadBody t 8 (declared c) true (addrCM (me s) a off 3) s

/-- LDBZ (R94). -/
def execLdbz (t a : BitVec 7) (c : BitVec 3) (off : BitVec 7) (s : State) : Host.Outcome State Fault Refusal :=
  cword (.ldbz t a c off) s fun s => loadBody t 1 (declared c) false (addrCM (me s) a off 0) s

/-- LDHZ (R94). -/
def execLdhz (t a : BitVec 7) (c : BitVec 3) (off : BitVec 7) (s : State) : Host.Outcome State Fault Refusal :=
  cword (.ldhz t a c off) s fun s => loadBody t 2 (declared c) false (addrCM (me s) a off 1) s

/-- LDWZ (R94). -/
def execLdwz (t a : BitVec 7) (c : BitVec 3) (off : BitVec 7) (s : State) : Host.Outcome State Fault Refusal :=
  cword (.ldwz t a c off) s fun s => loadBody t 4 (declared c) false (addrCM (me s) a off 2) s

/-- LDDZ (R94). -/
def execLddZ (t a : BitVec 7) (c : BitVec 3) (off : BitVec 7) (s : State) : Host.Outcome State Fault Refusal :=
  cword (.lddZ t a c off) s fun s => loadBody t 8 (declared c) false (addrCM (me s) a off 3) s

/-- STB (R94). -/
def execStb (t a : BitVec 7) (c : BitVec 3) (off : BitVec 7) (s : State) : Host.Outcome State Fault Refusal :=
  cword (.stb t a c off) s fun s => storeBody (readVal (me s) t) 1 (declared c) (addrCM (me s) a off 0) s

/-- STH (R94). -/
def execSth (t a : BitVec 7) (c : BitVec 3) (off : BitVec 7) (s : State) : Host.Outcome State Fault Refusal :=
  cword (.sth t a c off) s fun s => storeBody (readVal (me s) t) 2 (declared c) (addrCM (me s) a off 1) s

/-- STW (R94). -/
def execStw (t a : BitVec 7) (c : BitVec 3) (off : BitVec 7) (s : State) : Host.Outcome State Fault Refusal :=
  cword (.stw t a c off) s fun s => storeBody (readVal (me s) t) 4 (declared c) (addrCM (me s) a off 2) s

/-- STD (R94). -/
def execStd (t a : BitVec 7) (c : BitVec 3) (off : BitVec 7) (s : State) : Host.Outcome State Fault Refusal :=
  cword (.std t a c off) s fun s => storeBody (readVal (me s) t) 8 (declared c) (addrCM (me s) a off 3) s

/-- LDX (R95). -/
def execLdx (d a b : BitVec 7) (s : State) : Host.Outcome State Fault Refusal :=
  cword (.ldx d a b) s fun s => loadBody d 8 none true (readVal (me s) a + readVal (me s) b) s

/-- STX (R95): d holds the data. -/
def execStx (d a b : BitVec 7) (s : State) : Host.Outcome State Fault Refusal :=
  cword (.stx d a b) s fun s => storeBody (readVal (me s) d) 8 none (readVal (me s) a + readVal (me s) b) s

end Sys2Proof.Machine
end

