-- ==== Sys2Proof/Machine/Tagged.lean ====
section
/-!
DEFINITION. Tagged scratchpad words (R96 to R98), atomics (R332, R333) and reductions (R334 to R336): majors 0x25 to 0x28.
-/

namespace Sys2Proof.Machine

open Sys2Proof

/-- A scratchpad word's address for a tagged operation, with 0x1A for any other (R96). Each operation names its access kind:
LDF and FEQ read, LDFE and LDFE.NB are atomic, and the others write. DEDUCED (log entry 102). -/
def tagAddress (s : State) (k : Access) (va : Word) : Except Stop (XOk × State) := do
  let (x, s1) ← address s k va 8
  need' (isSpad x.pa) (.trap 0x1A#8 0#8 va)
  .ok (x, s1)

/-- A tagged operation's wait: parked in the bank's list while that has room (R96, R97, R169). -/
def parkTag (s : State) (x : XOk) (va : Word) (full clear : Bool) (v : Word) (reg : BitVec 7) : Except Stop State :=
  let w : Wait := { kind := .tagWord, value := va, count := ((me s).wait.map (·.count)).getD 0 }
  if bankListFull s x.pa then .error (.wait s w)
  else .error (.wait { s with twaiters := s.twaiters ++
    [{ pa := wordOf x.pa, who := s.cur, elem := false, full := full, clear := clear, value := v, reg := reg, va := va,
       sa := x.sa }] } w)

/-- The data of a full word read into d, and the word emptied where `clear` says so, which makes the event one that writes
the word (R96). -/
def takeFull (s : State) (x : XOk) (va : Word) (d : BitVec 7) (clear : Bool) : Except Stop State :=
  if clear then
    if pinnedRange s none x.pa 8 then .error .hold
    else
      let e := atomicEvent s.mem x.pa 8 (tileOf s.cur) s.tb none x.sa (me s).pts
      .ok (tagTo (modMe (putEvent s x.pa none va e) fun y => writeVal y d (rd64 s.mem x.pa)) x.pa false)
  else do
    let (b, s1) ← readC s x 8 none va
    .ok (modMe s1 fun y => writeVal y d (BitVec.ofNat 64 (ofBytes b)))

/-- The event of a tagged operation that finds the wrong tag and goes on: it reads the tag (R96). -/
def seeTag (s : State) (x : XOk) (va : Word) : State :=
  putEvent s x.pa none va (readEvent s.mem x.pa 8 (tileOf s.cur) s.tb none x.sa (me s).pts)

/-- Data stored in a word and the word filled (R96). -/
def fillWord (s : State) (x : XOk) (va v : Word) : Except Stop State := do
  let s1 ← writeC s x (toBytes 8 v.toNat) none va
  .ok (tagTo s1 x.pa true)

/-- A word's tag changed, its data kept (R96). -/
def changeTag (s : State) (x : XOk) (va : Word) (full : Bool) : Except Stop State :=
  if pinnedRange s none x.pa 8 then .error .hold
  else .ok (tagTo (putEvent s x.pa none va (stampLines s.mem (tileOf s.cur) s.tb none x.sa (me s).pts [lineOf x.pa])) x.pa full)

/-- LDF and LDFE (R96). -/
def loadFull (i : Instr) (d a : BitVec 7) (clear : Bool) (s : State) : Host.Outcome State Fault Refusal :=
  cword i s fun s => do
    let va := readVal (me s) a
    let (x, s1) ← tagAddress s (if clear then .atomic else .read) va
    need' (poisonedIn s1.mem x.pa 8).isNone (.poison va)
    if isFull s1.mem x.pa then takeFull s1 x va d clear else parkTag s1 x va true clear 0#64 d

/-- LDF (R96). -/
def execLdf (d a : BitVec 7) (s : State) : Host.Outcome State Fault Refusal := loadFull (.ldf d a) d a false s

/-- LDFE (R96). -/
def execLdfe (d a : BitVec 7) (s : State) : Host.Outcome State Fault Refusal := loadFull (.ldfe d a) d a true s

/-- STE (R96). -/
def execSte (a b : BitVec 7) (s : State) : Host.Outcome State Fault Refusal :=
  cword (.ste a b) s fun s => do
    let va := readVal (me s) a
    let v := readVal (me s) b
    let (x, s1) ← tagAddress s .write va
    if isFull s1.mem x.pa then parkTag s1 x va false false v 0#7 else fillWord s1 x va v

/-- STF (R96). -/
def execStf (a b : BitVec 7) (s : State) : Host.Outcome State Fault Refusal :=
  cword (.stf a b) s fun s => do
    let va := readVal (me s) a
    let (x, s1) ← tagAddress s .write va
    fillWord s1 x va (readVal (me s) b)

/-- FESET (R96). -/
def execFeset (a : BitVec 7) (s : State) : Host.Outcome State Fault Refusal :=
  cword (.feset a) s fun s => do
    let va := readVal (me s) a
    let (x, s1) ← tagAddress s .write va
    changeTag s1 x va true

/-- FECLR (R96). -/
def execFeclr (a : BitVec 7) (s : State) : Host.Outcome State Fault Refusal :=
  cword (.feclr a) s fun s => do
    let va := readVal (me s) a
    let (x, s1) ← tagAddress s .write va
    changeTag s1 x va false

/-- FEQ (R96). -/
def execFeq (d a : BitVec 7) (s : State) : Host.Outcome State Fault Refusal :=
  cword (.feq d a) s fun s => do
    let va := readVal (me s) a
    let (x, s1) ← tagAddress s .read va
    .ok (modMe (seeTag s1 x va) fun y => writePred y d (isFull s1.mem x.pa))

/-- LDFE.NB (R96). -/
def execLdfeNb (d a : BitVec 7) (s : State) : Host.Outcome State Fault Refusal :=
  cword (.ldfeNb d a) s fun s => do
    let va := readVal (me s) a
    let (x, s1) ← tagAddress s .atomic va
    need' (poisonedIn s1.mem x.pa 8).isNone (.poison va)
    if isFull s1.mem x.pa then do
      let s2 ← takeFull s1 x va d true
      .ok (modMe s2 fun y => writeP7 y true)
    else .ok (modMe (seeTag s1 x va) fun y => writeP7 (writeVal y d 0#64) false)

/-- STE.NB (R96). -/
def execSteNb (a b : BitVec 7) (s : State) : Host.Outcome State Fault Refusal :=
  cword (.steNb a b) s fun s => do
    let va := readVal (me s) a
    let v := readVal (me s) b
    let (x, s1) ← tagAddress s .write va
    if isFull s1.mem x.pa then .ok (modMe (seeTag s1 x va) fun y => writeP7 y false)
    else do
      let s2 ← fillWord s1 x va v
      .ok (modMe s2 fun y => writeP7 y true)

/-! ## Atomics (R332) -/

/-- The operations of an atomic, in the order of major 0x26 (R332). -/
inductive AtomicOp where
  | add | and | or | xor | min | max | minn | maxn | swp | cas
deriving DecidableEq, Repr

/-- What an atomic of w bits stores for the old value, its operand and, for CAS, the value compared (R209, R332). -/
def AtomicOp.apply (op : AtomicOp) (w : Nat) (old b c : Nat) : Nat :=
  let i := intOf w false
  match op with
  | .add => (old + b) % 2 ^ w
  | .and => Nat.land old b
  | .or => Nat.lor old b
  | .xor => Nat.xor old b
  | .min => if i b < i old then b else old
  | .max => if i old < i b then b else old
  | .minn => Nat.min old b
  | .maxn => Nat.max old b
  | .swp => b
  | .cas => if old = c then b else old

/-- An atomic of the issuing unit on 8 bytes (R332): d receives the old value. A CAS that finds another value makes no
write. -/
def atomicBody (op : AtomicOp) (d a b : BitVec 7) (s : State) : Except Stop State := do
  let y := me s
  let va := readVal y a
  let (x, s1) ← address s .atomic va 8
  if isRegion x.pa then .error (.trap 7#8 3#8 va)
  else do
    need' (poisonedIn s1.mem x.pa 8).isNone (.poison va)
    need' (!pinnedRange s1 none x.pa 8) .hold
    let old := rdNum s1.mem x.pa 8
    let new := op.apply 64 old (readVal y b).toNat (readVal y d).toNat
    let e := atomicEvent s1.mem x.pa 8 (tileOf s1.cur) s1.tb none x.sa (me s1).pts
    let e' := if op = .cas ∧ old ≠ (readVal y d).toNat then e else { e with mem := clearPoison (wrNum e.mem x.pa 8 new) x.pa 8 }
    .ok (modMe (putEvent s1 x.pa none va e') fun z => writeVal z d (BitVec.ofNat 64 old))

/-- AMOADD (R332). -/
def execAmoadd (d a b : BitVec 7) (s : State) : Host.Outcome State Fault Refusal := cword (.amoadd d a b) s (atomicBody .add d a b)

/-- AMOAND (R332). -/
def execAmoand (d a b : BitVec 7) (s : State) : Host.Outcome State Fault Refusal := cword (.amoand d a b) s (atomicBody .and d a b)

/-- AMOOR (R332). -/
def execAmoor (d a b : BitVec 7) (s : State) : Host.Outcome State Fault Refusal := cword (.amoor d a b) s (atomicBody .or d a b)

/-- AMOXOR (R332). -/
def execAmoxor (d a b : BitVec 7) (s : State) : Host.Outcome State Fault Refusal := cword (.amoxor d a b) s (atomicBody .xor d a b)

/-- AMOMIN (R332). -/
def execAmomin (d a b : BitVec 7) (s : State) : Host.Outcome State Fault Refusal := cword (.amomin d a b) s (atomicBody .min d a b)

/-- AMOMAX (R332). -/
def execAmomax (d a b : BitVec 7) (s : State) : Host.Outcome State Fault Refusal := cword (.amomax d a b) s (atomicBody .max d a b)

/-- AMOMINN (R332). -/
def execAmominn (d a b : BitVec 7) (s : State) : Host.Outcome State Fault Refusal := cword (.amominn d a b) s (atomicBody .minn d a b)

/-- AMOMAXN (R332). -/
def execAmomaxn (d a b : BitVec 7) (s : State) : Host.Outcome State Fault Refusal := cword (.amomaxn d a b) s (atomicBody .maxn d a b)

/-- AMOSWP (R332). -/
def execAmoswp (d a b : BitVec 7) (s : State) : Host.Outcome State Fault Refusal := cword (.amoswp d a b) s (atomicBody .swp d a b)

/-- AMOCAS (R332). -/
def execAmocas (d a b : BitVec 7) (s : State) : Host.Outcome State Fault Refusal := cword (.amocas d a b) s (atomicBody .cas d a b)

/-! ## Reductions forked as engine operations (R334, R336) -/

/-- A RED C-word (R334): after the alignment check, an engine operation of one event is forked. -/
def redWord (i : Instr) (op : Nat) (a b : BitVec 7) (s : State) : Host.Outcome State Fault Refusal :=
  cword i s fun s => do
    let y := me s
    checkAligned (readVal y a) 8
    .ok (fork s (.red op (readVal y a) (readVal y b)) none (readVal y a))

/-- REDADD (R334). DEDUCED (log entry 32). -/
def execRedadd (a b : BitVec 7) (s : State) : Host.Outcome State Fault Refusal := redWord (.redadd a b) 0 a b s

/-- REDAND (R334). -/
def execRedand (a b : BitVec 7) (s : State) : Host.Outcome State Fault Refusal := redWord (.redand a b) 1 a b s

/-- REDOR (R334). -/
def execRedor (a b : BitVec 7) (s : State) : Host.Outcome State Fault Refusal := redWord (.redor a b) 2 a b s

/-- REDXOR (R334). -/
def execRedxor (a b : BitVec 7) (s : State) : Host.Outcome State Fault Refusal := redWord (.redxor a b) 3 a b s

/-- REDMIN (R334). -/
def execRedmin (a b : BitVec 7) (s : State) : Host.Outcome State Fault Refusal := redWord (.redmin a b) 4 a b s

/-- REDMAX (R334). -/
def execRedmax (a b : BitVec 7) (s : State) : Host.Outcome State Fault Refusal := redWord (.redmax a b) 5 a b s

/-- An ORED C-word (R336): after the alignment check, an engine operation that carries c and b is forked. -/
def oredWord (i : Instr) (fn : Nat) (c a b : BitVec 7) (s : State) : Host.Outcome State Fault Refusal :=
  cword i s fun s => do
    let y := me s
    checkAligned (readVal y a) 64
    .ok (fork s (.ored fn (readVal y c) (readVal y a) (readVal y b)) none (readVal y a))

/-- oredFadd (R336). -/
def execOredFadd (c a b : BitVec 7) (s : State) : Host.Outcome State Fault Refusal := oredWord (.oredFadd c a b) 0 c a b s

/-- oredFadds (R336). -/
def execOredFadds (c a b : BitVec 7) (s : State) : Host.Outcome State Fault Refusal := oredWord (.oredFadds c a b) 1 c a b s

/-- oredAdd (R336). -/
def execOredAdd (c a b : BitVec 7) (s : State) : Host.Outcome State Fault Refusal := oredWord (.oredAdd c a b) 2 c a b s

/-- oredFmax (R336). -/
def execOredFmax (c a b : BitVec 7) (s : State) : Host.Outcome State Fault Refusal := oredWord (.oredFmax c a b) 3 c a b s

/-- oredFmin (R336). -/
def execOredFmin (c a b : BitVec 7) (s : State) : Host.Outcome State Fault Refusal := oredWord (.oredFmin c a b) 4 c a b s

end Sys2Proof.Machine
end

