-- ==== Sys2Proof/Machine/Stream.lean ====
section
/-!
DEFINITION. Time and joins (R99 to R103), stream commands (R106 to R111) and configuration loads (R112 to R114): majors
0x29 and 0x2A.
-/

namespace Sys2Proof.Machine

open Sys2Proof

/-! ## Time and joins -/

/-- RDTB (R100). -/
def execRdtb (a : BitVec 7) (s : State) : Host.Outcome State Fault Refusal :=
  cword (.rdtb a) s fun s => .ok (modMe s fun x => writeVal x a (BitVec.ofNat 64 (tbOf s (dieOf s.cur))))

/-- YIELD (R100): the context is marked, and nothing else changes. -/
def execYield (s : State) : Host.Outcome State Fault Refusal := regWord .yield s fun x => { x with yielded := some s.tb }

/-- The promised copies of a unit whose promise lies at or before a time (R101). -/
def promisedBy (s : State) (u t : Nat) : Map Engine :=
  s.engines.filter fun e => e.2.ofUnit s u && e.2.promise.any fun p => decide (p ≤ t)

/-- The earliest of engine operations by promise. -/
def earliest : Map Engine → Option Engine
  | [] => none
  | e :: l =>
    match earliest l with
    | none => some e.2
    | some f => if e.2.promise.getD 0 ≤ f.promise.getD 0 then some e.2 else some f

/-- The end of a sleep at time t (R101): a missed promise raises cause 0x0A, a copy reported before is waited for, and
otherwise the promised copies are joined. -/
def sleepEnd (t : Nat) (s : State) : Except Stop State :=
  let u := s.cur
  let cs := promisedBy s u t
  let missed := cs.filter fun e => !e.2.complete && !e.2.reported
  match earliest missed with
  | some e =>
    let reported := s.engines.map fun x => if missed.any fun m => m.1 = x.1 then (x.1, { x.2 with reported := true }) else x
    .error (.missed { s with engines := reported } (BitVec.ofNat 64 (e.promise.getD 0)))
  | none =>
    match earliest (cs.filter fun e => !e.2.complete) with
    | some e =>
      let n := match (me s).wait with
        | some w => if w.kind = .promise then w.count else 0
        | none => 0
      .error (.wait s { kind := .promise, value := e.dest, aux := t, count := n })
    | none => .ok (joinIf s u fun e => e.promise.any fun p => decide (p ≤ t))

/-- SLEEPU (R101): the sleep ends at the wake time, or when a watch has fired (`aux` of the wait); the wait for reported
copies keeps the time at which the sleep ended. -/
def execSleepu (a : BitVec 7) (s : State) : Host.Outcome State Fault Refusal :=
  cword (.sleepu a) s fun s =>
    let x := me s
    let now := tbOf s (dieOf s.cur)
    let v := readVal x a
    match x.wait with
    | some w =>
      if w.kind = .promise then sleepEnd w.aux s
      else if v.toNat ≤ now ∨ w.aux = 1 then sleepEnd now s else .error (.wait s w)
    | none => if v.toNat ≤ now then sleepEnd now s else .error (.wait s { kind := .sleep, value := v })

/-- FJOIN (R102). -/
def execFjoin (s : State) : Host.Outcome State Fault Refusal := cword .fjoin s joinAll

/-- DONE (R103): the unit drains, and its watches are disarmed. -/
def execDone (s : State) : Host.Outcome State Fault Refusal :=
  regWord .done s fun x => { x with st := .draining, watches := Vector.replicate 8 none }

/-! ## Stream commands (R106 to R110) -/

/-- Whether an element can take STRM.GO: a source, but for EMIT in TOK mode (R106, R227). -/
def canGo (w : BitVec 32) : Bool := eSource w && !(decide (eopOf w = 0x80) && decide (w.extractLsb' 0 2 = 0#2))

/-- A command appended to an element's queue of eight entries (R107). -/
def pushCommand (s : State) (u e : Nat) (c : Command) : Except Stop State :=
  let x := elemAt s u e
  if x.cmds.length < 8 then .ok (setElem s u e { x with cmds := x.cmds ++ [c] }) else .error .hold

/-- A stream as its fork takes it (R109). -/
def newStream (x : UnitRegs) (count : Nat) (rank : BitVec 2) : Stream :=
  { count := count, rank := rank, roundsz := x.csr.roundsz.toNat, scopedef := x.csr.scopedef.toNat, handles := x.th }

/-- The handles that a stream takes at its fork, kept by its element (R109). -/
def keepHandles (s : State) (u e : Nat) : State :=
  let x := elemAt s u e
  setElem s u e { x with copies := x.copies ++ [(unitAt s u).th] }

/-- STRM.GO (R109): imm6<5> is the end rank, 1 or 2. -/
def execStrmGo (a : BitVec 7) (r : BitVec 1) (e : BitVec 5) (s : State) : Host.Outcome State Fault Refusal :=
  cword (.strmGo a r e) s fun s => do
    let x := me s
    let u := s.cur
    need' (canGo (ewordAt s u e.toNat)) (badOperand (.strmGo a r e))
    need' (decide ((elemAt s u e.toNat).cmds.length < 8)) .hold
    pushCommand (keepHandles (forkStream s u) u e.toNat) u e.toNat
      (.go (newStream x (readVal x a).toNat (if r = 1#1 then 2#2 else 1#2)))

/-- STRM.ARG (R108). -/
def execStrmArg (a : BitVec 7) (r : BitVec 1) (e : BitVec 5) (s : State) : Host.Outcome State Fault Refusal :=
  cword (.strmArg a r e) s fun s => do
    need' (decide (ewordAt s s.cur e.toNat ≠ 0#32)) (badOperand (.strmArg a r e))
    pushCommand s s.cur e.toNat (.arg (readVal (me s) a) (r == 1#1))

/-- Whether a TOK stream of an element is over or has none yet: the next STRM.TOK is a fork (R227). -/
def tokFresh (x : Elem) : Bool :=
  match (x.cmds.filter Command.runs).getLast? with
  | some (.tok _ (some k) _) => decide (1 ≤ k.toNat)
  | some _ => false
  | none => x.stream.isNone

/-- STRM.TOK (R110): a kind above 4, and any kind for an EMIT that is not in TOK mode, queues nothing (R227). -/
def execStrmTok (a b : BitVec 7) (e : BitVec 5) (s : State) : Host.Outcome State Fault Refusal :=
  cword (.strmTok a b e) s fun s => do
    let x := me s
    let u := s.cur
    let w := ewordAt s u e.toNat
    let k := (readVal x b).toNat
    need' (decide (eopOf w = 0x80)) (badOperand (.strmTok a b e))
    if k > 4 ∨ w.extractLsb' 0 2 ≠ 0#2 then .ok (putStatus s false)
    else do
      need' (decide ((elemAt s u e.toNat).cmds.length < 8)) .hold
      let eos : Option (BitVec 2) := if k = 0 then none else some (BitVec.ofNat 2 (k - 1))
      let fresh := tokFresh (elemAt s u e.toNat)
      let s1 := if fresh then keepHandles (forkStream s u) u e.toNat else s
      let s2 ← pushCommand s1 u e.toNat (.tok (readVal x a) eos (if fresh then some (newStream x 0 1#2) else none))
      .ok (putStatus s2 true)

/-- The EOSs of a rank or higher that a sink has passed, each with the round that it still waits for (R111). -/
def sinkEoss (x : Elem) (r : Nat) : List (Nat × Option Nat) := x.passed.filter fun p => decide (r ≤ p.1)

/-- The condition of DRAIN r (R111). -/
def drained (s : State) (u r d : Nat) : Bool :=
  (activeElems s [u]).all fun e => !eSink e.2.2 ||
    (match (sinkEoss (elemAt s u e.2.1) r)[d]? with
     | some p => p.2.isNone
     | none => false)

/-- The count of a wait that goes on, or 0 for one that begins. -/
def waitCount (x : UnitRegs) : Nat := (x.wait.map (·.count)).getD 0

/-- A count of completed DRAINs advanced (R111). -/
def countDrain (x : UnitRegs) (r : BitVec 2) : UnitRegs :=
  { x with drains := x.drains.set r.toNat (x.drains[r.toNat]'r.isLt + 1) r.isLt }

/-- DRAIN (R111). -/
def execDrain (r : BitVec 6) (s : State) : Host.Outcome State Fault Refusal :=
  cword (.drain r) s fun s =>
    let x := me s
    let k : BitVec 2 := r.setWidth 2
    if drained s s.cur k.toNat (x.drains[k.toNat]'k.isLt) then
      .ok (modMe s fun x => countDrain { x with pts := max x.pts (seriesAt s (seriesOf s s.cur)).pts } k)
    else .error (.wait s { kind := .drain, value := r.setWidth 64, count := waitCount x })

/-! ## Configuration loads (R112 to R114) -/

/-- The S-words of a bank with the routes to some outputs replaced by those of pending words. -/
def mergeRoutes (old new : List (BitVec 16)) (outs : List Nat) : List (BitVec 16) :=
  (old.filter fun w => !outs.contains (fSo w).toNat) ++ new.filter fun w => outs.contains (fSo w).toNat

/-- An element's pending word put in force: its ESR is reset (R112, R174). -/
def takeElemWord (b : Bank) (p : Words) (e : Nat) : Bank :=
  { b with words := { b.words with
      ewords := mput b.words.ewords e (mget p.ewords e)
      wwords := mput b.words.wwords e (mget p.wwords e) } }

/-- Pending words put into a bank: elements that are idle in the old words and routes to outputs that the old words do not
use take over at once (R112). -/
def loadPending (b : Bank) (p : Words) : Bank :=
  let idle := (List.range 24).filter fun e => decide ((mget b.words.ewords e).getD 0#32 = 0#32)
  let busy := (List.range 24).filter fun e => decide ((mget b.words.ewords e).getD 0#32 ≠ 0#32)
  let used := b.words.swords.map fun w => (fSo w).toNat
  let free := (List.range 16).filter fun o => !used.contains o
  let b1 := idle.foldl (fun b e => takeElemWord b p e) b
  let b2 := { b1 with words := { b1.words with swords := mergeRoutes b1.words.swords p.swords free } }
  { b2 with pending := if busy.isEmpty && used.isEmpty then none else some p, oldElems := busy, oldOuts := used.eraseDups }

/-- The ESRs of elements that take over at once, reset (R174). -/
def resetIdleEsr (s : State) (u : Nat) (p : Words) : State :=
  p.ewords.foldl (fun s w =>
    if ewordAt s u w.1 = 0#32 then setElem s u w.1 { elemAt s u w.1 with esr := 0#64 } else s) s

/-- The relative place and the page set's size in tiles of a unit's launch; a unit without a launch stands at (0, 0). -/
def relPlace (s : State) (u : Nat) : Nat × Nat × Nat × Nat :=
  match launchOf s u with
  | some l => (gridX (tileOf u) - originX l, gridY (tileOf u) - originY l, 4 * l.width, 4 * l.height)
  | none => (0, 0, 4, 4)

/-- The segment at an address, checked for CFGLD (R112): its place is the issuer's own, and it has no unit. -/
def checkSegment (s : State) (b : List Byte) : Except Nat Segment :=
  let r := relPlace s s.cur
  (readSegment b 0 r.2.2.1 r.2.2.2 0 fun dx dy ctx =>
    decide (dx = r.1 ∧ dy = r.2.1 ∧ ctx = imageCtx s s.cur)).map Prod.fst

/-- CFGLD (R112). -/
def execCfgld (a : BitVec 7) (s : State) : Host.Outcome State Fault Refusal :=
  cword (.cfgld a) s fun s => do
    let x := me s
    let va := readVal x a
    let (r, s1) ← address s .read va 4
    let b := readImageBytes s1 (requester s1 s1.cur) va 162
    match checkSegment s1 b with
    | .error o =>
      if b.length < 162 ∧ b.length ≤ o + 4 then do
        let _ ← xlateC s1 .read (va + BitVec.ofNat 64 b.length)
        .error (.trap 8#8 0#8 (BitVec.ofNat 64 o))
      else .error (.trap 8#8 0#8 (BitVec.ofNat 64 o))
    | .ok g =>
      let bk := bankAt s1 s1.cur
      if bk.pending.isSome then .error (.wait s1 { kind := .cfgld, value := va, count := waitCount x })
      else do
        let (_, s2) ← readC s1 r (min 64 (4096 - r.pa % 4096)) none va
        .ok (setBank (resetIdleEsr s2 s2.cur g.words) s2.cur (loadPending bk g.words))

/-- CFGQ (R114). -/
def execCfgq (a : BitVec 7) (s : State) : Host.Outcome State Fault Refusal :=
  cword (.cfgq a) s fun s =>
    let b := bankAt s s.cur
    let p := b.pending.isSome
    .ok (modMe s fun x => writeVal x a (BitVec.ofNat 64
      ((if p then 3 else 0) + 256 * b.oldElems.length + 8192 * b.oldOuts.length)))

end Sys2Proof.Machine
end

