-- ==== Sys2Proof/Machine/Counter.lean ====
section
/-!
DEFINITION. Copies (R115 to R119), completion counters (R120, R121) and tensor handles (R122, R123): majors 0x2B to 0x2D.
-/

namespace Sys2Proof.Machine

open Sys2Proof

/-! ## Copies (R115 to R117, R119) -/

/-- The table of L, by the place of the destination (R117). -/
def pathCycles (t a : Nat) : Nat :=
  let links := (linkPath (dieOfTile t) (dieOfTile (homeOf a).1)).length
  if paClass a = 0 then 250 + 28 * links
  else if links ≠ 0 then 40 + 28 * links
  else
    match climb t a with
    | 0 => 3 | 1 => 8 | 2 => 14 | 3 => 22 | 4 => 30 | _ => 40

/-- Whether a source range lies in the issuing tile's owned scratchpad range, by its address alone (R115 limit 2). -/
def sourceOk (s : State) (u : Nat) (va : Word) (len : Nat) : Bool :=
  match launchOf s u with
  | none => false
  | some l =>
    inWindow va &&
    match windowXlate (some l) (tileOf u) .read va with
    | .ok x => decide (spadTile x.pa = tileOf u) && decide (x.pa % 2 ^ 18 + len ≤ 65536 * (l.base + l.nctx))
    | .error _ => false

/-- The reduction rules on k2 of SENDR (R119). -/
def mergeOk (k2 : Word) : Bool :=
  let n := field k2 63 48
  let c := field k2 47 32
  decide (1 ≤ n) && decide (c < n) && decide (field k2 31 4 = 0) && decide (field k2 3 0 ≤ 8)

/-- SEND and SENDR (R115 to R117): the checks in their order, then the fork, and the promised time written to d.
DEDUCED (log entry 23). -/
def sendWord (i : Instr) (d a b : BitVec 7) (merge : Bool) (s : State) : Host.Outcome State Fault Refusal :=
  cword i s fun s => do
    let x := me s
    let src := readVal x a
    let dst := readVal x b
    let len := regK0 x
    let ctr := regK1 x
    need' (canonical src) (.trap 5#8 0#8 src)
    need' (canonical dst) (.trap 5#8 0#8 dst)
    need' (canonical ctr) (.trap 5#8 0#8 ctr)
    checkAddr src 8
    checkAddr dst 8
    checkAddr ctr 8
    need' (decide (len.toNat % 8 = 0)) (.trap 4#8 8#8 len)
    need' (sourceOk s s.cur src len.toNat) (.trap 7#8 1#8 src)
    need' (!merge || inWindow dst) (.trap 7#8 2#8 dst)
    need' (!merge || mergeOk (regK2 x)) (badOperand i)
    let (r, s1) ← xlateC s .write dst
    let (_, s2) ← if len.toNat = 0 then .ok (r, s1) else xlateC s1 .write (dst + (len - 1#64))
    let (_, s3) ← if ctr = 0#64 then .ok (r, s2) else xlateC s2 .atomic ctr
    let promise := tbOf s (dieOf s.cur) + pathCycles (tileOf s.cur) r.pa + (len.toNat + 63) / 64
    let k2 := regK2 x
    let kind : EngineKind :=
      if merge then .merge src.toNat dst.toNat len.toNat ctr (field k2 63 48) (field k2 47 32) (field k2 3 0)
      else .copy src.toNat dst.toNat len.toNat ctr
    .ok (modMe (fork s3 kind (some promise) dst) fun y => writeVal y d (BitVec.ofNat 64 promise))

/-- SEND (R115). -/
def execSend (d a b : BitVec 7) (s : State) : Host.Outcome State Fault Refusal := sendWord (.send d a b) d a b false s

/-- SENDR (R119). -/
def execSendr (d a b : BitVec 7) (s : State) : Host.Outcome State Fault Refusal := sendWord (.sendr d a b) d a b true s

/-! ## Counters (R120, R121) -/

/-- CTRADD (R120): every fork is joined, and then the counter grows, up to its greatest value. Its check is that of an
atomic access. DEDUCED (log entry 23). -/
def execCtradd (a b : BitVec 7) (s : State) : Host.Outcome State Fault Refusal :=
  cword (.ctradd a b) s fun s => do
    let va := readVal (me s) a
    let inc := (readVal (me s) b).toNat
    let (x, s1) ← address s .atomic va 8
    need' (!isRegion x.pa) (.trap 7#8 3#8 va)
    let s2 ← joinAll s1
    need' (poisonedIn s2.mem x.pa 8).isNone (.poison va)
    writeC { s2 with mem := correct s2.mem x.pa 8 } x (toBytes 8 (min (rdNum s2.mem x.pa 8 + inc) (2 ^ 64 - 1))) none va

/-- An observation of a counter that has reached its target (R120): an acquire, which joins the copies that counted. -/
def observed (s : State) (x : XOk) (va : Word) : Except Stop State := do
  let (_, s1) ← readC s x 8 none va
  .ok (joinCounter s1 s1.cur x.pa)

/-- CTRWAIT (R120). -/
def execCtrwait (a b : BitVec 7) (s : State) : Host.Outcome State Fault Refusal :=
  cword (.ctrwait a b) s fun s => do
    let y := me s
    let va := readVal y a
    let (x, s1) ← address s .read va 8
    need' (poisonedIn s1.mem x.pa 8).isNone (.poison va)
    if (readVal y b).toNat ≤ readAt s1 x.pa 8 then observed s1 x va
    else .error (.wait s1 { kind := .counter, value := va, count := waitCount y })

/-- CTRRD (R120). -/
def execCtrrd (a b : BitVec 7) (s : State) : Host.Outcome State Fault Refusal :=
  cword (.ctrrd a b) s fun s => do
    let va := readVal (me s) b
    let (x, s1) ← address s .read va 8
    let (v, s2) ← readC s1 x 8 none va
    .ok (modMe s2 fun y => writeVal y a (BitVec.ofNat 64 (ofBytes v)))

/-- CTRWAIT.NB (R120). -/
def execCtrwaitNb (a b : BitVec 7) (s : State) : Host.Outcome State Fault Refusal :=
  cword (.ctrwaitNb a b) s fun s => do
    let y := me s
    let va := readVal y a
    let (x, s1) ← address s .read va 8
    let (v, s2) ← readC s1 x 8 none va
    let ok := decide ((readVal y b).toNat ≤ ofBytes v)
    .ok (modMe (if ok then joinCounter s2 s2.cur x.pa else s2) fun z => writeP7 z ok)

/-- A watch put in place, and its predicate cleared (R121). -/
def armWatch (x : UnitRegs) (n : BitVec 3) (w : Watch) : UnitRegs :=
  let y := putPred x n false
  { y with watches := y.watches.set n.toNat (some w) n.isLt }

/-- CTRWATCH (R121): the watch is armed, and fires at once where the counter has reached its target. -/
def execCtrwatch (a b : BitVec 7) (n : BitVec 6) (s : State) : Host.Outcome State Fault Refusal :=
  cword (.ctrwatch a b n) s fun s => do
    let y := me s
    let va := readVal y a
    let k : BitVec 3 := n.setWidth 3
    let (x, s1) ← address s .read va 8
    let (v, s2) ← readC s1 x 8 none va
    let s3 := modMe s2 fun z => armWatch z k { addr := va, target := readVal y b }
    if (readVal y b).toNat ≤ ofBytes v then .ok (modMe (joinCounter s3 s3.cur x.pa) fun z => putPred z k true) else .ok s3

/-! ## Tensor handles (R122, R123) -/

/-- Bytes of an element of a format and integer type (R27, R122). -/
def elemBytes (fmt ityp : Nat) : Nat :=
  match fmt with
  | 0 => 8 | 1 => 4 | 2 => 2 | 3 => 2 | 4 => 1 | 5 => 1 | 6 => 1
  | _ => match ityp % 4 with | 0 => 2 | 1 => 4 | _ => 8

/-- Word w of a handle. -/
def hword (h : Handle) (w : Nat) : Word := h.toList.getD w 0#64

/-- Levels of a handle. -/
def hLevels (h : Handle) : Nat := field (hword h 0) 7 6 + 1
/-- Element size of a handle in bytes. -/
def hBytes (h : Handle) : Nat := elemBytes (field (hword h 0) 2 0) (field (hword h 0) 5 3)
/-- Whether a handle is in use. -/
def hValid (h : Handle) : Bool := bitOf (hword h 0) 8

/-- The rules of R122 on level i of a handle. -/
def levelOk (h : Handle) (i : Nat) : Bool :=
  let w := hword h (2 + 3 * i)
  let p1 := hword h (3 + 3 * i)
  let p2 := hword h (4 + 3 * i)
  let f := field w 25 24
  decide (field w 31 26 = 0) && decide (1 ≤ field w 23 0) && (decide (f = 0) || decide (field w 63 32 = 0)) &&
  canonical p1 && canonical p2 &&
  match f with
  | 0 => decide (p1 = 0#64) && decide (p2 = 0#64)
  | 1 => decide (p1.toNat % 8 = 0) && decide (p2 = 0#64)
  | 2 => decide (p1.toNat % 4 = 0) && decide (p2.toNat % 4 = 0)
  | _ => decide (p1.toNat % 4 = 0) && decide (p2 = 0#64)

/-- A well-formed handle (R122): one of type none is zero throughout. DEDUCED (log entry 20). -/
def handleOk (h : Handle) : Bool :=
  let w0 := hword h 0
  let f := field w0 2 0
  if !hValid h then h.toList.all fun w => decide (w = 0#64)
  else
    decide (field w0 63 9 = 0) && intTypeOk f (BitVec.ofNat 4 (2 * field w0 5 3)) &&
    (decide (6 ≤ f) || decide (field w0 5 3 = 0)) &&
    canonical (hword h 1) && decide ((hword h 1).toNat % hBytes h = 0) &&
    ((List.range 4).all fun i =>
      if i < hLevels h then levelOk h i
      else decide (hword h (2 + 3 * i) = 0#64) && decide (hword h (3 + 3 * i) = 0#64) && decide (hword h (4 + 3 * i) = 0#64)) &&
    decide (hword h 14 = 0#64) && decide (hword h 15 = 0#64)

/-- A handle of type none. -/
def handleNone : Handle := Vector.replicate 16 0#64

/-- A handle from its 128 bytes. -/
def handleOf (b : List Byte) : Handle := Vector.ofFn fun (i : Fin 16) => BitVec.ofNat 64 (numAt b (8 * i.val) 8)

/-- The 128 bytes of a handle. -/
def handleBytes (h : Handle) : List Byte := h.toList.flatMap fun w => toBytes 8 w.toNat

/-- The two halves of a handle's 128 bytes at an address aligned to 64, translated each: the second may lie in another page.
No window holds a handle (R263). DEDUCED (log entry 21). -/
def handleAt (s : State) (k : Access) (va : Word) : Except Stop (XOk × XOk × State) := do
  let (x, s1) ← address s k va 64
  let (y, s2) ← xlateC s1 k (va + 127#64)
  regionSize x 128 va
  regionSize y 128 va
  .ok (x, { y with pa := y.pa - 63 }, s2)

/-- THLD (R123). -/
def execThld (h b : BitVec 7) (s : State) : Host.Outcome State Fault Refusal :=
  cword (.thld h b) s fun s => do
    let va := readVal (me s) b
    let (x, y, s1) ← handleAt s .read va
    needClean s1 x.pa 64 va
    needClean s1 y.pa 64 (va + 64#64)
    let d := handleOf (rdBytes s1.mem x.pa 64 ++ rdBytes s1.mem y.pa 64)
    let ok := handleOk d
    let s2 := putEvent s1 x.pa none va (readEvent2 s1.mem x.pa y.pa 64 (tileOf s1.cur) s1.tb (x.sa || y.sa) (me s1).pts)
    .ok (modMe s2 fun y => writeP7 (writeHandle y h (if ok then d else handleNone)) ok)

/-- THST (R123). -/
def execThst (h b : BitVec 7) (s : State) : Host.Outcome State Fault Refusal :=
  cword (.thst h b) s fun s => do
    let va := readVal (me s) b
    let (x, y, s1) ← handleAt s .write va
    let bs := handleBytes (readHandle (me s) h)
    need' (!pinnedRange s1 none x.pa 64 && !pinnedRange s1 none y.pa 64) .hold
    .ok (putEvent s1 x.pa none va
      (writeEvent2 s1.mem x.pa y.pa (bs.take 64) (bs.drop 64) (tileOf s1.cur) s1.tb (x.sa || y.sa) (me s1).pts))

/-- THSET (R123). -/
def execThset (h b : BitVec 7) (w : BitVec 6) (s : State) : Host.Outcome State Fault Refusal :=
  regWord (.thset h b w) s fun x =>
    writeHandle x h (Vector.ofFn fun (i : Fin 16) => if i.val = w.toNat then readVal x b else hword (readHandle x h) i.val)

/-- THGET (R123). -/
def execThget (a h : BitVec 7) (w : BitVec 6) (s : State) : Host.Outcome State Fault Refusal :=
  regWord (.thget a h w) s fun x => writeVal x a (hword (readHandle x h) w.toNat)

/-- THCHK (R123). -/
def execThchk (h : BitVec 7) (s : State) : Host.Outcome State Fault Refusal :=
  regWord (.thchk h) s fun x => writeP7 x (handleOk (readHandle x h))

end Sys2Proof.Machine
end

