-- ==== Sys2Proof/Machine/Link.lean ====
section
/-!
DEFINITION. Lane groups, multicast and endpoints (R361 to R365, R380 to R386): major 0x33.
-/

namespace Sys2Proof.Machine

open Sys2Proof

/-! ## Links (R361 to R363) -/

/-- A link's state. -/
def linkAt (s : State) (k : Nat) : Link := s.links.toList.getD k {}
/-- A link's state written; a number that is no link changes nothing. -/
def setLink (s : State) (k : Nat) (x : Link) : State := if h : k < 4 then { s with links := s.links.set k x h } else s

/-- A direction map with one group's direction set. -/
def setDir (m : BitVec 16) (g : Nat) (toL : Bool) : BitVec 16 :=
  if toL then m ||| BitVec.ofNat 16 (2 ^ g) else m &&& ~~~BitVec.ofNat 16 (2 ^ g)

/-- The projected map: DIR with every queued entry applied (R363). -/
def Link.projected (x : Link) : BitVec 16 := x.queue.foldl (fun m t => setDir m t.group t.toL) x.dir

/-- How many groups of a map carry H→L. -/
def countToL (m : BitVec 16) : Nat := popN 16 m.toNat

/-- Whether a map keeps floors. -/
def keepsFloors (m : BitVec 16) (floorL floorH : Nat) : Bool :=
  decide (floorL ≤ 16 - countToL m) && decide (floorH ≤ countToL m)

/-- The die of a link's end L (R360). -/
def endL (k : Nat) : Nat := match k with | 0 => 0 | 1 => 2 | 2 => 0 | _ => 1

/-- The checks of R363 in their order: the status of a request that reaches end L at a time. -/
def turnStatus (x : Link) (allowed : Bool) (g : Nat) (toL : Bool) (tb : Nat) : Nat :=
  let m := x.projected
  if !allowed then 4
  else if bitOf m g = toL then 1
  else if (x.queue.any fun t => decide (t.group = g)) || decide (tb < x.lastt.toList.getD g 0 + 2048) then 3
  else if !keepsFloors (setDir m g toL) x.floorL x.floorH then 2
  else if x.queue.length ≥ 16 then 5
  else 0

/-- A request at end L: its status, and the link with the entry queued where it is accepted. -/
def requestTurn (s : State) (k job g : Nat) (toL : Bool) : Nat × State :=
  let x := linkAt s k
  let allowed := decide (job = 0) || bitOf (policyOf s job).lanes g
  let st := turnStatus x allowed g toL (tbOf s (endL k))
  (st, if st = 0 then setLink s k { x with queue := x.queue ++ [{ group := g, toL := toL }] } else s)

/-- LTURN (R381). -/
def execLturn (a b : BitVec 7) (l : BitVec 2) (g : BitVec 4) (s : State) : Host.Outcome State Fault Refusal :=
  cword (.lturn a b l g) s fun s =>
    let v := readVal (me s) b
    if field v 63 1 ≠ 0 then .ok (putResult s a 6#64 false)
    else
      let r := requestTurn s l.toNat (me s).csr.jobid.toNat g.toNat (bitOf v 0)
      .ok (putResult r.2 a (BitVec.ofNat 64 r.1) (decide (r.1 ≤ 1)))

/-- LQRY (R382). -/
def execLqry (a b : BitVec 7) (z : BitVec 1) (l : BitVec 2) (s : State) : Host.Outcome State Fault Refusal :=
  cword (.lqry a b z l) s fun s =>
    let x := linkAt s l.toNat
    let d := if z = 1#1 then x.lastt.toList.getD ((readVal (me s) b).toNat % 16) 0
      else x.dir.toNat + x.turn.toNat * 2 ^ 16 + x.floorL * 2 ^ 32 + x.floorH * 2 ^ 36 + x.queue.length * 2 ^ 40
    .ok (modMe s fun y => writeVal y a (BitVec.ofNat 64 d))

/-- LFLOOR (R383). -/
def execLfloor (a b : BitVec 7) (l : BitVec 2) (s : State) : Host.Outcome State Fault Refusal :=
  cword (.lfloor a b l) s fun s =>
    let v := readVal (me s) b
    let x := linkAt s l.toNat
    let fl := field v 3 0
    let fh := field v 7 4
    if field v 63 8 ≠ 0 ∨ fl > 8 ∨ fh > 8 then .ok (putResult s a 6#64 false)
    else if !keepsFloors x.dir fl fh || !keepsFloors x.projected fl fh then .ok (putResult s a 2#64 false)
    else .ok (putResult (setLink s l.toNat { x with floorL := fl, floorH := fh }) a 0#64 true)

/-! ## Multicast store (R303, R384) -/

/-- The replicas that a mask names, in ascending i. -/
def replicas (m : BitVec 4) : List Nat := (List.range 4).filter fun i => m.getLsbD i

/-- The replica addresses checked in ascending i (R384). -/
def xlateReplicas (s : State) (a k2 : Word) : List Nat → Except Stop (List (Word × XOk) × State)
  | [] => .ok ([], s)
  | i :: l => do
    let va := a + BitVec.ofNat 64 i * k2
    let (x, s1) ← address s .write va 8
    let (xs, s2) ← xlateReplicas s1 a k2 l
    .ok ((va, x) :: xs, s2)

/-- The first pair of replicas in one line: the higher of the two addresses. DEDUCED (log entry 28). -/
def sameLine : List (Word × XOk) → Option Word
  | [] => none
  | x :: l =>
    match l.find? fun y => decide (lineOf y.2.pa = lineOf x.2.pa) with
    | some y => some (if x.1.toNat < y.1.toNat then y.1 else x.1)
    | none => sameLine l

/-- One value written to replicas at one time (R303): custody is recalled to the homes, and every line takes that time. -/
def multicast (m : Memory) (pts : Nat) (v : Word) (xs : List XOk) : Memory × Nat :=
  let p := xs.foldl (fun p x => max p ((getLine m (lineOf x.pa)).rts + 1)) pts
  (xs.foldl (fun m x =>
    let ln := getLine m (lineOf x.pa)
    let m1 := setLine m (lineOf x.pa) { ln with cust := .home, byRecall := false, served := [], wts := p, rts := p, leases := [],
                                                stores := p :: ln.stores }
    clearPoison (wrNum m1 x.pa 8 v.toNat) x.pa 8) m, p)

/-- MCST (R384). -/
def execMcst (a b : BitVec 7) (m : BitVec 4) (s : State) : Host.Outcome State Fault Refusal :=
  cword (.mcst a b m) s fun s => do
    let x := me s
    let (xs, s1) ← xlateReplicas s (readVal x a) (regK2 x) (replicas m)
    match sameLine xs with
    | some va => .error (.trap 4#8 64#8 va)
    | none => do
      need' (!(xs.any fun y => pinnedRange s1 none y.2.pa 8)) .hold
      let (win, mem) := xs.partition fun y => isRegion y.2.pa
      let r := multicast s1.mem x.pts (readVal x b) (mem.map Prod.snd)
      let s2 := modMe { s1 with mem := r.1 } fun y => { y with pts := r.2 }
      let s3 := mem.foldl (fun s y => sendPacket s s.cur y.2.pa) s2
      unlessRetired (win.foldl (fun s y => regionStore s (windowPage y.2.pa) (y.2.pa % 4096) (readVal x b) r.2) s3)

/-! ## Endpoints (R371 to R373, R385, R386) -/

/-- An endpoint's state. -/
def endpointAt (s : State) (e : Nat) : Endpoint := s.endpoints.toList.getD e {}
/-- An endpoint's state written. -/
def setEndpoint (s : State) (e : Nat) (x : Endpoint) : State :=
  if h : e < 32 then { s with endpoints := s.endpoints.set e x h } else s

/-- EPBIND (R385). -/
def execEpbind (a : BitVec 7) (e : BitVec 5) (s : State) : Host.Outcome State Fault Refusal :=
  cword (.epbind a e) s fun s => do
    let va := readVal (me s) a
    let (x, s1) ← address s .read va 32
    let (b, s2) ← readSeq 4 s1 x va
    let job := numAt b 0 2
    let base := numAt b 8 8
    let extent := numAt b 16 8
    let compl := numAt b 24 8
    let p := endpointAt s2 e.toNat
    if !jobLive s2 job || decide (numAt b 2 6 ≠ 0) || decide (base % 64 ≠ 0) || decide (extent % 64 ≠ 0) ||
        decide (extent < 64) || decide (compl % 8 ≠ 0) || p.bound || p.frozen then .ok (putStatus s2 false)
    else
      .ok (putStatus (setEndpoint s2 e.toNat
        { bound := true, job := job, egress := base, extent := extent, compl := compl }) true)

/-- Whether an element with an argument slot 0 names an endpoint: SINK with EGR, or EMIT in ING mode (R226, R227). -/
def namesEndpoint (w : BitVec 32) (arg : Word) (e : Nat) : Bool :=
  ((decide (eopOf w = 0x7F) && w.getLsbD 0) || (decide (eopOf w = 0x80) && decide (w.extractLsb' 0 2 = 2#2))) &&
    decide (arg.toNat % 32 = e)

/-- Whether an element of a bank names an endpoint. -/
def bankNames (b : Bank) (el : Nat → Elem) (e : Nat) : Bool :=
  b.words.ewords.any fun w => namesEndpoint w.2 ((el w.1).work.args[0]) e

/-- Whether a launch that has not retired was loaded from an endpoint or names it; a saved one names it in its snapshot
(R386). -/
def endpointInUse (s : State) (e : Nat) : Bool :=
  (s.launches.any fun l => decide (l.2.endpoint = some e) ||
    l.2.snapshot.any fun r => bankNames r.bank (fun k => (mget r.elems k).getD {}) e) ||
  s.banks.any fun b => b.2.launch.isSome && bankNames b.2 (elemAt s b.1) e

/-- EPUNB (R386). -/
def execEpunb (e : BitVec 5) (s : State) : Host.Outcome State Fault Refusal :=
  cword (.epunb e) s fun s =>
    let p := endpointAt s e.toNat
    if !p.bound || p.frozen || endpointInUse s e.toNat then .ok (putStatus s false)
    else .ok (putStatus (setEndpoint s e.toNat { p with bound := false, isOpen := false, ingress := [] }) true)

end Sys2Proof.Machine
end

