-- ==== Sys2Proof/Machine/Online.lean ====
section
/-!
DEFINITION. Online digit arithmetic (06_online_arithmetic.md) and the operations of the online units ON0 to ON7 (R179 to
R182). An element takes one flit from each of its ports at a time, and emits each flit of its group as soon as the digits
that R146 needs have come.
-/

namespace Sys2Proof.Machine

open Sys2Proof

/-! ## Lanes of a value group (R141 to R145) -/

/-- The slot of lane i in a flit (R143). -/
def slotOf (f : Flit) (i : Nat) : Nat := f.toNat / 16 ^ i % 16
/-- A flit made of 128 slots. -/
def flitOf (l : List Nat) : Flit := BitVec.ofNat 512 (l.foldr (fun x n => x % 16 + 16 * n) 0)
/-- A slot that carries EZ in a member lane (R141, R143). -/
def ezSlot : Nat := 12
/-- The slot of a digit in a member lane. -/
def digitSlot (z : Int) : Nat := 8 + (z % 8).toNat

/-- One lane of an operand: its exponent, whether it is a NaN lane and a member, its digits before EZ, and the position at
which it has reached EZ or the end of its group. -/
structure OLane where
  e    : Int
  nan  : Bool
  mem  : Bool
  ds   : List Int
  stop : Option Nat

/-- The digits of a lane up to its first EZ, with the position of that EZ (R141, R143). -/
def digitsFrom : Nat → List Nat → List Int × Option Nat
  | _, [] => ([], none)
  | pos, s :: l =>
    if s < 8 ∨ s % 8 = 4 then ([], some pos)
    else
      let r := digitsFrom (pos + 1) l
      (intOf 3 false (s % 8) :: r.1, r.2)

/-- Lane i of an operand whose flits have come so far; `done` says that its group has ended (R144, R145). -/
def laneOf (ts : List Token) (done : Bool) (cap i : Nat) : OLane :=
  let hs := ts.take 3
  let dg := ts.drop 3
  let e := intOf 12 false ((hs.zip (List.range 3)).foldl (fun n h => n + slotOf h.1.data i * 16 ^ h.2) 0)
  let nan := decide (e = -2048)
  let mem := (dg.head?).any fun t => decide (8 ≤ slotOf t.data i)
  let r := digitsFrom 1 ((dg.take cap).map fun t => slotOf t.data i)
  if nan then { e := e, nan := nan, mem := mem, ds := [], stop := some 1 }
  else
    { e := e, nan := nan, mem := mem, ds := r.1,
      stop := match r.2 with
        | some p => some p
        | none => if done then some dg.length else none }

/-- The prefix of k digits of a value, in units of 4^-k (R142). -/
def prefixOf (ds : List Int) (k : Nat) : Int := (List.range k).foldl (fun a i => 4 * a + ds.getD i 0) 0

/-! ## Targets (R146, R147) -/

/-- A target: a rational, the square root of one, or 2^(y / 2^t). -/
inductive Target where
  | rat (p : Int) (q : Nat)
  | root (p q : Nat)
  | exp2 (y : Int) (t : Nat)

/-- Lower bounds of 2^(2^-i) for i = 1 to n, in units of 2^-p; each is less than two units below. -/
def halfPowers (p : Nat) : Nat → Nat → List Nat
  | 0, _ => []
  | n + 1, c => let d := isqrt (c * 2 ^ p); d :: halfPowers p n d

/-- Bounds of 2^(f / 2^t) in units of 2^-p, where 0 ≤ f < 2^t. DEDUCED (log entry 40). -/
def exp2Frac (p t f : Nat) : Nat × Nat :=
  ((halfPowers p t (2 * 2 ^ p)).zip (List.range t)).foldl
    (fun (a : Nat × Nat) c =>
      if f / 2 ^ (t - 1 - c.2) % 2 = 1 then (a.1 * c.1 / 2 ^ p, a.2 * (c.1 + 2) / 2 ^ p + 1) else a)
    (2 ^ p, 2 ^ p)

/-- The floor of 2^(k + f / 2^t), by bounds that are made tighter until they agree. -/
def exp2Floor (k t f : Nat) : Nat → Nat → Nat
  | 0, p => (exp2Frac p t f).1 * 2 ^ k / 2 ^ p
  | n + 1, p =>
    let b := exp2Frac p t f
    if b.1 * 2 ^ k / 2 ^ p = b.2 * 2 ^ k / 2 ^ p then b.1 * 2 ^ k / 2 ^ p else exp2Floor k t f n (2 * p)

/-- The floor of 16 × 4^j × T. -/
def Target.floor16 (x : Target) (j : Nat) : Int :=
  match x with
  | .rat p q => (p * 4 ^ (j + 2)) / (q : Int)
  | .root p q => (isqrt (p * 4 ^ (2 * j + 4) / q) : Nat)
  | .exp2 y t =>
    let r := y + ((2 * j + 4) * 2 ^ t : Nat)
    if r < 0 then 0
    else
      let k := r.toNat / 2 ^ t
      let f := r.toNat % 2 ^ t
      if f = 0 then (2 ^ k : Nat) else (exp2Floor k t f 6 256 : Nat)

/-- Whether T is z × 4^-(j - 1), for j at least 1. -/
def Target.isAt (x : Target) (j : Nat) (z : Int) : Bool :=
  match x with
  | .rat p q => decide (p * 4 ^ (j - 1) = z * (q : Int))
  | .root p q => decide (0 ≤ z) && decide ((p * 4 ^ (2 * (j - 1)) : Nat) = z * z * (q : Int))
  | .exp2 y t =>
    let r := y + (2 * (j - 1) * 2 ^ t : Nat)
    decide (0 ≤ r) && decide (r.toNat % 2 ^ t = 0) && decide ((2 ^ (r.toNat / 2 ^ t) : Nat) = z)

/-- The digit that R146 selects from the floor of 16 v(j). -/
def selectDigit (f : Int) : Int := clampInt (-3) 3 ((f + 8) / 16)

/-! ## Operations (R147, R150) -/

/-- The operations that emit or compare value groups digit by digit. -/
inductive OnOp where
  | add | sub | mul | fma | div | sqrt | rsqrt | exp2 | scl | neg | abs | cmp | max | relu | thr
deriving DecidableEq, Repr

/-- The online delay (R147, R150, R153). -/
def OnOp.delta : OnOp → Nat
  | .add => 2 | .sub => 2 | .max => 2 | .thr => 2 | .cmp => 2
  | .mul => 3 | .fma => 3 | .div => 4 | .sqrt => 4 | .rsqrt => 4 | .exp2 => 6
  | _ => 0

/-- What R147 and R149 make of a lane: its exponent, or a NaN lane, or EZ from digit 1; the amounts s, q and h; and the
exceptions. -/
structure LaneOut where
  e    : Int
  nan  : Bool := false
  zero : Bool := false
  s    : Int := 0
  q    : Int := 0
  ex   : BitVec 5 := 0#5

/-- A NaN lane with exceptions. -/
def nanLane (ex : BitVec 5) : LaneOut := { e := -2048, nan := true, ex := ex }

/-- Operand n of a lane. -/
def opnd (ls : List OLane) (n : Nat) : OLane := ls.getD n { e := 0, nan := false, mem := false, ds := [], stop := some 1 }

/-- Whether an operand is EZ from digit 1. -/
def OLane.empty (l : OLane) : Bool := decide (l.stop = some 1) || (l.ds.isEmpty && l.stop.isSome)

/-- The exponent range of R149 applied to a lane. -/
def rangeLane (ls : List OLane) (x : LaneOut) : LaneOut :=
  if x.e > 2047 then nanLane exOF
  else if x.e < -2047 then
    { e := -2047, zero := true, ex := if ls.any OLane.empty then 0#5 else exUF }
  else x

/-- The least s of 0 to 2 with 4^s |X[4]| at least 1/4 (R147). -/
def scaleOf (v : Int) : Option Nat := [0, 1, 2].find? fun s => decide (64 ≤ v.natAbs * 4 ^ s)

/-- The exponent of a result lane with its range condition (R147, R149, R150). `scl` is the scale amount of OSCL.
DEDUCED (log entry 39). DEDUCED (log entry 106). DESIGN CHOICE (log entry 118). -/
def laneOut (op : OnOp) (scl : Int) (ls : List OLane) : LaneOut :=
  if ls.any (·.nan) then nanLane 0#5
  else
    let a := opnd ls 0
    let b := opnd ls 1
    let c := opnd ls 2
    let byRoot := fun (x : OLane) (isDiv : Bool) =>
      let v := prefixOf x.ds 4
      if !isDiv && decide (v < 0) then nanLane exNV
      else
        match scaleOf v with
        | none =>
          if v = 0 ∧ x.stop.any (fun p => decide (p ≤ 4)) then
            (if op = .sqrt then { e := 0, zero := true } else nanLane exDZ)
          else nanLane exNV
        | some s =>
          if isDiv then rangeLane ls { e := a.e - b.e + s + 2, s := s }
          else
            let e := x.e - s
            let q := e % 2
            rangeLane ls { e := if op = .sqrt then (e + q) / 2 + 1 else 2 - (e + q) / 2, s := s, q := q }
    match op with
    | .add => rangeLane ls { e := max a.e b.e + 1 }
    | .sub => rangeLane ls { e := max a.e b.e + 1 }
    | .max => rangeLane ls { e := max a.e b.e + 1 }
    | .thr => rangeLane ls { e := max a.e b.e + 1 }
    | .cmp => rangeLane ls { e := max a.e b.e + 1 }
    | .mul => rangeLane ls { e := a.e + b.e + 1 }
    | .fma => rangeLane ls { e := max (a.e + b.e) c.e + 1 }
    | .div => byRoot b true
    | .sqrt => byRoot a false
    | .rsqrt => byRoot a false
    | .exp2 =>
      if a.e > 6 then nanLane exNV
      else
        let p := prefixOf a.ds 6
        let g := if a.e ≥ 6 then p * 4 ^ (a.e - 6).toNat else p / ((4 ^ (6 - a.e).toNat : Nat) : Int)
        rangeLane ls { e := g / 2 + 2, s := g / 2 }
    | _ => rangeLane ls { e := a.e + scl }

/-- The sum of two values n1 × 4^e1 and n2 × 4^e2 over 4^e, where e is at least both: numerator and denominator. -/
def alignSum (n1 e1 n2 e2 e : Int) : Int × Nat :=
  let lo := min e1 e2
  (n1 * 4 ^ (e1 - lo).toNat + n2 * 4 ^ (e2 - lo).toNat, 4 ^ (e - lo).toNat)

/-- The target of a lane on the prefixes of k digits (R147). `won` is the decision of an OMAX lane: 1 for A, -1 for B. -/
def targetOf (op : OnOp) (x : LaneOut) (ls : List OLane) (won : Option Int) (k : Nat) : Target :=
  let a := opnd ls 0
  let b := opnd ls 1
  let c := opnd ls 2
  let pa := prefixOf a.ds k
  let pb := prefixOf b.ds k
  let em := max a.e b.e
  match op with
  | .add => let r := alignSum pa a.e pb b.e em; .rat r.1 (r.2 * 4 ^ (k + 1))
  | .mul => .rat (pa * pb) (4 ^ (2 * k + 1))
  | .fma =>
    let r := alignSum (pa * pb) (a.e + b.e) (prefixOf c.ds k * 4 ^ k) c.e (max (a.e + b.e) c.e)
    .rat r.1 (r.2 * 4 ^ (2 * k + 1))
  | .div => .rat (if pb < 0 then -pa else pa) (16 * 4 ^ x.s.toNat * pb.natAbs)
  | .sqrt =>
    let n := x.s - x.q + 1
    .root (pa.toNat * 4 ^ n.toNat) (4 ^ (k + 3))
  | .rsqrt =>
    let n := x.s - x.q + 1
    .root (4 ^ (k + 1)) (256 * 4 ^ n.toNat * pa.toNat)
  | .exp2 =>
    let up := (a.e - k).toNat
    let t := 2 * (k - a.e).toNat
    .exp2 (pa * 4 ^ up - (2 * x.s + 4) * 2 ^ t) t
  | .max =>
    let ra := alignSum pa a.e 0 b.e em
    let rb := alignSum 0 a.e pb b.e em
    let n := match won with
      | some w => if w < 0 then rb.1 else ra.1
      | none => max ra.1 rb.1
    .rat n (ra.2 * 4 ^ (k + 1))
  | _ => let r := alignSum pa a.e (-pb) b.e em; .rat r.1 (r.2 * 4 ^ (k + 1))

/-- Step j of R146 for a target whose prefix in units of 4^-(j - 1) is z: the digit, or none for EZ. -/
def stepDigit (op : OnOp) (x : LaneOut) (ls : List OLane) (won : Option Int) (j : Nat) (z : Int) : Option Int :=
  let k := j + op.delta
  let t := targetOf op x ls won k
  if (ls.all fun l => l.stop.any fun p => decide (p ≤ k)) && t.isAt j z then none
  else some (selectDigit (t.floor16 j - 64 * z))

/-- The digits of OSUB(a, b) up to step n: the first nonzero one decides the lane (R151). The result is 1, -1, or 0 where
the difference has reached EZ. DEDUCED (log entry 36). -/
def decidedBy (x : LaneOut) (ls : List OLane) : Nat → Nat → Option Int
  | 0, _ => none
  | n + 1, j =>
    match stepDigit .sub x ls none j 0 with
    | none => some 0
    | some d => if d = 0 then decidedBy x ls n (j + 1) else some (if d > 0 then 1 else -1)

/-- The sign of the first nonzero digit among the first n. -/
def firstSign (ds : List Int) (n : Nat) : Int :=
  match (ds.take n).find? fun d => decide (d ≠ 0) with
  | some d => if d > 0 then 1 else -1
  | none => 0

/-- The digits emitted before in a lane, none where it has reached EZ. -/
def emitted (ds : List Flit) (i : Nat) : Option (List Int) :=
  let r := digitsFrom 1 (ds.map fun f => slotOf f i)
  if r.2.isSome then none else some r.1

/-- Digit j of a result lane, none for EZ (R146, R150, R151), after the digits emitted before. -/
def outDigit (op : OnOp) (x : LaneOut) (ls : List OLane) (j : Nat) (before : List Int) : Option Int :=
  let a := opnd ls 0
  let z := prefixOf before (j - 1)
  let d : Option Int := if a.stop.any (fun p => decide (p ≤ j)) && decide (a.ds.length < j) then none else some (a.ds.getD (j - 1) 0)
  if x.nan || x.zero then none
  else
    match op with
    | .scl => d
    | .neg => d.map fun v => -v
    | .abs => d.map fun v => if firstSign a.ds j < 0 then -v else v
    | .relu => if firstSign a.ds j < 0 then none else d
    | .max => stepDigit .max x ls (decidedBy x ls j 1) j z
    | .thr =>
      match stepDigit .sub x ls none j z with
      | none => none
      | some v => if firstSign before (j - 1) < 0 ∨ (firstSign before (j - 1) = 0 ∧ v < 0) then none else some v
    | .cmp => stepDigit .sub x ls none j z
    | o => stepDigit o x ls none j z

/-! ## Kills (R166, R167, R181) -/

/-- The lanes of a group that a list of kills names. -/
def killMask (ks : List KillMask) (seq : BitVec 12) : BitVec 128 :=
  (ks.filter fun k => decide (k.seq = seq)).foldl (fun m k => m ||| k.mask) 0#128

/-- A kill merged into a list. -/
def mergeKill (ks : List KillMask) (seq : BitVec 12) (m : BitVec 128) : List KillMask :=
  { seq := seq, mask := killMask ks seq ||| m } :: ks.filter fun k => decide (k.seq ≠ seq)

/-- A flit with EZ in the lanes of a mask, where they are members (R166). -/
def maskFlit (f : Flit) (m : BitVec 128) : Flit :=
  flitOf ((List.range 128).map fun i => let x := slotOf f i; if bitOf m i && decide (8 ≤ x) then ezSlot else x)

/-- A kill sent upstream on a port (R166): not where it names no lane, and not on a sticky port, which holds the group of the
kill for the firings to come (R162, R167). -/
def sendKill (s : State) (p : Port) (seq : BitVec 12) (m : BitVec 128) : State :=
  if m = 0#128 ∨ p.s ≠ 0 then s
  else
    let f := portFifo s p
    let s1 := setPortFifo s p { f with killed := mergeKill f.killed seq m }
    { s1 with kills := s1.kills ++ [{ fifo := fifoNo s.cur s.curElem p.k, seq := seq, mask := m }] }

/-! ## A group in progress -/

/-- The flits of port n of the group in progress. -/
def grpFlits (g : GroupState) (n : Nat) : List Token :=
  match n with | 0 => g.inA | 1 => g.inB | _ => g.inC
/-- Whether port n of the group has ended. -/
def grpEnd (g : GroupState) (n : Nat) : Bool :=
  match n with | 0 => g.endA | 1 => g.endB | _ => g.endC
/-- A flit of port n of the group taken. DEDUCED (log entry 37). -/
def grpTake (g : GroupState) (n : Nat) (t : Token) : GroupState :=
  let e := t.whole
  match n with
  | 0 => { g with inA := g.inA ++ [t], endA := e }
  | 1 => { g with inB := g.inB ++ [t], endB := e }
  | _ => { g with inC := g.inC ++ [t], endC := e }
/-- Port n of the group ended. -/
def grpStop (g : GroupState) (n : Nat) : GroupState :=
  match n with | 0 => { g with endA := true } | 1 => { g with endB := true } | _ => { g with endC := true }

/-- The type of the flit that is due at a port: HDR for the first three, then DIGIT (R144, R145). -/
def flitDue (l : List Token) : BitVec 4 := if l.length < 3 then tyHdr else tyDigit

/-- The constant operand of OTHR (R154, R180): its lane, the same in every lane, with the exceptions. None where it is 0. -/
def thresholdLane (w : Nat) (f : Fmt) : Option (OLane × BitVec 5) :=
  let nan := fun (ex : BitVec 5) => some (({ e := -2048, nan := true, mem := true, ds := [], stop := some 1 } : OLane), ex)
  match unpack f w with
  | .nan _ => nan 0#5
  | .inf _ => nan exNV
  | .fin neg m e =>
    if m = 0 then none
    else
      let top : Int := (Nat.log2 m : Int) + e
      let ex := top / 2 + 1
      let r := (2 * ex - e).toNat
      let n := (r + 1) / 2
      let v := m * 2 ^ (2 * n - r)
      let ds := (List.range n).map fun k => ((v / 4 ^ (n - 1 - k) % 4 : Nat) : Int)
      let last := (ds.zip (List.range n)).foldl (fun k d => if d.1 = 0 then k else d.2 + 1) 0
      let cut := (ds.take last).map fun d => if neg then -d else d
      some ({ e := ex, nan := false, mem := true, ds := cut, stop := some (cut.length + 1) }, 0#5)

/-- The operands of lane i of the group in progress, for an operation of n digits (R145); OTHR has its threshold as the
second. -/
def groupLanes (s : State) (op : OnOp) (ps : List Port) (n i : Nat) : List OLane :=
  let g := (wk s).grp
  let cap := n + op.delta
  let ls := ps.map fun p => laneOf (grpFlits g p.n) (grpEnd g p.n) cap i
  match op with
  | .thr =>
    match thresholdLane (slot s 0).toNat binary64 with
    | some t => ls ++ [{ t.1 with ds := t.1.ds.take cap }]
    | none => ls
  | _ => ls

/-- The operation that a lane of OTHR runs: ORELU where the threshold is 0 (R180). -/
def effectiveOp (s : State) (op : OnOp) : OnOp :=
  if op = .thr ∧ (thresholdLane (slot s 0).toNat binary64).isNone then .relu else op

/-- The scale amount of OSCL (R179). -/
def scaleArg (s : State) (op : OnOp) : Int := if op = .scl then intOf 12 false (slot s 0).toNat else 0

/-- Whether the digits that step j needs have come at every port (R146). -/
def stepReady (g : GroupState) (ps : List Port) (k : Nat) : Bool :=
  ps.all fun p => grpEnd g p.n || decide (k + 3 ≤ (grpFlits g p.n).length)

/-- The HDR of a group, from its lanes (R144). -/
def hdrToks (seq : BitVec 12) (ls : List LaneOut) : List Token :=
  (List.range 3).map fun k =>
    { ty := tyHdr, seq := seq, data := flitOf (ls.map fun l => intBits 12 l.e / 16 ^ k % 16) }

/-- Whether lane i is a member of the output: of every input group (R143). -/
def memberLane (ls : List OLane) : Bool := ls.all (·.mem)

/-- Digit flit j of the group: the slots of its lanes (R143, R146). -/
def digitFlit (s : State) (op : OnOp) (ps : List Port) (n j : Nat) : Flit :=
  let g := (wk s).grp
  let o := effectiveOp s op
  flitOf ((List.range 128).map fun i =>
    let ls := groupLanes s o ps n i
    if !memberLane ls then 0
    else
      match emitted g.digOut i with
      | none => ezSlot
      | some before =>
        match outDigit o (laneOut o (scaleArg s op) ls) ls j before with
        | some z => digitSlot z
        | none => ezSlot)

/-- Whether every member lane of a flit stands at EZ (R145). -/
def allEz (f : Flit) : Bool := (List.range 128).all fun i => decide (slotOf f i < 8) || decide (slotOf f i = ezSlot)

/-- The exceptions of a group's member lanes (R149, R180). -/
def groupExc (s : State) (op : OnOp) (ps : List Port) (n : Nat) : BitVec 5 :=
  let o := effectiveOp s op
  let th := if op = .thr then ((thresholdLane (slot s 0).toNat binary64).map (·.2)).getD 0#5 else 0#5
  (List.range 128).foldl (fun ex i =>
    let ls := groupLanes s o ps n i
    if memberLane ls then ex ||| (laneOut o (scaleArg s op) ls).ex else ex) th

/-- The lanes decided by the digits emitted so far, with the sign of each (R151); at the group's end, those whose difference
has no nonzero digit are decided equal. -/
def decidedLanes (s : State) (op : OnOp) (ps : List Port) (n j : Nat) (last : Bool) : List (Nat × Int) :=
  let o := effectiveOp s op
  let won := fun (x : LaneOut) (ls : List OLane) => (decidedBy x ls j 1).or (if last then some 0 else none)
  (List.range 128).filterMap fun i =>
    let ls := groupLanes s o ps n i
    let x := laneOut o (scaleArg s op) ls
    if !memberLane ls || x.nan || x.zero then none
    else
      match o with
      | .max => (won x ls).map fun w => (i, w)
      | .cmp => (won x ls).map fun w => (i, w)
      | .relu => let w := firstSign (opnd ls 0).ds j; if w = 0 then none else some (i, w)
      | .thr => (won x ls).map fun w => (i, w)
      | _ => none

/-- Whether every member lane of OCMP's group is decided by a nonzero digit, or unordered (R151). -/
def allDecided (s : State) (ps : List Port) (n j : Nat) : Bool :=
  (List.range 128).all fun i =>
    let ls := groupLanes s .cmp ps n i
    let x := laneOut .cmp 0 ls
    !memberLane ls || x.nan || (decidedBy x ls j 1).any fun w => decide (w ≠ 0)

/-- A set of lanes as a mask. -/
def maskOf (l : List Nat) : BitVec 128 := BitVec.ofNat 128 (l.foldl (fun m i => m + 2 ^ i) 0)

/-- The seq of the group that a port presents. -/
def inSeq (g : GroupState) (n : Nat) : BitVec 12 := ((grpFlits g n).head?.map (·.seq)).getD 0#12

/-- The kills that an operation with KE = 1 originates once lanes are decided (R151, R179, R181): none on a sticky port
(R167). One that is due only after the port's group has come is discarded on its way (R166), and KO tells of it all the same,
as the state of R245 lists it. -/
def originateKills (s : State) (op : OnOp) (ps : List Port) (n j : Nat) (last : Bool) : State :=
  let g := (wk s).grp
  let ds := (decidedLanes s op ps n j last).filter fun d => !bitOf g.decided d.1
  if ds.isEmpty then s
  else
    let all := maskOf (ds.map (·.1))
    let neg := maskOf ((ds.filter fun d => decide (d.2 < 0)).map (·.1))
    let pos := maskOf ((ds.filter fun d => decide (0 ≤ d.2)).map (·.1))
    let low := maskOf ((ds.filter fun d => decide (d.2 ≤ 0)).map (·.1))
    let s1 := modWk s fun w => { w with grp := { w.grp with decided := w.grp.decided ||| all } }
    let send := fun (s : State) (k : Nat) (m : BitVec 128) =>
      match ps.find? fun p => decide (p.n = k) with
      | some p =>
        if m = 0#128 ∨ p.s ≠ 0 then s else addEsr (if grpEnd g k then s else sendKill s p (inSeq g k) m) 256
      | none => s
    match op with
    | .cmp => send (send s1 0 all) 1 all
    | .max => send (send s1 0 neg) 1 pos
    | .relu => send s1 0 neg
    | .thr => send s1 0 low
    | _ => s1

/-- The kills that the element has received for the group it now emits, passed upstream (R167). -/
def passKills (s : State) (ps : List Port) (m : BitVec 128) : State :=
  let g := (wk s).grp
  ps.foldl (fun s p => if grpEnd g p.n then s else sendKill s p (inSeq g p.n) m) s

/-- A digit flit of the element that acts with EZ in the lanes of its group killed at this output (R166). -/
def killedFlit (s : State) (seq : BitVec 12) (f : Flit) : Flit :=
  let m := killMask (el s).killIn seq
  if m = 0#128 then f else maskFlit f m

/-- A digit flit of group seq as it leaves, with EZ in the lanes killed at this output (R166, R181). -/
def emitDigit (s : State) (seq : BitVec 12) (f : Flit) (last : Bool) : State :=
  let m := killMask (el s).killIn seq
  let s1 := emit s [{ ty := tyDigit, data := killedFlit s seq f, seq := seq, gend := last }]
  let s2 := if m = 0#128 then s1 else addEsr s1 512
  if last then modEl s2 fun x => { x with killIn := x.killIn.filter fun k => decide (k.seq ≠ seq) } else s2

/-- One more digit flit of the group emitted, or kept by OCMP; the flit at which the group ends: one that leaves every member
lane at EZ, by a kill too (R145), and for OCMP the one that decides the last lane (R151). -/
def produceOne (op : OnOp) (ke : Bool) (ps : List Port) (n : Nat) (s : State) : State × Bool :=
  let g := (wk s).grp
  let j := g.digOut.length + 1
  let f := digitFlit s op ps n j
  let seq := BitVec.ofNat 12 (wk s).seq
  let done := if op = .cmp then allEz f || allDecided s ps n j else allEz (killedFlit s seq f)
  let last := done || decide (j = n)
  let s1 := if j = 1 then addExc s (groupExc s op ps n) else s
  let s2 := modWk s1 fun w => { w with grp := { w.grp with digOut := w.grp.digOut ++ [f] } }
  let s3 := if op = .cmp then s2 else emitDigit s2 seq f last
  (if ke then originateKills s3 op ps n j last else s3, last)

/-- The digit flits that can now be emitted. -/
def produce (op : OnOp) (ke : Bool) (ps : List Port) (n : Nat) : Nat → State → State × Bool
  | 0, s => (s, false)
  | m + 1, s =>
    if stepReady (wk s).grp ps ((wk s).grp.digOut.length + 1 + op.delta) then
      let r := produceOne op ke ps n s
      if r.2 then r else produce op ke ps n m r.1
    else (s, false)

/-- OCMP's token for a group (R151): a code of two bits for each lane. -/
def compareTok (s : State) (ps : List Port) (n : Nat) : Token :=
  let j := (wk s).grp.digOut.length
  let v := (List.range 128).foldl (fun v i =>
    let ls := groupLanes s .cmp ps n i
    let x := laneOut .cmp 0 ls
    let c := if !memberLane ls || x.nan then 2
      else match (if x.zero then some 0 else decidedBy x ls j 1) with
        | some w => if w > 0 then 1 else if w < 0 then 3 else 0
        | none => 0
    v + c * 4 ^ i) 0
  { ty := tyData, data := BitVec.ofNat 512 v, seq := inSeq (wk s).grp 0, gend := true }

/-- An emitted group has ended: what is still to come at its ports is read and discarded (R145), and its kills are over. -/
def endOut (s : State) : State :=
  modEl s fun x =>
    { x with work := { x.work with seq := (x.work.seq + 1) % 4096, grp := { x.work.grp with hdrOut := 4 } },
             killIn := x.killIn.filter fun k => decide (k.seq.toNat ≠ x.work.seq) }

/-- The group has emitted its last flit, or OCMP its token (R145, R151). -/
def closeOut (s : State) (op : OnOp) (ps : List Port) (n : Nat) : State :=
  if op = .cmp then modWk (emit s [compareTok s ps n]) fun w => { w with grp := { w.grp with hdrOut := 4 } } else endOut s

/-- A flit of a port taken: the next of a held group, or the head of its FIFO. -/
def takeFlit (s : State) (p : Port) : State :=
  match heldAt s p with
  | some h => setHeld s p (some { h with pos := h.pos + 1 })
  | none => setPortFifo s p (popFifo (portFifo s p))

/-- A sticky port after a group: a held group counts down, and a group that has come is held (R162, R179). -/
def stickGroup (s : State) (p : Port) : State :=
  match heldAt s p with
  | some h =>
    setHeld s p (if h.till then some { h with pos := 0 } else if h.left ≤ 1 then none else some { h with pos := 0, left := h.left - 1 })
  | none =>
    if p.s = 0 ∨ (wk s).dropGrp then s
    else setHeld s p (some { toks := ((wk s).grp.kept.filter fun x => decide (x.1 = p.n)).map (·.2), left := p.s, till := decide (p.s = 7) })

/-- A group whose ports have all ended: the next one begins. -/
def endGroup (s : State) (ps : List Port) : State :=
  modWk ((owners ps).foldl stickGroup s) fun w => { w with grp := {}, dropGrp := false }

/-- What a group emits after a flit has been taken from each of its ports. Its HDR carries for a lane that is no member what
`laneOut` makes of the operands. DESIGN CHOICE (log entry 119). -/
def advanceGroup (op : OnOp) (ke : Bool) (ps : List Port) (n : Nat) (s : State) : State :=
  let g := (wk s).grp
  if g.hdrOut = 4 || !stepReady g ps (max op.delta 1) then s
  else
    let seq := BitVec.ofNat 12 (wk s).seq
    let s1 :=
      if g.hdrOut = 0 then
        let o := effectiveOp s op
        let ls := (List.range 128).map fun i => laneOut o (scaleArg s op) (groupLanes s o ps n i)
        let s1 := if op = .cmp then s else emit s (hdrToks seq ls)
        modWk s1 fun w => { w with grp := { w.grp with hdrOut := 3 } }
      else s
    let r := produce op ke ps n n s1
    if r.2 then closeOut r.1 op ps n else r.1

/-! ## Acts of an online unit -/

/-- The ports of the group in progress that have not ended. -/
def openPorts (s : State) (ps : List Port) : List Port := ps.filter fun p => !grpEnd (wk s).grp p.n

/-- What an online unit does (R145): between groups as any operation, and within one as the flits come. -/
def onlineAct (ps : List Port) (s : State) : Act :=
  let g := (wk s).grp
  if !g.active then plainAct s ps 1 (fun _ ty => decide (ty = tyHdr) || ((wk s).discard && decide (ty = tyDigit)))
  else
    let os := openPorts s ps
    let heads := os.map fun p => (p, (present s ps 1 p).head?)
    if heads.any fun h => h.2.isNone then .idle
    else
      match heads.find? fun h => (h.2.map fun t =>
        !(decide (t.ty = flitDue (grpFlits g h.1.n)) || decide (t.ty = tyErr) || (wk s).dropGrp)).getD false with
      | some h => match h.2 with
        | some t => .bad h.1 t
        | none => .idle
      | none => .fire

/-- Whether a token is a flit of the group in progress at a port: of its seq, where flits of it have come (R159). -/
def inGroup (g : GroupState) (h : Port × Token) : Bool :=
  h.2.isFlit && ((grpFlits g h.1.n).head?.map fun t => decide (t.seq = h.2.seq)).getD true

/-- Flits still to come at a port after an ERR in their group: they are discarded up to the group's end (R172). -/
def dropFlits (ps : List Port) (s : State) : State :=
  let g := (wk s).grp
  let heads := (openPorts s ps).map fun p => (p, (present s ps 1 p).headD {})
  let go := heads.filter (inGroup g)
  let s1 := (owners (go.map (·.1))).foldl takeFlit s
  modWk s1 fun w => { w with grp := heads.foldl (fun k h => if !inGroup g h || h.2.whole then grpStop k h.1.n else k) w.grp }

/-- The arguments of an online operation checked at a group's first firing (R177, R179). -/
def onlineArgs (op : OnOp) (s : State) (t : Token) : Except Halt Unit :=
  match op with
  | .scl => needE (decide ((slot s 0).toNat < 4096) && decide ((slot s 0).toNat ≠ 2048)) (badArg 0 t)
  | _ => .ok ()

/-- A firing on value groups: one flit of each port of the group, read with EZ in the lanes killed at the output (R166), then
what the operation makes of it. An ERR replaces the
group, and what is left of it is discarded (R172). -/
def groupFire (args : State → Token → Except Halt Unit) (advance : State → State) (ps : List Port) (s : State) :
    Except Halt State :=
  let g := (wk s).grp
  if (wk s).dropGrp then
    let s1 := dropFlits ps s
    .ok (if ps.all fun p => grpEnd (wk s1).grp p.n then endGroup s1 ps else s1)
  else
    let os := openPorts s ps
    let heads := os.map fun p => (p, (present s ps 1 p).headD {})
    let s1 := (owners os).foldl takeFlit s
    match heads.find? fun h => decide (h.2.ty = tyErr) with
    | some e =>
      let ends := fun (h : Port × Token) => h.2.whole && (h.2.isFlit || !g.active)
      let stop := heads.foldl (fun g h => if ends h then grpStop g h.1.n else g) g
      let s2 := modWk (passErr s1 e.2) fun w => { w with dropGrp := true, grp := { stop with active := true } }
      .ok (if ps.all fun p => grpEnd (wk s2).grp p.n then endGroup s2 ps else s2)
    | none => do
      if g.active then pure () else args s ((heads.head?.map (·.2)).getD {})
      let m := killMask (el s1).killIn (BitVec.ofNat 12 (wk s1).seq)
      let put := fun (g : GroupState) (h : Port × Token) =>
        grpTake g h.1.n (if h.2.ty = tyDigit ∧ m ≠ 0#128 then { h.2 with data := maskFlit h.2.data m } else h.2)
      let kept := (heads.filter fun h => decide (h.1.s ≠ 0)).map fun h => (h.1.n, h.2)
      let s2 := modWk s1 fun w => { w with grp := heads.foldl put { w.grp with active := true, kept := w.grp.kept ++ kept } }
      let s3 := advance (if g.active then s2 else passKills s2 ps m)
      .ok (if ps.all fun p => grpEnd (wk s3).grp p.n then endGroup s3 ps else s3)

/-- A firing of an online unit that emits or compares value groups. -/
def onlineFire (op : OnOp) (ke : Bool) (prec : Nat) (ps : List Port) (s : State) : Except Halt State :=
  groupFire (onlineArgs op) (advanceGroup op ke ps (prec + 2)) ps s

/-- The precision that a prec field gives (R28). -/
def precOf (p : BitVec 5) : Nat := p.toNat + 4

/-- An operation of an online unit on value groups. -/
def onlineOp (op : OnOp) (k : BitVec 1) (p : BitVec 5) (ps : List Port) (s : State) : Host.Outcome State Fault Refusal :=
  .next (acting s (onlineAct ps) (onlineFire op (k = 1#1) (precOf p) ps))

/-- OADD (R147). -/
def execOadd (a b p : BitVec 5) (s : State) : Host.Outcome State Fault Refusal :=
  onlineOp .add 0#1 p [portAs 0 a, portAs 1 b] s

/-- OSUB (R147). -/
def execOsub (a b p : BitVec 5) (s : State) : Host.Outcome State Fault Refusal :=
  onlineOp .sub 0#1 p [portAs 0 a, portAs 1 b] s

/-- OMUL (R147). -/
def execOmul (a b p : BitVec 5) (s : State) : Host.Outcome State Fault Refusal :=
  onlineOp .mul 0#1 p [portAs 0 a, portAs 1 b] s

/-- OFMA (R147). -/
def execOfma (a b c p : BitVec 5) (s : State) : Host.Outcome State Fault Refusal :=
  onlineOp .fma 0#1 p [portAs 0 a, portAs 1 b, portAs 2 c] s

/-- ODIV (R147). -/
def execOdiv (a b p : BitVec 5) (s : State) : Host.Outcome State Fault Refusal :=
  onlineOp .div 0#1 p [portAs 0 a, portAs 1 b] s

/-- OSQRT (R147). -/
def execOsqrt (a p : BitVec 5) (s : State) : Host.Outcome State Fault Refusal := onlineOp .sqrt 0#1 p [portAs 0 a] s

/-- ORSQRT (R147). -/
def execOrsqrt (a p : BitVec 5) (s : State) : Host.Outcome State Fault Refusal := onlineOp .rsqrt 0#1 p [portAs 0 a] s

/-- OEXP2 (R147). -/
def execOexp2 (a p : BitVec 5) (s : State) : Host.Outcome State Fault Refusal := onlineOp .exp2 0#1 p [portAs 0 a] s

/-- OSCL (R150). -/
def execOscl (a p : BitVec 5) (s : State) : Host.Outcome State Fault Refusal := onlineOp .scl 0#1 p [portAs 0 a] s

/-- ONEG (R150). -/
def execOneg (a p : BitVec 5) (s : State) : Host.Outcome State Fault Refusal := onlineOp .neg 0#1 p [portAs 0 a] s

/-- OABS (R150). -/
def execOabs (a p : BitVec 5) (s : State) : Host.Outcome State Fault Refusal := onlineOp .abs 0#1 p [portAs 0 a] s

/-- OCMP (R151). -/
def execOcmp (a b p : BitVec 5) (k : BitVec 1) (s : State) : Host.Outcome State Fault Refusal :=
  onlineOp .cmp k p [portAs 0 a, portAs 1 b] s

/-- OMAX (R147, R151). -/
def execOmax (a b p : BitVec 5) (k : BitVec 1) (s : State) : Host.Outcome State Fault Refusal :=
  onlineOp .max k p [portAs 0 a, portAs 1 b] s

/-- ORELU (R150). -/
def execOrelu (a p : BitVec 5) (k : BitVec 1) (s : State) : Host.Outcome State Fault Refusal :=
  onlineOp .relu k p [portAs 0 a] s

/-- OTHR (R150, R180). -/
def execOthr (a p : BitVec 5) (k : BitVec 1) (s : State) : Host.Outcome State Fault Refusal :=
  onlineOp .thr k p [portAs 0 a] s

end Sys2Proof.Machine
end

