-- ==== Sys2Proof/Machine/OnlineWords.lean ====
section
/-!
DEFINITION. Words to digits and back (R154, R155), and the accumulator of digit groups (R152, R182).
-/

namespace Sys2Proof.Machine

open Sys2Proof

/-- The word format of a code of R28. -/
def wordFmt (c : BitVec 2) : Fmt := fmtOf c.toNat

/-! ## OW2D (R154) -/

/-- The word tokens of a whole group of 128 lanes. -/
def wordsPerGroup (f : Fmt) : Nat := f.width / 4

/-- Word i of tokens packed in lane order. -/
def packedWord (ts : List Token) (w i : Nat) : Nat :=
  (ts.getD (i * w / 512) {}).data.toNat / 2 ^ (i % (512 / w) * w) % 2 ^ w

/-- A word as a lane: a zero has exponent 0 and no digit (R154). -/
def wordLane (f : Fmt) (w : Nat) : OLane × BitVec 5 :=
  (thresholdLane w f).getD ({ e := 0, nan := false, mem := true, ds := [], stop := some 1 }, 0#5)

/-- The group that word tokens give, of n digits at most, with its exceptions. -/
def groupOfWords (f : Fmt) (n : Nat) (seq : BitVec 12) (ts : List Token) : List Token × BitVec 5 :=
  let count := min 128 (ts.length * (512 / f.width))
  let ls := (List.range count).map fun i => wordLane f (packedWord ts f.width i)
  let len := ls.foldl (fun m l => max m (l.1.ds.length + 1)) 1
  let nd := min n len
  let flit := fun j => flitOf (ls.map fun l => if l.1.ds.length < j then ezSlot else digitSlot (l.1.ds.getD (j - 1) 0))
  (hdrToks seq (ls.map fun l => { e := l.1.e }) ++
    (List.range nd).map (fun k => { ty := tyDigit, data := flit (k + 1), seq := seq, gend := decide (k + 1 = nd) }),
   ls.foldl (fun x l => x ||| l.2) 0#5)

/-- The word tokens gathered turned into a group; an ERR among them replaces it (R172). -/
def flushWords (f : Fmt) (n : Nat) (ps : List Port) (s : State) : State :=
  let ts := (wk s).grp.inA
  let s1 :=
    match ts.find? fun t => decide (t.ty = tyErr) with
    | some t => passErr s t
    | none =>
      let r := groupOfWords f n (BitVec.ofNat 12 (wk s).seq) ts
      let s1 := addExc s r.2
      let m := killMask (el s1).killIn (BitVec.ofNat 12 (wk s).seq)
      let out := r.1.map fun t => if t.ty = tyDigit ∧ m ≠ 0#128 then { t with data := maskFlit t.data m } else t
      modWk (emit s1 out) fun w => { w with seq := (w.seq + 1) % 4096 }
  endGroup s1 ps

/-- What OW2D does: an EOS or a TAG among the words of a group ends it (R154). DEDUCED (log entry 38). -/
def ow2dAct (ps : List Port) (s : State) : Act :=
  if !(wk s).grp.active then plainAct s ps 1 onlyData
  else
    preAct s ps onlyData
      (if ps.any fun p => (present s ps 1 p).isEmpty && !holds s p then .idle else .fire)

/-- A firing of OW2D: one word token more, or the end of a group. -/
def ow2dFire (f : Fmt) (n : Nat) (ps : List Port) (s : State) : Except Halt State :=
  let p := ps.headD { n := 0, k := 0, s := 0 }
  match present s ps 1 p with
  | t :: _ =>
    if t.ty = tyData ∨ t.ty = tyErr then
      let s1 := modWk (takeFlit s p) fun w => { w with grp := { w.grp with inA := w.grp.inA ++ [t], active := true } }
      .ok (if (wk s1).grp.inA.length = wordsPerGroup f then flushWords f n ps s1 else s1)
    else .ok (flushWords f n ps s)
  | [] => .ok (flushWords f n ps s)

/-- OW2D (R154). -/
def execOw2d (a p : BitVec 5) (w : BitVec 2) (s : State) : Host.Outcome State Fault Refusal :=
  .next (acting s (ow2dAct [portAs 0 a]) (ow2dFire (wordFmt w) (precOf p + 2) [portAs 0 a]))

/-! ## OD2W (R155) -/

/-- A lane as a rounded word, with its exceptions: a non-member and an exact zero give +0, a NaN lane the canonical NaN. -/
def laneWord (f : Fmt) (r : Rnd) (l : OLane) : Nat × BitVec 5 :=
  if !l.mem then (0, 0#5)
  else if l.nan then (f.nanCode, 0#5)
  else
    let k := l.ds.length
    let v := prefixOf l.ds k
    if v = 0 then (0, 0#5) else roundTo f r false (.num (decide (v < 0)) v.natAbs (2 * (l.e - k)) false)

/-- The words of the group that has come: those of lanes 0 to the highest member (R155). -/
def emitWords (f : Fmt) (r : Rnd) (n : Nat) (s : State) : State :=
  let g := (wk s).grp
  let ls := (List.range 128).map fun i => laneOf g.inA true n i
  let top := (ls.zip (List.range 128)).foldl (fun m x => if x.1.mem then x.2 + 1 else m) 0
  let ws := (ls.take top).map (laneWord f r)
  let s1 := addExc s (ws.foldl (fun x w => x ||| w.2) 0#5)
  let v := (ws.zip (List.range top)).foldl (fun v w => v + w.1.1 * 2 ^ (f.width * w.2)) 0
  let q := nextSeq s1
  emit q.2 (dataToks q.1 ((top * f.width + 511) / 512) v)

/-- OD2W (R155). -/
def execOd2w (a p : BitVec 5) (r w : BitVec 2) (s : State) : Host.Outcome State Fault Refusal :=
  .next (acting s (onlineAct [portAs 0 a])
    (groupFire (fun _ _ => .ok ())
      (fun s => if (wk s).grp.endA then emitWords (wordFmt w) (rndOf r) (precOf p + 2) s else s) [portAs 0 a]))

/-! ## OACC (R152, R182) -/

/-- A term of OACC added in one lane: digits below position 128 are discarded, and a term or a sum that is too large makes
the lane a NaN lane with OF. -/
def accTerm (first : Bool) (x : AccLane) (l : OLane) : AccLane × BitVec 5 :=
  let mem := l.mem && (first || x.member)
  if !mem then ({ x with member := false }, 0#5)
  else if l.nan then ({ x with member := true, nan := true, ea := if first then 0 else x.ea }, 0#5)
  else
    let ea := if first then l.e + 4 else x.ea
    let y : AccLane := { x with member := true, ea := ea }
    if y.nan then (y, 0#5)
    else if l.e > ea - 1 then ({ y with nan := true }, exOF)
    else
      let keep := 128 + l.e - ea
      let k := min l.ds.length keep.toNat
      let add : Int := if keep < 0 then 0 else prefixOf l.ds k * 4 ^ (keep.toNat - k)
      let sum := y.sum + add
      if 2 ^ 255 ≤ sum.natAbs then ({ y with nan := true }, exOF) else ({ y with sum := sum }, 0#5)

/-- The group that has come added to the accumulators. -/
def accGroup (s : State) : State :=
  let g := (wk s).grp
  let old := (wk s).oacc
  let r := (List.range 128).map fun i => accTerm old.isEmpty (old.getD i {}) (laneOf g.inA true 1000 i)
  modWk (addExc s (r.foldl (fun x y => x ||| y.2) 0#5)) fun w => { w with oacc := r.map (·.1) }

/-- Digit j of an accumulator lane after the digits before it, none for EZ (R146, R152). -/
def accDigit (x : AccLane) (j : Nat) (before : List Int) : Option Int :=
  let t : Target := .rat x.sum (4 ^ 128)
  let z := prefixOf before (j - 1)
  if t.isAt j z then none else some (selectDigit (t.floor16 j - 64 * z))

/-- The digits of an accumulator lane, up to EZ or the n-th. -/
def accDigits (x : AccLane) : Nat → List Int → List Int
  | 0, ds => ds
  | n + 1, ds =>
    match accDigit x (ds.length + 1) ds with
    | none => ds
    | some d => accDigits x n (ds ++ [d])

/-- The group that an episode of OACC emits, with its exceptions (R149, R152). -/
def accToks (xs : List AccLane) (n : Nat) (seq : BitVec 12) : List Token × BitVec 5 :=
  let ls := xs.map fun x =>
    if x.nan then nanLane 0#5
    else if x.ea > 2047 then nanLane exOF
    else if x.ea < -2047 then { e := -2047, zero := true, ex := exUF }
    else ({ e := x.ea } : LaneOut)
  let ds := (xs.zip ls).map fun p => if p.2.nan || p.2.zero then [] else accDigits p.1 n []
  let len := (xs.zip ds).foldl (fun m p => if p.1.member then max m (p.2.length + 1) else m) 1
  let nd := min n len
  let flit := fun j => flitOf ((xs.zip ds).map fun p =>
    if !p.1.member then 0 else if p.2.length < j then ezSlot else digitSlot (p.2.getD (j - 1) 0))
  (hdrToks seq ((xs.zip ls).map fun p => if p.1.member then p.2 else { e := 0 }) ++
    (List.range nd).map (fun k => { ty := tyDigit, data := flit (k + 1), seq := seq, gend := decide (k + 1 = nd) }),
   (xs.zip ls).foldl (fun x p => if p.1.member then x ||| p.2.ex else x) 0#5)

/-- OACC at an EOS (R152, R182): an episode with a term emits its group, and the accumulators clear. -/
def flushAcc (n : Nat) (s : State) : State :=
  if (wk s).oacc.isEmpty then s
  else
    let q := nextSeq s
    let r := accToks (wk s).oacc n q.1
    modWk (emit (addExc q.2 r.2) r.1) fun w => { w with oacc := [] }

/-- OACC (R152). -/
def execOacc (a _p : BitVec 5) (s : State) : Host.Outcome State Fault Refusal :=
  .next (acting s (onlineAct [portAs 0 a])
    (groupFire (fun _ _ => .ok ()) (fun s => if (wk s).grp.endA then accGroup s else s) [portAs 0 a]))

end Sys2Proof.Machine
end

