-- ==== Sys2Proof/Machine/MemPort.lean ====
section
/-!
DEFINITION. The memory ports (R205 to R211, R238): waves (R171), the loads and buffered stores of rounds (R208, R299),
and the operations MLD to MSTE.
-/

namespace Sys2Proof.Machine

open Sys2Proof

/-! ## Waves (R34, R171) -/

/-- The W-word of an element. -/
def wwordAt (s : State) (u e : Nat) : BitVec 32 := (mget (bankAt s u).words.wwords e).getD 0#32
/-- Field own of a W-word. -/
def wvOwn (w : BitVec 32) : Nat := field w 31 22
/-- Field pred of a W-word. -/
def wvPred (w : BitVec 32) : Nat := field w 21 12
/-- Field succ of a W-word. -/
def wvSucc (w : BitVec 32) : Nat := field w 11 2
/-- Bit start of a W-word. -/
def wvStart (w : BitVec 32) : Bool := bitOf w 1
/-- Bit end of a W-word. -/
def wvEnd (w : BitVec 32) : Bool := bitOf w 0

/-- The number that an instance has while only an ERR has come of it: it takes any seq. -/
def anySeq : Nat := 4096

/-- Whether operation w follows the operation of a given own number in a chain (R171). DEDUCED (log entry 54). -/
def wvFollows (b : Bank) (own : Nat) (w : BitVec 32) : Bool :=
  decide (wvPred w = own) || (b.words.wwords.any fun x => decide (wvOwn x.2 = own) && decide (wvSucc x.2 = wvOwn w))

/-- Whether it is the turn of the element that acts, for an address token (R171, R208): a start operation begins an
instance once the last one has ended; any other follows the operation made last in the instance of its seq. -/
def waveTurn (s : State) (t : Token) : Bool :=
  let w := wwordAt s s.cur s.curElem
  let b := bankAt s s.cur
  match b.wave with
  | none => wvStart w
  | some (q, own) =>
    !wvStart w && wvFollows b own w && (decide (q = t.seq.toNat) || decide (q = anySeq) || decide (t.ty = tyErr))

/-- The operation of the element that acts made: the instance goes on, or ends. -/
def waveMade (s : State) (t : Token) : State :=
  let w := wwordAt s s.cur s.curElem
  let b := bankAt s s.cur
  let q := if t.ty = tyErr then (b.wave.map (·.1)).getD anySeq else t.seq.toNat
  setBank s s.cur { b with wave := if wvEnd w then none else some (q, wvOwn w) }

/-! ## Addresses (R205, R208) -/

/-- The launch of the slot whose element acts. -/
def elemLaunch (s : State) : Option Launch := slotLaunch s s.cur

/-- The element that acts as a requester of translation (R316). -/
def elemRequester (s : State) : Requester :=
  let l := elemLaunch s
  { who := 16 * tileOf s.cur + (s.curElem - 6), tile := tileOf s.cur, job := (l.map (·.job)).getD 0, lch := l }

/-- A translation for the element that acts; a fault freezes it at a place (R208, R217). -/
def xlateE (s : State) (k : Access) (wh : Nat) (va : Word) (t : Token) : Except Halt (XOk × State) :=
  match translate s (elemRequester s) k va with
  | (.ok x, s') => .ok (x, s')
  | (.error (.cause c d), s') => .error (.faulted s' wh c.toNat d.toNat va t)
  | (.error .violation, s') => .error (.violation s' va)

/-- The physical address of an address token (R205, R208): PHYS is honoured on a token that came straight from XL, unless
its translation has been removed since. DEDUCED (log entry 35). -/
def portAddress (s : State) (k : Access) (w : Nat) (t : Token) : Except Halt (XOk × State) := do
  let va : Word := t.data.setWidth 64
  let phys := t.viaXl && bitOf t.data 64
  let r ←
    if phys && !t.stale then .ok ({ pa := va.toNat % 2 ^ 52, tsz := field t.data 66 65, leaf := 0#6 }, s)
    else xlateE s k 4 (if phys then t.xva.getD va else va) t
  needE (decide (va.toNat % w = 0)) (.freeze 4 4 w va t)
  .ok r

/-! ## Events of the datapath thread -/

/-- The scope of a code of R206: 0 is the SCOPEDEF of the round series. -/
def portScope (s : State) (sc : BitVec 3) : Nat :=
  if sc = 0#3 then (seriesAt s (seriesOf s s.cur)).scopedef else sc.toNat - 1

/-- A packet of the element that acts to an address (R328). -/
def sendElemPacket (s : State) (pa : Nat) : State := sendSlotPacket s s.cur pa

/-- An event of the element that acts put into the state (R208). -/
def putElemEvent (s : State) (pa scope : Nat) (va : Word) (e : MemEvent) : State := putSlotEvent s s.cur pa (some scope) va e

/-- The 8-byte words, or the one word, of an access of w bytes, with their size (R208). -/
def accessWords (pa w : Nat) : List (Nat × Nat) := (List.range ((w + 7) / 8)).map fun i => (pa + 8 * i, min w 8)

/-- A load of w bytes by the element that acts (R208, R255, R299): each word from the last store of its own thread that is
still buffered, or from memory, where the lines are leased and the times read stand in the round; none while a word waits for
a store that covers it in part. -/
def roundLoad (s : State) (x : XOk) (w scope : Nat) (va : Word) : Option (Nat × State) :=
  let t := tileOf s.cur
  let key := seriesOf s s.cur
  let sr := seriesAt s key
  let n := (el s).round
  let st := bufferedStores sr n t
  let ws := accessWords x.pa w
  let vs := ws.map fun a => seenValue st s.mem a.1 a.2
  if vs.any (·.isNone) then none
  else
    let v := ofBytes ((ws.zip vs).flatMap fun a => toBytes a.1.2 (a.2.getD 0))
    if ws.all fun a => decide (forward st a.1 a.2 ≠ .none) then some (v, s)
    else
      let e := readEvent s.mem x.pa w t s.tb (some scope) x.sa sr.pts
      let r := sr.round n
      let loads := (linesOf x.pa w).foldl
        (fun m ln => if (mget m ln).isSome then m else mset m ln (getLine s.mem ln).wts) r.loads
      some (v, putElemEvent (setSeries s key (sr.setRound { r with loads := loads })) x.pa scope va e)

/-- Custody moved by an access that is buffered, and whether it is a breach (R293, R294). -/
def touchLines (m : Memory) (t tb scope : Nat) (sa : Bool) (pts : Nat) : List Nat → MemEvent
  | [] => ⟨m, pts, false⟩
  | ln :: l =>
    let x := approach m (64 * ln) t (some scope) sa tb
    let r := touchLines (setLine m ln x.1) t tb scope sa pts l
    { r with br := x.2 || r.br }

/-- The virtual address by whose translation a store is made, for the address token of the element that acts; none for an
address of the range of R291 (R349). -/
def storeVa (t : Token) (va : Word) : Option Word :=
  if t.viaXl && bitOf t.data 64 then t.xva else if inWindow va then none else some va

/-- A store of w bytes buffered in the round, one event for each word (R208). -/
def roundStore (s : State) (x : XOk) (w scope : Nat) (va : Word) (held : Option Word) (v : Nat) : State :=
  let t := tileOf s.cur
  let key := seriesOf s s.cur
  let sr := seriesAt s key
  let r := sr.round (el s).round
  let size := min w 8
  let ss := (List.range (w / size)).map fun i =>
    { pa := x.pa + 8 * i, size := size, value := BitVec.ofNat 64 (v / 2 ^ (64 * i) % 2 ^ (8 * size)), tile := t,
      va := held, tsz := x.tsz }
  let s1 := setSeries s key (sr.setRound { r with stores := r.stores ++ ss })
  if isRegion x.pa then sendElemPacket s1 x.pa
  else putElemEvent s1 x.pa scope va (touchLines s1.mem t s1.tb scope x.sa sr.pts (linesOf x.pa w))

/-- A store or atomic made at once by the element that acts (R300). -/
def putOwnStore (s : State) (pa w scope : Nat) (va : Word) (e : MemEvent) : State := putSlotStore s s.cur pa w (some scope) va e

/-! ## Firings -/

/-- The scope and width of a memory operation. -/
structure PortForm where
  w : Nat
  sc : BitVec 3
deriving DecidableEq, Repr

/-- The form of an E-word's wd and sc (R206). -/
def portForm (wd sc : BitVec 3) : PortForm := { w := 64 / 2 ^ wd.toNat, sc := sc }

/-- A firing of a memory port (R208): an ERR makes no access; otherwise the address is translated and checked, and the
firing waits for its turn. `body` takes the tokens and makes the access. DEDUCED (log entry 55). -/
def portFire (ps : List Port) (k : Access) (w : Nat) (onErr : State → Token → State)
    (body : State → List Token → XOk → Word → Except Halt State) (s : State) : Except Halt State := do
  let items := ps.map fun p => (present s ps 1 p).headD {}
  let a := items.headD {}
  match items.find? fun t => decide (t.ty = tyErr) with
  | some t =>
    needE (waveTurn s a) .wait
    .ok (onErr (waveMade s a) t)
  | none =>
    let (x, s1) ← portAddress s k w a
    needE (!isRegion x.pa || decide (w = 8)) (.freeze 4 4 8 (a.data.setWidth 64) a)
    needE (waveTurn s1 a) .wait
    body (waveMade s1 a) items x (a.data.setWidth 64)

/-- The tokens of a firing consumed, and its ERR passed on (R172). -/
def takeErr (ps : List Port) (s : State) (t : Token) : State := passErr (takeAll s ps 1) t

/-- An ERR in place of what a poisoned word would give (R170). -/
def poisonTok (s : State) (a : Token) : Token := { errTok s 3 with seq := a.seq, gend := a.gend }

/-! ## MLD and MST (R208, R238) -/

/-- The packed values emitted as one token, with the seq and gend of the last; an ERR among them goes on in its place. -/
def flushPack (w : Nat) (s : State) : State :=
  let ts := (wk s).got
  match ts.getLast? with
  | none => s
  | some l =>
    let s1 := modWk s fun k => { k with got := [] }
    match ts.find? fun t => decide (t.ty = tyErr) with
    | some t => passErr s1 t
    | none =>
      emit s1 [{ ty := tyData, data := BitVec.ofNat 512 (joinLanes (8 * w) (ts.map (·.data.toNat))), seq := l.seq,
                 gend := l.gend }]

/-- A loaded value emitted, or packed with others under PK (R208). -/
def deliverLoad (pk : Bool) (w : Nat) (t : Token) (s : State) : State :=
  if pk then
    let s1 := modWk s fun k => { k with got := k.got ++ [t] }
    if (wk s1).got.length = 64 / w ∨ t.gend then flushPack w s1 else s1
  else emit s [t]

/-- Whether some word of a load that memory supplies is poisoned (R170). -/
def loadPoisoned (s : State) (pa w : Nat) : Bool :=
  (accessWords pa w).any fun a =>
    (poisonedIn s.mem a.1 a.2).isSome && !slotForwards s s.cur s.curElem a.1 a.2

/-- The value that a load reads: a region register, an ERR for a poisoned word, or the bytes that its thread sees; it waits
behind a store that covers it in part (R171, R299). -/
def loadValue (s : State) (x : XOk) (w scope : Nat) (va : Word) (a : Token) : Except Halt (Except Token Nat × State) :=
  if isRegion x.pa then
    match forward (bufferedStores (seriesAt s (seriesOf s s.cur)) (el s).round (tileOf s.cur)) x.pa w with
    | .value v => .ok (.ok v, s)
    | .part => .error .wait
    | .none => .ok (.ok (regionRead s (windowPage x.pa) (x.pa % 4096)).toNat, sendElemPacket s x.pa)
  else if loadPoisoned s x.pa w then .ok (.error (poisonTok s a), s)
  else
    match roundLoad s x w scope va with
    | none => .error .wait
    | some r => .ok (.ok r.1, r.2)

/-- The type that SCL gives a loaded token (R238), and the check of its slot. -/
def loadType (s : State) (scl : Bool) (a : Token) : Except Halt (BitVec 4) := do
  if !scl then .ok tyData
  else
    let v := slot s 0
    let n := field v 11 0
    let lo := field v 23 12
    needE (decide (v.toNat < 2 ^ 24 ∧ lo + n ≤ 4096)) (badArg 0 a)
    .ok (if lo ≤ a.seq.toNat ∧ a.seq.toNat < lo + n then tyData else tyScale)

/-- MLD (R208, R238). -/
def execMld (a : BitVec 5) (w : BitVec 3) (z : BitVec 3) (x : BitVec 3) (s : State) : Host.Outcome State Fault Refusal :=
  let ps := [portAs 0 a]
  let f := portForm w z
  let sx := bitOf x 0
  let pk := bitOf x 1
  .next (acting s (fun s => plainAct s ps 1 onlyData) fun s => do
    let ty ← loadType s (bitOf x 2) ((present s ps 1 (portAs 0 a)).headD {})
    portFire ps .read f.w (fun s t => if pk then deliverLoad true f.w t (takeAll s ps 1) else takeErr ps s t)
      (fun s items y va => do
        let t := items.headD {}
        let r ← loadValue (takeAll s ps 1) y f.w (portScope s f.sc) va t
        let tok : Token := match r.1 with
          | .error e => e
          | .ok v =>
            let u := if sx ∧ f.w ≤ 8 then (sext64 (8 * f.w) v).toNat else v
            { ty := ty, data := BitVec.ofNat 512 u, seq := t.seq, gend := t.gend }
        .ok (deliverLoad pk f.w tok r.2)) s)

/-- The lane of B that a firing of MST with PK stores, and B taken after its last lane or at a gend address. -/
def takeLane (ps : List Port) (pk : Bool) (w : Nat) (gend : Bool) (s : State) : Nat × State :=
  let n := (wk s).count
  if pk && !gend && decide (n + 1 < 64 / w) then
    (n, modWk (takePort s (ps.headD (portAs 0 0#5)) 1) fun k => { k with count := n + 1 })
  else (n, modWk (takeAll s ps 1) fun k => { k with count := 0 })

/-- An ERR at MST, in place of a lane or of all that B's token holds. -/
def storeErr (ps : List Port) (pk : Bool) (w : Nat) (s : State) (t : Token) : State :=
  let g := ((present s ps 1 (ps.headD (portAs 0 0#5))).headD {}).gend
  let bErr := (ps.drop 1).any fun p => (present s ps 1 p).any fun t => decide (t.ty = tyErr)
  passErr (takeLane ps pk w (g || bErr) s).2 t

/-- A store of MST. -/
def portStore (ps : List Port) (pk : Bool) (f : PortForm) (s : State) (items : List Token) (x : XOk) (va : Word) :
    Except Halt State :=
  let r := takeLane ps pk f.w (items.headD {}).gend s
  let v := (items.getD 1 {}).data.toNat / (if pk then 2 ^ (8 * f.w * r.1) else 1) % 2 ^ (8 * f.w)
  .ok (roundStore r.2 x f.w (portScope s f.sc) va (storeVa (items.headD {}) va) v)

/-- MST (R208). -/
def execMst (a b : BitVec 5) (w : BitVec 3) (z : BitVec 3) (x : BitVec 3) (s : State) : Host.Outcome State Fault Refusal :=
  let ps := [portAs 0 a, portAs 1 b]
  let f := portForm w z
  let pk := bitOf x 1
  .next (acting s (fun s => plainAct s ps 1 onlyData) (portFire ps .write f.w (storeErr ps pk f.w) (portStore ps pk f)))

/-! ## MLDT and MSTT (R211) -/

/-- The switch output that feeds a FIFO: its slot and number (R157, R248). -/
def feedOf (f : Nat) : Option (Nat × Nat) :=
  let u := f / 256
  let k := f % 256
  if 128 ≤ k then (beyond (tileOf u) (k - 128)).map fun t => (4 * t + ctxOf u, facing (k - 128))
  else some (u, 8 + busOfInput (k / 4) (k % 4))

/-- The switch input that the route to an output of a slot reads. -/
def inputTo (s : State) (u out : Nat) : Option Nat :=
  ((bankAt s u).words.swords.find? fun w => decide ((fSo w).toNat = out)).map fun w => (fSi w).toNat

/-- The source of the tokens that reach a FIFO: back along the routes, and through each other element along its first port, for
at most n steps. DEDUCED (log entry 104). -/
def sourceOf (s : State) : Nat → Nat → Option (Nat × Nat)
  | 0, _ => none
  | n + 1, f =>
    match feedOf f with
    | none => none
    | some (u, out) =>
      match inputTo s u out with
      | none => none
      | some inp =>
        if inp < 8 then sourceOf s n (meshNo u inp)
        else
          match busDriver (bankAt s u).words.ewords (inp - 8) with
          | none => none
          | some e =>
            let w := ewordAt s u e
            if eSource w then some (u, e)
            else
              match portsOf w with
              | [] => none
              | p :: _ => sourceOf s n (fifoNo u e p.k)

/-- The handles that the stream at a FIFO took at its fork, the k-th of its source since the series opened; those of the fork
that opened the series where no source of it is known (R109, R211). DEDUCED (log entry 53). -/
def streamHandles (s : State) (u f k : Nat) : Vector Handle 16 :=
  let own := (seriesAt s (seriesOf s u)).handles
  match sourceOf s 512 f with
  | none => own
  | some (v, e) => let cs := (elemAt s v e).copies; (cs[k]?).getD (cs.getLast?.getD own)

/-- The handle that slot 0 names in the copy that the stream took at its fork (R109), checked under R177. -/
def portHandle (s : State) (p : Port) (t : Token) : Except Halt Handle := do
  let v := slot s 0
  needE (decide (v.toNat < 16)) (badArg 0 t)
  let h := (streamHandles s s.cur (fifoNo s.cur s.curElem p.k) (wk s).eoss).toList.getD v.toNat (Vector.replicate 16 0#64)
  needE (hValid h && handleOk h) (badArg 0 t)
  .ok h

/-- Whether elements of a handle are signed integers (R122). -/
def hSigned (h : Handle) : Bool := decide (6 ≤ field (hword h 0) 2 0) && !bitOf (hword h 0) 5

/-- MLDT (R211). -/
def execMldt (a : BitVec 5) (z : BitVec 3) (s : State) : Host.Outcome State Fault Refusal :=
  let ps := [portAs 0 a]
  .next (acting s (fun s => plainAct s ps 1 onlyData) fun s => do
    let h ← portHandle s (portAs 0 a) ((present s ps 1 (portAs 0 a)).headD {})
    let w := hBytes h
    portFire ps .read w (takeErr ps)
      (fun s items x va => do
        let t := items.headD {}
        let r ← loadValue (takeAll s ps 1) x w (portScope s z) va t
        let tok : Token := match r.1 with
          | .error e => e
          | .ok v =>
            let u := if hSigned h then (sext64 (8 * w) v).toNat else v
            { ty := tyData, data := BitVec.ofNat 512 (u + field t.data 191 96 * 2 ^ 96), seq := t.seq, gend := t.gend }
        .ok (emit r.2 [tok])) s)

/-- MSTT (R211). -/
def execMstt (a b : BitVec 5) (z : BitVec 3) (s : State) : Host.Outcome State Fault Refusal :=
  let ps := [portAs 0 a, portAs 1 b]
  .next (acting s (fun s => plainAct s ps 1 onlyData) fun s => do
    let h ← portHandle s (portAs 0 a) ((present s ps 1 (portAs 0 a)).headD {})
    let w := hBytes h
    portFire ps .write w (takeErr ps) (portStore ps false { w := w, sc := z }) s)

/-! ## MAMO (R209) -/

/-- The operation of a code of R209. -/
def amoOf (n : Nat) : AtomicOp :=
  match n with
  | 0 => .add | 1 => .and | 2 => .or | 3 => .xor | 4 => .min | 5 => .max | 6 => .minn | 7 => .maxn | 8 => .swp | _ => .cas

/-- The ports that MAMO reads: C for CAS alone (R209, R422). DEDUCED (log entry 44). -/
def mamoPorts (a b c : BitVec 5) (s : State) : List Port :=
  [portAs 0 a, portAs 1 b] ++ if slot s 0 = 9#64 then [portAs 2 c] else []

/-- The atomic of a firing of MAMO: one event, not buffered. -/
def mamoBody (f : PortForm) (ret : Bool) (ps : List Port) (s : State) (items : List Token) (x : XOk) (va : Word) :
    Except Halt State := do
  let t := items.headD {}
  let n := (slot s 0).toNat
  needE (!isRegion x.pa) (.freeze 4 7 3 va t)
  needE (!pinnedRange s (some (seriesOf s s.cur)) x.pa f.w) .wait
  if (poisonedIn s.mem x.pa f.w).isSome then .ok (takeErr ps s (poisonTok s t))
  else
    let bits := 8 * f.w
    let old := rdNum s.mem x.pa f.w
    let b := (items.getD 1 {}).data.toNat % 2 ^ bits
    let c := (items.getD 2 {}).data.toNat % 2 ^ bits
    let new := (amoOf n).apply bits old b c
    let sr := seriesAt s (seriesOf s s.cur)
    let scope := portScope s f.sc
    let e := atomicEvent s.mem x.pa f.w (tileOf s.cur) s.tb (some scope) x.sa sr.pts
    let e' := if n = 9 ∧ old ≠ c then e else { e with mem := clearPoison (wrNum e.mem x.pa f.w new) x.pa f.w }
    let s1 := putOwnStore (takeAll s ps 1) x.pa f.w scope va e'
    .ok (if ret then emit s1 [{ ty := tyData, data := BitVec.ofNat 512 old, seq := t.seq, gend := t.gend }] else s1)

/-- MAMO (R209). -/
def execMamo (a b c : BitVec 5) (w : BitVec 3) (z : BitVec 3) (x : BitVec 1) (s : State) :
    Host.Outcome State Fault Refusal :=
  let f := portForm w z
  .next (acting s (fun s => plainAct s (mamoPorts a b c s) 1 onlyData) fun s => do
    let ps := mamoPorts a b c s
    let t := (present s ps 1 (portAs 0 a)).headD {}
    let n := (slot s 0).toNat
    needE (decide (n ≤ 9) && (decide (n = 9) || decide (c = 0#5))) (badArg 0 t)
    portFire ps .atomic f.w (takeErr ps) (mamoBody f (decide (x = 1#1)) ps) s)

/-! ## MLDF and MSTE (R210) -/

/-- A firing that waits at a bank: it stands among the waiters while the bank's list has room (R169, R210). -/
def parkElem (s : State) (x : XOk) (full clear : Bool) (v va : Word) (scope : Nat) : Except Halt State :=
  if bankListFull s x.pa then .error .wait
  else .error (.park (modEl { s with twaiters := s.twaiters ++
    [{ pa := wordOf x.pa, who := 32 * s.cur + s.curElem, elem := true, full := full, clear := clear, value := v, va := va,
       scope := some scope, sa := x.sa }] }
    fun e => { e with parked := true }))

/-- A firing that the bank has completed: its tokens are taken and its turn ends; an ERR of a poisoned word goes on in place
of what it would load (R170). -/
def afterPark (ps : List Port) (s : State) (out : Token → Token → List Token) : State :=
  let t := (present s ps 1 (ps.headD (portAs 0 0#5))).headD {}
  let v := (wk s).got.headD {}
  let s1 := modWk (waveMade s t) fun k => { k with got := [] }
  if v.ty = tyErr then takeErr ps s1 { v with seq := t.seq, gend := t.gend } else emit (takeAll s1 ps 1) (out t v)

/-- What a tagged access needs: a scratchpad word (R210). -/
def tagPort (x : XOk) (va : Word) (t : Token) : Except Halt Unit := needE (isSpad x.pa) (.freeze 4 0x1A 0 va t)

/-- MLDF (R210). -/
def execMldf (a : BitVec 5) (_w : BitVec 3) (z : BitVec 3) (x : BitVec 1) (s : State) : Host.Outcome State Fault Refusal :=
  let ps := [portAs 0 a]
  let emp := decide (x = 1#1)
  .next (acting s (fun s => plainAct s ps 1 onlyData) fun s0 =>
    if !(wk s0).got.isEmpty then
      .ok (afterPark ps s0 fun t v => [{ ty := tyData, data := v.data, seq := t.seq, gend := t.gend }])
    else
      portFire ps (if emp then .atomic else .read) 8 (takeErr ps) (fun s items y va => do
        let t := items.headD {}
        tagPort y va t
        let scope := portScope s z
        if loadPoisoned s y.pa 8 then .ok (takeErr ps s (poisonTok s t))
        else if !isFull s.mem y.pa then parkElem (setBank s s.cur (bankAt s0 s.cur)) y true emp 0#64 va scope
        else
          needE (!emp || !pinnedRange s (some (seriesOf s s.cur)) y.pa 8) .wait
          match slotSees s s.cur s.curElem y.pa 8 with
          | none => .error .wait
          | some v =>
            let sr := seriesAt s (seriesOf s s.cur)
            let tile := tileOf s.cur
            let s1 :=
              if emp then
                tagTo (putOwnStore (takeAll s ps 1) y.pa 8 scope va
                  (atomicEvent s.mem y.pa 8 tile s.tb (some scope) y.sa sr.pts)) y.pa false
              else putElemEvent (takeAll s ps 1) y.pa scope va (readEvent s.mem y.pa 8 tile s.tb (some scope) y.sa sr.pts)
            .ok (emit s1 [{ ty := tyData, data := BitVec.ofNat 512 v, seq := t.seq, gend := t.gend }])) s0)

/-- MSTE (R210). -/
def execMste (a b : BitVec 5) (_w : BitVec 3) (z : BitVec 3) (x : BitVec 1) (s : State) :
    Host.Outcome State Fault Refusal :=
  let ps := [portAs 0 a, portAs 1 b]
  let unc := decide (x = 1#1)
  .next (acting s (fun s => plainAct s ps 1 onlyData) fun s0 =>
    if !(wk s0).got.isEmpty then .ok (afterPark ps s0 fun _ _ => [])
    else
      portFire ps .write 8 (takeErr ps) (fun s items y va => do
        let t := items.headD {}
        let v : Word := (items.getD 1 {}).data.setWidth 64
        tagPort y va t
        let scope := portScope s z
        if isFull s.mem y.pa && !unc then parkElem (setBank s s.cur (bankAt s0 s.cur)) y false false v va scope
        else
          needE (!pinnedRange s (some (seriesOf s s.cur)) y.pa 8) .wait
          let sr := seriesAt s (seriesOf s s.cur)
          let e := writeEvent s.mem y.pa (toBytes 8 v.toNat) (tileOf s.cur) s.tb (some scope) y.sa sr.pts
          .ok (tagTo (putOwnStore (takeAll s ps 1) y.pa 8 scope va e) y.pa true)) s0)

end Sys2Proof.Machine
end

