-- ==== Sys2Proof/Machine/Source.lean ====
section
/-!
DEFINITION. Sources: the streams that STRM.GO starts (R109, R252), and the address generators AGA, AGX and AGH (R212 to
R215).
-/

namespace Sys2Proof.Machine

open Sys2Proof

/-! ## Streams (R109, R252) -/

/-- The stream of the element that acts, changed. -/
def modStream (s : State) (f : Stream → Stream) : State := modEl s fun x => { x with stream := x.stream.map f }

/-- Whether a TAG is due before another DATA token (R252). DEDUCED (log entry 58). -/
def Stream.tagDue (x : Stream) : Bool := decide (0 < x.roundsz) && decide (x.roundsz ≤ x.sinceTag)

/-- Whether the launch of the slot is saving (R398). -/
def savingSlot (s : State) (u : Nat) : Bool :=
  ((bankAt s u).launch.bind fun l => mget s.launches l).any fun l => decide (l.st = .saving)

/-- What a source without a stream does: while the launch is saving it emits its MRK, unless it has already emitted an EOS
of rank 2 or higher (R398). -/
def idleSource (s : State) : Act :=
  let x := el s
  if savingSlot s s.cur && !x.markOut && !x.ended then .save else .idle

/-- What a source does that has `more` tokens to emit in its stream: the TAG that is due, a firing, or its EOS. -/
def streamAct (x : Stream) (more : Bool) : Act :=
  if !x.started then .fire
  else if more then (if x.tagDue then .round x.tag else .fire)
  else .eos x.rank.toNat

/-- A token emitted by a stream: counted, and towards the round where it is DATA. -/
def emitStream (s : State) (t : Token) : State :=
  emit (modStream s fun x =>
    { x with emitted := x.emitted + 1, sinceTag := x.sinceTag + (if t.ty = tyData then 1 else 0) }) [t]

/-- The arguments that a stream took at its first firing. -/
def streamArg (s : State) (n : Nat) : Word := (((el s).stream.map fun x => x.args.toList.getD n 0#64).getD 0#64)

/-- A stream's first firing: it takes the arguments. -/
def startStream (s : State) : State :=
  let a := (wk s).args
  modWk (modStream s fun x => { x with started := true, args := a }) fun w => { w with page := none }

/-! ## Address tokens (R204) -/

/-- An address emitted at the stream's position, with NEWPG where its page is another than the one before. -/
def emitAddr (s : State) (addr : Word) (coord : Nat) (gend : Bool) : State :=
  let k := ((el s).stream.map (·.emitted)).getD 0
  let pg := addr.toNat / 4096
  let new := decide ((wk s).page ≠ some pg)
  emitStream (modWk s fun w => { w with page := some pg })
    { ty := tyData, data := BitVec.ofNat 512 (addr.toNat + (if new then 2 ^ 67 else 0) + coord * 2 ^ 96),
      seq := BitVec.ofNat 12 k, gend := gend }

/-- An ERR emitted in place of an address. -/
def emitAddrErr (s : State) (code : Nat) (gend : Bool) : State :=
  let k := ((el s).stream.map (·.emitted)).getD 0
  emitStream s { errTok s code with seq := BitVec.ofNat 12 k, gend := gend }

/-- The window of slots 5 and 6 (R213). DEDUCED (log entry 110). -/
def windowArgs (lo hi : Word) (t : Token) : Except Halt Unit := do
  needE (canonical lo) (badArg 5 t)
  needE (canonical hi && decide (lo.toNat < hi.toNat)) (badArg 6 t)

/-! ## AGA (R213) -/

/-- n(i) and s(i) of slot i + 1. -/
def affDim (v : Word) : Nat × Int := (field v 23 0, intOf 40 false (field v 63 24))

/-- The used dimensions of an AGA stream, innermost first. -/
def affDims (s : State) : List (Nat × Int) :=
  ([1, 2, 3, 4].map fun n => affDim (streamArg s n)).filter fun d => decide (d.1 ≠ 0)

/-- N: the product of the n(i) of the used dimensions. -/
def affCount (ds : List (Nat × Int)) : Nat := ds.foldl (fun m d => m * d.1) 1

/-- Σ s(i) × ii for address number k, with i0 varying fastest. -/
def affOffset : List (Nat × Int) → Nat → Int
  | [], _ => 0
  | d :: ds, k => d.2 * ((k % d.1 : Nat) : Int) + affOffset ds (k / d.1)

/-- The addresses of an AGA stream: min(a, N), or N (R212). -/
def affTotal (s : State) (x : Stream) : Nat :=
  let n := affCount (affDims s)
  if x.count = 0 then n else min x.count n

/-- What AGA checks at the first firing of a stream (R213): its slots, and the corners of the stream against the window. -/
def affCheck (s : State) : Except Halt Unit := do
  let t : Token := {}
  let n := fun i => field (streamArg s i) 23 0
  needE (canonical (streamArg s 0)) (badArg 0 t)
  needE (decide (n 1 ≠ 0)) (badArg 1 t)
  needE (decide (n 2 = 0 ∨ n 1 ≠ 0)) (badArg 2 t)
  needE (decide (n 3 = 0 ∨ n 2 ≠ 0)) (badArg 3 t)
  needE (decide (n 4 = 0 ∨ n 3 ≠ 0)) (badArg 4 t)
  windowArgs (streamArg s 5) (streamArg s 6) t
  needE (decide ((streamArg s 7).toNat ≤ 4)) (badArg 7 t)
  let ds := affDims s
  let b : Int := (streamArg s 0).toNat
  let lo := ds.foldl (fun (m : Int) d => m + min 0 (d.2 * ((d.1 : Int) - 1))) b
  let hi := ds.foldl (fun (m : Int) d => m + max 0 (d.2 * ((d.1 : Int) - 1))) b
  needE (decide (((streamArg s 5).toNat : Int) ≤ lo) && decide (hi < (streamArg s 6).toNat)) (badArg 5 t)

/-- A firing of AGA: the next address. -/
def affFire (s0 : State) : Except Halt State := do
  let s ← (if ((el s0).stream.map (·.started)).getD true then .ok s0 else do
    let s1 := startStream s0
    affCheck s1
    .ok s1)
  let ds := affDims s
  let k := ((el s).stream.map (·.emitted)).getD 0
  let g := (streamArg s 7).toNat
  let gend := decide (0 < g) && decide ((k + 1) % affCount (ds.take g) = 0)
  .ok (emitAddr s (streamArg s 0 + BitVec.ofInt 64 (affOffset ds k)) 0 gend)

/-- AGA (R213). -/
def execAga (s : State) : Host.Outcome State Fault Refusal :=
  .next (acting s (fun s =>
    match (el s).stream with
    | none => idleSource s
    | some x => streamAct x (decide (x.emitted < affTotal s x))) affFire)

/-! ## AGX (R214) -/

/-- What AGX does while it runs a stream, from what its port presents: a firing for each index, the stream's end at the index
stream's EOS with the higher rank, and its own TAG after ROUNDSZ DATA tokens, which an index TAG of that number joins. An index
TAG that comes behind its own of that number disagrees with it (R252, R254). DEDUCED (log entry 105). -/
def agxStep (ps : List Port) (x : Stream) : Act → Act
  | .eos r => .eos (max r x.rank.toNat)
  | .fire => if x.tagDue then .round x.tag else .fire
  | .round n => if n < x.tag then .drop ps else .round n
  | a => a

/-- What AGX does. -/
def agxAct (ps : List Port) (s : State) : Act :=
  let a := plainAct s ps 1 onlyData
  match (el s).stream, a with
  | some x, a => agxStep ps x a
  | none, .save => .save
  | none, .record qs => .record qs
  | none, .cfg qs => .cfg qs
  | none, _ => .idle

/-- A firing of AGX: one address, or the ERR of an index outside the window. -/
def agxFire (ps : List Port) (s0 : State) : Except Halt State := do
  let s := if ((el s0).stream.map (·.started)).getD true then s0 else startStream s0
  let p := ps.headD (portAs 0 0#5)
  let t := (present s ps 1 p).headD {}
  let count := ((el s).stream.map (·.count)).getD 0
  needE (decide (count = 0)) (badArg 0 t)
  if t.ty = tyErr then
    .ok (passErr (modStream (takePort s p 1) fun x => { x with emitted := x.emitted + 1 }) t)
  else
    needE (decide ((slot s 1).toNat ≤ 6)) (badArg 1 t)
    windowArgs (slot s 5) (slot s 6) t
    let addr := slot s 0 + ((t.data.setWidth 64) <<< (slot s 1).toNat)
    let s1 := takePort s p 1
    .ok (if (slot s 5).toNat ≤ addr.toNat ∧ addr.toNat < (slot s 6).toNat then emitAddr s1 addr 0 t.gend
         else emitAddrErr s1 2 t.gend)

/-- AGX (R214). -/
def execAgx (a : BitVec 5) (s : State) : Host.Outcome State Fault Refusal :=
  .next (acting s (agxAct [portAs 0 a]) (agxFire [portAs 0 a]))

/-! ## AGH (R215) -/

/-- The handle of an AGH stream. -/
def walkHandle (s : State) : Handle :=
  (((el s).stream.map fun x => x.handles.toList.getD (streamArg s 0).toNat (Vector.replicate 16 0#64)).getD
    (Vector.replicate 16 0#64))

/-- Origin and count of the box at a level. -/
def boxOf (s : State) (i : Nat) : Nat × Nat := (field (streamArg s (i + 1)) 23 0, field (streamArg s (i + 1)) 47 24)
/-- Format code of a level (R122). -/
def lvFormat (h : Handle) (i : Nat) : Nat := field (hword h (2 + 3 * i)) 25 24
/-- Extent of a level. -/
def lvExtent (h : Handle) (i : Nat) : Nat := field (hword h (2 + 3 * i)) 23 0
/-- Stride of a dense level. -/
def lvStride (h : Handle) (i : Nat) : Int := intOf 32 false (field (hword h (2 + 3 * i)) 63 32)
/-- Pointer 1 of a level. -/
def lvPtr1 (h : Handle) (i : Nat) : Word := hword h (3 + 3 * i)
/-- Pointer 2 of a level. -/
def lvPtr2 (h : Handle) (i : Nat) : Word := hword h (4 + 3 * i)

/-- What AGH checks at the first firing of a stream. -/
def walkCheck (s : State) : Except Halt Unit := do
  let t : Token := {}
  needE (decide ((streamArg s 0).toNat < 16)) (badArg 0 t)
  let h := walkHandle s
  needE (hValid h && handleOk h) (badArg 0 t)
  match (List.range (hLevels h)).find? fun i =>
    !(decide ((streamArg s (i + 1)).toNat < 2 ^ 48) && decide (1 ≤ (boxOf s i).2)) with
  | some i => .error (badArg (i + 1) t)
  | none => .ok ()

/-- A read of a walk: an event of the stream's thread (R215); none where the word is poisoned (R170). DEDUCED (log entry 56). -/
def walkRead (s : State) (va : Word) (n : Nat) : Except Halt (Option Nat × State) := do
  let t : Token := {}
  let (x, s1) ← xlateE s .read 4 va t
  needE (!isRegion x.pa || decide (n = 8)) (.freeze 4 4 8 va t)
  let r ← loadValue s1 x n (((el s).stream.map (·.scopedef)).getD 4) va t
  .ok (r.1.toOption, r.2)

/-- An address of an array of a walk: base + size × index. -/
def walkAt (base : Word) (size : Nat) (i : Int) : Word := base + BitVec.ofInt 64 (size * i)

/-- The set bits of a bitmap below bit b, from n words. -/
def rankBits (base : Word) (b : Nat) : Nat → State → Except Halt (Option Nat × State)
  | 0, s => .ok (some 0, s)
  | n + 1, s => do
    let (m, s1) ← rankBits base b n s
    let (v, s2) ← walkRead s1 (walkAt base 8 n) 8
    .ok (match m, v with
      | some m, some v => (some (m + popN 64 (if b < 64 * (n + 1) then v % 2 ^ (b - 64 * n) else v)), s2)
      | _, _ => (none, s2))

/-- The visit of a level under parent position p: its children not yet visited; none where a word is poisoned. -/
def openLevel (s : State) (i : Nat) (p : Int) : Except Halt (Option WalkFrame × State) := do
  let h := walkHandle s
  let (o, m) := boxOf s i
  let n := min m (lvExtent h i - o)
  match lvFormat h i with
  | 0 => .ok (some { p := p, next := 0, stop := n }, s)
  | 1 =>
    let b := (p * lvExtent h i + o).toNat
    let (r, s1) ← rankBits (lvPtr1 h i) b ((b + 63) / 64) s
    .ok (r.map fun r => { p := p, next := 0, stop := n, rank := r }, s1)
  | 2 => do
    let (a, s1) ← walkRead s (walkAt (lvPtr1 h i) 4 p) 4
    let (b, s2) ← walkRead s1 (walkAt (lvPtr1 h i) 4 (p + 1)) 4
    .ok (match a, b with
      | some a, some b => (some { p := p, next := a, stop := b }, s2)
      | _, _ => (none, s2))
  | _ => .ok (some { p := p, next := 0, stop := 1 }, s)

/-- What the next child of a level is: absent, present at a position, or one in whose place an ERR
code stands. -/
inductive Child where
  | absent
  | at (q : Int)
  | err (code : Nat)

/-- The next child of a level looked at, and the level past it. -/
def nextChild (s : State) (i : Nat) (f : WalkFrame) : Except Halt (Child × WalkFrame × State) := do
  let h := walkHandle s
  let (o, m) := boxOf s i
  let g := { f with next := f.next + 1 }
  match lvFormat h i with
  | 0 =>
    let x := o + f.next
    .ok (.at (if lvStride h i = 0 then f.p * lvExtent h i + x else f.p + lvStride h i * x), { g with x := x }, s)
  | 1 => do
    let x := o + f.next
    let b := (f.p * lvExtent h i + x).toNat
    let (v, s1) ← walkRead s (walkAt (lvPtr1 h i) 8 (b / 64 : Nat)) 8
    .ok (match v with
      | none => (.err 3, { f with next := f.stop }, s1)
      | some v =>
        if v / 2 ^ (b % 64) % 2 = 1 then (.at f.rank, { g with rank := f.rank + 1, x := x }, s1) else (.absent, g, s1))
  | k => do
    let j : Int := if k = 2 then f.next else f.p
    let (v, s1) ← walkRead s (walkAt (if k = 2 then lvPtr2 h i else lvPtr1 h i) 4 j) 4
    .ok (match v with
      | none => (.err 3, { f with next := f.stop }, s1)
      | some x =>
        if k = 2 ∧ f.last.any (fun l => decide (x ≤ l)) then (.err 5, { f with next := f.stop }, s1)
        else (if o ≤ x ∧ x < o + m then .at j else .absent, { g with last := some x, x := x }, s1))

/-- The coordinates of the children that a walk stands at, level 0 lowest (R204). -/
def walkCoord (fs : List WalkFrame) : Nat :=
  fs.foldl (fun c f => c * 2 ^ 24 + f.x % 2 ^ 24) 0

/-- The element that waits to be emitted, emitted; `last` says that it ends its run. -/
def emitPending (last : Bool) (s : State) : State :=
  match (wk s).got with
  | [] => s
  | t :: _ =>
    let s1 := modWk s fun w => { w with got := [] }
    if t.ty = tyErr then emitAddrErr s1 (t.data.toNat % 256) last
    else emitAddr s1 (t.data.setWidth 64) (field t.data 191 96) last

/-- A new element or ERR of the last level: the one before it is emitted, and this one waits. -/
def pendWalk (t : Token) (s : State) : State :=
  modWk (emitPending false s) fun w => { w with got := [t] }

/-- One visit of a walk (R215): a level that is exhausted is left, which ends the run of the last level; a child is passed
over, entered, or emitted; an ERR ends its segment. -/
def walkStep (s : State) : Except Halt State := do
  let h := walkHandle s
  let n := hLevels h
  match (wk s).walk with
  | [] => .ok (emitPending true s)
  | f :: up =>
    let i := up.length
    let put := fun (s : State) (l : List WalkFrame) => modWk s fun w => { w with walk := l }
    if f.stop ≤ f.next then .ok (put (if i + 1 = n then emitPending true s else s) up)
    else
      let (c, g, s1) ← nextChild s i f
      match c with
      | .absent => .ok (put s1 (g :: up))
      | .err code => .ok (put (pendWalk (errTok s1 code) s1) (g :: up))
      | .at q =>
        if i + 1 = n then
          let a := walkAt (hword h 1) (hBytes h) q
          let t : Token := { ty := tyData, data := BitVec.ofNat 512 (a.toNat + walkCoord (g :: up) * 2 ^ 96) }
          .ok (put (pendWalk t s1) (g :: up))
        else
          let (r, s2) ← openLevel s1 (i + 1) q
          .ok (match r with
            | some k => put s2 (k :: g :: up)
            | none => put (pendWalk (errTok s2 3) s2) (g :: up))

/-- A firing of AGH: the first opens the walk at the root. -/
def walkFire (s : State) : Except Halt State := do
  if ((el s).stream.map (·.started)).getD true then walkStep s
  else
    let s1 := modWk (startStream s) fun w => { w with walk := [], got := [] }
    walkCheck s1
    let (r, s2) ← openLevel s1 0 0
    .ok (match r with
      | some f => modWk s2 fun w => { w with walk := [f] }
      | none => pendWalk (errTok s2 3) s2)

/-- What AGH does: a visit, the TAG that is due before an element, or its EOS after the last element or the count. -/
def walkAct (s : State) : Act :=
  match (el s).stream with
  | none => idleSource s
  | some x =>
    let w := wk s
    let spent := (w.walk.isEmpty && w.got.isEmpty) || (decide (x.count ≠ 0) && decide (x.count ≤ x.emitted))
    if x.started && !spent && w.got.isEmpty then .fire else streamAct x (!spent)

/-- AGH (R215). -/
def execAgh (s : State) : Host.Outcome State Fault Refusal := .next (acting s walkAct walkFire)

end Sys2Proof.Machine
end

