-- ==== Sys2Proof/Machine/Flow.lean ====
section
/-!
DEFINITION. The flow elements (R222 to R228). The flits of a value group pass one to a firing, and a control token that
governs the group is taken with its last flit.
-/

namespace Sys2Proof.Machine

open Sys2Proof

/-! ## Tokens at a flow element (R222) -/

/-- The types that a data port of a flow element takes. -/
def flowType (ty : BitVec 4) : Bool :=
  decide (ty = tyData) || decide (ty = tyDigit) || decide (ty = tyHdr) || decide (ty = tyScale) || decide (ty = tyCtok)

/-- The token that a port of an operation presents, with what it holds or by the port that takes it (R26). -/
def headIn (ps : List Port) (s : State) (p : Port) : Option Token := (present s ps 1 p).head?

/-- The head of a port. -/
def headOf (s : State) (p : Port) : Option Token := (peekPort s p 1).head?
/-- Whether a port presents a token that is no EOS and no TAG. -/
def hasData (s : State) (p : Port) : Bool := (headOf s p).any fun t => decide (t.ty ≠ tyEos) && decide (t.ty ≠ tyTag)

/-- A flit as it leaves, with EZ in the lanes killed at this output (R166). -/
def maskedTok (s : State) (t : Token) : Token :=
  let m := killMask (el s).killIn t.seq
  if t.ty = tyDigit ∧ m ≠ 0#128 then { t with data := maskFlit t.data m } else t

/-- The place in a value group that a token leaves: inside, or between groups, where the kills of the group are over. -/
def afterTok (t : Token) (s : State) : State :=
  let s1 := modWk s fun w => { w with grp := { w.grp with active := t.isFlit && !t.whole }, seq := t.seq.toNat }
  if t.isFlit ∧ t.whole then modEl s1 fun x => { x with killIn := x.killIn.filter fun k => decide (k.seq ≠ t.seq) } else s1

/-- A token passed on. -/
def passOn (t : Token) (s : State) : State := afterTok t (emit s [maskedTok s t])

/-- An ERR passed on; what is left of the value group of a data token is to be discarded (R172). -/
def passFlowErr (err : Token) (data : Option Token) (s : State) : State :=
  let open_ := match data with
    | some t => if t.isFlit then !t.whole else (wk s).grp.active
    | none => false
  let seq := match data with
    | some t => if t.isFlit then t.seq.toNat else (wk s).seq
    | none => (wk s).seq
  modWk (passErr s err) fun w => { w with dropGrp := open_, grp := { w.grp with active := false }, seq := seq }

/-- Whether a port presents a flit that is left of a group whose ERR has passed. -/
def leftover (s : State) (p : Port) : Bool :=
  (wk s).dropGrp && (headOf s p).any fun t => t.isFlit && decide (t.seq.toNat = (wk s).seq)

/-- What a flow element does whose data ports may hold what is left of a group. DEDUCED (log entry 57). -/
def flowAct (ds : List Port) (rest : State → Act) (s : State) : Act := if ds.any (leftover s) then .fire else rest s

/-- A firing of a flow element: what is left of a group is discarded before anything else. -/
def flowFire (ds : List Port) (body : State → Except Halt State) (s : State) : Except Halt State :=
  match ds.find? (leftover s) with
  | some p =>
    let last := (headOf s p).any Token.whole
    .ok (modWk (takePort s p 1) fun w => { w with dropGrp := !last })
  | none => body (modWk s fun w => { w with dropGrp := false })

/-! ## GATE (R223) -/

/-- The types at GATE with CW = 0: data on A, CTOK on B. -/
def gateTakes (n : Nat) (ty : BitVec 4) : Bool := if n = 0 then flowType ty else decide (ty = tyCtok)

/-- What GATE does with CW = 0: A passes while it is open; a token of B is taken while it is closed, or while an EOS waits
at A; otherwise A and B agree. -/
def gateAct (a b : Port) (s : State) : Act :=
  preAct s [a, b] gateTakes <|
    let waits := (headOf s a).any fun t => decide (t.ty = tyEos)
    if hasData s a && (wk s).isOpen && !(wk s).discard then .fire
    else if hasData s b && (!(wk s).isOpen || waits) && !(wk s).discard then .fire
    else
      match agree s [a, b] 1 with
      | .fire => .idle
      | x => x

/-- A token of A passed by an open GATE: a DATA token, a value group or an ERR counts towards the close. -/
def gatePass (t : Token) (s : State) : State :=
  let s1 := if t.ty = tyErr then passFlowErr t (some t) s else passOn t s
  let counts := decide (t.ty = tyData) || decide (t.ty = tyErr) || (t.isFlit && t.whole)
  modWk s1 fun w =>
    match w.openTo with
    | some n => if counts then (if n ≤ 1 then { w with isOpen := false, openTo := none } else { w with openTo := some (n - 1) }) else w
    | none => w

/-- GATE opened by a CTOK. -/
def gateOpen (t : Token) (s : State) : State :=
  let c := t.data.toNat % 2 ^ 32
  modWk s fun w => { w with isOpen := true, openTo := if c = 0 then none else some c }

/-- A firing of GATE with CW = 0. -/
def gateFire (a b : Port) (s : State) : Except Halt State :=
  if hasData s a && (wk s).isOpen then .ok (gatePass ((headOf s a).getD {}) (takePort s a 1))
  else
    let t := (headOf s b).getD {}
    let s1 := takePort s b 1
    .ok (if t.ty = tyErr then passErr s1 t else gateOpen t s1)

/-- GATE with CW = 0 (R223). -/
def execGateCtok (a b : BitVec 5) (s : State) : Host.Outcome State Fault Refusal :=
  let pa := portAs 0 a
  let pb := portAs 1 b
  .next (acting s (flowAct [pa] (gateAct pa pb)) (flowFire [pa] (gateFire pa pb)))

/-- What GATE does with CW = 1: a TAG passes open or closed; a token that would pass, or an EOS, while it is closed makes it
observe the counter. -/
def counterAct (a : Port) (s : State) : Act :=
  preAct s [a] gateTakes <|
    match agree s [a] 1 with
    | .eos r => if (wk s).isOpen then .eos r else .fire
    | x => x

/-- The counter of GATE observed (R223): an event of the datapath thread at the counter's home. A poisoned word gives an ERR
in place of a data token (R170). -/
def observeCounter (a : Port) (t : Token) (s : State) : Except Halt State := do
  let va := slot s 0
  needE (decide (va.toNat % 8 = 0)) (badArg 0 t)
  let (x, s1) ← xlateE s .read 4 va t
  let target := (wk s1).target.getD (slot s1 1)
  if isRegion x.pa then
    needE (decide (target.toNat ≤ (regionRead s1 (windowPage x.pa) (x.pa % 4096)).toNat)) .wait
    .ok (modWk (sendElemPacket s1 x.pa) fun w => { w with isOpen := true, target := some target })
  else if (poisonedIn s1.mem x.pa 8).isSome then
    needE (decide (t.ty ≠ tyEos)) .wait
    .ok (passFlowErr (poisonTok s1 t) (some t) (takePort s1 a 1))
  else
    needE (decide (target.toNat ≤ rdNum s1.mem x.pa 8)) .wait
    let sr := seriesAt s1 (seriesOf s1 s1.cur)
    let e := readEvent s1.mem x.pa 8 (tileOf s1.cur) s1.tb none x.sa sr.pts
    .ok (modWk (putElemEvent s1 x.pa 4 va { e with br := false }) fun w => { w with isOpen := true, target := some target })

/-- GATE with CW = 1 (R223). -/
def execGateCounter (a : BitVec 5) (s : State) : Host.Outcome State Fault Refusal :=
  let p := portAs 0 a
  .next (acting s (flowAct [p] (counterAct p)) (flowFire [p] fun s =>
    let t := (headOf s p).getD {}
    if (wk s).isOpen then
      .ok (if t.ty = tyErr then passFlowErr t (some t) (takePort s p 1) else passOn t (takePort s p 1))
    else observeCounter p t s))

/-! ## CARRY (R224) -/

/-- A token with the loop tag of slot 0. -/
def tagged (s : State) (t : Token) : Token := { t with ltag := (slot s 0).setWidth 5 }

/-- An ERR passed on by CARRY, with its loop tag. DEDUCED (log entry 43). -/
def carryErr (err : Token) (data : Option Token) (s : State) : State := passFlowErr (tagged s err) data s

/-- What CARRY does: idle it fires on A, looping on B and C. DEDUCED (log entry 42). -/
def carryAct (a b c : Port) (s : State) : Act :=
  preAct s [a, b, c] (fun _ ty => flowType ty) <|
    if (wk s).expectB.isSome || (wk s).expectC.isSome then .idle
    else if (wk s).looping then agree s [b, c] 1 else agree s [a] 1

/-- A firing of CARRY in the looping state. -/
def carryLoop (b c : Port) (s : State) : State :=
  let tb := (headIn [b, c] s b).getD {}
  let tc := (headIn [b, c] s c).getD {}
  let go := bitOf tc.data 0
  match [tb, tc].find? fun t => decide (t.ty = tyErr) with
  | some e => modWk (carryErr e (some tb) (takeAll s [b, c] 1)) fun w => { w with looping := false }
  | none =>
    let s2 := if tb.whole then modWk (takeAll s [b, c] 1) fun w => { w with looping := go } else takeSome s [b, c] [b] 1
    if !go then afterTok tb s2
    else if tb.ltag = (slot s 0).setWidth 5 then passOn (tagged s tb) s2
    else if tb.whole then afterTok tb (emit s2 [tagged s (errTok s 1)]) else afterTok tb s2

/-- A firing of CARRY. -/
def carryFire (a b c : Port) (s : State) : Except Halt State := do
  let t := (headOf s a).getD {}
  needE (decide ((slot s 0).toNat < 32)) (badArg 0 t)
  if (wk s).looping then .ok (carryLoop b c s)
  else
    let s1 := takePort s a 1
    .ok (if t.ty = tyErr then modWk (carryErr t (some t) s1) fun w => { w with looping := true }
         else modWk (passOn (tagged s t) s1) fun w => { w with looping := t.whole })

/-- Whether a token at B or C is the end that CARRY awaits there: an EOS of the rank, or a TAG of the number (R224). -/
def echoOf (want t : Token) : Bool :=
  decide (want.ty = t.ty) &&
    (if want.ty = tyEos then decide (want.rank.toNat ≤ t.rank.toNat) else decide (want.data = t.data))

/-- The token at a FIFO, where an element consumes it: neither MRK nor CFG. -/
def echoHead (s : State) (p : Port) : Option Token :=
  (portFifo s p).q.head?.filter fun t => decide (t.ty ≠ tyMrk) && decide (t.ty ≠ tyCfg)

/-- Whether CARRY awaits an end at a port, and a token stands there. -/
def echoDue (s : State) (b c : Port) : Bool :=
  ((wk s).expectB.isSome && (echoHead s b).isSome) || ((wk s).expectC.isSome && (echoHead s c).isSome)

/-- The token at a port where CARRY awaits an end, consumed; anything else in its place is discarded (R165). -/
def takeEchoAt (p : Port) (want : Option Token) (s : State) : State × Bool :=
  match want, echoHead s p with
  | some w, some t =>
    let s1 := setHeld (setPortFifo s p (popFifo (portFifo s p))) p none
    if echoOf w t then (s1, true) else (modWk s1 fun k => { k with discard := true }, false)
  | _, _ => (s, false)

/-- The ends that CARRY awaits at B and C, taken, once where both name one input (R26); after a discard one ERR follows
(R165). -/
def takeEcho (b c : Port) (s : State) : State :=
  let w := wk s
  let rb := takeEchoAt b w.expectB s
  let rc := if c.k = b.k then rb else takeEchoAt c w.expectC rb.1
  let s1 := modWk rc.1 fun k =>
    { k with expectB := if rb.2 then none else k.expectB, expectC := if rc.2 then none else k.expectC }
  let k := wk s1
  if k.expectB.isNone && k.expectC.isNone && k.discard then
    match enterRound s1 with
    | .ok s2 => emit (modWk s2 fun k => { k with discard := false }) [tagged s2 (errTok s2 1)]
    | .error _ => s
  else s1

/-- CARRY (R224). -/
def execCarry (a b c : BitVec 5) (s : State) : Host.Outcome State Fault Refusal :=
  let pa := portAs 0 a
  let pb := portAs 1 b
  let pc := portAs 2 c
  .next <|
    if canAct s s.cur s.curElem && echoDue s pb pc then takeEcho pb pc s
    else acting s (flowAct [pa, pb] (carryAct pa pb pc)) (flowFire [pa, pb] (carryFire pa pb pc))

/-! ## STEER, MERGE, DUP (R225) -/

/-- STEER (R225). -/
def execSteer (a b : BitVec 5) (z : BitVec 1) (s : State) : Host.Outcome State Fault Refusal :=
  let pa := portAs 0 a
  let pb := portAs 1 b
  .next (acting s (flowAct [pa] fun s => plainAct s [pa, pb] 1 fun _ ty => flowType ty) (flowFire [pa] fun s =>
    let ta := (present s [pa, pb] 1 pa).headD {}
    let tb := (present s [pa, pb] 1 pb).headD {}
    match [ta, tb].find? fun t => decide (t.ty = tyErr) with
    | some e => .ok (passFlowErr e (some ta) (takeAll s [pa, pb] 1))
    | none =>
      let s1 := if ta.whole then takeAll s [pa, pb] 1 else takePort s pa 1
      .ok (if bitOf tb.data 0 = decide (z = 1#1) then passOn ta s1 else afterTok ta s1)))

/-- The data tokens at ports, to be discarded before an end (R165). -/
def dataPorts (s : State) (ps : List Port) : List Port := (owners ps).filter fun p => hasData s p && !holds s p

/-- What MERGE does: C selects the port that fires; where the selected port presents an end, C is discarded up to its own
(R165); where C presents an end, A, B and C agree. -/
def mergeAct (a b c : Port) (s : State) : Act :=
  preAct s [a, b, c] (fun _ ty => flowType ty) <|
    if (wk s).discard && !(dataPorts s [a, b, c]).isEmpty then .drop (dataPorts s [a, b, c])
    else
      match headIn [a, b, c] s c with
      | none => .idle
      | some t =>
        if t.ty = tyErr then .fire
        else if t.ty = tyEos ∨ t.ty = tyTag then agree s [a, b, c] 1
        else
          let p := if bitOf t.data 0 then b else a
          match headIn [a, b, c] s p with
          | none => .idle
          | some x => if x.ty = tyEos ∨ x.ty = tyTag then (if holds s (ownerOf [a, b, c] c) then agree s [a, b, c] 1 else .drop [c]) else .fire

/-- MERGE (R225). -/
def execMerge (a b c : BitVec 5) (s : State) : Host.Outcome State Fault Refusal :=
  let pa := portAs 0 a
  let pb := portAs 1 b
  let pc := portAs 2 c
  .next (acting s (flowAct [pa, pb] (mergeAct pa pb pc)) (flowFire [pa, pb] fun s =>
    let ps := [pa, pb, pc]
    let tc := (headIn ps s pc).getD {}
    if tc.ty = tyErr then .ok (passErr (takeSome s ps [pc] 1) tc)
    else
      let p := if bitOf tc.data 0 then pb else pa
      let t := (headIn ps s p).getD {}
      let s2 := takeSome s ps (if t.whole then [p, pc] else [p]) 1
      .ok (if t.ty = tyErr then passFlowErr t (some t) s2 else passOn t s2)))

/-- DUP (R225): a value group is gathered, and then emitted as a whole. -/
def execDup (a : BitVec 5) (s : State) : Host.Outcome State Fault Refusal :=
  let p := portAs 0 a
  .next (acting s (flowAct [p] fun s => plainAct s [p] 1 fun _ ty => flowType ty) (flowFire [p] fun s => do
    let t := (headOf s p).getD {}
    let n := (slot s 0).toNat
    needE (decide (1 ≤ n ∧ n < 65536)) (badArg 0 t)
    let s1 := takePort s p 1
    if t.ty = tyErr then
      let open_ := !(wk s1).got.isEmpty
      .ok (modWk (passErr s1 t) fun w => { w with got := [], dropGrp := open_ })
    else
      let g := (wk s1).got ++ [t]
      .ok (if t.whole then
        afterTok t (modWk (emit s1 ((List.replicate n (g.map (maskedTok s1))).flatten)) fun w => { w with got := [] })
      else modWk s1 fun w => { w with got := g, seq := t.seq.toNat })))

/-! ## EOSGEN (R225) -/

/-- Slot 0 of EOSGEN: the count and the rank. -/
def eosArgs (s : State) (t : Token) : Except Halt (Nat × BitVec 2) := do
  let v := slot s 0
  needE (decide (v.toNat < 2 ^ 26 ∧ 1 ≤ field v 23 0 ∧ field v 25 24 ≤ 2)) (badArg 0 t)
  .ok (field v 23 0, BitVec.ofNat 2 (field v 25 24))

/-- What EOSGEN does: the EOS that it holds goes out once the next token stands at A, with that token where it is one. -/
def eosgenAct (p : Port) (s : State) : Act :=
  preAct s [p] (fun _ ty => flowType ty) <|
    match (wk s).heldEos with
    | none => agree s [p] 1
    | some r =>
      match agree s [p] 1 with
      | .eos k => .eos (max k r.toNat)
      | .idle => .idle
      | _ => .eos r.toNat

/-- EOSGEN (R225). -/
def execEosgen (a : BitVec 5) (g : BitVec 1) (s : State) : Host.Outcome State Fault Refusal :=
  let p := portAs 0 a
  .next (acting s (flowAct [p] (eosgenAct p)) (flowFire [p] fun s => do
    let t := (headOf s p).getD {}
    let (n, r) ← eosArgs s t
    let s1 := takePort s p 1
    if t.ty = tyErr then .ok (passFlowErr t (some t) s1)
    else
      let s2 := passOn t s1
      let counts := (decide (t.ty = tyData) && (t.gend || decide (g = 0#1))) || (t.isFlit && t.whole)
      let k := (wk s2).count + 1
      .ok (if !counts then s2
           else if n ≤ k then modWk s2 fun w => { w with count := 0, heldEos := some r }
           else modWk s2 fun w => { w with count := k })))

/-! ## SINK (R226, R373) -/

/-- Bytes written to host memory. -/
def wrHost (m : List Host.Cell) (a : Nat) : List Byte → List Host.Cell
  | [] => m
  | b :: l => wrHost (wrCell m a b) (a + 1) l

/-- The endpoint that slot 0 names, bound to the job of the slot (R226, R227). -/
def ownEndpoint (s : State) (v : Word) (t : Token) : Except Halt Nat := do
  let job := ((elemLaunch s).map (·.job)).getD 0
  let p := endpointAt s v.toNat
  needE (decide (v.toNat < 32) && p.bound && decide (p.job = job)) (badArg 0 t)
  .ok v.toNat

/-- A token written to the egress range of an endpoint. -/
def egressWrite (s : State) (ep : Nat) (t : Token) : Except Halt State := do
  let p := endpointAt s ep
  needE (!p.frozen) .wait
  needE (decide (p.egrcnt + 64 ≤ p.extent)) (.freeze 3 0x18 ep (BitVec.ofNat 64 p.egrcnt) t)
  .ok (setEndpoint { s with hostMem := wrHost s.hostMem (p.egress + p.egrcnt) (toBytes 64 t.data.toNat) } ep
    { p with egrcnt := p.egrcnt + 64 })

/-- The completion write of an endpoint (R373); it waits while the endpoint is frozen (R379). -/
def postCompletion (s : State) (ep : Nat) : Except Halt State := do
  let p := endpointAt s ep
  needE (!p.frozen) .wait
  .ok { s with hostMem := wrHost s.hostMem p.compl (toBytes 8 p.egrcnt) }

/-- SINK (R226). -/
def execSink (a : BitVec 5) (e : BitVec 1) (s : State) : Host.Outcome State Fault Refusal :=
  let p := portAs 0 a
  .next (acting s (fun s => plainAct s [p] 1 fun _ ty => flowType ty) fun s => do
    let t := (headOf s p).getD {}
    if t.ty = tyErr then .ok (passErr (takePort s p 1) t)
    else if e = 1#1 ∧ t.ty = tyData then do
      let ep ← ownEndpoint s (slot s 0) t
      let s1 ← egressWrite s ep t
      .ok (takePort s1 p 1)
    else .ok (takePort s p 1))

/-! ## EMIT (R227) -/

/-- A source whose stream waits for its next token: while the launch is saving, the TAG that is due leaves (R398). -/
def waitingSource (s : State) (x : Stream) : Act := if savingSlot s s.cur && x.tagDue then .round x.tag else .idle

/-- A DATA token of EMIT. -/
def emitItem (s : State) (v : Nat) : State :=
  let k := ((el s).stream.map (·.emitted)).getD 0
  emitStream s { ty := tyData, data := BitVec.ofNat 512 v, seq := BitVec.ofNat 12 k, gend := true }

/-- The command of STRM.TOK at the head of the queue. -/
def tokHead (s : State) : Option (Word × Option (BitVec 2) × Option Stream) :=
  match (el s).cmds with
  | .tok v k str :: _ => some (v, k, str)
  | _ => none

/-- The command at the head of the queue taken, with the stream that it starts. -/
def takeTok (s : State) : State :=
  modEl s fun x =>
    match x.cmds with
    | .tok v k str :: l =>
      let y := tookCommand { x with cmds := l } (.tok v k str)
      { y with stream := str.or y.stream }
    | _ => x

/-- What EMIT does in TOK mode. -/
def emitTokAct (s : State) : Act :=
  match tokHead s, (el s).stream with
  | some (_, none, _), x => (match x with | some x => if x.tagDue then .round x.tag else .fire | none => .fire)
  | some (_, some r, str), x =>
    (match str.or x with
     | some x => if r = 0#2 && x.tagDue then .round x.tag else .eos r.toNat
     | none => .eos r.toNat)
  | none, some x => waitingSource s x
  | none, none => idleSource s

/-- EMIT in TOK mode (R227). -/
def execEmitTok (s : State) : Host.Outcome State Fault Refusal :=
  .next (acting s emitTokAct fun s =>
    match tokHead s with
    | some (v, none, _) => .ok (emitItem (takeTok s) v.toNat)
    | _ => .ok s)

/-- EMIT in IOTA mode (R227). -/
def execEmitIota (s : State) : Host.Outcome State Fault Refusal :=
  .next (acting s (fun s =>
      match (el s).stream with
      | none => idleSource s
      | some x => streamAct x (decide (x.emitted < x.count)))
    fun s0 =>
      let s := if ((el s0).stream.map (·.started)).getD true then s0 else startStream s0
      match (el s).stream with
      | some x =>
        if x.emitted < x.count then
          .ok (emitItem s ((streamArg s 0 + BitVec.ofNat 64 x.emitted * streamArg s 1).toNat))
        else .ok s
      | none => .ok s)

/-- The token that the host has queued for the stream of an endpoint (R372). -/
def ingressHead (s : State) (ep : Nat) : Option Token :=
  let p := endpointAt s ep
  if p.isOpen then p.ingress.head? else none

/-- The host's token taken, and kept for a replay (R256); an EOS of rank 2 or higher ends the host's stream. -/
def takeIngress (s : State) (ep : Nat) : State :=
  match ingressHead s ep with
  | none => s
  | some t =>
    let p := endpointAt s ep
    modEl (setEndpoint s ep { p with ingress := p.ingress.drop 1, isOpen := !t.eosAtLeast 2 })
      fun x => { x with shadows := x.shadows.map fun h => { h with ingress := h.ingress ++ [(ep, t)] } }

/-- Whether an ING stream has emitted its count. -/
def Stream.counted (x : Stream) : Bool := decide (x.count ≠ 0) && decide (x.count ≤ x.emitted)

/-- What EMIT does in ING mode. -/
def emitIngAct (s : State) : Act :=
  match (el s).stream with
  | none => idleSource s
  | some x =>
    if !x.started then .fire
    else if x.counted then .eos x.rank.toNat
    else
      match ingressHead s (streamArg s 0).toNat with
      | none => waitingSource s x
      | some t => if t.ty = tyEos then .eos (max t.rank.toNat x.rank.toNat) else if x.tagDue then .round x.tag else .fire

/-- EMIT in ING mode (R227). -/
def execEmitIng (s : State) : Host.Outcome State Fault Refusal :=
  .next (acting s emitIngAct fun s0 => do
    if ((el s0).stream.map (·.started)).getD true then
      let ep ← ownEndpoint s0 (streamArg s0 0) {}
      match ingressHead s0 ep with
      | some t => .ok (emitItem (takeIngress s0 ep) t.data.toNat)
      | none => .ok s0
    else
      let s := startStream s0
      let _ ← ownEndpoint s (streamArg s 0) {}
      .ok s)

/-! ## TAGOP (R228) -/

/-- A token as TAGOP leaves it. -/
def tagopTok (s : State) (op : Nat) (t : Token) : Token :=
  match op with
  | 0 => { t with ltag := (slot s 0).setWidth 5 }
  | 1 => if t.ty = tyData then { t with ty := tyCtok, band := 0#16 } else t
  | _ => { t with ltag := 0#5 }

/-- A firing of TAGOP. -/
def tagopFire (op : Nat) (p : Port) (s : State) : Except Halt State := do
  let t := (headOf s p).getD {}
  needE (decide (op ≠ 0 ∨ (slot s 0).toNat < 32)) (badArg 0 t)
  let s1 := takePort s p 1
  let t' := tagopTok s op t
  .ok (if t.ty = tyErr then passFlowErr t' (some t) s1 else passOn t' s1)

/-- What TAGOP does. -/
def tagopAct (p : Port) : State → Act := flowAct [p] fun s => plainAct s [p] 1 fun _ ty => flowType ty

/-- TAGOP SET (R228). -/
def execTagopSet (a : BitVec 5) (s : State) : Host.Outcome State Fault Refusal :=
  let p := portAs 0 a
  .next (acting s (tagopAct p) (flowFire [p] (tagopFire 0 p)))

/-- TAGOP CTOK (R228). -/
def execTagopCtok (a : BitVec 5) (s : State) : Host.Outcome State Fault Refusal :=
  let p := portAs 0 a
  .next (acting s (tagopAct p) (flowFire [p] (tagopFire 1 p)))

/-- TAGOP CLEAR (R228). -/
def execTagopClear (a : BitVec 5) (s : State) : Host.Outcome State Fault Refusal :=
  let p := portAs 0 a
  .next (acting s (tagopAct p) (flowFire [p] (tagopFire 2 p)))

/-- The loop tag with which a flow element passes a TAG or an EOS on (R222, R224, R228). -/
def endLtag (s : State) (t : Token) : BitVec 5 :=
  let w := ew s
  if eopOf w = 0x79 then (slot s 0).setWidth 5
  else if eopOf w = 0x81 ∧ t.ty = tyTag then (tagopTok s (field w 1 0) t).ltag
  else if 0x78 ≤ eopOf w ∧ eopOf w ≤ 0x81 then t.ltag
  else 0#5

end Sys2Proof.Machine
end

