-- ==== Sys2Proof/Machine/Route.lean ====
section
/-!
DEFINITION. Routes (R32, R157 to R160, R229, R230): where a switch input gets its tokens, where a switch output sends them,
and the four modes. A route moves one token in one step.
-/

namespace Sys2Proof.Machine

open Sys2Proof

/-! ## Where tokens come from and go to -/

/-- The element whose tokens stand at switch input 8 + m of a slot (R157). -/
def inElem (s : State) (u m : Nat) : Option Nat := [m, m + 8, m + 16].find? fun e => !(elemAt s u e).out.isEmpty

/-- The token at a switch input, with the round in which it lies, and whether it comes from XL. -/
def inputHead (s : State) (u inp : Nat) : Option (Token × Nat × Bool) :=
  if inp < 8 then
    let f := fifoAt s (meshNo u inp)
    f.q.head?.map fun t => (t, f.round, false)
  else
    match inElem s u (inp - 8) with
    | none => none
    | some e =>
      let x := elemAt s u e
      let n := boundaries x.out
      let top := if x.fin && decide (0 < n) then x.round + 1 else x.round
      x.out.head?.map fun t => (t, top - n, decide (e = 16))

/-- The token at a switch input taken. -/
def takeInput (s : State) (u inp : Nat) : State :=
  if inp < 8 then setFifo s (meshNo u inp) (popFifo (fifoAt s (meshNo u inp)))
  else
    match inElem s u (inp - 8) with
    | none => s
    | some e => let x := elemAt s u e
                setElem s u e { x with out := x.out.drop 1 }

/-- A token noted as having moved on a channel of the slot of a FIFO (R265). -/
def noteMove (s : State) (f : Nat) : State := { s with movers := ninsert s.movers (f / 256) }

/-- A token put into FIFOs. -/
def sendTo (s : State) (fs : List Nat) (t : Token) : State :=
  fs.foldl (fun s f => noteMove (setFifo s f (pushFifo (fifoAt s f) t)) f) s

/-! ## The state of a route -/

/-- The state of the route to an output. -/
def routeAt (s : State) (u out : Nat) : RouteState := (mget (bankAt s u).routes out).getD {}
/-- The state of the route to an output, written. -/
def setRoute (s : State) (u out : Nat) (r : RouteState) : State :=
  let b := bankAt s u
  setBank s u { b with routes := mset b.routes out r }

/-- What a route notes of a token that passes it (R112, R399). -/
def RouteState.pass (r : RouteState) (t : Token) (n : Nat) : RouteState :=
  { r with last := n, ended := if t.ty = tyCfg then r.ended else t.eosAtLeast 2, saved := r.saved || decide (t.ty = tyMrk) }

/-- Whether the route to an output may move a token: its unit is not frozen, no MRK has passed, and its pending word does
not take over first (R112, R379, R399). -/
def canRoute (s : State) (u out : Nat) : Bool :=
  let b := bankAt s u
  let r := routeAt s u out
  decide ((unitAt s u).st ≠ .frozen) && !r.saved && !(b.pending.isSome && b.oldOuts.contains out && r.ended)

/-- A token as it crosses a switch from an input to an output: `viaXl` marks one that comes straight from XL (R205). -/
def crossing (t : Token) (xl : Bool) (out : Nat) : Token := { t with viaXl := xl && decide (8 ≤ out) }

/-! ## The modes (R229) -/

/-- One token moved from an input to outputs: it crosses when every FIFO that it reaches has credit. -/
def crossTo (s : State) (u inp : Nat) (outs : List Nat) : State :=
  if !outs.all (canRoute s u) then s
  else
    match inputHead s u inp with
    | none => s
    | some (t, n, xl) =>
      if !allCredit s (outs.flatMap (outFifos s u)) then s
      else
        let s1 := takeInput s u inp
        outs.foldl (fun s o => sendTo (setRoute s u o ((routeAt s u o).pass t n)) (outFifos s u o) (crossing t xl o)) s1

/-- A hold route with a token at its input, at the start of what it holds: a first token or flit is kept, an EOS of rank 1 or
higher ends the hold, an ERR the group that has not all come, and a token of another type passes. Data behind a held token
waits. -/
def holdPass (r : RouteState) (t : Token) (n : Nat) : Option RouteState :=
  let data := decide (t.ty = tyData) || t.isFlit
  if data then
    if r.full then none
    else some { r with held := r.held ++ [t], full := t.whole, round := if r.held.isEmpty then n else r.round }
  else if t.eosAtLeast 1 ∨ (t.ty = tyErr ∧ !r.full) then some { r with held := [], full := false, pos := 0 }
  else some r

/-- One step of a hold route (R229). -/
def holdStep (s : State) (u inp out : Nat) : State :=
  let r := routeAt s u out
  let fs := outFifos s u out
  if !canRoute s u out || !allCredit s fs then s
  else
    let next := if r.pos ≠ 0 then none else (inputHead s u inp).bind fun h =>
      let t := crossing h.1 h.2.2 out
      (holdPass r t h.2.1).map fun r' => (t, r'.pass t h.2.1)
    match next with
    | some (t, r') => sendTo (setRoute (takeInput s u inp) u out r') fs t
    | none =>
      match r.full, r.held[r.pos]? with
      | true, some t =>
        let p := if r.pos + 1 < r.held.length then r.pos + 1 else 0
        sendTo (setRoute s u out { r with pos := p, ended := false }) fs t
      | _, _ => s

/-- Whether an S-word is of the context of the slot whose route moves (R158). -/
def ownContext (s : State) (c : BitVec 2) : Bool := decide (c.toNat = imageCtx s s.cur)

/-- A pass route (R229). -/
def execRoutePass (off imm : BitVec 4) (c : BitVec 2) (s : State) : Host.Outcome State Fault Refusal :=
  .next (if ownContext s c then crossTo s s.cur imm.toNat [off.toNat] else s)

/-- A hold route (R229). -/
def execRouteHold (off imm : BitVec 4) (c : BitVec 2) (s : State) : Host.Outcome State Fault Refusal :=
  .next (if ownContext s c then holdStep s s.cur imm.toNat off.toNat else s)

/-- The outputs of the fan-out of an input, in the order of the S-words. DEDUCED (log entry 59). -/
def fanOuts (s : State) (u inp : Nat) : List Nat :=
  ((bankAt s u).words.swords.filter fun w => decide ((fSi w).toNat = inp) && decide (sMode w = 2)).map fun w => (fSo w).toNat

/-- A fan-out route (R229): the first S-word of its input moves the token to every output. -/
def execRouteFanout (off imm : BitVec 4) (c : BitVec 2) (s : State) : Host.Outcome State Fault Refusal :=
  let outs := fanOuts s s.cur imm.toNat
  .next (if ownContext s c && decide (outs.head? = some off.toNat) then crossTo s s.cur imm.toNat outs else s)

/-- A seam route (R229, R248): its register stands in the sending tile, and costs time alone. -/
def execRouteSeam (off imm : BitVec 4) (c : BitVec 2) (s : State) : Host.Outcome State Fault Refusal :=
  .next (if ownContext s c then crossTo s s.cur imm.toNat [off.toNat] else s)

end Sys2Proof.Machine
end

