-- ==== Sys2Proof/Machine/Sieve.lean ====
section
/-!
DEFINITION. The translation operator (R216, R217) and the Sieve (R218 to R221).
-/

namespace Sys2Proof.Machine

open Sys2Proof

/-! ## XLATE (R216, R217) -/

/-- The access that XLATE checks, by mode<2:1>. -/
def xlateKind (k : BitVec 2) : Access := if k = 0#2 then .read else if k = 1#2 then .write else .atomic

/-- A translation used: it becomes the current one, and the last used of the eight of the micro-cache. -/
def useXlation (x : Xlation) (s : State) : State :=
  modEl s fun e => { e with xlcur := some x, xlmicro := (x :: e.xlmicro.filter fun y => decide (y ≠ x)).take 8 }

/-- An address translated by XL (R216): through the current translation, the micro-cache or the page walker. Windows are
translated by no table and are not cached (R291). -/
def xlateXl (s : State) (k : Access) (newpg : Bool) (va : Word) : Except XFail XOk × State :=
  let q := elemRequester s
  if !canonical va then (.error (.cause 5#8 0#8), s)
  else if inWindow va then (windowXlate q.lch q.tile k va, s)
  else
    let x := el s
    let cur := x.xlcur.filter fun y => !newpg && y.covers q.job va
    match cur.or (x.xlmicro.find? fun y => y.covers q.job va) with
    | some y => (y.apply k va >>= frameCheck s q.job k, useXlation y s)
    | none =>
      let pg := pageOfTile q.tile
      let w := walkJob s pg q.job k va
      let s1 := afterWalk s pg q.tile q.job va w
      match w.res with
      | .error e => (.error e, s1)
      | .ok y => (frameCheck s q.job k y, useXlation (y.hold q.job q.who va) s1)

/-- An address token with its physical address (R204, R216): NEWPG and the coordinates stay, the reserved bits are zero. -/
def physToken (t : Token) (x : XOk) : Token :=
  { t with
    data := BitVec.ofNat 512 (field t.data 191 96 * 2 ^ 96 + field t.data 67 67 * 2 ^ 67 + x.tsz * 2 ^ 65 + 2 ^ 64 + x.pa)
    xva := some (t.data.setWidth 64)
    stale := false }

/-- The ERR that carries a failed translation under FT = 1 (R217). -/
def xlateErr (s : State) (t : Token) (cause : Nat) : Token :=
  { ty := tyErr, data := BitVec.ofNat 512 ((errData s.cur s.curElem 6).toNat + cause * 2 ^ 24 + (t.data.toNat % 2 ^ 64) * 2 ^ 64),
    seq := t.seq, gend := t.gend }

/-- A firing of XLATE. -/
def xlateFire (p : Port) (k : Access) (ft : Bool) (s : State) : Except Halt State :=
  let t := (present s [p] 1 p).headD {}
  let va : Word := t.data.setWidth 64
  if t.ty = tyErr then .ok (passErr (takePort s p 1) t)
  else
    match xlateXl s k (bitOf t.data 67) va with
    | (.ok x, s1) => .ok (emit (takePort s1 p 1) [physToken t x])
    | (.error .violation, s1) => .error (.violation s1 va)
    | (.error (.cause c d), s1) =>
      if ft then .ok (emit (takePort s1 p 1) [xlateErr s t c.toNat]) else .error (.faulted s1 0 c.toNat d.toNat va t)

/-- XLATE (R216). -/
def execXlate (a : BitVec 5) (k : BitVec 2) (f : BitVec 1) (s : State) : Host.Outcome State Fault Refusal :=
  let p := portAs 0 a
  .next (acting s (fun s => plainAct s [p] 1 onlyData) (xlateFire p (xlateKind k) (decide (f = 1#1))))

/-! ## Entries (R218) -/

/-- An element format of the Sieve: its width in bits, and the bits of −0 where it is a floating format. -/
structure SieveFmt where
  w : Nat
  neg0 : Option Nat
deriving DecidableEq, Repr

/-- The format of a fmt code and integer type bits. -/
def sieveFmt (f t : BitVec 3) : SieveFmt :=
  { w := 8 * elemBytes f.toNat t.toNat, neg0 := if f.toNat < 6 then some (fmtOf f.toNat).signBit else none }

/-- Lanes of a dense token. -/
def SieveFmt.lanes (f : SieveFmt) : Nat := 512 / f.w
/-- Bits of an entry. -/
def SieveFmt.entryBits (f : SieveFmt) : Nat := if f.w = 64 then 128 else 64
/-- Entries of a token. -/
def SieveFmt.entries (f : SieveFmt) : Nat := 512 / f.entryBits

/-- An entry with V = 1. -/
def SieveFmt.pack (f : SieveFmt) (e : Nat × Nat) : Nat :=
  2 ^ (f.entryBits - 1) + e.1 * 2 ^ (f.entryBits / 2) + e.2

/-- The entry that bits hold, none where V = 0. -/
def SieveFmt.unpack (f : SieveFmt) (x : Nat) : Option (Nat × Nat) :=
  if x / 2 ^ (f.entryBits - 1) % 2 = 1 then some (x / 2 ^ (f.entryBits / 2) % 2 ^ 24, x % 2 ^ f.w) else none

/-! ## SIEVE (R219) -/

/-- The first element of an episode that is too long (R219). -/
def sieveMax : Nat := 2 ^ 24 - 1

/-- Entries of the list emitted as tokens while a token is full; at an EOS the rest as a partial token. -/
def sendEntries (f : SieveFmt) (eos : Bool) : Nat → State → State
  | 0, s => s
  | n + 1, s =>
    let l := (wk s).keys
    if f.entries ≤ l.length ∨ (eos ∧ l ≠ []) then
      let q := nextSeq (modWk s fun w => { w with keys := l.drop f.entries })
      let tok : Token :=
        { ty := tyData, data := BitVec.ofNat 512 (joinLanes f.entryBits ((l.take f.entries).map f.pack)), seq := q.1,
          gend := decide (l.length < f.entries) }
      sendEntries f eos n (emit q.2 [tok])
    else s

/-- The elements of a dense token that an episode keeps, with their coordinates. -/
def keptLanes (f : SieveFmt) (nz : Bool) (pos v : Nat) : List (Nat × Nat) :=
  ((splitLanes f.w f.lanes v).zip (List.range f.lanes)).filterMap fun p =>
    if p.1 = 0 ∨ (nz ∧ f.neg0 = some p.1) ∨ sieveMax ≤ pos + p.2 then none else some (pos + p.2, p.1)

/-- A dense token at SIEVE: its elements kept, and an ERR where the episode becomes too long. The count of elements goes on
past the limit, so that one ERR is emitted. -/
def sieveBody (f : SieveFmt) (nz : Bool) (v : Nat) (s : State) : State :=
  let pos := (wk s).count
  let s1 := modWk s fun w => { w with keys := w.keys ++ keptLanes f nz pos v, count := min (pos + f.lanes) (2 ^ 25) }
  let s2 := sendEntries f false f.lanes s1
  if pos ≤ sieveMax ∧ sieveMax < pos + f.lanes then emit s2 [errTok s2 5] else s2

/-- SIEVE (R219). -/
def execSieve (a : BitVec 5) (f t : BitVec 3) (n : BitVec 1) (s : State) : Host.Outcome State Fault Refusal :=
  let p := portAs 0 a
  let g := sieveFmt f t
  .next (acting s (fun s => plainAct s [p] 1 onlyData) fun s =>
    let x := (present s [p] 1 p).headD {}
    let s1 := takePort s p 1
    .ok (if x.ty = tyErr then passErr (modWk s1 fun w => { w with count := min (w.count + g.lanes) (2 ^ 25) }) x
         else sieveBody g (decide (n = 1#1)) x.data.toNat s1))

/-- SIEVE at an EOS (R219). -/
def flushSieve (f t : BitVec 3) (s : State) : State :=
  modWk (sendEntries (sieveFmt f t) true 1 s) fun w => { w with keys := [], count := 0 }

/-! ## UNSIEVE (R220) -/

/-- Slot 0 of UNSIEVE: the length of the episode. -/
def episodeLen (s : State) (t : Token) : Except Halt Nat := do
  let n := (slot s 0).toNat
  needE (decide (1 ≤ n ∧ n < 2 ^ 24)) (badArg 0 t)
  .ok n

/-- The next dense token emitted, from the entries that lie in it. -/
def sendDense (f : SieveFmt) (n : Nat) (s : State) : State :=
  let k := (wk s).count
  let lo := f.lanes * k
  let mine := (wk s).keys.filter fun e => decide (e.1 < lo + f.lanes)
  let v := mine.foldl (fun v e => v + e.2 * 2 ^ (f.w * (e.1 - lo))) 0
  let s1 := modWk s fun w => { w with keys := w.keys.filter fun e => decide (lo + f.lanes ≤ e.1), count := k + 1 }
  let q := nextSeq s1
  emit q.2 [{ ty := tyData, data := BitVec.ofNat 512 v, seq := q.1, gend := decide (n ≤ lo + f.lanes) }]

/-- Dense tokens emitted until k of them have been. -/
def sendDenseTo (f : SieveFmt) (n : Nat) : Nat → Nat → State → State
  | 0, _, s => s
  | m + 1, k, s => if (wk s).count < k then sendDenseTo f n m k (sendDense f n s) else s

/-- One entry of a token at UNSIEVE. -/
def takeEntry (f : SieveFmt) (n : Nat) (s : State) (e : Nat × Nat) : State :=
  if (wk s).last.any fun l => decide (e.1 ≤ l) then emit s [errTok s 5]
  else if n ≤ e.1 then emit s [errTok s 2]
  else
    let s1 := modWk s fun w => { w with keys := w.keys ++ [e], last := some e.1 }
    sendDenseTo f n (e.1 / f.lanes) (e.1 / f.lanes) s1

/-- UNSIEVE (R220). -/
def execUnsieve (a : BitVec 5) (f t : BitVec 3) (_n : BitVec 1) (s : State) : Host.Outcome State Fault Refusal :=
  let p := portAs 0 a
  let g := sieveFmt f t
  .next (acting s (fun s => plainAct s [p] 1 onlyData) fun s => do
    let x := (present s [p] 1 p).headD {}
    if x.ty = tyErr then .ok (passErr (takePort s p 1) x)
    else do
      let n ← episodeLen s x
      .ok (((splitLanes g.entryBits g.entries x.data.toNat).filterMap g.unpack).foldl (takeEntry g n) (takePort s p 1)))

/-- UNSIEVE at an EOS (R220): the rest of the episode. -/
def flushUnsieve (f t : BitVec 3) (s : State) : Except Halt State := do
  let g := sieveFmt f t
  let n ← episodeLen s {}
  let k := (n + g.lanes - 1) / g.lanes
  .ok (modWk (sendDenseTo g n k k s) fun w => { w with keys := [], count := 0, last := none })

end Sys2Proof.Machine
end

