-- ==== Sys2Proof/Machine/Boundary.lean ====
section
/-!
DEFINITION. What an element does besides the firings of its operation: the EOS step (R164), the round step (R254), the save
of a pre-emption (R399), and the takeover of a pending word (R112, R113).
-/

namespace Sys2Proof.Machine

open Sys2Proof

/-! ## What the element that acts does next -/

/-- The product operation of an E-word. -/
def maWordOf (w : BitVec 32) : MaWord :=
  let lf := laneFmt (w.extractLsb' 6 3) (mFlags w)
  let op : MaOp := match eopOf w with | 0x40 => .mma | 0x41 => .mmas | 0x42 => .mmac | _ => .mspm
  { op := op, lf := lf, ab := portsOf (w &&& 0xFFFFC1FF#32) |>.filter (fun p => decide (p.n < 2)), c := fEc w }

/-- The ports at which the element that acts takes an EOS or a TAG. -/
def endPorts (s : State) : List Port :=
  let w := ew s
  match eopOf w with
  | 0x40 | 0x41 | 0x42 | 0x47 => (maWordOf w).ab ++ ((maWordOf w).cPort s).toList
  | 0x64 => mamoPorts (fEa w) (fEb w) (fEc w) s
  | 0x79 => if (wk s).looping then [portAs 1 (fEb w), portAs 2 (fEc w)] else [portAs 0 (fEa w)]
  | _ => portsOf w

/-- What EMIT does, by its mode (R227). -/
def emitAct (w : BitVec 32) (s : State) : Act :=
  match (mFlags w).toNat % 4 with
  | 0 => emitTokAct s
  | 1 => match (el s).stream with
    | none => idleSource s
    | some x => streamAct x (decide (x.emitted < x.count))
  | _ => emitIngAct s

/-- What the element that acts does next, by its E-word (R161, R164, R254, R399). -/
def elemAct (s : State) : Act :=
  let w := ew s
  let ps := portsOf w
  let a := portAs 0 (fEa w)
  let b := portAs 1 (fEb w)
  let c := portAs 2 (fEc w)
  let k := eopOf w
  if k = 0 then .idle
  else if k = 0x10 then ow2dAct ps s
  else if k ≤ 0x12 then onlineAct ps s
  else if k = 0x2C then plainAct s ps (cvtSize s) onlyData
  else if k ≤ 0x34 then plainAct s ps (tokensOf (laneFmt (w.extractLsb' 6 3) (mFlags w)).width) onlyData
  else
    match k with
    | 0x42 => chainAct (maWordOf w) s
    | 0x40 | 0x41 | 0x47 => productAct (maWordOf w) s
    | 0x43 => preAct s [a] (fun _ ty => maTakes 2 ty) (agree s [a] 1)
    | 0x52 => sjoinAct a b s
    | 0x64 => plainAct s (mamoPorts (fEa w) (fEb w) (fEc w) s) 1 onlyData
    | 0x68 => match (el s).stream with
      | none => idleSource s
      | some x => streamAct x (decide (x.emitted < affTotal s x))
    | 0x69 => agxAct [a] s
    | 0x6A => walkAct s
    | 0x78 => flowAct [a] (if bitOf w 0 then counterAct a else gateAct a b) s
    | 0x79 => flowAct [a, b] (carryAct a b c) s
    | 0x7A => flowAct [a] (fun s => plainAct s [a, b] 1 fun _ ty => flowType ty) s
    | 0x7B => flowAct [a, b] (mergeAct a b c) s
    | 0x7C => flowAct [a] (fun s => plainAct s [a] 1 fun _ ty => flowType ty) s
    | 0x7D => flowAct [a] (eosgenAct a) s
    | 0x7F => plainAct s [a] 1 fun _ ty => flowType ty
    | 0x80 => emitAct w s
    | 0x81 => tagopAct a s
    | _ => plainAct s ps 1 onlyData

/-! ## Ends taken (R164, R254) -/

/-- The end that the converter has passed to MMAC, taken (R239). -/
def takeChainEnd (s : State) : State :=
  if eopOf (ew s) = 0x42 then
    match (intake s).chain with
    | t :: l => if t.ty = tyEos ∨ t.ty = tyTag then modIntake s fun i => { i with chain := l } else s
    | [] => s
  else s

/-- A port at an EOS step: its EOS is consumed, and what it holds released as R164 says. -/
def takeEos (s : State) (p : Port) : State :=
  let f := portFifo s p
  let r := match f.q.head? with
    | some t => if t.ty = tyEos then some t.rank.toNat else none
    | none => none
  let s1 := if r.isSome then setPortFifo s p (popFifo f) else s
  match heldAt s1 p with
  | some h => if h.till && !(r.any fun k => decide (1 ≤ k)) then s1 else setHeld s1 p none
  | none => s1

/-- A port at a round step: its TAG is consumed. -/
def takeTag (s : State) (p : Port) : State :=
  let f := portFifo s p
  if f.q.head?.any fun t => decide (t.ty = tyTag) then setPortFifo s p (popFifo f) else s

/-- The first end token that ports present: its loop tag goes on with what the element forwards. -/
def endTok (s : State) (ps : List Port) : Token :=
  (ps.findSome? fun p => (portFifo s p).q.head?.filter fun t => decide (t.ty = tyEos) || decide (t.ty = tyTag)).getD {}

/-- The one ERR of a mismatch, where one is due (R165); CARRY takes any end of its loop for one (R224). -/
def sendMismatch (s : State) : State :=
  let loop := decide (eopOf (ew s) = 0x79) && (wk s).looping
  if (wk s).discard || loop then
    let e := errTok s 1
    modWk (passErr s { e with ltag := endLtag s e }) fun w => { w with discard := false, looping := false }
  else s

/-! ## The EOS step (R164) -/

/-- What an operation emits, converts or clears at an EOS of rank r, ahead of the EOS. -/
def flushAt (r : Nat) (s : State) : Except Halt State :=
  let w := ew s
  let lf := laneFmt (w.extractLsb' 6 3) (mFlags w)
  let rnd := rndOf (mRnd w)
  let f := w.extractLsb' 6 3
  match eopOf w with
  | 0x12 => .ok (flushAcc (precOf (w.extractLsb' 4 5) + 2) s)
  | 0x2C => .ok (flushCvt lf rnd (bitOf w 0) s)
  | 0x33 => .ok (flushVmac lf s)
  | 0x40 | 0x41 | 0x42 | 0x43 | 0x44 | 0x45 | 0x47 => .ok (endArray r s)
  | 0x46 => flushMcx lf s
  | 0x50 => flushCvdn f (w.extractLsb' 0 1) r s
  | 0x60 => .ok (flushPack (portForm f 0#3).w s)
  | 0x61 => .ok (modWk s fun k => { k with count := 0 })
  | 0x6A => .ok (modWk s fun k => { k with walk := [], got := [] })
  | 0x72 => .ok (flushSieve f (w.extractLsb' 1 3) s)
  | 0x73 => flushUnsieve f (w.extractLsb' 1 3) s
  | _ => .ok s

/-- Whether the EOS that EOSGEN emits is its own alone: another token stands at A (R225). -/
def ownEos (s : State) : Bool :=
  decide (eopOf (ew s) = 0x7D) && (wk s).heldEos.isSome &&
    !((headOf s (portAs 0 (fEa (ew s)))).any fun t => decide (t.ty = tyEos))

/-- What an EOS of rank r leaves in the state of the operation itself. -/
def afterEos (r : Nat) (s : State) : State :=
  let w := ew s
  match eopOf w with
  | 0x78 =>
    if bitOf w 0 then
      if 1 ≤ r then modWk s fun k => { k with isOpen := false, target := some (k.target.getD (slot s 1) + slot s 2) } else s
    else modWk s fun k => { k with isOpen := false, openTo := none }
  | 0x79 =>
    if (wk s).looping then s
    else
      let t : Token := { ty := tyEos, rank := BitVec.ofNat 2 r }
      modWk s fun k => { k with expectB := some t, expectC := some t }
  | 0x7D => modWk s fun k => { k with heldEos := none, count := 0 }
  | _ => s

/-- What a source does at its EOS of rank r: the token of STRM.TOK or of the host is taken, and the stream ends (R109,
R227). -/
def endStream (r : Nat) (s : State) : State :=
  let w := ew s
  if !eSource w then s
  else if eopOf w = 0x80 ∧ (mFlags w).toNat % 4 = 0 then
    let s1 := takeTok s
    if 1 ≤ r then modEl s1 fun x => { x with stream := none } else s1
  else
    let host := decide (eopOf w = 0x80) && decide ((mFlags w).toNat % 4 = 2) && !((el s).stream.any Stream.counted)
    let s1 := if host then takeIngress s (streamArg s 0).toNat else s
    modEl s1 fun x => { x with stream := none }

/-- What an EOS of rank r tells of the element: a sink has passed it, and the round and the stream that it ends (R109, R111,
R112, R252). -/
def markEos (r : Nat) (s : State) : State :=
  modEl s fun x =>
    { x with
      passed := if eSink (ew s) then x.passed ++ [(r, some x.round)] else x.passed
      fin := x.fin || decide (1 ≤ r)
      ended := decide (2 ≤ r)
      work := { x.work with eoss := if 1 ≤ r then x.work.eoss + 1 else x.work.eoss } }

/-- What SINK with EGR does at an EOS of rank 2 or higher: it posts the completion of its endpoint, which must be bound to the
job (R226). -/
def sinkEos (r : Nat) (t : Token) (s : State) : Except Halt State :=
  if eopOf (ew s) = 0x7F ∧ bitOf (ew s) 0 ∧ 2 ≤ r then ownEndpoint s (slot s 0) t >>= postCompletion s else .ok s

/-- An EOS step with rank r, as R164 orders it; the ERR of a mismatch goes first (R165). -/
def eosBody (r : Nat) (s0 : State) : Except Halt State := do
  let s ← enterRound s0
  let loop := (wk s).looping
  let s1 ← flushAt r (sendMismatch s)
  let own := ownEos s1
  let ps := if own then [] else owners (endPorts s)
  let t : Token := { ty := tyEos, rank := BitVec.ofNat 2 r, ltag := endLtag s1 (endTok s1 ps) }
  let s2 ← sinkEos r t (takeChainEnd (ps.foldl takeEos s1))
  let s3 := endStream r (if loop then s2 else afterEos r s2)
  .ok (markEos r (if eDrives (ew s) then emit s3 [t] else s3))

/-- EOS_STEP (R164). -/
def execEosStep (u e : Nat) (s0 : State) : Host.Outcome State Fault Refusal :=
  let s := asElem s0 u e
  .next <|
    if !canAct s u e then s
    else
      let s1 := withCommands s
      match elemAct s1 with
      | .eos r => if hasCredit s1 u e then settle s1 (eosBody r s1) else s1
      | _ => s1

/-! ## The round step (R254) -/

/-- What a TAG leaves in the state of the operation: CARRY awaits it from B and C (R224), and a source counts from it
(R252). -/
def afterTag (n : Nat) (s : State) : State :=
  let w := ew s
  if eopOf w = 0x79 then
    let t : Token := { ty := tyTag, data := BitVec.ofNat 512 n }
    modWk s fun k => { k with expectB := some t, expectC := some t }
  else if eSource w then modStream s fun x => { x with tag := x.tag + 1, sinceTag := 0 }
  else s

/-- A source whose launch is saving halts behind the TAG (R398). -/
def markSource (s : State) : State :=
  if eSource (ew s) && savingSlot s s.cur then
    modEl (emit s [{ ty := tyMrk }]) fun x => { x with saved := true, markOut := true }
  else s

/-- A round step on TAGs of number n. -/
def roundBody (n : Nat) (s0 : State) : Except Halt State := do
  let s ← enterRound s0
  needE (mayOpen s n) .wait
  let ps := owners (endPorts s)
  let e := endTok s ps
  let loop := (wk s).looping
  let s1 := sendMismatch s
  let s2 := if eopOf (ew s) = 0x50 then tagCvdn n s1 else s1
  let s3 := openRound (if loop then s2 else afterTag n s2) (n + 1)
  let s4 := takeChainEnd (ps.foldl takeTag s3)
  let t : Token := { ty := tyTag, data := BitVec.ofNat 512 n, ltag := endLtag s4 { e with ty := tyTag } }
  .ok (markSource (if eDrives (ew s) then emit s4 [t] else s4))

/-- ROUND_STEP (R254). -/
def execRoundStep (u e : Nat) (s0 : State) : Host.Outcome State Fault Refusal :=
  let s := asElem s0 u e
  .next <|
    if !canAct s u e then s
    else
      let s1 := withCommands s
      match elemAct s1 with
      | .round n => if hasCredit s1 u e then settle s1 (roundBody n s1) else s1
      | _ => s1

/-! ## The save of a pre-emption (R398, R399) -/

/-- A port at a save: its MRK is consumed. -/
def takeMrk (s : State) (p : Port) : State :=
  let f := portFifo s p
  if f.q.head?.any fun t => decide (t.ty = tyMrk) then setPortFifo s p (popFifo f) else s

/-- ELEMENT_SAVE (R399). -/
def execElementSave (u e : Nat) (s0 : State) : Host.Outcome State Fault Refusal :=
  let s := asElem s0 u e
  .next <|
    if !canAct s u e then s
    else
      match elemAct s with
      | .save =>
        let ps := (owners (portsOf (ew s) ++ endPorts s)).eraseDups
        let s1 := modEl (ps.foldl takeMrk s) fun x => { x with saved := true, markOut := true }
        if eDrives (ew s) then emit s1 [{ ty := tyMrk }] else s1
      | _ => s

/-! ## Pending words (R112, R113) -/

/-- The pending bank of a slot dropped once everything has taken over. DEDUCED (log entry 81). -/
def closePending (s : State) (u : Nat) : State :=
  let b := bankAt s u
  if b.oldElems.isEmpty && b.oldOuts.isEmpty then setBank s u { b with pending := none } else s

/-- The work that persists across a takeover: the argument slots, the current block of the B store (R194), the converter's
status (R200), and the streams counted (R109). -/
def keptWork (w : Work) : Work :=
  { args := w.args, j := w.j, intake := { cur := w.intake.cur }, cvOn := w.cvOn, cvUcnt := w.cvUcnt, cvStep := w.cvStep,
    cvBlk := w.cvBlk, eoss := w.eoss }

/-- Tokens that wait in the output of an element whose port no route reads any more, gone (R113, R161). -/
def dropUnrouted (s : State) (u : Nat) : State :=
  let b := bankAt s u
  { s with elems := s.elems.map fun x =>
      if x.1 / 32 = u ∧ !routedOut b (x.1 % 32) then (x.1, { x.2 with out := [] }) else x }

/-- An element takes over its pending word: one CFG leaves behind the EOS of the old work, ESR is reset, and the new
operation starts with the argument slots and the queue as they stand. -/
def takeoverElem (s0 : State) (u e : Nat) : State :=
  let b := bankAt s0 u
  match b.pending with
  | none => s0
  | some p =>
    if !(takeoverDue s0 u e && (elemAt s0 u e).out.isEmpty) then s0
    else
      let s := asElem s0 u e
      let s1 := if eDrives (ew s) then emit s [{ ty := tyCfg }] else s
      let s2 := modEl s1 fun x =>
        { x with esr := 0#64, ended := false, work := keptWork x.work }
      let b2 := takeElemWord (bankAt s2 u) p e
      closePending (setBank s2 u { b2 with oldElems := b2.oldElems.erase e }) u

/-- A route takes over its pending word: one CFG leaves behind the EOS of the old work. -/
def takeoverRoute (s : State) (u o : Nat) : State :=
  let b := bankAt s u
  match b.pending with
  | none => s
  | some p =>
    let fs := outFifos s u o
    if !(b.oldOuts.contains o && (routeAt s u o).ended && (fs.isEmpty || allCredit s fs)) then s
    else
      let s1 := sendTo s fs { ty := tyCfg }
      let b1 := bankAt s1 u
      let b2 := { b1 with
        words := { b1.words with swords := mergeRoutes b1.words.swords p.swords [o] }
        oldOuts := b1.oldOuts.erase o
        routes := mdel b1.routes o }
      dropUnrouted (closePending (setBank s1 u b2) u) u

/-- PENDING_TAKEOVER (R112, R113): element x of a slot, or the route to output x − 32. -/
def execPendingTakeover (u x : Nat) (s : State) : Host.Outcome State Fault Refusal :=
  .next (if x < 32 then takeoverElem s u x else takeoverRoute s u (x - 32))

end Sys2Proof.Machine
end

