-- ==== Sys2Proof/Machine/Integer.lean ====
section
/-!
DEFINITION. Integer and logic C-words (R58 to R60), immediates and constants (R61 to R63).
-/

namespace Sys2Proof.Machine

open Sys2Proof

/-- A C-word that writes to d a value computed from the values in a and b (R58). -/
def binary (i : Instr) (d a b : BitVec 7) (f : Word → Word → Word) (s : State) : Host.Outcome State Fault Refusal :=
  regWord i s fun x => writeVal x d (f (readVal x a) (readVal x b))

/-- A C-word that writes to d a value computed from the value in a (R58, R61). -/
def unary (i : Instr) (d a : BitVec 7) (f : Word → Word) (s : State) : Host.Outcome State Fault Refusal :=
  regWord i s fun x => writeVal x d (f (readVal x a))

/-- Bits 5:0 of a word, as a shift amount or a position (R58, R60). -/
def low6 (b : Word) : Nat := b.toNat % 64

/-- SEXT of R60. -/
def sextAt (a b : Word) : Word := sext64 (low6 b + 1) a.toNat
/-- ZEXT of R60. -/
def zextAt (a b : Word) : Word := BitVec.ofNat 64 (a.toNat % 2 ^ (low6 b + 1))
/-- The high half of a product of integers (R58). -/
def highHalf (p : Int) : Word := BitVec.ofInt 64 (p / (2 ^ 64 : Nat))

/-- ADD (R58). -/
def execAdd (d a b : BitVec 7) (s : State) : Host.Outcome State Fault Refusal :=
  binary (.add d a b) d a b (fun a b => a + b) s

/-- SUB (R58). -/
def execSub (d a b : BitVec 7) (s : State) : Host.Outcome State Fault Refusal :=
  binary (.sub d a b) d a b (fun a b => a - b) s

/-- MUL (R58). -/
def execMul (d a b : BitVec 7) (s : State) : Host.Outcome State Fault Refusal :=
  binary (.mul d a b) d a b (fun a b => a * b) s

/-- MULH (R58). -/
def execMulh (d a b : BitVec 7) (s : State) : Host.Outcome State Fault Refusal :=
  binary (.mulh d a b) d a b (fun a b => highHalf (a.toInt * b.toInt)) s

/-- MULHN (R58). -/
def execMulhn (d a b : BitVec 7) (s : State) : Host.Outcome State Fault Refusal :=
  binary (.mulhn d a b) d a b (fun a b => BitVec.ofNat 64 (a.toNat * b.toNat / 2 ^ 64)) s

/-- DIV (R59). -/
def execDiv (d a b : BitVec 7) (s : State) : Host.Outcome State Fault Refusal :=
  binary (.div d a b) d a b (fun a b => divS a b) s

/-- DIVN (R59). -/
def execDivn (d a b : BitVec 7) (s : State) : Host.Outcome State Fault Refusal :=
  binary (.divn d a b) d a b (fun a b => divU a b) s

/-- REM (R59). -/
def execRem (d a b : BitVec 7) (s : State) : Host.Outcome State Fault Refusal :=
  binary (.rem d a b) d a b (fun a b => remS a b) s

/-- REMN (R59). -/
def execRemn (d a b : BitVec 7) (s : State) : Host.Outcome State Fault Refusal :=
  binary (.remn d a b) d a b (fun a b => remU a b) s

/-- AND (R58). -/
def execAnd (d a b : BitVec 7) (s : State) : Host.Outcome State Fault Refusal :=
  binary (.and d a b) d a b (fun a b => a &&& b) s

/-- OR (R58). -/
def execOr (d a b : BitVec 7) (s : State) : Host.Outcome State Fault Refusal :=
  binary (.or d a b) d a b (fun a b => a ||| b) s

/-- XOR (R58). -/
def execXor (d a b : BitVec 7) (s : State) : Host.Outcome State Fault Refusal :=
  binary (.xor d a b) d a b (fun a b => a ^^^ b) s

/-- ANDN (R58). -/
def execAndn (d a b : BitVec 7) (s : State) : Host.Outcome State Fault Refusal :=
  binary (.andn d a b) d a b (fun a b => a &&& ~~~b) s

/-- SHL (R58). -/
def execShl (d a b : BitVec 7) (s : State) : Host.Outcome State Fault Refusal :=
  binary (.shl d a b) d a b (fun a b => a <<< low6 b) s

/-- SHR (R58). -/
def execShr (d a b : BitVec 7) (s : State) : Host.Outcome State Fault Refusal :=
  binary (.shr d a b) d a b (fun a b => a >>> low6 b) s

/-- SAR (R58). -/
def execSar (d a b : BitVec 7) (s : State) : Host.Outcome State Fault Refusal :=
  binary (.sar d a b) d a b (fun a b => a.sshiftRight (low6 b)) s

/-- ROTL (R58). -/
def execRotl (d a b : BitVec 7) (s : State) : Host.Outcome State Fault Refusal :=
  binary (.rotl d a b) d a b (fun a b => a.rotateLeft (low6 b)) s

/-- MIN (R58). -/
def execMin (d a b : BitVec 7) (s : State) : Host.Outcome State Fault Refusal :=
  binary (.min d a b) d a b (fun a b => if b.slt a then b else a) s

/-- MAX (R58). -/
def execMax (d a b : BitVec 7) (s : State) : Host.Outcome State Fault Refusal :=
  binary (.max d a b) d a b (fun a b => if a.slt b then b else a) s

/-- MINN (R58). -/
def execMinn (d a b : BitVec 7) (s : State) : Host.Outcome State Fault Refusal :=
  binary (.minn d a b) d a b (fun a b => if b.ult a then b else a) s

/-- MAXN (R58). -/
def execMaxn (d a b : BitVec 7) (s : State) : Host.Outcome State Fault Refusal :=
  binary (.maxn d a b) d a b (fun a b => if a.ult b then b else a) s

/-- SEXT (R60). -/
def execSext (d a b : BitVec 7) (s : State) : Host.Outcome State Fault Refusal :=
  binary (.sext d a b) d a b (fun a b => sextAt a b) s

/-- ZEXT (R60). -/
def execZext (d a b : BitVec 7) (s : State) : Host.Outcome State Fault Refusal :=
  binary (.zext d a b) d a b (fun a b => zextAt a b) s

/-- CLZ (R58). -/
def execClz (d a : BitVec 7) (s : State) : Host.Outcome State Fault Refusal := unary (.clz d a) d a (fun a => clz64 a) s

/-- CTZ (R58). -/
def execCtz (d a : BitVec 7) (s : State) : Host.Outcome State Fault Refusal := unary (.ctz d a) d a (fun a => ctz64 a) s

/-- POPC (R58). -/
def execPopc (d a : BitVec 7) (s : State) : Host.Outcome State Fault Refusal := unary (.popc d a) d a (fun a => popc64 a) s

/-- MOVX (R58). -/
def execMovx (d a : BitVec 7) (s : State) : Host.Outcome State Fault Refusal := unary (.movx d a) d a (fun a => a) s

/-- ADDI (R61). -/
def execAddi (d a : BitVec 7) (imm : BitVec 12) (s : State) : Host.Outcome State Fault Refusal :=
  unary (.addi d a imm) d a (fun a => a + imm.signExtend 64) s

/-- ANDI (R61). -/
def execAndi (d a : BitVec 7) (imm : BitVec 12) (s : State) : Host.Outcome State Fault Refusal :=
  unary (.andi d a imm) d a (fun a => a &&& imm.signExtend 64) s

/-- ORI (R61). -/
def execOri (d a : BitVec 7) (imm : BitVec 12) (s : State) : Host.Outcome State Fault Refusal :=
  unary (.ori d a imm) d a (fun a => a ||| imm.signExtend 64) s

/-- XORI (R61). -/
def execXori (d a : BitVec 7) (imm : BitVec 12) (s : State) : Host.Outcome State Fault Refusal :=
  unary (.xori d a imm) d a (fun a => a ^^^ imm.signExtend 64) s

/-- MULI (R61). -/
def execMuli (d a : BitVec 7) (imm : BitVec 12) (s : State) : Host.Outcome State Fault Refusal :=
  unary (.muli d a imm) d a (fun a => a * imm.signExtend 64) s

/-- SHLI (R61). -/
def execShli (d a : BitVec 7) (imm : BitVec 6) (s : State) : Host.Outcome State Fault Refusal :=
  unary (.shli d a imm) d a (fun a => a <<< imm.toNat) s

/-- SHRI (R61). -/
def execShri (d a : BitVec 7) (imm : BitVec 6) (s : State) : Host.Outcome State Fault Refusal :=
  unary (.shri d a imm) d a (fun a => a >>> imm.toNat) s

/-- SARI (R61). -/
def execSari (d a : BitVec 7) (imm : BitVec 6) (s : State) : Host.Outcome State Fault Refusal :=
  unary (.sari d a imm) d a (fun a => a.sshiftRight imm.toNat) s

/-- An address 4 × imm away from an address (R63). -/
def addrPlus {n : Nat} (a : Word) (imm : BitVec n) : Word := a + (imm.signExtend 64 <<< 2)

/-- LI (R62). -/
def execLi (d : BitVec 7) (imm : BitVec 19) (s : State) : Host.Outcome State Fault Refusal :=
  regWord (.li d imm) s fun x => writeVal x d (imm.signExtend 64)

/-- LPC (R63). -/
def execLpc (d : BitVec 7) (imm : BitVec 19) (s : State) : Host.Outcome State Fault Refusal :=
  regWord (.lpc d imm) s fun x => writeVal x d (addrPlus x.pc imm)

end Sys2Proof.Machine
end

