-- ==== Sys2Proof/Machine/Element.lean ====
section
/-!
DEFINITION. The operation of an E-word or an S-word as it stands in a bank, run without a term of Instr between.
Laws/Element.lean proves that this is exec of what Decode.lean reads. Lean's runtime holds no term of Instr whose constructor
lies behind the 245th and has fields; the step is kept clear of them, so that it can be run.
-/

namespace Sys2Proof.Machine

open Sys2Proof

/-- The operation of an E-word of eop 0x01 to 0x12 (R30). -/
def runOnline (w : BitVec 32) (s : State) : Host.Outcome State Fault Refusal :=
  match (fEop w).toNat with
  | 1 => execOadd (fEa w) (fEb w) ((fMode w).extractLsb' 4 5) s
  | 2 => execOsub (fEa w) (fEb w) ((fMode w).extractLsb' 4 5) s
  | 3 => execOmul (fEa w) (fEb w) ((fMode w).extractLsb' 4 5) s
  | 4 => execOfma (fEa w) (fEb w) (fEc w) ((fMode w).extractLsb' 4 5) s
  | 5 => execOdiv (fEa w) (fEb w) ((fMode w).extractLsb' 4 5) s
  | 6 => execOsqrt (fEa w) ((fMode w).extractLsb' 4 5) s
  | 7 => execOrsqrt (fEa w) ((fMode w).extractLsb' 4 5) s
  | 8 => execOexp2 (fEa w) ((fMode w).extractLsb' 4 5) s
  | 9 => execOscl (fEa w) ((fMode w).extractLsb' 4 5) s
  | 10 => execOneg (fEa w) ((fMode w).extractLsb' 4 5) s
  | 11 => execOabs (fEa w) ((fMode w).extractLsb' 4 5) s
  | 12 => execOcmp (fEa w) (fEb w) ((fMode w).extractLsb' 4 5) ((fMode w).extractLsb' 0 1) s
  | 13 => execOmax (fEa w) (fEb w) ((fMode w).extractLsb' 4 5) ((fMode w).extractLsb' 0 1) s
  | 14 => execOrelu (fEa w) ((fMode w).extractLsb' 4 5) ((fMode w).extractLsb' 0 1) s
  | 15 => execOthr (fEa w) ((fMode w).extractLsb' 4 5) ((fMode w).extractLsb' 0 1) s
  | 16 => execOw2d (fEa w) ((fMode w).extractLsb' 4 5) ((fMode w).extractLsb' 0 2) s
  | 17 => execOd2w (fEa w) ((fMode w).extractLsb' 4 5) ((fMode w).extractLsb' 2 2) ((fMode w).extractLsb' 0 2) s
  | 18 => execOacc (fEa w) ((fMode w).extractLsb' 4 5) s
  | _ => .next s

/-- The operation of an E-word of eop 0x20 to 0x35 (R30). -/
def runVector (w : BitVec 32) (s : State) : Host.Outcome State Fault Refusal :=
  match (fEop w).toNat with
  | 32 => execVadd (fEa w) (fEb w) ((fMode w).extractLsb' 6 3) ((fMode w).extractLsb' 4 2) ((fMode w).extractLsb' 0 4) s
  | 33 => execVsub (fEa w) (fEb w) ((fMode w).extractLsb' 6 3) ((fMode w).extractLsb' 4 2) ((fMode w).extractLsb' 0 4) s
  | 34 => execVmul (fEa w) (fEb w) ((fMode w).extractLsb' 6 3) ((fMode w).extractLsb' 4 2) ((fMode w).extractLsb' 0 4) s
  | 35 => execVfma (fEa w) (fEb w) (fEc w) ((fMode w).extractLsb' 6 3) ((fMode w).extractLsb' 4 2) ((fMode w).extractLsb' 0 4) s
  | 36 => execVdiv (fEa w) (fEb w) ((fMode w).extractLsb' 6 3) ((fMode w).extractLsb' 4 2) ((fMode w).extractLsb' 0 4) s
  | 37 => execVsqrt (fEa w) ((fMode w).extractLsb' 6 3) ((fMode w).extractLsb' 4 2) ((fMode w).extractLsb' 0 4) s
  | 38 => execVmin (fEa w) (fEb w) ((fMode w).extractLsb' 6 3) ((fMode w).extractLsb' 4 2) ((fMode w).extractLsb' 0 4) s
  | 39 => execVmax (fEa w) (fEb w) ((fMode w).extractLsb' 6 3) ((fMode w).extractLsb' 4 2) ((fMode w).extractLsb' 0 4) s
  | 40 => execVabs (fEa w) ((fMode w).extractLsb' 6 3) ((fMode w).extractLsb' 4 2) ((fMode w).extractLsb' 0 4) s
  | 41 => execVneg (fEa w) ((fMode w).extractLsb' 6 3) ((fMode w).extractLsb' 4 2) ((fMode w).extractLsb' 0 4) s
  | 42 => execVcmp (fEa w) (fEb w) ((fMode w).extractLsb' 6 3) ((fMode w).extractLsb' 4 2) ((fMode w).extractLsb' 0 4) s
  | 43 => execVsel (fEa w) (fEb w) (fEc w) ((fMode w).extractLsb' 6 3) ((fMode w).extractLsb' 4 2) ((fMode w).extractLsb' 0 4) s
  | 44 => execVcvt (fEa w) ((fMode w).extractLsb' 6 3) ((fMode w).extractLsb' 4 2) ((fMode w).extractLsb' 0 4) s
  | 45 => execVred (fEa w) ((fMode w).extractLsb' 6 3) ((fMode w).extractLsb' 4 2) ((fMode w).extractLsb' 0 4) s
  | 46 => execVand (fEa w) (fEb w) ((fMode w).extractLsb' 6 3) ((fMode w).extractLsb' 4 2) ((fMode w).extractLsb' 0 4) s
  | 47 => execVor (fEa w) (fEb w) ((fMode w).extractLsb' 6 3) ((fMode w).extractLsb' 4 2) ((fMode w).extractLsb' 0 4) s
  | 48 => execVxor (fEa w) (fEb w) ((fMode w).extractLsb' 6 3) ((fMode w).extractLsb' 4 2) ((fMode w).extractLsb' 0 4) s
  | 49 => execVshl (fEa w) (fEb w) ((fMode w).extractLsb' 6 3) ((fMode w).extractLsb' 4 2) ((fMode w).extractLsb' 0 4) s
  | 50 => execVshr (fEa w) (fEb w) ((fMode w).extractLsb' 6 3) ((fMode w).extractLsb' 4 2) ((fMode w).extractLsb' 0 4) s
  | 51 => execVmac (fEa w) (fEb w) ((fMode w).extractLsb' 6 3) ((fMode w).extractLsb' 4 2) ((fMode w).extractLsb' 0 4) s
  | 52 => execVperm (fEa w) (fEb w) ((fMode w).extractLsb' 6 3) ((fMode w).extractLsb' 4 2) ((fMode w).extractLsb' 0 4) s
  | 53 => execVsat (fEa w) ((fMode w).extractLsb' 6 3) ((fMode w).extractLsb' 4 2) ((fMode w).extractLsb' 0 4) s
  | _ => .next s

/-- The operation of an E-word of eop 0x40 to 0x52 (R30). -/
def runMatrix (w : BitVec 32) (s : State) : Host.Outcome State Fault Refusal :=
  match (fEop w).toNat with
  | 64 => execMma (fEa w) (fEb w) (fEc w) ((fMode w).extractLsb' 6 3) ((fMode w).extractLsb' 0 4) s
  | 65 => execMmas (fEa w) (fEb w) (fEc w) ((fMode w).extractLsb' 6 3) ((fMode w).extractLsb' 0 4) s
  | 66 => execMmac (fEc w) ((fMode w).extractLsb' 6 3) ((fMode w).extractLsb' 0 4) s
  | 67 => execMldb (fEa w) ((fMode w).extractLsb' 6 3) ((fMode w).extractLsb' 0 4) s
  | 68 => execMzero (fEa w) ((fMode w).extractLsb' 6 3) ((fMode w).extractLsb' 0 4) s
  | 69 => execMrd (fEa w) ((fMode w).extractLsb' 6 3) ((fMode w).extractLsb' 4 2) ((fMode w).extractLsb' 0 4) s
  | 70 => execMcx (fEa w) ((fMode w).extractLsb' 6 3) ((fMode w).extractLsb' 0 4) s
  | 71 => execMspm (fEa w) (fEb w) (fEc w) ((fMode w).extractLsb' 6 3) ((fMode w).extractLsb' 0 4) s
  | 80 => execCvdn (fEa w) ((fMode w).extractLsb' 6 3) ((fMode w).extractLsb' 0 1) s
  | 81 => execCvup (fEa w) ((fMode w).extractLsb' 6 3) ((fMode w).extractLsb' 4 2) s
  | 82 => execSjoin (fEa w) (fEb w) ((fMode w).extractLsb' 6 3) s
  | _ => .next s

/-- The operation of an E-word of eop 0x60 to 0x73 (R30). -/
def runPort (w : BitVec 32) (s : State) : Host.Outcome State Fault Refusal :=
  match (fEop w).toNat with
  | 96 => execMld (fEa w) ((fMode w).extractLsb' 6 3) ((fMode w).extractLsb' 3 3) ((fMode w).extractLsb' 0 3) s
  | 97 => execMst (fEa w) (fEb w) ((fMode w).extractLsb' 6 3) ((fMode w).extractLsb' 3 3) ((fMode w).extractLsb' 0 3) s
  | 98 => execMldt (fEa w) ((fMode w).extractLsb' 3 3) s
  | 99 => execMstt (fEa w) (fEb w) ((fMode w).extractLsb' 3 3) s
  | 100 => execMamo (fEa w) (fEb w) (fEc w) ((fMode w).extractLsb' 6 3) ((fMode w).extractLsb' 3 3) ((fMode w).extractLsb' 0 1) s
  | 101 => execMldf (fEa w) ((fMode w).extractLsb' 6 3) ((fMode w).extractLsb' 3 3) ((fMode w).extractLsb' 0 1) s
  | 102 => execMste (fEa w) (fEb w) ((fMode w).extractLsb' 6 3) ((fMode w).extractLsb' 3 3) ((fMode w).extractLsb' 0 1) s
  | 104 => execAga s
  | 105 => execAgx (fEa w) s
  | 106 => execAgh s
  | 112 => execXlate (fEa w) ((fMode w).extractLsb' 1 2) ((fMode w).extractLsb' 0 1) s
  | 114 => execSieve (fEa w) ((fMode w).extractLsb' 6 3) ((fMode w).extractLsb' 1 3) ((fMode w).extractLsb' 0 1) s
  | 115 => execUnsieve (fEa w) ((fMode w).extractLsb' 6 3) ((fMode w).extractLsb' 1 3) ((fMode w).extractLsb' 0 1) s
  | _ => .next s

/-- The operation of an E-word of eop 0x78 to 0x81 (R30). -/
def runFlow (w : BitVec 32) (s : State) : Host.Outcome State Fault Refusal :=
  match (fEop w).toNat with
  | 120 => if (fMode w) == 0x0#9 then execGateCtok (fEa w) (fEb w) s
    else if (fMode w) == 0x1#9 then execGateCounter (fEa w) s
    else .next s
  | 121 => execCarry (fEa w) (fEb w) (fEc w) s
  | 122 => execSteer (fEa w) (fEb w) ((fMode w).extractLsb' 0 1) s
  | 123 => execMerge (fEa w) (fEb w) (fEc w) s
  | 124 => execDup (fEa w) s
  | 125 => execEosgen (fEa w) ((fMode w).extractLsb' 0 1) s
  | 127 => execSink (fEa w) ((fMode w).extractLsb' 0 1) s
  | 128 => if (fMode w) == 0x0#9 then execEmitTok s
    else if (fMode w) == 0x1#9 then execEmitIota s
    else if (fMode w) == 0x2#9 then execEmitIng s
    else .next s
  | 129 => if (fMode w) == 0x0#9 then execTagopSet (fEa w) s
    else if (fMode w) == 0x1#9 then execTagopCtok (fEa w) s
    else if (fMode w) == 0x2#9 then execTagopClear (fEa w) s
    else .next s
  | _ => .next s
/-- The operation of an E-word (R30). A bank holds only words that have been checked (R104, R112). -/
def runElement (w : BitVec 32) (s : State) : Host.Outcome State Fault Refusal :=
  if (fEop w).toNat ≤ 0x1F then runOnline w s
  else if (fEop w).toNat ≤ 0x3F then runVector w s
  else if (fEop w).toNat ≤ 0x5F then runMatrix w s
  else if (fEop w).toNat ≤ 0x77 then runPort w s
  else runFlow w s

/-- The route of an S-word (R32). -/
def runRoute (w : BitVec 16) (s : State) : Host.Outcome State Fault Refusal :=
  if fSz0 w != 0#3 then .next s
  else
    match (fSm w).toNat with
    | 0 => execRoutePass (fSo w) (fSi w) (fSx w) s
    | 1 => execRouteHold (fSo w) (fSi w) (fSx w) s
    | 2 => execRouteFanout (fSo w) (fSi w) (fSx w) s
    | 3 => execRouteSeam (fSo w) (fSi w) (fSx w) s
    | _ => .next s

end Sys2Proof.Machine
end

