-- ==== Sys2Proof/Machine/Engines.lean ====
section
/-!
DEFINITION. What engine operations do (R331): copies (R116) and merges (R119), reductions at memory (R334 to R337), gathers
and scatters (R344), and attestation reports (R89, R376). Each step of an engine is one access, with what follows from it.
-/

namespace Sys2Proof.Machine

open Sys2Proof

/-! ## Accesses of engines -/

/-- Why an engine's access is not made: a fault (R331) or a frame that the job may not reach (R368), with the state that the
walk left, a pinned round (R257) or a turn that has not come (R119). -/
inductive EngineHalt where
  | fault (s : State) (c d : BitVec 8) (va : Word)
  | violation (s : State) (va : Word)
  | wait

/-- A check of an engine's access. -/
def needG (ok : Bool) (h : EngineHalt) : Except EngineHalt Unit := if ok then .ok () else .error h

/-- The requester of translation for an engine: its unit, under the job of its fork. -/
def engineReq (s : State) (e : Engine) : Requester :=
  { who := 16 * tileOf e.unit, tile := tileOf e.unit, job := e.job, lch := mget s.launches e.launch }

/-- The place that an engine's record names (R331). -/
def enginePlace (e : Engine) : Place :=
  { tile := tileOf e.unit, ctx := ctxOf e.unit, elem := 24, launch := e.launch, job := e.job }

/-- A translation by an engine. -/
def xlateG (s : State) (e : Engine) (k : Access) (va : Word) : Except EngineHalt (XOk × State) :=
  match translate s (engineReq s e) k va with
  | (.ok x, s') => .ok (x, s')
  | (.error (.cause c d), s') => .error (.fault s' c d va)
  | (.error .violation, s') => .error (.violation s' va)

/-- The number in n bytes that a reader without an outcome for poison gets: a poisoned word gives a free value (R170). -/
def readFree (s : State) (pa n : Nat) : Nat × State :=
  if (poisonedIn s.mem pa n).isSome then ((Config.openWord s.free).toNat % 2 ^ (8 * n), { s with free := s.free + 1 })
  else (rdNum s.mem pa n, s)

/-- A read of n bytes by an engine, one event of its thread. A region window is read in 8 bytes (R263).
DEDUCED (log entry 63). -/
def readG (s : State) (e : Engine) (va : Word) (n : Nat) : Except EngineHalt (Nat × State × Engine) := do
  let (x, s1) ← xlateG s e .read va
  if isRegion x.pa then do
    needG (decide (n = 8)) (.fault s1 4#8 8#8 va)
    .ok (readAt s1 x.pa n, s1, e)
  else
    let r := readFree s1 x.pa n
    let ev := readEvent r.2.mem x.pa n (tileOf e.unit) r.2.tb none x.sa e.pts
    .ok (r.1, sendPacket { r.2 with mem := ev.mem } e.unit x.pa, { e with pts := ev.pts })

/-- A write of bytes by an engine, one event of its thread; `tags` says that it fills scratchpad words (R116, R344). -/
def writeG (s : State) (e : Engine) (va : Word) (bs : List Byte) (tags : Bool) : Except EngineHalt (State × Engine) := do
  let (x, s1) ← xlateG s e .write va
  if isRegion x.pa then do
    needG (decide (bs.length = 8)) (.fault s1 4#8 8#8 va)
    .ok (regionStore s1 (windowPage x.pa) (x.pa % 4096) (BitVec.ofNat 64 (ofBytes bs)) e.pts, e)
  else do
    needG (!pinnedRange s1 none x.pa bs.length) .wait
    let ev := writeEvent s1.mem x.pa bs (tileOf e.unit) s1.tb none x.sa e.pts
    let s2 := sendPacket { s1 with mem := ev.mem } e.unit x.pa
    .ok (if tags && isSpad x.pa then tagTo s2 x.pa true else s2, { e with pts := ev.pts })

/-- A translation of an engine for an atomic event on n bytes at an aligned address. -/
def reachG (s : State) (e : Engine) (va : Word) (n : Nat) : Except EngineHalt (XOk × State) := do
  let (x, s1) ← xlateG s e .atomic va
  needG (!isRegion x.pa) (.fault s1 7#8 3#8 va)
  needG (!pinnedRange s1 none x.pa n) .wait
  .ok (x, s1)

/-- An atomic event of an engine on n bytes at a translated address: what it stores as a function of what it finds. -/
def atomicAt (s : State) (e : Engine) (x : XOk) (n : Nat) (f : Nat → Nat) : State × Engine :=
  let r := readFree s x.pa n
  let ev := writeEvent (correct r.2.mem x.pa n) x.pa (toBytes n (f r.1)) (tileOf e.unit) r.2.tb none x.sa e.pts
  (sendPacket { r.2 with mem := ev.mem } e.unit x.pa, { e with pts := ev.pts })

/-- An atomic event of an engine on n bytes at an aligned address. -/
def atomicG (s : State) (e : Engine) (va : Word) (n : Nat) (f : Nat → Nat) : Except EngineHalt (State × Engine) := do
  let (x, s1) ← reachG s e va n
  .ok (atomicAt s1 e x n f)

/-! ## Steps -/

/-- An engine operation written. -/
def setEngine (s : State) (f : Nat) (e : Engine) : State := { s with engines := mset s.engines f e }

/-- What a halted step leaves: the operation frozen with a record of kind 2, its unit frozen, or nothing (R331, R379). A
cancelled contribution that faults is frozen too: its error contribution is made once it is resumed (R337).
DEDUCED (log entry 62). -/
def haltEngine (s : State) (f : Nat) (e : Engine) (h : EngineHalt) : State :=
  match h with
  | .wait => s
  | .violation s' va => freezeBySecurity s' e.unit 0 24 va.toNat
  | .fault s' c d va => record (setEngine s' f { e with frozen := true }) (enginePlace e) 2 c.toNat d.toNat va.toNat 0 0

/-- One step of an engine operation that is neither complete nor frozen; one that a store of its own has cancelled is gone. -/
def runEngine (s : State) (f : Nat) (body : State → Engine → Except EngineHalt (State × Engine)) :
    Host.Outcome State Fault Refusal :=
  .next <|
    match mget s.engines f with
    | none => s
    | some e =>
      if e.complete || e.frozen then s
      else
        match body s e with
        | .ok (s', e') => if (mget s'.engines f).isSome then setEngine s' f e' else s'
        | .error h => haltEngine s f e h

/-- 1 added to a completion counter up to its greatest value, which joins the operation (R89, R116). -/
def countAt (s : State) (e : Engine) (ctr : Word) : Except EngineHalt (State × Engine) := do
  let (x, s1) ← reachG s e ctr 8
  let r := atomicAt s1 e x 8 fun v => min (v + 1) (2 ^ 64 - 1)
  .ok (r.1, { r.2 with complete := true, counted := some x.pa })

/-- The completion counter of a copy, a gather or a scatter; 0 names none (R115, R344). -/
def countG (s : State) (e : Engine) (ctr : Word) : Except EngineHalt (State × Engine) :=
  if ctr = 0#64 then .ok (s, { e with complete := true }) else countAt s e ctr

/-- The length of the next access to n bytes at an address: 8 bytes where it is 8-aligned, and one element otherwise. -/
def pieceLen (va : Word) (esz n : Nat) : Nat := if va.toNat % 8 = 0 ∧ 8 ≤ n then 8 else min esz n

/-- The bytes that an operation has still to write: the next access to them. -/
def putStep (s : State) (e : Engine) (va : Word) (bs : List Byte) (esz : Nat) (tags : Bool) :
    Except EngineHalt (State × Engine) := do
  let k := pieceLen va esz bs.length
  let (s1, e1) ← writeG s e va (bs.take k) tags
  .ok (s1, { e1 with put := if k < bs.length then some (va + BitVec.ofNat 64 k, bs.drop k) else none })

/-- The bytes that an operation reads at an address: the next access to them. -/
def getStep (s : State) (e : Engine) (va : Word) (want esz : Nat) : Except EngineHalt (State × Engine) := do
  let at_ := va + BitVec.ofNat 64 e.buf.length
  let k := pieceLen at_ esz (want - e.buf.length)
  let (v, s1, e1) ← readG s e at_ k
  .ok (s1, { e1 with buf := e.buf ++ toBytes k v })

/-! ## Copies (R116) -/

/-- COPY_COMPLETE (R116): the next access of a copy, in ascending address; after the last word, its counter. -/
def execCopyComplete (f : Nat) (s : State) : Host.Outcome State Fault Refusal :=
  runEngine s f fun s e =>
    match e.kind, e.put with
    | .copy _ _ _ _, some (va, bs) => putStep s e va bs 8 true
    | .copy src dst len ctr, none =>
      if len ≤ 8 * e.pos then countG s e ctr
      else do
        let (v, s1, e1) ← readG s e (BitVec.ofNat 64 (src + 8 * e.pos)) 8
        .ok (s1, { e1 with pos := e.pos + 1, put := some (BitVec.ofNat 64 (dst + 8 * e.pos), toBytes 8 v) })
    | _, _ => .error .wait

/-! ## Merges (R119) -/

/-- A merge of a word by an operation of k2 (R119). -/
def mergeOp (op : Nat) (a b : Nat) : Nat :=
  match op with
  | 0 => AtomicOp.add.apply 64 a b 0
  | 1 => (fpAdd binary64 .rne a b).1
  | 2 => AtomicOp.min.apply 64 a b 0
  | 3 => AtomicOp.max.apply 64 a b 0
  | 4 => AtomicOp.minn.apply 64 a b 0
  | 5 => AtomicOp.maxn.apply 64 a b 0
  | 6 => AtomicOp.and.apply 64 a b 0
  | 7 => AtomicOp.or.apply 64 a b 0
  | _ => AtomicOp.xor.apply 64 a b 0

/-- The episodes with one replaced, or closed. -/
def setEpisode (l : List Episode) (dst : Nat) (x : Option Episode) : List Episode :=
  (l.filter fun e => decide (e.dst ≠ dst)) ++ x.toList

/-- What a port does with a contribution (R119): refuse it, keep it waiting, or merge it into an episode. -/
inductive Admission where
  | refuse | wait
  | merges (e : Episode)

/-- A contribution c of n over len bytes at the port of a range: contribution 0 opens the episode. -/
def admission (s : State) (dst len n c : Nat) : Admission :=
  match s.episodes.find? fun e => decide (e.dst = dst) with
  | none => if c = 0 then .merges { dst := dst, len := len, n := n, next := 0, busy := true } else .wait
  | some e =>
    if c < e.next then .refuse
    else if e.busy ∨ e.next < c then .wait
    else if e.len ≠ len ∨ e.n ≠ n then .refuse
    else .merges { e with busy := true }

/-- A contribution that the port refuses (R119): an ERR token there, which is recorded; its counter is still incremented. -/
def refuseMerge (s : State) (e : Engine) (pa : Nat) (dst : Word) : State :=
  let t := spadTile pa
  let payload := 4 + 24 * 2 ^ 8 + t % 1024 * 2 ^ 13
  markLaunchErr (record s { enginePlace e with tile := t } 3 0x13 0 dst.toNat 0 payload) e.launch

/-- The end of a contribution's merging: the next index, or the range filled and the episode closed (R119). -/
def endMerge (s : State) (pa len n c : Nat) : State :=
  if c + 1 < n then
    { s with episodes := setEpisode s.episodes pa (some { dst := pa, len := len, n := n, next := c + 1 }) }
  else fillTags { s with episodes := setEpisode s.episodes pa none } pa (len / 8)

/-- SENDR_MERGE (R119): a contribution presented at its destination port, then merged word by word in ascending address. -/
def execSendrMerge (f : Nat) (s : State) : Host.Outcome State Fault Refusal :=
  runEngine s f fun s e =>
    match e.kind with
    | .merge src dst len ctr n c op => do
      let d : Word := BitVec.ofNat 64 dst
      if e.put.isSome then countG s e ctr
      else do
        let (x, s1) ← xlateG s e .write d
        if !e.admitted then
          match admission s1 x.pa len n c with
          | .wait => .error .wait
          | .refuse => .ok (refuseMerge s1 e x.pa d, { e with put := some (d, []) })
          | .merges ep => .ok ({ s1 with episodes := setEpisode s1.episodes x.pa (some ep) }, { e with admitted := true })
        else if len ≤ 8 * e.pos then .ok (endMerge s1 x.pa len n c, { e with put := some (d, []) })
        else if e.buf.isEmpty then getStep s1 e (BitVec.ofNat 64 (src + 8 * e.pos)) 8 8
        else do
          let (s2, e2) ← atomicG s1 e (BitVec.ofNat 64 (dst + 8 * e.pos)) 8 fun v => mergeOp op v (ofBytes e.buf)
          .ok (s2, { e2 with pos := e.pos + 1, buf := [] })
    | _ => .error .wait

/-! ## Unordered reductions (R334) -/

/-- The atomic whose effect a RED has (R334). -/
def redOp (op : Nat) : AtomicOp :=
  match op with
  | 0 => .add | 1 => .and | 2 => .or | 3 => .xor | 4 => .min | _ => .max

/-- RED_EVENT (R334): one indivisible event. -/
def execRedEvent (f : Nat) (s : State) : Host.Outcome State Fault Refusal :=
  runEngine s f fun s e =>
    match e.kind with
    | .red op a b => do
      let (s1, e1) ← atomicG s e a 8 fun v => (redOp op).apply 64 v b.toNat 0
      .ok (s1, { e1 with complete := true })
    | _ => .error .wait

/-! ## Ordered reductions (R335 to R337) -/

/-- A reduction object as its 64 bytes hold it (R335). -/
structure Reduction where
  val  : Nat
  n    : Nat
  next : Nat
  op   : Nat
  stat : Nat
  ctr  : Word
  hold : Word

/-- The object in 64 bytes. -/
def reductionOf (b : List Byte) : Reduction :=
  { val := numAt b 0 8, n := numAt b 8 4, next := numAt b 12 4, op := numAt b 16 1, stat := numAt b 17 1,
    ctr := BitVec.ofNat 64 (numAt b 24 8), hold := BitVec.ofNat 64 (numAt b 32 8) }

/-- STAT.DONE. -/
def Reduction.done (r : Reduction) : Bool := decide (r.stat / 2 % 2 = 1)

/-- The result of a merge (R336): NaNs are canonical. -/
def oredOp (fn : Nat) (a v : Nat) : Nat :=
  match fn with
  | 0 => (fpAdd binary64 .rne a v).1
  | 1 => (fpAdd binary32 .rne (a % 2 ^ 32) (v % 2 ^ 32)).1
  | 2 => (a + v) % 2 ^ 64
  | 3 => (fpMinMax binary64 true a v).1
  | _ => (fpMinMax binary64 false a v).1

/-- The fields VAL, NEXT and STAT of an object written, each where it stands. -/
def putReduction (b : List Byte) (val next stat : Nat) : List Byte :=
  toBytes 8 val ++ (b.drop 8).take 4 ++ toBytes 4 next ++ (b.drop 16).take 1 ++ toBytes 1 stat ++ b.drop 18

/-- The object's line written as one event. -/
def writeObject (s : State) (e : Engine) (x : XOk) (bs : List Byte) : State × Engine :=
  let ev := writeEvent s.mem x.pa bs (tileOf e.unit) s.tb none x.sa e.pts
  (sendPacket { s with mem := ev.mem } e.unit x.pa, { e with pts := ev.pts })

/-- Complete (R336): DONE set, and 1 added to the object's counter with its error status, as one event. `err` marks an error
contribution's turn (R337). -/
def completeObject (s : State) (e : Engine) (x : XOk) (b : List Byte) (err : Bool) :
    Except EngineHalt (State × Engine) := do
  let r := reductionOf b
  let stat := r.stat ||| (if err then 3 else 2)
  let bs := putReduction b r.val r.next stat
  if r.ctr = 0#64 then .ok (writeObject s e x bs)
  else do
    let bits := if stat % 2 = 1 then 2 else 0
    let (s1, e1) ← atomicG s e r.ctr 16 fun v =>
      min (v % 2 ^ 64 + 1) (2 ^ 64 - 1) + (v / 2 ^ 64 / 4 * 4 + v / 2 ^ 64 % 2 + bits) * 2 ^ 64
    .ok (writeObject s1 e1 x bs)

/-- The address of hold entry c. -/
def holdAt (r : Reduction) (c : Nat) : Word := r.hold + BitVec.ofNat 64 (16 * c)

/-- Hold entry c read: its value, PRESENT and ERRC. -/
def readHold (s : State) (e : Engine) (r : Reduction) (c : Nat) : Except EngineHalt (Nat × Bool × Bool × State) := do
  let (x, s1) ← xlateG s e .atomic (holdAt r c)
  let q := readFree s1 x.pa 16
  .ok (q.1 % 2 ^ 64, decide (q.1 / 2 ^ 64 % 2 = 1), decide (q.1 / 2 ^ 65 % 2 = 1), q.2)

/-- Hold entry c written. -/
def writeHold (s : State) (e : Engine) (r : Reduction) (c v flags : Nat) : Except EngineHalt (State × Engine) := do
  let (x, s1) ← xlateG s e .atomic (holdAt r c)
  needG (!pinnedRange s1 none x.pa 16) .wait
  .ok (writeObject s1 e x (toBytes 8 v ++ toBytes 8 flags))

/-- A merge of a value, which advances NEXT (R336). -/
def mergeInto (s : State) (e : Engine) (x : XOk) (b : List Byte) (fn v : Nat) : State × Engine :=
  let r := reductionOf b
  writeObject s e x (putReduction b (oredOp fn r.val v) (r.next + 1) r.stat)

/-- A refused contribution (R336): STAT.REF set and a record of kind 2 with cause 0x13. An object whose count is reached and
that is not done is still to be completed. -/
def refuseOred (s : State) (e : Engine) (x : XOk) (b : List Byte) (a : Word) : State × Engine :=
  let r := reductionOf b
  let p := writeObject s e x (putReduction b r.val r.next (r.stat ||| 4))
  let due := decide (r.next = r.n) && !r.done
  (record p.1 (enginePlace e) 2 0x13 0 a.toNat 0 0, { p.2 with complete := !due, pos := if due then 1 else 0 })

/-- The arrival of a contribution at its object (R336, R337). Position 1 stands for the loop over the held ones. -/
def arriveOred (s : State) (e : Engine) (x : XOk) (b : List Byte) (fn c : Nat) (a v : Word) :
    Except EngineHalt (State × Engine) := do
  let r := reductionOf b
  if r.done || decide (r.op ≠ fn) || decide (r.n ≤ c) || decide (c < r.next) then .ok (refuseOred s e x b a)
  else if e.cancelled && decide (c = r.next) then do
    let (s2, e2) ← completeObject s e x b true
    .ok (s2, { e2 with complete := true })
  else do
    let (_, present, _, s1) ← readHold s e r c
    if present then .ok (refuseOred s1 e x b a)
    else if c ≠ r.next then do
      let (s2, e2) ← writeHold s1 e r c (if e.cancelled then 0 else v.toNat) (if e.cancelled then 3 else 1)
      .ok (s2, { e2 with complete := true })
    else
      let p := mergeInto s1 e x b fn v.toNat
      .ok (p.1, { p.2 with pos := 1 })

/-- One step of the loop over held contributions, and the completion behind it (R336, R337). -/
def drainOred (s : State) (e : Engine) (x : XOk) (b : List Byte) (fn : Nat) : Except EngineHalt (State × Engine) := do
  let r := reductionOf b
  if r.done then .ok (s, { e with complete := true })
  else if r.n = r.next then do
    let (s1, e1) ← completeObject s e x b false
    .ok (s1, { e1 with complete := true })
  else if r.n < r.next then .ok (s, { e with complete := true })
  else do
    let (v, present, errc, s1) ← readHold s e r r.next
    if !present then .ok (s1, { e with complete := true })
    else if errc then do
      let (s2, e2) ← completeObject s1 e x b true
      .ok (s2, { e2 with complete := true })
    else do
      let (s2, e2) ← writeHold s1 e r r.next 0 0
      .ok (mergeInto s2 e2 x b fn v)

/-- A cancelled contribution that has been replaced is gone. -/
def dropReplaced (s : State) (f : Nat) : State :=
  match mget s.engines f with
  | some e => if e.cancelled && e.complete then { s with engines := mdel s.engines f } else s
  | none => s

/-- ORED_MERGE (R336, R337): the next event of a contribution at the custodian of its object. -/
def execOredMerge (f : Nat) (s : State) : Host.Outcome State Fault Refusal :=
  match runEngine s f (fun s e =>
    match e.kind with
    | .ored fn c a v => do
      let (x, s1) ← xlateG s e .atomic a
      needG (!isRegion x.pa) (.fault s1 7#8 3#8 a)
      needG (!pinnedRange s1 none x.pa 64) .wait
      let b := rdBytes s1.mem x.pa 64
      if e.pos = 0 then arriveOred s1 e x b fn c.toNat a v else drainOred s1 e x b fn
    | _ => .error .wait) with
  | .next t => .next (dropReplaced t f)
  | o => o

/-! ## Gathers and scatters (R344) -/

/-- The entries of R218 for elements of a width in bytes. -/
def entryFmt (esz : Nat) : SieveFmt := { w := 8 * esz, neg0 := none }
/-- Bytes of an entry. DEDUCED (log entry 65). -/
def entryLen (esz : Nat) : Nat := (entryFmt esz).entryBits / 8

/-- Element i of a base address. -/
def elemAddr (base : Word) (i : Nat) (esz : Nat) : Word := base + BitVec.ofNat 64 (i * esz)

/-- A gathered element that has been read: where its bytes go. With SV = 1 a zero element is passed over. -/
def gathered (e : Engine) (a : Word) (esz : Nat) (sv : Bool) : Engine :=
  let y := { e with pos := e.pos + 1, idx := none, buf := [] }
  if !sv then { y with put := some (elemAddr a e.pos esz, e.buf) }
  else if ofBytes e.buf = 0 then y
  else
    let v := (entryFmt esz).pack (e.pos, ofBytes e.buf)
    { y with out := e.out + 1, put := some (elemAddr a e.out (entryLen esz), toBytes (entryLen esz) v) }

/-- An entry that has been read for a scatter: where its value goes, unless it has V = 0. -/
def scattered (e : Engine) (k2 : Word) (esz : Nat) : Engine :=
  let y := { e with pos := e.pos + 1, idx := none, buf := [] }
  match (entryFmt esz).unpack (ofBytes e.buf) with
  | some (c, v) => { y with put := some (elemAddr k2 c esz, toBytes esz v) }
  | none => y

/-- One access of a gather (R344). -/
def gatherAccess (s : State) (e : Engine) (a b k2 : Word) (n esz : Nat) (wide sv : Bool) (ctr : Word) :
    Except EngineHalt (State × Engine) := do
  if n ≤ e.pos then
    if sv ∧ e.out < n then
      .ok (s, { e with out := e.out + 1, put := some (elemAddr a e.out (entryLen esz), toBytes (entryLen esz) 0) })
    else countG s e ctr
  else
    match e.idx with
    | none => do
      let w := if wide then 8 else 4
      let (v, s1, e1) ← readG s e (elemAddr b e.pos w) w
      .ok (s1, { e1 with idx := some (BitVec.ofNat 64 v) })
    | some i => do
      let (s1, e1) ← getStep s e (elemAddr k2 i.toNat esz) esz esz
      .ok (s1, gathered e1 a esz sv)

/-- One access of a scatter (R344). -/
def scatterAccess (s : State) (e : Engine) (a b k2 : Word) (n esz : Nat) (wide sv : Bool) (ctr : Word) :
    Except EngineHalt (State × Engine) := do
  if n ≤ e.pos then countG s e ctr
  else if sv then do
    let len := entryLen esz
    let (s1, e1) ← getStep s e (elemAddr a e.pos len) len esz
    .ok (s1, if e1.buf.length < len then e1 else scattered e1 k2 esz)
  else
    match e.idx with
    | none => do
      let w := if wide then 8 else 4
      let (v, s1, e1) ← readG s e (elemAddr b e.pos w) w
      .ok (s1, { e1 with idx := some (BitVec.ofNat 64 v) })
    | some i => do
      let (s1, e1) ← getStep s e (elemAddr a e.pos esz) esz esz
      .ok (s1, { e1 with pos := e.pos + 1, idx := none, buf := [], put := some (elemAddr k2 i.toNat esz, e1.buf) })

/-- GATHER_STEP (R344): the next access of a gather or a scatter, in ascending i; after the last, its counter. -/
def execGatherStep (f : Nat) (s : State) : Host.Outcome State Fault Refusal :=
  runEngine s f fun s e =>
    match e.kind, e.put with
    | .move _ _ _ _ _ esz _ _ _, some (va, bs) => putStep s e va bs esz true
    | .move true a b k2 n esz wide sv ctr, none => gatherAccess s e a b k2 n esz wide sv ctr
    | .move false a b k2 n esz wide sv ctr, none => scatterAccess s e a b k2 n esz wide sv ctr
    | _, _ => .error .wait

/-! ## Attestation (R89, R376) -/

/-- The 64 bytes of a policy record (R320). -/
def policyBytes (job : Nat) (p : Policy) : List Byte :=
  toBytes 2 job ++ toBytes 1 (p.cls + (if p.wdc then 4 else 0) + (if p.conf then 8 else 0)) ++ toBytes 1 0 ++
  toBytes 2 p.pages ++ toBytes 2 p.lanes.toNat ++ toBytes 8 p.deadline ++ toBytes 8 p.root ++ toBytes 8 p.prologue.toNat ++
  toBytes 8 p.fq.toNat ++ toBytes 8 p.save.toNat ++ toBytes 8 p.ctr.toNat ++ toBytes 8 0

/-- Resident images put in ascending configuration id. -/
def insertImage (x : Resident) : List Resident → List Resident
  | [] => [x]
  | y :: l => if x.id.toNat < y.id.toNat then x :: y :: l else y :: insertImage x l

/-- The resident images of a job in the package, each once, in ascending configuration id (R376). -/
def jobImages (s : State) (job : Nat) : List Resident :=
  let all := (s.dies.toList.flatMap fun d => d.images).filter fun x => decide (x.job = job)
  (all.foldl (fun l x => if l.any fun y => decide (y.id = x.id) then l else l ++ [x]) []).foldr insertImage []

/-- The signed part of a report (R376): bytes 0 to 1,535. DEDUCED (log entry 66). -/
def reportBody (s : State) (e : Engine) (nonce : List Byte) : List Byte :=
  let d := dieOf e.unit
  let is := jobImages s e.job
  let entry := fun (x : Resident) => toBytes 8 x.id.toNat ++ toBytes 64 x.digest.toNat
  let list := (is.take 14).flatMap entry
  toBytes 4 0x4A415454 ++ toBytes 2 1 ++ toBytes 1 0 ++ toBytes 1 d ++ toBytes 2 e.job ++ toBytes 6 0 ++
  toBytes 8 (tbOf s d) ++ nonce ++ toBytes 16 Config.serial.toNat ++
  ((List.range 4).flatMap fun k => toBytes 64 (Config.firmwareDigest k).toNat) ++ policyBytes e.job (policyOf s e.job) ++
  toBytes 4 is.length ++ toBytes 4 0 ++ list ++ List.replicate (1008 - list.length) 0#8 ++ List.replicate 96 0#8

/-- A report with its signature (R376). -/
def reportBytes (s : State) (e : Engine) (nonce : List Byte) : List Byte :=
  let b := reportBody s e nonce
  b ++ toBytes 512 (Config.signature (dieOf e.unit) (ofBytes b)).toNat

/-- Whether an attestation is served: no earlier one of its die controller is left (R89). -/
def attestTurn (s : State) (f : Nat) (e : Engine) : Bool :=
  s.engines.all fun x => decide (f ≤ x.1) || x.2.complete || decide (dieOf x.2.unit ≠ dieOf e.unit) ||
    match x.2.kind with
    | .attest _ _ _ => false
    | _ => true

/-- ATTEST_REPORT (R89): the next access of an attestation: the nonce, then the report, then the counter. -/
def execAttestReport (f : Nat) (s : State) : Host.Outcome State Fault Refusal :=
  runEngine s f fun s e =>
    match e.kind with
    | .attest buf nonce ctr => do
      needG (attestTurn s f e) .wait
      match e.put with
      | some (va, bs) => putStep s e va bs 8 false
      | none =>
        if e.pos = 1 then countAt s e ctr
        else if e.buf.length < 64 then getStep s e nonce 64 8
        else .ok (s, { e with pos := 1, buf := [], put := some (buf, reportBytes s e e.buf) })
    | _ => .error .wait

end Sys2Proof.Machine
end

