-- ==== Sys2Proof/Machine/Maintain.lean ====
section
/-!
DEFINITION. Translation maintenance (R349, R350): major 0x35, and the system C-words ATTEST and FREEZE (R89, R90).
-/

namespace Sys2Proof.Machine

open Sys2Proof

/-! ## What is removed (R349) -/

/-- Whether a held translation of a job covers an address, its bits 63:57 and 11:0 ignored. -/
def Xlation.covers57 (x : Xlation) (job : Nat) (va : Word) : Bool :=
  decide (x.job = job) && decide (x.va % 2 ^ (57 - tszBits x.tsz) = va.toNat % 2 ^ 57 / 2 ^ tszBits x.tsz)

/-- A token of an address that XLATE translated: marked where its translation is removed (R350). DEDUCED (log entry 27). -/
def Token.invalidate (p : Xlation → Bool) (job : Nat) (t : Token) : Token :=
  match t.xva with
  | none => t
  | some v =>
    let tsz := t.data.toNat / 2 ^ 65 % 4
    if p { job := job, va := v.toNat / 2 ^ tszBits tsz, tsz := tsz, pa := 0, perm := 0#6 } then { t with stale := true } else t

/-- The work of an element with its tokens marked. -/
def Work.invalidate (f : Token → Token) (w : Work) : Work :=
  { w with held := w.held.map fun h => h.map fun x => { x with toks := x.toks.map f }, got := w.got.map f }

/-- An element with the removed translations gone from XLATE's caches, and its tokens marked. -/
def Elem.invalidate (p : Xlation → Bool) (f : Token → Token) (x : Elem) : Elem :=
  { x with
    xlcur := x.xlcur.filter fun y => !p y
    xlmicro := x.xlmicro.filter fun y => !p y
    out := x.out.map f
    work := x.work.invalidate f
    shadows := x.shadows.map fun h => { h with work := h.work.invalidate f } }

/-- The job whose launch holds a slot. -/
def jobOfSlot (s : State) (u : Nat) : Nat :=
  match (bankAt s u).launch.bind fun l => mget s.launches l with
  | some l => l.job
  | none => (unitAt s u).csr.jobid.toNat

/-- Translations that satisfy a condition removed from every micro-cache and XLATE, and walk-cache entries by number from
every walker in the package (R349). -/
def removeXlations (s : State) (p : Xlation → Bool) (w : Nat → Bool) : State :=
  let f := fun (u : Nat) => Token.invalidate p (jobOfSlot s u)
  { s with
    pages := s.pages.map fun g =>
      (g.1, { g.2 with micro := g.2.micro.filter fun x => !p x, walks := g.2.walks.filter fun y => !w y.1 })
    elems := s.elems.map fun e => (e.1, e.2.invalidate p (f (e.1 / 32)))
    fifos := s.fifos.map fun q =>
      let g := f (q.1 / 256)
      (q.1, { q.2 with q := q.2.q.map g, chan := q.2.chan.map g, inject := q.2.inject.map g })
    banks := s.banks.map fun b =>
      (b.1, { b.2 with routes := b.2.routes.map fun r => (r.1, { r.2 with held := r.2.held.map (f b.1) }) }) }

/-- Whether a buffered store of an open round was translated by what satisfies a condition (R349). -/
def pendingBy (s : State) (p : Xlation → Bool) : Bool :=
  s.series.any fun r =>
    let job := ((mget s.launches (r.1 / 4)).map (·.job)).getD 0
    r.2.rounds.any fun n => n.stores.any fun y => y.va.any fun v =>
      p { job := job, va := v.toNat / 2 ^ tszBits y.tsz, tsz := y.tsz, pa := 0, perm := 0#6 }

/-- Parked operations whose address satisfies a condition taken off their lists: they ask anew, with a fresh translation
(R349). DEDUCED (log entry 27). -/
def unparkWhere (s : State) (p : Nat → Word → Bool) : State :=
  let q := fun (u : Nat) (va : Word) => !inWindow va && p (jobOfSlot s u) va
  let gone := s.twaiters.filter fun w => q w.slot w.va
  { s with
    twaiters := s.twaiters.filter fun w => !q w.slot w.va
    elems := s.elems.map fun e => if gone.any fun w => w.elem && decide (w.who = e.1) then (e.1, { e.2 with parked := false }) else e
    qwaiters := s.qwaiters.filter fun w => w.taken || !((unitAt s w.unit).wait.any fun x => q w.unit x.value) }

/-- A removal made (R349): the entries go, and the issuer is held while a buffered store that used one is not made. -/
def removing (s s' : State) (p : Xlation → Bool) : Except Stop State :=
  if pendingBy s p then .error (.holds s') else .ok s'

/-- The job of a walk-cache entry's number. -/
def walkKeyJob (k : Nat) : Nat := k / 2 ^ 51

/-- TLBINV (R349). -/
def execTlbinv (a b : BitVec 7) (s : State) : Host.Outcome State Fault Refusal :=
  cword (.tlbinv a b) s fun s => do
    let va := readVal (me s) a
    let job := (readVal (me s) b).toNat
    need' (decide (job < 65536)) (badOperand (.tlbinv a b))
    let keys := [walkKey job 2 va, walkKey job 3 va, walkKey job 4 va]
    let p := fun (x : Xlation) => x.covers57 job va
    let near := fun (j : Nat) (v : Word) => decide (j = job) && decide (v.toNat % 2 ^ 57 / 2 ^ 30 = va.toNat % 2 ^ 57 / 2 ^ 30)
    removing s (unparkWhere (removeXlations s p fun k => keys.contains k) near) p

/-- TLBINVA (R349). -/
def execTlbinva (a : BitVec 7) (m : BitVec 1) (s : State) : Host.Outcome State Fault Refusal :=
  cword (.tlbinva a m) s fun s => do
    let job := (readVal (me s) a).toNat
    let mine := fun (j : Nat) => decide (m = 1#1) || decide (j = job)
    removing s (unparkWhere (removeXlations s (fun x => mine x.job) fun k => mine (walkKeyJob k)) fun j _ => mine j)
      fun x => mine x.job

/-- WCINV (R349); the XLATEs of the job ask anew (R217). -/
def execWcinv (a : BitVec 7) (s : State) : Host.Outcome State Fault Refusal :=
  cword (.wcinv a) s fun s => do
    let job := (readVal (me s) a).toNat
    let s1 := removeXlations s (fun _ => false) fun k => decide (walkKeyJob k = job)
    let s2 := { s1 with elems := s1.elems.map fun e =>
                  if jobOfSlot s (e.1 / 32) = job then (e.1, { e.2 with xlcur := none, xlmicro := [] }) else e }
    removing s (unparkWhere s2 fun j _ => decide (j = job)) fun x => decide (x.job = job)

/-- What XLPROBE writes for a walk (R350). -/
def probeWord (r : Except XFail XOk) : Nat :=
  match r with
  | .ok x => 1 + x.tsz * 2 + x.leaf.toNat * 8 + x.pa / 4096 % 2 ^ 40 * 4096
  | .error (.cause c d) => c.toNat * 256 + d.toNat % 8 * 65536
  | .error .violation => 0

/-- XLPROBE (R350). -/
def execXlprobe (a b : BitVec 7) (s : State) : Host.Outcome State Fault Refusal :=
  cword (.xlprobe a b) s fun s => do
    let x := me s
    let va := readVal x b
    let job := (regK2 x).toNat
    need' (decide (job < 65536) && jobLive s job) (badOperand (.xlprobe a b))
    need' (canonical va) (.trap 5#8 0#8 va)
    let pg := pageOf s.cur
    let w := walkJob s pg job .probe va
    let p := pageAt s pg
    let r := walkerReads s.mem (tileOf s.cur) s.tb p.wpts w.reads
    let s1 := setPage { s with mem := r.1, free := s.free + 8 } pg { p with wpts := r.2 }
    .ok (modMe s1 fun y => writeVal y a (BitVec.ofNat 64 (probeWord w.res)))

/-! ## ATTEST (R89) -/

/-- ATTEST (R89): the checks in their order, then the fork. DESIGN CHOICE (log entry 114). -/
def execAttest (a b : BitVec 7) (s : State) : Host.Outcome State Fault Refusal :=
  cword (.attest a b) s fun s => do
    let x := me s
    let buf := readVal x a
    let nonce := readVal x b
    let ctr := regK1 x
    checkAligned buf 64
    checkAligned nonce 64
    checkAligned ctr 8
    let (_, s1) ← xlateC s .write buf
    let (_, s2) ← xlateC s1 .write (buf + 2047#64)
    let (_, s3) ← xlateC s2 .read nonce
    let (_, s4) ← xlateC s3 .write ctr
    .ok (fork s4 (.attest buf nonce ctr) none buf)

/-! ## FREEZE (R90) -/

/-- An endpoint frozen, with one report (R379); one that is frozen already is left as it is. -/
def freezeEndpoint (s : State) (e violation addr job : Nat) : State :=
  let p := endpointAt s e
  if p.frozen then s
  else
    logReport (setEndpoint s e { p with frozen := true }) (e / 8)
      (securityReport violation 1 (e / 8) e 0 0 addr job (tbOf s (e / 8)))

/-- A die's host port frozen, with one report (R379). -/
def freezePort (s : State) (d violation addr job : Nat) : State :=
  let x := dieAt s d
  if x.hFrozen then s
  else logReport (setDie s d { x with hFrozen := true }) d (securityReport violation 2 d d 0 0 addr job (tbOf s d))

/-- A master as a descriptor names it (R90). -/
inductive Master where
  | unit (u : Nat)
  | endpoint (e : Nat)
  | port (d : Nat)
deriving DecidableEq, Repr

/-- A master descriptor read (R90), none where it is malformed. -/
def readMaster (v : Word) : Option Master :=
  let die := field v 59 58
  let tile := field v 57 48
  let ctx := field v 47 46
  let idx := field v 4 0
  if field v 45 5 ≠ 0 then none
  else
    match field v 63 60 with
    | 0 => if idx = 0 then some (.unit (4 * (1024 * die + tile) + ctx)) else none
    | 1 => if tile = 0 ∧ ctx = 0 ∧ die = idx / 8 then some (.endpoint idx) else none
    | 2 => if tile = 0 ∧ ctx = 0 ∧ idx = 0 then some (.port die) else none
    | _ => none

/-- Whether a thread of a job may freeze a master (R90). -/
def mayFreeze (s : State) (job : Nat) (m : Master) : Bool :=
  match m with
  | .unit u => decide ((unitAt s u).st ≠ .free) && decide ((unitAt s u).st ≠ .retired) && decide ((placeOf s u 24).job = job)
  | .endpoint e => (endpointAt s e).bound && decide ((endpointAt s e).job = job)
  | .port _ => decide (job = 0)

/-- A master frozen by FREEZE, on behalf of a launch. -/
def freezeMaster (s : State) (m : Master) (launch : Nat) : State :=
  match m with
  | .unit u => freezeBySecurity s u 4 24 launch
  | .endpoint e => freezeEndpoint s e 4 launch (endpointAt s e).job
  | .port d => freezePort s d 4 launch (dieAt s d).hwjob

/-- FREEZE (R90). -/
def execFreeze (a : BitVec 7) (s : State) : Host.Outcome State Fault Refusal :=
  cword (.freeze a) s fun s =>
    let x := me s
    match readMaster (readVal x a) with
    | none => .ok (putStatus s false)
    | some m =>
      if mayFreeze s x.csr.jobid.toNat m then .ok (freezeMaster (putStatus s true) m (x.launch % 2 ^ 32))
      else .ok (putStatus s false)

end Sys2Proof.Machine
end

