-- ==== Sys2Proof/Machine/Host.lean ====
section
/-!
DEFINITION. The host ports (20_package.md): endpoint pages (R371, R372), the host window (R302, R374) and the host-port
register page (R370, R375). Every request is answered by a completion.
-/

namespace Sys2Proof.Machine

open Sys2Proof

/-! ## Completions -/

/-- A completion returned to the host. -/
def reply (s : State) (r : Reply) : State := { s with replies := s.replies ++ [r] }

/-- A count of 32 bits with 1 added, saturating (R375). -/
def sat32n (n : Nat) : Nat := min (n + 1) 0xFFFFFFFF

/-- An error completion of a port, counted in HERRCNT (R370, R374, R375). -/
def portError (s : State) (d : Nat) : State :=
  let x := dieAt s d
  reply (setDie s d { x with herrcnt := sat32n x.herrcnt }) .error

/-- A request to a host port: a frozen one answers with an error completion and does nothing (R374, R379). There are four
ports, one to a die. -/
def atPort (d : Nat) (s : State) (f : State → State) : Host.Outcome State Fault Refusal :=
  .next (if d ≥ 4 then s else if (dieAt s d).hFrozen then reply s .error else f s)

/-! ## Endpoint pages (R371, R372) -/

/-- An error completion of an endpoint, counted in its error count (R371). DEDUCED (log entry 88). -/
def endpointError (s : State) (ep : Nat) : State :=
  let p := endpointAt s ep
  reply (setEndpoint s ep { p with errs := min (p.errs + 1) 65535 }) .error

/-- Free ingress entries of an endpoint (R371). -/
def credit (p : Endpoint) : Nat := 64 - p.ingress.length

/-- Whether an endpoint takes a token. -/
def takesToken (p : Endpoint) : Bool := p.bound && !p.frozen && decide (0 < credit p)

/-- A token queued at an endpoint. -/
def queueToken (s : State) (ep : Nat) (t : Token) : State :=
  let p := endpointAt s ep
  reply (setEndpoint s ep { p with ingress := p.ingress ++ [t] }) (.ok 0#512)

/-- The aperture offset of an endpoint's page (R370). -/
def endpointPage (ep : Nat) : Nat := 0x1000 + 0x1000 * (ep % 8)

/-- INGRESS_SLOT_WRITE (R371): an aligned 64-byte write to a slot queues one token. -/
def execIngressSlotWrite (ep off size : Nat) (data : BitVec 512) (s : State) : Host.Outcome State Fault Refusal :=
  atPort (ep / 8) s fun s =>
    if size = 64 ∧ off % 64 = 0 ∧ off ≤ 0x7C0 ∧ takesToken (endpointAt s ep) then
      queueToken s ep { ty := tyData, data := data, slot := endpointPage ep + off }
    else endpointError s ep

/-- INGRESS_EOS_WRITE (R371, R372): a write of a rank to EOS queues an EOS while a stream is open. -/
def execIngressEosWrite (ep size : Nat) (v : BitVec 64) (s : State) : Host.Outcome State Fault Refusal :=
  atPort (ep / 8) s fun s =>
    let p := endpointAt s ep
    if size = 8 ∧ v.toNat < 4 ∧ takesToken p ∧ p.isOpen then
      queueToken s ep { ty := tyEos, rank := v.setWidth 2 }
    else endpointError s ep

/-- A read of an endpoint page (R371): the ingress slots and EOS are write-only, and read zero (R8); none where the offset
holds no register. -/
def endpointRead (p : Endpoint) (off : Nat) : Option Word :=
  match off with
  | 0x800 => some 0#64
  | 0x808 => some (BitVec.ofNat 64 (credit p))
  | 0x810 => some (BitVec.ofNat 64
      ((if p.bound then 1 else 0) + (if p.frozen then 2 else 0) + (if p.isOpen then 4 else 0) + 65536 * p.errs))
  | 0x818 => some (BitVec.ofNat 64 p.egrcnt)
  | _ => if off < 0x800 then some 0#64 else none

/-! ## The host window (R302, R374) -/

/-- The requester of translation for a host port: its own walker, under HWJOB (R374). Its pages and tiles are numbered
after those of the dies. -/
def hostReq (s : State) (d : Nat) : Requester :=
  { who := 16 * (4096 + 4 * d), tile := 4096 + 4 * d, job := (dieAt s d).hwjob, lch := none }

/-- The virtual address of an aperture offset in the window, none outside it (R370, R374). -/
def hostVa (s : State) (d off : Nat) : Option Word :=
  if 2 ^ 46 ≤ off ∧ off < 2 ^ 47 then some ((dieAt s d).hwbase + BitVec.ofNat 64 (off - 2 ^ 46)) else none

/-- A window access translated and checked (R374): the port is frozen at a closed page, and answers with an error completion
where translation or permission fails. -/
def hostXlate (s : State) (d : Nat) (k : Access) (va : Word) (f : State → XOk → State) : State :=
  let q := hostReq s d
  match translate s q k va with
  | (.error (.cause _ _), s1) => portError s1 d
  | (.error .violation, s1) => reply (freezePort s1 d 0 va.toNat q.job) .error
  | (.ok x, s1) =>
    if x.cl || (policyOf s q.job).conf then reply (freezePort s1 d 1 va.toNat q.job) .error else f s1 x

/-- A host port's time set (R302). -/
def setHpts (s : State) (d pts : Nat) : State := setDie s d { dieAt s d with hpts := pts }

/-- A read of n bytes by a host port, as an event of its thread (R302). -/
def hostRead (s : State) (d n : Nat) (x : XOk) : State :=
  if isRegion x.pa then
    if n = 8 then reply s (.ok (BitVec.ofNat 512 (readAt s x.pa n))) else portError s d
  else
    let (m, v) := if (poisonedIn s.mem x.pa n).isSome then
        ({ s with free := s.free + 8 },
          ofBytes ((List.range 8).flatMap fun k => toBytes 8 (Config.openWord (s.free + k)).toNat) % 2 ^ (8 * n))
      else (s, rdNum s.mem x.pa n)
    let ev := readEvent m.mem x.pa n (hostReq s d).tile s.tb none x.sa (dieAt s d).hpts
    reply (sendHostPacket (setHpts { m with mem := ev.mem } d ev.pts) d (dieAt s d).hwjob x.pa) (.ok (BitVec.ofNat 512 v))

/-- A write of n bytes by a host port, as an event of its thread (R302). -/
def hostWrite (s : State) (d n : Nat) (data : Flit) (x : XOk) : State :=
  if isRegion x.pa then
    if n = 8 then
      reply (regionStore s (windowPage x.pa) (x.pa % 4096) (data.setWidth 64) (dieAt s d).hpts) (.ok 0#512)
    else portError s d
  else
    let ev := writeEvent s.mem x.pa (toBytes n data.toNat) (hostReq s d).tile s.tb none x.sa (dieAt s d).hpts
    reply (sendHostPacket (setHpts { s with mem := ev.mem } d ev.pts) d (dieAt s d).hwjob x.pa) (.ok 0#512)

/-- The sizes that the window takes (R374). -/
def windowSize (n : Nat) : Bool := decide (n = 1 ∨ n = 2 ∨ n = 4 ∨ n = 8 ∨ n = 64)

/-- HOST_WINDOW_ACCESS (R374): a read or a write of 1, 2, 4, 8 or 64 aligned bytes. A write to a line that a pinned round
leases waits: the request is not taken (R257). -/
def execHostWindowAccess (d off size : Nat) (wr : Bool) (data : BitVec 512) (s : State) : Host.Outcome State Fault Refusal :=
  atPort d s fun s =>
    match hostVa s d off with
    | none => portError s d
    | some va =>
      if windowSize size && decide (va.toNat % size = 0) then
        hostXlate s d (if wr then .write else .read) va fun s1 x =>
          if wr then (if pinnedRange s1 none x.pa size then s else hostWrite s1 d size data x) else hostRead s1 d size x
      else portError s d

/-- The atomics that the window takes, by the operation's number in R332 (R374). -/
def hostOp (op : Nat) : Option AtomicOp :=
  match op with
  | 0 => some .add | 8 => some .swp | 9 => some .cas | _ => none

/-- A host atomic at a translated word (R302, R332): refused, and counted, on a page without SA. -/
def hostAtomicAt (s : State) (d : Nat) (op : AtomicOp) (v c : Word) (x : XOk) : State :=
  if isRegion x.pa then portError s d
  else if !x.sa then
    let y := dieAt s d
    reply (setDie s d { y with hrefcnt := sat32n y.hrefcnt }) .error
  else
    let p := (poisonedIn s.mem x.pa 8).isSome
    let old := if p then (Config.openWord s.free).toNat else rdNum s.mem x.pa 8
    let new := op.apply 64 old v.toNat c.toNat
    let ev := atomicEvent s.mem x.pa 8 (hostReq s d).tile s.tb none x.sa (dieAt s d).hpts
    let m := if op = .cas ∧ old ≠ c.toNat then ev.mem else clearPoison (wrNum ev.mem x.pa 8 new) x.pa 8
    let s1 := setHpts { s with mem := m, free := if p then s.free + 1 else s.free } d ev.pts
    reply (sendHostPacket s1 d (dieAt s d).hwjob x.pa) (.ok (BitVec.ofNat 512 old))

/-- HOST_ATOMIC (R302, R374): ADD, SWP or CAS of an aligned 8-byte word. -/
def execHostAtomic (d off op : Nat) (x c : BitVec 64) (s : State) : Host.Outcome State Fault Refusal :=
  atPort d s fun s =>
    match hostVa s d off, hostOp op with
    | some va, some o =>
      if va.toNat % 8 = 0 then
        hostXlate s d .atomic va fun s1 y => if pinnedRange s1 none y.pa 8 then s else hostAtomicAt s1 d o x c y
      else portError s d
    | _, _ => portError s d

/-! ## The aperture and the host-port register page (R370, R375) -/

/-- Whether an aperture offset is that of a register of the host-port page, of an endpoint page or of the window (R370,
R375). -/
def apertureHas (off : Nat) : Bool :=
  (decide (off ≤ 0x020) && decide (off % 8 = 0)) || (decide (0x1000 ≤ off) && decide (off < 0x9000)) ||
    (decide (2 ^ 46 ≤ off) && decide (off < 2 ^ 47))

/-- HOST_BAD_OFFSET (R370, R375): an access outside the registers of the register page, the endpoint pages and the window. -/
def execHostBadOffset (d off : Nat) (s : State) : Host.Outcome State Fault Refusal :=
  atPort d s fun s => if apertureHas off then s else portError s d

/-- HWJOB written, or refused with an error completion (R375). -/
def writeHwjob (d : Nat) (v : Word) (s : State) : State :=
  if v.toNat < 65536 ∧ jobLive s v.toNat then reply (setDie s d { dieAt s d with hwjob := v.toNat }) (.ok 0#512)
  else portError s d

/-- HWBASE written, or refused (R375). -/
def writeHwbase (d : Nat) (v : Word) (s : State) : State :=
  if field v 11 0 = 0 ∧ field v 63 57 = 0 then reply (setDie s d { dieAt s d with hwbase := v }) (.ok 0#512)
  else portError s d

/-- HWJOB_WRITE (R375). -/
def execHwjobWrite (d : Nat) (v : BitVec 64) (s : State) : Host.Outcome State Fault Refusal := atPort d s (writeHwjob d v)

/-- HWBASE_WRITE (R375). -/
def execHwbaseWrite (d : Nat) (v : BitVec 64) (s : State) : Host.Outcome State Fault Refusal := atPort d s (writeHwbase d v)

/-- A read of the host-port register page (R375). -/
def hostPageRead (x : Die) (off : Nat) : Option Word :=
  match off with
  | 0x000 => some (BitVec.ofNat 64 x.hwjob)
  | 0x008 => some x.hwbase
  | 0x010 => some (word1 x.hFrozen)
  | 0x018 => some (BitVec.ofNat 64 x.hrefcnt)
  | 0x020 => some (BitVec.ofNat 64 x.herrcnt)
  | _ => none

end Sys2Proof.Machine
end

