-- ==== Sys2Proof/Machine/Aqcb.lean ====
section
/-!
DEFINITION. Queue control blocks in memory (R305, R307): where they are written, and the STEAL bit that a barrier's home sets.
-/

namespace Sys2Proof.Machine

open Sys2Proof

/-- The block at a physical address. -/
def blockAt (m : Memory) (pa : Nat) : Aqcb := readAqcb (rdBytes m pa 64)

/-- A block written at its address by its home controller, as one event there (R307). -/
def putBlock (s : State) (pa : Nat) (q : Aqcb) (pts : Nat) : State :=
  { s with mem := (writeEvent s.mem pa q.bytes (1024 * paDie pa) s.tb none true pts).mem }

/-- STEAL of the block at a virtual address changed by a barrier's home, as an event from a time on, with the time of that
event (R261, R311); address 0 names no block, and a block found inconsistent is not repaired (R306). -/
def setSteal (p : State × Nat) (q : Requester) (va : Word) (v : Bool) : State × Nat :=
  if va = 0#64 then p
  else
    match xlateD p.1 q .atomic va with
    | none => p
    | some (x, s') =>
      let b := blockAt s'.mem x.pa
      if b.consistent x.pa then
        let s1 := putBlock s' x.pa (b.withSteal v) p.2
        (s1, max p.2 (getLine s1.mem (lineOf x.pa)).wts)
      else (s', p.2)

end Sys2Proof.Machine
end

