-- ==== Sys2Proof/Machine/Queue.lean ====
section
/-!
DEFINITION. Architected queues (R307 to R312, R338 to R342): major 0x30.
-/

namespace Sys2Proof.Machine

open Sys2Proof

/-! ## At the home (R306 to R309) -/

/-- The slice controller that is the home of a block (R306). -/
def homeCtrl (pa : Nat) : Nat :=
  if paClass pa = 2 then
    let lv := pa / 2 ^ 27 % 8
    switchNo (paDie pa) lv (instOf lv (homeOf pa).1)
  else switchNo (paDie pa) 4 0

/-- A trap of cause 0x07 with DETAIL 3 (R308). -/
def badQueue (va : Word) : Stop := .trap 7#8 3#8 va

/-- Step 1 of R308: the block lies in a slice bank or in HBM4. -/
def checkHome (pa : Nat) (va : Word) : Except Stop Unit :=
  need' (decide (paClass pa = 0) || decide (paClass pa = 2)) (badQueue va)

/-- The block at an address with POISON written and every other byte as found, as one event at its home (R308 step 3). -/
def poisonAsFound (s : State) (pa pts : Nat) : State :=
  { s with mem := (writeEvent s.mem (pa + 14) [rdByte s.mem (pa + 14) ||| 2#8] (homeOf pa).1 s.tb none true pts).mem }

/-- A translation by a requester, as the C-word that asks sees its failure. -/
def xlateBy (s : State) (r : Requester) (k : Access) (va : Word) : Except Stop (XOk × State) :=
  match translate s r k va with
  | (.ok x, s') => .ok (x, s')
  | (.error (.cause c d), s') => .error (.trapped s' c d va)
  | (.error .violation, s') => .error (.violation s' va)

/-- A queue operation as one event at the home (R307): the block's line and the slot's take part at one time. -/
def queueEvent (s : State) (pts pa : Nat) (q : Aqcb) (slot : XOk) (n : Nat) (data : Option (List Byte)) : State × Nat :=
  let t := (homeOf pa).1
  let p := storeTime s.mem pts (linesOf pa 64)
  let e := match data with
    | some bs => writeEvent s.mem slot.pa bs t s.tb none slot.sa p
    | none => readEvent s.mem slot.pa n t s.tb none slot.sa p
  ({ s with mem := (writeEvent e.mem pa q.bytes t s.tb none true e.pts).mem }, e.pts)

/-- An enqueue at the home, of a block that is not full (R309). -/
def enqueueBy (s : State) (r : Requester) (pts pa : Nat) (data : List Byte) : Except Stop (State × Nat) := do
  let q := blockAt s.mem pa
  let (x, s1) ← xlateBy s r .write (q.slot q.tail)
  need' (!pinnedRange s1 none x.pa q.size && !pinnedRange s1 none pa 64) .hold
  .ok (queueEvent s1 pts pa { q with tail := (q.tail + 1) % q.cap, free := q.free - 1 } x q.size (some data))

/-- A dequeue, or a steal, at the home, of a block that is not empty (R309): the element's bytes. -/
def dequeueBy (s : State) (r : Requester) (pts pa : Nat) (steal : Bool) : Except Stop (List Byte × State × Nat) := do
  let q := blockAt s.mem pa
  let i := if steal then (q.tail + q.cap - 1) % q.cap else q.head
  let va := q.slot i
  let (x, s1) ← xlateBy s r .read va
  need' (!pinnedRange s1 none pa 64) .hold
  need' (poisonedIn s1.mem x.pa q.size).isNone (.ends (poisonFault s1 s1.cur va))
  let q' := if steal then { q with tail := i, free := q.free + 1 }
            else { q with head := (q.head + 1) % q.cap, free := q.free + 1 }
  let r := queueEvent s1 pts pa q' x q.size none
  .ok (rdBytes s1.mem x.pa q.size, r.1, r.2)

/-! ## The element's bytes at the issuer (R339) -/

/-- The 8-byte words from an address translated one by one, in ascending address. -/
def xlateWords (s : State) (k : Access) (va : Word) : Nat → Except Stop State
  | 0 => .ok s
  | n + 1 => do
    let (_, s1) ← xlateC s k va
    xlateWords s1 k (va + 8#64) n

/-- n 8-byte words read by the issuing unit, in ascending address. -/
def readWords8 (s : State) (va : Word) : Nat → Except Stop (List Byte × State)
  | 0 => .ok ([], s)
  | n + 1 => do
    let (x, s1) ← xlateC s .read va
    let (b, s2) ← readC s1 x 8 none va
    let (l, s3) ← readWords8 s2 (va + 8#64) n
    .ok (b ++ l, s3)

/-- 8-byte words written by the issuing unit, in ascending address. -/
def writeWords8 (s : State) (va : Word) : Nat → List Byte → Except Stop State
  | 0, _ => .ok s
  | n + 1, bs => do
    let (x, s1) ← xlateC s .write va
    let s2 ← storeC s1 x (bs.take 8) none va
    writeWords8 s2 (va + 8#64) n (bs.drop 8)

/-- Whether a line that some of n 8-byte words from an address write is under a pinned lease. -/
def pinnedWords (s : State) (va : Word) : Nat → Bool
  | 0 => false
  | n + 1 =>
    (match translate s (requester s s.cur) .write va with
     | (.ok x, _) => pinnedRange s none x.pa 8
     | _ => false) || pinnedWords s (va + 8#64) n

/-- The time of the issuing unit moved on by a queue event (R307). -/
def afterQueue (s : State) (pts : Nat) : State := modMe s fun x => { x with pts := max x.pts pts }

/-! ## Parked operations (R310) -/

/-- What a parked operation of a unit that cannot be completed leaves: its trap, its fault or its freeze. -/
def stopParked (s : State) (u : Nat) (e : Stop) : State :=
  stopWaiting s u fun s =>
    match e with
    | .trap c d v => raise s u c d v (unitAt s u).pc
    | .trapped s' c d v => raise s' u c d v (unitAt s u).pc
    | .poison va => poisonFault s u va
    | .violation s' va => freezeBySecurity s' u 0 24 va.toNat
    | .ends s' => s'
    | _ => s

/-- A parked operation of a unit done at the home, none while a pinned round holds it back. -/
def doParked (s : State) (w : QueueWaiter) (body : State → Except Stop State) : Option State :=
  let s0 := { s with qwaiters := s.qwaiters.erase w }
  match asUnit s0 w.unit body with
  | .ok s1 => some (backTo s1 s.cur)
  | .error .hold => none
  | .error e => some (backTo (stopParked (backTo s0 w.unit) w.unit e) s.cur)

/-- A parked enqueue completed: a new event with the effect of R309. -/
def completeEnq (s : State) (w : QueueWaiter) : Option State :=
  doParked s w fun s1 => do
    let (s2, pts) ← enqueueBy s1 (requester s1 s1.cur) (me s1).pts w.block w.data
    .ok (completeParked (afterQueue s2 pts) w.unit id)

/-- The element of a parked dequeue delivered: written, or kept while a pinned round leases its destination, for which the unit
is held (R339). -/
def deliver (s : State) (w : QueueWaiter) (bs : List Byte) : Except Stop State :=
  match w.dest with
  | none => .ok <| completeParked s w.unit fun x => match w.reg with
    | some d => writeVal x d (BitVec.ofNat 64 (ofBytes bs))
    | none => x
  | some va =>
    match writeWords8 s va (bs.length / 8) bs with
    | .ok s1 => .ok (completeParked s1 w.unit id)
    | .error .hold =>
      let held := fun (y : UnitState) => if y = .waiting then .running else y
      .ok (modMe { s with qwaiters := s.qwaiters ++ [{ w with data := bs, taken := true }] } fun x =>
        { x with st := held x.st, before := held x.before, wait := none })
    | .error e => .error e

/-- A parked dequeue completed; where its destination does not translate, it takes no element. -/
def completeDeq (s : State) (w : QueueWaiter) : Option State :=
  doParked s w fun s1 => do
    let q := blockAt s1.mem w.block
    let s2 ← match w.dest with
      | some va => xlateWords s1 .write va (q.size / 8)
      | none => .ok s1
    let (bs, s3, pts) ← dequeueBy s2 (requester s2 s2.cur) (me s2).pts w.block false
    deliver (afterQueue s3 pts) w bs

/-- The first parked operation of a kind on a block, where the block has a slot or an element for it. -/
def firstParked (s : State) (pa : Nat) (enq : Bool) : Option QueueWaiter :=
  let q := blockAt s.mem pa
  if (if enq then q.free = 0 else q.free = q.cap) then none
  else s.qwaiters.find? fun w => decide (w.block = pa) && (w.enq == enq) && !w.taken

/-- A waiter that a pinned round holds back marked as due. -/
def markDue (s : State) (w : QueueWaiter) : State :=
  { s with qwaiters := s.qwaiters.map fun y => if y = w then { y with due := true } else y }

/-- After an event that freed a slot (`enq`) or added an element, the first parked operation that it serves completes, and
so on, n times at most; one that is held back keeps its place (R310). -/
def serveQueue (pa : Nat) : Nat → Bool → State → State
  | 0, _, s => s
  | n + 1, enq, s =>
    match firstParked s pa enq with
    | none => s
    | some w =>
      match if enq then completeEnq s w else completeDeq s w with
      | none => markDue s w
      | some s' => serveQueue pa n (if (blockAt s'.mem pa).free = (blockAt s.mem pa).free then enq else !enq) s'

/-- Parked operations of a kind completed in arrival order while the block allows it, n at most, each with what it calls
for. -/
def serveAll (pa : Nat) (enq : Bool) : Nat → State → State
  | 0, s => s
  | n + 1, s =>
    match firstParked s pa enq with
    | none => s
    | some w =>
      match if enq then completeEnq s w else completeDeq s w with
      | none => markDue s w
      | some s' =>
        let moved := decide ((blockAt s'.mem pa).free ≠ (blockAt s.mem pa).free)
        serveAll pa enq n (if moved then serveQueue pa s'.qwaiters.length (!enq) s' else s')

/-- The waiters that a pinned round has held back tried again. -/
def serveDue (s : State) : State :=
  (s.qwaiters.filter (·.due)).foldl (fun s w => serveAll w.block w.enq s.qwaiters.length s) s

/-- Every operation parked on a block ended by cause 0x0C (R310). -/
def poisonWaiters (s : State) (pa : Nat) : State :=
  let ws := s.qwaiters.filter fun w => decide (w.block = pa) && !w.taken
  ws.foldl (fun s w => stopWaiting s w.unit fun s =>
      let x := unitAt s w.unit
      raise s w.unit 0x0C#8 0#8 ((x.wait.map (·.value)).getD 0#64) x.pc)
    { s with qwaiters := s.qwaiters.filter fun w => !(decide (w.block = pa) && !w.taken) }

/-- A block found inconsistent by an operation at a time: POISON set, and its waiters ended (R308 step 3, R310). -/
def corrupt (s : State) (pa pts : Nat) : State := poisonWaiters (poisonAsFound s pa pts) pa

/-- An operation of the issuing unit sent to a block's home (R312, R338). -/
def toHome (s : State) (pa : Nat) : State := sendPacket s s.cur pa

/-- A trap of the home's answer, which the issuer takes after its operation has travelled (R308, R312). -/
def homeTrap (s : State) (pa : Nat) (c d : BitVec 8) (va : Word) : Stop := .trapped (toHome s pa) c d va

/-- Step 3 of R308. A trap by a home keeps what the home wrote. DEDUCED (log entry 25). -/
def checkBlock (s : State) (pa : Nat) (va : Word) : Except Stop Aqcb := do
  need' (poisonedIn s.mem pa 64).isNone (.ends (poisonFault (toHome s pa) s.cur va))
  let q := blockAt s.mem pa
  need' (q.consistent pa) (homeTrap (corrupt s pa (me s).pts) pa 0x0B#8 0#8 va)
  .ok q

/-- Steps 1 to 5 of R308 for a transfer by the issuing unit: the block. -/
def checkQueue (s : State) (pa : Nat) (va : Word) (deq : Bool) : Except Stop Aqcb := do
  checkHome pa va
  need' (!(blockAt s.mem pa).poison) (homeTrap s pa 0x0C#8 0#8 va)
  let q ← checkBlock s pa va
  need' (q.multiDie || decide (paDie pa = dieOf s.cur)) (homeTrap s pa 7#8 3#8 va)
  need' (!deq || decide (q.owner = 0#64) || decide (q.owner = unitName (me s).launch s.cur)) (homeTrap s pa 7#8 3#8 va)
  .ok q

/-- A blocking operation parked at the home, or retried where the home's list of 256 entries is full (R310). -/
def park (s : State) (w : QueueWaiter) (va : Word) : Stop :=
  let full := decide ((s.qwaiters.filter fun y => decide (y.ctrl = w.ctrl) && !y.taken).length ≥ 256)
  .wait (if full then s else { s with qwaiters := s.qwaiters ++ [w] }) { kind := .queue, value := va, count := waitCount (me s) }

/-! ## Enqueues (R338, R339) -/

/-- What is enqueued: the bytes at an address, or a value. -/
inductive Payload where
  | at (va : Word)
  | word (v : Word)
deriving DecidableEq, Repr

/-- An enqueue; `block` tells the blocking forms. -/
def enqBody (a : BitVec 7) (p : Payload) (block : Bool) (s : State) : Except Stop State := do
  let va := readVal (me s) a
  let (x, s1) ← address s .atomic va 64
  let s2 ← match p with
    | .at b => do
      let (_, s2) ← address s1 .read b 8
      pure s2
    | .word _ => .ok s1
  let s3 ← joinAll s2
  let q ← checkQueue s3 x.pa va false
  let (bs, s4) ← match p with
    | .at b => readWords8 s3 b (q.size / 8)
    | .word v => do
      need' (decide (q.esz = 0)) (homeTrap s3 x.pa 7#8 3#8 va)
      pure (toBytes 8 v.toNat, s3)
  let s5 := toHome s4 x.pa
  if q.free = 0 then
    if block then .error (park s5 { ctrl := homeCtrl x.pa, block := x.pa, unit := s.cur, enq := true, data := bs } va)
    else .ok (putStatus s5 false)
  else do
    let (s6, pts) ← enqueueBy s5 (requester s5 s5.cur) (me s5).pts x.pa bs
    let s7 := serveQueue x.pa (s6.qwaiters.length) false (afterQueue s6 pts)
    .ok (if block then s7 else putStatus s7 true)

/-- ENQ (R338). -/
def execEnq (a b : BitVec 7) (s : State) : Host.Outcome State Fault Refusal :=
  cword (.enq a b) s (enqBody a (.at (readVal (me s) b)) true)

/-- ENQ.NB (R338). -/
def execEnqNb (a b : BitVec 7) (s : State) : Host.Outcome State Fault Refusal :=
  cword (.enqNb a b) s (enqBody a (.at (readVal (me s) b)) false)

/-- ENQV (R338). -/
def execEnqv (a b : BitVec 7) (s : State) : Host.Outcome State Fault Refusal :=
  cword (.enqv a b) s (enqBody a (.word (readVal (me s) b)) true)

/-! ## Dequeues and steals (R338, R339) -/

/-- The forms of a dequeue: blocking, non-blocking, steal. -/
inductive Taking where
  | block | nb | steal
deriving DecidableEq, Repr

/-- An element that the unit has received and whose writes were held back. -/
def takenBy (s : State) (u : Nat) : Option QueueWaiter := s.qwaiters.find? fun w => decide (w.unit = u) && w.taken

/-- A dequeue or a steal to an address or to a register. -/
def deqBody (a : BitVec 7) (dest : Option Word) (reg : Option (BitVec 7)) (f : Taking) (s : State) : Except Stop State := do
  match takenBy s s.cur with
  | some w => do
    let s1 ← writeWords8 s (w.dest.getD 0#64) (w.data.length / 8) w.data
    .ok { s1 with qwaiters := s1.qwaiters.erase w }
  | none => do
    let va := readVal (me s) a
    let (x, s1) ← address s .atomic va 64
    let s2 ← match dest with
      | some b => do
        let (_, s2) ← address s1 .write b 8
        pure s2
      | none => .ok s1
    let q ← checkQueue s2 x.pa va (f != .steal)
    need' (reg.isNone || decide (q.esz = 0)) (homeTrap s2 x.pa 7#8 3#8 va)
    let sent := toHome s2 x.pa
    if decide (q.free = q.cap) || (f == .steal && !q.steal) then
      match f with
      | .block => .error (park sent { ctrl := homeCtrl x.pa, block := x.pa, unit := s.cur, enq := false, dest := dest, reg := reg } va)
      | _ => .ok (putStatus sent false)
    else do
      let s3 ← match dest with
        | some b => do
          need' (!pinnedWords s2 b (q.size / 8)) .hold
          xlateWords sent .write b (q.size / 8)
        | none => .ok sent
      let (bs, s4, pts) ← dequeueBy s3 (requester s3 s3.cur) (me s3).pts x.pa (f == .steal)
      let s5 := serveQueue x.pa (s4.qwaiters.length) true (afterQueue s4 pts)
      let s6 ← match dest with
        | some b => writeWords8 s5 b (q.size / 8) bs
        | none => .ok s5
      let s7 := match reg with
        | some d => modMe s6 fun y => writeVal y d (BitVec.ofNat 64 (ofBytes bs))
        | none => s6
      .ok (if f = .block then s7 else putStatus s7 true)

/-- DEQ (R338). -/
def execDeq (a b : BitVec 7) (s : State) : Host.Outcome State Fault Refusal :=
  cword (.deq a b) s (deqBody a (some (readVal (me s) b)) none .block)

/-- DEQ.NB (R338). -/
def execDeqNb (a b : BitVec 7) (s : State) : Host.Outcome State Fault Refusal :=
  cword (.deqNb a b) s (deqBody a (some (readVal (me s) b)) none .nb)

/-- QSTEAL (R338). -/
def execQsteal (a b : BitVec 7) (s : State) : Host.Outcome State Fault Refusal :=
  cword (.qsteal a b) s (deqBody a (some (readVal (me s) b)) none .steal)

/-- DEQV (R338). -/
def execDeqv (d a : BitVec 7) (s : State) : Host.Outcome State Fault Refusal :=
  cword (.deqv d a) s (deqBody a none (some d) .block)

/-! ## Management (R341, R342) -/

/-- A block written at its home for the issuing unit, as one event (R307). -/
def writeBlock (s : State) (pa : Nat) (bs : List Byte) : Except Stop State := do
  need' (!pinnedRange s none pa 64) .hold
  let e := writeEvent s.mem pa bs (homeOf pa).1 s.tb none true (me s).pts
  .ok (afterQueue (toHome { s with mem := e.mem } pa) e.pts)

/-- QINIT (R341). -/
def execQinit (a b : BitVec 7) (s : State) : Host.Outcome State Fault Refusal :=
  cword (.qinit a b) s fun s => do
    let y := me s
    let va := readVal y a
    let c := readVal y b
    let (x, s1) ← address s .atomic va 64
    checkHome x.pa va
    need' (bitOf c 18 || decide (paDie x.pa = dieOf s.cur)) (homeTrap s1 x.pa 7#8 3#8 va)
    let esz := field c 2 0
    let capl := field c 12 8
    let q : Aqcb :=
      { head := 0, tail := 0, free := 2 ^ capl, esz := esz, capl := capl, flags := field c 23 16, owner := regK3 y,
        home := x.pa, base := regK2 y, check := 0, zeros := true }
    if field c 63 24 ≠ 0 ∨ field c 15 13 ≠ 0 ∨ field c 7 3 ≠ 0 ∨ bitOf c 17 = true ∨ esz > 5 ∨ capl > 24 ∨ q.flags ≥ 8 ∨
        (regK2 y).toNat % q.size ≠ 0 ∨ field (regK3 y) 17 0 ≠ 0 ∨
        (s1.qwaiters.any fun w => decide (w.block = x.pa) && !w.taken) = true then
      .ok (putStatus (toHome s1 x.pa) false)
    else do
      let s2 ← writeBlock s1 x.pa q.bytes
      .ok (putStatus s2 true)

/-- QSTAT (R342). -/
def execQstat (d a : BitVec 7) (s : State) : Host.Outcome State Fault Refusal :=
  cword (.qstat d a) s fun s => do
    let va := readVal (me s) a
    let (x, s1) ← address s .atomic va 64
    checkHome x.pa va
    let (b, s2) ← readC s1 x 64 none va
    let q := readAqcb b
    let n := (s2.qwaiters.filter fun w => decide (w.block = x.pa) && !w.taken).length
    let held := (2 ^ q.capl + (2 ^ 32 - q.free)) % 2 ^ 32
    .ok (modMe s2 fun y => writeVal y d (BitVec.ofNat 64
      ((if q.consistent x.pa then 2 ^ 63 else 0) + min n 127 * 2 ^ 56 + q.capl * 2 ^ 48 + q.esz * 2 ^ 40 + q.flags * 2 ^ 32 + held)))

/-- QPOISON (R341). -/
def execQpoison (a : BitVec 7) (s : State) : Host.Outcome State Fault Refusal :=
  cword (.qpoison a) s fun s => do
    let va := readVal (me s) a
    let (x, s1) ← address s .atomic va 64
    checkHome x.pa va
    let q := blockAt s1.mem x.pa
    if q.poison then .ok (toHome s1 x.pa)
    else do
      let front := q.withPoison true
      let bs := rdBytes s1.mem x.pa 14 ++ toBytes 1 front.flags ++ rdBytes s1.mem (x.pa + 15) 25
      let s2 ← writeBlock s1 x.pa (bs ++ toBytes 2 (checkOf bs))
      .ok (poisonWaiters s2 x.pa)

/-- The held elements of a block from place k of the queue on: their bytes and the lines of their slots. -/
def drainSlots (q : Aqcb) : Nat → Nat → State → Except Stop (List Byte × List Nat × State)
  | 0, _, s => .ok ([], [], s)
  | n + 1, k, s => do
    let va := q.slot ((q.head + k) % q.cap)
    let (x, s1) ← xlateC s .read va
    need' (poisonedIn s1.mem x.pa q.size).isNone (.ends (poisonFault s1 s1.cur va))
    let (bs, ls, s2) ← drainSlots q n (k + 1) s1
    .ok (rdBytes s1.mem x.pa q.size ++ bs, linesOf x.pa q.size ++ ls, s2)

/-- The places of n 8-byte words that the home writes from an address up, none of them under a pinned lease. -/
def drainPlaces (va : Word) : Nat → State → Except Stop (List Nat × State)
  | 0, s => .ok ([], s)
  | n + 1, s => do
    let (x, s1) ← xlateC s .write va
    need' (!pinnedRange s1 none x.pa 8) .hold
    let (l, s2) ← drainPlaces (va + 8#64) n s1
    .ok (x.pa :: l, s2)

/-- One drained word put in its place at a time, which a region window sees as a store (R263). -/
def putWord (pts : Nat) (s : State) (p : Nat × Word) : State :=
  if isRegion p.1 then regionStore s (windowPage p.1) (p.1 % 4096) p.2 pts
  else { s with mem := clearPoison (wrNum s.mem p.1 8 p.2.toNat) p.1 8 }

/-- A drain as one event at the home (R341): the lines written and those read take part at one time. -/
def drainEvent (s : State) (pa : Nat) (q : Aqcb) (slots : List Nat) (places : List Nat) (bs : List Byte) : State × Nat :=
  let t := (homeOf pa).1
  let out := ((places.filter fun a => !isRegion a).map lineOf ++ [lineOf pa]).eraseDups
  let p := loadTime s.mem (storeTime s.mem (me s).pts out) slots
  let e := stampLines s.mem t s.tb none false p out
  let e' := leaseLines e.mem t s.tb none false p slots.eraseDups
  let words := (List.range places.length).map fun k => (BitVec.ofNat 64 (numAt bs (8 * k) 8) : Word)
  ((places.zip words).foldl (putWord p) { s with mem := clearPoison (wrBytes e'.mem pa q.bytes) pa 64 }, p)

/-- QDRAIN (R341). -/
def execQdrain (d a b : BitVec 7) (s : State) : Host.Outcome State Fault Refusal :=
  cword (.qdrain d a b) s fun s => do
    let va := readVal (me s) a
    let vb := readVal (me s) b
    let (x, s1) ← address s .atomic va 64
    let (_, s2) ← address s1 .write vb 8
    checkHome x.pa va
    let q ← checkBlock s2 x.pa va
    let n := q.cap - q.free
    let (bs, slots, s3) ← drainSlots q n 0 (toHome s2 x.pa)
    let (places, s4) ← drainPlaces vb (bs.length / 8) s3
    need' (!pinnedRange s4 none x.pa 64) .hold
    let (s5, pts) := drainEvent s4 x.pa ({ q with head := q.tail, free := q.cap }.withPoison false) slots places bs
    let s6 := afterQueue s5 pts
    .ok (modMe (serveAll x.pa true s6.qwaiters.length s6) fun y => writeVal y d (BitVec.ofNat 64 n))

end Sys2Proof.Machine
end

