-- ==== Sys2Proof/Machine/WorkEvents.lean ====
section
/-!
DEFINITION. What the region controllers, the walkers and the die controllers do by themselves: fault records written to their
queues (R173), walks (R316), completions (R318), and the loader (R322).
-/

namespace Sys2Proof.Machine

open Sys2Proof

/-! ## Fault records (R173, R264, R266) -/

/-- The first tile of a page. -/
def pageTile (pg : Nat) : Nat := 1024 * (pg / 64) + 32 * (4 * (pg % 64 / 8)) + 4 * (pg % 64 % 8)

/-- The requester of translation for a page's region controller under a job. -/
def regionReq (pg job : Nat) : Requester := { who := 16 * pageTile pg + 3, tile := pageTile pg, job := job, lch := none }

/-- A packet of a page's region controller for a job to an address (R312, R328). -/
def sendRegionPacket (s : State) (pg job a : Nat) : State :=
  putPacket s { unit := none, job := job, stamp := stampOf s (policyOf s job).deadline, path := packetPath (pageTile pg) a }

/-- An enqueue of a record at the home of its job's fault queue, in the order of R308: the state, and whether it was taken. -/
def recordAtHome (s : State) (pg : Nat) (q : Requester) (pa : Nat) (r : Bytes) : State × Bool :=
  let b := blockAt s.mem pa
  if (paClass pa ≠ 0 ∧ paClass pa ≠ 2) ∨ (poisonedIn s.mem pa 64).isSome ∨ b.poison then (s, false)
  else if !b.consistent pa then (corrupt s pa 0, false)
  else if (!b.multiDie ∧ paDie pa ≠ pg / 64) ∨ b.esz ≠ 3 ∨ b.free = 0 then (s, false)
  else
    match enqueueBy s q 0 pa r with
    | .ok (s1, _) => (serveQueue pa (s1.qwaiters.length + 1) false (sendRegionPacket s1 pg q.job pa), true)
    | .error _ => (s, false)

/-- A record enqueued on its job's fault queue (R308, R309): the state, and whether the queue has taken it.
DEDUCED (log entry 79). -/
def enqueueRecord (s : State) (pg : Nat) (r : Bytes) : State × Bool :=
  let job := numAt r 20 2
  let q := regionReq pg job
  match xlateD s q .atomic (policyOf s job).fq with
  | none => (s, false)
  | some (x, s1) => recordAtHome s1 pg q x.pa r

/-- The launch that a record names: by LAUNCHID, in its job. -/
def recordLaunch (s : State) (r : Bytes) : Option Nat :=
  (s.launches.find? fun l => decide (l.1 % 2 ^ 32 = numAt r 16 4) && decide (l.2.job = numAt r 20 2)).map Prod.fst

/-- ERR set in the counters of the launch that a record names and of the levels above it; where it names none, in that of its
job (R317). -/
def markRecorded (s : State) (pg : Nat) (r : Bytes) : State :=
  let job := numAt r 20 2
  match recordLaunch s r with
  | some l => markLaunchErr s l
  | none => markStatus s (regionReq pg job) (policyOf s job).ctr stErr

/-- FAULT_RECORD_WRITE (R173): the oldest record of a region controller goes to its job's fault queue, or waits with QWAIT
set; a record of a job that is no longer live has no queue, and goes. -/
def execFaultRecordWrite (pg : Nat) (s : State) : Host.Outcome State Fault Refusal :=
  let p := pageAt s pg
  .next <|
    match p.records with
    | [] => if p.qwait then setPage s pg { p with qwait := false } else s
    | r :: l =>
      if !jobLive s (numAt r 20 2) then setPage s pg { p with records := l, qwait := false }
      else
        let q := enqueueRecord s pg r
        if q.2 then markRecorded (setPage q.1 pg { pageAt q.1 pg with records := l, qwait := false }) pg r
        else setPage q.1 pg { pageAt q.1 pg with qwait := true }

/-! ## Walks (R316) -/

/-- The access kind of a code: that of XLATE (R216), and 3 for a fetch. -/
def accessOf (kind : Nat) : Access :=
  match kind with
  | 0 => .read | 1 => .write | 2 => .atomic | _ => .fetch

/-- PAGE_WALK (R316): a walk for the sequencers of a tile completes: its table reads are made, and its caches filled where
it succeeds. -/
def execPageWalk (t job : Nat) (va : BitVec 64) (kind : Nat) (s : State) : Host.Outcome State Fault Refusal :=
  .next (translate s { who := 16 * t, tile := t, job := job, lch := none } (accessOf kind) va).2

/-! ## Completion (R318) -/

/-- LAUNCH_COMPLETE (R318). -/
def execLaunchComplete (l : Nat) (s : State) : Host.Outcome State Fault Refusal :=
  .next (if launchDone s l then completeLaunch s l else s)

/-- The requester of translation for the die controller acting for a job. -/
def dieReq (d job : Nat) : Requester := { who := 16 * (1024 * d) + 3, tile := 1024 * d, job := job, lch := none }

/-- PHASE_COMPLETE (R318). -/
def execPhaseComplete (job : Nat) (ctr : BitVec 64) (s : State) : Host.Outcome State Fault Refusal :=
  .next <|
    match s.graphs.find? fun g => decide (g.job = job) && decide (g.phase = ctr) with
    | none => s
    | some g => if phaseDone s job ctr then completePhase s (dieReq g.die job) job ctr else s

/-! ## The loader (R322) -/

/-- Whether a round that may be voided still holds tokens of an endpoint. -/
def endpointHeld (s : State) (ep : Nat) : Bool :=
  s.elems.any fun e => e.2.shadows.any fun h => h.ingress.any fun t => decide (t.1 = ep)

/-- The launch of an ingress descriptor, of depth 0. -/
def ingressLaunch (s : State) (ep job : Nat) (t : Descriptor) (sh : Bool) : Launch :=
  let jd := (policyOf s job).deadline
  { job := job, depth := 0, cfgid := t.id, image := t.image, arg := t.arg, lctr := t.lctr, gctr := t.gctr,
    deadline := capDeadline jd (if t.deadline = 0 then jd else t.deadline), st := .pool, shared := some sh,
    endpoint := some ep }

/-- A descriptor at the head of an endpoint's entries (R322): a wrong job freezes the endpoint, one that breaks R321 is
reported, and any other is loaded once the pool has an entry. DEDUCED (log entry 80). -/
def loadDescriptor (s : State) (ep : Nat) (b : List Byte) (at_ : Nat) (rest : List Token) : State :=
  let p := endpointAt s ep
  let d := ep / 8
  let place : Place := { tile := 1024 * d, ctx := 0, elem := 24, launch := 0, job := p.job }
  if numAt b 48 2 ≠ p.job then freezeEndpoint s ep 3 at_ p.job
  else
    match readDescriptor b with
    | none => setEndpoint (record s place 2 8 0 0 0 0) ep { p with ingress := rest }
    | some t =>
      match poolEntry s d 0 with
      | none => s
      | some sh =>
        let key := 2 ^ 32 * d + (dieAt s d).nextId
        let s1 := loadLaunch (holdGraph s p.job t.gctr) d (ingressLaunch s ep p.job t sh) place
        setEndpoint s1 ep { endpointAt s1 ep with ingress := rest, isOpen := true, launch := some key }

/-- LOADER_DESCRIPTOR (R322): the loader takes the first token of a stream. An EOS that no stream awaits any more is counted
as an error (R372). -/
def execLoaderDescriptor (ep : Nat) (s : State) : Host.Outcome State Fault Refusal :=
  let p := endpointAt s ep
  .next <|
    if !p.bound ∨ p.frozen ∨ p.isOpen ∨ endpointHeld s ep then s
    else
      match p.ingress with
      | [] => s
      | t :: rest =>
        if t.ty = tyData then loadDescriptor s ep (toBytes 64 t.data.toNat) t.slot rest
        else setEndpoint s ep { p with ingress := rest, errs := min (p.errs + 1) 65535 }

end Sys2Proof.Machine
end

