-- ==== Sys2Proof/Machine/Manage.lean ====
section
/-!
DEFINITION. Bring-up, power and management (25_bringup_power.md): the reset order (R415), power states (R416), monitors and
thermal steps (R378, R418), the management registers (R420) and their commands (R421), and stores to registers that have no
step of their own (R8).
-/

namespace Sys2Proof.Machine

open Sys2Proof

/-! ## Management registers (R420) -/

/-- PST of MGSTAT (R420): a package that wakes is still in P2. -/
def pst (p : Power) : Nat :=
  match p with
  | .p0 => 0 | .p1 => 1 | .p2 => 2 | .waking _ => 2

/-- MGSTAT of a die (R420). -/
def mgStat (s : State) (d : Nat) : Word :=
  let x := dieAt s d
  BitVec.ofNat 64 (s.bringUp % 256 * 65536 + s.failed.toNat * 4096 + min s.steps 6 * 256 + (if x.mgTev then 8 else 0) +
    2 * pst s.power + (if x.mgBusy then 1 else 0))

/-- The byte of MGBUF at an offset (R420). -/
def mgByte (x : Die) (k : Nat) : Byte := (mget x.mgbuf k).getD 0#8

/-- n bytes of MGBUF from an offset. -/
def mgBytes (x : Die) (k n : Nat) : List Byte := (List.range n).map fun i => mgByte x (k + i)

/-- Bytes put into a table of bytes that lists no zero. -/
def putBytes (m : Map Byte) (k : Nat) : List Byte → Map Byte
  | [] => m
  | b :: l => putBytes (wrCell m k b) (k + 1) l

/-- MGBUF filled with bytes and, behind them, with zeros. -/
def fillBuf (s : State) (d : Nat) (bs : List Byte) : State := setDie s d { dieAt s d with mgbuf := putBytes [] 0 bs }

/-- MONVAL (R378, R420): the selected monitor as last sampled, or the corrected-error count of a tile (R170). -/
def monVal (s : State) (d : Nat) : Nat :=
  let x := dieAt s d
  let i := field x.monsel 15 4
  match field x.monsel 1 0 with
  | 0 => x.temps.toList.getD i 0
  | 1 => x.volts.toList.getD i 0
  | 2 => x.procs.toList.getD i 0
  | _ => if i < 1024 then (mget s.mem.corrected (1024 * d + i)).getD 0 else 0

/-- A read of the management registers (R420). -/
def mgRead (s : State) (d off : Nat) : Option Word :=
  let x := dieAt s d
  match off with
  | 0x000 => some (mgStat s d)
  | 0x008 => some 0#64
  | 0x010 => some x.mgArg
  | 0x018 => some x.mgRes
  | 0x020 => some x.thcfg
  | 0x028 => some x.monsel
  | 0x030 => some (BitVec.ofNat 64 (monVal s d))
  | _ =>
    if 0x400 ≤ off ∧ off < 0x800 ∧ off % 8 = 0 then some (BitVec.ofNat 64 (ofBytes (mgBytes x (off - 0x400) 8))) else none

/-- A request to a die's management port: one that a violation has frozen answers with an error completion (R379). -/
def atManage (d : Nat) (s : State) (f : State → State) : State :=
  if d ≥ 4 then s else if (dieAt s d).mgFrozen then reply s .error else f s

/-! ## Commands (R421) -/

/-- MGRES written (R420). -/
def mgResult (s : State) (d : Nat) (r : Word) : State := setDie s d { dieAt s d with mgRes := r }

/-- A command: refused while another runs (R420). What it answers is its state and MGRES. -/
def command (d : Nat) (s : State) (f : State → State × Word) : Host.Outcome State Fault Refusal :=
  .next <| atManage d s fun s =>
    if (dieAt s d).mgBusy then mgResult s d 1#64
    else
      let r := f s
      mgResult r.1 d r.2

/-- A frozen unit released (R421): it enters the faulted state, and its elements act no more on their own account. -/
def releaseUnit (s : State) (u : Nat) : State :=
  let s1 := setUnit s u { unitAt s u with st := .faulted, selfFault := true }
  { s1 with elems := s1.elems.map fun e => if e.1 / 32 = u then (e.1, { e.2 with sec := false }) else e }

/-- A master released (R421): the state, and whether it was frozen. -/
def release (s : State) (m : Master) : State × Bool :=
  match m with
  | .unit u => if (unitAt s u).st = .frozen then (releaseUnit s u, true) else (s, false)
  | .endpoint e =>
    if (endpointAt s e).frozen then (setEndpoint s e { endpointAt s e with frozen := false }, true) else (s, false)
  | .port d => if (dieAt s d).hFrozen then (setDie s d { dieAt s d with hFrozen := false }, true) else (s, false)

/-- MG_RELEASE (R421): the master that MGARG names. -/
def execMgRelease (d : Nat) (s : State) : Host.Outcome State Fault Refusal :=
  command d s fun s =>
    match readMaster (dieAt s d).mgArg with
    | none => (s, 2#64)
    | some m =>
      let r := release s m
      (r.1, if r.2 then 0#64 else 1#64)

/-- A policy record read from its 64 bytes (R320), with its JOBID; none where it breaks a rule. -/
def readPolicy (b : List Byte) : Option (Nat × Policy) :=
  let f := fun (o n : Nat) => numAt b o n
  if f 2 1 / 16 = 0 ∧ f 3 1 = 0 ∧ 1 ≤ f 4 2 ∧ f 4 2 ≤ 256 ∧ f 16 8 % 4096 = 0 ∧ f 24 8 % 4 = 0 ∧ f 32 8 % 64 = 0 ∧
      f 32 8 ≠ 0 ∧ f 40 8 % 4096 = 0 ∧ f 48 8 % 16 = 0 ∧ f 56 8 = 0 then
    some (f 0 2,
      { cls := f 2 1 % 4
        wdc := decide (f 2 1 / 4 % 2 = 1)
        conf := decide (f 2 1 / 8 % 2 = 1)
        pages := f 4 2
        lanes := BitVec.ofNat 16 (f 6 2)
        deadline := f 8 8
        root := f 16 8
        prologue := BitVec.ofNat 64 (f 24 8)
        fq := BitVec.ofNat 64 (f 32 8)
        save := BitVec.ofNat 64 (f 40 8)
        ctr := BitVec.ofNat 64 (f 48 8) })
  else none

/-- MG_POLICY (R320, R421): the record in MGBUF written. A job that had none is live from then on. -/
def execMgPolicy (d : Nat) (s : State) : Host.Outcome State Fault Refusal :=
  command d s fun s =>
    match readPolicy (mgBytes (dieAt s d) 0 64) with
    | none => (s, 2#64)
    | some (job, p) => ({ s with jobs := mset s.jobs job p }, 0#64)

/-- A frame's bytes all zero (R368). -/
def zeroFrame (s : State) (fr : Nat) : State :=
  { s with mem := { s.mem with cells := s.mem.cells.filter fun c => decide (c.1 / 4096 ≠ fr) } }

/-- A frame entry written (R368, R369): a frame that passes to a new owner is zeroed first, and one that loses its owner is
under another key. -/
def writeEntry (s : State) (fr : Nat) (e : BitVec 32) : State :=
  let old := (mget s.frames fr).getD 0#32
  let s1 := { s with frames := mset s.frames fr e }
  if bitOf e 16 then (if bitOf old 16 && decide (field e 15 0 = field old 15 0) then s1 else zeroFrame s1 fr)
  else if bitOf old 16 then scrambleFrame s1 fr else s1

/-- MG_FRAME (R368, R421): the entry in MGBUF written to frame MGARG of the die. -/
def execMgFrame (d : Nat) (s : State) : Host.Outcome State Fault Refusal :=
  command d s fun s =>
    let x := dieAt s d
    let e : BitVec 32 := BitVec.ofNat 32 (ofBytes (mgBytes x 0 4))
    let fr := 2 ^ 25 * d + x.mgArg.toNat
    if field e 31 17 = 0 ∧ x.mgArg.toNat < 2 ^ 25 ∧ mapped (4096 * fr) then (writeEntry s fr e, 0#64) else (s, 2#64)

/-- MG_STANDBY (R416, R421): refused while a job other than the system job is live, and outside P0 and P1.
DEDUCED (log entry 93). -/
def execMgStandby (d : Nat) (s : State) : Host.Outcome State Fault Refusal :=
  command d s fun s =>
    if (s.jobs.all fun j => decide (j.1 = 0)) ∧ (s.power = .p0 ∨ s.power = .p1) then ({ s with power := .p2 }, 0#64)
    else (s, 1#64)

/-- MG_WAKE (R416, R421): from P2 the package runs again 2^20 cycles of the reference clock later; the command runs until
then. -/
def execMgWake (d : Nat) (s : State) : Host.Outcome State Fault Refusal :=
  command d s fun s =>
    if s.power = .p2 then
      (setDie { s with power := .waking (2 ^ 20) } d { dieAt s d with mgBusy := true }, 0#64)
    else (s, 1#64)

/-- WAKE_COMPLETE (R416): the package is in P0 again once the reference clock has counted. -/
def execWakeComplete (s : State) : Host.Outcome State Fault Refusal :=
  .next <|
    match s.power with
    | .waking 0 => { s with power := .p0, dies := s.dies.map fun x => { x with mgBusy := false } }
    | _ => s

/-- MG_PAIR (R396, R421): an edge link of the die trains with another package, or fails to. A die has two outer edges. -/
def execMgPair (d : Nat) (s : State) : Host.Outcome State Fault Refusal :=
  command d s fun s =>
    let k := (dieAt s d).mgArg.toNat
    if k ≥ 2 then (s, 2#64)
    else if Config.trains d k then ({ s with edges := mset s.edges (2 * d + k) true }, 0#64) else (s, 1#64)

/-- MG_KEY (R377, R421): a die's public identity key copied into MGBUF. -/
def execMgKey (d : Nat) (s : State) : Host.Outcome State Fault Refusal :=
  command d s fun s =>
    let k := (dieAt s d).mgArg.toNat
    if k < 4 then (fillBuf s d (toBytes 512 (Config.keyModulus k).toNat ++ toBytes 4 (Config.keyExponent k).toNat), 0#64)
    else (s, 2#64)

/-- MG_LOG (R379, R421): a security report copied into MGBUF, counted from the oldest that the log holds.
DEDUCED (log entry 92). -/
def execMgLog (d : Nat) (s : State) : Host.Outcome State Fault Refusal :=
  command d s fun s =>
    let x := dieAt s d
    match x.seclog[x.mgArg.toNat]? with
    | some r => (fillBuf s d r, 0#64)
    | none => (s, 2#64)

/-- The codes of debug commands (R421). -/
def isDebug (code : Word) : Bool := decide (0x80 ≤ code.toNat) && decide (code.toNat ≤ 0xFF)

/-- The freeze of a management port, with one report (R379). R90 gives management ports no kind: that byte is free.
DEDUCED (log entry 90). -/
def freezeManage (s : State) (d : Nat) : State :=
  let r := securityReport 2 ((Config.openWord s.free).toNat % 256) d d 0 0 8 0 (tbOf s d)
  logReport (setDie { s with free := s.free + 1 } d { dieAt s d with mgFrozen := true }) d r

/-- MG_DEBUG (R421): a violation without the debug right; with it, R421 does not say what the command does. -/
def execMgDebug (d : Nat) (code : BitVec 64) (s : State) : Host.Outcome State Fault Refusal :=
  if d < 4 ∧ (dieAt s d).debug ∧ !(dieAt s d).mgFrozen ∧ !(dieAt s d).mgBusy ∧ isDebug code then .refused (.debugCommand code)
  else
    .next <| atManage d s fun s =>
      if !isDebug code then s
      else if (dieAt s d).debug then mgResult s d 1#64
      else freezeManage s d

/-- MGCMD_UNASSIGNED (R421): a code that names no command. -/
def execMgcmdUnassigned (d : Nat) (code : BitVec 64) (s : State) : Host.Outcome State Fault Refusal :=
  if (1 ≤ code.toNat ∧ code.toNat ≤ 8) ∨ isDebug code then .next s else command d s fun s => (s, 2#64)

/-- THCFG written (R420): TCRIT ≤ TSTEP is refused; reserved bits read zero. DEDUCED (log entry 91). -/
def writeThcfg (d : Nat) (v : Word) (s : State) : State :=
  if field v 15 8 ≤ field v 7 0 then reply s .error
  else reply (setDie s d { dieAt s d with thcfg := v &&& 0xFFFF#64 }) (.ok 0#512)

/-- THCFG_WRITE (R420). -/
def execThcfgWrite (d : Nat) (v : BitVec 64) (s : State) : Host.Outcome State Fault Refusal := .next (atManage d s (writeThcfg d v))

/-- A store to MGCMD (R420, R421): the command of its code. -/
def runCommand (d : Nat) (v : Word) (s : State) : Host.Outcome State Fault Refusal :=
  match v.toNat with
  | 1 => execMgRelease d s
  | 2 => execMgPolicy d s
  | 3 => execMgFrame d s
  | 4 => execMgStandby d s
  | 5 => execMgWake d s
  | 6 => execMgPair d s
  | 7 => execMgKey d s
  | 8 => execMgLog d s
  | _ => if isDebug v then execMgDebug d v s else execMgcmdUnassigned d v s

/-- A store to a management register other than MGCMD (R420). -/
def writeManage (d off : Nat) (v : Word) (s : State) : State :=
  let x := dieAt s d
  let ok := fun (y : Die) => reply (setDie s d y) (.ok 0#512)
  match off with
  | 0x000 => ok { x with mgTev := x.mgTev && !bitOf v 3 }
  | 0x010 => ok { x with mgArg := v }
  | 0x018 => ok x
  | 0x020 => writeThcfg d v s
  | 0x028 => ok { x with monsel := v &&& 0xFFF3#64 }
  | 0x030 => ok x
  | _ =>
    if 0x400 ≤ off ∧ off < 0x800 ∧ off % 8 = 0 then ok { x with mgbuf := putBytes x.mgbuf (off - 0x400) (toBytes 8 v.toNat) }
    else reply s .error

/-- A store to a host-port register page (R375). -/
def writeHostPage (d off : Nat) (v : Word) (s : State) : State :=
  match off with
  | 0x000 => writeHwjob d v s
  | 0x008 => writeHwbase d v s
  | _ => portError s d

/-- REGISTER_WRITE (R8): an 8-byte store to a register: a page's region window (device numbers below 256), a die's
management registers (from 256), its host-port page (from 512), or an endpoint's page (from 1024). DEDUCED (log entry 87). -/
def execRegisterWrite (dev off : Nat) (v : BitVec 64) (s : State) : Host.Outcome State Fault Refusal :=
  if dev < 256 then .next (regionWrite s dev off v)
  else if dev < 260 then (if off = 0x008 then runCommand (dev - 256) v s else .next (atManage (dev - 256) s (writeManage (dev - 256) off v)))
  else if 512 ≤ dev ∧ dev < 516 then atPort (dev - 512) s (writeHostPage (dev - 512) off v)
  else if 1024 ≤ dev ∧ dev < 1056 then
    if off = 0x800 then execIngressEosWrite (dev - 1024) 8 v s
    else atPort ((dev - 1024) / 8) s fun s => endpointError s (dev - 1024)
  else .next s

/-- A read of a register from outside answered (R8): with what it holds, or with an error completion where the offset holds no
register. -/
def answer (s : State) (v : Option Word) : State :=
  match v with
  | some w => reply s (.ok (w.setWidth 512))
  | none => reply s .error

/-- A read of n bytes from a register page, by the device numbers of REGISTER_WRITE: a register of 8 bytes is read whole, and a
write-only ingress slot reads zero in any size (R8, R371, R375, R420). -/
def execRegisterRead (dev off n : Nat) (s : State) : Host.Outcome State Fault Refusal :=
  let whole := fun (v : Option Word) => if n = 8 then v else none
  if dev < 256 then .next (answer s (whole (some (regionRead s dev off))))
  else if dev < 260 then .next (atManage (dev - 256) s fun s => answer s (whole (mgRead s (dev - 256) off)))
  else if 512 ≤ dev ∧ dev < 516 then
    atPort (dev - 512) s fun s =>
      match whole (hostPageRead (dieAt s (dev - 512)) off) with
      | some v => answer s (some v)
      | none => portError s (dev - 512)
  else if 1024 ≤ dev ∧ dev < 1056 then
    atPort ((dev - 1024) / 8) s fun s =>
      let v := endpointRead (endpointAt s (dev - 1024)) off
      answer s (if off < 0x800 then v else whole v)
  else .next s

/-- A write of n bytes to a register page from outside: one of another size than the register's gives an error completion
(R371, R375, R420). -/
def execRegisterStore (dev off n : Nat) (v : Flit) (s : State) : Host.Outcome State Fault Refusal :=
  if 1024 ≤ dev ∧ dev < 1056 then
    if off < 0x800 then execIngressSlotWrite (dev - 1024) off n v s
    else if off = 0x800 then execIngressEosWrite (dev - 1024) n (v.setWidth 64) s
    else atPort ((dev - 1024) / 8) s fun s => endpointError s (dev - 1024)
  else if n = 8 then execRegisterWrite dev off (v.setWidth 64) s
  else if 512 ≤ dev ∧ dev < 516 then atPort (dev - 512) s fun s => portError s (dev - 512)
  else if 256 ≤ dev ∧ dev < 260 then .next (atManage (dev - 256) s fun s => reply s .error)
  else .next s

/-- An access of n bytes to a register page from outside. DEDUCED (log entry 87). -/
def execRegisterAccess (dev off n : Nat) (wr : Bool) (v : BitVec 512) (s : State) : Host.Outcome State Fault Refusal :=
  if wr then execRegisterStore dev off n v s else execRegisterRead dev off n s

/-! ## Monitors and the clock (R378, R418) -/

/-- TSTEP of a die (R420). -/
def tstep (x : Die) : Nat := field x.thcfg 7 0
/-- TCRIT of a die (R420). -/
def tcrit (x : Die) : Nat := field x.thcfg 15 8

/-- Whether a step may follow the last by the spacing of R418. -/
def spaced (s : State) : Bool := s.lastStep.all fun t => decide (t + 2 ^ 20 ≤ s.tb)

/-- A thermal step to a number of steps in force, recorded, with TEV set on every die (R418). -/
def thermalStep (s : State) (n : Nat) : State :=
  { s with
    steps := n
    lastStep := some s.tb
    thermLog := s.thermLog ++ [(s.tb, n)]
    dies := s.dies.map fun x => { x with mgTev := true } }

/-- A die's monitors sampled (R378). -/
def sampled (s : State) (d : Nat) (x : Die) : Die :=
  let m := fun (kind i : Nat) => Config.monitor d kind i s.tb
  let y : Die := { x with
    temps := Vector.ofFn fun i => m 0 i.val
    volts := Vector.ofFn fun i => m 1 i.val
    procs := Vector.ofFn fun i => m 2 i.val }
  if y.temps.toList.all fun t => decide (t + 5 < tstep x) then y else { y with coolSince := s.tb + 1 }

/-- The step that a die's sample calls for (R418): to the floor above TCRIT, one down above TSTEP. -/
def stepAfter (s : State) (x : Die) : State :=
  if (x.temps.toList.any fun t => decide (tcrit x < t)) && decide (s.steps < 6) then thermalStep s 6
  else if (x.temps.toList.any fun t => decide (tstep x < t)) && decide (s.steps < 6) && spaced s then thermalStep s (s.steps + 1)
  else s

/-- MONITOR_SAMPLE (R378, R418): a die's monitors sampled, and the clock stepped down where they call for it. -/
def execMonitorSample (d : Nat) (s : State) : Host.Outcome State Fault Refusal :=
  .next <|
    if d ≥ 4 then s
    else
      let x := sampled s d (dieAt s d)
      stepAfter (setDie s d x) x

/-- THERMAL_STEP_UP (R418): every monitor of the package has been cool for 2^24 cycles. -/
def execThermalStepUp (s : State) : Host.Outcome State Fault Refusal :=
  .next <|
    if 0 < s.steps ∧ spaced s ∧ s.dies.toList.all (fun x => decide (x.coolSince + 2 ^ 24 ≤ s.tb)) then thermalStep s (s.steps - 1)
    else s

/-! ## Reset and idling (R415, R416) -/

/-- PACKAGE_RESET (R415): the reset order runs. Where a step of it fails, the package holds in reset with the failure named;
else every die leaves reset, with memory zero and every register at its reset value. Host memory is not the package's, a
die's debug right is fused, and free values are not given twice. DEDUCED (log entry 99). -/
def execPackageReset (s : State) : Host.Outcome State Fault Refusal :=
  let fresh : State := { State.reset with
    hostMem := s.hostMem
    free := s.free
    dies := s.dies.map fun x => { debug := x.debug }
    bringUp := s.bringUp
    failed := s.failed }
  .next (if s.bringUp = 0 then { fresh with failed := 0#4 } else { fresh with held := true })

/-- IDLE_GATE (R416): the package gates its idle parts, or ungates them, with nothing visible changed but PST. -/
def execIdleGate (enter : Bool) (s : State) : Host.Outcome State Fault Refusal :=
  .next <|
    match s.power, enter with
    | .p0, true => { s with power := .p1 }
    | .p1, false => { s with power := .p0 }
    | _, _ => s

end Sys2Proof.Machine
end

