-- ==== Sys2Proof/Machine/Allocate.lean ====
section
/-!
DEFINITION. The page allocator: placing pool entries (R325), compaction (R326), victims (R327) and yielding parents (R324).
-/

namespace Sys2Proof.Machine

open Sys2Proof

/-! ## Page sets (R247, R395) -/

/-- The page at a place of the package's grid of pages (R395). -/
def pageAtGrid (px py : Nat) : Nat := 64 * (2 * (py / 8) + px / 8) + 8 * (py % 8) + px % 8

/-- The pages of a set with a given origin, none where it leaves the grid (R395). -/
def pageSet (origin width height : Nat) : Option (List Nat) :=
  let px := 8 * (origin / 64 % 2) + origin % 8
  let py := 8 * (origin / 128) + origin % 64 / 8
  if px + width ≤ 16 ∧ py + height ≤ 16 then
    some ((List.range height).flatMap fun dy => (List.range width).map fun dx => pageAtGrid (px + dx) (py + dy))
  else none

/-- The pages that a launch holds. -/
def Launch.pages (x : Launch) : List Nat := if x.holds then (pageSet (homePage x) x.width x.height).getD [] else []

/-- The column of a page in the package's grid of pages. -/
def pageColumn (pg : Nat) : Nat := 8 * (pg / 64 % 2) + pg % 8
/-- The row of a page in the package's grid of pages. -/
def pageRow (pg : Nat) : Nat := 8 * (pg / 128) + pg % 64 / 8

/-- Whether a launch holds a page. -/
def Launch.covers (x : Launch) (pg : Nat) : Bool :=
  let h := homePage x
  x.holds && decide (pageColumn h ≤ pageColumn pg) && decide (pageColumn pg < pageColumn h + x.width) &&
    decide (pageRow h ≤ pageRow pg) && decide (pageRow pg < pageRow h + x.height)

/-- Whether a page is free in contexts b to b + n - 1, launch `but` left out of account. -/
def pageFree (s : State) (but pg b n : Nat) : Bool :=
  s.launches.all fun y => decide (y.1 = but) || decide (b + n ≤ y.2.base) || decide (y.2.base + y.2.nctx ≤ b) ||
    !y.2.covers pg

/-- The pages that a job holds in the package, launch `but` left out of account. -/
def jobPages (s : State) (but job : Nat) : List Nat :=
  (s.launches.flatMap fun y => if y.1 ≠ but ∧ y.2.job = job then y.2.pages else []).eraseDups

/-- Whether a launch fits at an origin and a context base, its job within its page allowance (R325). -/
def fitsAt (s : State) (l : Nat) (x : Launch) (origin b : Nat) : Bool :=
  match pageSet origin x.width x.height with
  | none => false
  | some ps =>
    (ps.all fun pg => pageFree s l pg b x.nctx) &&
    decide ((jobPages s l x.job ++ ps).eraseDups.length ≤ (policyOf s x.job).pages)

/-- The place of R325: the first context base, then the first origin in ascending die and page. DEDUCED (log entry 74). -/
def findPlace (s : State) (l : Nat) (x : Launch) : Option (Nat × Nat) :=
  (List.range (5 - x.nctx)).findSome? fun b => ((List.range 256).find? fun o => fitsAt s l x o b).map fun o => (b, o)

/-! ## The order of the pool (R325) -/

/-- A deadline as an order sees it: none comes last. -/
def deadlineKey (d : Nat) : Nat := if d = 0 then 2 ^ 64 else d

/-- The deadline of an entry as a placement decision sees it: no later than its job's deadline at that time (R321, R330). -/
def entryDeadline (s : State) (x : Launch) : Nat := deadlineKey (capDeadline (policyOf s x.job).deadline x.deadline)

/-- Whether one pool entry comes before another: earlier deadline, higher class, deeper launch, lower JOBID; then the lower
LAUNCHID. -/
def entryBefore (s : State) (a b : Nat × Launch) : Bool :=
  let c := fun (x : Launch) => (policyOf s x.job).cls
  let d := entryDeadline s
  decide (d a.2 < d b.2) || (decide (d a.2 = d b.2) &&
    (decide (c b.2 < c a.2) || (decide (c a.2 = c b.2) &&
      (decide (b.2.depth < a.2.depth) || (decide (a.2.depth = b.2.depth) &&
        (decide (a.2.job < b.2.job) || (decide (a.2.job = b.2.job) && decide (a.1 ≤ b.1))))))))

/-- Whether a launch descends from another, through at most n parents. -/
def descends (s : State) (l : Nat) : Nat → Nat → Bool
  | 0, _ => false
  | n + 1, k =>
    match (mget s.launches k).bind (·.parent) with
    | some p => decide (p = l) || descends s l n p
    | none => false

/-- Whether a launch has a descendant that satisfies a condition. -/
def hasDescendant (s : State) (l : Nat) (p : Launch → Bool) : Bool :=
  s.launches.any fun y => p y.2 && descends s l 8 y.1

/-- Whether a launch waits in the pool. -/
def Launch.inPool (x : Launch) : Bool := decide (x.st = .pool) || decide (x.st = .poolSaved)

/-- The pool entries of a die that may be placed, in order; a parent that has yielded waits for its descendants (R324). -/
def poolEntries (s : State) (d : Nat) : List (Nat × Launch) :=
  (s.launches.filter fun y => decide (y.1 / 2 ^ 32 = d) && y.2.inPool &&
    !(y.2.yielded && hasDescendant s y.1 fun _ => true)).mergeSort (entryBefore s)

/-- An entry placed: its pool entry is free again (R323). -/
def placeEntry (s : State) (l : Nat) (x : Launch) (b origin : Nat) : State :=
  setLaunch s l { x with
    die := origin / 64, page := origin % 64, base := b, shared := none, yielded := false,
    st := if x.st = .poolSaved then .restoring else .loading }

/-- POOL_PLACE (R325): the first entry of a die's pool that fits is placed. -/
def execPoolPlace (d : Nat) (s : State) : Host.Outcome State Fault Refusal :=
  .next <|
    match (poolEntries s d).findSome? fun y => (findPlace s y.1 y.2).map fun p => (y, p) with
    | some (y, p) => placeEntry s y.1 y.2 p.1 p.2
    | none => s

/-! ## Compaction (R326) -/

/-- The entries of every pool that cannot be placed. -/
def blockedEntries (s : State) : List (Nat × Launch) :=
  ([0, 1, 2, 3].flatMap (poolEntries s)).filter fun y => (findPlace s y.1 y.2).isNone

/-- Whether enough pages are free for an entry from a context base on. -/
def roomFor (s : State) (x : Launch) (b : Nat) : Bool :=
  decide (x.width * x.height ≤ ((List.range 256).filter fun pg => pageFree s (2 ^ 64) pg b x.nctx).length)

/-- The context bases from which an entry has enough free pages, though no set of them. -/
def roomyBases (s : State) (x : Launch) : List Nat := (List.range (5 - x.nctx)).filter (roomFor s x)

/-- Whether a launch may move to an origin of a higher page index at its context base (R326). -/
def canMove (s : State) (l : Nat) (x : Launch) (origin : Nat) : Bool :=
  decide (saveStatus s l = 0) && (x.moved.all fun t => decide (t + 2 ^ 20 ≤ s.tb)) && decide (homePage x < origin) &&
    decide (origin < 256) && fitsAt s l x origin x.base

/-- Whether a launch may move at all. -/
def movable (s : State) (y : Nat × Launch) : Bool := (List.range 256).any (canMove s y.1 y.2)

/-- Whether a launch runs in some context from b to b + n - 1. -/
def runsIn (x : Launch) (b n : Nat) : Bool := x.holds && decide (x.base < b + n) && decide (b < x.base + x.nctx)

/-- Whether a launch is the next to move for some entry: of the launches in a context with room, the one with the latest
deadline. -/
def nextToMove (s : State) (x : Launch) : Bool :=
  (blockedEntries s).any fun e => (roomyBases s e.2).any fun b =>
    runsIn x b e.2.nctx && s.launches.all fun y => !(runsIn y.2 b e.2.nctx) ||
      decide (entryDeadline s y.2 ≤ entryDeadline s x) || !movable s y

/-- COMPACT (R326): launch l is saved at a round boundary, to be restored at origin g. -/
def execCompact (l g : Nat) (s : State) : Host.Outcome State Fault Refusal :=
  .next <|
    match mget s.launches l with
    | none => s
    | some x =>
      if canMove s l x g && nextToMove s x then
        let s1 := beginSave s l true none
        match mget s1.launches l with
        | some y => setLaunch s1 l { y with dest := some g, moved := some s.tb }
        | none => s1
      else s

/-! ## Victims (R327) -/

/-- Whether compaction can still help an entry. -/
def compactionHelps (s : State) (e : Launch) : Bool :=
  (roomyBases s e).any fun b => s.launches.any fun y => runsIn y.2 b e.nctx && movable s y

/-- The launches that may be pre-empted for an entry of a class: running ones that R401 does not protect, of a lower class. -/
def victims (s : State) (cls : Nat) : Map Launch :=
  s.launches.filter fun y => decide ((policyOf s y.2.job).cls < cls) && decide (saveStatus s y.1 = 0)

/-- Whether one launch is pre-empted before another: its job has the later deadline, or the higher JOBID; within one job, the
launch has the later deadline, or the higher LAUNCHID. -/
def victimBefore (s : State) (a b : Nat × Launch) : Bool :=
  let j := fun (x : Launch) => deadlineKey (policyOf s x.job).deadline
  let d := entryDeadline s
  decide (j b.2 < j a.2) || (decide (j a.2 = j b.2) &&
    (decide (b.2.job < a.2.job) || (decide (a.2.job = b.2.job) &&
      (decide (d b.2 < d a.2) || (decide (d a.2 = d b.2) && decide (b.1 ≤ a.1))))))

/-- Whether the allocator is already saving a launch, or moving one. -/
def allocatorBusy (s : State) : Bool :=
  s.launches.any fun y => (decide (y.2.st = .saving) && y.2.toPool) || (decide (y.2.st = .restoring) && y.2.dest.isSome)

/-- The launch to pre-empt for an entry that cannot be placed after compaction (R327). -/
def victimOf (s : State) : Option Nat :=
  match (blockedEntries s).find? fun e => !compactionHelps s e.2 && !(victims s (policyOf s e.2.job).cls).isEmpty with
  | none => none
  | some e => (((victims s (policyOf s e.2.job).cls).mergeSort (victimBefore s)).head?).map Prod.fst

/-- VICTIM_PREEMPT (R327): launch l is pre-empted for an entry that cannot be placed after compaction. -/
def execVictimPreempt (l : Nat) (s : State) : Host.Outcome State Fault Refusal :=
  .next (if victimOf s = some l ∧ !allocatorBusy s then beginSave s l true none else s)

/-! ## Parents that yield (R324) -/

/-- Whether a unit waits on a counter, a queue or LAUNCH.W. -/
def waitsForChild (x : UnitRegs) : Bool :=
  decide (x.st = .waiting) && x.wait.any fun w =>
    decide (w.kind = .counter) || decide (w.kind = .queue) || decide (w.kind = .launchReserve)

/-- Whether a launch's every unit waits, and a descendant of it stands in the pool (R324). -/
def mayYield (s : State) (l : Nat) : Bool :=
  let us := (heldSlots s l).filter fun u => (mget s.units u).isSome
  !us.isEmpty && (us.all fun u => waitsForChild (unitAt s u)) && hasDescendant s l Launch.inPool && decide (saveStatus s l = 0)

/-- PARENT_YIELD (R324): a launch whose every unit waits gives its pages to a descendant in the pool. -/
def execParentYield (l : Nat) (s : State) : Host.Outcome State Fault Refusal :=
  .next <|
    if mayYield s l then
      let s1 := beginSave s l true none
      match mget s1.launches l with
      | some y => setLaunch s1 l { y with yielded := true }
      | none => s1
    else s

end Sys2Proof.Machine
end

