-- ==== Sys2Proof/Machine/PageEvents.lean ====
section
/-!
DEFINITION. What happens at a page or a link by itself or by a store of the system job: the progress watchdog (R265), the
region window (R174, R200, R263), arbiters (R328, R329), and turns of lane groups (R362, R364).
-/

namespace Sys2Proof.Machine

open Sys2Proof

/-! ## The progress watchdog (R265) -/

/-- The quiet cycles after which the watchdog fires. -/
def watchdogLimit : Nat := 2 ^ 22

/-- A launch whose watchdog fires, with its count back at 0. -/
def watchdogFires (s : State) (l : Nat) (cancels : Bool) : Option (Launch × State) :=
  match mget s.launches l with
  | none => none
  | some x =>
    if x.quiet ≥ watchdogLimit ∧ (policyOf s x.job).wdc = cancels then
      some (x, setLaunch s l { x with quiet := 0 })
    else none

/-- WATCHDOG_SNAPSHOT (R265): the launch is saved in place, with a record of kind 4; where R401 refuses that, the record
alone is written. DEDUCED (log entry 75). -/
def execWatchdogSnapshot (l : Nat) (s : State) : Host.Outcome State Fault Refusal :=
  .next <|
    match watchdogFires s l false with
    | none => s
    | some (x, s1) =>
      if saveStatus s1 l = 0 then beginSave s1 l false (some 4#8)
      else record s1 { tile := originTile x, ctx := x.base, elem := 24, launch := l, job := x.job } 4 9 8 0 0 0

/-- WATCHDOG_CANCEL (R265). -/
def execWatchdogCancel (l : Nat) (s : State) : Host.Outcome State Fault Refusal :=
  .next <|
    match watchdogFires s l true with
    | none => s
    | some (_, s1) => cancelLaunch s1 l

/-! ## The region window (R263) -/

/-- RC_RESUME (R263). -/
def execRcResume (pg : Nat) (s : State) : Host.Outcome State Fault Refusal := .next (cmdResume s pg)

/-- RC_CANCEL (R263). -/
def execRcCancel (pg : Nat) (s : State) : Host.Outcome State Fault Refusal := .next (cmdCancel s pg)

/-- RC_SNAPSHOT (R263). -/
def execRcSnapshot (pg : Nat) (s : State) : Host.Outcome State Fault Refusal := .next (cmdSnapshot s pg)

/-- RCSEL_WRITE (R263). -/
def execRcselWrite (pg : Nat) (v : BitVec 64) (s : State) : Host.Outcome State Fault Refusal := .next (writeRcsel s pg v)

/-- RC_UNIT_FRAME_WRITE (R263): the unit frame stands at offsets 0x040 to 0x060. -/
def execRcUnitFrameWrite (pg off : Nat) (v : BitVec 64) (s : State) : Host.Outcome State Fault Refusal :=
  .next (if 0x040 ≤ off ∧ off ≤ 0x060 ∧ off % 8 = 0 then writeFrame s pg off v else s)

/-- RC_ESR_WRITE (R174). -/
def execRcEsrWrite (pg : Nat) (v : BitVec 64) (s : State) : Host.Outcome State Fault Refusal := .next (writeEsr s pg v)

/-- RC_CVSR_WRITE (R200). -/
def execRcCvsrWrite (pg : Nat) (v : BitVec 64) (s : State) : Host.Outcome State Fault Refusal := .next (writeCvsr s pg v)

/-- RCCMD_UNASSIGNED (R263): a command code other than 1 to 3 is refused. -/
def execRccmdUnassigned (pg : Nat) (v : BitVec 64) (s : State) : Host.Outcome State Fault Refusal :=
  .next (if 1 ≤ v.toNat ∧ v.toNat ≤ 3 then s else regionRefuse s pg)

/-! ## Arbiters (R328, R329, R362) -/

/-- The slack of a packet at a time: the i16 value of D − TB<23:8>. -/
def slackOf (p : Packet) (tb : Nat) : Int := (p.stamp - BitVec.ofNat 16 (tb / 256)).toInt

/-- The distance of a JOBID behind the one served last, in the rotation of ties. -/
def rotation (last job : Nat) : Nat := (job + 65535 - last) % 65536

/-- Whether packet p leaves an arbiter rather than q, which arrived before it. -/
def leavesFirst (last tb : Nat) (p q : Packet) : Bool :=
  decide (slackOf p tb < slackOf q tb) ||
    (decide (slackOf p tb = slackOf q tb) && decide (rotation last p.job < rotation last q.job))

/-- The packet that an arbiter sends first, with its place in arrival order; a packet of one of the jobs given stands behind
another of its job, which leaves before it. -/
def pickPacket (last tb : Nat) (jobs : List Nat) : List Packet → Option (Packet × Nat)
  | [] => none
  | p :: l =>
    match pickPacket last tb (p.job :: jobs) l with
    | none => if jobs.contains p.job then none else some (p, 0)
    | some (q, k) => if jobs.contains p.job || leavesFirst last tb q p then some (q, k + 1) else some (p, 0)

/-- The timebase at an arbiter: its die's, or that of the end from which its link direction sends. -/
def arbiterTb (s : State) (a : Nat) : Nat :=
  if a < 65536 then tbOf s (a / 8192)
  else
    let k := (a - 65536) / 2
    let high := match k with | 0 => 1 | 1 => 3 | 2 => 2 | _ => 3
    tbOf s (if (a - 65536) % 2 = 1 then high else endL k)

/-- Whether some group of a link carries a direction, neither draining nor in dead time (R362). -/
def carries (x : Link) (toL : Bool) : Bool := (List.range 16).any fun g => (bitOf x.dir g == toL) && !bitOf x.turn g

/-- Whether an arbiter may send now. -/
def arbiterOpen (s : State) (a : Nat) : Bool :=
  decide (a < 65536) || carries (linkAt s ((a - 65536) / 2)) (decide ((a - 65536) % 2 = 1))

/-- A packet found late for the first time: counted at the end of the cycle (R86) for the unit that issued it, while that unit
is still of the launch for which it did, with a boundary trap where LPTE = 1 (R329). -/
def countLate (s : State) (p : Packet) (slack : Int) : State :=
  match p.unit with
  | none => s
  | some u =>
    match mget s.units u with
    | none => s
    | some x =>
      if x.launch ≠ p.launch then s
      else
      let y := { x with newLate := x.newLate + 1 }
      setUnit s u (if statusLPTE x then { y with pend := y.pend ++ [⟨0x11#8, 0#8, BitVec.ofInt 64 slack⟩] } else y)

/-- PACKET_ARBITRATE (R328): an arbiter sends the packet with the least slack on to the next of its path. -/
def execPacketArbitrate (a : Nat) (s : State) : Host.Outcome State Fault Refusal :=
  let x := (mget s.arbiters a).getD {}
  let tb := arbiterTb s a
  .next <|
    if !arbiterOpen s a then s
    else
      match pickPacket x.lastJob tb [] x.packets with
      | none => s
      | some (p, k) =>
        let slack := slackOf p tb
        let s1 := { s with arbiters := mset s.arbiters a { packets := x.packets.eraseIdx k, lastJob := p.job } }
        let s2 := if slack < 0 ∧ !p.late then countLate s1 p slack else s1
        putPacket s2 { p with late := p.late || decide (slack < 0) }

/-! ## Turns (R364) -/

/-- The first entry of a queue that has not started, once every one before it drained in an earlier cycle, with its place. -/
def nextTurn (tb : Nat) : List Turn → Option (Turn × Nat)
  | [] => none
  | t :: l =>
    if t.started.isNone then some (t, 0)
    else if t.drained.any fun e => decide (e < tb) then (nextTurn tb l).map fun p => (p.1, p.2 + 1) else none

/-- The entry that is draining, with its place. -/
def drainingTurn (q : List Turn) : Option (Turn × Nat) :=
  (q.zip (List.range q.length)).find? fun p => p.1.started.isSome && p.1.drained.isNone

/-- TURN_START (R364): the arbiters stop placing packets on the group. DEDUCED (log entry 86). -/
def execTurnStart (k : Nat) (s : State) : Host.Outcome State Fault Refusal :=
  let x := linkAt s k
  .next <|
    match nextTurn (tbOf s (endL k)) x.queue with
    | some (t, i) =>
      setLink s k { x with queue := x.queue.set i { t with started := some (tbOf s (endL k)) },
                           turn := x.turn ||| BitVec.ofNat 16 (2 ^ t.group) }
    | none => s

/-- TURN_DRAINED (R364): every flit sent on the group has been received; the dead time begins. -/
def execTurnDrained (k : Nat) (s : State) : Host.Outcome State Fault Refusal :=
  let x := linkAt s k
  .next <|
    match drainingTurn x.queue with
    | some (t, i) =>
      if t.started.any fun b => decide (b < tbOf s (endL k)) then
        setLink s k { x with queue := x.queue.set i { t with drained := some (tbOf s (endL k)) } }
      else s
    | none => s

/-- TURN_COMPLETE (R364): 25 cycles after the drain, the group takes its new direction. -/
def execTurnComplete (k : Nat) (s : State) : Host.Outcome State Fault Refusal :=
  let x := linkAt s k
  let tb := tbOf s (endL k)
  .next <|
    match x.queue with
    | t :: l =>
      if t.drained.any fun e => decide (e + 25 ≤ tb) then
        setLink s k { x with
          dir := setDir x.dir t.group t.toL
          turn := x.turn &&& ~~~BitVec.ofNat 16 (2 ^ t.group)
          lastt := if h : t.group < 16 then x.lastt.set t.group tb h else x.lastt
          queue := l }
      else s
    | [] => s

end Sys2Proof.Machine
end

