-- ==== Sys2Proof/Machine/Barrier.lean ====
section
/-!
DEFINITION. Named barriers (R258 to R262, R267 to R277): major 0x2E.
-/

namespace Sys2Proof.Machine

open Sys2Proof

/-! ## Names and members (R267 to R269) -/

/-- A refused barrier name: cause 0x07 with DETAIL 3 (R268). -/
def badName (n : Word) : Stop := .trap 7#8 3#8 n

/-- The live launch of the issuer's job that a LID and a die name: its origin stands on that die (R267).
DESIGN CHOICE (log entry 109). -/
def homeLaunch (s : State) (lid die : Nat) : Option Nat :=
  (s.launches.find? fun l => decide (l.1 % 2 ^ 32 = lid) && decide (l.2.die = die) &&
    decide (l.2.job = (me s).csr.jobid.toNat) && !l.2.cancelled).map Prod.fst

/-- The home of a barrier name: its launch's key, the launch, the home tile and the index (R267, R268). A home launch that
holds no pages at the moment holds the issuer. -/
def resolveName (s : State) (n : Word) : Except Stop (Nat × Launch × Nat × Nat) := do
  let self := bitOf n 19
  need' (decide (field n 16 10 = 0)) (badName n)
  need' (!self || (decide (field n 63 32 = 0) && decide (field n 18 17 = 0))) (badName n)
  let key ← match if self then some (me s).launch else homeLaunch s (field n 63 32) (field n 18 17) with
    | some k => .ok k
    | none => .error (badName n)
  match mget s.launches key with
  | none => .error (badName n)
  | some l =>
    need' (decide (l.job = (me s).csr.jobid.toNat) && !l.cancelled) (badName n)
    need' (decide (field n 31 26 < 4 * l.width) && decide (field n 25 20 < 4 * l.height)) (badName n)
    need' (!(heldSlots s key).isEmpty) .hold
    match launchTile l (field n 31 26) (field n 25 20) with
    | none => .error (badName n)
    | some t => .ok (key, l, t, field n 9 0)

/-- A barrier C-word of the issuer sent to its home tile (R270, R328, R366). -/
def toHomeTile (s : State) (t : Nat) : State := sendPacket s s.cur (spadAddr t 0)

/-- The refusal of a name by the home, which the issuer takes after its C-word has travelled (R268). -/
def homeRefuses (s : State) (n : Word) : Stop := .trapped s 7#8 3#8 n

/-- The barrier that a name's home launch holds, once the C-word has reached the home (R268). -/
def heldBarrier (s : State) (n : Word) : Except Stop (State × Launch × Nat × Barrier) := do
  let (key, l, t, i) ← resolveName s n
  let s1 := toHomeTile s t
  match mget s.barriers (1024 * t + i) with
  | none => .error (homeRefuses s1 n)
  | some b => if b.holder = key then .ok (s1, l, 1024 * t + i, b) else .error (homeRefuses s1 n)

/-- A barrier written. -/
def setBarrier (s : State) (k : Nat) (b : Barrier) : State := { s with barriers := mset s.barriers k b }

/-- The two words of member-table entry m (R259), where it translates. -/
def memberEntry (s : State) (q : Requester) (mtb : Word) (m : Nat) : Option (Word × Word) :=
  match readVirt s q .read (mtb + BitVec.ofNat 64 (16 * m)) 16 with
  | some b => some (BitVec.ofNat 64 (numAt b 0 8), BitVec.ofNat 64 (numAt b 8 8))
  | none => none

/-- The member index of a unit, from the table as it stands (R269). -/
def memberOf (s : State) (q : Requester) (b : Barrier) (l u : Nat) : Option Nat :=
  (List.range b.nmem).find? fun m => decide ((memberEntry s q b.mtb m).map Prod.fst = some (unitName l u))

/-! ## Completing an episode (R261, R273) -/

/-- The arrival times of the members that count, ascending, each with its member (R261). -/
def ranked (ms : List Member) : List (Nat × Nat) :=
  let xs := (ms.zip (List.range ms.length)).filterMap fun p => if p.1.excused then none else some (p.1.time, p.2)
  xs.mergeSort fun a b => decide (a.1 < b.1) || (decide (a.1 = b.1) && decide (a.2 ≤ b.2))

/-- The median arrival (R261): that of rank floor((|A| − 1) / 2); 0 where no member counts. -/
def medianTime (ms : List Member) : Nat :=
  let r := ranked ms
  ((r[(r.length - 1) / 2]?).map Prod.fst).getD 0

/-- A member's offset in an episode (R261). -/
def offsetOf (med : Nat) (m : Member) : Int :=
  if m.excused then -(2 ^ 23 : Nat) else clampInt (-(2 ^ 23 : Nat) + 1) ((2 ^ 23 : Nat) - 1) ((m.time : Int) - med)

/-- The offset in slot k of a straggler record (R260). -/
def slotOffset (r : List Byte) (k : Nat) : Int := intOf 24 false (numAt r (3 * k) 3)

/-- A straggler record after an episode with an offset, and whether FLAG was set or cleared (R260, R261). -/
def updateRecord (r : List Byte) (e : BitVec 32) (off : Int) (t k w : Nat) : List Byte × Option Bool :=
  let i := e.toNat % 16
  let r1 := r.take (3 * i) ++ toBytes 3 (intBits 24 off) ++ r.drop (3 * i + 3)
  let late := ((List.range w).filter fun j => decide ((t : Int) < slotOffset r1 ((e.toNat + 16 - j) % 16))).length
  let onrun := if (t : Int) < off then 0 else min (numAt r 53 1 + 1) 16
  let flag := decide (numAt r 52 1 % 2 = 1)
  let change : Option Bool := if !flag && decide (k ≤ late) then some true else if flag && decide (w ≤ onrun) then some false else none
  let flag' := change.getD flag
  (r1.take 48 ++ toBytes 4 e.toNat ++ toBytes 1 ((if flag' then 1 else 0) + 2) ++ toBytes 1 onrun ++ toBytes 10 0, change)

/-- Bytes written by a barrier's home as an event from a time on, with the time of the event (R261). -/
def homeWrite (p : State × Nat) (q : Requester) (x : XOk) (bs : List Byte) : State × Nat :=
  let e := writeEvent p.1.mem x.pa bs q.tile p.1.tb none x.sa p.2
  ({ p.1 with mem := e.mem }, e.pts)

/-- One member's record written, and its queue's STEAL changed with its FLAG, as events of the home (R261). -/
def settleMember (q : Requester) (b : Barrier) (med : Nat) (s : State × Nat) (p : Member × Nat) : State × Nat :=
  match xlateD s.1 q .atomic (b.srb + BitVec.ofNat 64 (64 * p.2)) with
  | none => s
  | some (x, s') =>
    let r := updateRecord (rdBytes s'.mem x.pa 64) b.epi (offsetOf med p.1) b.t b.k b.w
    let s1 := homeWrite (s', s.2) q x r.1
    match r.2, memberEntry s1.1 q b.mtb p.2 with
    | some v, some e => setSteal s1 q e.2 v
    | _, _ => s1

/-- Whether an episode is complete (R271). -/
def episodeDone (epi e : BitVec 32) : Bool := decide (1 ≤ (epi - e).toNat) && decide ((epi - e).toNat < 2 ^ 31)

/-- A waiter released: its unit receives what its C-word writes (R274). -/
def releaseWaiter (pts : Nat) (s : State) (w : BarWaiter) : State :=
  completeParked s w.unit fun x =>
    let y := { x with pts := max x.pts pts }
    match w.reg with
    | some d => writeP7 (writeVal y d (w.epi.setWidth 64)) w.ok
    | none => y

/-- The waiters whose episode is complete released. -/
def releaseWaiters (s : State) (k : Nat) : State :=
  match mget s.barriers k with
  | none => s
  | some b =>
    let s1 := (b.waiters.filter fun w => episodeDone b.epi w.epi).foldl (releaseWaiter b.pts) s
    setBarrier s1 k { b with waiters := b.waiters.filter fun w => !episodeDone b.epi w.epi }

/-- The members as the next episode opens: LEFT members arrive excused, unless every member has left (R273, R275). -/
def nextMembers (ms : List Member) : List Member :=
  if ms.all (·.left) then ms.map fun m => { left := m.left }
  else ms.map fun m => if m.left then { arrived := true, left := true, excused := true } else {}

/-- The episode completed: records, flags, the next episode, and the waiters (R261, R273). -/
def completeEpisode (s : State) (l : Launch) (k : Nat) (b : Barrier) : State :=
  let q := launchReq l
  let s1 := (b.members.zip (List.range b.members.length)).foldl (settleMember q b (medianTime b.members)) (s, b.pts)
  let ms := nextMembers b.members
  releaseWaiters (setBarrier s1.1 k
    { b with epi := b.epi + 1#32, members := ms, arr := (ms.filter (·.arrived)).length, pts := s1.2 }) k

/-- A barrier changed at its home, and its episode completed where every member is ARRIVED or LEFT (R273). -/
def putBarrier (s : State) (l : Launch) (k : Nat) (b : Barrier) : State :=
  if b.members.all fun m => m.arrived || m.left then completeEpisode s l k b else setBarrier s k b

/-- TB() at the issue of the issuer's C-word, on its die (R261). -/
def issueTb (s : State) : Nat := tbOf { s with tb := (me s).issued } (dieOf s.cur)

/-- An arrival at the home (R273): the episode, whether it counted, and the state. -/
def arrive (s : State) (l : Launch) (k : Nat) (b : Barrier) (m : Nat) : BitVec 32 × Bool × State :=
  let x := b.members.getD m {}
  if x.left ∨ x.arrived then (b.epi, false, s)
  else
    let y := { x with arrived := true, time := issueTb s }
    (b.epi, true, putBarrier s l k
      { b with members := b.members.set m y, arr := b.arr + 1, pts := max b.pts (me s).pts })

/-- The issuer's member index, or the refusal of R268. -/
def memberIndex (s : State) (l : Launch) (b : Barrier) (n : Word) : Except Stop Nat :=
  match memberOf s (launchReq l) b (me s).launch s.cur with
  | some m => .ok m
  | none => .error (homeRefuses s n)

/-! ## Major 0x2E (R271 to R277) -/

/-- BARARR (R273). -/
def execBararr (a b : BitVec 7) (s : State) : Host.Outcome State Fault Refusal :=
  cword (.bararr a b) s fun s => do
    let n := readVal (me s) b
    let (s, l, k, x) ← heldBarrier s n
    let m ← memberIndex s l x n
    let s1 ← joinAll s
    let r := arrive s1 l k x m
    .ok (putResult r.2.2 a (r.1.setWidth 64) r.2.1)

/-- A wait for an episode at the home (R274): it passes where the episode is complete, and parks otherwise. `aux` of the
wait keeps the episode and the status of BARSYNC's arrival. -/
def awaitEpisode (s : State) (k : Nat) (n : Word) (e : BitVec 32) (reg : Option (BitVec 7)) (ok : Bool) : Except Stop State :=
  let b := (mget s.barriers k).getD { holder := 0, nmem := 0, mtb := 0#64, srb := 0#64, members := [] }
  if episodeDone b.epi e then
    let s1 := modMe s fun x => { x with pts := max x.pts b.pts }
    .ok (match reg with
      | some d => putResult s1 d (e.setWidth 64) ok
      | none => s1)
  else
    .error (.wait (setBarrier s k { b with waiters := b.waiters ++ [{ unit := s.cur, epi := e, reg := reg, ok := ok }] })
      { kind := .barrier, value := BitVec.ofNat 64 (field n 9 0), aux := 2 * e.toNat + (if ok then 1 else 0),
        count := waitCount (me s) })

/-- A wait on a barrier whose home launch holds no pages at the moment goes on waiting, and counting (R47, R49, R271). -/
def waitOn {α : Type} (s : State) (fresh : Option Wait) (r : Except Stop α) : Except Stop α :=
  match r, (me s).wait.orElse fun _ => fresh with
  | .error .hold, some w => .error (.wait s w)
  | r, _ => r

/-- BARWAIT (R274). -/
def execBarwait (a b : BitVec 7) (s : State) : Host.Outcome State Fault Refusal :=
  cword (.barwait a b) s fun s => do
    let n := readVal (me s) a
    let (s, _, k, _) ← waitOn s (some { kind := .barrier, value := BitVec.ofNat 64 (field n 9 0) }) (heldBarrier s n)
    awaitEpisode s k n ((readVal (me s) b).setWidth 32) none false

/-- BARSYNC (R274): an arrival, then the wait; a wait that goes on after a restore does not arrive again. -/
def execBarsync (a b : BitVec 7) (s : State) : Host.Outcome State Fault Refusal :=
  cword (.barsync a b) s fun s => do
    let n := readVal (me s) b
    let (s, l, k, x) ← waitOn s none (heldBarrier s n)
    let m ← memberIndex s l x n
    match (me s).wait with
    | some w => awaitEpisode s k n (BitVec.ofNat 32 (w.aux / 2)) (some a) (w.aux % 2 == 1)
    | none => do
      let s1 ← joinAll s
      let r := arrive s1 l k x m
      awaitEpisode r.2.2 k n r.1 (some a) r.2.1

/-- T, K and W as BARCFG and BARRD lay them out (R276, R277). -/
def cfgWord (b : Barrier) : Nat := b.t + b.k * 2 ^ 24 + b.w * 2 ^ 32

/-- BARRD (R277). -/
def execBarrd (a b : BitVec 7) (sel : BitVec 6) (s : State) : Host.Outcome State Fault Refusal :=
  cword (.barrd a b sel) s fun s => do
    let (s, l, _, x) ← heldBarrier s (readVal (me s) b)
    let v : Word :=
      match sel.toNat with
      | 0 => x.epi.setWidth 64
      | 1 => BitVec.ofNat 64 x.arr
      | 2 => BitVec.ofNat 64 x.nmem
      | 3 => BitVec.ofNat 64 (cfgWord x)
      | 4 => x.mtb
      | 5 => x.srb
      | 6 => match memberOf s (launchReq l) x (me s).launch s.cur with
        | some m => BitVec.ofNat 64 m
        | none => BitVec.allOnes 64
      | _ => BitVec.ofNat 64 (x.members.filter (·.left)).length
    .ok (modMe s fun y => writeVal y a v)

/-- BARCFG (R276). -/
def execBarcfg (a b : BitVec 7) (s : State) : Host.Outcome State Fault Refusal :=
  cword (.barcfg a b) s fun s => do
    let c := readVal (me s) b
    let (s, _, k, x) ← heldBarrier s (readVal (me s) a)
    let t := field c 22 0
    let kk := field c 28 24
    let w := field c 36 32
    if field c 63 37 = 0 ∧ field c 31 29 = 0 ∧ field c 23 23 = 0 ∧ 1 ≤ t ∧ 1 ≤ w ∧ w ≤ 16 ∧ 1 ≤ kk ∧ kk ≤ w then
      .ok (putStatus (setBarrier s k { x with t := t, k := kk, w := w }) true)
    else .ok (putStatus s false)

/-- BARLEAVE (R275). -/
def execBarleave (a : BitVec 7) (s : State) : Host.Outcome State Fault Refusal :=
  cword (.barleave a) s fun s => do
    let n := readVal (me s) a
    let (s, l, k, x) ← heldBarrier s n
    let m ← memberIndex s l x n
    let s1 ← joinAll s
    let y := x.members.getD m {}
    if y.left then .ok s1
    else
      let z := if y.arrived then { y with left := true } else { y with arrived := true, left := true, excused := true }
      .ok (putBarrier s1 l k
        { x with members := x.members.set m z, arr := if y.arrived then x.arr else x.arr + 1, pts := max x.pts (me s1).pts })

/-- The entries of a member table, where every one of them translates. -/
def memberTable (s : State) (q : Requester) (mtb : Word) (n : Nat) : Option (List (Word × Word)) :=
  (List.range n).mapM fun m => memberEntry s q mtb m

/-- The initialisation of a barrier (R272): its slot claimed, every record cleared, every registered queue not
stealable. -/
def initBarrier (s : State) (q : Requester) (k key : Nat) (mtb srb : Word) (es : List (Word × Word)) (pts : Nat) : State :=
  let n := es.length
  let s1 := (List.range n).foldl (fun (p : State × Nat) m =>
    match xlateD p.1 q .write (srb + BitVec.ofNat 64 (64 * m)) with
    | some (x, s') => homeWrite (s', p.2) q x (toBytes 64 0)
    | none => p) (s, pts)
  let s2 := es.foldl (fun p e => setSteal p q e.2 false) s1
  setBarrier s2.1 k { holder := key, nmem := n, mtb := mtb, srb := srb, members := List.replicate n {}, pts := s2.2 }

/-- Whether a barrier slot may be initialised by a home launch (R272): a launch holds its slots until it retires (R268). -/
def slotFree (s : State) (k key : Nat) : Bool :=
  match mget s.barriers k with
  | none => true
  | some b =>
    (mget s.launches b.holder).isNone || (decide (b.holder = key) && decide (b.arr = 0) && b.waiters.isEmpty)

/-- The first address of each page that n bytes from a virtual address touch. -/
def spanPages (va : Word) (n : Nat) : List Word :=
  (List.range ((va.toNat % 4096 + n + 4095) / 4096)).map fun k =>
    if k = 0 then va else va + BitVec.ofNat 64 (4096 * k - va.toNat % 4096)

/-- Every page of n bytes from a virtual address translated for the issuing unit; the first that fails traps (R91, R272). -/
def addressSpan (s : State) (k : Access) (va : Word) (n : Nat) : Except Stop State :=
  (spanPages va n).foldlM (fun s a => (address s k a 1).map Prod.snd) s

/-- BARINIT (R272). -/
def execBarinit (a b : BitVec 7) (s : State) : Host.Outcome State Fault Refusal :=
  cword (.barinit a b) s fun s => do
    let n := readVal (me s) a
    let blk := readVal (me s) b
    let (key, l, t, i) ← resolveName s n
    let (x, s1) ← address s .read blk 32
    let (v, s2) ← readC s1 x 32 none blk
    let mtb : Word := BitVec.ofNat 64 (numAt v 0 8)
    let srb : Word := BitVec.ofNat 64 (numAt v 8 8)
    let nmem := numAt v 16 4
    if mtb.toNat % 16 ≠ 0 ∨ srb.toNat % 64 ≠ 0 ∨ nmem = 0 ∨ nmem > 16384 ∨ numAt v 20 12 ≠ 0 then .ok (putStatus s2 false)
    else do
      let s3 ← addressSpan s2 .read mtb (16 * nmem)
      let s4 ← addressSpan s3 .write srb (64 * nmem)
      let s6 := toHomeTile s4 t
      match memberTable s6 (launchReq l) mtb nmem with
      | none => .ok (putStatus s6 false)
      | some es =>
        if (es.any fun e => decide (field e.1 17 0 ≠ 0)) || !(decide (es.map Prod.fst).Nodup) ||
            !slotFree s6 (1024 * t + i) key then .ok (putStatus s6 false)
        else .ok (putStatus (initBarrier s6 (launchReq l) (1024 * t + i) key mtb srb es (me s6).pts) true)

end Sys2Proof.Machine
end

