-- ==== Sys2Proof/Machine/Channel.lean ====
section
/-!
DEFINITION. What moves on the reverse wires of channels: kills (R166, R167) and credit (R160); saved tokens injected at a
restore (R408); and the commit of rounds (R255, R300).
-/

namespace Sys2Proof.Machine

open Sys2Proof

/-! ## Kills (R166, R167) -/

/-- The lanes of a group that the reader of a FIFO has killed. -/
def killedAt (s : State) (f : Nat) (seq : BitVec 12) : BitVec 128 := killMask (fifoAt s f).killed seq

/-- The lanes of a group that every reader behind a switch output has killed (R167). -/
def killedBy (s : State) (u out : Nat) (seq : BitVec 12) : BitVec 128 :=
  match outFifos s u out with
  | [] => 0#128
  | f :: fs => fs.foldl (fun m f => m &&& killedAt s f seq) (killedAt s f seq)

/-- The lanes of a group that every consumer of a switch input has killed: all the outputs of a fan-out, the one output of
a pass or seam route; a hold route passes no kill (R229). -/
def killedInput (s : State) (u inp : Nat) (seq : BitVec 12) : BitVec 128 :=
  match (bankAt s u).words.swords.filter fun w => decide ((fSi w).toNat = inp) with
  | [] => 0#128
  | w :: ws =>
    (w :: ws).foldl (fun m v => if sMode v = 1 then 0#128 else m &&& killedBy s u (fSo v).toNat seq)
      (killedBy s u (fSo w).toNat seq)

/-- The port of a flow element that feeds the value group it passes. -/
def killPorts (s : State) : List Port :=
  let w := ew s
  let a := portAs 0 (fEa w)
  let b := portAs 1 (fEb w)
  match eopOf w with
  | 0x79 => if (wk s).looping then [b] else [a]
  | 0x7B => match headOf s (portAs 2 (fEc w)) with
    | some t => if bitOf t.data 0 then [b] else [a]
    | none => []
  | _ => [a]

/-- The flits of a group that wait in an output, with what kills leave of them: the first that stands at EZ in every member lane
ends the group (R145). -/
def endKilled (seq : BitVec 12) : List Token → List Token
  | [] => []
  | t :: l =>
    if t.ty = tyDigit ∧ t.seq = seq ∧ allEz t.data then
      { t with gend := true } :: l.filter fun x => !(x.isFlit && decide (x.seq = seq))
    else t :: endKilled seq l

/-- A kill at the element that acts (R166, R167): the flits of the group that have not left carry EZ in its lanes; while the
group is in progress, so do its later flits, and the kill goes on upstream. -/
def killElem (s : State) (seq : BitVec 12) (m : BitVec 128) : State :=
  let hit := fun (t : Token) => decide (t.ty = tyDigit) && decide (t.seq = seq)
  let unit := decide (eopOf (ew s) ≤ 0x12)
  let mask := fun (l : List Token) => l.map fun t => if hit t then { t with data := maskFlit t.data m } else t
  let s1 := modEl s fun x => { x with out := if unit then endKilled seq (mask x.out) else mask x.out }
  let s2 := if (el s).out.any hit then addEsr s1 512 else s1
  let ended := (el s2).out.any fun t => hit t && t.gend
  let w := ew s
  let going := decide ((wk s).seq = seq.toNat)
  let keep := modEl s2 fun x => { x with killIn := mergeKill x.killIn seq m }
  if eopOf w ≤ 0x0F ∧ eopOf w ≠ 0 then
    if !going then s2
    else if (wk s).grp.active then
      let s3 := passKills keep (portsOf w) m
      if ended && decide ((wk s3).grp.hdrOut ≠ 4) then endOut s3 else s3
    else keep
  else if 0x78 ≤ eopOf w then
    if going && (wk s).grp.active then (killPorts s).foldl (fun s p => sendKill s p seq m) keep else s2
  else s2

/-- A kill that reaches a switch input: a mesh FIFO passes it to its sender, an element applies it; at a frozen element it stays
on its way until the element has been resumed (R173). -/
def killInput (k : KillMsg) (s : State) (u inp : Nat) : State :=
  let seq := k.seq
  let m := killedInput s u inp seq
  if m = 0#128 then s
  else if inp < 8 then
    let f := meshNo u inp
    let x := fifoAt s f
    let s1 := setFifo s f { x with killed := mergeKill x.killed seq m }
    { s1 with kills := s1.kills ++ [{ fifo := f, seq := seq, mask := m }] }
  else
    let b := bankAt s u
    match (inElem s u (inp - 8)).or (busDriver b.words.ewords (inp - 8)) with
    | none => s
    | some e =>
      if (elemAt s u e).frozen then { s with kills := s.kills ++ [k] }
      else { killElem (asElem s u e) seq m with cur := s.cur, curElem := s.curElem }

/-- The switch outputs of a slot that send to one of its FIFOs, as slot and switch input from which they take. -/
def feeders (s : State) (f : Nat) : List (Nat × Nat) :=
  match feedOf f with
  | none => []
  | some (u, out) => ((bankAt s u).words.swords.filter fun w => decide ((fSo w).toNat = out)).map fun w => (u, (fSi w).toNat)

/-- KILL (R166): the oldest message on a reverse wire goes one hop upstream. -/
def execKill (s : State) : Host.Outcome State Fault Refusal :=
  .next <|
    match s.kills with
    | [] => s
    | k :: ks => (feeders s k.fifo).foldl (fun s p => killInput k s p.1 p.2) { s with kills := ks }

/-! ## Credit (R160, R408) -/

/-- CREDIT_RETURN (R160). -/
def execCreditReturn (f : Nat) (s : State) : Host.Outcome State Fault Refusal :=
  let x := fifoAt s f
  .next (if x.owed = 0 then s else setFifo s f { x with credit := x.credit + x.owed, owed := 0 })

/-- SAVED_TOKEN_INJECT (R408): one saved token enters its FIFO, and counts as one of the sender's own. -/
def execSavedTokenInject (f : Nat) (s : State) : Host.Outcome State Fault Refusal :=
  let x := fifoAt s f
  .next <|
    match x.inject with
    | [] => s
    | t :: l => if x.credit = 0 then s else noteMove (setFifo s f { pushFifo x t with inject := l }) f

/-! ## Commit (R255, R257, R300) -/

/-- The FIFOs of an element's inputs. -/
def inputFifos (s : State) (ue : Nat) : List Nat :=
  (inputsOf (ewordAt s (ue / 32) (ue % 32))).eraseDups.map fun k => fifoNo (ue / 32) (ue % 32) k

/-- The elements whose outputs reach a FIFO through one switch. -/
def driversOf (s : State) (f : Nat) : List Nat :=
  (feeders s f).filterMap fun p =>
    if p.2 < 8 then none else (busDriver (bankAt s p.1).words.ewords (p.2 - 8)).map fun e => 32 * p.1 + e

/-- The element that feeds the matrix array of a slot without a route (R201, R239). -/
def chainDriver (s : State) (ue : Nat) : List Nat :=
  if ue % 32 = 9 ∧ eopOf (ewordAt s (ue / 32) 9) = 0x42 then [32 * (ue / 32) + 22] else []

/-- The FIFOs and the elements from which something can still come, n switches further. -/
def upstream (s : State) : Nat → List Nat → List Nat → List Nat × List Nat
  | 0, fs, es => (fs, es)
  | n + 1, fs, es =>
    let es1 := (es ++ fs.flatMap (driversOf s) ++ es.flatMap (chainDriver s)).eraseDups
    let mesh := fs.flatMap fun f => (feeders s f).filterMap fun p => if p.2 < 8 then some (meshNo p.1 p.2) else none
    let fs1 := (fs ++ mesh ++ es1.flatMap (inputFifos s)).eraseDups
    if fs1 = fs ∧ es1 = es then (fs, es) else upstream s n fs1 es1

/-- Whether nothing more can come to an element from the streams as they stand. DEDUCED (log entry 67). -/
def nothingComes (s : State) (ue : Nat) : Bool :=
  let r := upstream s (s.fifos.length + 64) (inputFifos s ue) (chainDriver s ue)
  let idle := fun (x : Elem) => x.out.isEmpty && !x.runs && x.work.heldEos.isNone && x.work.intake.chain.isEmpty
  (r.1.all fun f => (fifoAt s f).q.isEmpty && (fifoAt s f).inject.isEmpty) &&
  (r.2.all fun e => decide (e = ue) || idle (elemAt s (e / 32) (e % 32))) && !(elemAt s (ue / 32) (ue % 32)).runs

/-- Whether a round has closed (R255): some element has passed its boundary, every sink has taken its round step, and every
load port has made the round's loads; without a sink, every source has passed its boundary. What no token can reach any more
has nothing left of the round. -/
def roundClosed (s : State) (key n : Nat) : Bool :=
  let es := activeElems s (seriesSlots s key)
  let passed := fun (e : Nat × Nat × BitVec 32) =>
    (elemAt s e.1 e.2.1).hasPassed n || nothingComes s (32 * e.1 + e.2.1)
  let sinks := es.filter fun e => eSink e.2.2
  (es.any fun e => (elemAt s e.1 e.2.1).hasPassed n) &&
  (es.all fun e => !ePort e.2.2 || passed e) &&
  (if sinks.isEmpty then es.all fun e => !eSource e.2.2 || passed e else sinks.all passed)

/-- The stores of a committed round to region windows, at its time (R263, R300). -/
def makeRegionStores (r : Round) (tc : Nat) (s : State) : State :=
  r.stores.foldl (fun s y => if isRegion y.pa then regionStore s (windowPage y.pa) (y.pa % 4096) y.value tc else s) s

/-- A series whose streams have all passed their final EOS, and whose rounds have all committed, closed (R253). -/
def closeSeries (s : State) (key : Nat) : State :=
  if seriesBusy s (seriesSlots s key) || !(openRounds s key).isEmpty then s
  else setSeries s key { seriesAt s key with isOpen := false }

/-- ROUND_COMMIT (R255): the oldest round of series k of a launch, once it has closed. A round that needs a lease that cannot
be extended is voided instead (R300). -/
def execRoundCommit (l k : Nat) (s : State) : Host.Outcome State Fault Refusal :=
  let key := 4 * l + k
  let x := seriesAt s key
  let n := x.next
  let r := x.round n
  let tc := commitTime s.mem x.pts r
  .next <|
    if !(x.isOpen && roundClosed s key n) then s
    else if commitWaits s key r then s
    else if leaseFails s.mem tc r then voidRounds s key true
    else closeSeries (makeRegionStores r tc (commitRound s key n)) key

end Sys2Proof.Machine
end

