-- ==== Sys2Proof/Machine/Declare.lean ====
section
/-!
DEFINITION. What the loader does for the directives of an image before any unit of a launch starts (R39, R272, R341, R387).
-/

namespace Sys2Proof.Machine

open Sys2Proof

/-- Bytes of one line written by the loader for a launch, as one event; a page that does not translate keeps what it holds. -/
def loaderStore (s : State) (q : Requester) (va : Word) (bs : List Byte) : State :=
  match xlateD s q .write va with
  | some (x, s1) => { s1 with mem := (writeEvent s1.mem x.pa bs q.tile s1.tb none x.sa 0).mem }
  | none => s

/-- A declared queue initialised as QINIT does (R341), with no owner. -/
def declareQueue (l : Launch) (s : State) (d : QueueDecl) : State :=
  let q := launchReq l
  let va := l.arg + BitVec.ofNat 64 d.home
  match xlateD s q .atomic va with
  | none => s
  | some (x, s1) =>
    let b : Aqcb :=
      { head := 0, tail := 0, free := 2 ^ d.capl, esz := d.esz, capl := d.capl, flags := d.flags, owner := 0#64,
        home := x.pa, base := l.arg + BitVec.ofNat 64 d.base, check := 0, zeros := true }
    if d.esz ≤ 5 ∧ d.capl ≤ 24 ∧ d.flags < 8 then
      { s1 with mem := (writeEvent s1.mem x.pa b.bytes q.tile s1.tb none x.sa 0).mem }
    else s1

/-- A declared barrier: its member table written from the placement, and its slot initialised (R272, R387). -/
def declareBarrier (key : Nat) (l : Launch) (s : State) (d : BarrierDecl) : State :=
  match launchTile l d.dx d.dy with
  | none => s
  | some t =>
    let q := launchReq l
    let mtb := l.arg + BitVec.ofNat 64 d.mtb
    let entry := fun (m : Nat × Nat × Nat × Option Nat) =>
      (unitName key (4 * (launchTile l m.1 m.2.1).getD t + l.base + m.2.2.1),
        match m.2.2.2 with
        | some o => l.arg + BitVec.ofNat 64 o
        | none => 0#64)
    let es := d.members.map entry
    let s1 := (es.zip (List.range es.length)).foldl (fun s e =>
      loaderStore s q (mtb + BitVec.ofNat 64 (16 * e.2)) (toBytes 8 e.1.1.toNat ++ toBytes 8 e.1.2.toNat)) s
    if slotFree s1 (1024 * t + d.index) key then
      initBarrier s1 q (1024 * t + d.index) key mtb (l.arg + BitVec.ofNat 64 d.srb) es 0
    else s1

/-- The directives of a launch's image carried out. -/
def declareAll (s : State) (key : Nat) (l : Launch) : State :=
  (s.decls.filter fun d => decide (d.image = l.cfgid)).foldl
    (fun s d => d.barriers.foldl (declareBarrier key l) (d.queues.foldl (declareQueue l) s)) s

end Sys2Proof.Machine
end

