-- ==== Sys2Proof/Machine/Fetch.lean ====
section
/-!
DEFINITION. Fetching a unit's C-word (R68, R105), and laying an instruction's word where the next step fetches it.
-/

namespace Sys2Proof.Machine

open Sys2Proof

/-- The C-word at a unit's PC, with the state that the translation leaves; none where the fetch fails (R68). -/
def fetchWord (s : State) (u : Nat) : Option (BitVec 32 × State) :=
  match translate s (requester s u) .fetch (unitAt s u).pc with
  | (.ok x, s') => some (BitVec.ofNat 32 (rdNum s'.mem x.pa 4), s')
  | (.error _, _) => none

/-- A page table that maps the first 2 GiB of virtual addresses to HBM4 of die 0, as 1 GiB leaves that grant every
access: root at 0x1000, its level-3 table at 0x2000 and its level-2 table at 0x3000 (R313, R314). -/
def placeTables (m : Memory) : Memory :=
  wrNum (wrNum (wrNum m 0x1000 8 0x2001) 0x2000 8 0x3001) 0x3000 8 0x1F

/-- A machine whose next action is a C-word of slot 0: a unit of the system job is ready there, with PC 0x10000.
DESIGN CHOICE (log entry 7). -/
def placeCWord (s : State) (w : BitVec 32) : State :=
  { s with
    held := false
    mem := wrNum (placeTables s.mem) 0x10000 4 w.toNat
    jobs := mset s.jobs 0 { policyOf s 0 with root := 0x1000 }
    units := mset s.units 0
      { unitAt s 0 with
        st := .ready
        wait := none
        pend := []
        pc := 0x10000#64
        csr := { (unitAt s 0).csr with status := 5#64, jobid := 0#64 } }
    agenda := [.issue 0]
    cur := 0 }

/-- The first element in which an operation may stand (R30). -/
def placeFor (w : BitVec 32) : Nat := ((List.range 24).find? (eopPlace (eopOf w))).getD 0

/-- A machine whose next action is an E-word of slot 0: the word alone stands in the bank, at the first element that takes
its operation, with nothing at its ports. -/
def placeEWord (s : State) (w : BitVec 32) : State :=
  { s with
    held := false
    banks := mset s.banks 0 { words := { ewords := [(placeFor w, w)] } }
    elems := s.elems.filter fun e => decide (e.1 / 32 ≠ 0)
    fifos := s.fifos.filter fun f => decide (f.1 / 256 ≠ 0)
    agenda := [.fire 0 (placeFor w)] }

/-- A machine whose next action is a route of slot 0: the S-word alone stands in the bank. -/
def placeSWord (s : State) (w : BitVec 16) : State :=
  { s with
    held := false
    banks := mset s.banks 0 { words := { swords := [w] } }
    agenda := [.route 0 0] }

end Sys2Proof.Machine
end

