-- ==== Sys2Proof/Machine/UnitEvents.lean ====
section
/-!
DEFINITION. What happens to a unit between its C-words: boundary traps (R52), timeouts (R49), the end of a sleep (R101),
watches (R121), fetch faults and illegal words (R12, R68), its start (R44) and its retirement (R103); and the errors of
scratchpad words (R170).
-/

namespace Sys2Proof.Machine

open Sys2Proof

/-- Whether the launch of a unit is being saved: its units issue nothing (R398). -/
def unitSaving (s : State) (u : Nat) : Bool := (launchOf s u).any fun l => decide (l.st = .saving)

/-! ## Traps between C-words -/

/-- Whether a pending trap is taken before the unit's next C-word (R52). DEDUCED (log entry 13). -/
def boundaryDue (s : State) (u : Nat) : Bool :=
  let x := unitAt s u
  decide (x.st = .ready) && !statusTD x && !unitSaving s u && !x.pend.isEmpty

/-- BOUNDARY_TRAP (R52): the oldest pending trap, at a unit that could issue and has TD = 0. DESIGN CHOICE (log entry 113). -/
def execBoundaryTrap (u : Nat) (s : State) : Host.Outcome State Fault Refusal :=
  let x := unitAt s u
  .next <|
    match x.pend with
    | t :: l =>
      if boundaryDue s u then
        setUnit s u (enterTrap { x with pend := l } t.cause t.detail t.value x.pc)
      else s
    | [] => s

/-- DETAIL of cause 0x09 for a wait (R54). -/
def WaitKind.detail : WaitKind → BitVec 8
  | .tagWord => 1#8 | .counter => 2#8 | .queue => 3#8 | .barrier => 4#8 | .launchReserve => 5#8 | .drain => 6#8
  | .cfgld => 7#8 | .exchange => 9#8 | .roundClose => 10#8 | .promise => 11#8 | .sleep => 0#8

/-- A unit taken off every waiter list (R49). -/
def unparkUnit (s : State) (u : Nat) : State :=
  { s with
    twaiters := s.twaiters.filter fun w => w.elem || decide (w.who ≠ u)
    qwaiters := s.qwaiters.filter fun w => w.taken || decide (w.unit ≠ u)
    barriers := s.barriers.map fun b => (b.1, { b.2 with waiters := b.2.waiters.filter fun w => decide (w.unit ≠ u) }) }

/-- Whether a wait has lasted for WAITLIM cycles; the sleep of SLEEPU has no limit (R49, R101). DEDUCED (log entry 14).
DEDUCED (log entry 108). -/
def timedOut (x : UnitRegs) : Bool :=
  decide (x.st = .waiting) &&
    x.wait.any fun w => decide (w.kind ≠ .sleep) && decide (x.csr.waitlim.toNat ≤ w.count)

/-- WAIT_TIMEOUT (R49). -/
def execWaitTimeout (u : Nat) (s : State) : Host.Outcome State Fault Refusal :=
  let x := unitAt s u
  .next <|
    match x.wait with
    | some w => if timedOut x && !unitSaving s u then raise (unparkUnit s u) u 9#8 w.kind.detail w.value x.pc else s
    | none => s

/-- FETCH_FAULT (R68): the C-word at PC cannot be fetched. -/
def execFetchFault (s : State) : Host.Outcome State Fault Refusal :=
  let u := s.cur
  let pc := (me s).pc
  .next <|
    match translate s (requester s u) .fetch pc with
    | (.ok _, _) => s
    | (.error (.cause c d), s1) => raise s1 u c d pc pc
    | (.error .violation, s1) => freezeBySecurity s1 u 0 24 pc.toNat

/-- ILLEGAL_C_WORD (R12): cause 0x01 with the C-word. -/
def execIllegalCWord (w : BitVec 32) (s : State) : Host.Outcome State Fault Refusal :=
  .next (raise s s.cur 1#8 0#8 (w.setWidth 64) (me s).pc)

/-! ## Sleep and watches -/

/-- Whether the sleep of a unit ends: its time has come, or a watch has fired (R101). -/
def wakes (s : State) (u : Nat) : Bool :=
  let x := unitAt s u
  decide (x.st = .waiting) && !unitSaving s u &&
    x.wait.any fun w => decide (w.kind = .sleep) && (decide (w.value.toNat ≤ tbOf s (dieOf u)) || decide (w.aux = 1))

/-- SLEEPU_WAKE (R101): the promises are checked and joined, and the unit goes on behind its SLEEPU. -/
def execSleepuWake (u : Nat) (s0 : State) : Host.Outcome State Fault Refusal :=
  let s := { s0 with cur := u }
  .next <|
    if !wakes s u then s
    else
      match sleepEnd (tbOf s (dieOf u)) s with
      | .ok s' => modMe s' fun x => goOn x (x.pc + 4#64)
      | .error e => stopped s (.sleepu 0#7) e

/-- A watch that has fired: pN is 1, the watch is disarmed, and a sleep ends (R101, R121). -/
def fireWatch (x : UnitRegs) (n : Nat) : UnitRegs :=
  let y := putPred x (BitVec.ofNat 3 n) true
  { y with wait := y.wait.map fun w => if w.kind = .sleep then { w with aux := 1 } else w }

/-- WATCH_FIRE (R121): watch n of a unit observes its counter at or above the target, which is an acquire. -/
def execWatchFire (u n : Nat) (s0 : State) : Host.Outcome State Fault Refusal :=
  let s := { s0 with cur := u }
  let x := unitAt s u
  .next <|
    match x.watches.toList.getD n none with
    | none => s
    | some w =>
      if x.st = .free ∨ x.st = .retired ∨ x.st = .frozen ∨ unitSaving s u then s
      else
        match xlateD s (requester s u) .read w.addr with
        | none => s
        | some (r, s1) =>
          if readAt s1 r.pa 8 < w.target.toNat then s
          else
            match readC s1 r 8 none w.addr with
            | .ok (_, s2) => modMe (joinCounter s2 u r.pa) fun y => fireWatch y n
            | .error _ => s

/-! ## Start and end (R44, R47, R103, R264) -/

/-- Whether every sink of a slot has passed an EOS of rank 2 or higher whose round has committed (R103). -/
def sinksDone (s : State) (u : Nat) : Bool :=
  (activeElems s [u]).all fun e => !eSink e.2.2 ||
    (elemAt s u e.2.1).passed.any fun p => decide (2 ≤ p.1) && p.2.isNone

/-- UNIT_RETIRE (R103). -/
def execUnitRetire (u : Nat) (s : State) : Host.Outcome State Fault Refusal :=
  .next <|
    if (unitAt s u).st = .draining && forksDone s u && sinksDone s u && !unitSaving s u then
      let s1 := joinIf s u fun _ => true
      setUnit s1 u { unitAt s1 u with st := .retired, wait := none, pend := [] }
    else s

/-- A unit as its launch loads it (R44). -/
def newUnit (l : Launch) (key ctx : Nat) (prologue entry : Word) : UnitRegs :=
  { st := .loaded
    g := (Vector.replicate 64 0#64).set 1 l.arg
    pc := prologue
    csr := { trappc := entry, jobid := BitVec.ofNat 64 l.job, launchid := BitVec.ofNat 64 (key % 2 ^ 32),
             depth := BitVec.ofNat 64 l.depth, ctxid := BitVec.ofNat 64 ctx }
    launch := key }

/-- A segment of an image put into the bank of its tile and context, and its unit made (R105, R264). -/
def putSegment (key : Nat) (l : Launch) (i : Image) (s : State) (g : Segment) : State :=
  match launchTile l g.dx g.dy with
  | none => s
  | some t =>
    let u := 4 * t + l.base + g.ctx
    let s1 := setBank s u { words := g.words, launch := some key }
    match g.entry with
    | none => s1
    | some e => setUnit s1 u (newUnit l key g.ctx (policyOf s l.job).prologue (l.image + BitVec.ofNat 64 (i.code + e)))

/-- Every slot of a launch given an empty bank that belongs to it; what an earlier launch has left there is gone. -/
def claimSlots (s : State) (key : Nat) (l : Launch) : State :=
  let slots := launchSlots l
  slots.foldl (fun s u => setBank s u { launch := some key })
    { s with
      units := s.units.filter fun u => !slots.contains u.1
      elems := s.elems.filter fun e => !slots.contains (e.1 / 32)
      fifos := s.fifos.filter fun f => !slots.contains (f.1 / 256) }

/-- A launch whose image fails its check as it is loaded: nothing of it takes effect, cause 0x08 or the failed access is
reported, and the launch is gone (R14, R266). -/
def refuseImage (s : State) (key : Nat) (l : Launch) (c d v : Nat) : State :=
  let p : Place := { tile := originTile l, ctx := l.base, elem := 24, launch := key, job := l.job }
  { markLaunchErr (record s p 2 c d v 0 0) key with launches := mdel s.launches key }

/-- SEGMENT_LOAD (R264): the segments of a placed launch written into its banks. -/
def execSegmentLoad (l : Nat) (s : State) : Host.Outcome State Fault Refusal :=
  .next <|
    match mget s.launches l with
    | none => s
    | some x =>
      if x.st ≠ .loading then s
      else
        match readImage x.words with
        | .error o => refuseImage s l x 8 0 o
        | .ok i => setLaunch (i.segments.foldl (putSegment l x i) (claimSlots s l x)) l { x with st := .loaded }

/-- LAUNCH_START (R44, R47): the tags of the scratchpad words that the launch owns are empty (R98), the directives of the image
are carried out (R387), and every unit of a loaded launch is ready. -/
def execLaunchStart (l : Nat) (s : State) : Host.Outcome State Fault Refusal :=
  .next <|
    match mget s.launches l with
    | none => s
    | some x =>
      if x.st ≠ .loaded then s
      else
        let slots := launchSlots x
        let start := fun (y : UnitRegs) => if y.st = .loaded then { y with st := .ready } else y
        let ts := launchTiles x
        let s0 := { s with mem := { s.mem with full := s.mem.full.filter fun a => !ownsAddr x ts a } }
        let s1 := declareAll s0 l x
        setLaunch { s1 with units := s1.units.map fun y => if slots.contains y.1 then (y.1, start y.2) else y } l
          { x with st := .running }

/-! ## Errors of scratchpad words (R170) -/

/-- SCRUB (R170): the word of a tile whose turn it is visited, one in 32 cycles; a single-bit error is corrected and counted. -/
def execScrub (t : Nat) (s : State) : Host.Outcome State Fault Refusal :=
  .next { s with mem := correct s.mem (spadAddr t (8 * (s.tb / 32 % 32768))) 8 }

/-- UNCORRECTABLE_ERROR (R170): the scratchpad word of an address is poisoned. -/
def execUncorrectableError (a : Nat) (s : State) : Host.Outcome State Fault Refusal :=
  .next <|
    if isSpad a && mapped a then
      { s with mem := { s.mem with
          poisoned := ninsert s.mem.poisoned (wordOf a)
          single := s.mem.single.filter fun x => decide (x ≠ wordOf a) } }
    else s

end Sys2Proof.Machine
end

