-- ==== Sys2Proof/Machine/Snapshot.lean ====
section
/-!
DEFINITION. Snapshots and restores (R400 to R403, R406): what closes a snapshot, what it holds, and how a launch goes on from
it, in place or at another origin.
-/

namespace Sys2Proof.Machine

open Sys2Proof

/-! ## When a snapshot closes (R400) -/

/-- Whether an element has saved, or can receive nothing more before it would: a source that has emitted its EOS of rank 2
or higher, or ports that all present MRK without one (R398, R399). -/
def elemSaved (s0 : State) (u e : Nat) : Bool :=
  let s := asElem s0 u e
  let ps := owners (endPorts s)
  let none_ := fun (p : Port) => (portFifo s p).q.isEmpty && presentsMrk s p
  let x := el s
  x.saved || (eSource (ew s) && x.ended && !x.runs) ||
    (if ps.isEmpty then decide (eopOf (ew s) = 0x42) && ((elemAt s u 22).saved || (elemAt s u 22).ended) &&
      x.work.intake.chain.isEmpty
     else ps.all none_)

/-- Whether every round that the MRKs follow has committed in a context of a launch. -/
def seriesSettled (s : State) (key : Nat) : Bool :=
  !(seriesAt s key).isOpen || decide (topRound s (seriesSlots s key) ≤ (seriesAt s key).next)

/-- Whether the snapshot of a launch closes (R400). DEDUCED (log entry 77). -/
def snapshotReady (s : State) (l : Nat) : Bool :=
  match mget s.launches l with
  | none => false
  | some x =>
    let slots := heldSlots s l
    decide (x.st = .saving) &&
    ((activeElems s slots).all fun e => elemSaved s e.1 e.2.1) &&
    ((List.range x.nctx).all fun k => seriesSettled s (4 * l + k)) &&
    (s.engines.all fun e => decide (e.2.launch ≠ l) || e.2.complete) &&
    (s.qwaiters.all fun w => !slots.contains w.unit) &&
    (s.kills.all fun k => !slots.contains (k.fifo / 256)) &&
    (s.arbiters.all fun a => a.2.packets.all fun p => p.unit.isNone || decide (p.launch ≠ l)) &&
    slots.all fun u => (unitAt s u).awaits.isNone

/-! ## What it holds (R402) -/

/-- Accumulator rows counted anew, by a shift of their numbers. -/
def shiftRows (f : Nat → Nat) (e : Elem) : Elem :=
  { e with
    shadows := e.shadows.map fun h =>
      { h with claims := h.claims.map f, fresh := h.fresh.map f, rows := h.rows.map fun r => (f r.1, r.2) } }

/-- A barrier as its launch's snapshot holds it: what waits there goes on waiting, and registers anew once the home is back
(R271). DEDUCED (log entry 78). -/
def saveBarrier (b : Barrier) : Barrier := { b with waiters := [] }

/-- The record of a tile and context. -/
def recordOf (s : State) (l : Nat) (x : Launch) (t dx dy k : Nat) : Record :=
  let u := 4 * t + x.base + k
  let lo := spadAddr t (65536 * (x.base + k))
  let mine := fun (a : Nat) => decide (lo ≤ a) && decide (a < lo + 65536)
  let row0 := 256 * t + 64 * x.base
  let rows := fun (r : Nat) => decide (k = 0) && decide (row0 ≤ r) && decide (r < row0 + 64 * x.nctx)
  { dx := dx, dy := dy, ctx := k
    unit := mget s.units u
    bank := bankAt s u
    elems := (s.elems.filter fun e => decide (e.1 / 32 = u)).map fun e => (e.1 % 32, shiftRows (fun r => r - row0) e.2)
    fifos := (slotFifos s u).map fun f => (f.1 % 256, f.2)
    rows := (s.rows.filter fun r => rows r.1).map fun r => (r.1 - row0, r.2)
    claims := (s.claims.filter fun r => rows r.1).map fun r => (r.1 - row0, r.2 % 4 - x.base)
    spad := (s.mem.cells.filter fun c => mine c.1).map fun c => (c.1 - lo, c.2)
    full := (s.mem.full.filter mine).map fun a => a - lo
    poisoned := (s.mem.poisoned.filter mine).map fun a => a - lo
    single := (s.mem.single.filter mine).map fun a => a - lo
    barriers := if k = 0 then (s.barriers.filter fun b => decide (b.1 / 1024 = t) && decide (b.2.holder = l)).map
      fun b => (b.1 % 1024, saveBarrier b.2) else []
    episodes := (s.episodes.filter fun e => mine e.dst).map fun e => { e with dst := e.dst - lo }
    forks := s.engines.filter fun e => decide (e.2.launch = l) && decide (e.2.unit = u) }

/-- The records of a launch, in ascending dy, then dx, then context (R402). -/
def recordsOf (s : State) (l : Nat) (x : Launch) : List Record :=
  (List.range (4 * x.height)).flatMap fun dy => (List.range (4 * x.width)).flatMap fun dx =>
    match launchTile x dx dy with
    | none => []
    | some t => (List.range x.nctx).map (recordOf s l x t dx dy)

/-- The save slot of a launch (R402). -/
def saveSlot (s : State) (l : Nat) (x : Launch) : Word :=
  (policyOf s x.job).save + BitVec.ofNat 64 (2 ^ 29 * (l % 64))

/-- The length of record i of a snapshot in lines, from 64 bytes up to 128 KiB: the spec leaves it open (R402). -/
def recordLines (s : State) (i : Nat) : Nat := (Config.openWord (s.free + i)).toNat % 2048 + 1

/-- The length in bytes of a snapshot of n records: its header, and the records packed behind it (R402). -/
def snapshotBytes (s : State) : Nat → Nat
  | 0 => 4096
  | n + 1 => snapshotBytes s n + 64 * recordLines s n

/-- Record i of n as its bytes: the size word, and then contents to which the spec gives no layout, which are free values
(R402). -/
def recordBytes (s : State) (n i : Nat) : List Byte :=
  let lines := recordLines s i
  toBytes 8 (64 * lines) ++
  (List.range (8 * lines - 1)).flatMap fun j => toBytes 8 (Config.openWord (s.free + n + 16384 * i + j)).toNat

/-- The header of a snapshot (R402). -/
def snapshotHeader (s : State) (l : Nat) (x : Launch) (n used : Nat) : List Byte :=
  let ctxs := (List.range x.nctx).foldl (fun m k => m + 2 ^ (x.base + k)) 0
  let lastc := fun (k : Nat) => if k < x.nctx then (seriesAt s (4 * l + k)).lastc.toNat else 2 ^ 32 - 1
  toBytes 4 0x4A534E50 ++ toBytes 2 1 ++ toBytes 1 x.width ++ toBytes 1 x.height ++ toBytes 8 x.cfgid.toNat ++
  toBytes 4 (l % 2 ^ 32) ++ toBytes 2 x.job ++ toBytes 1 ctxs ++ toBytes 1 x.depth ++ toBytes 8 (tbOf s x.die) ++
  ([0, 1, 2, 3].flatMap fun k => toBytes 4 (lastc k)) ++ toBytes 4 n ++ toBytes 4 0 ++ toBytes 8 used ++
  List.replicate 4032 0#8

/-- The pages of a save slot translated for writing, in ascending address; the first that fails is named (R401). -/
def xlateSlot (s : State) (q : Requester) (va : Word) : Nat → Except (BitVec 8 × BitVec 8 × Word) State
  | 0 => .ok s
  | n + 1 => do
    let s1 ← xlateSlot s q va n
    let a := va + BitVec.ofNat 64 (4096 * n)
    match translate s1 q .write a with
    | (.ok _, s2) => .ok s2
    | (.error (.cause c d), _) => .error (c, d, a)
    | (.error .violation, _) => .error (7#8, 2#8, a)

/-- Bytes stored at a virtual address by the device, one event for each line. -/
def storeVirt (s : State) (q : Requester) (va : Word) (bs : List Byte) : State :=
  let off := va.toNat % 64
  (List.range ((off + bs.length + 63) / 64)).foldl (fun s k =>
    loaderStore s q (va + BitVec.ofNat 64 (64 * k - off)) ((bs.drop (64 * k - off)).take (64 * (k + 1) - max off (64 * k)))) s

/-! ## How a launch goes on (R403) -/

/-- A FIFO with its saved tokens to inject: what was recorded, what it still holds, and what was still to come (R399, R403,
R408). -/
def restoreFifo (f : Fifo) : Fifo :=
  let ts := (f.chan ++ f.q ++ f.inject).filter fun t => decide (t.ty ≠ tyMrk)
  { f with q := [], chan := [], inject := ts, credit := 8, owed := 0 }

/-- An element that goes on: its marks are gone, and so is every current translation (R291, R403). -/
def restoreElem (job : Nat) (e : Elem) : Elem :=
  let x := Elem.invalidate (fun _ => true) (Token.invalidate (fun _ => true) job) e
  { x with saved := false, markOut := false, parked := false, xlcur := none, xlmicro := [],
           out := x.out.filter fun t => decide (t.ty ≠ tyMrk) }

/-- A unit that goes on, with a fresh count for its wait (R403 step 4). -/
def restoreUnit (x : UnitRegs) : UnitRegs := { x with wait := x.wait.map fun w => { w with count := 0 } }

/-- A bank that goes on. -/
def restoreBank (job : Nat) (b : Bank) : Bank :=
  let f := Token.invalidate (fun _ => true) job
  { b with routes := b.routes.map fun r => (r.1, { r.2 with held := r.2.held.map f, saved := false }) }

/-- A FIFO that goes on, its translated addresses to be translated anew. -/
def restoreTokens (job : Nat) (f : Fifo) : Fifo :=
  let g := restoreFifo f
  { g with inject := g.inject.map (Token.invalidate (fun _ => true) job) }

/-- Entries put into a table under new numbers. -/
def putAll {α : Type} (m : Map α) (f : Nat → Nat) (l : Map α) : Map α := l.foldl (fun m e => mset m (f e.1) e.2) m

/-- Bytes of a record's scratchpad written back behind an address. -/
def putSpad (m : List Host.Cell) (lo : Nat) (l : List Host.Cell) : List Host.Cell := l.foldl (fun m c => wrCell m (c.1 + lo) c.2) m

/-- A record written into the tile and context of a launch's placement (R403 steps 2 to 4). -/
def putRecord (l : Nat) (x : Launch) (s : State) (r : Record) : State :=
  match launchTile x r.dx r.dy with
  | none => s
  | some t =>
    let u := 4 * t + x.base + r.ctx
    let lo := spadAddr t (65536 * (x.base + r.ctx))
    let row0 := 256 * t + 64 * x.base
    let s1 : State := { s with
      units := match r.unit with
        | some y => mset s.units u (restoreUnit y)
        | none => mdel s.units u
      banks := mset s.banks u (restoreBank x.job { r.bank with launch := some l })
      elems := putAll (s.elems.filter fun e => decide (e.1 / 32 ≠ u)) (fun e => 32 * u + e) (r.elems.map fun e =>
        (e.1, restoreElem x.job (shiftRows (fun k => k + row0) e.2)))
      fifos := putAll (s.fifos.filter fun f => decide (f.1 / 256 ≠ u)) (fun f => 256 * u + f) (r.fifos.map fun f => (f.1, restoreTokens x.job f.2))
      rows := putAll s.rows (fun k => k + row0) r.rows
      claims := putAll s.claims (fun k => k + row0) (r.claims.map fun c => (c.1, 4 * t + x.base + c.2))
      barriers := putAll s.barriers (fun k => 1024 * t + k) r.barriers }
    { s1 with
      episodes := s1.episodes ++ r.episodes.map fun e => { e with dst := e.dst + lo }
      engines := putAll s1.engines id (r.forks.map fun e => (e.1, { e.2 with unit := u }))
      mem := { s1.mem with
        cells := putSpad s1.mem.cells lo r.spad
        full := r.full.foldl (fun m a => ninsert m (a + lo)) s1.mem.full
        poisoned := r.poisoned.foldl (fun m a => ninsert m (a + lo)) s1.mem.poisoned
        single := r.single.foldl (fun m a => ninsert m (a + lo)) s1.mem.single } }

/-- The slot of a placement that a slot of another placement of the same launch becomes. -/
def movedSlot (x y : Launch) (u : Nat) : Nat :=
  let t := tileOf u
  match launchTile y (gridX t - originX x) (gridY t - originY x) with
  | some t' => 4 * t' + y.base + (ctxOf u - x.base)
  | none => u

/-- The round series of a launch written back, its forking units under their new numbers. -/
def putSeries (l : Nat) (x y : Launch) (s : State) (sers : Map Series) : State :=
  let moved := sers.map fun r => (r.1, { r.2 with forkUnit := movedSlot x y r.2.forkUnit })
  { s with series := putAll s.series (fun k => 4 * l + k) moved }

/-! ## Member tables and queue owners (R269, R312, R403 step 2) -/

/-- The barriers of the package with the launches that hold them, those in snapshots among them. -/
def allBarriers (s : State) : List (Launch × Barrier) :=
  (s.barriers.filterMap fun b => (mget s.launches b.2.holder).map fun l => (l, b.2)) ++
  s.launches.flatMap fun l => l.2.snapshot.flatMap fun r => r.barriers.map fun b => (l.2, b.2)

/-- The new name of a unit of launch l after a move, by its old name. -/
def newName (l : Nat) (x y : Launch) (name : Word) : Option Word :=
  ((launchSlots x).find? fun u => decide (unitName l u = name)).map fun u => unitName l (movedSlot x y u)

/-- A member-table entry that names a moved unit: where it stands, its new name, and the block that it registers. -/
structure MovedEntry where
  req   : Requester
  va    : Word
  name  : Word
  block : Word

/-- Whether two entries are one place, under one job. -/
def MovedEntry.same (a b : MovedEntry) : Bool := decide (a.req.job = b.req.job) && decide (a.va = b.va)

/-- The member-table entries of the package that name a moved unit, each once. -/
def movedEntries (s : State) (l : Nat) (x y : Launch) : List MovedEntry :=
  let all := (allBarriers s).flatMap fun p => (List.range p.2.nmem).filterMap fun m =>
    let q := launchReq p.1
    match memberEntry s q p.2.mtb m with
    | none => none
    | some (name, blk) => (newName l x y name).map fun n =>
        { req := q, va := p.2.mtb + BitVec.ofNat 64 (16 * m), name := n, block := blk : MovedEntry }
  all.foldl (fun es e => if es.any e.same then es else es ++ [e]) []

/-- The OWNER of a registered block rewritten where it names a moved unit, with its check word; a block that is not
consistent is left as found (R306, R312). DEDUCED (log entry 78). -/
def moveOwner (l : Nat) (x y : Launch) (s : State) (e : MovedEntry) : State :=
  if e.block = 0#64 then s
  else
    match xlateD s e.req .atomic e.block with
    | none => s
    | some (r, s1) =>
      let b := blockAt s1.mem r.pa
      match newName l x y b.owner with
      | some n => if b.consistent r.pa then putBlock s1 r.pa { b with owner := n } 0 else s1
      | none => s1

/-- Whether two placements are the same. -/
def samePlace (x y : Launch) : Bool := decide (homePage x = homePage y) && decide (x.base = y.base)

/-- Every member table and registered queue of the package rewritten for a launch that has moved. -/
def moveMembers (l : Nat) (x y : Launch) (s : State) : State :=
  if samePlace x y then s
  else
    let es := movedEntries s l x y
    let blocks := es.foldl (fun bs e =>
      if bs.any fun b => decide (b.req.job = e.req.job) && decide (b.block = e.block) then bs else bs ++ [e]) ([] : List MovedEntry)
    blocks.foldl (moveOwner l x y) (es.foldl (fun s e => storeVirt s e.req e.va (toBytes 8 e.name.toNat)) s)

/-- The members of an open episode that belong to restored units excused (R261). -/
def excuseMembers (s : State) (l : Nat) (y : Launch) : State :=
  let names := (launchSlots y).map (unitName l)
  let excuse := fun (q : Requester) (b : Barrier) =>
    { b with members := (b.members.zip (List.range b.members.length)).map fun p =>
        if ((memberEntry s q b.mtb p.2).map Prod.fst).any names.contains then { p.1 with excused := true } else p.1 }
  { s with
    barriers := s.barriers.map fun b =>
      match mget s.launches b.2.holder with
      | some h => (b.1, excuse (launchReq h) b.2)
      | none => b
    launches := s.launches.map fun h => (h.1, { h.2 with snapshot := h.2.snapshot.map fun r =>
      { r with barriers := r.barriers.map fun b => (b.1, excuse (launchReq h.2) b.2) } }) }

/-- A launch that goes on from its records at its placement; `x` is the placement under which they were made. -/
def resumeFrom (l : Nat) (x y : Launch) (s : State) (rs : List Record) (sers : Map Series) : State :=
  let s1 := putSeries l x y (rs.foldl (putRecord l y) s) sers
  let s2 := setLaunch s1 l { y with st := .running, snapshot := [], savedSer := [], toPool := false, dest := none,
                                    inPlace := none, quiet := 0 }
  moveMembers l x y s2

/-- A launch restored from its records at its placement: the members that it holds are excused (R261). -/
def resumeAt (l : Nat) (x y : Launch) (s : State) (rs : List Record) (sers : Map Series) : State :=
  excuseMembers (resumeFrom l x y s rs sers) l y

/-- The series of a launch, by context. -/
def seriesOfLaunch (s : State) (l : Nat) : Map Series :=
  (s.series.filter fun r => decide (r.1 / 4 = l)).map fun r => (r.1 % 4, r.2)

/-- A record of kind 4 or 5 for a launch resumed in place (R263, R265). -/
def inPlaceRecord (s : State) (l : Nat) (x : Launch) (kind : BitVec 8) : State :=
  let p : Place := { tile := originTile x, ctx := x.base, elem := 24, launch := l, job := x.job }
  if kind = 4#8 then record s p 4 9 8 0 0 0 else record s p 5 0 0 (saveSlot s l x).toNat 0 0

/-- Tile contents and engine operations of a launch taken out of the package, without a change of its counters. -/
def takeOut (s : State) (l : Nat) : State :=
  let s1 := freeSlots s l
  { s1 with engines := s1.engines.filter fun e => decide (e.2.launch ≠ l)
            barriers := s1.barriers.filter fun b => decide (b.2.holder ≠ l) }

/-- The origin to which compaction moves a launch, where it still fits there (R326). -/
def moveTarget (s : State) (l : Nat) (x : Launch) : Option Nat := x.dest.filter fun g => fitsAt s l x g x.base

/-- What becomes of a launch whose snapshot has closed: it goes on in place, moves, returns to the pool, or is suspended
(R263, R265, R326, R327, R405). -/
def afterClose (s : State) (l : Nat) (x : Launch) (rs : List Record) : State :=
  let sers := seriesOfLaunch s l
  let y := { x with snaps := x.snaps + 1 }
  match x.inPlace with
  | some kind => inPlaceRecord (resumeAt l x y (takeOut s l) rs sers) l y kind
  | none =>
    let s1 := takeOut s l
    let kept := { y with snapshot := rs, savedSer := sers, saved := some (x.die, x.page, x.base), inPlace := none, quiet := 0 }
    match moveTarget s l x with
    | some g => setLaunch s1 l { kept with st := .restoring, die := g / 64, page := g % 64 }
    | none =>
      if x.toPool then
        setLaunch s1 l { kept with st := .poolSaved, dest := none, shared := some ((poolEntry s1 (l / 2 ^ 32) x.depth).getD true) }
      else setLaunch s1 l { kept with st := .suspended, dest := none }

/-- The bytes of a save slot: the header, and the records behind it in their order (R402). -/
def snapshotImage (s : State) (l : Nat) (x : Launch) (n : Nat) : List Byte :=
  snapshotHeader s l x n (snapshotBytes s n) ++ (List.range n).flatMap (recordBytes s n)

/-- SNAPSHOT_CLOSE (R400, R401): the header and the records go to the save slot, and the launch's contents into the snapshot.
A fault at the slot abandons the snapshot. -/
def execSnapshotClose (l : Nat) (s : State) : Host.Outcome State Fault Refusal :=
  .next <|
    match mget s.launches l with
    | none => s
    | some x =>
      if !snapshotReady s l then s
      else
        let rs := recordsOf s l x
        let used := snapshotBytes s rs.length
        let va := saveSlot s l x
        match xlateSlot s (launchReq x) va ((used + 4095) / 4096) with
        | .error (c, d, a) =>
          let p : Place := { tile := originTile x, ctx := x.base, elem := 24, launch := l, job := x.job }
          record (resumeFrom l x { x with yielded := false } (takeOut s l) rs (seriesOfLaunch s l)) p 2 c.toNat d.toNat a.toNat 0 0
        | .ok s1 =>
          afterClose (storeVirt { s1 with free := s1.free + 16385 * rs.length } (launchReq x) va
            (snapshotImage s l x rs.length)) l x rs

/-! ## Restore (R403) -/

/-- The image of a restored launch among the resident ones of its die: fetched again where it is not there (R322, R403). -/
def refetch (s : State) (x : Launch) : State :=
  match findImage s x.die x with
  | .ok (_, _, s1) => s1
  | .error _ => s

/-- RESTORE (R403): a placed launch goes on from its snapshot. -/
def execRestore (l : Nat) (s : State) : Host.Outcome State Fault Refusal :=
  .next <|
    match mget s.launches l with
    | none => s
    | some y =>
      if y.st ≠ .restoring then s
      else
        let x := match y.saved with
          | some (d, p, b) => { y with die := d, page := p, base := b }
          | none => y
        resumeAt l x y (refetch s y) y.snapshot y.savedSer

end Sys2Proof.Machine
end

