-- ==== Sys2Proof/Machine/Agenda.lean ====
section
/-!
DEFINITION. Who moves when (log entry 1): the actions of a cycle in the order in which the step takes them, what stands
before a C-word or an element's operation as its turn comes, and the end of a cycle.

A cycle's agenda is a plan. An action whose agent can do nothing when its turn comes leaves the state as it is, so the plan
may name more than can happen.
-/

namespace Sys2Proof.Machine

open Sys2Proof

/-! ## Issue (R46 to R49, R100) -/

/-- Whether a unit stands parked: the bank, the barrier or the queue completes its C-word (R97, R274, R310). -/
def parkedUnit (s : State) (u : Nat) : Bool :=
  (s.twaiters.any fun w => !w.elem && decide (w.who = u)) || (s.qwaiters.any fun w => !w.taken && decide (w.unit = u)) ||
  s.barriers.any fun b => b.2.waiters.any fun w => decide (w.unit = u)

/-- Whether a unit whose launch is being saved has a C-word that must still complete: a dequeue that has its element (R339), or
a CANCEL that awaits the end of others (R347). -/
def mustFinish (s : State) (u : Nat) : Bool := (takenBy s u).isSome || (unitAt s u).awaits.isSome

/-- Whether a unit may issue or try its C-word again: ready; held; or waiting for something that is not completed elsewhere. -/
def mayIssue (s : State) (u : Nat) : Bool :=
  let x := unitAt s u
  (!unitSaving s u || mustFinish s u) &&
  match x.st with
  | .ready => true
  | .running => true
  | .waiting => !parkedUnit s u && !(x.wait.any fun w => decide (w.kind = .sleep))
  | _ => false

/-- Whether a YIELD lets its context issue again: every other ready context of the tile has issued since, or 4 cycles are
over (R100). -/
def yieldOver (s : State) (u : Nat) : Bool :=
  match (unitAt s u).yielded with
  | none => true
  | some c =>
    decide (c + 4 ≤ s.tb) ||
      [0, 1, 2, 3].all fun k =>
        let v := 4 * tileOf u + k
        decide (v = u) || decide ((unitAt s v).st ≠ .ready) || decide (c < (unitAt s v).issued)

/-- The context of a tile that issues in this cycle: the first ready one behind the one that issued last (R48).
DEDUCED (log entry 96). -/
def pickUnit (s : State) (t : Nat) : Option Nat :=
  let last := (mget s.lastIssue t).getD 3
  ([1, 2, 3, 4].map fun k => 4 * t + (last + k) % 4).find? fun u =>
    decide ((unitAt s u).st = .ready) && mayIssue s u && yieldOver s u

/-- The state in which a unit's C-word runs: a ready unit takes the tile's issue slot. -/
def beginIssue (s : State) (u : Nat) : State :=
  let x := unitAt s u
  if x.st = .ready then
    { s with
      cur := u
      lastIssue := mset s.lastIssue (tileOf u) (ctxOf u)
      units := mset s.units u { x with yielded := none, issued := s.tb } }
  else { s with cur := u }

/-- The tiles that hold units. -/
def unitTiles (s : State) : List Nat := (s.units.map fun x => x.1 / 4).eraseDups

/-- The issues of a cycle: one ready context of each tile, then every C-word that is tried again, those that wait last. -/
def issues (s : State) : List Action :=
  let again := fun (st : UnitState) => (s.units.filter fun x => decide (x.2.st = st) && mayIssue s x.1).map fun x => Action.issue x.1
  (unitTiles s).filterMap (fun t => (pickUnit s t).map .issue) ++ again .running ++ again .waiting

/-- What happens to units between their C-words. -/
def unitEvents (s : State) : List Event :=
  s.units.flatMap fun x =>
    (if x.2.pend.isEmpty then [] else [.boundaryTrap x.1]) ++
    (if wakes s x.1 then [.sleepuWake x.1] else []) ++
    ((List.range 8).filter fun n => (x.2.watches.toList.getD n none).isSome).map (fun n => .watchFire x.1 n) ++
    (if x.2.st = .draining then [.unitRetire x.1] else [])

/-- The timeouts of a cycle: they come behind the C-words that are tried again, so a condition that holds in the same cycle
wins (R49). -/
def timeouts (s : State) : List Event := (s.units.filter fun x => timedOut x.2).map fun x => .waitTimeout x.1

/-! ## Elements and routes (R229, R251) -/

/-- Whether an element has something to do, at its ports or with its commands. -/
def elemReady (s0 : State) (u e : Nat) : Bool :=
  let s := asElem s0 u e
  canAct s u e && (decide (elemAct (withCommands s) ≠ .idle) || decide (withCommands s ≠ s))

/-- The configured elements that have something to do. -/
def readyElems (s : State) : List (Nat × Nat) :=
  (s.banks.flatMap fun b => b.2.words.ewords.filterMap fun p => if p.2 = 0#32 then none else some (b.1, p.1)).filter fun p =>
    elemReady s p.1 p.2

/-- The place of a slot's context in the rotation of an element's context counter (R251, R286). -/
def turnOf (s : State) (u e : Nat) : Nat := (ctxOf u + 3 - (mget s.lastFired (32 * tileOf u + e)).getD 3) % 4

/-- The turns of a cycle: the elements with something to do, each in the order of its contexts' rotation (R251). Of an
element's contexts, one fires at most; one that cannot is skipped. -/
def fires (s : State) : List Action :=
  let rs := readyElems s
  [0, 1, 2, 3].flatMap fun k => (rs.filter fun p => decide (turnOf s p.1 p.2 = k)).map fun p => .fire p.1 p.2

/-- Whether an act is a firing, an EOS step or a round step, for which the contexts of an element take turns (R251). -/
def isFiring : Act → Bool
  | .fire => true
  | .eos _ => true
  | .round _ => true
  | _ => false

/-- What the turn of an element brings: its next act, but for a takeover. -/
def dueAct (s : State) (u e : Nat) : Act := if takeoverDue s u e then .idle else elemAct (withCommands (asElem s u e))

/-- Whether an element of a tile is held for the other contexts: the tokens of another's firing still leave, or it has fired in
this cycle (R251). -/
def elementHeld (s : State) (u e : Nat) : Bool :=
  s.fired.contains (32 * tileOf u + e) ||
    [0, 1, 2, 3].any fun k => decide (k ≠ ctxOf u) &&
      (elemAt s (4 * tileOf u + k) e).out.any fun t => decide (t.ty ≠ tyMrk) && decide (t.ty ≠ tyCfg)

/-- Whether a turn has fired: the element or what stands at its inputs has changed, and it does not wait at a bank (R210,
R251). -/
def hasFired (s t : State) (u e : Nat) : Bool :=
  let s0 := withCommands (asElem s u e)
  let fs := (inputsOf (ewordAt s u e)).eraseDups.map fun k => fifoNo u e k
  !(elemAt t u e).parked && (decide (elemAt t u e ≠ elemAt s0 u e) || fs.any fun f => decide (fifoAt t f ≠ fifoAt s0 f))

/-- The context counter of an element moved on where its turn has fired (R251, R286). -/
def afterFire (s : State) (u e : Nat) (t : State) : State :=
  if isFiring (dueAct s u e) && hasFired s t u e then
    { t with lastFired := mset t.lastFired (32 * tileOf u + e) (ctxOf u), fired := ninsert t.fired (32 * tileOf u + e) }
  else t

/-- What an element does besides the firings of its operation, where it is due (R112, R164, R254, R399). -/
def boundaryStep (s : State) (u e : Nat) : Option Event :=
  if takeoverDue s u e then some (.pendingTakeover u e)
  else
    match elemAct (withCommands (asElem s u e)) with
    | .eos _ => some (.eosStep u e)
    | .round _ => some (.roundStep u e)
    | .save => some (.elementSave u e)
    | _ => none

/-- The routes of a cycle: each may move one token. -/
def routes (s : State) : List Action :=
  s.banks.flatMap fun b => (List.range b.2.words.swords.length).map fun k => .route b.1 k

/-- The S-word of a route. -/
def swordAt (s : State) (u k : Nat) : Option (BitVec 16) := (bankAt s u).words.swords[k]?

/-- Credit, kills and saved tokens on the channels. -/
def channelEvents (s : State) : List Event :=
  (s.fifos.flatMap fun f =>
    (if f.2.owed = 0 then [] else [.creditReturn f.1]) ++ (if f.2.inject.isEmpty then [] else [.savedTokenInject f.1])) ++
  List.replicate s.kills.length .kill

/-- The elements and routes that have a pending word to take over. -/
def takeovers (s : State) : List Event :=
  s.banks.flatMap fun b =>
    if b.2.pending.isNone then []
    else b.2.oldElems.map (fun e => .pendingTakeover b.1 e) ++ b.2.oldOuts.map fun o => .pendingTakeover b.1 (32 + o)

/-- The commits of a cycle. -/
def commits (s : State) : List Event :=
  (s.series.filter fun x => x.2.isOpen).map fun x => .roundCommit (x.1 / 4) (x.1 % 4)

/-! ## Events -/

/-- What an event does. -/
def runEvent (e : Event) (s : State) : Host.Outcome State Fault Refusal :=
  match e with
  | .boundaryTrap u => execBoundaryTrap u s
  | .waitTimeout u => execWaitTimeout u s
  | .scrub t => execScrub t s
  | .sleepuWake u => execSleepuWake u s
  | .watchFire u n => execWatchFire u n s
  | .copyComplete f => execCopyComplete f s
  | .sendrMerge f => execSendrMerge f s
  | .pendingTakeover u x => execPendingTakeover u x s
  | .segmentLoad l => execSegmentLoad l s
  | .launchStart l => execLaunchStart l s
  | .unitRetire u => execUnitRetire u s
  | .eosStep u e => execEosStep u e s
  | .roundStep u e => execRoundStep u e s
  | .roundCommit l k => execRoundCommit l k s
  | .kill => execKill s
  | .creditReturn f => execCreditReturn f s
  | .faultRecordWrite pg => execFaultRecordWrite pg s
  | .oredMerge f => execOredMerge f s
  | .redEvent f => execRedEvent f s
  | .gatherStep f => execGatherStep f s
  | .attestReport f => execAttestReport f s
  | .pageWalk t job va kind => execPageWalk t job va kind s
  | .launchComplete l => execLaunchComplete l s
  | .phaseComplete job ctr => execPhaseComplete job ctr s
  | .loaderDescriptor ep => execLoaderDescriptor ep s
  | .poolPlace d => execPoolPlace d s
  | .compact l g => execCompact l g s
  | .victimPreempt l => execVictimPreempt l s
  | .parentYield l => execParentYield l s
  | .packetArbitrate a => execPacketArbitrate a s
  | .watchdogSnapshot l => execWatchdogSnapshot l s
  | .watchdogCancel l => execWatchdogCancel l s
  | .rcResume pg => execRcResume pg s
  | .rcCancel pg => execRcCancel pg s
  | .rcSnapshot pg => execRcSnapshot pg s
  | .rcselWrite pg v => execRcselWrite pg v s
  | .rcUnitFrameWrite pg off v => execRcUnitFrameWrite pg off v s
  | .rcEsrWrite pg v => execRcEsrWrite pg v s
  | .rcCvsrWrite pg v => execRcCvsrWrite pg v s
  | .registerWrite dev off v => execRegisterWrite dev off v s
  | .elementSave u e => execElementSave u e s
  | .snapshotClose l => execSnapshotClose l s
  | .restore l => execRestore l s
  | .savedTokenInject f => execSavedTokenInject f s
  | .turnStart k => execTurnStart k s
  | .turnDrained k => execTurnDrained k s
  | .turnComplete k => execTurnComplete k s
  | .ingressSlotWrite ep off size data => execIngressSlotWrite ep off size data s
  | .ingressEosWrite ep size v => execIngressEosWrite ep size v s
  | .hostWindowAccess d off size wr data => execHostWindowAccess d off size wr data s
  | .hostAtomic d off op x c => execHostAtomic d off op x c s
  | .hostBadOffset d off => execHostBadOffset d off s
  | .hwjobWrite d v => execHwjobWrite d v s
  | .hwbaseWrite d v => execHwbaseWrite d v s
  | .mgRelease d => execMgRelease d s
  | .mgPolicy d => execMgPolicy d s
  | .mgFrame d => execMgFrame d s
  | .mgStandby d => execMgStandby d s
  | .mgWake d => execMgWake d s
  | .wakeComplete => execWakeComplete s
  | .mgPair d => execMgPair d s
  | .mgKey d => execMgKey d s
  | .mgLog d => execMgLog d s
  | .mgDebug d code => execMgDebug d code s
  | .thcfgWrite d v => execThcfgWrite d v s
  | .monitorSample d => execMonitorSample d s
  | .thermalStepUp => execThermalStepUp s
  | .packageReset => execPackageReset s
  | .idleGate enter => execIdleGate enter s
  | .uncorrectableError a => execUncorrectableError a s
  | .rccmdUnassigned pg v => execRccmdUnassigned pg v s
  | .mgcmdUnassigned d code => execMgcmdUnassigned d code s

/-! ## Engines, launches, pages and links -/

/-- The step of an engine operation. DEDUCED (log entry 61). -/
def engineStep (f : Nat) (e : Engine) : Event :=
  match e.kind with
  | .copy _ _ _ _ => .copyComplete f
  | .merge _ _ _ _ _ _ _ => .sendrMerge f
  | .red _ _ _ => .redEvent f
  | .ored _ _ _ _ => .oredMerge f
  | .move _ _ _ _ _ _ _ _ _ => .gatherStep f
  | .attest _ _ _ => .attestReport f

/-- The engine operations that are neither complete nor frozen. -/
def engineEvents (s : State) : List Event :=
  (s.engines.filter fun e => !e.2.complete && !e.2.frozen).map fun e => engineStep e.1 e.2

/-- What the die controller does for a launch. -/
def launchEvent (s : State) (l : Nat) (x : Launch) : List Event :=
  match x.st with
  | .loading => [.segmentLoad l]
  | .loaded => [.launchStart l]
  | .running => if launchDone s l then [.launchComplete l] else []
  | .saving => [.snapshotClose l]
  | .restoring => [.restore l]
  | _ => []

/-- The phases whose graphs may be complete. -/
def phaseEvents (s : State) : List Event :=
  (s.graphs.filter fun g => decide (g.phase ≠ 0#64) && !g.live).map fun g => .phaseComplete g.job g.phase

/-- The origin to which compaction moves a launch: the last that R326 allows. -/
def compactTo (s : State) (l : Nat) (x : Launch) : Option Nat := (List.range 256).reverse.find? (canMove s l x)

/-- What the allocators do: entries placed and, where one is blocked, page sets moved and launches pre-empted. -/
def allocatorEvents (s : State) : List Event :=
  if s.launches.all fun l => !l.2.inPool then []
  else
    [0, 1, 2, 3].map (fun d => .poolPlace d) ++
    if (blockedEntries s).isEmpty || allocatorBusy s then []
    else
      (s.launches.flatMap fun l => ((compactTo s l.1 l.2).map fun g => .compact l.1 g).toList) ++
      (victimOf s).toList.map (fun l => .victimPreempt l) ++
      (s.launches.filter fun l => mayYield s l.1).map fun l => .parentYield l.1

/-- The region controllers that have records to write. -/
def recordEvents (s : State) : List Event :=
  (s.pages.filter fun p => !p.2.records.isEmpty || p.2.qwait).map fun p => .faultRecordWrite p.1

/-- The endpoints whose loader has a token to take. -/
def loaderEvents (s : State) : List Event :=
  ((List.range 32).filter fun e => !(endpointAt s e).ingress.isEmpty && !(endpointAt s e).isOpen).map .loaderDescriptor

/-- The arbiters that hold packets. -/
def arbiterEvents (s : State) : List Event :=
  (s.arbiters.filter fun a => !a.2.packets.isEmpty).map fun a => .packetArbitrate a.1

/-- The links that have turns queued. -/
def turnEvents (s : State) : List Event :=
  ((List.range 4).filter fun k => !(linkAt s k).queue.isEmpty).flatMap fun k => [.turnComplete k, .turnDrained k, .turnStart k]

/-- The scrub's visits to tiles with a single-bit error; its other visits change nothing (R170). -/
def scrubEvents (s : State) : List Event :=
  if s.tb % 32 = 0 then ((s.mem.single.map spadTile).eraseDups).map .scrub else []

/-- The samples of the monitors, every 65,536 cycles, and the steps up (R378, R418). DEDUCED (log entry 94). -/
def clockEvents (s : State) : List Event :=
  (if s.tb % 65536 = 0 ∧ s.tb ≠ 0 then [0, 1, 2, 3].map .monitorSample else []) ++
  (if s.steps = 0 then [] else [.thermalStepUp])

/-- A cycle's actions while the package runs. What engines do comes before what units do, so that data that arrives in a cycle
meets a promise of that cycle (R49, R101). -/
def runPlan (s : State) : List Action :=
  (channelEvents s ++ arbiterEvents s).map .event ++ routes s ++ (takeovers s).map .event ++ fires s ++
  (engineEvents s ++ commits s ++ unitEvents s).map .event ++ issues s ++ (timeouts s).map .event ++
  ((s.launches.flatMap fun l => launchEvent s l.1 l.2) ++ phaseEvents s ++ recordEvents s ++
    loaderEvents s ++ allocatorEvents s ++ turnEvents s ++ scrubEvents s ++ clockEvents s).map .event

/-- A cycle's actions: while the clock stands, the wake alone (R416). -/
def plan (s : State) : List Action :=
  match s.power with
  | .p2 => [.cycle]
  | .waking _ => [.event .wakeComplete, .cycle]
  | _ => runPlan s ++ [.watchdogs, .cycle]

/-! ## The end of a cycle -/

/-- A waiting unit's count; a sleep does not count (R49, R101). -/
def countWait (x : UnitRegs) : UnitRegs :=
  if x.st = .waiting then
    { x with wait := x.wait.map fun w => if w.kind = .sleep then w else { w with count := w.count + 1 } }
  else x

/-- Whether the watchdog counts a cycle of a launch: a unit of it is ready or running, and no token has moved on its
channels (R265). -/
def quietNow (s : State) (l : Nat) : Bool :=
  let slots := heldSlots s l
  (slots.any fun u => decide ((unitAt s u).st = .ready) || decide ((unitAt s u).st = .running)) &&
  slots.all fun u => !s.movers.contains u

/-- The watchdogs' counts (R265). -/
def countQuiet (s : State) : State :=
  { s with launches := s.launches.map fun l => (l.1, { l.2 with quiet := if quietNow s l.1 then l.2.quiet + 1 else 0 }) }

/-- The launches whose watchdog fires as this cycle is counted. -/
def watchdogEvents (s : State) : List Event :=
  (s.launches.filter fun l => decide (watchdogLimit ≤ l.2.quiet)).map fun l =>
    if (policyOf s l.2.job).wdc then .watchdogCancel l.1 else .watchdogSnapshot l.1

/-- The cycle counted by the watchdogs; those that fire do so in this cycle (R265). -/
def runWatchdogs (s : State) : State :=
  let s1 := countQuiet s
  { s1 with agenda := (watchdogEvents s1).map .event ++ s1.agenda }

/-- The breaches and late packets of the cycle added to SCOPEBR and LATECNT (R86). -/
def countBreaches (x : UnitRegs) : UnitRegs :=
  { x with
    csr := { x.csr with scopebr := Nat.repeat sat32 x.newBr x.csr.scopebr, latecnt := Nat.repeat sat32 x.newLate x.csr.latecnt }
    newBr := 0
    newLate := 0 }

/-- PEND of the counters of the launches for which it has changed (R317). DEDUCED (log entry 24). -/
def updatePend (s : State) : State :=
  s.launches.foldl (fun s l =>
    let n := pendOf s fun k _ => decide (k = l.1)
    if n = l.2.pend then s
    else
      match mget s.launches l.1 with
      | some x => refreshPend (setLaunch s l.1 { x with pend := n }) l.1
      | none => s) s

/-- The end of a cycle: parked operations that something has held back are tried again, and the timebase and every count of
cycles grow by one; while the clock stands, only the reference clock counts (R3, R416). DESIGN CHOICE (log entry 4). -/
def tick (s : State) : State :=
  match s.power with
  | .p2 => s
  | .waking n => { s with power := .waking (n - 1) }
  | _ =>
    let s1 := updatePend (serveDue (serveTags s))
    { s1 with tb := s1.tb + 1, movers := [], fired := [], units := s1.units.map fun x => (x.1, countBreaches (countWait x.2)) }

end Sys2Proof.Machine
end

