-- ==== Sys2Proof/Machine/Compare.lean ====
section
/-!
DEFINITION. Compares, predicate operations and selection (R64 to R67).
-/

namespace Sys2Proof.Machine

open Sys2Proof

/-- A C-word that writes to predicate d a relation of the values in a and b (R64). -/
def compare (i : Instr) (d a b : BitVec 7) (f : Word → Word → Bool) (s : State) : Host.Outcome State Fault Refusal :=
  regWord i s fun x => writePred x d (f (readVal x a) (readVal x b))

/-- A C-word that writes to predicate d a relation of the value in a and an immediate (R65). -/
def compareImm (i : Instr) (d a : BitVec 7) (imm : BitVec 12) (f : Word → Word → Bool) (s : State) : Host.Outcome State Fault Refusal :=
  regWord i s fun x => writePred x d (f (readVal x a) (imm.signExtend 64))

/-- A C-word that writes to predicate d a function of predicates a and b (R66). -/
def predOp (i : Instr) (d a b : BitVec 7) (f : Bool → Bool → Bool) (s : State) : Host.Outcome State Fault Refusal :=
  regWord i s fun x => writePred x d (f (readPred x a) (readPred x b))

/-- CMPEQ (R64). -/
def execCmpeq (d a b : BitVec 7) (s : State) : Host.Outcome State Fault Refusal := compare (.cmpeq d a b) d a b (fun a b => decide (a = b)) s

/-- CMPNE (R64). -/
def execCmpne (d a b : BitVec 7) (s : State) : Host.Outcome State Fault Refusal := compare (.cmpne d a b) d a b (fun a b => decide (a ≠ b)) s

/-- CMPLT (R64). -/
def execCmplt (d a b : BitVec 7) (s : State) : Host.Outcome State Fault Refusal := compare (.cmplt d a b) d a b (fun a b => a.slt b) s

/-- CMPLE (R64). -/
def execCmple (d a b : BitVec 7) (s : State) : Host.Outcome State Fault Refusal := compare (.cmple d a b) d a b (fun a b => a.sle b) s

/-- CMPLTN (R64). -/
def execCmpltn (d a b : BitVec 7) (s : State) : Host.Outcome State Fault Refusal := compare (.cmpltn d a b) d a b (fun a b => a.ult b) s

/-- CMPLEN (R64). -/
def execCmplen (d a b : BitVec 7) (s : State) : Host.Outcome State Fault Refusal := compare (.cmplen d a b) d a b (fun a b => a.ule b) s

/-- CMPTST (R64). -/
def execCmptst (d a b : BitVec 7) (s : State) : Host.Outcome State Fault Refusal := compare (.cmptst d a b) d a b (fun a b => decide (a &&& b ≠ 0#64)) s

/-- CMPEQI (R65). -/
def execCmpeqi (d a : BitVec 7) (imm : BitVec 12) (s : State) : Host.Outcome State Fault Refusal :=
  compareImm (.cmpeqi d a imm) d a imm (fun a b => decide (a = b)) s

/-- CMPLTI (R65). -/
def execCmplti (d a : BitVec 7) (imm : BitVec 12) (s : State) : Host.Outcome State Fault Refusal :=
  compareImm (.cmplti d a imm) d a imm (fun a b => a.slt b) s

/-- CMPLTNI (R65). -/
def execCmpltni (d a : BitVec 7) (imm : BitVec 12) (s : State) : Host.Outcome State Fault Refusal :=
  compareImm (.cmpltni d a imm) d a imm (fun a b => a.ult b) s

/-- PAND (R66). -/
def execPand (d a b : BitVec 7) (s : State) : Host.Outcome State Fault Refusal := predOp (.pand d a b) d a b (fun a b => a && b) s

/-- POR (R66). -/
def execPor (d a b : BitVec 7) (s : State) : Host.Outcome State Fault Refusal := predOp (.por d a b) d a b (fun a b => a || b) s

/-- PXOR (R66). -/
def execPxor (d a b : BitVec 7) (s : State) : Host.Outcome State Fault Refusal := predOp (.pxor d a b) d a b (fun a b => xor a b) s

/-- PANDN (R66). -/
def execPandn (d a b : BitVec 7) (s : State) : Host.Outcome State Fault Refusal := predOp (.pandn d a b) d a b (fun a b => a && !b) s

/-- PNOT (R66). -/
def execPnot (d a : BitVec 7) (s : State) : Host.Outcome State Fault Refusal :=
  regWord (.pnot d a) s fun x => writePred x d (!readPred x a)

/-- PMOV (R66). -/
def execPmov (d a : BitVec 7) (s : State) : Host.Outcome State Fault Refusal := regWord (.pmov d a) s fun x => writePred x d (readPred x a)

/-- PSET (R66). -/
def execPset (d a : BitVec 7) (s : State) : Host.Outcome State Fault Refusal :=
  regWord (.pset d a) s fun x => writePred x d (decide (readVal x a ≠ 0#64))

/-- SEL (R67). -/
def execSel (d a b : BitVec 7) (p : BitVec 3) (s : State) : Host.Outcome State Fault Refusal :=
  regWord (.sel d a b p) s fun x => writeVal x d (if predNum x p then readVal x a else readVal x b)

end Sys2Proof.Machine
end

