-- ==== Sys2Proof/Machine/Context.lean ====
section
/-!
DEFINITION. Exchange words and the rounds as a thread sees them (R278 to R282): major 0x2F.
-/

namespace Sys2Proof.Machine

open Sys2Proof

/-! ## Exchange words (R278, R279) -/

/-- The slot of a context of the issuer's launch, counted as CTXID counts; none where the launch does not hold it. A unit
without a launch has its own context alone. DEDUCED (log entry 31). -/
def exchangeSlot (s : State) (u c : Nat) : Option Nat :=
  match launchOf s u with
  | some l => if c < l.nctx then some (4 * tileOf u + l.base + c) else none
  | none => if c = imageCtx s u then some u else none

/-- Exchange word n of a context (R279). -/
def exchangeWord (s : State) (u c : Nat) (n : BitVec 3) : Word :=
  match exchangeSlot s u c with
  | some v => (bankAt s v).x[n.toNat]'n.isLt
  | none => 0#64

/-- A read of exchange word n of a context by the issuing unit: an acquire, past the time of the word's last CTXDEF (R279). -/
def acquireWord (s : State) (c : Nat) (n : BitVec 3) : State :=
  match exchangeSlot s s.cur c with
  | some v => modMe s fun x => { x with pts := max x.pts ((bankAt s v).xpts[n.toNat]'n.isLt) }
  | none => s

/-- CTXDEF (R278): a release, which keeps the issuer's time with the word (R279). -/
def execCtxdef (a : BitVec 7) (n : BitVec 6) (s : State) : Host.Outcome State Fault Refusal :=
  cword (.ctxdef a n) s fun s => do
    let v := readVal (me s) a
    let k : BitVec 3 := n.setWidth 3
    let s1 ← joinAll s
    let b := bankAt s1 s1.cur
    .ok (setBank s1 s1.cur { b with x := b.x.set k.toNat v k.isLt, xpts := b.xpts.set k.toNat (me s1).pts k.isLt })

/-- CTXRD (R278). -/
def execCtxrd (a b : BitVec 7) (n : BitVec 6) (s : State) : Host.Outcome State Fault Refusal :=
  cword (.ctxrd a b n) s fun s =>
    let c := (readVal (me s) b).toNat % 4
    .ok (modMe (acquireWord s c (n.setWidth 3)) fun x => writeVal x a (exchangeWord s s.cur c (n.setWidth 3)))

/-- CTXWT (R278, R279). -/
def execCtxwt (a b : BitVec 7) (n : BitVec 6) (s : State) : Host.Outcome State Fault Refusal :=
  cword (.ctxwt a b n) s fun s =>
    let x := me s
    let c := (readVal x b).toNat % 4
    if (readVal x a).toNat ≤ (exchangeWord s s.cur c (n.setWidth 3)).toNat then .ok (acquireWord s c (n.setWidth 3))
    else .error (.wait s { kind := .exchange, value := BitVec.ofNat 64 (8 * c + n.toNat), count := waitCount x })

/-! ## Rounds (R280 to R282) -/

/-- RCLOSE 0 (R281): `aux` of its wait is the round behind the last that it awaits. It is an acquire of the committed
stores. -/
def closeWait (s : State) : Except Stop State :=
  let key := seriesOf s s.cur
  let x := seriesAt s key
  let acquire := fun (waited : Bool) => modMe s fun y => writeP7 { y with pts := max y.pts x.pts } waited
  let wait := fun (last : Nat) => (Stop.wait s
    { kind := .roundClose, value := BitVec.ofNat 64 x.next, aux := last, count := waitCount (me s) })
  match (me s).wait with
  | some w => if w.aux ≤ x.next then .ok (acquire true) else .error (wait w.aux)
  | none =>
    match (openRounds s key).getLast? with
    | none => .ok (acquire false)
    | some n => .error (wait (n + 1))

/-- RCLOSE (R281): 0 waits for the open rounds, 1 voids them. -/
def execRclose (v : BitVec 6) (s : State) : Host.Outcome State Fault Refusal :=
  cword (.rclose v) s fun s =>
    if v = 0#6 then closeWait s
    else
      let key := seriesOf s s.cur
      if (openRounds s key).isEmpty then .ok (putStatus s false) else .ok (putStatus (voidRounds s key false) true)

/-- The round status of a series (R282). -/
def roundStatus (s : State) (key : Nat) : Word :=
  let x := seriesAt s key
  let os := openRounds s key
  let pin := os.any fun n => (x.round n).pinned
  BitVec.ofNat 64 (min x.voids 65535 * 2 ^ 40 + (if pin then 2 ^ 34 else 0) + min os.length 2 * 2 ^ 32 + x.lastc.toNat)

/-- RQRY (R282). -/
def execRqry (a : BitVec 7) (s : State) : Host.Outcome State Fault Refusal :=
  cword (.rqry a) s fun s => .ok (modMe s fun x => writeVal x a (roundStatus s (seriesOf s s.cur)))

end Sys2Proof.Machine
end

