-- ==== Sys2Proof/Machine/Control.lean ====
section
/-!
DEFINITION. Control transfer (R68 to R73).
-/

namespace Sys2Proof.Machine

open Sys2Proof

/-- A C-word that goes to A + 4 × off where its condition holds, and to the next word otherwise (R68). -/
def branch {n : Nat} (i : Instr) (off : BitVec n) (taken : UnitRegs → Bool) (s : State) : Host.Outcome State Fault Refusal :=
  cflow i s fun s => .ok (s, if taken (me s) then addrPlus (me s).pc off else (me s).pc + 4#64)

/-- B (R69). -/
def execB (off : BitVec 22) (s : State) : Host.Outcome State Fault Refusal := branch (.b off) off (fun _ => true) s

/-- BP (R69). -/
def execBp (p : BitVec 3) (off : BitVec 22) (s : State) : Host.Outcome State Fault Refusal := branch (.bp p off) off (fun x => predNum x p) s

/-- BNP (R69). -/
def execBnp (p : BitVec 3) (off : BitVec 22) (s : State) : Host.Outcome State Fault Refusal := branch (.bnp p off) off (fun x => !predNum x p) s

/-- BZ (R70); n inverts the test (R17). -/
def execBz (a : BitVec 7) (n : BitVec 1) (off : BitVec 18) (s : State) : Host.Outcome State Fault Refusal :=
  branch (.bz a n off) off (fun x => xor (decide (readVal x a = 0#64)) (n == 1#1)) s

/-- BNZ (R70); n inverts the test (R17). -/
def execBnz (a : BitVec 7) (n : BitVec 1) (off : BitVec 18) (s : State) : Host.Outcome State Fault Refusal :=
  branch (.bnz a n off) off (fun x => xor (decide (readVal x a ≠ 0#64)) (n == 1#1)) s

/-- LOOP (R71). -/
def execLoop (d : BitVec 7) (imm : BitVec 19) (s : State) : Host.Outcome State Fault Refusal :=
  cflow (.loop d imm) s fun s =>
    let x := me s
    let n := readVal x d - 1#64
    .ok (setMe s (writeVal x d n), if n ≠ 0#64 then addrPlus x.pc imm else x.pc + 4#64)

/-- The specifier of g62, the link register (R41). -/
def linkReg : BitVec 7 := 0x3E#7

/-- CALL (R72). -/
def execCall (off : BitVec 22) (s : State) : Host.Outcome State Fault Refusal :=
  cflow (.call off) s fun s =>
    let x := me s
    .ok (setMe s (writeVal x linkReg (x.pc + 4#64)), addrPlus x.pc off)

/-- A jump target: its low two bits are zero, or cause 0x04 with DETAIL 4 (R73). -/
def target (t : Word) : Except Stop Word := if t.toNat % 4 = 0 then .ok t else .error (.trap 4#8 4#8 t)

/-- JR (R73). -/
def execJr (a : BitVec 7) (s : State) : Host.Outcome State Fault Refusal :=
  cflow (.jr a) s fun s => do
    let t ← target (readVal (me s) a)
    .ok (s, t)

/-- JALR (R73): a is read before d is written. -/
def execJalr (d a : BitVec 7) (s : State) : Host.Outcome State Fault Refusal :=
  cflow (.jalr d a) s fun s => do
    let x := me s
    let t ← target (readVal x a)
    .ok (setMe s (writeVal x d (x.pc + 4#64)), t)

/-- RET (R73). -/
def execRet (s : State) : Host.Outcome State Fault Refusal :=
  cflow .ret s fun s => do
    let t ← target (readVal (me s) linkReg)
    .ok (s, t)

end Sys2Proof.Machine
end

