-- ==== Sys2Proof/Machine/Csr.lean ====
section
/-!
DEFINITION. CSR instructions (R83 to R86), TRAP, BREAK and ERET (R87, R88).
-/

namespace Sys2Proof.Machine

open Sys2Proof

/-- CSRW, CSRS and CSRC (R84), after the privilege check: an unassigned or RO number and a refused value raise cause
0x02; d receives the old value. -/
def csrWrite (i : Instr) (d a : BitVec 7) (c : BitVec 12) (f : Word → Word → Word) (s : State) : Host.Outcome State Fault Refusal :=
  cword i s fun s =>
    let x := me s
    let old := readCsr x c
    let v := f old (readVal x a)
    if csrClass c = .unassigned ∨ csrClass c = .readOnly then .error (badOperand i)
    else if csrRefused c v then .error (badOperand i)
    else .ok (setMe s (writeVal (writeCsr x c v) d old))

/-- CSRR (R84). -/
def execCsrr (d : BitVec 7) (c : BitVec 12) (s : State) : Host.Outcome State Fault Refusal :=
  cword (.csrr d c) s fun s =>
    if csrClass c = .unassigned then .error (badOperand (.csrr d c))
    else .ok (modMe s fun x => writeVal x d (readCsr x c))

/-- CSRW (R84). -/
def execCsrw (d a : BitVec 7) (c : BitVec 12) (s : State) : Host.Outcome State Fault Refusal := csrWrite (.csrw d a c) d a c (fun _ v => v) s

/-- CSRS (R84). -/
def execCsrs (d a : BitVec 7) (c : BitVec 12) (s : State) : Host.Outcome State Fault Refusal := csrWrite (.csrs d a c) d a c (fun o v => o ||| v) s

/-- CSRC (R84). -/
def execCsrc (d a : BitVec 7) (c : BitVec 12) (s : State) : Host.Outcome State Fault Refusal :=
  csrWrite (.csrc d a c) d a c (fun o v => o &&& ~~~v) s

/-- TRAP (R87): cause 0x14. -/
def execTrap (imm : BitVec 6) (s : State) : Host.Outcome State Fault Refusal :=
  cword (.trap imm) s fun _ => .error (.trap 0x14#8 0#8 (imm.setWidth 64))

/-- BREAK (R87): cause 0x16. -/
def execBreakI (imm : BitVec 6) (s : State) : Host.Outcome State Fault Refusal :=
  cword (.breakI imm) s fun _ => .error (.trap 0x16#8 0#8 (imm.setWidth 64))

/-- The unit after ERET, but for PC (R51). -/
def leaveTrap (x : UnitRegs) : UnitRegs :=
  { x with csr := { x.csr with status := statusWith x.csr.status (modePM x) false false } }

/-- ERET (R51, R88). -/
def execEret (s : State) : Host.Outcome State Fault Refusal :=
  cflow .eret s fun s => .ok (modMe s leaveTrap, (me s).csr.trappc)

end Sys2Proof.Machine
end

