-- ==== Sys2Proof/Machine/Gather.lean ====
section
/-!
DEFINITION. Gathers and scatters as they issue (R343): major 0x31. The engine's steps are events.
-/

namespace Sys2Proof.Machine

open Sys2Proof

/-- GATH and SCAT (R343): the checks in their order, then the fork. -/
def moveWord (i : Instr) (gather : Bool) (a b : BitVec 7) (sv w : BitVec 1) (e : BitVec 2) (s : State) :
    Host.Outcome State Fault Refusal :=
  cword i s fun s => do
    let x := me s
    let esz := 2 ^ e.toNat
    let wide := decide (w = 1#1)
    need' (decide ((regK0 x).toNat ≤ 16777215)) (badOperand i)
    checkAligned (readVal x a) esz
    checkAligned (regK2 x) esz
    need' (!gather && decide (sv = 1#1) || decide ((readVal x b).toNat % (if wide then 8 else 4) = 0))
      (.trap 4#8 (if wide then 8#8 else 4#8) (readVal x b))
    checkAligned (regK1 x) 8
    .ok (fork s (.move gather (readVal x a) (readVal x b) (regK2 x) (regK0 x).toNat esz wide (decide (sv = 1#1)) (regK1 x))
      none (readVal x a))

/-- GATH (R343). -/
def execGath (a b : BitVec 7) (z w : BitVec 1) (e : BitVec 2) (s : State) : Host.Outcome State Fault Refusal :=
  moveWord (.gath a b z w e) true a b z w e s

/-- SCAT (R343). -/
def execScat (a b : BitVec 7) (z w : BitVec 1) (e : BitVec 2) (s : State) : Host.Outcome State Fault Refusal :=
  moveWord (.scat a b z w e) false a b z w e s

end Sys2Proof.Machine
end

