-- ==== Sys2Proof/Machine/Preempt.lean ====
section
/-!
DEFINITION. Pre-emption as a thread asks for it (R404 to R406): major 0x34.
-/

namespace Sys2Proof.Machine

open Sys2Proof

/-- A launch named by LAUNCHID and die: its key, where it is live and of the issuer's job, or the issuer is of the system
job (R404). -/
def namedLaunch (s : State) (v : Word) : Option (Nat × Launch) :=
  let key := 2 ^ 32 * field v 33 32 + field v 31 0
  match mget s.launches key with
  | some l => if (me s).csr.jobid = 0#64 ∨ l.job = (me s).csr.jobid.toNat then some (key, l) else none
  | none => none

/-- The name checked: b<63:34> is zero (R404). -/
def checkName (i : Instr) (v : Word) : Except Stop Unit := need' (decide (field v 63 34 = 0)) (badOperand i)

/-- PREEMPT (R405). DEDUCED (log entry 30). -/
def execPreempt (a b : BitVec 7) (s : State) : Host.Outcome State Fault Refusal :=
  cword (.preempt a b) s fun s => do
    let v := readVal (me s) b
    checkName (.preempt a b) v
    match namedLaunch s v with
    | none => .ok (putResult s a 1#64 false)
    | some (key, _) =>
      if key = (me s).launch then .ok (putResult s a 3#64 false)
      else
        let st := saveStatus s key
        .ok (putResult (if st = 0 then beginSave s key false none else s) a (BitVec.ofNat 64 st) (decide (st = 0)))

/-- RESUME (R405). -/
def execResume (a b : BitVec 7) (s : State) : Host.Outcome State Fault Refusal :=
  cword (.resume a b) s fun s => do
    let v := readVal (me s) b
    checkName (.resume a b) v
    match namedLaunch s v with
    | none => .ok (putResult s a 1#64 false)
    | some (key, l) =>
      if l.st ≠ .suspended then .ok (putResult s a 1#64 false)
      else
        match poolEntry s (key / 2 ^ 32) l.depth with
        | none => .ok (putResult s a 2#64 false)
        | some sh => .ok (putResult (setLaunch s key { l with st := .poolSaved, shared := some sh }) a 0#64 true)

/-- The state code of a launch (R406). -/
def LaunchState.code : LaunchState → Nat
  | .pool => 6 | .loading => 1 | .loaded => 1 | .running => 1 | .saving => 2 | .suspended => 3 | .poolSaved => 4
  | .restoring => 5 | .completed => 0

/-- What SNAPQ reads (R406). -/
def snapshotWord (l : Launch) : Nat :=
  let c := l.st.code
  let at_ := if c = 1 ∨ c = 2 ∨ c = 5 then l.die * 64 + l.page * 256 else 0
  c + at_ + min l.snaps (2 ^ 32 - 1) * 2 ^ 32

/-- SNAPQ (R406): a launch found suspended, or in the pool with a snapshot, is acquired. -/
def execSnapq (a b : BitVec 7) (s : State) : Host.Outcome State Fault Refusal :=
  cword (.snapq a b) s fun s => do
    let v := readVal (me s) b
    checkName (.snapq a b) v
    match namedLaunch s v with
    | none => .ok (modMe s fun x => writeVal x a 0#64)
    | some (_, l) =>
      let t := if l.st = .suspended ∨ l.st = .poolSaved then l.savedSer.foldl (fun t r => max t r.2.pts) 0 else 0
      .ok (modMe s fun x => writeVal { x with pts := max x.pts t } a (BitVec.ofNat 64 (snapshotWord l)))

end Sys2Proof.Machine
end

