-- ==== Sys2Proof/Machine/ScalarFloat.lean ====
section
/-!
DEFINITION. Scalar binary64 (R74 to R82).
-/

namespace Sys2Proof.Machine

open Sys2Proof

/-- The completion of a scalar floating-point C-word (R75): flags merged; with an enabled exception a trap of cause 0x12,
and otherwise the destination written. -/
def floating (i : Instr) (s : State) (f : UnitRegs → (UnitRegs → UnitRegs) × BitVec 5) : Host.Outcome State Fault Refusal :=
  cword i s fun s =>
    let x := me s
    let r := f x
    if r.2 &&& statusFPTE x ≠ 0#5 then .error (.floating r.2) else .ok (setMe s (r.1 (mergeFlags x r.2)))

/-- A value result with its exceptions, written to d. -/
def toVal (d : BitVec 7) (r : Nat × BitVec 5) : (UnitRegs → UnitRegs) × BitVec 5 :=
  (fun x => writeVal x d (BitVec.ofNat 64 r.1), r.2)

/-- A predicate result with its exceptions, written to d. -/
def toPred (d : BitVec 7) (r : Bool × BitVec 5) : (UnitRegs → UnitRegs) × BitVec 5 :=
  (fun x => writePred x d r.1, r.2)

/-- FADD (R76). -/
def execFadd (d a b : BitVec 7) (s : State) : Host.Outcome State Fault Refusal :=
  floating (.fadd d a b) s fun x => toVal d (fpAdd binary64 (regFRM x) (readVal x a).toNat (readVal x b).toNat)

/-- FSUB (R76). -/
def execFsub (d a b : BitVec 7) (s : State) : Host.Outcome State Fault Refusal :=
  floating (.fsub d a b) s fun x => toVal d (fpSub binary64 (regFRM x) (readVal x a).toNat (readVal x b).toNat)

/-- FMUL (R76). -/
def execFmul (d a b : BitVec 7) (s : State) : Host.Outcome State Fault Refusal :=
  floating (.fmul d a b) s fun x => toVal d (fpMul binary64 (regFRM x) (readVal x a).toNat (readVal x b).toNat)

/-- FDIV (R76). -/
def execFdiv (d a b : BitVec 7) (s : State) : Host.Outcome State Fault Refusal :=
  floating (.fdiv d a b) s fun x => toVal d (fpDiv binary64 (regFRM x) (readVal x a).toNat (readVal x b).toNat)

/-- FMIN (R77). -/
def execFmin (d a b : BitVec 7) (s : State) : Host.Outcome State Fault Refusal :=
  floating (.fmin d a b) s fun x => toVal d (fpMinMax binary64 false (readVal x a).toNat (readVal x b).toNat)

/-- FMAX (R77). -/
def execFmax (d a b : BitVec 7) (s : State) : Host.Outcome State Fault Refusal :=
  floating (.fmax d a b) s fun x => toVal d (fpMinMax binary64 true (readVal x a).toNat (readVal x b).toNat)

/-- FCMPEQ (R79). -/
def execFcmpeq (d a b : BitVec 7) (s : State) : Host.Outcome State Fault Refusal :=
  floating (.fcmpeq d a b) s fun x => toPred d (fpCmp binary64 .eq (readVal x a).toNat (readVal x b).toNat)

/-- FCMPLT (R79). -/
def execFcmplt (d a b : BitVec 7) (s : State) : Host.Outcome State Fault Refusal :=
  floating (.fcmplt d a b) s fun x => toPred d (fpCmp binary64 .lt (readVal x a).toNat (readVal x b).toNat)

/-- FCMPLE (R79). -/
def execFcmple (d a b : BitVec 7) (s : State) : Host.Outcome State Fault Refusal :=
  floating (.fcmple d a b) s fun x => toPred d (fpCmp binary64 .le (readVal x a).toNat (readVal x b).toNat)

/-- FSQRT (R76). -/
def execFsqrt (d a : BitVec 7) (s : State) : Host.Outcome State Fault Refusal :=
  floating (.fsqrt d a) s fun x => toVal d (fpSqrt binary64 (regFRM x) (readVal x a).toNat)

/-- FABS (R78). -/
def execFabs (d a : BitVec 7) (s : State) : Host.Outcome State Fault Refusal :=
  floating (.fabs d a) s fun x => toVal d (((readVal x a).toNat % 2 ^ 63, 0#5))

/-- FNEG (R78). -/
def execFneg (d a : BitVec 7) (s : State) : Host.Outcome State Fault Refusal :=
  floating (.fneg d a) s fun x => toVal d (((readVal x a ^^^ 0x8000000000000000#64).toNat, 0#5))

/-- FCVTIF (R80). -/
def execFcvtif (d a : BitVec 7) (s : State) : Host.Outcome State Fault Refusal :=
  floating (.fcvtif d a) s fun x => toVal d (intToFp binary64 (regFRM x) (readVal x a).toInt)

/-- FCVTFI (R80). -/
def execFcvtfi (d a : BitVec 7) (s : State) : Host.Outcome State Fault Refusal :=
  floating (.fcvtfi d a) s fun x => toVal d (let r := fpToInt binary64 (regFRM x) (intLo 64 false) (intHi 64 false) (readVal x a).toNat; (intBits 64 r.1, r.2))

/-- FCVTSD (R80). -/
def execFcvtsd (d a : BitVec 7) (s : State) : Host.Outcome State Fault Refusal :=
  floating (.fcvtsd d a) s fun x => toVal d (fpConv binary32 binary64 (regFRM x) false ((readVal x a).toNat % 2 ^ 32))

/-- FCVTDS (R80). -/
def execFcvtds (d a : BitVec 7) (s : State) : Host.Outcome State Fault Refusal :=
  floating (.fcvtds d a) s fun x => toVal d (fpConv binary64 binary32 (regFRM x) false (readVal x a).toNat)

/-- FCLASS (R81). -/
def execFclass (d a : BitVec 7) (s : State) : Host.Outcome State Fault Refusal :=
  floating (.fclass d a) s fun x => toVal d ((fpClass binary64 (readVal x a).toNat, 0#5))

/-- FFMA (R82): d is the third operand, and is written. -/
def execFfma (d a b : BitVec 7) (s : State) : Host.Outcome State Fault Refusal :=
  floating (.ffma d a b) s fun x =>
    toVal d (fpFma binary64 (regFRM x) (readVal x a).toNat (readVal x b).toNat (readVal x d).toNat)

/-- FFMS (R82): d is the third operand, and is written. -/
def execFfms (d a b : BitVec 7) (s : State) : Host.Outcome State Fault Refusal :=
  floating (.ffms d a b) s fun x =>
    toVal d (fpFms binary64 (regFRM x) (readVal x a).toNat (readVal x b).toNat (readVal x d).toNat)

end Sys2Proof.Machine
end

