-- ==== Sys2Proof/Machine/Dispatch.lean ====
section
/-!
DEFINITION. The one match on the instruction: each arm calls that instruction's meaning.
-/

namespace Sys2Proof.Machine

open Sys2Proof

/-- What an instruction or event does (the arms follow the rows of the opcode table). -/
def exec (i : Instr) (s : State) : Host.Outcome State Fault Refusal :=
  match i with
  | .add d a b => Sys2Proof.Machine.execAdd d a b s
  | .sub d a b => Sys2Proof.Machine.execSub d a b s
  | .mul d a b => Sys2Proof.Machine.execMul d a b s
  | .mulh d a b => Sys2Proof.Machine.execMulh d a b s
  | .mulhn d a b => Sys2Proof.Machine.execMulhn d a b s
  | .div d a b => Sys2Proof.Machine.execDiv d a b s
  | .divn d a b => Sys2Proof.Machine.execDivn d a b s
  | .rem d a b => Sys2Proof.Machine.execRem d a b s
  | .remn d a b => Sys2Proof.Machine.execRemn d a b s
  | .and d a b => Sys2Proof.Machine.execAnd d a b s
  | .or d a b => Sys2Proof.Machine.execOr d a b s
  | .xor d a b => Sys2Proof.Machine.execXor d a b s
  | .andn d a b => Sys2Proof.Machine.execAndn d a b s
  | .shl d a b => Sys2Proof.Machine.execShl d a b s
  | .shr d a b => Sys2Proof.Machine.execShr d a b s
  | .sar d a b => Sys2Proof.Machine.execSar d a b s
  | .rotl d a b => Sys2Proof.Machine.execRotl d a b s
  | .min d a b => Sys2Proof.Machine.execMin d a b s
  | .max d a b => Sys2Proof.Machine.execMax d a b s
  | .minn d a b => Sys2Proof.Machine.execMinn d a b s
  | .maxn d a b => Sys2Proof.Machine.execMaxn d a b s
  | .clz d a => Sys2Proof.Machine.execClz d a s
  | .ctz d a => Sys2Proof.Machine.execCtz d a s
  | .popc d a => Sys2Proof.Machine.execPopc d a s
  | .sext d a b => Sys2Proof.Machine.execSext d a b s
  | .zext d a b => Sys2Proof.Machine.execZext d a b s
  | .movx d a => Sys2Proof.Machine.execMovx d a s
  | .addi d a imm => Sys2Proof.Machine.execAddi d a imm s
  | .andi d a imm => Sys2Proof.Machine.execAndi d a imm s
  | .ori d a imm => Sys2Proof.Machine.execOri d a imm s
  | .xori d a imm => Sys2Proof.Machine.execXori d a imm s
  | .shli d a imm => Sys2Proof.Machine.execShli d a imm s
  | .shri d a imm => Sys2Proof.Machine.execShri d a imm s
  | .sari d a imm => Sys2Proof.Machine.execSari d a imm s
  | .muli d a imm => Sys2Proof.Machine.execMuli d a imm s
  | .li d imm => Sys2Proof.Machine.execLi d imm s
  | .lpc d imm => Sys2Proof.Machine.execLpc d imm s
  | .loop d imm => Sys2Proof.Machine.execLoop d imm s
  | .cmpeq d a b => Sys2Proof.Machine.execCmpeq d a b s
  | .cmpne d a b => Sys2Proof.Machine.execCmpne d a b s
  | .cmplt d a b => Sys2Proof.Machine.execCmplt d a b s
  | .cmple d a b => Sys2Proof.Machine.execCmple d a b s
  | .cmpltn d a b => Sys2Proof.Machine.execCmpltn d a b s
  | .cmplen d a b => Sys2Proof.Machine.execCmplen d a b s
  | .cmptst d a b => Sys2Proof.Machine.execCmptst d a b s
  | .cmpeqi d a imm => Sys2Proof.Machine.execCmpeqi d a imm s
  | .cmplti d a imm => Sys2Proof.Machine.execCmplti d a imm s
  | .cmpltni d a imm => Sys2Proof.Machine.execCmpltni d a imm s
  | .pand d a b => Sys2Proof.Machine.execPand d a b s
  | .por d a b => Sys2Proof.Machine.execPor d a b s
  | .pxor d a b => Sys2Proof.Machine.execPxor d a b s
  | .pandn d a b => Sys2Proof.Machine.execPandn d a b s
  | .pnot d a => Sys2Proof.Machine.execPnot d a s
  | .pmov d a => Sys2Proof.Machine.execPmov d a s
  | .pset d a => Sys2Proof.Machine.execPset d a s
  | .sel d a b p => Sys2Proof.Machine.execSel d a b p s
  | .b off => Sys2Proof.Machine.execB off s
  | .bp p off => Sys2Proof.Machine.execBp p off s
  | .bnp p off => Sys2Proof.Machine.execBnp p off s
  | .call off => Sys2Proof.Machine.execCall off s
  | .jr a => Sys2Proof.Machine.execJr a s
  | .jalr d a => Sys2Proof.Machine.execJalr d a s
  | .ret => Sys2Proof.Machine.execRet s
  | .bz a n off => Sys2Proof.Machine.execBz a n off s
  | .bnz a n off => Sys2Proof.Machine.execBnz a n off s
  | .fadd d a b => Sys2Proof.Machine.execFadd d a b s
  | .fsub d a b => Sys2Proof.Machine.execFsub d a b s
  | .fmul d a b => Sys2Proof.Machine.execFmul d a b s
  | .fdiv d a b => Sys2Proof.Machine.execFdiv d a b s
  | .fsqrt d a => Sys2Proof.Machine.execFsqrt d a s
  | .fmin d a b => Sys2Proof.Machine.execFmin d a b s
  | .fmax d a b => Sys2Proof.Machine.execFmax d a b s
  | .fabs d a => Sys2Proof.Machine.execFabs d a s
  | .fneg d a => Sys2Proof.Machine.execFneg d a s
  | .fcmpeq d a b => Sys2Proof.Machine.execFcmpeq d a b s
  | .fcmplt d a b => Sys2Proof.Machine.execFcmplt d a b s
  | .fcmple d a b => Sys2Proof.Machine.execFcmple d a b s
  | .fcvtif d a => Sys2Proof.Machine.execFcvtif d a s
  | .fcvtfi d a => Sys2Proof.Machine.execFcvtfi d a s
  | .fcvtsd d a => Sys2Proof.Machine.execFcvtsd d a s
  | .fcvtds d a => Sys2Proof.Machine.execFcvtds d a s
  | .fclass d a => Sys2Proof.Machine.execFclass d a s
  | .ffma d a b => Sys2Proof.Machine.execFfma d a b s
  | .ffms d a b => Sys2Proof.Machine.execFfms d a b s
  | .ldb t a c off => Sys2Proof.Machine.execLdb t a c off s
  | .ldh t a c off => Sys2Proof.Machine.execLdh t a c off s
  | .ldw t a c off => Sys2Proof.Machine.execLdw t a c off s
  | .ldd t a c off => Sys2Proof.Machine.execLdd t a c off s
  | .ldbz t a c off => Sys2Proof.Machine.execLdbz t a c off s
  | .ldhz t a c off => Sys2Proof.Machine.execLdhz t a c off s
  | .ldwz t a c off => Sys2Proof.Machine.execLdwz t a c off s
  | .lddZ t a c off => Sys2Proof.Machine.execLddZ t a c off s
  | .stb t a c off => Sys2Proof.Machine.execStb t a c off s
  | .sth t a c off => Sys2Proof.Machine.execSth t a c off s
  | .stw t a c off => Sys2Proof.Machine.execStw t a c off s
  | .std t a c off => Sys2Proof.Machine.execStd t a c off s
  | .ldx d a b => Sys2Proof.Machine.execLdx d a b s
  | .stx d a b => Sys2Proof.Machine.execStx d a b s
  | .ldf d a => Sys2Proof.Machine.execLdf d a s
  | .ldfe d a => Sys2Proof.Machine.execLdfe d a s
  | .ste a b => Sys2Proof.Machine.execSte a b s
  | .stf a b => Sys2Proof.Machine.execStf a b s
  | .feset a => Sys2Proof.Machine.execFeset a s
  | .feclr a => Sys2Proof.Machine.execFeclr a s
  | .feq d a => Sys2Proof.Machine.execFeq d a s
  | .ldfeNb d a => Sys2Proof.Machine.execLdfeNb d a s
  | .steNb a b => Sys2Proof.Machine.execSteNb a b s
  | .amoadd d a b => Sys2Proof.Machine.execAmoadd d a b s
  | .amoand d a b => Sys2Proof.Machine.execAmoand d a b s
  | .amoor d a b => Sys2Proof.Machine.execAmoor d a b s
  | .amoxor d a b => Sys2Proof.Machine.execAmoxor d a b s
  | .amomin d a b => Sys2Proof.Machine.execAmomin d a b s
  | .amomax d a b => Sys2Proof.Machine.execAmomax d a b s
  | .amominn d a b => Sys2Proof.Machine.execAmominn d a b s
  | .amomaxn d a b => Sys2Proof.Machine.execAmomaxn d a b s
  | .amoswp d a b => Sys2Proof.Machine.execAmoswp d a b s
  | .amocas d a b => Sys2Proof.Machine.execAmocas d a b s
  | .redadd a b => Sys2Proof.Machine.execRedadd a b s
  | .redand a b => Sys2Proof.Machine.execRedand a b s
  | .redor a b => Sys2Proof.Machine.execRedor a b s
  | .redxor a b => Sys2Proof.Machine.execRedxor a b s
  | .redmin a b => Sys2Proof.Machine.execRedmin a b s
  | .redmax a b => Sys2Proof.Machine.execRedmax a b s
  | .oredFadd c a b => Sys2Proof.Machine.execOredFadd c a b s
  | .oredFadds c a b => Sys2Proof.Machine.execOredFadds c a b s
  | .oredAdd c a b => Sys2Proof.Machine.execOredAdd c a b s
  | .oredFmax c a b => Sys2Proof.Machine.execOredFmax c a b s
  | .oredFmin c a b => Sys2Proof.Machine.execOredFmin c a b s
  | .sleepu a => Sys2Proof.Machine.execSleepu a s
  | .rdtb a => Sys2Proof.Machine.execRdtb a s
  | .yield => Sys2Proof.Machine.execYield s
  | .fjoin => Sys2Proof.Machine.execFjoin s
  | .done => Sys2Proof.Machine.execDone s
  | .strmGo a r e => Sys2Proof.Machine.execStrmGo a r e s
  | .strmArg a r e => Sys2Proof.Machine.execStrmArg a r e s
  | .drain r => Sys2Proof.Machine.execDrain r s
  | .cfgld a => Sys2Proof.Machine.execCfgld a s
  | .cfgq a => Sys2Proof.Machine.execCfgq a s
  | .strmTok a b e => Sys2Proof.Machine.execStrmTok a b e s
  | .send d a b => Sys2Proof.Machine.execSend d a b s
  | .sendr d a b => Sys2Proof.Machine.execSendr d a b s
  | .ctradd a b => Sys2Proof.Machine.execCtradd a b s
  | .ctrwait a b => Sys2Proof.Machine.execCtrwait a b s
  | .ctrrd a b => Sys2Proof.Machine.execCtrrd a b s
  | .ctrwaitNb a b => Sys2Proof.Machine.execCtrwaitNb a b s
  | .ctrwatch a b n => Sys2Proof.Machine.execCtrwatch a b n s
  | .thld h b => Sys2Proof.Machine.execThld h b s
  | .thst h b => Sys2Proof.Machine.execThst h b s
  | .thset h b w => Sys2Proof.Machine.execThset h b w s
  | .thget a h w => Sys2Proof.Machine.execThget a h w s
  | .thchk h => Sys2Proof.Machine.execThchk h s
  | .barinit a b => Sys2Proof.Machine.execBarinit a b s
  | .bararr a b => Sys2Proof.Machine.execBararr a b s
  | .barwait a b => Sys2Proof.Machine.execBarwait a b s
  | .barsync a b => Sys2Proof.Machine.execBarsync a b s
  | .barrd a b z => Sys2Proof.Machine.execBarrd a b z s
  | .barcfg a b => Sys2Proof.Machine.execBarcfg a b s
  | .barleave a => Sys2Proof.Machine.execBarleave a s
  | .ctxdef a n => Sys2Proof.Machine.execCtxdef a n s
  | .ctxrd a b n => Sys2Proof.Machine.execCtxrd a b n s
  | .ctxwt a b n => Sys2Proof.Machine.execCtxwt a b n s
  | .rclose v => Sys2Proof.Machine.execRclose v s
  | .rqry a => Sys2Proof.Machine.execRqry a s
  | .enq a b => Sys2Proof.Machine.execEnq a b s
  | .enqNb a b => Sys2Proof.Machine.execEnqNb a b s
  | .deq a b => Sys2Proof.Machine.execDeq a b s
  | .deqNb a b => Sys2Proof.Machine.execDeqNb a b s
  | .qsteal a b => Sys2Proof.Machine.execQsteal a b s
  | .qinit a b => Sys2Proof.Machine.execQinit a b s
  | .qstat d a => Sys2Proof.Machine.execQstat d a s
  | .qpoison a => Sys2Proof.Machine.execQpoison a s
  | .qdrain d a b => Sys2Proof.Machine.execQdrain d a b s
  | .enqv a b => Sys2Proof.Machine.execEnqv a b s
  | .deqv d a => Sys2Proof.Machine.execDeqv d a s
  | .gath a b z w e => Sys2Proof.Machine.execGath a b z w e s
  | .scat a b z w e => Sys2Proof.Machine.execScat a b z w e s
  | .launch d a => Sys2Proof.Machine.execLaunch d a s
  | .launchW d a => Sys2Proof.Machine.execLaunchW d a s
  | .cancel a b => Sys2Proof.Machine.execCancel a b s
  | .graphnew a b => Sys2Proof.Machine.execGraphnew a b s
  | .jobdl a b => Sys2Proof.Machine.execJobdl a b s
  | .lturn a b l g => Sys2Proof.Machine.execLturn a b l g s
  | .lqry a b z l => Sys2Proof.Machine.execLqry a b z l s
  | .lfloor a b l => Sys2Proof.Machine.execLfloor a b l s
  | .mcst a b m => Sys2Proof.Machine.execMcst a b m s
  | .epbind a e => Sys2Proof.Machine.execEpbind a e s
  | .epunb e => Sys2Proof.Machine.execEpunb e s
  | .preempt a b => Sys2Proof.Machine.execPreempt a b s
  | .resume a b => Sys2Proof.Machine.execResume a b s
  | .snapq a b => Sys2Proof.Machine.execSnapq a b s
  | .tlbinv a b => Sys2Proof.Machine.execTlbinv a b s
  | .tlbinva a m => Sys2Proof.Machine.execTlbinva a m s
  | .wcinv a => Sys2Proof.Machine.execWcinv a s
  | .xlprobe a b => Sys2Proof.Machine.execXlprobe a b s
  | .csrr d c => Sys2Proof.Machine.execCsrr d c s
  | .csrw d a c => Sys2Proof.Machine.execCsrw d a c s
  | .csrs d a c => Sys2Proof.Machine.execCsrs d a c s
  | .csrc d a c => Sys2Proof.Machine.execCsrc d a c s
  | .trap imm => Sys2Proof.Machine.execTrap imm s
  | .eret => Sys2Proof.Machine.execEret s
  | .breakI imm => Sys2Proof.Machine.execBreakI imm s
  | .attest a b => Sys2Proof.Machine.execAttest a b s
  | .freeze a => Sys2Proof.Machine.execFreeze a s
  | .oadd a b p => Sys2Proof.Machine.execOadd a b p s
  | .osub a b p => Sys2Proof.Machine.execOsub a b p s
  | .omul a b p => Sys2Proof.Machine.execOmul a b p s
  | .ofma a b c p => Sys2Proof.Machine.execOfma a b c p s
  | .odiv a b p => Sys2Proof.Machine.execOdiv a b p s
  | .osqrt a p => Sys2Proof.Machine.execOsqrt a p s
  | .orsqrt a p => Sys2Proof.Machine.execOrsqrt a p s
  | .oexp2 a p => Sys2Proof.Machine.execOexp2 a p s
  | .oscl a p => Sys2Proof.Machine.execOscl a p s
  | .oneg a p => Sys2Proof.Machine.execOneg a p s
  | .oabs a p => Sys2Proof.Machine.execOabs a p s
  | .ocmp a b p k => Sys2Proof.Machine.execOcmp a b p k s
  | .omax a b p k => Sys2Proof.Machine.execOmax a b p k s
  | .orelu a p k => Sys2Proof.Machine.execOrelu a p k s
  | .othr a p k => Sys2Proof.Machine.execOthr a p k s
  | .ow2d a p w => Sys2Proof.Machine.execOw2d a p w s
  | .od2w a p r w => Sys2Proof.Machine.execOd2w a p r w s
  | .oacc a p => Sys2Proof.Machine.execOacc a p s
  | .vadd a b f r x => Sys2Proof.Machine.execVadd a b f r x s
  | .vsub a b f r x => Sys2Proof.Machine.execVsub a b f r x s
  | .vmul a b f r x => Sys2Proof.Machine.execVmul a b f r x s
  | .vfma a b c f r x => Sys2Proof.Machine.execVfma a b c f r x s
  | .vdiv a b f r x => Sys2Proof.Machine.execVdiv a b f r x s
  | .vsqrt a f r x => Sys2Proof.Machine.execVsqrt a f r x s
  | .vmin a b f r x => Sys2Proof.Machine.execVmin a b f r x s
  | .vmax a b f r x => Sys2Proof.Machine.execVmax a b f r x s
  | .vabs a f r x => Sys2Proof.Machine.execVabs a f r x s
  | .vneg a f r x => Sys2Proof.Machine.execVneg a f r x s
  | .vcmp a b f r x => Sys2Proof.Machine.execVcmp a b f r x s
  | .vsel a b c f r x => Sys2Proof.Machine.execVsel a b c f r x s
  | .vcvt a f r x => Sys2Proof.Machine.execVcvt a f r x s
  | .vred a f r x => Sys2Proof.Machine.execVred a f r x s
  | .vand a b f r x => Sys2Proof.Machine.execVand a b f r x s
  | .vor a b f r x => Sys2Proof.Machine.execVor a b f r x s
  | .vxor a b f r x => Sys2Proof.Machine.execVxor a b f r x s
  | .vshl a b f r x => Sys2Proof.Machine.execVshl a b f r x s
  | .vshr a b f r x => Sys2Proof.Machine.execVshr a b f r x s
  | .vmac a b f r x => Sys2Proof.Machine.execVmac a b f r x s
  | .vperm a b f r x => Sys2Proof.Machine.execVperm a b f r x s
  | .vsat a f r x => Sys2Proof.Machine.execVsat a f r x s
  | .mma a b c f x => Sys2Proof.Machine.execMma a b c f x s
  | .mmas a b c f x => Sys2Proof.Machine.execMmas a b c f x s
  | .mmac c f x => Sys2Proof.Machine.execMmac c f x s
  | .mldb a f x => Sys2Proof.Machine.execMldb a f x s
  | .mzero a f x => Sys2Proof.Machine.execMzero a f x s
  | .mrd a f r x => Sys2Proof.Machine.execMrd a f r x s
  | .mcx a f x => Sys2Proof.Machine.execMcx a f x s
  | .mspm a b c f x => Sys2Proof.Machine.execMspm a b c f x s
  | .cvdn a f z => Sys2Proof.Machine.execCvdn a f z s
  | .cvup a f r => Sys2Proof.Machine.execCvup a f r s
  | .sjoin a b f => Sys2Proof.Machine.execSjoin a b f s
  | .mld a w z x => Sys2Proof.Machine.execMld a w z x s
  | .mst a b w z x => Sys2Proof.Machine.execMst a b w z x s
  | .mldt a z => Sys2Proof.Machine.execMldt a z s
  | .mstt a b z => Sys2Proof.Machine.execMstt a b z s
  | .mamo a b c w z x => Sys2Proof.Machine.execMamo a b c w z x s
  | .mldf a w z x => Sys2Proof.Machine.execMldf a w z x s
  | .mste a b w z x => Sys2Proof.Machine.execMste a b w z x s
  | .aga => Sys2Proof.Machine.execAga s
  | .agx a => Sys2Proof.Machine.execAgx a s
  | .agh => Sys2Proof.Machine.execAgh s
  | .xlate a k f => Sys2Proof.Machine.execXlate a k f s
  | .sieve a f t n => Sys2Proof.Machine.execSieve a f t n s
  | .unsieve a f t n => Sys2Proof.Machine.execUnsieve a f t n s
  | .gateCtok a b => Sys2Proof.Machine.execGateCtok a b s
  | .gateCounter a => Sys2Proof.Machine.execGateCounter a s
  | .carry a b c => Sys2Proof.Machine.execCarry a b c s
  | .steer a b z => Sys2Proof.Machine.execSteer a b z s
  | .merge a b c => Sys2Proof.Machine.execMerge a b c s
  | .dup a => Sys2Proof.Machine.execDup a s
  | .eosgen a g => Sys2Proof.Machine.execEosgen a g s
  | .sink a e => Sys2Proof.Machine.execSink a e s
  | .emitTok => Sys2Proof.Machine.execEmitTok s
  | .emitIota => Sys2Proof.Machine.execEmitIota s
  | .emitIng => Sys2Proof.Machine.execEmitIng s
  | .tagopSet a => Sys2Proof.Machine.execTagopSet a s
  | .tagopCtok a => Sys2Proof.Machine.execTagopCtok a s
  | .tagopClear a => Sys2Proof.Machine.execTagopClear a s
  | .routePass off imm c => Sys2Proof.Machine.execRoutePass off imm c s
  | .routeHold off imm c => Sys2Proof.Machine.execRouteHold off imm c s
  | .routeFanout off imm c => Sys2Proof.Machine.execRouteFanout off imm c s
  | .routeSeam off imm c => Sys2Proof.Machine.execRouteSeam off imm c s
  | .boundaryTrap u => Sys2Proof.Machine.execBoundaryTrap u s
  | .waitTimeout u => Sys2Proof.Machine.execWaitTimeout u s
  | .scrub t => Sys2Proof.Machine.execScrub t s
  | .sleepuWake u => Sys2Proof.Machine.execSleepuWake u s
  | .watchFire u n => Sys2Proof.Machine.execWatchFire u n s
  | .copyComplete f => Sys2Proof.Machine.execCopyComplete f s
  | .sendrMerge f => Sys2Proof.Machine.execSendrMerge f s
  | .pendingTakeover u x => Sys2Proof.Machine.execPendingTakeover u x s
  | .segmentLoad l => Sys2Proof.Machine.execSegmentLoad l s
  | .launchStart l => Sys2Proof.Machine.execLaunchStart l s
  | .unitRetire u => Sys2Proof.Machine.execUnitRetire u s
  | .eosStep u e => Sys2Proof.Machine.execEosStep u e s
  | .roundStep u e => Sys2Proof.Machine.execRoundStep u e s
  | .roundCommit l k => Sys2Proof.Machine.execRoundCommit l k s
  | .kill => Sys2Proof.Machine.execKill s
  | .creditReturn f => Sys2Proof.Machine.execCreditReturn f s
  | .faultRecordWrite pg => Sys2Proof.Machine.execFaultRecordWrite pg s
  | .oredMerge f => Sys2Proof.Machine.execOredMerge f s
  | .redEvent f => Sys2Proof.Machine.execRedEvent f s
  | .gatherStep f => Sys2Proof.Machine.execGatherStep f s
  | .attestReport f => Sys2Proof.Machine.execAttestReport f s
  | .pageWalk t job va kind => Sys2Proof.Machine.execPageWalk t job va kind s
  | .launchComplete l => Sys2Proof.Machine.execLaunchComplete l s
  | .phaseComplete job ctr => Sys2Proof.Machine.execPhaseComplete job ctr s
  | .loaderDescriptor ep => Sys2Proof.Machine.execLoaderDescriptor ep s
  | .poolPlace d => Sys2Proof.Machine.execPoolPlace d s
  | .compact l g => Sys2Proof.Machine.execCompact l g s
  | .victimPreempt l => Sys2Proof.Machine.execVictimPreempt l s
  | .parentYield l => Sys2Proof.Machine.execParentYield l s
  | .packetArbitrate a => Sys2Proof.Machine.execPacketArbitrate a s
  | .watchdogSnapshot l => Sys2Proof.Machine.execWatchdogSnapshot l s
  | .watchdogCancel l => Sys2Proof.Machine.execWatchdogCancel l s
  | .rcResume pg => Sys2Proof.Machine.execRcResume pg s
  | .rcCancel pg => Sys2Proof.Machine.execRcCancel pg s
  | .rcSnapshot pg => Sys2Proof.Machine.execRcSnapshot pg s
  | .rcselWrite pg v => Sys2Proof.Machine.execRcselWrite pg v s
  | .rcUnitFrameWrite pg off v => Sys2Proof.Machine.execRcUnitFrameWrite pg off v s
  | .rcEsrWrite pg v => Sys2Proof.Machine.execRcEsrWrite pg v s
  | .rcCvsrWrite pg v => Sys2Proof.Machine.execRcCvsrWrite pg v s
  | .registerWrite dev off v => Sys2Proof.Machine.execRegisterWrite dev off v s
  | .elementSave u e => Sys2Proof.Machine.execElementSave u e s
  | .snapshotClose l => Sys2Proof.Machine.execSnapshotClose l s
  | .restore l => Sys2Proof.Machine.execRestore l s
  | .savedTokenInject f => Sys2Proof.Machine.execSavedTokenInject f s
  | .turnStart k => Sys2Proof.Machine.execTurnStart k s
  | .turnDrained k => Sys2Proof.Machine.execTurnDrained k s
  | .turnComplete k => Sys2Proof.Machine.execTurnComplete k s
  | .ingressSlotWrite ep off size data => Sys2Proof.Machine.execIngressSlotWrite ep off size data s
  | .ingressEosWrite ep size v => Sys2Proof.Machine.execIngressEosWrite ep size v s
  | .hostWindowAccess d off size wr data => Sys2Proof.Machine.execHostWindowAccess d off size wr data s
  | .hostAtomic d off op x c => Sys2Proof.Machine.execHostAtomic d off op x c s
  | .hostBadOffset d off => Sys2Proof.Machine.execHostBadOffset d off s
  | .hwjobWrite d v => Sys2Proof.Machine.execHwjobWrite d v s
  | .hwbaseWrite d v => Sys2Proof.Machine.execHwbaseWrite d v s
  | .mgRelease d => Sys2Proof.Machine.execMgRelease d s
  | .mgPolicy d => Sys2Proof.Machine.execMgPolicy d s
  | .mgFrame d => Sys2Proof.Machine.execMgFrame d s
  | .mgStandby d => Sys2Proof.Machine.execMgStandby d s
  | .mgWake d => Sys2Proof.Machine.execMgWake d s
  | .wakeComplete => Sys2Proof.Machine.execWakeComplete s
  | .mgPair d => Sys2Proof.Machine.execMgPair d s
  | .mgKey d => Sys2Proof.Machine.execMgKey d s
  | .mgLog d => Sys2Proof.Machine.execMgLog d s
  | .mgDebug d code => Sys2Proof.Machine.execMgDebug d code s
  | .thcfgWrite d v => Sys2Proof.Machine.execThcfgWrite d v s
  | .monitorSample d => Sys2Proof.Machine.execMonitorSample d s
  | .thermalStepUp => Sys2Proof.Machine.execThermalStepUp s
  | .packageReset => Sys2Proof.Machine.execPackageReset s
  | .idleGate enter => Sys2Proof.Machine.execIdleGate enter s
  | .illegalCWord w => Sys2Proof.Machine.execIllegalCWord w s
  | .fetchFault => Sys2Proof.Machine.execFetchFault s
  | .uncorrectableError a => Sys2Proof.Machine.execUncorrectableError a s
  | .rccmdUnassigned pg v => Sys2Proof.Machine.execRccmdUnassigned pg v s
  | .mgcmdUnassigned d code => Sys2Proof.Machine.execMgcmdUnassigned d code s

end Sys2Proof.Machine
end

