-- ==== Sys2Proof/Machine/Step.lean ====
section
/-!
DEFINITION. One step of the package (log entry 1): the next action of the agenda. A unit issues its C-word, an element or a
route acts, something happens by itself, or the cycle ends; with an empty agenda the next cycle is planned.
-/

namespace Sys2Proof.Machine

open Sys2Proof

/-- A unit's turn: a trap that is pending is taken (R52), or its C-word fetched, decoded and run (R48, R68, R12). -/
def stepIssue (u : Nat) (s : State) : Host.Outcome State Fault Refusal :=
  if !mayIssue s u then .next s
  else if boundaryDue s u then execBoundaryTrap u s
  else
    let s1 := beginIssue s u
    match fetchWord s1 u with
    | none => exec .fetchFault s1
    | some (w, s2) =>
      match decodeC w with
      | .ok i => exec i s2
      | .error _ => execIllegalCWord w s2

/-- An element's turn: a boundary step where one is due, else its operation (R161); a context for which the element is held
does not fire (R251). -/
def stepFire (u e : Nat) (s : State) : Host.Outcome State Fault Refusal :=
  if isFiring (dueAct s u e) && elementHeld s u e then .next s
  else
    let r := match boundaryStep s u e with
      | some b => runEvent b (asElem s u e)
      | none => runElement (ewordAt s u e) (asElem s u e)
    match r with
    | .next t => .next (afterFire s u e t)
    | r => r

/-- A route's turn (R229). -/
def stepRoute (u k : Nat) (s : State) : Host.Outcome State Fault Refusal :=
  match swordAt s u k with
  | some w => runRoute w { s with cur := u }
  | none => .next s

/-- One step. DESIGN CHOICE (log entry 11). -/
def step (s : State) : Host.Outcome State Fault Refusal :=
  if s.held then .fault .heldInReset
  else
    match s.agenda with
    | [] => .next { s with agenda := plan s }
    | a :: rest =>
      let s1 := { s with agenda := rest }
      match a with
      | .issue u => stepIssue u s1
      | .fire u e => stepFire u e s1
      | .route u k => stepRoute u k s1
      | .event e => runEvent e s1
      | .access dev off n wr v => execRegisterAccess dev off n wr v s1
      | .watchdogs => .next (runWatchdogs s1)
      | .cycle => .next (tick s1)

/-- The state with an instruction where the next step fetches it: a C-word at a unit's PC, an E-word or an S-word in a bank,
as decodeTableWord tells them apart. -/
def State.withFetchWord (s : State) (nbits w : Nat) : State :=
  if nbits ≤ 16 then placeSWord s (BitVec.ofNat 16 w)
  else
    match decodeC (BitVec.ofNat 32 w) with
    | .ok _ => placeCWord s (BitVec.ofNat 32 w)
    | .error _ => placeEWord s (BitVec.ofNat 32 w)

end Sys2Proof.Machine
end

