-- ==== Sys2Proof/Laws/Element.lean ====
section
/-!
SUPPORT. What the step runs of a bank is what Decode.lean reads of it: the operation of an E-word, the route of an S-word,
and an event under the constructor that the opcode table gives it (log entry 3).
-/

namespace Sys2Proof.Machine

open Sys2Proof

/-- A word that passes its check is the instruction. -/
theorem eq_of_need {b : Bool} {i j : Instr} (h : need b j = .ok i) : j = i := by
  unfold need at h
  split at h
  · exact Except.ok.inj h
  · cases h

theorem runOnline_of_decode {w : BitVec 32} {i : Instr} (s : State) (h : decodeEOnline w = .ok i) :
    runOnline w s = exec i s := by
  unfold decodeEOnline at h
  unfold runOnline
  split at h
  case h_19 => cases h
  all_goals
    rename_i he
    cases eq_of_need h
    try simp only [he]
    rfl

theorem runVector_of_decode {w : BitVec 32} {i : Instr} (s : State) (h : decodeEVector w = .ok i) :
    runVector w s = exec i s := by
  unfold decodeEVector at h
  unfold runVector
  split at h
  case h_23 => cases h
  all_goals
    rename_i he
    first
    | cases eq_of_need h
    | cases h
    try simp only [he]
    rfl

theorem runMatrix_of_decode {w : BitVec 32} {i : Instr} (s : State) (h : decodeEMatrix w = .ok i) :
    runMatrix w s = exec i s := by
  unfold decodeEMatrix at h
  unfold runMatrix
  split at h
  case h_12 => cases h
  all_goals
    rename_i he
    cases eq_of_need h
    try simp only [he]
    rfl

theorem runPort_of_decode {w : BitVec 32} {i : Instr} (s : State) (h : decodeEPort w = .ok i) :
    runPort w s = exec i s := by
  unfold decodeEPort at h
  unfold runPort
  split at h
  case h_14 => cases h
  all_goals
    rename_i he
    cases eq_of_need h
    try simp only [he]
    rfl

theorem runFlow_of_decode {w : BitVec 32} {i : Instr} (s : State) (h : decodeEFlow w = .ok i) :
    runFlow w s = exec i s := by
  unfold decodeEFlow at h
  unfold runFlow
  split at h
  case h_10 => cases h
  all_goals
    rename_i he
    try simp only [he]
    repeat' split at h
    all_goals first
      | (cases h; done)
      | (cases eq_of_need h; rfl)
      | (cases eq_of_need h; simp_all; rfl)
      | (cases eq_of_need h; simp_all)

/-- An element's operation, run as a word, is exec of the instruction that the word encodes (R30). -/
theorem runElement_of_decode {w : BitVec 32} {i : Instr} (s : State) (h : decodeE w = .ok i) :
    runElement w s = exec i s := by
  unfold decodeE at h
  unfold runElement
  split at h
  · rename_i c
    rw [if_pos c]
    exact runOnline_of_decode s h
  · rename_i c
    rw [if_neg c]
    split at h
    · rename_i c
      rw [if_pos c]
      exact runVector_of_decode s h
    · rename_i c
      rw [if_neg c]
      split at h
      · rename_i c
        rw [if_pos c]
        exact runMatrix_of_decode s h
      · rename_i c
        rw [if_neg c]
        split at h
        · rename_i c
          rw [if_pos c]
          exact runPort_of_decode s h
        · rename_i c
          rw [if_neg c]
          exact runFlow_of_decode s h

/-- A route, run as a word, is exec of the instruction that the word encodes (R32). -/
theorem runRoute_of_decode {w : BitVec 16} {i : Instr} (s : State) (h : decodeS w = .ok i) :
    runRoute w s = exec i s := by
  unfold decodeS at h
  unfold runRoute
  split at h
  · cases h
  · rename_i c
    rw [if_neg c]
    split at h
    case h_5 => cases h
    all_goals
      rename_i he
      cases h
      try simp only [he]
      rfl

/-- The row of the opcode table that an event is. -/
noncomputable def Event.instr : Event → Instr
  | .boundaryTrap u => .boundaryTrap u
  | .waitTimeout u => .waitTimeout u
  | .scrub t => .scrub t
  | .sleepuWake u => .sleepuWake u
  | .watchFire u n => .watchFire u n
  | .copyComplete f => .copyComplete f
  | .sendrMerge f => .sendrMerge f
  | .pendingTakeover u x => .pendingTakeover u x
  | .segmentLoad l => .segmentLoad l
  | .launchStart l => .launchStart l
  | .unitRetire u => .unitRetire u
  | .eosStep u e => .eosStep u e
  | .roundStep u e => .roundStep u e
  | .roundCommit l k => .roundCommit l k
  | .kill => .kill
  | .creditReturn f => .creditReturn f
  | .faultRecordWrite pg => .faultRecordWrite pg
  | .oredMerge f => .oredMerge f
  | .redEvent f => .redEvent f
  | .gatherStep f => .gatherStep f
  | .attestReport f => .attestReport f
  | .pageWalk t job va kind => .pageWalk t job va kind
  | .launchComplete l => .launchComplete l
  | .phaseComplete job ctr => .phaseComplete job ctr
  | .loaderDescriptor ep => .loaderDescriptor ep
  | .poolPlace d => .poolPlace d
  | .compact l g => .compact l g
  | .victimPreempt l => .victimPreempt l
  | .parentYield l => .parentYield l
  | .packetArbitrate a => .packetArbitrate a
  | .watchdogSnapshot l => .watchdogSnapshot l
  | .watchdogCancel l => .watchdogCancel l
  | .rcResume pg => .rcResume pg
  | .rcCancel pg => .rcCancel pg
  | .rcSnapshot pg => .rcSnapshot pg
  | .rcselWrite pg v => .rcselWrite pg v
  | .rcUnitFrameWrite pg off v => .rcUnitFrameWrite pg off v
  | .rcEsrWrite pg v => .rcEsrWrite pg v
  | .rcCvsrWrite pg v => .rcCvsrWrite pg v
  | .registerWrite dev off v => .registerWrite dev off v
  | .elementSave u e => .elementSave u e
  | .snapshotClose l => .snapshotClose l
  | .restore l => .restore l
  | .savedTokenInject f => .savedTokenInject f
  | .turnStart k => .turnStart k
  | .turnDrained k => .turnDrained k
  | .turnComplete k => .turnComplete k
  | .ingressSlotWrite ep off size data => .ingressSlotWrite ep off size data
  | .ingressEosWrite ep size v => .ingressEosWrite ep size v
  | .hostWindowAccess d off size wr data => .hostWindowAccess d off size wr data
  | .hostAtomic d off op x c => .hostAtomic d off op x c
  | .hostBadOffset d off => .hostBadOffset d off
  | .hwjobWrite d v => .hwjobWrite d v
  | .hwbaseWrite d v => .hwbaseWrite d v
  | .mgRelease d => .mgRelease d
  | .mgPolicy d => .mgPolicy d
  | .mgFrame d => .mgFrame d
  | .mgStandby d => .mgStandby d
  | .mgWake d => .mgWake d
  | .wakeComplete => .wakeComplete
  | .mgPair d => .mgPair d
  | .mgKey d => .mgKey d
  | .mgLog d => .mgLog d
  | .mgDebug d code => .mgDebug d code
  | .thcfgWrite d v => .thcfgWrite d v
  | .monitorSample d => .monitorSample d
  | .thermalStepUp => .thermalStepUp
  | .packageReset => .packageReset
  | .idleGate enter => .idleGate enter
  | .uncorrectableError a => .uncorrectableError a
  | .rccmdUnassigned pg v => .rccmdUnassigned pg v
  | .mgcmdUnassigned d code => .mgcmdUnassigned d code

/-- An event, run, is exec of its row. -/
theorem runEvent_eq (e : Event) (s : State) : runEvent e s = exec e.instr s := by
  cases e <;> rfl

/-! What the step does with the first action of the agenda. -/

theorem step_issue (s : State) (u : Nat) (rest : List Action) (h : s.held = false) (ha : s.agenda = .issue u :: rest) :
    step s = stepIssue u { s with agenda := rest } := by
  unfold step; rw [h, ha]; rfl
theorem step_fire (s : State) (u e : Nat) (rest : List Action) (h : s.held = false)
    (ha : s.agenda = .fire u e :: rest) : step s = stepFire u e { s with agenda := rest } := by
  unfold step; rw [h, ha]; rfl
theorem step_route (s : State) (u k : Nat) (rest : List Action) (h : s.held = false)
    (ha : s.agenda = .route u k :: rest) : step s = stepRoute u k { s with agenda := rest } := by
  unfold step; rw [h, ha]; rfl
theorem step_event (s : State) (e : Event) (rest : List Action) (h : s.held = false)
    (ha : s.agenda = .event e :: rest) : step s = runEvent e { s with agenda := rest } := by
  unfold step; rw [h, ha]; rfl
theorem step_cycle (s : State) (rest : List Action) (h : s.held = false) (ha : s.agenda = .cycle :: rest) :
    step s = .next (tick { s with agenda := rest }) := by
  unfold step; rw [h, ha]; rfl
theorem step_plan (s : State) (h : s.held = false) (ha : s.agenda = []) :
    step s = .next { s with agenda := plan s } := by
  unfold step; rw [h, ha]; rfl

end Sys2Proof.Machine
end

