-- ==== Sys2Proof/Laws/Tables.lean ====
section
/-!
SUPPORT. Laws of the tables by number: what a listed value reads as, and that the numbers keep rising.
-/

namespace Sys2Proof.Machine

open Sys2Proof

variable {α : Type}

@[simp] theorem mget_nil (n : Nat) : mget ([] : Map α) n = none := rfl

@[simp] theorem mget_mset (m : Map α) (n : Nat) (v : α) : mget (mset m n v) n = some v := by
  induction m with
  | nil => simp [mset, mget]
  | cons p m ih =>
    obtain ⟨k, w⟩ := p
    simp only [mset]
    split
    · simp [mget]
    · split
      · simp [mget]
      · rename_i h1 h2
        simp [mget, h2, ih]

theorem mget_mset_ne (m : Map α) (n k : Nat) (v : α) (h : k ≠ n) : mget (mset m n v) k = mget m k := by
  induction m with
  | nil => simp [mset, mget, Ne.symm h]
  | cons p m ih =>
    obtain ⟨j, w⟩ := p
    simp only [mset]
    split
    · simp [mget, Ne.symm h]
    · split
      · rename_i h1 h2
        subst h2
        simp [mget, Ne.symm h]
      · simp [mget, ih]

@[simp] theorem mset_mset (m : Map α) (n : Nat) (v w : α) : mset (mset m n v) n w = mset m n w := by
  induction m with
  | nil => simp [mset]
  | cons p m ih =>
    obtain ⟨k, x⟩ := p
    by_cases h1 : n < k
    · simp [mset, h1]
    · by_cases h2 : k = n
      · simp [mset, h2]
      · simp [mset, h1, h2, ih]

@[simp] theorem mget_mdel (m : Map α) (n : Nat) : mget (mdel m n) n = none := by
  induction m with
  | nil => rfl
  | cons p m ih =>
    obtain ⟨k, w⟩ := p
    by_cases h : k = n
    · simp [mdel, h, ih]
    · simp [mdel, mget, h, ih]

theorem mget_mdel_ne (m : Map α) (n k : Nat) (h : k ≠ n) : mget (mdel m n) k = mget m k := by
  induction m with
  | nil => rfl
  | cons p m ih =>
    obtain ⟨j, w⟩ := p
    by_cases h1 : j = n
    · subst h1
      simp [mdel, mget, Ne.symm h, ih]
    · simp [mdel, mget, h1, ih]

/-- Every number of a table satisfies a condition. -/
theorem mset_all (m : Map α) (n : Nat) (v : α) (p : Nat × α → Bool) (hm : m.all p = true) (hp : p (n, v) = true) :
    (mset m n v).all p = true := by
  induction m with
  | nil => simp [mset, hp]
  | cons q m ih =>
    obtain ⟨k, w⟩ := q
    simp only [List.all_cons, Bool.and_eq_true] at hm
    simp only [mset]
    split
    · simp only [List.all_cons, Bool.and_eq_true]
      exact ⟨hp, hm.1, hm.2⟩
    · split
      · simp only [List.all_cons, Bool.and_eq_true]
        exact ⟨hp, hm.2⟩
      · simp only [List.all_cons, Bool.and_eq_true]
        exact ⟨hm.1, ih hm.2⟩

theorem mdel_all (m : Map α) (n : Nat) (p : Nat × α → Bool) (hm : m.all p = true) : (mdel m n).all p = true := by
  induction m with
  | nil => rfl
  | cons q m ih =>
    obtain ⟨k, w⟩ := q
    simp only [List.all_cons, Bool.and_eq_true] at hm
    simp only [mdel]
    split
    · exact ih hm.2
    · simp only [List.all_cons, Bool.and_eq_true]
      exact ⟨hm.1, ih hm.2⟩

/-- A value listed keeps the numbers rising. -/
theorem sorted_mset (m : Map α) (n : Nat) (v : α) (h : sorted m = true) : sorted (mset m n v) = true := by
  induction m with
  | nil => simp [mset, sorted]
  | cons q m ih =>
    obtain ⟨k, w⟩ := q
    simp only [sorted, Bool.and_eq_true] at h
    simp only [mset]
    split
    · rename_i h1
      simp only [sorted, Bool.and_eq_true, List.all_cons, decide_eq_true_eq]
      refine ⟨⟨h1, ?_⟩, h.1, h.2⟩
      exact List.all_eq_true.mpr fun x hx =>
        decide_eq_true (Nat.lt_trans h1 (of_decide_eq_true (List.all_eq_true.mp h.1 x hx)))
    · split
      · rename_i h1 h2
        subst h2
        simp only [sorted, Bool.and_eq_true]
        exact h
      · rename_i h1 h2
        simp only [sorted, Bool.and_eq_true]
        exact ⟨mset_all m n v _ h.1 (by simp; omega), ih h.2⟩

/-- A number deleted keeps the numbers rising. -/
theorem sorted_mdel (m : Map α) (n : Nat) (h : sorted m = true) : sorted (mdel m n) = true := by
  induction m with
  | nil => rfl
  | cons q m ih =>
    obtain ⟨k, w⟩ := q
    simp only [sorted, Bool.and_eq_true] at h
    simp only [mdel]
    split
    · exact ih h.2
    · simp only [sorted, Bool.and_eq_true]
      exact ⟨mdel_all m n _ h.1, ih h.2⟩

/-- Entries dropped from a table keep the numbers rising. -/
theorem sorted_filter (m : Map α) (p : Nat × α → Bool) (h : sorted m = true) : sorted (m.filter p) = true := by
  induction m with
  | nil => rfl
  | cons q m ih =>
    obtain ⟨k, w⟩ := q
    simp only [sorted, Bool.and_eq_true] at h
    simp only [List.filter]
    split
    · simp only [sorted, Bool.and_eq_true]
      refine ⟨?_, ih h.2⟩
      exact List.all_eq_true.mpr fun x hx => List.all_eq_true.mp h.1 x (List.mem_filter.mp hx).1
    · exact ih h.2

end Sys2Proof.Machine
end

