-- ==== Sys2Proof/Laws/Memory.lean ====
section
/-!
SUPPORT. Laws of memory: a byte read after a write, what a memory event leaves of the bytes, and that every memory
operation keeps the canonical form.
-/

namespace Sys2Proof.Machine

open Sys2Proof

/-! ## One byte -/

theorem rdByte_wrByte (m : Memory) (a b : Nat) (v : Byte) :
    rdByte (wrByte m a v) b = if b = a then v else rdByte m b := by
  by_cases h : b = a
  · subst h
    by_cases hv : v = 0#8
    · subst hv
      simp [rdByte, wrByte, wrCell]
    · simp [rdByte, wrByte, wrCell, hv]
  · by_cases hv : v = 0#8
    · subst hv
      simp [rdByte, wrByte, wrCell, h, mget_mdel_ne _ _ _ h]
    · simp [rdByte, wrByte, wrCell, h, hv, mget_mset_ne _ _ _ _ h]

/-- A byte outside those written reads as before. -/
theorem rdByte_wrBytes_outside (m : Memory) (a b : Nat) (l : List Byte) (h : b < a ∨ a + l.length ≤ b) :
    rdByte (wrBytes m a l) b = rdByte m b := by
  induction l generalizing m a with
  | nil => rfl
  | cons x l ih =>
    simp only [List.length_cons] at h
    rw [wrBytes, ih _ _ (by omega), rdByte_wrByte]
    split
    · omega
    · rfl

/-- A byte written reads as it was written. -/
theorem rdByte_wrBytes_inside (m : Memory) (a k : Nat) (l : List Byte) (h : k < l.length) :
    rdByte (wrBytes m a l) (a + k) = l.getD k 0#8 := by
  induction l generalizing m a k with
  | nil => simp at h
  | cons x l ih =>
    cases k with
    | zero =>
      rw [wrBytes, Nat.add_zero, rdByte_wrBytes_outside _ _ _ _ (by omega), rdByte_wrByte]
      simp
    | succ k =>
      simp only [List.length_cons, Nat.add_lt_add_iff_right] at h
      have := ih (wrByte m a x) (a + 1) k h
      rw [wrBytes, show a + (k + 1) = a + 1 + k by omega, this]
      simp

theorem length_toBytes (n x : Nat) : (toBytes n x).length = n := by
  induction n generalizing x with
  | zero => rfl
  | succ n ih => simp [toBytes, ih]

theorem length_rdBytes (m : Memory) (a n : Nat) : (rdBytes m a n).length = n := by
  induction n generalizing a with
  | zero => rfl
  | succ n ih => simp [rdBytes, ih]

/-- The bytes of a number are the number. -/
theorem ofBytes_toBytes (n x : Nat) : ofBytes (toBytes n x) = x % 2 ^ (8 * n) := by
  induction n generalizing x with
  | zero => simp [toBytes, ofBytes, Nat.mod_one]
  | succ n ih =>
    simp only [toBytes, ofBytes, ih, BitVec.toNat_ofNat]
    rw [show 8 * (n + 1) = 8 * n + 8 by omega, Nat.pow_add, Nat.mul_comm (2 ^ (8 * n)), Nat.mod_mul]

/-- Reading the bytes just written gives them. -/
theorem rdBytes_wrBytes (m : Memory) (a : Nat) (l : List Byte) : rdBytes (wrBytes m a l) a l.length = l := by
  induction l generalizing m a with
  | nil => rfl
  | cons x l ih =>
    simp only [List.length_cons, rdBytes, wrBytes]
    rw [ih, rdByte_wrBytes_outside _ _ _ _ (by omega), rdByte_wrByte]
    simp

theorem rdNum_wrNum (m : Memory) (a n v : Nat) : rdNum (wrNum m a n v) a n = v % 2 ^ (8 * n) := by
  have h := rdBytes_wrBytes m a (toBytes n v)
  rw [length_toBytes] at h
  rw [rdNum, wrNum, h, ofBytes_toBytes]

/-! ## The canonical form -/

theorem wrCell_wf (c : List Host.Cell) (a : Nat) (v : Byte)
    (h : sorted c = true ∧ (c.all fun x => decide (x.2 ≠ 0#8)) = true) :
    sorted (wrCell c a v) = true ∧ ((wrCell c a v).all fun x => decide (x.2 ≠ 0#8)) = true := by
  unfold wrCell
  split
  · exact ⟨sorted_mdel _ _ h.1, mdel_all _ _ _ h.2⟩
  · rename_i hv
    exact ⟨sorted_mset _ _ _ h.1, mset_all _ _ _ _ h.2 (by simpa using hv)⟩

theorem Memory.wf_iff (m : Memory) :
    m.wf = true ↔ sorted m.cells = true ∧ (m.cells.all fun c => decide (c.2 ≠ 0#8)) = true := by
  simp [Memory.wf]

/-- The canonical form depends on the bytes alone. -/
theorem Memory.wf_of_cells {m n : Memory} (h : n.cells = m.cells) (hm : m.wf = true) : n.wf = true := by
  simpa [Memory.wf, h] using hm

theorem Memory.wf_wrByte (m : Memory) (a : Nat) (v : Byte) (h : m.wf = true) : (wrByte m a v).wf = true :=
  (Memory.wf_iff _).mpr (wrCell_wf _ _ _ ((Memory.wf_iff _).mp h))

theorem Memory.wf_wrBytes (m : Memory) (a : Nat) (l : List Byte) (h : m.wf = true) : (wrBytes m a l).wf = true := by
  induction l generalizing m a with
  | nil => exact h
  | cons x l ih => exact ih _ _ (Memory.wf_wrByte _ _ _ h)

theorem Memory.wf_wrNum (m : Memory) (a n v : Nat) (h : m.wf = true) : (wrNum m a n v).wf = true :=
  Memory.wf_wrBytes _ _ _ h

/-- Bytes dropped from memory keep the canonical form. -/
theorem Memory.wf_filter (m : Memory) (p : Host.Cell → Bool) (h : m.wf = true) :
    ({ m with cells := m.cells.filter p } : Memory).wf = true := by
  have h' := (Memory.wf_iff _).mp h
  refine (Memory.wf_iff _).mpr ⟨sorted_filter _ _ h'.1, ?_⟩
  exact List.all_eq_true.mpr fun x hx => List.all_eq_true.mp h'.2 x (List.mem_filter.mp hx).1

/-! ## What is not a byte leaves the bytes -/

@[simp] theorem cells_setTag (m : Memory) (a : Nat) (f : Bool) : (setTag m a f).cells = m.cells := rfl
@[simp] theorem cells_clearPoison (m : Memory) (a n : Nat) : (clearPoison m a n).cells = m.cells := rfl
@[simp] theorem cells_setLine (m : Memory) (ln : Nat) (x : Line) : (setLine m ln x).cells = m.cells := rfl
@[simp] theorem full_setLine (m : Memory) (ln : Nat) (x : Line) : (setLine m ln x).full = m.full := rfl
@[simp] theorem poisoned_setLine (m : Memory) (ln : Nat) (x : Line) : (setLine m ln x).poisoned = m.poisoned := rfl
@[simp] theorem cells_correctIf (m : Memory) (t : Nat) (p : Nat → Bool) : (correctIf m t p).cells = m.cells := by
  unfold correctIf
  dsimp only
  split <;> rfl
@[simp] theorem cells_correct (m : Memory) (a n : Nat) : (correct m a n).cells = m.cells := cells_correctIf ..
@[simp] theorem cells_correctEdges (m : Memory) (a n : Nat) : (correctEdges m a n).cells = m.cells := cells_correctIf ..

@[simp] theorem cells_leaseLines (m : Memory) (t tb : Nat) (sc : Option Nat) (sa : Bool) (pts : Nat) (l : List Nat) :
    (leaseLines m t tb sc sa pts l).mem.cells = m.cells := by
  induction l generalizing m pts with
  | nil => rfl
  | cons ln l ih => simp [leaseLines, ih]

@[simp] theorem cells_stampLines (m : Memory) (t tb : Nat) (sc : Option Nat) (sa : Bool) (pts : Nat) (l : List Nat) :
    (stampLines m t tb sc sa pts l).mem.cells = m.cells := by
  induction l generalizing m pts with
  | nil => rfl
  | cons ln l ih => simp [stampLines, ih]

@[simp] theorem cells_readEvent (m : Memory) (a n t tb : Nat) (sc : Option Nat) (sa : Bool) (pts : Nat) :
    (readEvent m a n t tb sc sa pts).mem.cells = m.cells := by
  simp [readEvent]

@[simp] theorem cells_atomicEvent (m : Memory) (a n t tb : Nat) (sc : Option Nat) (sa : Bool) (pts : Nat) :
    (atomicEvent m a n t tb sc sa pts).mem.cells = m.cells := by
  simp [atomicEvent]

@[simp] theorem cells_walkerReads (m : Memory) (t tb pts : Nat) (l : List Nat) :
    (walkerReads m t tb pts l).1.cells = m.cells := by
  induction l generalizing m pts with
  | nil => rfl
  | cons a l ih => simp [walkerReads, ih]

@[simp] theorem cells_stampAt (m : Memory) (tc ln : Nat) : (stampAt m tc ln).cells = m.cells := rfl

/-! ## Events -/

theorem rdByte_of_cells {m n : Memory} (h : n.cells = m.cells) (a : Nat) : rdByte n a = rdByte m a := by
  simp [rdByte, h]

/-- A load event changes no byte. -/
theorem rdByte_readEvent (m : Memory) (a n t tb : Nat) (sc : Option Nat) (sa : Bool) (pts b : Nat) :
    rdByte (readEvent m a n t tb sc sa pts).mem b = rdByte m b := rdByte_of_cells (by simp) b

/-- The bytes of two memories with the same cells agree after the same write. -/
theorem cells_wrBytes_congr {m n : Memory} (h : n.cells = m.cells) (a : Nat) (l : List Byte) :
    (wrBytes n a l).cells = (wrBytes m a l).cells := by
  induction l generalizing m n a with
  | nil => exact h
  | cons x l ih => exact ih (m := wrByte m a x) (n := wrByte n a x) (by simp [wrByte, h]) (a + 1)

/-- What a write event leaves of the bytes: those written, and no other. -/
theorem cells_writeEvent (m : Memory) (a : Nat) (bs : List Byte) (t tb : Nat) (sc : Option Nat) (sa : Bool) (pts : Nat) :
    (writeEvent m a bs t tb sc sa pts).mem.cells = (wrBytes m a bs).cells := by
  simp only [writeEvent, cells_clearPoison]
  exact cells_wrBytes_congr (by simp) a bs

theorem rdByte_writeEvent_outside (m : Memory) (a : Nat) (bs : List Byte) (t tb : Nat) (sc : Option Nat) (sa : Bool)
    (pts b : Nat) (h : b < a ∨ a + bs.length ≤ b) :
    rdByte (writeEvent m a bs t tb sc sa pts).mem b = rdByte m b := by
  rw [rdByte_of_cells (cells_writeEvent m a bs t tb sc sa pts), rdByte_wrBytes_outside _ _ _ _ h]

theorem rdByte_writeEvent_inside (m : Memory) (a : Nat) (bs : List Byte) (t tb : Nat) (sc : Option Nat) (sa : Bool)
    (pts k : Nat) (h : k < bs.length) :
    rdByte (writeEvent m a bs t tb sc sa pts).mem (a + k) = bs.getD k 0#8 := by
  rw [rdByte_of_cells (cells_writeEvent m a bs t tb sc sa pts), rdByte_wrBytes_inside _ _ _ _ h]

theorem Memory.wf_writeEvent (m : Memory) (a : Nat) (bs : List Byte) (t tb : Nat) (sc : Option Nat) (sa : Bool)
    (pts : Nat) (h : m.wf = true) : (writeEvent m a bs t tb sc sa pts).mem.wf = true :=
  Memory.wf_of_cells (cells_writeEvent m a bs t tb sc sa pts) (Memory.wf_wrBytes m a bs h)

theorem Memory.wf_readEvent (m : Memory) (a n t tb : Nat) (sc : Option Nat) (sa : Bool) (pts : Nat) (h : m.wf = true) :
    (readEvent m a n t tb sc sa pts).mem.wf = true := Memory.wf_of_cells (by simp) h

theorem Memory.wf_atomicEvent (m : Memory) (a n t tb : Nat) (sc : Option Nat) (sa : Bool) (pts : Nat)
    (h : m.wf = true) : (atomicEvent m a n t tb sc sa pts).mem.wf = true := Memory.wf_of_cells (by simp) h

theorem cells_foldl_stampAt (m : Memory) (tc : Nat) (l : List Nat) :
    (l.foldl (fun m ln => stampAt m tc ln) m).cells = m.cells := by
  induction l generalizing m with
  | nil => rfl
  | cons x l ih => rw [List.foldl_cons, ih, cells_stampAt]

/-- A round's stores keep the canonical form (R300). -/
theorem Memory.wf_makeStores (m : Memory) (tc : Nat) (l : List RoundStore) (h : m.wf = true) :
    (makeStores m tc l).wf = true := by
  induction l generalizing m with
  | nil => exact h
  | cons x l ih =>
    refine ih _ ?_
    refine Memory.wf_of_cells (cells_clearPoison _ _ _) (Memory.wf_wrNum _ _ _ _ ?_)
    exact Memory.wf_of_cells ((cells_correctEdges _ _ _).trans (cells_foldl_stampAt _ _ _)) h

@[simp] theorem cells_extendLeases (m : Memory) (tc : Nat) (r : Round) : (extendLeases m tc r).cells = m.cells := by
  unfold extendLeases
  generalize r.loads = l
  induction l generalizing m with
  | nil => rfl
  | cons x l ih => rw [List.foldl_cons, ih, cells_setLine]

/-- A record's scratchpad written back keeps the canonical form (R403). -/
theorem Memory.wf_putSpad (m : Memory) (lo : Nat) (l : List Host.Cell) (h : m.wf = true) :
    ({ m with cells := putSpad m.cells lo l } : Memory).wf = true := by
  have h' := (Memory.wf_iff _).mp h
  refine (Memory.wf_iff _).mpr ?_
  unfold putSpad
  generalize m.cells = c at h'
  induction l generalizing c with
  | nil => exact h'
  | cons x l ih => exact ih _ (wrCell_wf _ _ _ h')

/-- Words given free values keep the canonical form (R369). -/
theorem Memory.wf_freeFill (m : Memory) (pa free n : Nat) (h : m.wf = true) : (freeFill m pa free n).wf = true := by
  induction n generalizing m with
  | zero => exact h
  | succ n ih => exact ih _ (Memory.wf_wrNum _ _ _ _ h)

/-- The memory that reset leaves has the canonical form. -/
theorem Memory.wf_reset : State.reset.mem.wf = true := rfl

end Sys2Proof.Machine
end

