-- ==== Sys2Proof/WellFormed.lean ====
section
/-!
DEFINITION. What a well-formed instruction is: every check of 01_encodings.md that depends on the word alone passes.
-/

namespace Sys2Proof

/-- The four kinds of row: C-word, E-word, S-word (R11), and an event without a word. -/
inductive Kind where
  | cword | eword | sword | event
deriving DecidableEq, Repr

/-- The kind of each row. -/
def kindOf (i : Instr) : Kind :=
  match i with
  | .add _ _ _ => .cword
  | .sub _ _ _ => .cword
  | .mul _ _ _ => .cword
  | .mulh _ _ _ => .cword
  | .mulhn _ _ _ => .cword
  | .div _ _ _ => .cword
  | .divn _ _ _ => .cword
  | .rem _ _ _ => .cword
  | .remn _ _ _ => .cword
  | .and _ _ _ => .cword
  | .or _ _ _ => .cword
  | .xor _ _ _ => .cword
  | .andn _ _ _ => .cword
  | .shl _ _ _ => .cword
  | .shr _ _ _ => .cword
  | .sar _ _ _ => .cword
  | .rotl _ _ _ => .cword
  | .min _ _ _ => .cword
  | .max _ _ _ => .cword
  | .minn _ _ _ => .cword
  | .maxn _ _ _ => .cword
  | .clz _ _ => .cword
  | .ctz _ _ => .cword
  | .popc _ _ => .cword
  | .sext _ _ _ => .cword
  | .zext _ _ _ => .cword
  | .movx _ _ => .cword
  | .addi _ _ _ => .cword
  | .andi _ _ _ => .cword
  | .ori _ _ _ => .cword
  | .xori _ _ _ => .cword
  | .shli _ _ _ => .cword
  | .shri _ _ _ => .cword
  | .sari _ _ _ => .cword
  | .muli _ _ _ => .cword
  | .li _ _ => .cword
  | .lpc _ _ => .cword
  | .loop _ _ => .cword
  | .cmpeq _ _ _ => .cword
  | .cmpne _ _ _ => .cword
  | .cmplt _ _ _ => .cword
  | .cmple _ _ _ => .cword
  | .cmpltn _ _ _ => .cword
  | .cmplen _ _ _ => .cword
  | .cmptst _ _ _ => .cword
  | .cmpeqi _ _ _ => .cword
  | .cmplti _ _ _ => .cword
  | .cmpltni _ _ _ => .cword
  | .pand _ _ _ => .cword
  | .por _ _ _ => .cword
  | .pxor _ _ _ => .cword
  | .pandn _ _ _ => .cword
  | .pnot _ _ => .cword
  | .pmov _ _ => .cword
  | .pset _ _ => .cword
  | .sel _ _ _ _ => .cword
  | .b _ => .cword
  | .bp _ _ => .cword
  | .bnp _ _ => .cword
  | .call _ => .cword
  | .jr _ => .cword
  | .jalr _ _ => .cword
  | .ret => .cword
  | .bz _ _ _ => .cword
  | .bnz _ _ _ => .cword
  | .fadd _ _ _ => .cword
  | .fsub _ _ _ => .cword
  | .fmul _ _ _ => .cword
  | .fdiv _ _ _ => .cword
  | .fsqrt _ _ => .cword
  | .fmin _ _ _ => .cword
  | .fmax _ _ _ => .cword
  | .fabs _ _ => .cword
  | .fneg _ _ => .cword
  | .fcmpeq _ _ _ => .cword
  | .fcmplt _ _ _ => .cword
  | .fcmple _ _ _ => .cword
  | .fcvtif _ _ => .cword
  | .fcvtfi _ _ => .cword
  | .fcvtsd _ _ => .cword
  | .fcvtds _ _ => .cword
  | .fclass _ _ => .cword
  | .ffma _ _ _ => .cword
  | .ffms _ _ _ => .cword
  | .ldb _ _ _ _ => .cword
  | .ldh _ _ _ _ => .cword
  | .ldw _ _ _ _ => .cword
  | .ldd _ _ _ _ => .cword
  | .ldbz _ _ _ _ => .cword
  | .ldhz _ _ _ _ => .cword
  | .ldwz _ _ _ _ => .cword
  | .lddZ _ _ _ _ => .cword
  | .stb _ _ _ _ => .cword
  | .sth _ _ _ _ => .cword
  | .stw _ _ _ _ => .cword
  | .std _ _ _ _ => .cword
  | .ldx _ _ _ => .cword
  | .stx _ _ _ => .cword
  | .ldf _ _ => .cword
  | .ldfe _ _ => .cword
  | .ste _ _ => .cword
  | .stf _ _ => .cword
  | .feset _ => .cword
  | .feclr _ => .cword
  | .feq _ _ => .cword
  | .ldfeNb _ _ => .cword
  | .steNb _ _ => .cword
  | .amoadd _ _ _ => .cword
  | .amoand _ _ _ => .cword
  | .amoor _ _ _ => .cword
  | .amoxor _ _ _ => .cword
  | .amomin _ _ _ => .cword
  | .amomax _ _ _ => .cword
  | .amominn _ _ _ => .cword
  | .amomaxn _ _ _ => .cword
  | .amoswp _ _ _ => .cword
  | .amocas _ _ _ => .cword
  | .redadd _ _ => .cword
  | .redand _ _ => .cword
  | .redor _ _ => .cword
  | .redxor _ _ => .cword
  | .redmin _ _ => .cword
  | .redmax _ _ => .cword
  | .oredFadd _ _ _ => .cword
  | .oredFadds _ _ _ => .cword
  | .oredAdd _ _ _ => .cword
  | .oredFmax _ _ _ => .cword
  | .oredFmin _ _ _ => .cword
  | .sleepu _ => .cword
  | .rdtb _ => .cword
  | .yield => .cword
  | .fjoin => .cword
  | .done => .cword
  | .strmGo _ _ _ => .cword
  | .strmArg _ _ _ => .cword
  | .drain _ => .cword
  | .cfgld _ => .cword
  | .cfgq _ => .cword
  | .strmTok _ _ _ => .cword
  | .send _ _ _ => .cword
  | .sendr _ _ _ => .cword
  | .ctradd _ _ => .cword
  | .ctrwait _ _ => .cword
  | .ctrrd _ _ => .cword
  | .ctrwaitNb _ _ => .cword
  | .ctrwatch _ _ _ => .cword
  | .thld _ _ => .cword
  | .thst _ _ => .cword
  | .thset _ _ _ => .cword
  | .thget _ _ _ => .cword
  | .thchk _ => .cword
  | .barinit _ _ => .cword
  | .bararr _ _ => .cword
  | .barwait _ _ => .cword
  | .barsync _ _ => .cword
  | .barrd _ _ _ => .cword
  | .barcfg _ _ => .cword
  | .barleave _ => .cword
  | .ctxdef _ _ => .cword
  | .ctxrd _ _ _ => .cword
  | .ctxwt _ _ _ => .cword
  | .rclose _ => .cword
  | .rqry _ => .cword
  | .enq _ _ => .cword
  | .enqNb _ _ => .cword
  | .deq _ _ => .cword
  | .deqNb _ _ => .cword
  | .qsteal _ _ => .cword
  | .qinit _ _ => .cword
  | .qstat _ _ => .cword
  | .qpoison _ => .cword
  | .qdrain _ _ _ => .cword
  | .enqv _ _ => .cword
  | .deqv _ _ => .cword
  | .gath _ _ _ _ _ => .cword
  | .scat _ _ _ _ _ => .cword
  | .launch _ _ => .cword
  | .launchW _ _ => .cword
  | .cancel _ _ => .cword
  | .graphnew _ _ => .cword
  | .jobdl _ _ => .cword
  | .lturn _ _ _ _ => .cword
  | .lqry _ _ _ _ => .cword
  | .lfloor _ _ _ => .cword
  | .mcst _ _ _ => .cword
  | .epbind _ _ => .cword
  | .epunb _ => .cword
  | .preempt _ _ => .cword
  | .resume _ _ => .cword
  | .snapq _ _ => .cword
  | .tlbinv _ _ => .cword
  | .tlbinva _ _ => .cword
  | .wcinv _ => .cword
  | .xlprobe _ _ => .cword
  | .csrr _ _ => .cword
  | .csrw _ _ _ => .cword
  | .csrs _ _ _ => .cword
  | .csrc _ _ _ => .cword
  | .trap _ => .cword
  | .eret => .cword
  | .breakI _ => .cword
  | .attest _ _ => .cword
  | .freeze _ => .cword
  | .oadd _ _ _ => .eword
  | .osub _ _ _ => .eword
  | .omul _ _ _ => .eword
  | .ofma _ _ _ _ => .eword
  | .odiv _ _ _ => .eword
  | .osqrt _ _ => .eword
  | .orsqrt _ _ => .eword
  | .oexp2 _ _ => .eword
  | .oscl _ _ => .eword
  | .oneg _ _ => .eword
  | .oabs _ _ => .eword
  | .ocmp _ _ _ _ => .eword
  | .omax _ _ _ _ => .eword
  | .orelu _ _ _ => .eword
  | .othr _ _ _ => .eword
  | .ow2d _ _ _ => .eword
  | .od2w _ _ _ _ => .eword
  | .oacc _ _ => .eword
  | .vadd _ _ _ _ _ => .eword
  | .vsub _ _ _ _ _ => .eword
  | .vmul _ _ _ _ _ => .eword
  | .vfma _ _ _ _ _ _ => .eword
  | .vdiv _ _ _ _ _ => .eword
  | .vsqrt _ _ _ _ => .eword
  | .vmin _ _ _ _ _ => .eword
  | .vmax _ _ _ _ _ => .eword
  | .vabs _ _ _ _ => .eword
  | .vneg _ _ _ _ => .eword
  | .vcmp _ _ _ _ _ => .eword
  | .vsel _ _ _ _ _ _ => .eword
  | .vcvt _ _ _ _ => .eword
  | .vred _ _ _ _ => .eword
  | .vand _ _ _ _ _ => .eword
  | .vor _ _ _ _ _ => .eword
  | .vxor _ _ _ _ _ => .eword
  | .vshl _ _ _ _ _ => .eword
  | .vshr _ _ _ _ _ => .eword
  | .vmac _ _ _ _ _ => .eword
  | .vperm _ _ _ _ _ => .eword
  | .vsat _ _ _ _ => .eword
  | .mma _ _ _ _ _ => .eword
  | .mmas _ _ _ _ _ => .eword
  | .mmac _ _ _ => .eword
  | .mldb _ _ _ => .eword
  | .mzero _ _ _ => .eword
  | .mrd _ _ _ _ => .eword
  | .mcx _ _ _ => .eword
  | .mspm _ _ _ _ _ => .eword
  | .cvdn _ _ _ => .eword
  | .cvup _ _ _ => .eword
  | .sjoin _ _ _ => .eword
  | .mld _ _ _ _ => .eword
  | .mst _ _ _ _ _ => .eword
  | .mldt _ _ => .eword
  | .mstt _ _ _ => .eword
  | .mamo _ _ _ _ _ _ => .eword
  | .mldf _ _ _ _ => .eword
  | .mste _ _ _ _ _ => .eword
  | .aga => .eword
  | .agx _ => .eword
  | .agh => .eword
  | .xlate _ _ _ => .eword
  | .sieve _ _ _ _ => .eword
  | .unsieve _ _ _ _ => .eword
  | .gateCtok _ _ => .eword
  | .gateCounter _ => .eword
  | .carry _ _ _ => .eword
  | .steer _ _ _ => .eword
  | .merge _ _ _ => .eword
  | .dup _ => .eword
  | .eosgen _ _ => .eword
  | .sink _ _ => .eword
  | .emitTok => .eword
  | .emitIota => .eword
  | .emitIng => .eword
  | .tagopSet _ => .eword
  | .tagopCtok _ => .eword
  | .tagopClear _ => .eword
  | .routePass _ _ _ => .sword
  | .routeHold _ _ _ => .sword
  | .routeFanout _ _ _ => .sword
  | .routeSeam _ _ _ => .sword
  | .boundaryTrap _ => .event
  | .waitTimeout _ => .event
  | .scrub _ => .event
  | .sleepuWake _ => .event
  | .watchFire _ _ => .event
  | .copyComplete _ => .event
  | .sendrMerge _ => .event
  | .pendingTakeover _ _ => .event
  | .segmentLoad _ => .event
  | .launchStart _ => .event
  | .unitRetire _ => .event
  | .eosStep _ _ => .event
  | .roundStep _ _ => .event
  | .roundCommit _ _ => .event
  | .kill => .event
  | .creditReturn _ => .event
  | .faultRecordWrite _ => .event
  | .oredMerge _ => .event
  | .redEvent _ => .event
  | .gatherStep _ => .event
  | .attestReport _ => .event
  | .pageWalk _ _ _ _ => .event
  | .launchComplete _ => .event
  | .phaseComplete _ _ => .event
  | .loaderDescriptor _ => .event
  | .poolPlace _ => .event
  | .compact _ _ => .event
  | .victimPreempt _ => .event
  | .parentYield _ => .event
  | .packetArbitrate _ => .event
  | .watchdogSnapshot _ => .event
  | .watchdogCancel _ => .event
  | .rcResume _ => .event
  | .rcCancel _ => .event
  | .rcSnapshot _ => .event
  | .rcselWrite _ _ => .event
  | .rcUnitFrameWrite _ _ _ => .event
  | .rcEsrWrite _ _ => .event
  | .rcCvsrWrite _ _ => .event
  | .registerWrite _ _ _ => .event
  | .elementSave _ _ => .event
  | .snapshotClose _ => .event
  | .restore _ => .event
  | .savedTokenInject _ => .event
  | .turnStart _ => .event
  | .turnDrained _ => .event
  | .turnComplete _ => .event
  | .ingressSlotWrite _ _ _ _ => .event
  | .ingressEosWrite _ _ _ => .event
  | .hostWindowAccess _ _ _ _ _ => .event
  | .hostAtomic _ _ _ _ _ => .event
  | .hostBadOffset _ _ => .event
  | .hwjobWrite _ _ => .event
  | .hwbaseWrite _ _ => .event
  | .mgRelease _ => .event
  | .mgPolicy _ => .event
  | .mgFrame _ => .event
  | .mgStandby _ => .event
  | .mgWake _ => .event
  | .wakeComplete => .event
  | .mgPair _ => .event
  | .mgKey _ => .event
  | .mgLog _ => .event
  | .mgDebug _ _ => .event
  | .thcfgWrite _ _ => .event
  | .monitorSample _ => .event
  | .thermalStepUp => .event
  | .packageReset => .event
  | .idleGate _ => .event
  | .illegalCWord _ => .event
  | .fetchFault => .event
  | .uncorrectableError _ => .event
  | .rccmdUnassigned _ _ => .event
  | .mgcmdUnassigned _ _ => .event

/-- Whether an E-word is legal apart from its place (R26 to R29). -/
def eWordOk (w : BitVec 32) : Bool :=
  match eUnused (eopOf w) with
  | none => false
  | some m => decide (w &&& m = 0#32) && eModeOk w &&
      (decide (eopOf w ≠ 0x40 ∨ mFmt w = 4 ∨ mFmt w = 5 ∨ mFmt w = 6) || decide (fEb w = 0#5)) &&
      portsAgree (ePorts w)

/-- Whether an S-word's in and out differ (R33). -/
def sWordOk (i : Instr) : Bool :=
  match i with
  | .routePass o j _ => decide (o ≠ j)
  | .routeHold o j _ => decide (o ≠ j)
  | .routeFanout o j _ => decide (o ≠ j)
  | .routeSeam o j _ => decide (o ≠ j)
  | _ => true

/-- A well-formed instruction: a C-word with every field in its range (cause 0x01) and every operand of its kind (cause
0x02), an E-word that a load accepts (cause 0x08), a route that joins two ports (cause 0x08), or an event. -/
def wellFormed (i : Instr) : Bool :=
  match kindOf i with
  | .cword => fieldsOk i && operandsOk i
  | .eword => eWordOk (encode i)
  | .sword => sWordOk i
  | .event => true

end Sys2Proof
end

