-- ==== Sys2Proof/Laws/Encoding.lean ====
section
/-!
SUPPORT. Laws of the encodings: each field of a packed word reads back as it was packed (R15, R25, R32).
-/

namespace Sys2Proof

@[simp] theorem fMajor_packCR (x0 : BitVec 6) (x1 : BitVec 7) (x2 : BitVec 7) (x3 : BitVec 7) (x4 : BitVec 5) : fMajor (packCR x0 x1 x2 x3 x4) = x0 := by
  simp only [fMajor, packCR]
  ext i hi
  rw [BitVec.getElem_extractLsb']
  change BitVec.getLsbD (w := 6 + 7 + 7 + 7 + 5) (x0 ++ x1 ++ x2 ++ x3 ++ x4) _ = _
  simp only [BitVec.getLsbD_append]
  repeat (first | rw [if_neg (by omega)] | rw [if_pos (by omega)])
  simp only [← BitVec.getLsbD_eq_getElem]
  congr 1
  omega

@[simp] theorem fD_packCR (x0 : BitVec 6) (x1 : BitVec 7) (x2 : BitVec 7) (x3 : BitVec 7) (x4 : BitVec 5) : fD (packCR x0 x1 x2 x3 x4) = x1 := by
  simp only [fD, packCR]
  ext i hi
  rw [BitVec.getElem_extractLsb']
  change BitVec.getLsbD (w := 6 + 7 + 7 + 7 + 5) (x0 ++ x1 ++ x2 ++ x3 ++ x4) _ = _
  simp only [BitVec.getLsbD_append]
  repeat (first | rw [if_neg (by omega)] | rw [if_pos (by omega)])
  simp only [← BitVec.getLsbD_eq_getElem]
  congr 1
  omega

@[simp] theorem fA_packCR (x0 : BitVec 6) (x1 : BitVec 7) (x2 : BitVec 7) (x3 : BitVec 7) (x4 : BitVec 5) : fA (packCR x0 x1 x2 x3 x4) = x2 := by
  simp only [fA, packCR]
  ext i hi
  rw [BitVec.getElem_extractLsb']
  change BitVec.getLsbD (w := 6 + 7 + 7 + 7 + 5) (x0 ++ x1 ++ x2 ++ x3 ++ x4) _ = _
  simp only [BitVec.getLsbD_append]
  repeat (first | rw [if_neg (by omega)] | rw [if_pos (by omega)])
  simp only [← BitVec.getLsbD_eq_getElem]
  congr 1
  omega

@[simp] theorem fB_packCR (x0 : BitVec 6) (x1 : BitVec 7) (x2 : BitVec 7) (x3 : BitVec 7) (x4 : BitVec 5) : fB (packCR x0 x1 x2 x3 x4) = x3 := by
  simp only [fB, packCR]
  ext i hi
  rw [BitVec.getElem_extractLsb']
  change BitVec.getLsbD (w := 6 + 7 + 7 + 7 + 5) (x0 ++ x1 ++ x2 ++ x3 ++ x4) _ = _
  simp only [BitVec.getLsbD_append]
  repeat (first | rw [if_neg (by omega)] | rw [if_pos (by omega)])
  simp only [← BitVec.getLsbD_eq_getElem]
  congr 1
  omega

@[simp] theorem fFn_packCR (x0 : BitVec 6) (x1 : BitVec 7) (x2 : BitVec 7) (x3 : BitVec 7) (x4 : BitVec 5) : fFn (packCR x0 x1 x2 x3 x4) = x4 := by
  simp only [fFn, packCR]
  ext i hi
  rw [BitVec.getElem_extractLsb']
  change BitVec.getLsbD (w := 6 + 7 + 7 + 7 + 5) (x0 ++ x1 ++ x2 ++ x3 ++ x4) _ = _
  simp only [BitVec.getLsbD_append]
  repeat (first | rw [if_neg (by omega)] | rw [if_pos (by omega)])
  simp only [← BitVec.getLsbD_eq_getElem]
  congr 1
  omega

@[simp] theorem fMajor_packCI (x0 : BitVec 6) (x1 : BitVec 7) (x2 : BitVec 7) (x3 : BitVec 12) : fMajor (packCI x0 x1 x2 x3) = x0 := by
  simp only [fMajor, packCI]
  ext i hi
  rw [BitVec.getElem_extractLsb']
  change BitVec.getLsbD (w := 6 + 7 + 7 + 12) (x0 ++ x1 ++ x2 ++ x3) _ = _
  simp only [BitVec.getLsbD_append]
  repeat (first | rw [if_neg (by omega)] | rw [if_pos (by omega)])
  simp only [← BitVec.getLsbD_eq_getElem]
  congr 1
  omega

@[simp] theorem fD_packCI (x0 : BitVec 6) (x1 : BitVec 7) (x2 : BitVec 7) (x3 : BitVec 12) : fD (packCI x0 x1 x2 x3) = x1 := by
  simp only [fD, packCI]
  ext i hi
  rw [BitVec.getElem_extractLsb']
  change BitVec.getLsbD (w := 6 + 7 + 7 + 12) (x0 ++ x1 ++ x2 ++ x3) _ = _
  simp only [BitVec.getLsbD_append]
  repeat (first | rw [if_neg (by omega)] | rw [if_pos (by omega)])
  simp only [← BitVec.getLsbD_eq_getElem]
  congr 1
  omega

@[simp] theorem fA_packCI (x0 : BitVec 6) (x1 : BitVec 7) (x2 : BitVec 7) (x3 : BitVec 12) : fA (packCI x0 x1 x2 x3) = x2 := by
  simp only [fA, packCI]
  ext i hi
  rw [BitVec.getElem_extractLsb']
  change BitVec.getLsbD (w := 6 + 7 + 7 + 12) (x0 ++ x1 ++ x2 ++ x3) _ = _
  simp only [BitVec.getLsbD_append]
  repeat (first | rw [if_neg (by omega)] | rw [if_pos (by omega)])
  simp only [← BitVec.getLsbD_eq_getElem]
  congr 1
  omega

@[simp] theorem fI12_packCI (x0 : BitVec 6) (x1 : BitVec 7) (x2 : BitVec 7) (x3 : BitVec 12) : fI12 (packCI x0 x1 x2 x3) = x3 := by
  simp only [fI12, packCI]
  ext i hi
  rw [BitVec.getElem_extractLsb']
  change BitVec.getLsbD (w := 6 + 7 + 7 + 12) (x0 ++ x1 ++ x2 ++ x3) _ = _
  simp only [BitVec.getLsbD_append]
  repeat (first | rw [if_neg (by omega)] | rw [if_pos (by omega)])
  simp only [← BitVec.getLsbD_eq_getElem]
  congr 1
  omega

@[simp] theorem fMajor_packCL (x0 : BitVec 6) (x1 : BitVec 7) (x2 : BitVec 19) : fMajor (packCL x0 x1 x2) = x0 := by
  simp only [fMajor, packCL]
  ext i hi
  rw [BitVec.getElem_extractLsb']
  change BitVec.getLsbD (w := 6 + 7 + 19) (x0 ++ x1 ++ x2) _ = _
  simp only [BitVec.getLsbD_append]
  repeat (first | rw [if_neg (by omega)] | rw [if_pos (by omega)])
  simp only [← BitVec.getLsbD_eq_getElem]
  congr 1
  omega

@[simp] theorem fD_packCL (x0 : BitVec 6) (x1 : BitVec 7) (x2 : BitVec 19) : fD (packCL x0 x1 x2) = x1 := by
  simp only [fD, packCL]
  ext i hi
  rw [BitVec.getElem_extractLsb']
  change BitVec.getLsbD (w := 6 + 7 + 19) (x0 ++ x1 ++ x2) _ = _
  simp only [BitVec.getLsbD_append]
  repeat (first | rw [if_neg (by omega)] | rw [if_pos (by omega)])
  simp only [← BitVec.getLsbD_eq_getElem]
  congr 1
  omega

@[simp] theorem fI19_packCL (x0 : BitVec 6) (x1 : BitVec 7) (x2 : BitVec 19) : fI19 (packCL x0 x1 x2) = x2 := by
  simp only [fI19, packCL]
  ext i hi
  rw [BitVec.getElem_extractLsb']
  change BitVec.getLsbD (w := 6 + 7 + 19) (x0 ++ x1 ++ x2) _ = _
  simp only [BitVec.getLsbD_append]
  repeat (first | rw [if_neg (by omega)] | rw [if_pos (by omega)])
  simp only [← BitVec.getLsbD_eq_getElem]
  congr 1
  omega

@[simp] theorem fMajor_packCB (x0 : BitVec 6) (x1 : BitVec 1) (x2 : BitVec 3) (x3 : BitVec 22) : fMajor (packCB x0 x1 x2 x3) = x0 := by
  simp only [fMajor, packCB]
  ext i hi
  rw [BitVec.getElem_extractLsb']
  change BitVec.getLsbD (w := 6 + 1 + 3 + 22) (x0 ++ x1 ++ x2 ++ x3) _ = _
  simp only [BitVec.getLsbD_append]
  repeat (first | rw [if_neg (by omega)] | rw [if_pos (by omega)])
  simp only [← BitVec.getLsbD_eq_getElem]
  congr 1
  omega

@[simp] theorem fNeg_packCB (x0 : BitVec 6) (x1 : BitVec 1) (x2 : BitVec 3) (x3 : BitVec 22) : fNeg (packCB x0 x1 x2 x3) = x1 := by
  simp only [fNeg, packCB]
  ext i hi
  rw [BitVec.getElem_extractLsb']
  change BitVec.getLsbD (w := 6 + 1 + 3 + 22) (x0 ++ x1 ++ x2 ++ x3) _ = _
  simp only [BitVec.getLsbD_append]
  repeat (first | rw [if_neg (by omega)] | rw [if_pos (by omega)])
  simp only [← BitVec.getLsbD_eq_getElem]
  congr 1
  omega

@[simp] theorem fP_packCB (x0 : BitVec 6) (x1 : BitVec 1) (x2 : BitVec 3) (x3 : BitVec 22) : fP (packCB x0 x1 x2 x3) = x2 := by
  simp only [fP, packCB]
  ext i hi
  rw [BitVec.getElem_extractLsb']
  change BitVec.getLsbD (w := 6 + 1 + 3 + 22) (x0 ++ x1 ++ x2 ++ x3) _ = _
  simp only [BitVec.getLsbD_append]
  repeat (first | rw [if_neg (by omega)] | rw [if_pos (by omega)])
  simp only [← BitVec.getLsbD_eq_getElem]
  congr 1
  omega

@[simp] theorem fO22_packCB (x0 : BitVec 6) (x1 : BitVec 1) (x2 : BitVec 3) (x3 : BitVec 22) : fO22 (packCB x0 x1 x2 x3) = x3 := by
  simp only [fO22, packCB]
  ext i hi
  rw [BitVec.getElem_extractLsb']
  change BitVec.getLsbD (w := 6 + 1 + 3 + 22) (x0 ++ x1 ++ x2 ++ x3) _ = _
  simp only [BitVec.getLsbD_append]
  repeat (first | rw [if_neg (by omega)] | rw [if_pos (by omega)])
  simp only [← BitVec.getLsbD_eq_getElem]
  congr 1
  omega

@[simp] theorem fMajor_packCZ (x0 : BitVec 6) (x1 : BitVec 7) (x2 : BitVec 1) (x3 : BitVec 18) : fMajor (packCZ x0 x1 x2 x3) = x0 := by
  simp only [fMajor, packCZ]
  ext i hi
  rw [BitVec.getElem_extractLsb']
  change BitVec.getLsbD (w := 6 + 7 + 1 + 18) (x0 ++ x1 ++ x2 ++ x3) _ = _
  simp only [BitVec.getLsbD_append]
  repeat (first | rw [if_neg (by omega)] | rw [if_pos (by omega)])
  simp only [← BitVec.getLsbD_eq_getElem]
  congr 1
  omega

@[simp] theorem fD_packCZ (x0 : BitVec 6) (x1 : BitVec 7) (x2 : BitVec 1) (x3 : BitVec 18) : fD (packCZ x0 x1 x2 x3) = x1 := by
  simp only [fD, packCZ]
  ext i hi
  rw [BitVec.getElem_extractLsb']
  change BitVec.getLsbD (w := 6 + 7 + 1 + 18) (x0 ++ x1 ++ x2 ++ x3) _ = _
  simp only [BitVec.getLsbD_append]
  repeat (first | rw [if_neg (by omega)] | rw [if_pos (by omega)])
  simp only [← BitVec.getLsbD_eq_getElem]
  congr 1
  omega

@[simp] theorem fNz_packCZ (x0 : BitVec 6) (x1 : BitVec 7) (x2 : BitVec 1) (x3 : BitVec 18) : fNz (packCZ x0 x1 x2 x3) = x2 := by
  simp only [fNz, packCZ]
  ext i hi
  rw [BitVec.getElem_extractLsb']
  change BitVec.getLsbD (w := 6 + 7 + 1 + 18) (x0 ++ x1 ++ x2 ++ x3) _ = _
  simp only [BitVec.getLsbD_append]
  repeat (first | rw [if_neg (by omega)] | rw [if_pos (by omega)])
  simp only [← BitVec.getLsbD_eq_getElem]
  congr 1
  omega

@[simp] theorem fO18_packCZ (x0 : BitVec 6) (x1 : BitVec 7) (x2 : BitVec 1) (x3 : BitVec 18) : fO18 (packCZ x0 x1 x2 x3) = x3 := by
  simp only [fO18, packCZ]
  ext i hi
  rw [BitVec.getElem_extractLsb']
  change BitVec.getLsbD (w := 6 + 7 + 1 + 18) (x0 ++ x1 ++ x2 ++ x3) _ = _
  simp only [BitVec.getLsbD_append]
  repeat (first | rw [if_neg (by omega)] | rw [if_pos (by omega)])
  simp only [← BitVec.getLsbD_eq_getElem]
  congr 1
  omega

@[simp] theorem fMajor_packCM (x0 : BitVec 6) (x1 : BitVec 7) (x2 : BitVec 7) (x3 : BitVec 2) (x4 : BitVec 3) (x5 : BitVec 7) : fMajor (packCM x0 x1 x2 x3 x4 x5) = x0 := by
  simp only [fMajor, packCM]
  ext i hi
  rw [BitVec.getElem_extractLsb']
  change BitVec.getLsbD (w := 6 + 7 + 7 + 2 + 3 + 7) (x0 ++ x1 ++ x2 ++ x3 ++ x4 ++ x5) _ = _
  simp only [BitVec.getLsbD_append]
  repeat (first | rw [if_neg (by omega)] | rw [if_pos (by omega)])
  simp only [← BitVec.getLsbD_eq_getElem]
  congr 1
  omega

@[simp] theorem fD_packCM (x0 : BitVec 6) (x1 : BitVec 7) (x2 : BitVec 7) (x3 : BitVec 2) (x4 : BitVec 3) (x5 : BitVec 7) : fD (packCM x0 x1 x2 x3 x4 x5) = x1 := by
  simp only [fD, packCM]
  ext i hi
  rw [BitVec.getElem_extractLsb']
  change BitVec.getLsbD (w := 6 + 7 + 7 + 2 + 3 + 7) (x0 ++ x1 ++ x2 ++ x3 ++ x4 ++ x5) _ = _
  simp only [BitVec.getLsbD_append]
  repeat (first | rw [if_neg (by omega)] | rw [if_pos (by omega)])
  simp only [← BitVec.getLsbD_eq_getElem]
  congr 1
  omega

@[simp] theorem fA_packCM (x0 : BitVec 6) (x1 : BitVec 7) (x2 : BitVec 7) (x3 : BitVec 2) (x4 : BitVec 3) (x5 : BitVec 7) : fA (packCM x0 x1 x2 x3 x4 x5) = x2 := by
  simp only [fA, packCM]
  ext i hi
  rw [BitVec.getElem_extractLsb']
  change BitVec.getLsbD (w := 6 + 7 + 7 + 2 + 3 + 7) (x0 ++ x1 ++ x2 ++ x3 ++ x4 ++ x5) _ = _
  simp only [BitVec.getLsbD_append]
  repeat (first | rw [if_neg (by omega)] | rw [if_pos (by omega)])
  simp only [← BitVec.getLsbD_eq_getElem]
  congr 1
  omega

@[simp] theorem fSz_packCM (x0 : BitVec 6) (x1 : BitVec 7) (x2 : BitVec 7) (x3 : BitVec 2) (x4 : BitVec 3) (x5 : BitVec 7) : fSz (packCM x0 x1 x2 x3 x4 x5) = x3 := by
  simp only [fSz, packCM]
  ext i hi
  rw [BitVec.getElem_extractLsb']
  change BitVec.getLsbD (w := 6 + 7 + 7 + 2 + 3 + 7) (x0 ++ x1 ++ x2 ++ x3 ++ x4 ++ x5) _ = _
  simp only [BitVec.getLsbD_append]
  repeat (first | rw [if_neg (by omega)] | rw [if_pos (by omega)])
  simp only [← BitVec.getLsbD_eq_getElem]
  congr 1
  omega

@[simp] theorem fSc_packCM (x0 : BitVec 6) (x1 : BitVec 7) (x2 : BitVec 7) (x3 : BitVec 2) (x4 : BitVec 3) (x5 : BitVec 7) : fSc (packCM x0 x1 x2 x3 x4 x5) = x4 := by
  simp only [fSc, packCM]
  ext i hi
  rw [BitVec.getElem_extractLsb']
  change BitVec.getLsbD (w := 6 + 7 + 7 + 2 + 3 + 7) (x0 ++ x1 ++ x2 ++ x3 ++ x4 ++ x5) _ = _
  simp only [BitVec.getLsbD_append]
  repeat (first | rw [if_neg (by omega)] | rw [if_pos (by omega)])
  simp only [← BitVec.getLsbD_eq_getElem]
  congr 1
  omega

@[simp] theorem fO7_packCM (x0 : BitVec 6) (x1 : BitVec 7) (x2 : BitVec 7) (x3 : BitVec 2) (x4 : BitVec 3) (x5 : BitVec 7) : fO7 (packCM x0 x1 x2 x3 x4 x5) = x5 := by
  simp only [fO7, packCM]
  ext i hi
  rw [BitVec.getElem_extractLsb']
  change BitVec.getLsbD (w := 6 + 7 + 7 + 2 + 3 + 7) (x0 ++ x1 ++ x2 ++ x3 ++ x4 ++ x5) _ = _
  simp only [BitVec.getLsbD_append]
  repeat (first | rw [if_neg (by omega)] | rw [if_pos (by omega)])
  simp only [← BitVec.getLsbD_eq_getElem]
  congr 1
  omega

@[simp] theorem fMajor_packCX (x0 : BitVec 6) (x1 : BitVec 6) (x2 : BitVec 7) (x3 : BitVec 7) (x4 : BitVec 6) : fMajor (packCX x0 x1 x2 x3 x4) = x0 := by
  simp only [fMajor, packCX]
  ext i hi
  rw [BitVec.getElem_extractLsb']
  change BitVec.getLsbD (w := 6 + 6 + 7 + 7 + 6) (x0 ++ x1 ++ x2 ++ x3 ++ x4) _ = _
  simp only [BitVec.getLsbD_append]
  repeat (first | rw [if_neg (by omega)] | rw [if_pos (by omega)])
  simp only [← BitVec.getLsbD_eq_getElem]
  congr 1
  omega

@[simp] theorem fFn6_packCX (x0 : BitVec 6) (x1 : BitVec 6) (x2 : BitVec 7) (x3 : BitVec 7) (x4 : BitVec 6) : fFn6 (packCX x0 x1 x2 x3 x4) = x1 := by
  simp only [fFn6, packCX]
  ext i hi
  rw [BitVec.getElem_extractLsb']
  change BitVec.getLsbD (w := 6 + 6 + 7 + 7 + 6) (x0 ++ x1 ++ x2 ++ x3 ++ x4) _ = _
  simp only [BitVec.getLsbD_append]
  repeat (first | rw [if_neg (by omega)] | rw [if_pos (by omega)])
  simp only [← BitVec.getLsbD_eq_getElem]
  congr 1
  omega

@[simp] theorem fXa_packCX (x0 : BitVec 6) (x1 : BitVec 6) (x2 : BitVec 7) (x3 : BitVec 7) (x4 : BitVec 6) : fXa (packCX x0 x1 x2 x3 x4) = x2 := by
  simp only [fXa, packCX]
  ext i hi
  rw [BitVec.getElem_extractLsb']
  change BitVec.getLsbD (w := 6 + 6 + 7 + 7 + 6) (x0 ++ x1 ++ x2 ++ x3 ++ x4) _ = _
  simp only [BitVec.getLsbD_append]
  repeat (first | rw [if_neg (by omega)] | rw [if_pos (by omega)])
  simp only [← BitVec.getLsbD_eq_getElem]
  congr 1
  omega

@[simp] theorem fXb_packCX (x0 : BitVec 6) (x1 : BitVec 6) (x2 : BitVec 7) (x3 : BitVec 7) (x4 : BitVec 6) : fXb (packCX x0 x1 x2 x3 x4) = x3 := by
  simp only [fXb, packCX]
  ext i hi
  rw [BitVec.getElem_extractLsb']
  change BitVec.getLsbD (w := 6 + 6 + 7 + 7 + 6) (x0 ++ x1 ++ x2 ++ x3 ++ x4) _ = _
  simp only [BitVec.getLsbD_append]
  repeat (first | rw [if_neg (by omega)] | rw [if_pos (by omega)])
  simp only [← BitVec.getLsbD_eq_getElem]
  congr 1
  omega

@[simp] theorem fI6_packCX (x0 : BitVec 6) (x1 : BitVec 6) (x2 : BitVec 7) (x3 : BitVec 7) (x4 : BitVec 6) : fI6 (packCX x0 x1 x2 x3 x4) = x4 := by
  simp only [fI6, packCX]
  ext i hi
  rw [BitVec.getElem_extractLsb']
  change BitVec.getLsbD (w := 6 + 6 + 7 + 7 + 6) (x0 ++ x1 ++ x2 ++ x3 ++ x4) _ = _
  simp only [BitVec.getLsbD_append]
  repeat (first | rw [if_neg (by omega)] | rw [if_pos (by omega)])
  simp only [← BitVec.getLsbD_eq_getElem]
  congr 1
  omega

@[simp] theorem fEop_packE (x0 : BitVec 8) (x1 : BitVec 5) (x2 : BitVec 5) (x3 : BitVec 5) (x4 : BitVec 9) : fEop (packE x0 x1 x2 x3 x4) = x0 := by
  simp only [fEop, packE]
  ext i hi
  rw [BitVec.getElem_extractLsb']
  change BitVec.getLsbD (w := 8 + 5 + 5 + 5 + 9) (x0 ++ x1 ++ x2 ++ x3 ++ x4) _ = _
  simp only [BitVec.getLsbD_append]
  repeat (first | rw [if_neg (by omega)] | rw [if_pos (by omega)])
  simp only [← BitVec.getLsbD_eq_getElem]
  congr 1
  omega

@[simp] theorem fEa_packE (x0 : BitVec 8) (x1 : BitVec 5) (x2 : BitVec 5) (x3 : BitVec 5) (x4 : BitVec 9) : fEa (packE x0 x1 x2 x3 x4) = x1 := by
  simp only [fEa, packE]
  ext i hi
  rw [BitVec.getElem_extractLsb']
  change BitVec.getLsbD (w := 8 + 5 + 5 + 5 + 9) (x0 ++ x1 ++ x2 ++ x3 ++ x4) _ = _
  simp only [BitVec.getLsbD_append]
  repeat (first | rw [if_neg (by omega)] | rw [if_pos (by omega)])
  simp only [← BitVec.getLsbD_eq_getElem]
  congr 1
  omega

@[simp] theorem fEb_packE (x0 : BitVec 8) (x1 : BitVec 5) (x2 : BitVec 5) (x3 : BitVec 5) (x4 : BitVec 9) : fEb (packE x0 x1 x2 x3 x4) = x2 := by
  simp only [fEb, packE]
  ext i hi
  rw [BitVec.getElem_extractLsb']
  change BitVec.getLsbD (w := 8 + 5 + 5 + 5 + 9) (x0 ++ x1 ++ x2 ++ x3 ++ x4) _ = _
  simp only [BitVec.getLsbD_append]
  repeat (first | rw [if_neg (by omega)] | rw [if_pos (by omega)])
  simp only [← BitVec.getLsbD_eq_getElem]
  congr 1
  omega

@[simp] theorem fEc_packE (x0 : BitVec 8) (x1 : BitVec 5) (x2 : BitVec 5) (x3 : BitVec 5) (x4 : BitVec 9) : fEc (packE x0 x1 x2 x3 x4) = x3 := by
  simp only [fEc, packE]
  ext i hi
  rw [BitVec.getElem_extractLsb']
  change BitVec.getLsbD (w := 8 + 5 + 5 + 5 + 9) (x0 ++ x1 ++ x2 ++ x3 ++ x4) _ = _
  simp only [BitVec.getLsbD_append]
  repeat (first | rw [if_neg (by omega)] | rw [if_pos (by omega)])
  simp only [← BitVec.getLsbD_eq_getElem]
  congr 1
  omega

@[simp] theorem fMode_packE (x0 : BitVec 8) (x1 : BitVec 5) (x2 : BitVec 5) (x3 : BitVec 5) (x4 : BitVec 9) : fMode (packE x0 x1 x2 x3 x4) = x4 := by
  simp only [fMode, packE]
  ext i hi
  rw [BitVec.getElem_extractLsb']
  change BitVec.getLsbD (w := 8 + 5 + 5 + 5 + 9) (x0 ++ x1 ++ x2 ++ x3 ++ x4) _ = _
  simp only [BitVec.getLsbD_append]
  repeat (first | rw [if_neg (by omega)] | rw [if_pos (by omega)])
  simp only [← BitVec.getLsbD_eq_getElem]
  congr 1
  omega

@[simp] theorem fSo_packS (x0 : BitVec 4) (x1 : BitVec 4) (x2 : BitVec 3) (x3 : BitVec 2) (x4 : BitVec 3) : fSo (packS x0 x1 x2 x3 x4) = x0 := by
  simp only [fSo, packS]
  ext i hi
  rw [BitVec.getElem_extractLsb']
  change BitVec.getLsbD (w := 4 + 4 + 3 + 2 + 3) (x0 ++ x1 ++ x2 ++ x3 ++ x4) _ = _
  simp only [BitVec.getLsbD_append]
  repeat (first | rw [if_neg (by omega)] | rw [if_pos (by omega)])
  simp only [← BitVec.getLsbD_eq_getElem]
  congr 1
  omega

@[simp] theorem fSi_packS (x0 : BitVec 4) (x1 : BitVec 4) (x2 : BitVec 3) (x3 : BitVec 2) (x4 : BitVec 3) : fSi (packS x0 x1 x2 x3 x4) = x1 := by
  simp only [fSi, packS]
  ext i hi
  rw [BitVec.getElem_extractLsb']
  change BitVec.getLsbD (w := 4 + 4 + 3 + 2 + 3) (x0 ++ x1 ++ x2 ++ x3 ++ x4) _ = _
  simp only [BitVec.getLsbD_append]
  repeat (first | rw [if_neg (by omega)] | rw [if_pos (by omega)])
  simp only [← BitVec.getLsbD_eq_getElem]
  congr 1
  omega

@[simp] theorem fSm_packS (x0 : BitVec 4) (x1 : BitVec 4) (x2 : BitVec 3) (x3 : BitVec 2) (x4 : BitVec 3) : fSm (packS x0 x1 x2 x3 x4) = x2 := by
  simp only [fSm, packS]
  ext i hi
  rw [BitVec.getElem_extractLsb']
  change BitVec.getLsbD (w := 4 + 4 + 3 + 2 + 3) (x0 ++ x1 ++ x2 ++ x3 ++ x4) _ = _
  simp only [BitVec.getLsbD_append]
  repeat (first | rw [if_neg (by omega)] | rw [if_pos (by omega)])
  simp only [← BitVec.getLsbD_eq_getElem]
  congr 1
  omega

@[simp] theorem fSx_packS (x0 : BitVec 4) (x1 : BitVec 4) (x2 : BitVec 3) (x3 : BitVec 2) (x4 : BitVec 3) : fSx (packS x0 x1 x2 x3 x4) = x3 := by
  simp only [fSx, packS]
  ext i hi
  rw [BitVec.getElem_extractLsb']
  change BitVec.getLsbD (w := 4 + 4 + 3 + 2 + 3) (x0 ++ x1 ++ x2 ++ x3 ++ x4) _ = _
  simp only [BitVec.getLsbD_append]
  repeat (first | rw [if_neg (by omega)] | rw [if_pos (by omega)])
  simp only [← BitVec.getLsbD_eq_getElem]
  congr 1
  omega

@[simp] theorem fSz0_packS (x0 : BitVec 4) (x1 : BitVec 4) (x2 : BitVec 3) (x3 : BitVec 2) (x4 : BitVec 3) : fSz0 (packS x0 x1 x2 x3 x4) = x4 := by
  simp only [fSz0, packS]
  ext i hi
  rw [BitVec.getElem_extractLsb']
  change BitVec.getLsbD (w := 4 + 4 + 3 + 2 + 3) (x0 ++ x1 ++ x2 ++ x3 ++ x4) _ = _
  simp only [BitVec.getLsbD_append]
  repeat (first | rw [if_neg (by omega)] | rw [if_pos (by omega)])
  simp only [← BitVec.getLsbD_eq_getElem]
  congr 1
  omega

/-! ## Fields packed of smaller ones (R16, R27, R28) -/

@[simp] theorem part0_of_1_5 (x0 : BitVec 1) (x1 : BitVec 5) : BitVec.extractLsb' (n := 6) 5 1 (x0 ++ x1) = x0 := by
  ext i hi
  rw [BitVec.getElem_extractLsb']
  change BitVec.getLsbD (w := 1 + 5) (x0 ++ x1) _ = _
  simp only [BitVec.getLsbD_append]
  repeat (first | rw [if_neg (by omega)] | rw [if_pos (by omega)])
  simp only [← BitVec.getLsbD_eq_getElem]
  congr 1
  omega

@[simp] theorem part1_of_1_5 (x0 : BitVec 1) (x1 : BitVec 5) : BitVec.extractLsb' (n := 6) 0 5 (x0 ++ x1) = x1 := by
  ext i hi
  rw [BitVec.getElem_extractLsb']
  change BitVec.getLsbD (w := 1 + 5) (x0 ++ x1) _ = _
  simp only [BitVec.getLsbD_append]
  repeat (first | rw [if_neg (by omega)] | rw [if_pos (by omega)])
  simp only [← BitVec.getLsbD_eq_getElem]
  congr 1
  omega

@[simp] theorem part0_of_2_1_1_2 (x0 : BitVec 2) (x1 : BitVec 1) (x2 : BitVec 1) (x3 : BitVec 2) : BitVec.extractLsb' (n := 6) 4 2 (x0 ++ x1 ++ x2 ++ x3) = x0 := by
  ext i hi
  rw [BitVec.getElem_extractLsb']
  change BitVec.getLsbD (w := 2 + 1 + 1 + 2) (x0 ++ x1 ++ x2 ++ x3) _ = _
  simp only [BitVec.getLsbD_append]
  repeat (first | rw [if_neg (by omega)] | rw [if_pos (by omega)])
  simp only [← BitVec.getLsbD_eq_getElem]
  congr 1
  omega

@[simp] theorem part1_of_2_1_1_2 (x0 : BitVec 2) (x1 : BitVec 1) (x2 : BitVec 1) (x3 : BitVec 2) : BitVec.extractLsb' (n := 6) 3 1 (x0 ++ x1 ++ x2 ++ x3) = x1 := by
  ext i hi
  rw [BitVec.getElem_extractLsb']
  change BitVec.getLsbD (w := 2 + 1 + 1 + 2) (x0 ++ x1 ++ x2 ++ x3) _ = _
  simp only [BitVec.getLsbD_append]
  repeat (first | rw [if_neg (by omega)] | rw [if_pos (by omega)])
  simp only [← BitVec.getLsbD_eq_getElem]
  congr 1
  omega

@[simp] theorem part2_of_2_1_1_2 (x0 : BitVec 2) (x1 : BitVec 1) (x2 : BitVec 1) (x3 : BitVec 2) : BitVec.extractLsb' (n := 6) 2 1 (x0 ++ x1 ++ x2 ++ x3) = x2 := by
  ext i hi
  rw [BitVec.getElem_extractLsb']
  change BitVec.getLsbD (w := 2 + 1 + 1 + 2) (x0 ++ x1 ++ x2 ++ x3) _ = _
  simp only [BitVec.getLsbD_append]
  repeat (first | rw [if_neg (by omega)] | rw [if_pos (by omega)])
  simp only [← BitVec.getLsbD_eq_getElem]
  congr 1
  omega

@[simp] theorem part3_of_2_1_1_2 (x0 : BitVec 2) (x1 : BitVec 1) (x2 : BitVec 1) (x3 : BitVec 2) : BitVec.extractLsb' (n := 6) 0 2 (x0 ++ x1 ++ x2 ++ x3) = x3 := by
  ext i hi
  rw [BitVec.getElem_extractLsb']
  change BitVec.getLsbD (w := 2 + 1 + 1 + 2) (x0 ++ x1 ++ x2 ++ x3) _ = _
  simp only [BitVec.getLsbD_append]
  repeat (first | rw [if_neg (by omega)] | rw [if_pos (by omega)])
  simp only [← BitVec.getLsbD_eq_getElem]
  congr 1
  omega

@[simp] theorem part0_of_2_3 (x0 : BitVec 2) (x1 : BitVec 3) : BitVec.extractLsb' (n := 5) 3 2 (x0 ++ x1) = x0 := by
  ext i hi
  rw [BitVec.getElem_extractLsb']
  change BitVec.getLsbD (w := 2 + 3) (x0 ++ x1) _ = _
  simp only [BitVec.getLsbD_append]
  repeat (first | rw [if_neg (by omega)] | rw [if_pos (by omega)])
  simp only [← BitVec.getLsbD_eq_getElem]
  congr 1
  omega

@[simp] theorem part1_of_2_3 (x0 : BitVec 2) (x1 : BitVec 3) : BitVec.extractLsb' (n := 5) 0 3 (x0 ++ x1) = x1 := by
  ext i hi
  rw [BitVec.getElem_extractLsb']
  change BitVec.getLsbD (w := 2 + 3) (x0 ++ x1) _ = _
  simp only [BitVec.getLsbD_append]
  repeat (first | rw [if_neg (by omega)] | rw [if_pos (by omega)])
  simp only [← BitVec.getLsbD_eq_getElem]
  congr 1
  omega

@[simp] theorem part0_of_2_4 (x0 : BitVec 2) (x1 : BitVec 4) : BitVec.extractLsb' (n := 6) 4 2 (x0 ++ x1) = x0 := by
  ext i hi
  rw [BitVec.getElem_extractLsb']
  change BitVec.getLsbD (w := 2 + 4) (x0 ++ x1) _ = _
  simp only [BitVec.getLsbD_append]
  repeat (first | rw [if_neg (by omega)] | rw [if_pos (by omega)])
  simp only [← BitVec.getLsbD_eq_getElem]
  congr 1
  omega

@[simp] theorem part1_of_2_4 (x0 : BitVec 2) (x1 : BitVec 4) : BitVec.extractLsb' (n := 6) 0 4 (x0 ++ x1) = x1 := by
  ext i hi
  rw [BitVec.getElem_extractLsb']
  change BitVec.getLsbD (w := 2 + 4) (x0 ++ x1) _ = _
  simp only [BitVec.getLsbD_append]
  repeat (first | rw [if_neg (by omega)] | rw [if_pos (by omega)])
  simp only [← BitVec.getLsbD_eq_getElem]
  congr 1
  omega

@[simp] theorem part0_of_3_1_2 (x0 : BitVec 3) (x1 : BitVec 1) (x2 : BitVec 2) : BitVec.extractLsb' (n := 6) 3 3 (x0 ++ x1 ++ x2) = x0 := by
  ext i hi
  rw [BitVec.getElem_extractLsb']
  change BitVec.getLsbD (w := 3 + 1 + 2) (x0 ++ x1 ++ x2) _ = _
  simp only [BitVec.getLsbD_append]
  repeat (first | rw [if_neg (by omega)] | rw [if_pos (by omega)])
  simp only [← BitVec.getLsbD_eq_getElem]
  congr 1
  omega

@[simp] theorem part1_of_3_1_2 (x0 : BitVec 3) (x1 : BitVec 1) (x2 : BitVec 2) : BitVec.extractLsb' (n := 6) 2 1 (x0 ++ x1 ++ x2) = x1 := by
  ext i hi
  rw [BitVec.getElem_extractLsb']
  change BitVec.getLsbD (w := 3 + 1 + 2) (x0 ++ x1 ++ x2) _ = _
  simp only [BitVec.getLsbD_append]
  repeat (first | rw [if_neg (by omega)] | rw [if_pos (by omega)])
  simp only [← BitVec.getLsbD_eq_getElem]
  congr 1
  omega

@[simp] theorem part2_of_3_1_2 (x0 : BitVec 3) (x1 : BitVec 1) (x2 : BitVec 2) : BitVec.extractLsb' (n := 6) 0 2 (x0 ++ x1 ++ x2) = x2 := by
  ext i hi
  rw [BitVec.getElem_extractLsb']
  change BitVec.getLsbD (w := 3 + 1 + 2) (x0 ++ x1 ++ x2) _ = _
  simp only [BitVec.getLsbD_append]
  repeat (first | rw [if_neg (by omega)] | rw [if_pos (by omega)])
  simp only [← BitVec.getLsbD_eq_getElem]
  congr 1
  omega

@[simp] theorem part0_of_3_2_3_1 (x0 : BitVec 3) (x1 : BitVec 2) (x2 : BitVec 3) (x3 : BitVec 1) : BitVec.extractLsb' (n := 9) 6 3 (x0 ++ x1 ++ x2 ++ x3) = x0 := by
  ext i hi
  rw [BitVec.getElem_extractLsb']
  change BitVec.getLsbD (w := 3 + 2 + 3 + 1) (x0 ++ x1 ++ x2 ++ x3) _ = _
  simp only [BitVec.getLsbD_append]
  repeat (first | rw [if_neg (by omega)] | rw [if_pos (by omega)])
  simp only [← BitVec.getLsbD_eq_getElem]
  congr 1
  omega

@[simp] theorem part1_of_3_2_3_1 (x0 : BitVec 3) (x1 : BitVec 2) (x2 : BitVec 3) (x3 : BitVec 1) : BitVec.extractLsb' (n := 9) 4 2 (x0 ++ x1 ++ x2 ++ x3) = x1 := by
  ext i hi
  rw [BitVec.getElem_extractLsb']
  change BitVec.getLsbD (w := 3 + 2 + 3 + 1) (x0 ++ x1 ++ x2 ++ x3) _ = _
  simp only [BitVec.getLsbD_append]
  repeat (first | rw [if_neg (by omega)] | rw [if_pos (by omega)])
  simp only [← BitVec.getLsbD_eq_getElem]
  congr 1
  omega

@[simp] theorem part2_of_3_2_3_1 (x0 : BitVec 3) (x1 : BitVec 2) (x2 : BitVec 3) (x3 : BitVec 1) : BitVec.extractLsb' (n := 9) 1 3 (x0 ++ x1 ++ x2 ++ x3) = x2 := by
  ext i hi
  rw [BitVec.getElem_extractLsb']
  change BitVec.getLsbD (w := 3 + 2 + 3 + 1) (x0 ++ x1 ++ x2 ++ x3) _ = _
  simp only [BitVec.getLsbD_append]
  repeat (first | rw [if_neg (by omega)] | rw [if_pos (by omega)])
  simp only [← BitVec.getLsbD_eq_getElem]
  congr 1
  omega

@[simp] theorem part3_of_3_2_3_1 (x0 : BitVec 3) (x1 : BitVec 2) (x2 : BitVec 3) (x3 : BitVec 1) : BitVec.extractLsb' (n := 9) 0 1 (x0 ++ x1 ++ x2 ++ x3) = x3 := by
  ext i hi
  rw [BitVec.getElem_extractLsb']
  change BitVec.getLsbD (w := 3 + 2 + 3 + 1) (x0 ++ x1 ++ x2 ++ x3) _ = _
  simp only [BitVec.getLsbD_append]
  repeat (first | rw [if_neg (by omega)] | rw [if_pos (by omega)])
  simp only [← BitVec.getLsbD_eq_getElem]
  congr 1
  omega

@[simp] theorem part0_of_3_2_4 (x0 : BitVec 3) (x1 : BitVec 2) (x2 : BitVec 4) : BitVec.extractLsb' (n := 9) 6 3 (x0 ++ x1 ++ x2) = x0 := by
  ext i hi
  rw [BitVec.getElem_extractLsb']
  change BitVec.getLsbD (w := 3 + 2 + 4) (x0 ++ x1 ++ x2) _ = _
  simp only [BitVec.getLsbD_append]
  repeat (first | rw [if_neg (by omega)] | rw [if_pos (by omega)])
  simp only [← BitVec.getLsbD_eq_getElem]
  congr 1
  omega

@[simp] theorem part1_of_3_2_4 (x0 : BitVec 3) (x1 : BitVec 2) (x2 : BitVec 4) : BitVec.extractLsb' (n := 9) 4 2 (x0 ++ x1 ++ x2) = x1 := by
  ext i hi
  rw [BitVec.getElem_extractLsb']
  change BitVec.getLsbD (w := 3 + 2 + 4) (x0 ++ x1 ++ x2) _ = _
  simp only [BitVec.getLsbD_append]
  repeat (first | rw [if_neg (by omega)] | rw [if_pos (by omega)])
  simp only [← BitVec.getLsbD_eq_getElem]
  congr 1
  omega

@[simp] theorem part2_of_3_2_4 (x0 : BitVec 3) (x1 : BitVec 2) (x2 : BitVec 4) : BitVec.extractLsb' (n := 9) 0 4 (x0 ++ x1 ++ x2) = x2 := by
  ext i hi
  rw [BitVec.getElem_extractLsb']
  change BitVec.getLsbD (w := 3 + 2 + 4) (x0 ++ x1 ++ x2) _ = _
  simp only [BitVec.getLsbD_append]
  repeat (first | rw [if_neg (by omega)] | rw [if_pos (by omega)])
  simp only [← BitVec.getLsbD_eq_getElem]
  congr 1
  omega

@[simp] theorem part0_of_3_3_2_1 (x0 : BitVec 3) (x1 : BitVec 3) (x2 : BitVec 2) (x3 : BitVec 1) : BitVec.extractLsb' (n := 9) 6 3 (x0 ++ x1 ++ x2 ++ x3) = x0 := by
  ext i hi
  rw [BitVec.getElem_extractLsb']
  change BitVec.getLsbD (w := 3 + 3 + 2 + 1) (x0 ++ x1 ++ x2 ++ x3) _ = _
  simp only [BitVec.getLsbD_append]
  repeat (first | rw [if_neg (by omega)] | rw [if_pos (by omega)])
  simp only [← BitVec.getLsbD_eq_getElem]
  congr 1
  omega

@[simp] theorem part1_of_3_3_2_1 (x0 : BitVec 3) (x1 : BitVec 3) (x2 : BitVec 2) (x3 : BitVec 1) : BitVec.extractLsb' (n := 9) 3 3 (x0 ++ x1 ++ x2 ++ x3) = x1 := by
  ext i hi
  rw [BitVec.getElem_extractLsb']
  change BitVec.getLsbD (w := 3 + 3 + 2 + 1) (x0 ++ x1 ++ x2 ++ x3) _ = _
  simp only [BitVec.getLsbD_append]
  repeat (first | rw [if_neg (by omega)] | rw [if_pos (by omega)])
  simp only [← BitVec.getLsbD_eq_getElem]
  congr 1
  omega

@[simp] theorem part2_of_3_3_2_1 (x0 : BitVec 3) (x1 : BitVec 3) (x2 : BitVec 2) (x3 : BitVec 1) : BitVec.extractLsb' (n := 9) 1 2 (x0 ++ x1 ++ x2 ++ x3) = x2 := by
  ext i hi
  rw [BitVec.getElem_extractLsb']
  change BitVec.getLsbD (w := 3 + 3 + 2 + 1) (x0 ++ x1 ++ x2 ++ x3) _ = _
  simp only [BitVec.getLsbD_append]
  repeat (first | rw [if_neg (by omega)] | rw [if_pos (by omega)])
  simp only [← BitVec.getLsbD_eq_getElem]
  congr 1
  omega

@[simp] theorem part3_of_3_3_2_1 (x0 : BitVec 3) (x1 : BitVec 3) (x2 : BitVec 2) (x3 : BitVec 1) : BitVec.extractLsb' (n := 9) 0 1 (x0 ++ x1 ++ x2 ++ x3) = x3 := by
  ext i hi
  rw [BitVec.getElem_extractLsb']
  change BitVec.getLsbD (w := 3 + 3 + 2 + 1) (x0 ++ x1 ++ x2 ++ x3) _ = _
  simp only [BitVec.getLsbD_append]
  repeat (first | rw [if_neg (by omega)] | rw [if_pos (by omega)])
  simp only [← BitVec.getLsbD_eq_getElem]
  congr 1
  omega

@[simp] theorem part0_of_3_3_3 (x0 : BitVec 3) (x1 : BitVec 3) (x2 : BitVec 3) : BitVec.extractLsb' (n := 9) 6 3 (x0 ++ x1 ++ x2) = x0 := by
  ext i hi
  rw [BitVec.getElem_extractLsb']
  change BitVec.getLsbD (w := 3 + 3 + 3) (x0 ++ x1 ++ x2) _ = _
  simp only [BitVec.getLsbD_append]
  repeat (first | rw [if_neg (by omega)] | rw [if_pos (by omega)])
  simp only [← BitVec.getLsbD_eq_getElem]
  congr 1
  omega

@[simp] theorem part1_of_3_3_3 (x0 : BitVec 3) (x1 : BitVec 3) (x2 : BitVec 3) : BitVec.extractLsb' (n := 9) 3 3 (x0 ++ x1 ++ x2) = x1 := by
  ext i hi
  rw [BitVec.getElem_extractLsb']
  change BitVec.getLsbD (w := 3 + 3 + 3) (x0 ++ x1 ++ x2) _ = _
  simp only [BitVec.getLsbD_append]
  repeat (first | rw [if_neg (by omega)] | rw [if_pos (by omega)])
  simp only [← BitVec.getLsbD_eq_getElem]
  congr 1
  omega

@[simp] theorem part2_of_3_3_3 (x0 : BitVec 3) (x1 : BitVec 3) (x2 : BitVec 3) : BitVec.extractLsb' (n := 9) 0 3 (x0 ++ x1 ++ x2) = x2 := by
  ext i hi
  rw [BitVec.getElem_extractLsb']
  change BitVec.getLsbD (w := 3 + 3 + 3) (x0 ++ x1 ++ x2) _ = _
  simp only [BitVec.getLsbD_append]
  repeat (first | rw [if_neg (by omega)] | rw [if_pos (by omega)])
  simp only [← BitVec.getLsbD_eq_getElem]
  congr 1
  omega

@[simp] theorem part0_of_3_5_1 (x0 : BitVec 3) (x1 : BitVec 5) (x2 : BitVec 1) : BitVec.extractLsb' (n := 9) 6 3 (x0 ++ x1 ++ x2) = x0 := by
  ext i hi
  rw [BitVec.getElem_extractLsb']
  change BitVec.getLsbD (w := 3 + 5 + 1) (x0 ++ x1 ++ x2) _ = _
  simp only [BitVec.getLsbD_append]
  repeat (first | rw [if_neg (by omega)] | rw [if_pos (by omega)])
  simp only [← BitVec.getLsbD_eq_getElem]
  congr 1
  omega

@[simp] theorem part1_of_3_5_1 (x0 : BitVec 3) (x1 : BitVec 5) (x2 : BitVec 1) : BitVec.extractLsb' (n := 9) 1 5 (x0 ++ x1 ++ x2) = x1 := by
  ext i hi
  rw [BitVec.getElem_extractLsb']
  change BitVec.getLsbD (w := 3 + 5 + 1) (x0 ++ x1 ++ x2) _ = _
  simp only [BitVec.getLsbD_append]
  repeat (first | rw [if_neg (by omega)] | rw [if_pos (by omega)])
  simp only [← BitVec.getLsbD_eq_getElem]
  congr 1
  omega

@[simp] theorem part2_of_3_5_1 (x0 : BitVec 3) (x1 : BitVec 5) (x2 : BitVec 1) : BitVec.extractLsb' (n := 9) 0 1 (x0 ++ x1 ++ x2) = x2 := by
  ext i hi
  rw [BitVec.getElem_extractLsb']
  change BitVec.getLsbD (w := 3 + 5 + 1) (x0 ++ x1 ++ x2) _ = _
  simp only [BitVec.getLsbD_append]
  repeat (first | rw [if_neg (by omega)] | rw [if_pos (by omega)])
  simp only [← BitVec.getLsbD_eq_getElem]
  congr 1
  omega

@[simp] theorem part0_of_3_6 (x0 : BitVec 3) (x1 : BitVec 6) : BitVec.extractLsb' (n := 9) 6 3 (x0 ++ x1) = x0 := by
  ext i hi
  rw [BitVec.getElem_extractLsb']
  change BitVec.getLsbD (w := 3 + 6) (x0 ++ x1) _ = _
  simp only [BitVec.getLsbD_append]
  repeat (first | rw [if_neg (by omega)] | rw [if_pos (by omega)])
  simp only [← BitVec.getLsbD_eq_getElem]
  congr 1
  omega

@[simp] theorem part1_of_3_6 (x0 : BitVec 3) (x1 : BitVec 6) : BitVec.extractLsb' (n := 9) 0 6 (x0 ++ x1) = x1 := by
  ext i hi
  rw [BitVec.getElem_extractLsb']
  change BitVec.getLsbD (w := 3 + 6) (x0 ++ x1) _ = _
  simp only [BitVec.getLsbD_append]
  repeat (first | rw [if_neg (by omega)] | rw [if_pos (by omega)])
  simp only [← BitVec.getLsbD_eq_getElem]
  congr 1
  omega

@[simp] theorem part0_of_4_2 (x0 : BitVec 4) (x1 : BitVec 2) : BitVec.extractLsb' (n := 6) 2 4 (x0 ++ x1) = x0 := by
  ext i hi
  rw [BitVec.getElem_extractLsb']
  change BitVec.getLsbD (w := 4 + 2) (x0 ++ x1) _ = _
  simp only [BitVec.getLsbD_append]
  repeat (first | rw [if_neg (by omega)] | rw [if_pos (by omega)])
  simp only [← BitVec.getLsbD_eq_getElem]
  congr 1
  omega

@[simp] theorem part1_of_4_2 (x0 : BitVec 4) (x1 : BitVec 2) : BitVec.extractLsb' (n := 6) 0 2 (x0 ++ x1) = x1 := by
  ext i hi
  rw [BitVec.getElem_extractLsb']
  change BitVec.getLsbD (w := 4 + 2) (x0 ++ x1) _ = _
  simp only [BitVec.getLsbD_append]
  repeat (first | rw [if_neg (by omega)] | rw [if_pos (by omega)])
  simp only [← BitVec.getLsbD_eq_getElem]
  congr 1
  omega

@[simp] theorem part0_of_5_1 (x0 : BitVec 5) (x1 : BitVec 1) : BitVec.extractLsb' (n := 6) 1 5 (x0 ++ x1) = x0 := by
  ext i hi
  rw [BitVec.getElem_extractLsb']
  change BitVec.getLsbD (w := 5 + 1) (x0 ++ x1) _ = _
  simp only [BitVec.getLsbD_append]
  repeat (first | rw [if_neg (by omega)] | rw [if_pos (by omega)])
  simp only [← BitVec.getLsbD_eq_getElem]
  congr 1
  omega

@[simp] theorem part1_of_5_1 (x0 : BitVec 5) (x1 : BitVec 1) : BitVec.extractLsb' (n := 6) 0 1 (x0 ++ x1) = x1 := by
  ext i hi
  rw [BitVec.getElem_extractLsb']
  change BitVec.getLsbD (w := 5 + 1) (x0 ++ x1) _ = _
  simp only [BitVec.getLsbD_append]
  repeat (first | rw [if_neg (by omega)] | rw [if_pos (by omega)])
  simp only [← BitVec.getLsbD_eq_getElem]
  congr 1
  omega

@[simp] theorem part0_of_5_2_2 (x0 : BitVec 5) (x1 : BitVec 2) (x2 : BitVec 2) : BitVec.extractLsb' (n := 9) 4 5 (x0 ++ x1 ++ x2) = x0 := by
  ext i hi
  rw [BitVec.getElem_extractLsb']
  change BitVec.getLsbD (w := 5 + 2 + 2) (x0 ++ x1 ++ x2) _ = _
  simp only [BitVec.getLsbD_append]
  repeat (first | rw [if_neg (by omega)] | rw [if_pos (by omega)])
  simp only [← BitVec.getLsbD_eq_getElem]
  congr 1
  omega

@[simp] theorem part1_of_5_2_2 (x0 : BitVec 5) (x1 : BitVec 2) (x2 : BitVec 2) : BitVec.extractLsb' (n := 9) 2 2 (x0 ++ x1 ++ x2) = x1 := by
  ext i hi
  rw [BitVec.getElem_extractLsb']
  change BitVec.getLsbD (w := 5 + 2 + 2) (x0 ++ x1 ++ x2) _ = _
  simp only [BitVec.getLsbD_append]
  repeat (first | rw [if_neg (by omega)] | rw [if_pos (by omega)])
  simp only [← BitVec.getLsbD_eq_getElem]
  congr 1
  omega

@[simp] theorem part2_of_5_2_2 (x0 : BitVec 5) (x1 : BitVec 2) (x2 : BitVec 2) : BitVec.extractLsb' (n := 9) 0 2 (x0 ++ x1 ++ x2) = x2 := by
  ext i hi
  rw [BitVec.getElem_extractLsb']
  change BitVec.getLsbD (w := 5 + 2 + 2) (x0 ++ x1 ++ x2) _ = _
  simp only [BitVec.getLsbD_append]
  repeat (first | rw [if_neg (by omega)] | rw [if_pos (by omega)])
  simp only [← BitVec.getLsbD_eq_getElem]
  congr 1
  omega

@[simp] theorem part0_of_5_3_1 (x0 : BitVec 5) (x1 : BitVec 3) (x2 : BitVec 1) : BitVec.extractLsb' (n := 9) 4 5 (x0 ++ x1 ++ x2) = x0 := by
  ext i hi
  rw [BitVec.getElem_extractLsb']
  change BitVec.getLsbD (w := 5 + 3 + 1) (x0 ++ x1 ++ x2) _ = _
  simp only [BitVec.getLsbD_append]
  repeat (first | rw [if_neg (by omega)] | rw [if_pos (by omega)])
  simp only [← BitVec.getLsbD_eq_getElem]
  congr 1
  omega

@[simp] theorem part1_of_5_3_1 (x0 : BitVec 5) (x1 : BitVec 3) (x2 : BitVec 1) : BitVec.extractLsb' (n := 9) 1 3 (x0 ++ x1 ++ x2) = x1 := by
  ext i hi
  rw [BitVec.getElem_extractLsb']
  change BitVec.getLsbD (w := 5 + 3 + 1) (x0 ++ x1 ++ x2) _ = _
  simp only [BitVec.getLsbD_append]
  repeat (first | rw [if_neg (by omega)] | rw [if_pos (by omega)])
  simp only [← BitVec.getLsbD_eq_getElem]
  congr 1
  omega

@[simp] theorem part2_of_5_3_1 (x0 : BitVec 5) (x1 : BitVec 3) (x2 : BitVec 1) : BitVec.extractLsb' (n := 9) 0 1 (x0 ++ x1 ++ x2) = x2 := by
  ext i hi
  rw [BitVec.getElem_extractLsb']
  change BitVec.getLsbD (w := 5 + 3 + 1) (x0 ++ x1 ++ x2) _ = _
  simp only [BitVec.getLsbD_append]
  repeat (first | rw [if_neg (by omega)] | rw [if_pos (by omega)])
  simp only [← BitVec.getLsbD_eq_getElem]
  congr 1
  omega

@[simp] theorem part0_of_5_4 (x0 : BitVec 5) (x1 : BitVec 4) : BitVec.extractLsb' (n := 9) 4 5 (x0 ++ x1) = x0 := by
  ext i hi
  rw [BitVec.getElem_extractLsb']
  change BitVec.getLsbD (w := 5 + 4) (x0 ++ x1) _ = _
  simp only [BitVec.getLsbD_append]
  repeat (first | rw [if_neg (by omega)] | rw [if_pos (by omega)])
  simp only [← BitVec.getLsbD_eq_getElem]
  congr 1
  omega

@[simp] theorem part1_of_5_4 (x0 : BitVec 5) (x1 : BitVec 4) : BitVec.extractLsb' (n := 9) 0 4 (x0 ++ x1) = x1 := by
  ext i hi
  rw [BitVec.getElem_extractLsb']
  change BitVec.getLsbD (w := 5 + 4) (x0 ++ x1) _ = _
  simp only [BitVec.getLsbD_append]
  repeat (first | rw [if_neg (by omega)] | rw [if_pos (by omega)])
  simp only [← BitVec.getLsbD_eq_getElem]
  congr 1
  omega

@[simp] theorem part0_of_6_2_1 (x0 : BitVec 6) (x1 : BitVec 2) (x2 : BitVec 1) : BitVec.extractLsb' (n := 9) 3 6 (x0 ++ x1 ++ x2) = x0 := by
  ext i hi
  rw [BitVec.getElem_extractLsb']
  change BitVec.getLsbD (w := 6 + 2 + 1) (x0 ++ x1 ++ x2) _ = _
  simp only [BitVec.getLsbD_append]
  repeat (first | rw [if_neg (by omega)] | rw [if_pos (by omega)])
  simp only [← BitVec.getLsbD_eq_getElem]
  congr 1
  omega

@[simp] theorem part1_of_6_2_1 (x0 : BitVec 6) (x1 : BitVec 2) (x2 : BitVec 1) : BitVec.extractLsb' (n := 9) 1 2 (x0 ++ x1 ++ x2) = x1 := by
  ext i hi
  rw [BitVec.getElem_extractLsb']
  change BitVec.getLsbD (w := 6 + 2 + 1) (x0 ++ x1 ++ x2) _ = _
  simp only [BitVec.getLsbD_append]
  repeat (first | rw [if_neg (by omega)] | rw [if_pos (by omega)])
  simp only [← BitVec.getLsbD_eq_getElem]
  congr 1
  omega

@[simp] theorem part2_of_6_2_1 (x0 : BitVec 6) (x1 : BitVec 2) (x2 : BitVec 1) : BitVec.extractLsb' (n := 9) 0 1 (x0 ++ x1 ++ x2) = x2 := by
  ext i hi
  rw [BitVec.getElem_extractLsb']
  change BitVec.getLsbD (w := 6 + 2 + 1) (x0 ++ x1 ++ x2) _ = _
  simp only [BitVec.getLsbD_append]
  repeat (first | rw [if_neg (by omega)] | rw [if_pos (by omega)])
  simp only [← BitVec.getLsbD_eq_getElem]
  congr 1
  omega

@[simp] theorem part0_of_6_6 (x0 : BitVec 6) (x1 : BitVec 6) : BitVec.extractLsb' (n := 12) 6 6 (x0 ++ x1) = x0 := by
  ext i hi
  rw [BitVec.getElem_extractLsb']
  change BitVec.getLsbD (w := 6 + 6) (x0 ++ x1) _ = _
  simp only [BitVec.getLsbD_append]
  repeat (first | rw [if_neg (by omega)] | rw [if_pos (by omega)])
  simp only [← BitVec.getLsbD_eq_getElem]
  congr 1
  omega

@[simp] theorem part1_of_6_6 (x0 : BitVec 6) (x1 : BitVec 6) : BitVec.extractLsb' (n := 12) 0 6 (x0 ++ x1) = x1 := by
  ext i hi
  rw [BitVec.getElem_extractLsb']
  change BitVec.getLsbD (w := 6 + 6) (x0 ++ x1) _ = _
  simp only [BitVec.getLsbD_append]
  repeat (first | rw [if_neg (by omega)] | rw [if_pos (by omega)])
  simp only [← BitVec.getLsbD_eq_getElem]
  congr 1
  omega

@[simp] theorem part0_of_8_1 (x0 : BitVec 8) (x1 : BitVec 1) : BitVec.extractLsb' (n := 9) 1 8 (x0 ++ x1) = x0 := by
  ext i hi
  rw [BitVec.getElem_extractLsb']
  change BitVec.getLsbD (w := 8 + 1) (x0 ++ x1) _ = _
  simp only [BitVec.getLsbD_append]
  repeat (first | rw [if_neg (by omega)] | rw [if_pos (by omega)])
  simp only [← BitVec.getLsbD_eq_getElem]
  congr 1
  omega

@[simp] theorem part1_of_8_1 (x0 : BitVec 8) (x1 : BitVec 1) : BitVec.extractLsb' (n := 9) 0 1 (x0 ++ x1) = x1 := by
  ext i hi
  rw [BitVec.getElem_extractLsb']
  change BitVec.getLsbD (w := 8 + 1) (x0 ++ x1) _ = _
  simp only [BitVec.getLsbD_append]
  repeat (first | rw [if_neg (by omega)] | rw [if_pos (by omega)])
  simp only [← BitVec.getLsbD_eq_getElem]
  congr 1
  omega

end Sys2Proof
end

