-- ==== Sys2Proof/Laws/PerInstr.lean ====
section
/-!
SUPPORT. Statements about every instruction as syntax, one lemma for each constructor: decoding an encoded instruction gives
it back (R15 to R32).
-/

set_option Elab.async false
set_option linter.unusedSimpArgs false

namespace Sys2Proof

/-- An S-word, a C-word whose fields lie in their ranges, or an E-word decodes from its encoding, as itself. -/
def Laws.RoundTrip.Statement (i : Instr) : Prop :=
  (kindOf i = .cword → fieldsOk i = true → decodeC (encode i) = .ok i) ∧
  (kindOf i = .eword → decodeE (encode i) = .ok i) ∧
  (kindOf i = .sword → decodeS (encodeS i) = .ok i)

namespace Laws.RoundTrip

/-! A packed word goes to the decoder of its major opcode (R21) or of its eop (R30). -/

theorem major_01 (d a b : BitVec 7) (f : BitVec 5) : decodeC (packCR 1#6 d a b f) = decodeMajor01 (packCR 1#6 d a b f) := by
  unfold decodeC
  rw [fMajor_packCR]
  rfl
theorem major_0d (d a b : BitVec 7) (f : BitVec 5) : decodeC (packCR 13#6 d a b f) = decodeMajor0d (packCR 13#6 d a b f) := by
  unfold decodeC
  rw [fMajor_packCR]
  rfl
theorem major_11 (d a b : BitVec 7) (f : BitVec 5) : decodeC (packCR 17#6 d a b f) = decodeMajor11 (packCR 17#6 d a b f) := by
  unfold decodeC
  rw [fMajor_packCR]
  rfl
theorem major_14 (n : BitVec 1) (p : BitVec 3) (o : BitVec 22) : decodeC (packCB 20#6 n p o) = decodeBranch (packCB 20#6 n p o) := by
  unfold decodeC
  rw [fMajor_packCB]
  rfl
theorem major_16 (d a b : BitVec 7) (f : BitVec 5) : decodeC (packCR 22#6 d a b f) = decodeMajor16 (packCR 22#6 d a b f) := by
  unfold decodeC
  rw [fMajor_packCR]
  rfl
theorem major_19 (d a b : BitVec 7) (f : BitVec 5) : decodeC (packCR 25#6 d a b f) = decodeMajor19 (packCR 25#6 d a b f) := by
  unfold decodeC
  rw [fMajor_packCR]
  rfl
theorem major_1a (d a b : BitVec 7) (f : BitVec 5) : decodeC (packCR 26#6 d a b f) = decodeMajor1a (packCR 26#6 d a b f) := by
  unfold decodeC
  rw [fMajor_packCR]
  rfl
theorem major_20 (t a : BitVec 7) (z : BitVec 2) (c : BitVec 3) (o : BitVec 7) : decodeC (packCM 32#6 t a z c o) = decodeMajor20 (packCM 32#6 t a z c o) := by
  unfold decodeC
  rw [fMajor_packCM]
  rfl
theorem major_21 (t a : BitVec 7) (z : BitVec 2) (c : BitVec 3) (o : BitVec 7) : decodeC (packCM 33#6 t a z c o) = decodeMajor21 (packCM 33#6 t a z c o) := by
  unfold decodeC
  rw [fMajor_packCM]
  rfl
theorem major_22 (t a : BitVec 7) (z : BitVec 2) (c : BitVec 3) (o : BitVec 7) : decodeC (packCM 34#6 t a z c o) = decodeMajor22 (packCM 34#6 t a z c o) := by
  unfold decodeC
  rw [fMajor_packCM]
  rfl
theorem major_25 (d a b : BitVec 7) (f : BitVec 5) : decodeC (packCR 37#6 d a b f) = decodeMajor25 (packCR 37#6 d a b f) := by
  unfold decodeC
  rw [fMajor_packCR]
  rfl
theorem major_26 (d a b : BitVec 7) (f : BitVec 5) : decodeC (packCR 38#6 d a b f) = decodeMajor26 (packCR 38#6 d a b f) := by
  unfold decodeC
  rw [fMajor_packCR]
  rfl
theorem major_27 (d a b : BitVec 7) (f : BitVec 5) : decodeC (packCR 39#6 d a b f) = decodeMajor27 (packCR 39#6 d a b f) := by
  unfold decodeC
  rw [fMajor_packCR]
  rfl
theorem major_28 (d a b : BitVec 7) (f : BitVec 5) : decodeC (packCR 40#6 d a b f) = decodeMajor28 (packCR 40#6 d a b f) := by
  unfold decodeC
  rw [fMajor_packCR]
  rfl
theorem major_29 (f : BitVec 6) (a b : BitVec 7) (i : BitVec 6) : decodeC (packCX 41#6 f a b i) = decodeMajor29 (packCX 41#6 f a b i) := by
  unfold decodeC
  rw [fMajor_packCX]
  rfl
theorem major_2a (f : BitVec 6) (a b : BitVec 7) (i : BitVec 6) : decodeC (packCX 42#6 f a b i) = decodeMajor2a (packCX 42#6 f a b i) := by
  unfold decodeC
  rw [fMajor_packCX]
  rfl
theorem major_2b (d a b : BitVec 7) (f : BitVec 5) : decodeC (packCR 43#6 d a b f) = decodeMajor2b (packCR 43#6 d a b f) := by
  unfold decodeC
  rw [fMajor_packCR]
  rfl
theorem major_2c (f : BitVec 6) (a b : BitVec 7) (i : BitVec 6) : decodeC (packCX 44#6 f a b i) = decodeMajor2c (packCX 44#6 f a b i) := by
  unfold decodeC
  rw [fMajor_packCX]
  rfl
theorem major_2d (f : BitVec 6) (a b : BitVec 7) (i : BitVec 6) : decodeC (packCX 45#6 f a b i) = decodeMajor2d (packCX 45#6 f a b i) := by
  unfold decodeC
  rw [fMajor_packCX]
  rfl
theorem major_2e (f : BitVec 6) (a b : BitVec 7) (i : BitVec 6) : decodeC (packCX 46#6 f a b i) = decodeMajor2e (packCX 46#6 f a b i) := by
  unfold decodeC
  rw [fMajor_packCX]
  rfl
theorem major_2f (f : BitVec 6) (a b : BitVec 7) (i : BitVec 6) : decodeC (packCX 47#6 f a b i) = decodeMajor2f (packCX 47#6 f a b i) := by
  unfold decodeC
  rw [fMajor_packCX]
  rfl
theorem major_30 (d a b : BitVec 7) (f : BitVec 5) : decodeC (packCR 48#6 d a b f) = decodeMajor30 (packCR 48#6 d a b f) := by
  unfold decodeC
  rw [fMajor_packCR]
  rfl
theorem major_31 (f : BitVec 6) (a b : BitVec 7) (i : BitVec 6) : decodeC (packCX 49#6 f a b i) = decodeMajor31 (packCX 49#6 f a b i) := by
  unfold decodeC
  rw [fMajor_packCX]
  rfl
theorem major_32 (d a b : BitVec 7) (f : BitVec 5) : decodeC (packCR 50#6 d a b f) = decodeMajor32 (packCR 50#6 d a b f) := by
  unfold decodeC
  rw [fMajor_packCR]
  rfl
theorem major_33 (f : BitVec 6) (a b : BitVec 7) (i : BitVec 6) : decodeC (packCX 51#6 f a b i) = decodeMajor33 (packCX 51#6 f a b i) := by
  unfold decodeC
  rw [fMajor_packCX]
  rfl
theorem major_34 (f : BitVec 6) (a b : BitVec 7) (i : BitVec 6) : decodeC (packCX 52#6 f a b i) = decodeMajor34 (packCX 52#6 f a b i) := by
  unfold decodeC
  rw [fMajor_packCX]
  rfl
theorem major_35 (f : BitVec 6) (a b : BitVec 7) (i : BitVec 6) : decodeC (packCX 53#6 f a b i) = decodeMajor35 (packCX 53#6 f a b i) := by
  unfold decodeC
  rw [fMajor_packCX]
  rfl
theorem major_3f (f : BitVec 6) (a b : BitVec 7) (i : BitVec 6) : decodeC (packCX 63#6 f a b i) = decodeMajor3f (packCX 63#6 f a b i) := by
  unfold decodeC
  rw [fMajor_packCX]
  rfl
theorem eop_01 (a b c : BitVec 5) (m : BitVec 9) : decodeE (packE 1#8 a b c m) = decodeEOnline (packE 1#8 a b c m) := by
  unfold decodeE
  simp only [fEop_packE]
  rfl
theorem eop_02 (a b c : BitVec 5) (m : BitVec 9) : decodeE (packE 2#8 a b c m) = decodeEOnline (packE 2#8 a b c m) := by
  unfold decodeE
  simp only [fEop_packE]
  rfl
theorem eop_03 (a b c : BitVec 5) (m : BitVec 9) : decodeE (packE 3#8 a b c m) = decodeEOnline (packE 3#8 a b c m) := by
  unfold decodeE
  simp only [fEop_packE]
  rfl
theorem eop_04 (a b c : BitVec 5) (m : BitVec 9) : decodeE (packE 4#8 a b c m) = decodeEOnline (packE 4#8 a b c m) := by
  unfold decodeE
  simp only [fEop_packE]
  rfl
theorem eop_05 (a b c : BitVec 5) (m : BitVec 9) : decodeE (packE 5#8 a b c m) = decodeEOnline (packE 5#8 a b c m) := by
  unfold decodeE
  simp only [fEop_packE]
  rfl
theorem eop_06 (a b c : BitVec 5) (m : BitVec 9) : decodeE (packE 6#8 a b c m) = decodeEOnline (packE 6#8 a b c m) := by
  unfold decodeE
  simp only [fEop_packE]
  rfl
theorem eop_07 (a b c : BitVec 5) (m : BitVec 9) : decodeE (packE 7#8 a b c m) = decodeEOnline (packE 7#8 a b c m) := by
  unfold decodeE
  simp only [fEop_packE]
  rfl
theorem eop_08 (a b c : BitVec 5) (m : BitVec 9) : decodeE (packE 8#8 a b c m) = decodeEOnline (packE 8#8 a b c m) := by
  unfold decodeE
  simp only [fEop_packE]
  rfl
theorem eop_09 (a b c : BitVec 5) (m : BitVec 9) : decodeE (packE 9#8 a b c m) = decodeEOnline (packE 9#8 a b c m) := by
  unfold decodeE
  simp only [fEop_packE]
  rfl
theorem eop_0a (a b c : BitVec 5) (m : BitVec 9) : decodeE (packE 10#8 a b c m) = decodeEOnline (packE 10#8 a b c m) := by
  unfold decodeE
  simp only [fEop_packE]
  rfl
theorem eop_0b (a b c : BitVec 5) (m : BitVec 9) : decodeE (packE 11#8 a b c m) = decodeEOnline (packE 11#8 a b c m) := by
  unfold decodeE
  simp only [fEop_packE]
  rfl
theorem eop_0c (a b c : BitVec 5) (m : BitVec 9) : decodeE (packE 12#8 a b c m) = decodeEOnline (packE 12#8 a b c m) := by
  unfold decodeE
  simp only [fEop_packE]
  rfl
theorem eop_0d (a b c : BitVec 5) (m : BitVec 9) : decodeE (packE 13#8 a b c m) = decodeEOnline (packE 13#8 a b c m) := by
  unfold decodeE
  simp only [fEop_packE]
  rfl
theorem eop_0e (a b c : BitVec 5) (m : BitVec 9) : decodeE (packE 14#8 a b c m) = decodeEOnline (packE 14#8 a b c m) := by
  unfold decodeE
  simp only [fEop_packE]
  rfl
theorem eop_0f (a b c : BitVec 5) (m : BitVec 9) : decodeE (packE 15#8 a b c m) = decodeEOnline (packE 15#8 a b c m) := by
  unfold decodeE
  simp only [fEop_packE]
  rfl
theorem eop_10 (a b c : BitVec 5) (m : BitVec 9) : decodeE (packE 16#8 a b c m) = decodeEOnline (packE 16#8 a b c m) := by
  unfold decodeE
  simp only [fEop_packE]
  rfl
theorem eop_11 (a b c : BitVec 5) (m : BitVec 9) : decodeE (packE 17#8 a b c m) = decodeEOnline (packE 17#8 a b c m) := by
  unfold decodeE
  simp only [fEop_packE]
  rfl
theorem eop_12 (a b c : BitVec 5) (m : BitVec 9) : decodeE (packE 18#8 a b c m) = decodeEOnline (packE 18#8 a b c m) := by
  unfold decodeE
  simp only [fEop_packE]
  rfl
theorem eop_20 (a b c : BitVec 5) (m : BitVec 9) : decodeE (packE 32#8 a b c m) = decodeEVector (packE 32#8 a b c m) := by
  unfold decodeE
  simp only [fEop_packE]
  rfl
theorem eop_21 (a b c : BitVec 5) (m : BitVec 9) : decodeE (packE 33#8 a b c m) = decodeEVector (packE 33#8 a b c m) := by
  unfold decodeE
  simp only [fEop_packE]
  rfl
theorem eop_22 (a b c : BitVec 5) (m : BitVec 9) : decodeE (packE 34#8 a b c m) = decodeEVector (packE 34#8 a b c m) := by
  unfold decodeE
  simp only [fEop_packE]
  rfl
theorem eop_23 (a b c : BitVec 5) (m : BitVec 9) : decodeE (packE 35#8 a b c m) = decodeEVector (packE 35#8 a b c m) := by
  unfold decodeE
  simp only [fEop_packE]
  rfl
theorem eop_24 (a b c : BitVec 5) (m : BitVec 9) : decodeE (packE 36#8 a b c m) = decodeEVector (packE 36#8 a b c m) := by
  unfold decodeE
  simp only [fEop_packE]
  rfl
theorem eop_25 (a b c : BitVec 5) (m : BitVec 9) : decodeE (packE 37#8 a b c m) = decodeEVector (packE 37#8 a b c m) := by
  unfold decodeE
  simp only [fEop_packE]
  rfl
theorem eop_26 (a b c : BitVec 5) (m : BitVec 9) : decodeE (packE 38#8 a b c m) = decodeEVector (packE 38#8 a b c m) := by
  unfold decodeE
  simp only [fEop_packE]
  rfl
theorem eop_27 (a b c : BitVec 5) (m : BitVec 9) : decodeE (packE 39#8 a b c m) = decodeEVector (packE 39#8 a b c m) := by
  unfold decodeE
  simp only [fEop_packE]
  rfl
theorem eop_28 (a b c : BitVec 5) (m : BitVec 9) : decodeE (packE 40#8 a b c m) = decodeEVector (packE 40#8 a b c m) := by
  unfold decodeE
  simp only [fEop_packE]
  rfl
theorem eop_29 (a b c : BitVec 5) (m : BitVec 9) : decodeE (packE 41#8 a b c m) = decodeEVector (packE 41#8 a b c m) := by
  unfold decodeE
  simp only [fEop_packE]
  rfl
theorem eop_2a (a b c : BitVec 5) (m : BitVec 9) : decodeE (packE 42#8 a b c m) = decodeEVector (packE 42#8 a b c m) := by
  unfold decodeE
  simp only [fEop_packE]
  rfl
theorem eop_2b (a b c : BitVec 5) (m : BitVec 9) : decodeE (packE 43#8 a b c m) = decodeEVector (packE 43#8 a b c m) := by
  unfold decodeE
  simp only [fEop_packE]
  rfl
theorem eop_2c (a b c : BitVec 5) (m : BitVec 9) : decodeE (packE 44#8 a b c m) = decodeEVector (packE 44#8 a b c m) := by
  unfold decodeE
  simp only [fEop_packE]
  rfl
theorem eop_2d (a b c : BitVec 5) (m : BitVec 9) : decodeE (packE 45#8 a b c m) = decodeEVector (packE 45#8 a b c m) := by
  unfold decodeE
  simp only [fEop_packE]
  rfl
theorem eop_2e (a b c : BitVec 5) (m : BitVec 9) : decodeE (packE 46#8 a b c m) = decodeEVector (packE 46#8 a b c m) := by
  unfold decodeE
  simp only [fEop_packE]
  rfl
theorem eop_2f (a b c : BitVec 5) (m : BitVec 9) : decodeE (packE 47#8 a b c m) = decodeEVector (packE 47#8 a b c m) := by
  unfold decodeE
  simp only [fEop_packE]
  rfl
theorem eop_30 (a b c : BitVec 5) (m : BitVec 9) : decodeE (packE 48#8 a b c m) = decodeEVector (packE 48#8 a b c m) := by
  unfold decodeE
  simp only [fEop_packE]
  rfl
theorem eop_31 (a b c : BitVec 5) (m : BitVec 9) : decodeE (packE 49#8 a b c m) = decodeEVector (packE 49#8 a b c m) := by
  unfold decodeE
  simp only [fEop_packE]
  rfl
theorem eop_32 (a b c : BitVec 5) (m : BitVec 9) : decodeE (packE 50#8 a b c m) = decodeEVector (packE 50#8 a b c m) := by
  unfold decodeE
  simp only [fEop_packE]
  rfl
theorem eop_33 (a b c : BitVec 5) (m : BitVec 9) : decodeE (packE 51#8 a b c m) = decodeEVector (packE 51#8 a b c m) := by
  unfold decodeE
  simp only [fEop_packE]
  rfl
theorem eop_34 (a b c : BitVec 5) (m : BitVec 9) : decodeE (packE 52#8 a b c m) = decodeEVector (packE 52#8 a b c m) := by
  unfold decodeE
  simp only [fEop_packE]
  rfl
theorem eop_35 (a b c : BitVec 5) (m : BitVec 9) : decodeE (packE 53#8 a b c m) = decodeEVector (packE 53#8 a b c m) := by
  unfold decodeE
  simp only [fEop_packE]
  rfl
theorem eop_40 (a b c : BitVec 5) (m : BitVec 9) : decodeE (packE 64#8 a b c m) = decodeEMatrix (packE 64#8 a b c m) := by
  unfold decodeE
  simp only [fEop_packE]
  rfl
theorem eop_41 (a b c : BitVec 5) (m : BitVec 9) : decodeE (packE 65#8 a b c m) = decodeEMatrix (packE 65#8 a b c m) := by
  unfold decodeE
  simp only [fEop_packE]
  rfl
theorem eop_42 (a b c : BitVec 5) (m : BitVec 9) : decodeE (packE 66#8 a b c m) = decodeEMatrix (packE 66#8 a b c m) := by
  unfold decodeE
  simp only [fEop_packE]
  rfl
theorem eop_43 (a b c : BitVec 5) (m : BitVec 9) : decodeE (packE 67#8 a b c m) = decodeEMatrix (packE 67#8 a b c m) := by
  unfold decodeE
  simp only [fEop_packE]
  rfl
theorem eop_44 (a b c : BitVec 5) (m : BitVec 9) : decodeE (packE 68#8 a b c m) = decodeEMatrix (packE 68#8 a b c m) := by
  unfold decodeE
  simp only [fEop_packE]
  rfl
theorem eop_45 (a b c : BitVec 5) (m : BitVec 9) : decodeE (packE 69#8 a b c m) = decodeEMatrix (packE 69#8 a b c m) := by
  unfold decodeE
  simp only [fEop_packE]
  rfl
theorem eop_46 (a b c : BitVec 5) (m : BitVec 9) : decodeE (packE 70#8 a b c m) = decodeEMatrix (packE 70#8 a b c m) := by
  unfold decodeE
  simp only [fEop_packE]
  rfl
theorem eop_47 (a b c : BitVec 5) (m : BitVec 9) : decodeE (packE 71#8 a b c m) = decodeEMatrix (packE 71#8 a b c m) := by
  unfold decodeE
  simp only [fEop_packE]
  rfl
theorem eop_50 (a b c : BitVec 5) (m : BitVec 9) : decodeE (packE 80#8 a b c m) = decodeEMatrix (packE 80#8 a b c m) := by
  unfold decodeE
  simp only [fEop_packE]
  rfl
theorem eop_51 (a b c : BitVec 5) (m : BitVec 9) : decodeE (packE 81#8 a b c m) = decodeEMatrix (packE 81#8 a b c m) := by
  unfold decodeE
  simp only [fEop_packE]
  rfl
theorem eop_52 (a b c : BitVec 5) (m : BitVec 9) : decodeE (packE 82#8 a b c m) = decodeEMatrix (packE 82#8 a b c m) := by
  unfold decodeE
  simp only [fEop_packE]
  rfl
theorem eop_60 (a b c : BitVec 5) (m : BitVec 9) : decodeE (packE 96#8 a b c m) = decodeEPort (packE 96#8 a b c m) := by
  unfold decodeE
  simp only [fEop_packE]
  rfl
theorem eop_61 (a b c : BitVec 5) (m : BitVec 9) : decodeE (packE 97#8 a b c m) = decodeEPort (packE 97#8 a b c m) := by
  unfold decodeE
  simp only [fEop_packE]
  rfl
theorem eop_62 (a b c : BitVec 5) (m : BitVec 9) : decodeE (packE 98#8 a b c m) = decodeEPort (packE 98#8 a b c m) := by
  unfold decodeE
  simp only [fEop_packE]
  rfl
theorem eop_63 (a b c : BitVec 5) (m : BitVec 9) : decodeE (packE 99#8 a b c m) = decodeEPort (packE 99#8 a b c m) := by
  unfold decodeE
  simp only [fEop_packE]
  rfl
theorem eop_64 (a b c : BitVec 5) (m : BitVec 9) : decodeE (packE 100#8 a b c m) = decodeEPort (packE 100#8 a b c m) := by
  unfold decodeE
  simp only [fEop_packE]
  rfl
theorem eop_65 (a b c : BitVec 5) (m : BitVec 9) : decodeE (packE 101#8 a b c m) = decodeEPort (packE 101#8 a b c m) := by
  unfold decodeE
  simp only [fEop_packE]
  rfl
theorem eop_66 (a b c : BitVec 5) (m : BitVec 9) : decodeE (packE 102#8 a b c m) = decodeEPort (packE 102#8 a b c m) := by
  unfold decodeE
  simp only [fEop_packE]
  rfl
theorem eop_68 (a b c : BitVec 5) (m : BitVec 9) : decodeE (packE 104#8 a b c m) = decodeEPort (packE 104#8 a b c m) := by
  unfold decodeE
  simp only [fEop_packE]
  rfl
theorem eop_69 (a b c : BitVec 5) (m : BitVec 9) : decodeE (packE 105#8 a b c m) = decodeEPort (packE 105#8 a b c m) := by
  unfold decodeE
  simp only [fEop_packE]
  rfl
theorem eop_6a (a b c : BitVec 5) (m : BitVec 9) : decodeE (packE 106#8 a b c m) = decodeEPort (packE 106#8 a b c m) := by
  unfold decodeE
  simp only [fEop_packE]
  rfl
theorem eop_70 (a b c : BitVec 5) (m : BitVec 9) : decodeE (packE 112#8 a b c m) = decodeEPort (packE 112#8 a b c m) := by
  unfold decodeE
  simp only [fEop_packE]
  rfl
theorem eop_72 (a b c : BitVec 5) (m : BitVec 9) : decodeE (packE 114#8 a b c m) = decodeEPort (packE 114#8 a b c m) := by
  unfold decodeE
  simp only [fEop_packE]
  rfl
theorem eop_73 (a b c : BitVec 5) (m : BitVec 9) : decodeE (packE 115#8 a b c m) = decodeEPort (packE 115#8 a b c m) := by
  unfold decodeE
  simp only [fEop_packE]
  rfl
theorem eop_79 (a b c : BitVec 5) (m : BitVec 9) : decodeE (packE 121#8 a b c m) = decodeEFlow (packE 121#8 a b c m) := by
  unfold decodeE
  simp only [fEop_packE]
  rfl
theorem eop_7a (a b c : BitVec 5) (m : BitVec 9) : decodeE (packE 122#8 a b c m) = decodeEFlow (packE 122#8 a b c m) := by
  unfold decodeE
  simp only [fEop_packE]
  rfl
theorem eop_7b (a b c : BitVec 5) (m : BitVec 9) : decodeE (packE 123#8 a b c m) = decodeEFlow (packE 123#8 a b c m) := by
  unfold decodeE
  simp only [fEop_packE]
  rfl
theorem eop_7c (a b c : BitVec 5) (m : BitVec 9) : decodeE (packE 124#8 a b c m) = decodeEFlow (packE 124#8 a b c m) := by
  unfold decodeE
  simp only [fEop_packE]
  rfl
theorem eop_7d (a b c : BitVec 5) (m : BitVec 9) : decodeE (packE 125#8 a b c m) = decodeEFlow (packE 125#8 a b c m) := by
  unfold decodeE
  simp only [fEop_packE]
  rfl
theorem eop_7f (a b c : BitVec 5) (m : BitVec 9) : decodeE (packE 127#8 a b c m) = decodeEFlow (packE 127#8 a b c m) := by
  unfold decodeE
  simp only [fEop_packE]
  rfl

theorem add : ∀ x0 x1 x2, Statement (.add x0 x1 x2) := by
  intro x0 x1 x2
  refine ⟨fun _ h => (major_01 ..).trans ?_, nofun, nofun⟩
  unfold decodeMajor01
  rw [fFn_packCR]
  change (.ok (.add (fD (packCR 1#6 x0 x1 x2 0x0#5)) (fA (packCR 1#6 x0 x1 x2 0x0#5)) (fB (packCR 1#6 x0 x1 x2 0x0#5))) : Except DecodeError Instr) = _
  simp only [fA_packCR, fB_packCR, fD_packCR]
theorem sub : ∀ x0 x1 x2, Statement (.sub x0 x1 x2) := by
  intro x0 x1 x2
  refine ⟨fun _ h => (major_01 ..).trans ?_, nofun, nofun⟩
  unfold decodeMajor01
  rw [fFn_packCR]
  change (.ok (.sub (fD (packCR 1#6 x0 x1 x2 0x1#5)) (fA (packCR 1#6 x0 x1 x2 0x1#5)) (fB (packCR 1#6 x0 x1 x2 0x1#5))) : Except DecodeError Instr) = _
  simp only [fA_packCR, fB_packCR, fD_packCR]
theorem mul : ∀ x0 x1 x2, Statement (.mul x0 x1 x2) := by
  intro x0 x1 x2
  refine ⟨fun _ h => (major_01 ..).trans ?_, nofun, nofun⟩
  unfold decodeMajor01
  rw [fFn_packCR]
  change (.ok (.mul (fD (packCR 1#6 x0 x1 x2 0x2#5)) (fA (packCR 1#6 x0 x1 x2 0x2#5)) (fB (packCR 1#6 x0 x1 x2 0x2#5))) : Except DecodeError Instr) = _
  simp only [fA_packCR, fB_packCR, fD_packCR]
theorem mulh : ∀ x0 x1 x2, Statement (.mulh x0 x1 x2) := by
  intro x0 x1 x2
  refine ⟨fun _ h => (major_01 ..).trans ?_, nofun, nofun⟩
  unfold decodeMajor01
  rw [fFn_packCR]
  change (.ok (.mulh (fD (packCR 1#6 x0 x1 x2 0x3#5)) (fA (packCR 1#6 x0 x1 x2 0x3#5)) (fB (packCR 1#6 x0 x1 x2 0x3#5))) : Except DecodeError Instr) = _
  simp only [fA_packCR, fB_packCR, fD_packCR]
theorem mulhn : ∀ x0 x1 x2, Statement (.mulhn x0 x1 x2) := by
  intro x0 x1 x2
  refine ⟨fun _ h => (major_01 ..).trans ?_, nofun, nofun⟩
  unfold decodeMajor01
  rw [fFn_packCR]
  change (.ok (.mulhn (fD (packCR 1#6 x0 x1 x2 0x4#5)) (fA (packCR 1#6 x0 x1 x2 0x4#5)) (fB (packCR 1#6 x0 x1 x2 0x4#5))) : Except DecodeError Instr) = _
  simp only [fA_packCR, fB_packCR, fD_packCR]
theorem div : ∀ x0 x1 x2, Statement (.div x0 x1 x2) := by
  intro x0 x1 x2
  refine ⟨fun _ h => (major_01 ..).trans ?_, nofun, nofun⟩
  unfold decodeMajor01
  rw [fFn_packCR]
  change (.ok (.div (fD (packCR 1#6 x0 x1 x2 0x5#5)) (fA (packCR 1#6 x0 x1 x2 0x5#5)) (fB (packCR 1#6 x0 x1 x2 0x5#5))) : Except DecodeError Instr) = _
  simp only [fA_packCR, fB_packCR, fD_packCR]
theorem divn : ∀ x0 x1 x2, Statement (.divn x0 x1 x2) := by
  intro x0 x1 x2
  refine ⟨fun _ h => (major_01 ..).trans ?_, nofun, nofun⟩
  unfold decodeMajor01
  rw [fFn_packCR]
  change (.ok (.divn (fD (packCR 1#6 x0 x1 x2 0x6#5)) (fA (packCR 1#6 x0 x1 x2 0x6#5)) (fB (packCR 1#6 x0 x1 x2 0x6#5))) : Except DecodeError Instr) = _
  simp only [fA_packCR, fB_packCR, fD_packCR]
theorem rem : ∀ x0 x1 x2, Statement (.rem x0 x1 x2) := by
  intro x0 x1 x2
  refine ⟨fun _ h => (major_01 ..).trans ?_, nofun, nofun⟩
  unfold decodeMajor01
  rw [fFn_packCR]
  change (.ok (.rem (fD (packCR 1#6 x0 x1 x2 0x7#5)) (fA (packCR 1#6 x0 x1 x2 0x7#5)) (fB (packCR 1#6 x0 x1 x2 0x7#5))) : Except DecodeError Instr) = _
  simp only [fA_packCR, fB_packCR, fD_packCR]
theorem remn : ∀ x0 x1 x2, Statement (.remn x0 x1 x2) := by
  intro x0 x1 x2
  refine ⟨fun _ h => (major_01 ..).trans ?_, nofun, nofun⟩
  unfold decodeMajor01
  rw [fFn_packCR]
  change (.ok (.remn (fD (packCR 1#6 x0 x1 x2 0x8#5)) (fA (packCR 1#6 x0 x1 x2 0x8#5)) (fB (packCR 1#6 x0 x1 x2 0x8#5))) : Except DecodeError Instr) = _
  simp only [fA_packCR, fB_packCR, fD_packCR]
theorem and : ∀ x0 x1 x2, Statement (.and x0 x1 x2) := by
  intro x0 x1 x2
  refine ⟨fun _ h => (major_01 ..).trans ?_, nofun, nofun⟩
  unfold decodeMajor01
  rw [fFn_packCR]
  change (.ok (.and (fD (packCR 1#6 x0 x1 x2 0x9#5)) (fA (packCR 1#6 x0 x1 x2 0x9#5)) (fB (packCR 1#6 x0 x1 x2 0x9#5))) : Except DecodeError Instr) = _
  simp only [fA_packCR, fB_packCR, fD_packCR]
theorem or : ∀ x0 x1 x2, Statement (.or x0 x1 x2) := by
  intro x0 x1 x2
  refine ⟨fun _ h => (major_01 ..).trans ?_, nofun, nofun⟩
  unfold decodeMajor01
  rw [fFn_packCR]
  change (.ok (.or (fD (packCR 1#6 x0 x1 x2 0xa#5)) (fA (packCR 1#6 x0 x1 x2 0xa#5)) (fB (packCR 1#6 x0 x1 x2 0xa#5))) : Except DecodeError Instr) = _
  simp only [fA_packCR, fB_packCR, fD_packCR]
theorem xor : ∀ x0 x1 x2, Statement (.xor x0 x1 x2) := by
  intro x0 x1 x2
  refine ⟨fun _ h => (major_01 ..).trans ?_, nofun, nofun⟩
  unfold decodeMajor01
  rw [fFn_packCR]
  change (.ok (.xor (fD (packCR 1#6 x0 x1 x2 0xb#5)) (fA (packCR 1#6 x0 x1 x2 0xb#5)) (fB (packCR 1#6 x0 x1 x2 0xb#5))) : Except DecodeError Instr) = _
  simp only [fA_packCR, fB_packCR, fD_packCR]
theorem andn : ∀ x0 x1 x2, Statement (.andn x0 x1 x2) := by
  intro x0 x1 x2
  refine ⟨fun _ h => (major_01 ..).trans ?_, nofun, nofun⟩
  unfold decodeMajor01
  rw [fFn_packCR]
  change (.ok (.andn (fD (packCR 1#6 x0 x1 x2 0xc#5)) (fA (packCR 1#6 x0 x1 x2 0xc#5)) (fB (packCR 1#6 x0 x1 x2 0xc#5))) : Except DecodeError Instr) = _
  simp only [fA_packCR, fB_packCR, fD_packCR]
theorem shl : ∀ x0 x1 x2, Statement (.shl x0 x1 x2) := by
  intro x0 x1 x2
  refine ⟨fun _ h => (major_01 ..).trans ?_, nofun, nofun⟩
  unfold decodeMajor01
  rw [fFn_packCR]
  change (.ok (.shl (fD (packCR 1#6 x0 x1 x2 0xd#5)) (fA (packCR 1#6 x0 x1 x2 0xd#5)) (fB (packCR 1#6 x0 x1 x2 0xd#5))) : Except DecodeError Instr) = _
  simp only [fA_packCR, fB_packCR, fD_packCR]
theorem shr : ∀ x0 x1 x2, Statement (.shr x0 x1 x2) := by
  intro x0 x1 x2
  refine ⟨fun _ h => (major_01 ..).trans ?_, nofun, nofun⟩
  unfold decodeMajor01
  rw [fFn_packCR]
  change (.ok (.shr (fD (packCR 1#6 x0 x1 x2 0xe#5)) (fA (packCR 1#6 x0 x1 x2 0xe#5)) (fB (packCR 1#6 x0 x1 x2 0xe#5))) : Except DecodeError Instr) = _
  simp only [fA_packCR, fB_packCR, fD_packCR]
theorem sar : ∀ x0 x1 x2, Statement (.sar x0 x1 x2) := by
  intro x0 x1 x2
  refine ⟨fun _ h => (major_01 ..).trans ?_, nofun, nofun⟩
  unfold decodeMajor01
  rw [fFn_packCR]
  change (.ok (.sar (fD (packCR 1#6 x0 x1 x2 0xf#5)) (fA (packCR 1#6 x0 x1 x2 0xf#5)) (fB (packCR 1#6 x0 x1 x2 0xf#5))) : Except DecodeError Instr) = _
  simp only [fA_packCR, fB_packCR, fD_packCR]
theorem rotl : ∀ x0 x1 x2, Statement (.rotl x0 x1 x2) := by
  intro x0 x1 x2
  refine ⟨fun _ h => (major_01 ..).trans ?_, nofun, nofun⟩
  unfold decodeMajor01
  rw [fFn_packCR]
  change (.ok (.rotl (fD (packCR 1#6 x0 x1 x2 0x10#5)) (fA (packCR 1#6 x0 x1 x2 0x10#5)) (fB (packCR 1#6 x0 x1 x2 0x10#5))) : Except DecodeError Instr) = _
  simp only [fA_packCR, fB_packCR, fD_packCR]
theorem min : ∀ x0 x1 x2, Statement (.min x0 x1 x2) := by
  intro x0 x1 x2
  refine ⟨fun _ h => (major_01 ..).trans ?_, nofun, nofun⟩
  unfold decodeMajor01
  rw [fFn_packCR]
  change (.ok (.min (fD (packCR 1#6 x0 x1 x2 0x11#5)) (fA (packCR 1#6 x0 x1 x2 0x11#5)) (fB (packCR 1#6 x0 x1 x2 0x11#5))) : Except DecodeError Instr) = _
  simp only [fA_packCR, fB_packCR, fD_packCR]
theorem max : ∀ x0 x1 x2, Statement (.max x0 x1 x2) := by
  intro x0 x1 x2
  refine ⟨fun _ h => (major_01 ..).trans ?_, nofun, nofun⟩
  unfold decodeMajor01
  rw [fFn_packCR]
  change (.ok (.max (fD (packCR 1#6 x0 x1 x2 0x12#5)) (fA (packCR 1#6 x0 x1 x2 0x12#5)) (fB (packCR 1#6 x0 x1 x2 0x12#5))) : Except DecodeError Instr) = _
  simp only [fA_packCR, fB_packCR, fD_packCR]
theorem minn : ∀ x0 x1 x2, Statement (.minn x0 x1 x2) := by
  intro x0 x1 x2
  refine ⟨fun _ h => (major_01 ..).trans ?_, nofun, nofun⟩
  unfold decodeMajor01
  rw [fFn_packCR]
  change (.ok (.minn (fD (packCR 1#6 x0 x1 x2 0x13#5)) (fA (packCR 1#6 x0 x1 x2 0x13#5)) (fB (packCR 1#6 x0 x1 x2 0x13#5))) : Except DecodeError Instr) = _
  simp only [fA_packCR, fB_packCR, fD_packCR]
theorem maxn : ∀ x0 x1 x2, Statement (.maxn x0 x1 x2) := by
  intro x0 x1 x2
  refine ⟨fun _ h => (major_01 ..).trans ?_, nofun, nofun⟩
  unfold decodeMajor01
  rw [fFn_packCR]
  change (.ok (.maxn (fD (packCR 1#6 x0 x1 x2 0x14#5)) (fA (packCR 1#6 x0 x1 x2 0x14#5)) (fB (packCR 1#6 x0 x1 x2 0x14#5))) : Except DecodeError Instr) = _
  simp only [fA_packCR, fB_packCR, fD_packCR]
theorem clz : ∀ x0 x1, Statement (.clz x0 x1) := by
  intro x0 x1
  refine ⟨fun _ h => (major_01 ..).trans ?_, nofun, nofun⟩
  unfold decodeMajor01
  rw [fFn_packCR]
  change (need ((fB (packCR 1#6 x0 x1 0x0#7 0x15#5)) == 0x0#7) (.clz (fD (packCR 1#6 x0 x1 0x0#7 0x15#5)) (fA (packCR 1#6 x0 x1 0x0#7 0x15#5))) : Except DecodeError Instr) = _
  simp only [fA_packCR, fB_packCR, fD_packCR, need, beq_self_eq_true, Bool.and_self, if_true]
theorem ctz : ∀ x0 x1, Statement (.ctz x0 x1) := by
  intro x0 x1
  refine ⟨fun _ h => (major_01 ..).trans ?_, nofun, nofun⟩
  unfold decodeMajor01
  rw [fFn_packCR]
  change (need ((fB (packCR 1#6 x0 x1 0x0#7 0x16#5)) == 0x0#7) (.ctz (fD (packCR 1#6 x0 x1 0x0#7 0x16#5)) (fA (packCR 1#6 x0 x1 0x0#7 0x16#5))) : Except DecodeError Instr) = _
  simp only [fA_packCR, fB_packCR, fD_packCR, need, beq_self_eq_true, Bool.and_self, if_true]
theorem popc : ∀ x0 x1, Statement (.popc x0 x1) := by
  intro x0 x1
  refine ⟨fun _ h => (major_01 ..).trans ?_, nofun, nofun⟩
  unfold decodeMajor01
  rw [fFn_packCR]
  change (need ((fB (packCR 1#6 x0 x1 0x0#7 0x17#5)) == 0x0#7) (.popc (fD (packCR 1#6 x0 x1 0x0#7 0x17#5)) (fA (packCR 1#6 x0 x1 0x0#7 0x17#5))) : Except DecodeError Instr) = _
  simp only [fA_packCR, fB_packCR, fD_packCR, need, beq_self_eq_true, Bool.and_self, if_true]
theorem sext : ∀ x0 x1 x2, Statement (.sext x0 x1 x2) := by
  intro x0 x1 x2
  refine ⟨fun _ h => (major_01 ..).trans ?_, nofun, nofun⟩
  unfold decodeMajor01
  rw [fFn_packCR]
  change (.ok (.sext (fD (packCR 1#6 x0 x1 x2 0x18#5)) (fA (packCR 1#6 x0 x1 x2 0x18#5)) (fB (packCR 1#6 x0 x1 x2 0x18#5))) : Except DecodeError Instr) = _
  simp only [fA_packCR, fB_packCR, fD_packCR]
theorem zext : ∀ x0 x1 x2, Statement (.zext x0 x1 x2) := by
  intro x0 x1 x2
  refine ⟨fun _ h => (major_01 ..).trans ?_, nofun, nofun⟩
  unfold decodeMajor01
  rw [fFn_packCR]
  change (.ok (.zext (fD (packCR 1#6 x0 x1 x2 0x19#5)) (fA (packCR 1#6 x0 x1 x2 0x19#5)) (fB (packCR 1#6 x0 x1 x2 0x19#5))) : Except DecodeError Instr) = _
  simp only [fA_packCR, fB_packCR, fD_packCR]
theorem movx : ∀ x0 x1, Statement (.movx x0 x1) := by
  intro x0 x1
  refine ⟨fun _ h => (major_01 ..).trans ?_, nofun, nofun⟩
  unfold decodeMajor01
  rw [fFn_packCR]
  change (need ((fB (packCR 1#6 x0 x1 0x0#7 0x1a#5)) == 0x0#7) (.movx (fD (packCR 1#6 x0 x1 0x0#7 0x1a#5)) (fA (packCR 1#6 x0 x1 0x0#7 0x1a#5))) : Except DecodeError Instr) = _
  simp only [fA_packCR, fB_packCR, fD_packCR, need, beq_self_eq_true, Bool.and_self, if_true]
theorem addi : ∀ x0 x1 x2, Statement (.addi x0 x1 x2) := by
  intro x0 x1 x2
  refine ⟨fun _ h => ?_, nofun, nofun⟩
  change decodeC (packCI 2#6 x0 x1 x2) = _
  unfold decodeC
  rw [fMajor_packCI]
  change (.ok (.addi (fD (packCI 2#6 x0 x1 x2)) (fA (packCI 2#6 x0 x1 x2)) (fI12 (packCI 2#6 x0 x1 x2))) : Except DecodeError Instr) = _
  simp only [fA_packCI, fD_packCI, fI12_packCI]
theorem andi : ∀ x0 x1 x2, Statement (.andi x0 x1 x2) := by
  intro x0 x1 x2
  refine ⟨fun _ h => ?_, nofun, nofun⟩
  change decodeC (packCI 3#6 x0 x1 x2) = _
  unfold decodeC
  rw [fMajor_packCI]
  change (.ok (.andi (fD (packCI 3#6 x0 x1 x2)) (fA (packCI 3#6 x0 x1 x2)) (fI12 (packCI 3#6 x0 x1 x2))) : Except DecodeError Instr) = _
  simp only [fA_packCI, fD_packCI, fI12_packCI]
theorem ori : ∀ x0 x1 x2, Statement (.ori x0 x1 x2) := by
  intro x0 x1 x2
  refine ⟨fun _ h => ?_, nofun, nofun⟩
  change decodeC (packCI 4#6 x0 x1 x2) = _
  unfold decodeC
  rw [fMajor_packCI]
  change (.ok (.ori (fD (packCI 4#6 x0 x1 x2)) (fA (packCI 4#6 x0 x1 x2)) (fI12 (packCI 4#6 x0 x1 x2))) : Except DecodeError Instr) = _
  simp only [fA_packCI, fD_packCI, fI12_packCI]
theorem xori : ∀ x0 x1 x2, Statement (.xori x0 x1 x2) := by
  intro x0 x1 x2
  refine ⟨fun _ h => ?_, nofun, nofun⟩
  change decodeC (packCI 5#6 x0 x1 x2) = _
  unfold decodeC
  rw [fMajor_packCI]
  change (.ok (.xori (fD (packCI 5#6 x0 x1 x2)) (fA (packCI 5#6 x0 x1 x2)) (fI12 (packCI 5#6 x0 x1 x2))) : Except DecodeError Instr) = _
  simp only [fA_packCI, fD_packCI, fI12_packCI]
theorem shli : ∀ x0 x1 x2, Statement (.shli x0 x1 x2) := by
  intro x0 x1 x2
  refine ⟨fun _ h => ?_, nofun, nofun⟩
  change decodeC (packCI 6#6 x0 x1 (0x0#6 ++ x2)) = _
  unfold decodeC
  rw [fMajor_packCI]
  change (need (((fI12 (packCI 6#6 x0 x1 (0x0#6 ++ x2))).extractLsb' 6 6) == 0x0#6) (.shli (fD (packCI 6#6 x0 x1 (0x0#6 ++ x2))) (fA (packCI 6#6 x0 x1 (0x0#6 ++ x2))) ((fI12 (packCI 6#6 x0 x1 (0x0#6 ++ x2))).extractLsb' 0 6)) : Except DecodeError Instr) = _
  simp only [fA_packCI, fD_packCI, fI12_packCI, part0_of_1_5, part1_of_1_5, part0_of_2_1_1_2, part1_of_2_1_1_2, part2_of_2_1_1_2, part3_of_2_1_1_2, part0_of_2_3, part1_of_2_3, part0_of_2_4, part1_of_2_4, part0_of_3_1_2, part1_of_3_1_2, part2_of_3_1_2, part0_of_3_2_3_1, part1_of_3_2_3_1, part2_of_3_2_3_1, part3_of_3_2_3_1, part0_of_3_2_4, part1_of_3_2_4, part2_of_3_2_4, part0_of_3_3_2_1, part1_of_3_3_2_1, part2_of_3_3_2_1, part3_of_3_3_2_1, part0_of_3_3_3, part1_of_3_3_3, part2_of_3_3_3, part0_of_3_5_1, part1_of_3_5_1, part2_of_3_5_1, part0_of_3_6, part1_of_3_6, part0_of_4_2, part1_of_4_2, part0_of_5_1, part1_of_5_1, part0_of_5_2_2, part1_of_5_2_2, part2_of_5_2_2, part0_of_5_3_1, part1_of_5_3_1, part2_of_5_3_1, part0_of_5_4, part1_of_5_4, part0_of_6_2_1, part1_of_6_2_1, part2_of_6_2_1, part0_of_6_6, part1_of_6_6, part0_of_8_1, part1_of_8_1, need, beq_self_eq_true, Bool.and_self, if_true]
theorem shri : ∀ x0 x1 x2, Statement (.shri x0 x1 x2) := by
  intro x0 x1 x2
  refine ⟨fun _ h => ?_, nofun, nofun⟩
  change decodeC (packCI 7#6 x0 x1 (0x0#6 ++ x2)) = _
  unfold decodeC
  rw [fMajor_packCI]
  change (need (((fI12 (packCI 7#6 x0 x1 (0x0#6 ++ x2))).extractLsb' 6 6) == 0x0#6) (.shri (fD (packCI 7#6 x0 x1 (0x0#6 ++ x2))) (fA (packCI 7#6 x0 x1 (0x0#6 ++ x2))) ((fI12 (packCI 7#6 x0 x1 (0x0#6 ++ x2))).extractLsb' 0 6)) : Except DecodeError Instr) = _
  simp only [fA_packCI, fD_packCI, fI12_packCI, part0_of_1_5, part1_of_1_5, part0_of_2_1_1_2, part1_of_2_1_1_2, part2_of_2_1_1_2, part3_of_2_1_1_2, part0_of_2_3, part1_of_2_3, part0_of_2_4, part1_of_2_4, part0_of_3_1_2, part1_of_3_1_2, part2_of_3_1_2, part0_of_3_2_3_1, part1_of_3_2_3_1, part2_of_3_2_3_1, part3_of_3_2_3_1, part0_of_3_2_4, part1_of_3_2_4, part2_of_3_2_4, part0_of_3_3_2_1, part1_of_3_3_2_1, part2_of_3_3_2_1, part3_of_3_3_2_1, part0_of_3_3_3, part1_of_3_3_3, part2_of_3_3_3, part0_of_3_5_1, part1_of_3_5_1, part2_of_3_5_1, part0_of_3_6, part1_of_3_6, part0_of_4_2, part1_of_4_2, part0_of_5_1, part1_of_5_1, part0_of_5_2_2, part1_of_5_2_2, part2_of_5_2_2, part0_of_5_3_1, part1_of_5_3_1, part2_of_5_3_1, part0_of_5_4, part1_of_5_4, part0_of_6_2_1, part1_of_6_2_1, part2_of_6_2_1, part0_of_6_6, part1_of_6_6, part0_of_8_1, part1_of_8_1, need, beq_self_eq_true, Bool.and_self, if_true]
theorem sari : ∀ x0 x1 x2, Statement (.sari x0 x1 x2) := by
  intro x0 x1 x2
  refine ⟨fun _ h => ?_, nofun, nofun⟩
  change decodeC (packCI 8#6 x0 x1 (0x0#6 ++ x2)) = _
  unfold decodeC
  rw [fMajor_packCI]
  change (need (((fI12 (packCI 8#6 x0 x1 (0x0#6 ++ x2))).extractLsb' 6 6) == 0x0#6) (.sari (fD (packCI 8#6 x0 x1 (0x0#6 ++ x2))) (fA (packCI 8#6 x0 x1 (0x0#6 ++ x2))) ((fI12 (packCI 8#6 x0 x1 (0x0#6 ++ x2))).extractLsb' 0 6)) : Except DecodeError Instr) = _
  simp only [fA_packCI, fD_packCI, fI12_packCI, part0_of_1_5, part1_of_1_5, part0_of_2_1_1_2, part1_of_2_1_1_2, part2_of_2_1_1_2, part3_of_2_1_1_2, part0_of_2_3, part1_of_2_3, part0_of_2_4, part1_of_2_4, part0_of_3_1_2, part1_of_3_1_2, part2_of_3_1_2, part0_of_3_2_3_1, part1_of_3_2_3_1, part2_of_3_2_3_1, part3_of_3_2_3_1, part0_of_3_2_4, part1_of_3_2_4, part2_of_3_2_4, part0_of_3_3_2_1, part1_of_3_3_2_1, part2_of_3_3_2_1, part3_of_3_3_2_1, part0_of_3_3_3, part1_of_3_3_3, part2_of_3_3_3, part0_of_3_5_1, part1_of_3_5_1, part2_of_3_5_1, part0_of_3_6, part1_of_3_6, part0_of_4_2, part1_of_4_2, part0_of_5_1, part1_of_5_1, part0_of_5_2_2, part1_of_5_2_2, part2_of_5_2_2, part0_of_5_3_1, part1_of_5_3_1, part2_of_5_3_1, part0_of_5_4, part1_of_5_4, part0_of_6_2_1, part1_of_6_2_1, part2_of_6_2_1, part0_of_6_6, part1_of_6_6, part0_of_8_1, part1_of_8_1, need, beq_self_eq_true, Bool.and_self, if_true]
theorem muli : ∀ x0 x1 x2, Statement (.muli x0 x1 x2) := by
  intro x0 x1 x2
  refine ⟨fun _ h => ?_, nofun, nofun⟩
  change decodeC (packCI 9#6 x0 x1 x2) = _
  unfold decodeC
  rw [fMajor_packCI]
  change (.ok (.muli (fD (packCI 9#6 x0 x1 x2)) (fA (packCI 9#6 x0 x1 x2)) (fI12 (packCI 9#6 x0 x1 x2))) : Except DecodeError Instr) = _
  simp only [fA_packCI, fD_packCI, fI12_packCI]
theorem li : ∀ x0 x1, Statement (.li x0 x1) := by
  intro x0 x1
  refine ⟨fun _ h => ?_, nofun, nofun⟩
  change decodeC (packCL 10#6 x0 x1) = _
  unfold decodeC
  rw [fMajor_packCL]
  change (.ok (.li (fD (packCL 10#6 x0 x1)) (fI19 (packCL 10#6 x0 x1))) : Except DecodeError Instr) = _
  simp only [fD_packCL, fI19_packCL]
theorem lpc : ∀ x0 x1, Statement (.lpc x0 x1) := by
  intro x0 x1
  refine ⟨fun _ h => ?_, nofun, nofun⟩
  change decodeC (packCL 11#6 x0 x1) = _
  unfold decodeC
  rw [fMajor_packCL]
  change (.ok (.lpc (fD (packCL 11#6 x0 x1)) (fI19 (packCL 11#6 x0 x1))) : Except DecodeError Instr) = _
  simp only [fD_packCL, fI19_packCL]
theorem loop : ∀ x0 x1, Statement (.loop x0 x1) := by
  intro x0 x1
  refine ⟨fun _ h => ?_, nofun, nofun⟩
  change decodeC (packCL 12#6 x0 x1) = _
  unfold decodeC
  rw [fMajor_packCL]
  change (.ok (.loop (fD (packCL 12#6 x0 x1)) (fI19 (packCL 12#6 x0 x1))) : Except DecodeError Instr) = _
  simp only [fD_packCL, fI19_packCL]
theorem cmpeq : ∀ x0 x1 x2, Statement (.cmpeq x0 x1 x2) := by
  intro x0 x1 x2
  refine ⟨fun _ h => (major_0d ..).trans ?_, nofun, nofun⟩
  unfold decodeMajor0d
  rw [fFn_packCR]
  change (.ok (.cmpeq (fD (packCR 13#6 x0 x1 x2 0x0#5)) (fA (packCR 13#6 x0 x1 x2 0x0#5)) (fB (packCR 13#6 x0 x1 x2 0x0#5))) : Except DecodeError Instr) = _
  simp only [fA_packCR, fB_packCR, fD_packCR]
theorem cmpne : ∀ x0 x1 x2, Statement (.cmpne x0 x1 x2) := by
  intro x0 x1 x2
  refine ⟨fun _ h => (major_0d ..).trans ?_, nofun, nofun⟩
  unfold decodeMajor0d
  rw [fFn_packCR]
  change (.ok (.cmpne (fD (packCR 13#6 x0 x1 x2 0x1#5)) (fA (packCR 13#6 x0 x1 x2 0x1#5)) (fB (packCR 13#6 x0 x1 x2 0x1#5))) : Except DecodeError Instr) = _
  simp only [fA_packCR, fB_packCR, fD_packCR]
theorem cmplt : ∀ x0 x1 x2, Statement (.cmplt x0 x1 x2) := by
  intro x0 x1 x2
  refine ⟨fun _ h => (major_0d ..).trans ?_, nofun, nofun⟩
  unfold decodeMajor0d
  rw [fFn_packCR]
  change (.ok (.cmplt (fD (packCR 13#6 x0 x1 x2 0x2#5)) (fA (packCR 13#6 x0 x1 x2 0x2#5)) (fB (packCR 13#6 x0 x1 x2 0x2#5))) : Except DecodeError Instr) = _
  simp only [fA_packCR, fB_packCR, fD_packCR]
theorem cmple : ∀ x0 x1 x2, Statement (.cmple x0 x1 x2) := by
  intro x0 x1 x2
  refine ⟨fun _ h => (major_0d ..).trans ?_, nofun, nofun⟩
  unfold decodeMajor0d
  rw [fFn_packCR]
  change (.ok (.cmple (fD (packCR 13#6 x0 x1 x2 0x3#5)) (fA (packCR 13#6 x0 x1 x2 0x3#5)) (fB (packCR 13#6 x0 x1 x2 0x3#5))) : Except DecodeError Instr) = _
  simp only [fA_packCR, fB_packCR, fD_packCR]
theorem cmpltn : ∀ x0 x1 x2, Statement (.cmpltn x0 x1 x2) := by
  intro x0 x1 x2
  refine ⟨fun _ h => (major_0d ..).trans ?_, nofun, nofun⟩
  unfold decodeMajor0d
  rw [fFn_packCR]
  change (.ok (.cmpltn (fD (packCR 13#6 x0 x1 x2 0x4#5)) (fA (packCR 13#6 x0 x1 x2 0x4#5)) (fB (packCR 13#6 x0 x1 x2 0x4#5))) : Except DecodeError Instr) = _
  simp only [fA_packCR, fB_packCR, fD_packCR]
theorem cmplen : ∀ x0 x1 x2, Statement (.cmplen x0 x1 x2) := by
  intro x0 x1 x2
  refine ⟨fun _ h => (major_0d ..).trans ?_, nofun, nofun⟩
  unfold decodeMajor0d
  rw [fFn_packCR]
  change (.ok (.cmplen (fD (packCR 13#6 x0 x1 x2 0x5#5)) (fA (packCR 13#6 x0 x1 x2 0x5#5)) (fB (packCR 13#6 x0 x1 x2 0x5#5))) : Except DecodeError Instr) = _
  simp only [fA_packCR, fB_packCR, fD_packCR]
theorem cmptst : ∀ x0 x1 x2, Statement (.cmptst x0 x1 x2) := by
  intro x0 x1 x2
  refine ⟨fun _ h => (major_0d ..).trans ?_, nofun, nofun⟩
  unfold decodeMajor0d
  rw [fFn_packCR]
  change (.ok (.cmptst (fD (packCR 13#6 x0 x1 x2 0x6#5)) (fA (packCR 13#6 x0 x1 x2 0x6#5)) (fB (packCR 13#6 x0 x1 x2 0x6#5))) : Except DecodeError Instr) = _
  simp only [fA_packCR, fB_packCR, fD_packCR]
theorem cmpeqi : ∀ x0 x1 x2, Statement (.cmpeqi x0 x1 x2) := by
  intro x0 x1 x2
  refine ⟨fun _ h => ?_, nofun, nofun⟩
  change decodeC (packCI 14#6 x0 x1 x2) = _
  unfold decodeC
  rw [fMajor_packCI]
  change (.ok (.cmpeqi (fD (packCI 14#6 x0 x1 x2)) (fA (packCI 14#6 x0 x1 x2)) (fI12 (packCI 14#6 x0 x1 x2))) : Except DecodeError Instr) = _
  simp only [fA_packCI, fD_packCI, fI12_packCI]
theorem cmplti : ∀ x0 x1 x2, Statement (.cmplti x0 x1 x2) := by
  intro x0 x1 x2
  refine ⟨fun _ h => ?_, nofun, nofun⟩
  change decodeC (packCI 15#6 x0 x1 x2) = _
  unfold decodeC
  rw [fMajor_packCI]
  change (.ok (.cmplti (fD (packCI 15#6 x0 x1 x2)) (fA (packCI 15#6 x0 x1 x2)) (fI12 (packCI 15#6 x0 x1 x2))) : Except DecodeError Instr) = _
  simp only [fA_packCI, fD_packCI, fI12_packCI]
theorem cmpltni : ∀ x0 x1 x2, Statement (.cmpltni x0 x1 x2) := by
  intro x0 x1 x2
  refine ⟨fun _ h => ?_, nofun, nofun⟩
  change decodeC (packCI 16#6 x0 x1 x2) = _
  unfold decodeC
  rw [fMajor_packCI]
  change (.ok (.cmpltni (fD (packCI 16#6 x0 x1 x2)) (fA (packCI 16#6 x0 x1 x2)) (fI12 (packCI 16#6 x0 x1 x2))) : Except DecodeError Instr) = _
  simp only [fA_packCI, fD_packCI, fI12_packCI]
theorem pand : ∀ x0 x1 x2, Statement (.pand x0 x1 x2) := by
  intro x0 x1 x2
  refine ⟨fun _ h => (major_11 ..).trans ?_, nofun, nofun⟩
  unfold decodeMajor11
  rw [fFn_packCR]
  change (.ok (.pand (fD (packCR 17#6 x0 x1 x2 0x0#5)) (fA (packCR 17#6 x0 x1 x2 0x0#5)) (fB (packCR 17#6 x0 x1 x2 0x0#5))) : Except DecodeError Instr) = _
  simp only [fA_packCR, fB_packCR, fD_packCR]
theorem por : ∀ x0 x1 x2, Statement (.por x0 x1 x2) := by
  intro x0 x1 x2
  refine ⟨fun _ h => (major_11 ..).trans ?_, nofun, nofun⟩
  unfold decodeMajor11
  rw [fFn_packCR]
  change (.ok (.por (fD (packCR 17#6 x0 x1 x2 0x1#5)) (fA (packCR 17#6 x0 x1 x2 0x1#5)) (fB (packCR 17#6 x0 x1 x2 0x1#5))) : Except DecodeError Instr) = _
  simp only [fA_packCR, fB_packCR, fD_packCR]
theorem pxor : ∀ x0 x1 x2, Statement (.pxor x0 x1 x2) := by
  intro x0 x1 x2
  refine ⟨fun _ h => (major_11 ..).trans ?_, nofun, nofun⟩
  unfold decodeMajor11
  rw [fFn_packCR]
  change (.ok (.pxor (fD (packCR 17#6 x0 x1 x2 0x2#5)) (fA (packCR 17#6 x0 x1 x2 0x2#5)) (fB (packCR 17#6 x0 x1 x2 0x2#5))) : Except DecodeError Instr) = _
  simp only [fA_packCR, fB_packCR, fD_packCR]
theorem pandn : ∀ x0 x1 x2, Statement (.pandn x0 x1 x2) := by
  intro x0 x1 x2
  refine ⟨fun _ h => (major_11 ..).trans ?_, nofun, nofun⟩
  unfold decodeMajor11
  rw [fFn_packCR]
  change (.ok (.pandn (fD (packCR 17#6 x0 x1 x2 0x3#5)) (fA (packCR 17#6 x0 x1 x2 0x3#5)) (fB (packCR 17#6 x0 x1 x2 0x3#5))) : Except DecodeError Instr) = _
  simp only [fA_packCR, fB_packCR, fD_packCR]
theorem pnot : ∀ x0 x1, Statement (.pnot x0 x1) := by
  intro x0 x1
  refine ⟨fun _ h => (major_11 ..).trans ?_, nofun, nofun⟩
  unfold decodeMajor11
  rw [fFn_packCR]
  change (need ((fB (packCR 17#6 x0 x1 0x0#7 0x4#5)) == 0x0#7) (.pnot (fD (packCR 17#6 x0 x1 0x0#7 0x4#5)) (fA (packCR 17#6 x0 x1 0x0#7 0x4#5))) : Except DecodeError Instr) = _
  simp only [fA_packCR, fB_packCR, fD_packCR, need, beq_self_eq_true, Bool.and_self, if_true]
theorem pmov : ∀ x0 x1, Statement (.pmov x0 x1) := by
  intro x0 x1
  refine ⟨fun _ h => (major_11 ..).trans ?_, nofun, nofun⟩
  unfold decodeMajor11
  rw [fFn_packCR]
  change (need ((fB (packCR 17#6 x0 x1 0x0#7 0x5#5)) == 0x0#7) (.pmov (fD (packCR 17#6 x0 x1 0x0#7 0x5#5)) (fA (packCR 17#6 x0 x1 0x0#7 0x5#5))) : Except DecodeError Instr) = _
  simp only [fA_packCR, fB_packCR, fD_packCR, need, beq_self_eq_true, Bool.and_self, if_true]
theorem pset : ∀ x0 x1, Statement (.pset x0 x1) := by
  intro x0 x1
  refine ⟨fun _ h => (major_11 ..).trans ?_, nofun, nofun⟩
  unfold decodeMajor11
  rw [fFn_packCR]
  change (need ((fB (packCR 17#6 x0 x1 0x0#7 0x6#5)) == 0x0#7) (.pset (fD (packCR 17#6 x0 x1 0x0#7 0x6#5)) (fA (packCR 17#6 x0 x1 0x0#7 0x6#5))) : Except DecodeError Instr) = _
  simp only [fA_packCR, fB_packCR, fD_packCR, need, beq_self_eq_true, Bool.and_self, if_true]
theorem sel : ∀ x0 x1 x2 x3, Statement (.sel x0 x1 x2 x3) := by
  intro x0 x1 x2 x3
  refine ⟨fun _ h => ?_, nofun, nofun⟩
  change decodeC (packCR 18#6 x0 x1 x2 (0x0#2 ++ x3)) = _
  unfold decodeC
  rw [fMajor_packCR]
  change (need (((fFn (packCR 18#6 x0 x1 x2 (0x0#2 ++ x3))).extractLsb' 3 2) == 0x0#2) (.sel (fD (packCR 18#6 x0 x1 x2 (0x0#2 ++ x3))) (fA (packCR 18#6 x0 x1 x2 (0x0#2 ++ x3))) (fB (packCR 18#6 x0 x1 x2 (0x0#2 ++ x3))) ((fFn (packCR 18#6 x0 x1 x2 (0x0#2 ++ x3))).extractLsb' 0 3)) : Except DecodeError Instr) = _
  simp only [fA_packCR, fB_packCR, fD_packCR, fFn_packCR, part0_of_1_5, part1_of_1_5, part0_of_2_1_1_2, part1_of_2_1_1_2, part2_of_2_1_1_2, part3_of_2_1_1_2, part0_of_2_3, part1_of_2_3, part0_of_2_4, part1_of_2_4, part0_of_3_1_2, part1_of_3_1_2, part2_of_3_1_2, part0_of_3_2_3_1, part1_of_3_2_3_1, part2_of_3_2_3_1, part3_of_3_2_3_1, part0_of_3_2_4, part1_of_3_2_4, part2_of_3_2_4, part0_of_3_3_2_1, part1_of_3_3_2_1, part2_of_3_3_2_1, part3_of_3_3_2_1, part0_of_3_3_3, part1_of_3_3_3, part2_of_3_3_3, part0_of_3_5_1, part1_of_3_5_1, part2_of_3_5_1, part0_of_3_6, part1_of_3_6, part0_of_4_2, part1_of_4_2, part0_of_5_1, part1_of_5_1, part0_of_5_2_2, part1_of_5_2_2, part2_of_5_2_2, part0_of_5_3_1, part1_of_5_3_1, part2_of_5_3_1, part0_of_5_4, part1_of_5_4, part0_of_6_2_1, part1_of_6_2_1, part2_of_6_2_1, part0_of_6_6, part1_of_6_6, part0_of_8_1, part1_of_8_1, need, beq_self_eq_true, Bool.and_self, if_true]
theorem b : ∀ x0, Statement (.b x0) := by
  intro x0
  refine ⟨fun _ h => (major_14 ..).trans ?_, nofun, nofun⟩
  simp [decodeBranch]
theorem bp : ∀ x0 x1, Statement (.bp x0 x1) := by
  intro x0 x1
  refine ⟨fun _ h => (major_14 ..).trans ?_, nofun, nofun⟩
  simp [fieldsOk] at h
  simp [decodeBranch, h]
theorem bnp : ∀ x0 x1, Statement (.bnp x0 x1) := by
  intro x0 x1
  refine ⟨fun _ h => (major_14 ..).trans ?_, nofun, nofun⟩
  simp [decodeBranch]
theorem call : ∀ x0, Statement (.call x0) := by
  intro x0
  refine ⟨fun _ h => ?_, nofun, nofun⟩
  change decodeC (packCB 21#6 0x0#1 0x0#3 x0) = _
  unfold decodeC
  rw [fMajor_packCB]
  change (need ((fNeg (packCB 21#6 0x0#1 0x0#3 x0)) == 0x0#1 && (fP (packCB 21#6 0x0#1 0x0#3 x0)) == 0x0#3) (.call (fO22 (packCB 21#6 0x0#1 0x0#3 x0))) : Except DecodeError Instr) = _
  simp only [fNeg_packCB, fO22_packCB, fP_packCB, need, beq_self_eq_true, Bool.and_self, if_true]
theorem jr : ∀ x0, Statement (.jr x0) := by
  intro x0
  refine ⟨fun _ h => (major_16 ..).trans ?_, nofun, nofun⟩
  unfold decodeMajor16
  rw [fFn_packCR]
  change (need ((fD (packCR 22#6 0x0#7 x0 0x0#7 0x0#5)) == 0x0#7 && (fB (packCR 22#6 0x0#7 x0 0x0#7 0x0#5)) == 0x0#7) (.jr (fA (packCR 22#6 0x0#7 x0 0x0#7 0x0#5))) : Except DecodeError Instr) = _
  simp only [fA_packCR, fB_packCR, fD_packCR, need, beq_self_eq_true, Bool.and_self, if_true]
theorem jalr : ∀ x0 x1, Statement (.jalr x0 x1) := by
  intro x0 x1
  refine ⟨fun _ h => (major_16 ..).trans ?_, nofun, nofun⟩
  unfold decodeMajor16
  rw [fFn_packCR]
  change (need ((fB (packCR 22#6 x0 x1 0x0#7 0x1#5)) == 0x0#7) (.jalr (fD (packCR 22#6 x0 x1 0x0#7 0x1#5)) (fA (packCR 22#6 x0 x1 0x0#7 0x1#5))) : Except DecodeError Instr) = _
  simp only [fA_packCR, fB_packCR, fD_packCR, need, beq_self_eq_true, Bool.and_self, if_true]
theorem ret : Statement .ret := by
  refine ⟨fun _ h => (major_16 ..).trans ?_, nofun, nofun⟩
  unfold decodeMajor16
  rw [fFn_packCR]
  change (need ((fD (packCR 22#6 0x0#7 0x3e#7 0x0#7 0x2#5)) == 0x0#7 && (fA (packCR 22#6 0x0#7 0x3e#7 0x0#7 0x2#5)) == 0x3e#7 && (fB (packCR 22#6 0x0#7 0x3e#7 0x0#7 0x2#5)) == 0x0#7) (.ret) : Except DecodeError Instr) = _
  simp only [fA_packCR, fB_packCR, fD_packCR, need, beq_self_eq_true, Bool.and_self, if_true]
theorem bz : ∀ x0 x1 x2, Statement (.bz x0 x1 x2) := by
  intro x0 x1 x2
  refine ⟨fun _ h => ?_, nofun, nofun⟩
  change decodeC (packCZ 23#6 x0 x1 x2) = _
  unfold decodeC
  rw [fMajor_packCZ]
  change (.ok (.bz (fD (packCZ 23#6 x0 x1 x2)) (fNz (packCZ 23#6 x0 x1 x2)) (fO18 (packCZ 23#6 x0 x1 x2))) : Except DecodeError Instr) = _
  simp only [fD_packCZ, fNz_packCZ, fO18_packCZ]
theorem bnz : ∀ x0 x1 x2, Statement (.bnz x0 x1 x2) := by
  intro x0 x1 x2
  refine ⟨fun _ h => ?_, nofun, nofun⟩
  change decodeC (packCZ 24#6 x0 x1 x2) = _
  unfold decodeC
  rw [fMajor_packCZ]
  change (.ok (.bnz (fD (packCZ 24#6 x0 x1 x2)) (fNz (packCZ 24#6 x0 x1 x2)) (fO18 (packCZ 24#6 x0 x1 x2))) : Except DecodeError Instr) = _
  simp only [fD_packCZ, fNz_packCZ, fO18_packCZ]
theorem fadd : ∀ x0 x1 x2, Statement (.fadd x0 x1 x2) := by
  intro x0 x1 x2
  refine ⟨fun _ h => (major_19 ..).trans ?_, nofun, nofun⟩
  unfold decodeMajor19
  rw [fFn_packCR]
  change (.ok (.fadd (fD (packCR 25#6 x0 x1 x2 0x0#5)) (fA (packCR 25#6 x0 x1 x2 0x0#5)) (fB (packCR 25#6 x0 x1 x2 0x0#5))) : Except DecodeError Instr) = _
  simp only [fA_packCR, fB_packCR, fD_packCR]
theorem fsub : ∀ x0 x1 x2, Statement (.fsub x0 x1 x2) := by
  intro x0 x1 x2
  refine ⟨fun _ h => (major_19 ..).trans ?_, nofun, nofun⟩
  unfold decodeMajor19
  rw [fFn_packCR]
  change (.ok (.fsub (fD (packCR 25#6 x0 x1 x2 0x1#5)) (fA (packCR 25#6 x0 x1 x2 0x1#5)) (fB (packCR 25#6 x0 x1 x2 0x1#5))) : Except DecodeError Instr) = _
  simp only [fA_packCR, fB_packCR, fD_packCR]
theorem fmul : ∀ x0 x1 x2, Statement (.fmul x0 x1 x2) := by
  intro x0 x1 x2
  refine ⟨fun _ h => (major_19 ..).trans ?_, nofun, nofun⟩
  unfold decodeMajor19
  rw [fFn_packCR]
  change (.ok (.fmul (fD (packCR 25#6 x0 x1 x2 0x2#5)) (fA (packCR 25#6 x0 x1 x2 0x2#5)) (fB (packCR 25#6 x0 x1 x2 0x2#5))) : Except DecodeError Instr) = _
  simp only [fA_packCR, fB_packCR, fD_packCR]
theorem fdiv : ∀ x0 x1 x2, Statement (.fdiv x0 x1 x2) := by
  intro x0 x1 x2
  refine ⟨fun _ h => (major_19 ..).trans ?_, nofun, nofun⟩
  unfold decodeMajor19
  rw [fFn_packCR]
  change (.ok (.fdiv (fD (packCR 25#6 x0 x1 x2 0x3#5)) (fA (packCR 25#6 x0 x1 x2 0x3#5)) (fB (packCR 25#6 x0 x1 x2 0x3#5))) : Except DecodeError Instr) = _
  simp only [fA_packCR, fB_packCR, fD_packCR]
theorem fsqrt : ∀ x0 x1, Statement (.fsqrt x0 x1) := by
  intro x0 x1
  refine ⟨fun _ h => (major_19 ..).trans ?_, nofun, nofun⟩
  unfold decodeMajor19
  rw [fFn_packCR]
  change (need ((fB (packCR 25#6 x0 x1 0x0#7 0x4#5)) == 0x0#7) (.fsqrt (fD (packCR 25#6 x0 x1 0x0#7 0x4#5)) (fA (packCR 25#6 x0 x1 0x0#7 0x4#5))) : Except DecodeError Instr) = _
  simp only [fA_packCR, fB_packCR, fD_packCR, need, beq_self_eq_true, Bool.and_self, if_true]
theorem fmin : ∀ x0 x1 x2, Statement (.fmin x0 x1 x2) := by
  intro x0 x1 x2
  refine ⟨fun _ h => (major_19 ..).trans ?_, nofun, nofun⟩
  unfold decodeMajor19
  rw [fFn_packCR]
  change (.ok (.fmin (fD (packCR 25#6 x0 x1 x2 0x5#5)) (fA (packCR 25#6 x0 x1 x2 0x5#5)) (fB (packCR 25#6 x0 x1 x2 0x5#5))) : Except DecodeError Instr) = _
  simp only [fA_packCR, fB_packCR, fD_packCR]
theorem fmax : ∀ x0 x1 x2, Statement (.fmax x0 x1 x2) := by
  intro x0 x1 x2
  refine ⟨fun _ h => (major_19 ..).trans ?_, nofun, nofun⟩
  unfold decodeMajor19
  rw [fFn_packCR]
  change (.ok (.fmax (fD (packCR 25#6 x0 x1 x2 0x6#5)) (fA (packCR 25#6 x0 x1 x2 0x6#5)) (fB (packCR 25#6 x0 x1 x2 0x6#5))) : Except DecodeError Instr) = _
  simp only [fA_packCR, fB_packCR, fD_packCR]
theorem fabs : ∀ x0 x1, Statement (.fabs x0 x1) := by
  intro x0 x1
  refine ⟨fun _ h => (major_19 ..).trans ?_, nofun, nofun⟩
  unfold decodeMajor19
  rw [fFn_packCR]
  change (need ((fB (packCR 25#6 x0 x1 0x0#7 0x7#5)) == 0x0#7) (.fabs (fD (packCR 25#6 x0 x1 0x0#7 0x7#5)) (fA (packCR 25#6 x0 x1 0x0#7 0x7#5))) : Except DecodeError Instr) = _
  simp only [fA_packCR, fB_packCR, fD_packCR, need, beq_self_eq_true, Bool.and_self, if_true]
theorem fneg : ∀ x0 x1, Statement (.fneg x0 x1) := by
  intro x0 x1
  refine ⟨fun _ h => (major_19 ..).trans ?_, nofun, nofun⟩
  unfold decodeMajor19
  rw [fFn_packCR]
  change (need ((fB (packCR 25#6 x0 x1 0x0#7 0x8#5)) == 0x0#7) (.fneg (fD (packCR 25#6 x0 x1 0x0#7 0x8#5)) (fA (packCR 25#6 x0 x1 0x0#7 0x8#5))) : Except DecodeError Instr) = _
  simp only [fA_packCR, fB_packCR, fD_packCR, need, beq_self_eq_true, Bool.and_self, if_true]
theorem fcmpeq : ∀ x0 x1 x2, Statement (.fcmpeq x0 x1 x2) := by
  intro x0 x1 x2
  refine ⟨fun _ h => (major_19 ..).trans ?_, nofun, nofun⟩
  unfold decodeMajor19
  rw [fFn_packCR]
  change (.ok (.fcmpeq (fD (packCR 25#6 x0 x1 x2 0x9#5)) (fA (packCR 25#6 x0 x1 x2 0x9#5)) (fB (packCR 25#6 x0 x1 x2 0x9#5))) : Except DecodeError Instr) = _
  simp only [fA_packCR, fB_packCR, fD_packCR]
theorem fcmplt : ∀ x0 x1 x2, Statement (.fcmplt x0 x1 x2) := by
  intro x0 x1 x2
  refine ⟨fun _ h => (major_19 ..).trans ?_, nofun, nofun⟩
  unfold decodeMajor19
  rw [fFn_packCR]
  change (.ok (.fcmplt (fD (packCR 25#6 x0 x1 x2 0xa#5)) (fA (packCR 25#6 x0 x1 x2 0xa#5)) (fB (packCR 25#6 x0 x1 x2 0xa#5))) : Except DecodeError Instr) = _
  simp only [fA_packCR, fB_packCR, fD_packCR]
theorem fcmple : ∀ x0 x1 x2, Statement (.fcmple x0 x1 x2) := by
  intro x0 x1 x2
  refine ⟨fun _ h => (major_19 ..).trans ?_, nofun, nofun⟩
  unfold decodeMajor19
  rw [fFn_packCR]
  change (.ok (.fcmple (fD (packCR 25#6 x0 x1 x2 0xb#5)) (fA (packCR 25#6 x0 x1 x2 0xb#5)) (fB (packCR 25#6 x0 x1 x2 0xb#5))) : Except DecodeError Instr) = _
  simp only [fA_packCR, fB_packCR, fD_packCR]
theorem fcvtif : ∀ x0 x1, Statement (.fcvtif x0 x1) := by
  intro x0 x1
  refine ⟨fun _ h => (major_19 ..).trans ?_, nofun, nofun⟩
  unfold decodeMajor19
  rw [fFn_packCR]
  change (need ((fB (packCR 25#6 x0 x1 0x0#7 0xc#5)) == 0x0#7) (.fcvtif (fD (packCR 25#6 x0 x1 0x0#7 0xc#5)) (fA (packCR 25#6 x0 x1 0x0#7 0xc#5))) : Except DecodeError Instr) = _
  simp only [fA_packCR, fB_packCR, fD_packCR, need, beq_self_eq_true, Bool.and_self, if_true]
theorem fcvtfi : ∀ x0 x1, Statement (.fcvtfi x0 x1) := by
  intro x0 x1
  refine ⟨fun _ h => (major_19 ..).trans ?_, nofun, nofun⟩
  unfold decodeMajor19
  rw [fFn_packCR]
  change (need ((fB (packCR 25#6 x0 x1 0x0#7 0xd#5)) == 0x0#7) (.fcvtfi (fD (packCR 25#6 x0 x1 0x0#7 0xd#5)) (fA (packCR 25#6 x0 x1 0x0#7 0xd#5))) : Except DecodeError Instr) = _
  simp only [fA_packCR, fB_packCR, fD_packCR, need, beq_self_eq_true, Bool.and_self, if_true]
theorem fcvtsd : ∀ x0 x1, Statement (.fcvtsd x0 x1) := by
  intro x0 x1
  refine ⟨fun _ h => (major_19 ..).trans ?_, nofun, nofun⟩
  unfold decodeMajor19
  rw [fFn_packCR]
  change (need ((fB (packCR 25#6 x0 x1 0x0#7 0xe#5)) == 0x0#7) (.fcvtsd (fD (packCR 25#6 x0 x1 0x0#7 0xe#5)) (fA (packCR 25#6 x0 x1 0x0#7 0xe#5))) : Except DecodeError Instr) = _
  simp only [fA_packCR, fB_packCR, fD_packCR, need, beq_self_eq_true, Bool.and_self, if_true]
theorem fcvtds : ∀ x0 x1, Statement (.fcvtds x0 x1) := by
  intro x0 x1
  refine ⟨fun _ h => (major_19 ..).trans ?_, nofun, nofun⟩
  unfold decodeMajor19
  rw [fFn_packCR]
  change (need ((fB (packCR 25#6 x0 x1 0x0#7 0xf#5)) == 0x0#7) (.fcvtds (fD (packCR 25#6 x0 x1 0x0#7 0xf#5)) (fA (packCR 25#6 x0 x1 0x0#7 0xf#5))) : Except DecodeError Instr) = _
  simp only [fA_packCR, fB_packCR, fD_packCR, need, beq_self_eq_true, Bool.and_self, if_true]
theorem fclass : ∀ x0 x1, Statement (.fclass x0 x1) := by
  intro x0 x1
  refine ⟨fun _ h => (major_19 ..).trans ?_, nofun, nofun⟩
  unfold decodeMajor19
  rw [fFn_packCR]
  change (need ((fB (packCR 25#6 x0 x1 0x0#7 0x10#5)) == 0x0#7) (.fclass (fD (packCR 25#6 x0 x1 0x0#7 0x10#5)) (fA (packCR 25#6 x0 x1 0x0#7 0x10#5))) : Except DecodeError Instr) = _
  simp only [fA_packCR, fB_packCR, fD_packCR, need, beq_self_eq_true, Bool.and_self, if_true]
theorem ffma : ∀ x0 x1 x2, Statement (.ffma x0 x1 x2) := by
  intro x0 x1 x2
  refine ⟨fun _ h => (major_1a ..).trans ?_, nofun, nofun⟩
  unfold decodeMajor1a
  rw [fFn_packCR]
  change (.ok (.ffma (fD (packCR 26#6 x0 x1 x2 0x0#5)) (fA (packCR 26#6 x0 x1 x2 0x0#5)) (fB (packCR 26#6 x0 x1 x2 0x0#5))) : Except DecodeError Instr) = _
  simp only [fA_packCR, fB_packCR, fD_packCR]
theorem ffms : ∀ x0 x1 x2, Statement (.ffms x0 x1 x2) := by
  intro x0 x1 x2
  refine ⟨fun _ h => (major_1a ..).trans ?_, nofun, nofun⟩
  unfold decodeMajor1a
  rw [fFn_packCR]
  change (.ok (.ffms (fD (packCR 26#6 x0 x1 x2 0x1#5)) (fA (packCR 26#6 x0 x1 x2 0x1#5)) (fB (packCR 26#6 x0 x1 x2 0x1#5))) : Except DecodeError Instr) = _
  simp only [fA_packCR, fB_packCR, fD_packCR]
theorem ldb : ∀ x0 x1 x2 x3, Statement (.ldb x0 x1 x2 x3) := by
  intro x0 x1 x2 x3
  refine ⟨fun _ h => (major_20 ..).trans ?_, nofun, nofun⟩
  unfold decodeMajor20
  rw [fSz_packCM]
  change (.ok (.ldb (fD (packCM 32#6 x0 x1 0x0#2 x2 x3)) (fA (packCM 32#6 x0 x1 0x0#2 x2 x3)) (fSc (packCM 32#6 x0 x1 0x0#2 x2 x3)) (fO7 (packCM 32#6 x0 x1 0x0#2 x2 x3))) : Except DecodeError Instr) = _
  simp only [fA_packCM, fD_packCM, fO7_packCM, fSc_packCM]
theorem ldh : ∀ x0 x1 x2 x3, Statement (.ldh x0 x1 x2 x3) := by
  intro x0 x1 x2 x3
  refine ⟨fun _ h => (major_20 ..).trans ?_, nofun, nofun⟩
  unfold decodeMajor20
  rw [fSz_packCM]
  change (.ok (.ldh (fD (packCM 32#6 x0 x1 0x1#2 x2 x3)) (fA (packCM 32#6 x0 x1 0x1#2 x2 x3)) (fSc (packCM 32#6 x0 x1 0x1#2 x2 x3)) (fO7 (packCM 32#6 x0 x1 0x1#2 x2 x3))) : Except DecodeError Instr) = _
  simp only [fA_packCM, fD_packCM, fO7_packCM, fSc_packCM]
theorem ldw : ∀ x0 x1 x2 x3, Statement (.ldw x0 x1 x2 x3) := by
  intro x0 x1 x2 x3
  refine ⟨fun _ h => (major_20 ..).trans ?_, nofun, nofun⟩
  unfold decodeMajor20
  rw [fSz_packCM]
  change (.ok (.ldw (fD (packCM 32#6 x0 x1 0x2#2 x2 x3)) (fA (packCM 32#6 x0 x1 0x2#2 x2 x3)) (fSc (packCM 32#6 x0 x1 0x2#2 x2 x3)) (fO7 (packCM 32#6 x0 x1 0x2#2 x2 x3))) : Except DecodeError Instr) = _
  simp only [fA_packCM, fD_packCM, fO7_packCM, fSc_packCM]
theorem ldd : ∀ x0 x1 x2 x3, Statement (.ldd x0 x1 x2 x3) := by
  intro x0 x1 x2 x3
  refine ⟨fun _ h => (major_20 ..).trans ?_, nofun, nofun⟩
  unfold decodeMajor20
  rw [fSz_packCM]
  change (.ok (.ldd (fD (packCM 32#6 x0 x1 0x3#2 x2 x3)) (fA (packCM 32#6 x0 x1 0x3#2 x2 x3)) (fSc (packCM 32#6 x0 x1 0x3#2 x2 x3)) (fO7 (packCM 32#6 x0 x1 0x3#2 x2 x3))) : Except DecodeError Instr) = _
  simp only [fA_packCM, fD_packCM, fO7_packCM, fSc_packCM]
theorem ldbz : ∀ x0 x1 x2 x3, Statement (.ldbz x0 x1 x2 x3) := by
  intro x0 x1 x2 x3
  refine ⟨fun _ h => (major_21 ..).trans ?_, nofun, nofun⟩
  unfold decodeMajor21
  rw [fSz_packCM]
  change (.ok (.ldbz (fD (packCM 33#6 x0 x1 0x0#2 x2 x3)) (fA (packCM 33#6 x0 x1 0x0#2 x2 x3)) (fSc (packCM 33#6 x0 x1 0x0#2 x2 x3)) (fO7 (packCM 33#6 x0 x1 0x0#2 x2 x3))) : Except DecodeError Instr) = _
  simp only [fA_packCM, fD_packCM, fO7_packCM, fSc_packCM]
theorem ldhz : ∀ x0 x1 x2 x3, Statement (.ldhz x0 x1 x2 x3) := by
  intro x0 x1 x2 x3
  refine ⟨fun _ h => (major_21 ..).trans ?_, nofun, nofun⟩
  unfold decodeMajor21
  rw [fSz_packCM]
  change (.ok (.ldhz (fD (packCM 33#6 x0 x1 0x1#2 x2 x3)) (fA (packCM 33#6 x0 x1 0x1#2 x2 x3)) (fSc (packCM 33#6 x0 x1 0x1#2 x2 x3)) (fO7 (packCM 33#6 x0 x1 0x1#2 x2 x3))) : Except DecodeError Instr) = _
  simp only [fA_packCM, fD_packCM, fO7_packCM, fSc_packCM]
theorem ldwz : ∀ x0 x1 x2 x3, Statement (.ldwz x0 x1 x2 x3) := by
  intro x0 x1 x2 x3
  refine ⟨fun _ h => (major_21 ..).trans ?_, nofun, nofun⟩
  unfold decodeMajor21
  rw [fSz_packCM]
  change (.ok (.ldwz (fD (packCM 33#6 x0 x1 0x2#2 x2 x3)) (fA (packCM 33#6 x0 x1 0x2#2 x2 x3)) (fSc (packCM 33#6 x0 x1 0x2#2 x2 x3)) (fO7 (packCM 33#6 x0 x1 0x2#2 x2 x3))) : Except DecodeError Instr) = _
  simp only [fA_packCM, fD_packCM, fO7_packCM, fSc_packCM]
theorem lddZ : ∀ x0 x1 x2 x3, Statement (.lddZ x0 x1 x2 x3) := by
  intro x0 x1 x2 x3
  refine ⟨fun _ h => (major_21 ..).trans ?_, nofun, nofun⟩
  unfold decodeMajor21
  rw [fSz_packCM]
  change (.ok (.lddZ (fD (packCM 33#6 x0 x1 0x3#2 x2 x3)) (fA (packCM 33#6 x0 x1 0x3#2 x2 x3)) (fSc (packCM 33#6 x0 x1 0x3#2 x2 x3)) (fO7 (packCM 33#6 x0 x1 0x3#2 x2 x3))) : Except DecodeError Instr) = _
  simp only [fA_packCM, fD_packCM, fO7_packCM, fSc_packCM]
theorem stb : ∀ x0 x1 x2 x3, Statement (.stb x0 x1 x2 x3) := by
  intro x0 x1 x2 x3
  refine ⟨fun _ h => (major_22 ..).trans ?_, nofun, nofun⟩
  unfold decodeMajor22
  rw [fSz_packCM]
  change (.ok (.stb (fD (packCM 34#6 x0 x1 0x0#2 x2 x3)) (fA (packCM 34#6 x0 x1 0x0#2 x2 x3)) (fSc (packCM 34#6 x0 x1 0x0#2 x2 x3)) (fO7 (packCM 34#6 x0 x1 0x0#2 x2 x3))) : Except DecodeError Instr) = _
  simp only [fA_packCM, fD_packCM, fO7_packCM, fSc_packCM]
theorem sth : ∀ x0 x1 x2 x3, Statement (.sth x0 x1 x2 x3) := by
  intro x0 x1 x2 x3
  refine ⟨fun _ h => (major_22 ..).trans ?_, nofun, nofun⟩
  unfold decodeMajor22
  rw [fSz_packCM]
  change (.ok (.sth (fD (packCM 34#6 x0 x1 0x1#2 x2 x3)) (fA (packCM 34#6 x0 x1 0x1#2 x2 x3)) (fSc (packCM 34#6 x0 x1 0x1#2 x2 x3)) (fO7 (packCM 34#6 x0 x1 0x1#2 x2 x3))) : Except DecodeError Instr) = _
  simp only [fA_packCM, fD_packCM, fO7_packCM, fSc_packCM]
theorem stw : ∀ x0 x1 x2 x3, Statement (.stw x0 x1 x2 x3) := by
  intro x0 x1 x2 x3
  refine ⟨fun _ h => (major_22 ..).trans ?_, nofun, nofun⟩
  unfold decodeMajor22
  rw [fSz_packCM]
  change (.ok (.stw (fD (packCM 34#6 x0 x1 0x2#2 x2 x3)) (fA (packCM 34#6 x0 x1 0x2#2 x2 x3)) (fSc (packCM 34#6 x0 x1 0x2#2 x2 x3)) (fO7 (packCM 34#6 x0 x1 0x2#2 x2 x3))) : Except DecodeError Instr) = _
  simp only [fA_packCM, fD_packCM, fO7_packCM, fSc_packCM]
theorem std : ∀ x0 x1 x2 x3, Statement (.std x0 x1 x2 x3) := by
  intro x0 x1 x2 x3
  refine ⟨fun _ h => (major_22 ..).trans ?_, nofun, nofun⟩
  unfold decodeMajor22
  rw [fSz_packCM]
  change (.ok (.std (fD (packCM 34#6 x0 x1 0x3#2 x2 x3)) (fA (packCM 34#6 x0 x1 0x3#2 x2 x3)) (fSc (packCM 34#6 x0 x1 0x3#2 x2 x3)) (fO7 (packCM 34#6 x0 x1 0x3#2 x2 x3))) : Except DecodeError Instr) = _
  simp only [fA_packCM, fD_packCM, fO7_packCM, fSc_packCM]
theorem ldx : ∀ x0 x1 x2, Statement (.ldx x0 x1 x2) := by
  intro x0 x1 x2
  refine ⟨fun _ h => ?_, nofun, nofun⟩
  change decodeC (packCR 35#6 x0 x1 x2 0x0#5) = _
  unfold decodeC
  rw [fMajor_packCR]
  change (if fFn (packCR 35#6 x0 x1 x2 0x0#5) == 0#5 then .ok (.ldx (fD (packCR 35#6 x0 x1 x2 0x0#5)) (fA (packCR 35#6 x0 x1 x2 0x0#5)) (fB (packCR 35#6 x0 x1 x2 0x0#5))) else .error .unassignedFn : Except DecodeError Instr) = _
  rw [fFn_packCR]
  simp
theorem stx : ∀ x0 x1 x2, Statement (.stx x0 x1 x2) := by
  intro x0 x1 x2
  refine ⟨fun _ h => ?_, nofun, nofun⟩
  change decodeC (packCR 36#6 x0 x1 x2 0x0#5) = _
  unfold decodeC
  rw [fMajor_packCR]
  change (if fFn (packCR 36#6 x0 x1 x2 0x0#5) == 0#5 then .ok (.stx (fD (packCR 36#6 x0 x1 x2 0x0#5)) (fA (packCR 36#6 x0 x1 x2 0x0#5)) (fB (packCR 36#6 x0 x1 x2 0x0#5))) else .error .unassignedFn : Except DecodeError Instr) = _
  rw [fFn_packCR]
  simp
theorem ldf : ∀ x0 x1, Statement (.ldf x0 x1) := by
  intro x0 x1
  refine ⟨fun _ h => (major_25 ..).trans ?_, nofun, nofun⟩
  unfold decodeMajor25
  rw [fFn_packCR]
  change (need ((fB (packCR 37#6 x0 x1 0x0#7 0x0#5)) == 0x0#7) (.ldf (fD (packCR 37#6 x0 x1 0x0#7 0x0#5)) (fA (packCR 37#6 x0 x1 0x0#7 0x0#5))) : Except DecodeError Instr) = _
  simp only [fA_packCR, fB_packCR, fD_packCR, need, beq_self_eq_true, Bool.and_self, if_true]
theorem ldfe : ∀ x0 x1, Statement (.ldfe x0 x1) := by
  intro x0 x1
  refine ⟨fun _ h => (major_25 ..).trans ?_, nofun, nofun⟩
  unfold decodeMajor25
  rw [fFn_packCR]
  change (need ((fB (packCR 37#6 x0 x1 0x0#7 0x1#5)) == 0x0#7) (.ldfe (fD (packCR 37#6 x0 x1 0x0#7 0x1#5)) (fA (packCR 37#6 x0 x1 0x0#7 0x1#5))) : Except DecodeError Instr) = _
  simp only [fA_packCR, fB_packCR, fD_packCR, need, beq_self_eq_true, Bool.and_self, if_true]
theorem ste : ∀ x0 x1, Statement (.ste x0 x1) := by
  intro x0 x1
  refine ⟨fun _ h => (major_25 ..).trans ?_, nofun, nofun⟩
  unfold decodeMajor25
  rw [fFn_packCR]
  change (need ((fD (packCR 37#6 0x0#7 x0 x1 0x2#5)) == 0x0#7) (.ste (fA (packCR 37#6 0x0#7 x0 x1 0x2#5)) (fB (packCR 37#6 0x0#7 x0 x1 0x2#5))) : Except DecodeError Instr) = _
  simp only [fA_packCR, fB_packCR, fD_packCR, need, beq_self_eq_true, Bool.and_self, if_true]
theorem stf : ∀ x0 x1, Statement (.stf x0 x1) := by
  intro x0 x1
  refine ⟨fun _ h => (major_25 ..).trans ?_, nofun, nofun⟩
  unfold decodeMajor25
  rw [fFn_packCR]
  change (need ((fD (packCR 37#6 0x0#7 x0 x1 0x3#5)) == 0x0#7) (.stf (fA (packCR 37#6 0x0#7 x0 x1 0x3#5)) (fB (packCR 37#6 0x0#7 x0 x1 0x3#5))) : Except DecodeError Instr) = _
  simp only [fA_packCR, fB_packCR, fD_packCR, need, beq_self_eq_true, Bool.and_self, if_true]
theorem feset : ∀ x0, Statement (.feset x0) := by
  intro x0
  refine ⟨fun _ h => (major_25 ..).trans ?_, nofun, nofun⟩
  unfold decodeMajor25
  rw [fFn_packCR]
  change (need ((fD (packCR 37#6 0x0#7 x0 0x0#7 0x4#5)) == 0x0#7 && (fB (packCR 37#6 0x0#7 x0 0x0#7 0x4#5)) == 0x0#7) (.feset (fA (packCR 37#6 0x0#7 x0 0x0#7 0x4#5))) : Except DecodeError Instr) = _
  simp only [fA_packCR, fB_packCR, fD_packCR, need, beq_self_eq_true, Bool.and_self, if_true]
theorem feclr : ∀ x0, Statement (.feclr x0) := by
  intro x0
  refine ⟨fun _ h => (major_25 ..).trans ?_, nofun, nofun⟩
  unfold decodeMajor25
  rw [fFn_packCR]
  change (need ((fD (packCR 37#6 0x0#7 x0 0x0#7 0x5#5)) == 0x0#7 && (fB (packCR 37#6 0x0#7 x0 0x0#7 0x5#5)) == 0x0#7) (.feclr (fA (packCR 37#6 0x0#7 x0 0x0#7 0x5#5))) : Except DecodeError Instr) = _
  simp only [fA_packCR, fB_packCR, fD_packCR, need, beq_self_eq_true, Bool.and_self, if_true]
theorem feq : ∀ x0 x1, Statement (.feq x0 x1) := by
  intro x0 x1
  refine ⟨fun _ h => (major_25 ..).trans ?_, nofun, nofun⟩
  unfold decodeMajor25
  rw [fFn_packCR]
  change (need ((fB (packCR 37#6 x0 x1 0x0#7 0x6#5)) == 0x0#7) (.feq (fD (packCR 37#6 x0 x1 0x0#7 0x6#5)) (fA (packCR 37#6 x0 x1 0x0#7 0x6#5))) : Except DecodeError Instr) = _
  simp only [fA_packCR, fB_packCR, fD_packCR, need, beq_self_eq_true, Bool.and_self, if_true]
theorem ldfeNb : ∀ x0 x1, Statement (.ldfeNb x0 x1) := by
  intro x0 x1
  refine ⟨fun _ h => (major_25 ..).trans ?_, nofun, nofun⟩
  unfold decodeMajor25
  rw [fFn_packCR]
  change (need ((fB (packCR 37#6 x0 x1 0x0#7 0x7#5)) == 0x0#7) (.ldfeNb (fD (packCR 37#6 x0 x1 0x0#7 0x7#5)) (fA (packCR 37#6 x0 x1 0x0#7 0x7#5))) : Except DecodeError Instr) = _
  simp only [fA_packCR, fB_packCR, fD_packCR, need, beq_self_eq_true, Bool.and_self, if_true]
theorem steNb : ∀ x0 x1, Statement (.steNb x0 x1) := by
  intro x0 x1
  refine ⟨fun _ h => (major_25 ..).trans ?_, nofun, nofun⟩
  unfold decodeMajor25
  rw [fFn_packCR]
  change (need ((fD (packCR 37#6 0x0#7 x0 x1 0x8#5)) == 0x0#7) (.steNb (fA (packCR 37#6 0x0#7 x0 x1 0x8#5)) (fB (packCR 37#6 0x0#7 x0 x1 0x8#5))) : Except DecodeError Instr) = _
  simp only [fA_packCR, fB_packCR, fD_packCR, need, beq_self_eq_true, Bool.and_self, if_true]
theorem amoadd : ∀ x0 x1 x2, Statement (.amoadd x0 x1 x2) := by
  intro x0 x1 x2
  refine ⟨fun _ h => (major_26 ..).trans ?_, nofun, nofun⟩
  unfold decodeMajor26
  rw [fFn_packCR]
  change (.ok (.amoadd (fD (packCR 38#6 x0 x1 x2 0x0#5)) (fA (packCR 38#6 x0 x1 x2 0x0#5)) (fB (packCR 38#6 x0 x1 x2 0x0#5))) : Except DecodeError Instr) = _
  simp only [fA_packCR, fB_packCR, fD_packCR]
theorem amoand : ∀ x0 x1 x2, Statement (.amoand x0 x1 x2) := by
  intro x0 x1 x2
  refine ⟨fun _ h => (major_26 ..).trans ?_, nofun, nofun⟩
  unfold decodeMajor26
  rw [fFn_packCR]
  change (.ok (.amoand (fD (packCR 38#6 x0 x1 x2 0x1#5)) (fA (packCR 38#6 x0 x1 x2 0x1#5)) (fB (packCR 38#6 x0 x1 x2 0x1#5))) : Except DecodeError Instr) = _
  simp only [fA_packCR, fB_packCR, fD_packCR]
theorem amoor : ∀ x0 x1 x2, Statement (.amoor x0 x1 x2) := by
  intro x0 x1 x2
  refine ⟨fun _ h => (major_26 ..).trans ?_, nofun, nofun⟩
  unfold decodeMajor26
  rw [fFn_packCR]
  change (.ok (.amoor (fD (packCR 38#6 x0 x1 x2 0x2#5)) (fA (packCR 38#6 x0 x1 x2 0x2#5)) (fB (packCR 38#6 x0 x1 x2 0x2#5))) : Except DecodeError Instr) = _
  simp only [fA_packCR, fB_packCR, fD_packCR]
theorem amoxor : ∀ x0 x1 x2, Statement (.amoxor x0 x1 x2) := by
  intro x0 x1 x2
  refine ⟨fun _ h => (major_26 ..).trans ?_, nofun, nofun⟩
  unfold decodeMajor26
  rw [fFn_packCR]
  change (.ok (.amoxor (fD (packCR 38#6 x0 x1 x2 0x3#5)) (fA (packCR 38#6 x0 x1 x2 0x3#5)) (fB (packCR 38#6 x0 x1 x2 0x3#5))) : Except DecodeError Instr) = _
  simp only [fA_packCR, fB_packCR, fD_packCR]
theorem amomin : ∀ x0 x1 x2, Statement (.amomin x0 x1 x2) := by
  intro x0 x1 x2
  refine ⟨fun _ h => (major_26 ..).trans ?_, nofun, nofun⟩
  unfold decodeMajor26
  rw [fFn_packCR]
  change (.ok (.amomin (fD (packCR 38#6 x0 x1 x2 0x4#5)) (fA (packCR 38#6 x0 x1 x2 0x4#5)) (fB (packCR 38#6 x0 x1 x2 0x4#5))) : Except DecodeError Instr) = _
  simp only [fA_packCR, fB_packCR, fD_packCR]
theorem amomax : ∀ x0 x1 x2, Statement (.amomax x0 x1 x2) := by
  intro x0 x1 x2
  refine ⟨fun _ h => (major_26 ..).trans ?_, nofun, nofun⟩
  unfold decodeMajor26
  rw [fFn_packCR]
  change (.ok (.amomax (fD (packCR 38#6 x0 x1 x2 0x5#5)) (fA (packCR 38#6 x0 x1 x2 0x5#5)) (fB (packCR 38#6 x0 x1 x2 0x5#5))) : Except DecodeError Instr) = _
  simp only [fA_packCR, fB_packCR, fD_packCR]
theorem amominn : ∀ x0 x1 x2, Statement (.amominn x0 x1 x2) := by
  intro x0 x1 x2
  refine ⟨fun _ h => (major_26 ..).trans ?_, nofun, nofun⟩
  unfold decodeMajor26
  rw [fFn_packCR]
  change (.ok (.amominn (fD (packCR 38#6 x0 x1 x2 0x6#5)) (fA (packCR 38#6 x0 x1 x2 0x6#5)) (fB (packCR 38#6 x0 x1 x2 0x6#5))) : Except DecodeError Instr) = _
  simp only [fA_packCR, fB_packCR, fD_packCR]
theorem amomaxn : ∀ x0 x1 x2, Statement (.amomaxn x0 x1 x2) := by
  intro x0 x1 x2
  refine ⟨fun _ h => (major_26 ..).trans ?_, nofun, nofun⟩
  unfold decodeMajor26
  rw [fFn_packCR]
  change (.ok (.amomaxn (fD (packCR 38#6 x0 x1 x2 0x7#5)) (fA (packCR 38#6 x0 x1 x2 0x7#5)) (fB (packCR 38#6 x0 x1 x2 0x7#5))) : Except DecodeError Instr) = _
  simp only [fA_packCR, fB_packCR, fD_packCR]
theorem amoswp : ∀ x0 x1 x2, Statement (.amoswp x0 x1 x2) := by
  intro x0 x1 x2
  refine ⟨fun _ h => (major_26 ..).trans ?_, nofun, nofun⟩
  unfold decodeMajor26
  rw [fFn_packCR]
  change (.ok (.amoswp (fD (packCR 38#6 x0 x1 x2 0x8#5)) (fA (packCR 38#6 x0 x1 x2 0x8#5)) (fB (packCR 38#6 x0 x1 x2 0x8#5))) : Except DecodeError Instr) = _
  simp only [fA_packCR, fB_packCR, fD_packCR]
theorem amocas : ∀ x0 x1 x2, Statement (.amocas x0 x1 x2) := by
  intro x0 x1 x2
  refine ⟨fun _ h => (major_26 ..).trans ?_, nofun, nofun⟩
  unfold decodeMajor26
  rw [fFn_packCR]
  change (.ok (.amocas (fD (packCR 38#6 x0 x1 x2 0x9#5)) (fA (packCR 38#6 x0 x1 x2 0x9#5)) (fB (packCR 38#6 x0 x1 x2 0x9#5))) : Except DecodeError Instr) = _
  simp only [fA_packCR, fB_packCR, fD_packCR]
theorem redadd : ∀ x0 x1, Statement (.redadd x0 x1) := by
  intro x0 x1
  refine ⟨fun _ h => (major_27 ..).trans ?_, nofun, nofun⟩
  unfold decodeMajor27
  rw [fFn_packCR]
  change (need ((fD (packCR 39#6 0x0#7 x0 x1 0x0#5)) == 0x0#7) (.redadd (fA (packCR 39#6 0x0#7 x0 x1 0x0#5)) (fB (packCR 39#6 0x0#7 x0 x1 0x0#5))) : Except DecodeError Instr) = _
  simp only [fA_packCR, fB_packCR, fD_packCR, need, beq_self_eq_true, Bool.and_self, if_true]
theorem redand : ∀ x0 x1, Statement (.redand x0 x1) := by
  intro x0 x1
  refine ⟨fun _ h => (major_27 ..).trans ?_, nofun, nofun⟩
  unfold decodeMajor27
  rw [fFn_packCR]
  change (need ((fD (packCR 39#6 0x0#7 x0 x1 0x1#5)) == 0x0#7) (.redand (fA (packCR 39#6 0x0#7 x0 x1 0x1#5)) (fB (packCR 39#6 0x0#7 x0 x1 0x1#5))) : Except DecodeError Instr) = _
  simp only [fA_packCR, fB_packCR, fD_packCR, need, beq_self_eq_true, Bool.and_self, if_true]
theorem redor : ∀ x0 x1, Statement (.redor x0 x1) := by
  intro x0 x1
  refine ⟨fun _ h => (major_27 ..).trans ?_, nofun, nofun⟩
  unfold decodeMajor27
  rw [fFn_packCR]
  change (need ((fD (packCR 39#6 0x0#7 x0 x1 0x2#5)) == 0x0#7) (.redor (fA (packCR 39#6 0x0#7 x0 x1 0x2#5)) (fB (packCR 39#6 0x0#7 x0 x1 0x2#5))) : Except DecodeError Instr) = _
  simp only [fA_packCR, fB_packCR, fD_packCR, need, beq_self_eq_true, Bool.and_self, if_true]
theorem redxor : ∀ x0 x1, Statement (.redxor x0 x1) := by
  intro x0 x1
  refine ⟨fun _ h => (major_27 ..).trans ?_, nofun, nofun⟩
  unfold decodeMajor27
  rw [fFn_packCR]
  change (need ((fD (packCR 39#6 0x0#7 x0 x1 0x3#5)) == 0x0#7) (.redxor (fA (packCR 39#6 0x0#7 x0 x1 0x3#5)) (fB (packCR 39#6 0x0#7 x0 x1 0x3#5))) : Except DecodeError Instr) = _
  simp only [fA_packCR, fB_packCR, fD_packCR, need, beq_self_eq_true, Bool.and_self, if_true]
theorem redmin : ∀ x0 x1, Statement (.redmin x0 x1) := by
  intro x0 x1
  refine ⟨fun _ h => (major_27 ..).trans ?_, nofun, nofun⟩
  unfold decodeMajor27
  rw [fFn_packCR]
  change (need ((fD (packCR 39#6 0x0#7 x0 x1 0x4#5)) == 0x0#7) (.redmin (fA (packCR 39#6 0x0#7 x0 x1 0x4#5)) (fB (packCR 39#6 0x0#7 x0 x1 0x4#5))) : Except DecodeError Instr) = _
  simp only [fA_packCR, fB_packCR, fD_packCR, need, beq_self_eq_true, Bool.and_self, if_true]
theorem redmax : ∀ x0 x1, Statement (.redmax x0 x1) := by
  intro x0 x1
  refine ⟨fun _ h => (major_27 ..).trans ?_, nofun, nofun⟩
  unfold decodeMajor27
  rw [fFn_packCR]
  change (need ((fD (packCR 39#6 0x0#7 x0 x1 0x5#5)) == 0x0#7) (.redmax (fA (packCR 39#6 0x0#7 x0 x1 0x5#5)) (fB (packCR 39#6 0x0#7 x0 x1 0x5#5))) : Except DecodeError Instr) = _
  simp only [fA_packCR, fB_packCR, fD_packCR, need, beq_self_eq_true, Bool.and_self, if_true]
theorem oredFadd : ∀ x0 x1 x2, Statement (.oredFadd x0 x1 x2) := by
  intro x0 x1 x2
  refine ⟨fun _ h => (major_28 ..).trans ?_, nofun, nofun⟩
  unfold decodeMajor28
  rw [fFn_packCR]
  change (.ok (.oredFadd (fD (packCR 40#6 x0 x1 x2 0x0#5)) (fA (packCR 40#6 x0 x1 x2 0x0#5)) (fB (packCR 40#6 x0 x1 x2 0x0#5))) : Except DecodeError Instr) = _
  simp only [fA_packCR, fB_packCR, fD_packCR]
theorem oredFadds : ∀ x0 x1 x2, Statement (.oredFadds x0 x1 x2) := by
  intro x0 x1 x2
  refine ⟨fun _ h => (major_28 ..).trans ?_, nofun, nofun⟩
  unfold decodeMajor28
  rw [fFn_packCR]
  change (.ok (.oredFadds (fD (packCR 40#6 x0 x1 x2 0x1#5)) (fA (packCR 40#6 x0 x1 x2 0x1#5)) (fB (packCR 40#6 x0 x1 x2 0x1#5))) : Except DecodeError Instr) = _
  simp only [fA_packCR, fB_packCR, fD_packCR]
theorem oredAdd : ∀ x0 x1 x2, Statement (.oredAdd x0 x1 x2) := by
  intro x0 x1 x2
  refine ⟨fun _ h => (major_28 ..).trans ?_, nofun, nofun⟩
  unfold decodeMajor28
  rw [fFn_packCR]
  change (.ok (.oredAdd (fD (packCR 40#6 x0 x1 x2 0x2#5)) (fA (packCR 40#6 x0 x1 x2 0x2#5)) (fB (packCR 40#6 x0 x1 x2 0x2#5))) : Except DecodeError Instr) = _
  simp only [fA_packCR, fB_packCR, fD_packCR]
theorem oredFmax : ∀ x0 x1 x2, Statement (.oredFmax x0 x1 x2) := by
  intro x0 x1 x2
  refine ⟨fun _ h => (major_28 ..).trans ?_, nofun, nofun⟩
  unfold decodeMajor28
  rw [fFn_packCR]
  change (.ok (.oredFmax (fD (packCR 40#6 x0 x1 x2 0x3#5)) (fA (packCR 40#6 x0 x1 x2 0x3#5)) (fB (packCR 40#6 x0 x1 x2 0x3#5))) : Except DecodeError Instr) = _
  simp only [fA_packCR, fB_packCR, fD_packCR]
theorem oredFmin : ∀ x0 x1 x2, Statement (.oredFmin x0 x1 x2) := by
  intro x0 x1 x2
  refine ⟨fun _ h => (major_28 ..).trans ?_, nofun, nofun⟩
  unfold decodeMajor28
  rw [fFn_packCR]
  change (.ok (.oredFmin (fD (packCR 40#6 x0 x1 x2 0x4#5)) (fA (packCR 40#6 x0 x1 x2 0x4#5)) (fB (packCR 40#6 x0 x1 x2 0x4#5))) : Except DecodeError Instr) = _
  simp only [fA_packCR, fB_packCR, fD_packCR]
theorem sleepu : ∀ x0, Statement (.sleepu x0) := by
  intro x0
  refine ⟨fun _ h => (major_29 ..).trans ?_, nofun, nofun⟩
  unfold decodeMajor29
  rw [fFn6_packCX]
  change (need ((fXb (packCX 41#6 0x0#6 x0 0x0#7 0x0#6)) == 0x0#7 && (fI6 (packCX 41#6 0x0#6 x0 0x0#7 0x0#6)) == 0x0#6) (.sleepu (fXa (packCX 41#6 0x0#6 x0 0x0#7 0x0#6))) : Except DecodeError Instr) = _
  simp only [fI6_packCX, fXa_packCX, fXb_packCX, need, beq_self_eq_true, Bool.and_self, if_true]
theorem rdtb : ∀ x0, Statement (.rdtb x0) := by
  intro x0
  refine ⟨fun _ h => (major_29 ..).trans ?_, nofun, nofun⟩
  unfold decodeMajor29
  rw [fFn6_packCX]
  change (need ((fXb (packCX 41#6 0x1#6 x0 0x0#7 0x0#6)) == 0x0#7 && (fI6 (packCX 41#6 0x1#6 x0 0x0#7 0x0#6)) == 0x0#6) (.rdtb (fXa (packCX 41#6 0x1#6 x0 0x0#7 0x0#6))) : Except DecodeError Instr) = _
  simp only [fI6_packCX, fXa_packCX, fXb_packCX, need, beq_self_eq_true, Bool.and_self, if_true]
theorem yield : Statement .yield := by
  refine ⟨fun _ h => (major_29 ..).trans ?_, nofun, nofun⟩
  unfold decodeMajor29
  rw [fFn6_packCX]
  change (need ((fXa (packCX 41#6 0x2#6 0x0#7 0x0#7 0x0#6)) == 0x0#7 && (fXb (packCX 41#6 0x2#6 0x0#7 0x0#7 0x0#6)) == 0x0#7 && (fI6 (packCX 41#6 0x2#6 0x0#7 0x0#7 0x0#6)) == 0x0#6) (.yield) : Except DecodeError Instr) = _
  simp only [fI6_packCX, fXa_packCX, fXb_packCX, need, beq_self_eq_true, Bool.and_self, if_true]
theorem fjoin : Statement .fjoin := by
  refine ⟨fun _ h => (major_29 ..).trans ?_, nofun, nofun⟩
  unfold decodeMajor29
  rw [fFn6_packCX]
  change (need ((fXa (packCX 41#6 0x3#6 0x0#7 0x0#7 0x0#6)) == 0x0#7 && (fXb (packCX 41#6 0x3#6 0x0#7 0x0#7 0x0#6)) == 0x0#7 && (fI6 (packCX 41#6 0x3#6 0x0#7 0x0#7 0x0#6)) == 0x0#6) (.fjoin) : Except DecodeError Instr) = _
  simp only [fI6_packCX, fXa_packCX, fXb_packCX, need, beq_self_eq_true, Bool.and_self, if_true]
theorem done : Statement .done := by
  refine ⟨fun _ h => (major_29 ..).trans ?_, nofun, nofun⟩
  unfold decodeMajor29
  rw [fFn6_packCX]
  change (need ((fXa (packCX 41#6 0x4#6 0x0#7 0x0#7 0x0#6)) == 0x0#7 && (fXb (packCX 41#6 0x4#6 0x0#7 0x0#7 0x0#6)) == 0x0#7 && (fI6 (packCX 41#6 0x4#6 0x0#7 0x0#7 0x0#6)) == 0x0#6) (.done) : Except DecodeError Instr) = _
  simp only [fI6_packCX, fXa_packCX, fXb_packCX, need, beq_self_eq_true, Bool.and_self, if_true]
theorem strmGo : ∀ x0 x1 x2, Statement (.strmGo x0 x1 x2) := by
  intro x0 x1 x2
  refine ⟨fun _ h => (major_2a ..).trans ?_, nofun, nofun⟩
  unfold decodeMajor2a
  rw [fFn6_packCX]
  change (need ((fXb (packCX 42#6 0x0#6 x0 0x0#7 (x1 ++ x2))) == 0x0#7) (.strmGo (fXa (packCX 42#6 0x0#6 x0 0x0#7 (x1 ++ x2))) ((fI6 (packCX 42#6 0x0#6 x0 0x0#7 (x1 ++ x2))).extractLsb' 5 1) ((fI6 (packCX 42#6 0x0#6 x0 0x0#7 (x1 ++ x2))).extractLsb' 0 5)) : Except DecodeError Instr) = _
  simp only [fI6_packCX, fXa_packCX, fXb_packCX, part0_of_1_5, part1_of_1_5, part0_of_2_1_1_2, part1_of_2_1_1_2, part2_of_2_1_1_2, part3_of_2_1_1_2, part0_of_2_3, part1_of_2_3, part0_of_2_4, part1_of_2_4, part0_of_3_1_2, part1_of_3_1_2, part2_of_3_1_2, part0_of_3_2_3_1, part1_of_3_2_3_1, part2_of_3_2_3_1, part3_of_3_2_3_1, part0_of_3_2_4, part1_of_3_2_4, part2_of_3_2_4, part0_of_3_3_2_1, part1_of_3_3_2_1, part2_of_3_3_2_1, part3_of_3_3_2_1, part0_of_3_3_3, part1_of_3_3_3, part2_of_3_3_3, part0_of_3_5_1, part1_of_3_5_1, part2_of_3_5_1, part0_of_3_6, part1_of_3_6, part0_of_4_2, part1_of_4_2, part0_of_5_1, part1_of_5_1, part0_of_5_2_2, part1_of_5_2_2, part2_of_5_2_2, part0_of_5_3_1, part1_of_5_3_1, part2_of_5_3_1, part0_of_5_4, part1_of_5_4, part0_of_6_2_1, part1_of_6_2_1, part2_of_6_2_1, part0_of_6_6, part1_of_6_6, part0_of_8_1, part1_of_8_1, need, beq_self_eq_true, Bool.and_self, if_true]
theorem strmArg : ∀ x0 x1 x2, Statement (.strmArg x0 x1 x2) := by
  intro x0 x1 x2
  refine ⟨fun _ h => (major_2a ..).trans ?_, nofun, nofun⟩
  unfold decodeMajor2a
  rw [fFn6_packCX]
  change (need ((fXb (packCX 42#6 0x1#6 x0 0x0#7 (x1 ++ x2))) == 0x0#7) (.strmArg (fXa (packCX 42#6 0x1#6 x0 0x0#7 (x1 ++ x2))) ((fI6 (packCX 42#6 0x1#6 x0 0x0#7 (x1 ++ x2))).extractLsb' 5 1) ((fI6 (packCX 42#6 0x1#6 x0 0x0#7 (x1 ++ x2))).extractLsb' 0 5)) : Except DecodeError Instr) = _
  simp only [fI6_packCX, fXa_packCX, fXb_packCX, part0_of_1_5, part1_of_1_5, part0_of_2_1_1_2, part1_of_2_1_1_2, part2_of_2_1_1_2, part3_of_2_1_1_2, part0_of_2_3, part1_of_2_3, part0_of_2_4, part1_of_2_4, part0_of_3_1_2, part1_of_3_1_2, part2_of_3_1_2, part0_of_3_2_3_1, part1_of_3_2_3_1, part2_of_3_2_3_1, part3_of_3_2_3_1, part0_of_3_2_4, part1_of_3_2_4, part2_of_3_2_4, part0_of_3_3_2_1, part1_of_3_3_2_1, part2_of_3_3_2_1, part3_of_3_3_2_1, part0_of_3_3_3, part1_of_3_3_3, part2_of_3_3_3, part0_of_3_5_1, part1_of_3_5_1, part2_of_3_5_1, part0_of_3_6, part1_of_3_6, part0_of_4_2, part1_of_4_2, part0_of_5_1, part1_of_5_1, part0_of_5_2_2, part1_of_5_2_2, part2_of_5_2_2, part0_of_5_3_1, part1_of_5_3_1, part2_of_5_3_1, part0_of_5_4, part1_of_5_4, part0_of_6_2_1, part1_of_6_2_1, part2_of_6_2_1, part0_of_6_6, part1_of_6_6, part0_of_8_1, part1_of_8_1, need, beq_self_eq_true, Bool.and_self, if_true]
theorem drain : ∀ x0, Statement (.drain x0) := by
  intro x0
  refine ⟨fun _ h => (major_2a ..).trans ?_, nofun, nofun⟩
  unfold decodeMajor2a
  rw [fFn6_packCX]
  change (need ((fXa (packCX 42#6 0x2#6 0x0#7 0x0#7 x0)) == 0x0#7 && (fXb (packCX 42#6 0x2#6 0x0#7 0x0#7 x0)) == 0x0#7) (.drain (fI6 (packCX 42#6 0x2#6 0x0#7 0x0#7 x0))) : Except DecodeError Instr) = _
  simp only [fI6_packCX, fXa_packCX, fXb_packCX, need, beq_self_eq_true, Bool.and_self, if_true]
theorem cfgld : ∀ x0, Statement (.cfgld x0) := by
  intro x0
  refine ⟨fun _ h => (major_2a ..).trans ?_, nofun, nofun⟩
  unfold decodeMajor2a
  rw [fFn6_packCX]
  change (need ((fXb (packCX 42#6 0x3#6 x0 0x0#7 0x0#6)) == 0x0#7 && (fI6 (packCX 42#6 0x3#6 x0 0x0#7 0x0#6)) == 0x0#6) (.cfgld (fXa (packCX 42#6 0x3#6 x0 0x0#7 0x0#6))) : Except DecodeError Instr) = _
  simp only [fI6_packCX, fXa_packCX, fXb_packCX, need, beq_self_eq_true, Bool.and_self, if_true]
theorem cfgq : ∀ x0, Statement (.cfgq x0) := by
  intro x0
  refine ⟨fun _ h => (major_2a ..).trans ?_, nofun, nofun⟩
  unfold decodeMajor2a
  rw [fFn6_packCX]
  change (need ((fXb (packCX 42#6 0x4#6 x0 0x0#7 0x0#6)) == 0x0#7 && (fI6 (packCX 42#6 0x4#6 x0 0x0#7 0x0#6)) == 0x0#6) (.cfgq (fXa (packCX 42#6 0x4#6 x0 0x0#7 0x0#6))) : Except DecodeError Instr) = _
  simp only [fI6_packCX, fXa_packCX, fXb_packCX, need, beq_self_eq_true, Bool.and_self, if_true]
theorem strmTok : ∀ x0 x1 x2, Statement (.strmTok x0 x1 x2) := by
  intro x0 x1 x2
  refine ⟨fun _ h => (major_2a ..).trans ?_, nofun, nofun⟩
  unfold decodeMajor2a
  rw [fFn6_packCX]
  change (need (((fI6 (packCX 42#6 0x5#6 x0 x1 (0x0#1 ++ x2))).extractLsb' 5 1) == 0x0#1) (.strmTok (fXa (packCX 42#6 0x5#6 x0 x1 (0x0#1 ++ x2))) (fXb (packCX 42#6 0x5#6 x0 x1 (0x0#1 ++ x2))) ((fI6 (packCX 42#6 0x5#6 x0 x1 (0x0#1 ++ x2))).extractLsb' 0 5)) : Except DecodeError Instr) = _
  simp only [fI6_packCX, fXa_packCX, fXb_packCX, part0_of_1_5, part1_of_1_5, part0_of_2_1_1_2, part1_of_2_1_1_2, part2_of_2_1_1_2, part3_of_2_1_1_2, part0_of_2_3, part1_of_2_3, part0_of_2_4, part1_of_2_4, part0_of_3_1_2, part1_of_3_1_2, part2_of_3_1_2, part0_of_3_2_3_1, part1_of_3_2_3_1, part2_of_3_2_3_1, part3_of_3_2_3_1, part0_of_3_2_4, part1_of_3_2_4, part2_of_3_2_4, part0_of_3_3_2_1, part1_of_3_3_2_1, part2_of_3_3_2_1, part3_of_3_3_2_1, part0_of_3_3_3, part1_of_3_3_3, part2_of_3_3_3, part0_of_3_5_1, part1_of_3_5_1, part2_of_3_5_1, part0_of_3_6, part1_of_3_6, part0_of_4_2, part1_of_4_2, part0_of_5_1, part1_of_5_1, part0_of_5_2_2, part1_of_5_2_2, part2_of_5_2_2, part0_of_5_3_1, part1_of_5_3_1, part2_of_5_3_1, part0_of_5_4, part1_of_5_4, part0_of_6_2_1, part1_of_6_2_1, part2_of_6_2_1, part0_of_6_6, part1_of_6_6, part0_of_8_1, part1_of_8_1, need, beq_self_eq_true, Bool.and_self, if_true]
theorem send : ∀ x0 x1 x2, Statement (.send x0 x1 x2) := by
  intro x0 x1 x2
  refine ⟨fun _ h => (major_2b ..).trans ?_, nofun, nofun⟩
  unfold decodeMajor2b
  rw [fFn_packCR]
  change (.ok (.send (fD (packCR 43#6 x0 x1 x2 0x0#5)) (fA (packCR 43#6 x0 x1 x2 0x0#5)) (fB (packCR 43#6 x0 x1 x2 0x0#5))) : Except DecodeError Instr) = _
  simp only [fA_packCR, fB_packCR, fD_packCR]
theorem sendr : ∀ x0 x1 x2, Statement (.sendr x0 x1 x2) := by
  intro x0 x1 x2
  refine ⟨fun _ h => (major_2b ..).trans ?_, nofun, nofun⟩
  unfold decodeMajor2b
  rw [fFn_packCR]
  change (.ok (.sendr (fD (packCR 43#6 x0 x1 x2 0x1#5)) (fA (packCR 43#6 x0 x1 x2 0x1#5)) (fB (packCR 43#6 x0 x1 x2 0x1#5))) : Except DecodeError Instr) = _
  simp only [fA_packCR, fB_packCR, fD_packCR]
theorem ctradd : ∀ x0 x1, Statement (.ctradd x0 x1) := by
  intro x0 x1
  refine ⟨fun _ h => (major_2c ..).trans ?_, nofun, nofun⟩
  unfold decodeMajor2c
  rw [fFn6_packCX]
  change (need ((fI6 (packCX 44#6 0x0#6 x0 x1 0x0#6)) == 0x0#6) (.ctradd (fXa (packCX 44#6 0x0#6 x0 x1 0x0#6)) (fXb (packCX 44#6 0x0#6 x0 x1 0x0#6))) : Except DecodeError Instr) = _
  simp only [fI6_packCX, fXa_packCX, fXb_packCX, need, beq_self_eq_true, Bool.and_self, if_true]
theorem ctrwait : ∀ x0 x1, Statement (.ctrwait x0 x1) := by
  intro x0 x1
  refine ⟨fun _ h => (major_2c ..).trans ?_, nofun, nofun⟩
  unfold decodeMajor2c
  rw [fFn6_packCX]
  change (need ((fI6 (packCX 44#6 0x1#6 x0 x1 0x0#6)) == 0x0#6) (.ctrwait (fXa (packCX 44#6 0x1#6 x0 x1 0x0#6)) (fXb (packCX 44#6 0x1#6 x0 x1 0x0#6))) : Except DecodeError Instr) = _
  simp only [fI6_packCX, fXa_packCX, fXb_packCX, need, beq_self_eq_true, Bool.and_self, if_true]
theorem ctrrd : ∀ x0 x1, Statement (.ctrrd x0 x1) := by
  intro x0 x1
  refine ⟨fun _ h => (major_2c ..).trans ?_, nofun, nofun⟩
  unfold decodeMajor2c
  rw [fFn6_packCX]
  change (need ((fI6 (packCX 44#6 0x2#6 x0 x1 0x0#6)) == 0x0#6) (.ctrrd (fXa (packCX 44#6 0x2#6 x0 x1 0x0#6)) (fXb (packCX 44#6 0x2#6 x0 x1 0x0#6))) : Except DecodeError Instr) = _
  simp only [fI6_packCX, fXa_packCX, fXb_packCX, need, beq_self_eq_true, Bool.and_self, if_true]
theorem ctrwaitNb : ∀ x0 x1, Statement (.ctrwaitNb x0 x1) := by
  intro x0 x1
  refine ⟨fun _ h => (major_2c ..).trans ?_, nofun, nofun⟩
  unfold decodeMajor2c
  rw [fFn6_packCX]
  change (need ((fI6 (packCX 44#6 0x3#6 x0 x1 0x0#6)) == 0x0#6) (.ctrwaitNb (fXa (packCX 44#6 0x3#6 x0 x1 0x0#6)) (fXb (packCX 44#6 0x3#6 x0 x1 0x0#6))) : Except DecodeError Instr) = _
  simp only [fI6_packCX, fXa_packCX, fXb_packCX, need, beq_self_eq_true, Bool.and_self, if_true]
theorem ctrwatch : ∀ x0 x1 x2, Statement (.ctrwatch x0 x1 x2) := by
  intro x0 x1 x2
  refine ⟨fun _ h => (major_2c ..).trans ?_, nofun, nofun⟩
  unfold decodeMajor2c
  rw [fFn6_packCX]
  change (.ok (.ctrwatch (fXa (packCX 44#6 0x4#6 x0 x1 x2)) (fXb (packCX 44#6 0x4#6 x0 x1 x2)) (fI6 (packCX 44#6 0x4#6 x0 x1 x2))) : Except DecodeError Instr) = _
  simp only [fI6_packCX, fXa_packCX, fXb_packCX]
theorem thld : ∀ x0 x1, Statement (.thld x0 x1) := by
  intro x0 x1
  refine ⟨fun _ h => (major_2d ..).trans ?_, nofun, nofun⟩
  unfold decodeMajor2d
  rw [fFn6_packCX]
  change (need ((fI6 (packCX 45#6 0x0#6 x0 x1 0x0#6)) == 0x0#6) (.thld (fXa (packCX 45#6 0x0#6 x0 x1 0x0#6)) (fXb (packCX 45#6 0x0#6 x0 x1 0x0#6))) : Except DecodeError Instr) = _
  simp only [fI6_packCX, fXa_packCX, fXb_packCX, need, beq_self_eq_true, Bool.and_self, if_true]
theorem thst : ∀ x0 x1, Statement (.thst x0 x1) := by
  intro x0 x1
  refine ⟨fun _ h => (major_2d ..).trans ?_, nofun, nofun⟩
  unfold decodeMajor2d
  rw [fFn6_packCX]
  change (need ((fI6 (packCX 45#6 0x1#6 x0 x1 0x0#6)) == 0x0#6) (.thst (fXa (packCX 45#6 0x1#6 x0 x1 0x0#6)) (fXb (packCX 45#6 0x1#6 x0 x1 0x0#6))) : Except DecodeError Instr) = _
  simp only [fI6_packCX, fXa_packCX, fXb_packCX, need, beq_self_eq_true, Bool.and_self, if_true]
theorem thset : ∀ x0 x1 x2, Statement (.thset x0 x1 x2) := by
  intro x0 x1 x2
  refine ⟨fun _ h => (major_2d ..).trans ?_, nofun, nofun⟩
  unfold decodeMajor2d
  rw [fFn6_packCX]
  change (.ok (.thset (fXa (packCX 45#6 0x2#6 x0 x1 x2)) (fXb (packCX 45#6 0x2#6 x0 x1 x2)) (fI6 (packCX 45#6 0x2#6 x0 x1 x2))) : Except DecodeError Instr) = _
  simp only [fI6_packCX, fXa_packCX, fXb_packCX]
theorem thget : ∀ x0 x1 x2, Statement (.thget x0 x1 x2) := by
  intro x0 x1 x2
  refine ⟨fun _ h => (major_2d ..).trans ?_, nofun, nofun⟩
  unfold decodeMajor2d
  rw [fFn6_packCX]
  change (.ok (.thget (fXa (packCX 45#6 0x3#6 x0 x1 x2)) (fXb (packCX 45#6 0x3#6 x0 x1 x2)) (fI6 (packCX 45#6 0x3#6 x0 x1 x2))) : Except DecodeError Instr) = _
  simp only [fI6_packCX, fXa_packCX, fXb_packCX]
theorem thchk : ∀ x0, Statement (.thchk x0) := by
  intro x0
  refine ⟨fun _ h => (major_2d ..).trans ?_, nofun, nofun⟩
  unfold decodeMajor2d
  rw [fFn6_packCX]
  change (need ((fXb (packCX 45#6 0x4#6 x0 0x0#7 0x0#6)) == 0x0#7 && (fI6 (packCX 45#6 0x4#6 x0 0x0#7 0x0#6)) == 0x0#6) (.thchk (fXa (packCX 45#6 0x4#6 x0 0x0#7 0x0#6))) : Except DecodeError Instr) = _
  simp only [fI6_packCX, fXa_packCX, fXb_packCX, need, beq_self_eq_true, Bool.and_self, if_true]
theorem barinit : ∀ x0 x1, Statement (.barinit x0 x1) := by
  intro x0 x1
  refine ⟨fun _ h => (major_2e ..).trans ?_, nofun, nofun⟩
  unfold decodeMajor2e
  rw [fFn6_packCX]
  change (need ((fI6 (packCX 46#6 0x0#6 x0 x1 0x0#6)) == 0x0#6) (.barinit (fXa (packCX 46#6 0x0#6 x0 x1 0x0#6)) (fXb (packCX 46#6 0x0#6 x0 x1 0x0#6))) : Except DecodeError Instr) = _
  simp only [fI6_packCX, fXa_packCX, fXb_packCX, need, beq_self_eq_true, Bool.and_self, if_true]
theorem bararr : ∀ x0 x1, Statement (.bararr x0 x1) := by
  intro x0 x1
  refine ⟨fun _ h => (major_2e ..).trans ?_, nofun, nofun⟩
  unfold decodeMajor2e
  rw [fFn6_packCX]
  change (need ((fI6 (packCX 46#6 0x1#6 x0 x1 0x0#6)) == 0x0#6) (.bararr (fXa (packCX 46#6 0x1#6 x0 x1 0x0#6)) (fXb (packCX 46#6 0x1#6 x0 x1 0x0#6))) : Except DecodeError Instr) = _
  simp only [fI6_packCX, fXa_packCX, fXb_packCX, need, beq_self_eq_true, Bool.and_self, if_true]
theorem barwait : ∀ x0 x1, Statement (.barwait x0 x1) := by
  intro x0 x1
  refine ⟨fun _ h => (major_2e ..).trans ?_, nofun, nofun⟩
  unfold decodeMajor2e
  rw [fFn6_packCX]
  change (need ((fI6 (packCX 46#6 0x2#6 x0 x1 0x0#6)) == 0x0#6) (.barwait (fXa (packCX 46#6 0x2#6 x0 x1 0x0#6)) (fXb (packCX 46#6 0x2#6 x0 x1 0x0#6))) : Except DecodeError Instr) = _
  simp only [fI6_packCX, fXa_packCX, fXb_packCX, need, beq_self_eq_true, Bool.and_self, if_true]
theorem barsync : ∀ x0 x1, Statement (.barsync x0 x1) := by
  intro x0 x1
  refine ⟨fun _ h => (major_2e ..).trans ?_, nofun, nofun⟩
  unfold decodeMajor2e
  rw [fFn6_packCX]
  change (need ((fI6 (packCX 46#6 0x3#6 x0 x1 0x0#6)) == 0x0#6) (.barsync (fXa (packCX 46#6 0x3#6 x0 x1 0x0#6)) (fXb (packCX 46#6 0x3#6 x0 x1 0x0#6))) : Except DecodeError Instr) = _
  simp only [fI6_packCX, fXa_packCX, fXb_packCX, need, beq_self_eq_true, Bool.and_self, if_true]
theorem barrd : ∀ x0 x1 x2, Statement (.barrd x0 x1 x2) := by
  intro x0 x1 x2
  refine ⟨fun _ h => (major_2e ..).trans ?_, nofun, nofun⟩
  unfold decodeMajor2e
  rw [fFn6_packCX]
  change (.ok (.barrd (fXa (packCX 46#6 0x4#6 x0 x1 x2)) (fXb (packCX 46#6 0x4#6 x0 x1 x2)) (fI6 (packCX 46#6 0x4#6 x0 x1 x2))) : Except DecodeError Instr) = _
  simp only [fI6_packCX, fXa_packCX, fXb_packCX]
theorem barcfg : ∀ x0 x1, Statement (.barcfg x0 x1) := by
  intro x0 x1
  refine ⟨fun _ h => (major_2e ..).trans ?_, nofun, nofun⟩
  unfold decodeMajor2e
  rw [fFn6_packCX]
  change (need ((fI6 (packCX 46#6 0x5#6 x0 x1 0x0#6)) == 0x0#6) (.barcfg (fXa (packCX 46#6 0x5#6 x0 x1 0x0#6)) (fXb (packCX 46#6 0x5#6 x0 x1 0x0#6))) : Except DecodeError Instr) = _
  simp only [fI6_packCX, fXa_packCX, fXb_packCX, need, beq_self_eq_true, Bool.and_self, if_true]
theorem barleave : ∀ x0, Statement (.barleave x0) := by
  intro x0
  refine ⟨fun _ h => (major_2e ..).trans ?_, nofun, nofun⟩
  unfold decodeMajor2e
  rw [fFn6_packCX]
  change (need ((fXb (packCX 46#6 0x6#6 x0 0x0#7 0x0#6)) == 0x0#7 && (fI6 (packCX 46#6 0x6#6 x0 0x0#7 0x0#6)) == 0x0#6) (.barleave (fXa (packCX 46#6 0x6#6 x0 0x0#7 0x0#6))) : Except DecodeError Instr) = _
  simp only [fI6_packCX, fXa_packCX, fXb_packCX, need, beq_self_eq_true, Bool.and_self, if_true]
theorem ctxdef : ∀ x0 x1, Statement (.ctxdef x0 x1) := by
  intro x0 x1
  refine ⟨fun _ h => (major_2f ..).trans ?_, nofun, nofun⟩
  unfold decodeMajor2f
  rw [fFn6_packCX]
  change (need ((fXb (packCX 47#6 0x0#6 x0 0x0#7 x1)) == 0x0#7) (.ctxdef (fXa (packCX 47#6 0x0#6 x0 0x0#7 x1)) (fI6 (packCX 47#6 0x0#6 x0 0x0#7 x1))) : Except DecodeError Instr) = _
  simp only [fI6_packCX, fXa_packCX, fXb_packCX, need, beq_self_eq_true, Bool.and_self, if_true]
theorem ctxrd : ∀ x0 x1 x2, Statement (.ctxrd x0 x1 x2) := by
  intro x0 x1 x2
  refine ⟨fun _ h => (major_2f ..).trans ?_, nofun, nofun⟩
  unfold decodeMajor2f
  rw [fFn6_packCX]
  change (.ok (.ctxrd (fXa (packCX 47#6 0x1#6 x0 x1 x2)) (fXb (packCX 47#6 0x1#6 x0 x1 x2)) (fI6 (packCX 47#6 0x1#6 x0 x1 x2))) : Except DecodeError Instr) = _
  simp only [fI6_packCX, fXa_packCX, fXb_packCX]
theorem ctxwt : ∀ x0 x1 x2, Statement (.ctxwt x0 x1 x2) := by
  intro x0 x1 x2
  refine ⟨fun _ h => (major_2f ..).trans ?_, nofun, nofun⟩
  unfold decodeMajor2f
  rw [fFn6_packCX]
  change (.ok (.ctxwt (fXa (packCX 47#6 0x2#6 x0 x1 x2)) (fXb (packCX 47#6 0x2#6 x0 x1 x2)) (fI6 (packCX 47#6 0x2#6 x0 x1 x2))) : Except DecodeError Instr) = _
  simp only [fI6_packCX, fXa_packCX, fXb_packCX]
theorem rclose : ∀ x0, Statement (.rclose x0) := by
  intro x0
  refine ⟨fun _ h => (major_2f ..).trans ?_, nofun, nofun⟩
  unfold decodeMajor2f
  rw [fFn6_packCX]
  change (need ((fXa (packCX 47#6 0x3#6 0x0#7 0x0#7 x0)) == 0x0#7 && (fXb (packCX 47#6 0x3#6 0x0#7 0x0#7 x0)) == 0x0#7) (.rclose (fI6 (packCX 47#6 0x3#6 0x0#7 0x0#7 x0))) : Except DecodeError Instr) = _
  simp only [fI6_packCX, fXa_packCX, fXb_packCX, need, beq_self_eq_true, Bool.and_self, if_true]
theorem rqry : ∀ x0, Statement (.rqry x0) := by
  intro x0
  refine ⟨fun _ h => (major_2f ..).trans ?_, nofun, nofun⟩
  unfold decodeMajor2f
  rw [fFn6_packCX]
  change (need ((fXb (packCX 47#6 0x4#6 x0 0x0#7 0x0#6)) == 0x0#7 && (fI6 (packCX 47#6 0x4#6 x0 0x0#7 0x0#6)) == 0x0#6) (.rqry (fXa (packCX 47#6 0x4#6 x0 0x0#7 0x0#6))) : Except DecodeError Instr) = _
  simp only [fI6_packCX, fXa_packCX, fXb_packCX, need, beq_self_eq_true, Bool.and_self, if_true]
theorem enq : ∀ x0 x1, Statement (.enq x0 x1) := by
  intro x0 x1
  refine ⟨fun _ h => (major_30 ..).trans ?_, nofun, nofun⟩
  unfold decodeMajor30
  rw [fFn_packCR]
  change (need ((fD (packCR 48#6 0x0#7 x0 x1 0x0#5)) == 0x0#7) (.enq (fA (packCR 48#6 0x0#7 x0 x1 0x0#5)) (fB (packCR 48#6 0x0#7 x0 x1 0x0#5))) : Except DecodeError Instr) = _
  simp only [fA_packCR, fB_packCR, fD_packCR, need, beq_self_eq_true, Bool.and_self, if_true]
theorem enqNb : ∀ x0 x1, Statement (.enqNb x0 x1) := by
  intro x0 x1
  refine ⟨fun _ h => (major_30 ..).trans ?_, nofun, nofun⟩
  unfold decodeMajor30
  rw [fFn_packCR]
  change (need ((fD (packCR 48#6 0x0#7 x0 x1 0x1#5)) == 0x0#7) (.enqNb (fA (packCR 48#6 0x0#7 x0 x1 0x1#5)) (fB (packCR 48#6 0x0#7 x0 x1 0x1#5))) : Except DecodeError Instr) = _
  simp only [fA_packCR, fB_packCR, fD_packCR, need, beq_self_eq_true, Bool.and_self, if_true]
theorem deq : ∀ x0 x1, Statement (.deq x0 x1) := by
  intro x0 x1
  refine ⟨fun _ h => (major_30 ..).trans ?_, nofun, nofun⟩
  unfold decodeMajor30
  rw [fFn_packCR]
  change (need ((fD (packCR 48#6 0x0#7 x0 x1 0x2#5)) == 0x0#7) (.deq (fA (packCR 48#6 0x0#7 x0 x1 0x2#5)) (fB (packCR 48#6 0x0#7 x0 x1 0x2#5))) : Except DecodeError Instr) = _
  simp only [fA_packCR, fB_packCR, fD_packCR, need, beq_self_eq_true, Bool.and_self, if_true]
theorem deqNb : ∀ x0 x1, Statement (.deqNb x0 x1) := by
  intro x0 x1
  refine ⟨fun _ h => (major_30 ..).trans ?_, nofun, nofun⟩
  unfold decodeMajor30
  rw [fFn_packCR]
  change (need ((fD (packCR 48#6 0x0#7 x0 x1 0x3#5)) == 0x0#7) (.deqNb (fA (packCR 48#6 0x0#7 x0 x1 0x3#5)) (fB (packCR 48#6 0x0#7 x0 x1 0x3#5))) : Except DecodeError Instr) = _
  simp only [fA_packCR, fB_packCR, fD_packCR, need, beq_self_eq_true, Bool.and_self, if_true]
theorem qsteal : ∀ x0 x1, Statement (.qsteal x0 x1) := by
  intro x0 x1
  refine ⟨fun _ h => (major_30 ..).trans ?_, nofun, nofun⟩
  unfold decodeMajor30
  rw [fFn_packCR]
  change (need ((fD (packCR 48#6 0x0#7 x0 x1 0x4#5)) == 0x0#7) (.qsteal (fA (packCR 48#6 0x0#7 x0 x1 0x4#5)) (fB (packCR 48#6 0x0#7 x0 x1 0x4#5))) : Except DecodeError Instr) = _
  simp only [fA_packCR, fB_packCR, fD_packCR, need, beq_self_eq_true, Bool.and_self, if_true]
theorem qinit : ∀ x0 x1, Statement (.qinit x0 x1) := by
  intro x0 x1
  refine ⟨fun _ h => (major_30 ..).trans ?_, nofun, nofun⟩
  unfold decodeMajor30
  rw [fFn_packCR]
  change (need ((fD (packCR 48#6 0x0#7 x0 x1 0x5#5)) == 0x0#7) (.qinit (fA (packCR 48#6 0x0#7 x0 x1 0x5#5)) (fB (packCR 48#6 0x0#7 x0 x1 0x5#5))) : Except DecodeError Instr) = _
  simp only [fA_packCR, fB_packCR, fD_packCR, need, beq_self_eq_true, Bool.and_self, if_true]
theorem qstat : ∀ x0 x1, Statement (.qstat x0 x1) := by
  intro x0 x1
  refine ⟨fun _ h => (major_30 ..).trans ?_, nofun, nofun⟩
  unfold decodeMajor30
  rw [fFn_packCR]
  change (need ((fB (packCR 48#6 x0 x1 0x0#7 0x6#5)) == 0x0#7) (.qstat (fD (packCR 48#6 x0 x1 0x0#7 0x6#5)) (fA (packCR 48#6 x0 x1 0x0#7 0x6#5))) : Except DecodeError Instr) = _
  simp only [fA_packCR, fB_packCR, fD_packCR, need, beq_self_eq_true, Bool.and_self, if_true]
theorem qpoison : ∀ x0, Statement (.qpoison x0) := by
  intro x0
  refine ⟨fun _ h => (major_30 ..).trans ?_, nofun, nofun⟩
  unfold decodeMajor30
  rw [fFn_packCR]
  change (need ((fD (packCR 48#6 0x0#7 x0 0x0#7 0x7#5)) == 0x0#7 && (fB (packCR 48#6 0x0#7 x0 0x0#7 0x7#5)) == 0x0#7) (.qpoison (fA (packCR 48#6 0x0#7 x0 0x0#7 0x7#5))) : Except DecodeError Instr) = _
  simp only [fA_packCR, fB_packCR, fD_packCR, need, beq_self_eq_true, Bool.and_self, if_true]
theorem qdrain : ∀ x0 x1 x2, Statement (.qdrain x0 x1 x2) := by
  intro x0 x1 x2
  refine ⟨fun _ h => (major_30 ..).trans ?_, nofun, nofun⟩
  unfold decodeMajor30
  rw [fFn_packCR]
  change (.ok (.qdrain (fD (packCR 48#6 x0 x1 x2 0x8#5)) (fA (packCR 48#6 x0 x1 x2 0x8#5)) (fB (packCR 48#6 x0 x1 x2 0x8#5))) : Except DecodeError Instr) = _
  simp only [fA_packCR, fB_packCR, fD_packCR]
theorem enqv : ∀ x0 x1, Statement (.enqv x0 x1) := by
  intro x0 x1
  refine ⟨fun _ h => (major_30 ..).trans ?_, nofun, nofun⟩
  unfold decodeMajor30
  rw [fFn_packCR]
  change (need ((fD (packCR 48#6 0x0#7 x0 x1 0x9#5)) == 0x0#7) (.enqv (fA (packCR 48#6 0x0#7 x0 x1 0x9#5)) (fB (packCR 48#6 0x0#7 x0 x1 0x9#5))) : Except DecodeError Instr) = _
  simp only [fA_packCR, fB_packCR, fD_packCR, need, beq_self_eq_true, Bool.and_self, if_true]
theorem deqv : ∀ x0 x1, Statement (.deqv x0 x1) := by
  intro x0 x1
  refine ⟨fun _ h => (major_30 ..).trans ?_, nofun, nofun⟩
  unfold decodeMajor30
  rw [fFn_packCR]
  change (need ((fB (packCR 48#6 x0 x1 0x0#7 0xa#5)) == 0x0#7) (.deqv (fD (packCR 48#6 x0 x1 0x0#7 0xa#5)) (fA (packCR 48#6 x0 x1 0x0#7 0xa#5))) : Except DecodeError Instr) = _
  simp only [fA_packCR, fB_packCR, fD_packCR, need, beq_self_eq_true, Bool.and_self, if_true]
theorem gath : ∀ x0 x1 x2 x3 x4, Statement (.gath x0 x1 x2 x3 x4) := by
  intro x0 x1 x2 x3 x4
  refine ⟨fun _ h => (major_31 ..).trans ?_, nofun, nofun⟩
  unfold decodeMajor31
  rw [fFn6_packCX]
  change (need (((fI6 (packCX 49#6 0x0#6 x0 x1 (0x0#2 ++ x2 ++ x3 ++ x4))).extractLsb' 4 2) == 0x0#2) (.gath (fXa (packCX 49#6 0x0#6 x0 x1 (0x0#2 ++ x2 ++ x3 ++ x4))) (fXb (packCX 49#6 0x0#6 x0 x1 (0x0#2 ++ x2 ++ x3 ++ x4))) ((fI6 (packCX 49#6 0x0#6 x0 x1 (0x0#2 ++ x2 ++ x3 ++ x4))).extractLsb' 3 1) ((fI6 (packCX 49#6 0x0#6 x0 x1 (0x0#2 ++ x2 ++ x3 ++ x4))).extractLsb' 2 1) ((fI6 (packCX 49#6 0x0#6 x0 x1 (0x0#2 ++ x2 ++ x3 ++ x4))).extractLsb' 0 2)) : Except DecodeError Instr) = _
  simp only [fI6_packCX, fXa_packCX, fXb_packCX, part0_of_1_5, part1_of_1_5, part0_of_2_1_1_2, part1_of_2_1_1_2, part2_of_2_1_1_2, part3_of_2_1_1_2, part0_of_2_3, part1_of_2_3, part0_of_2_4, part1_of_2_4, part0_of_3_1_2, part1_of_3_1_2, part2_of_3_1_2, part0_of_3_2_3_1, part1_of_3_2_3_1, part2_of_3_2_3_1, part3_of_3_2_3_1, part0_of_3_2_4, part1_of_3_2_4, part2_of_3_2_4, part0_of_3_3_2_1, part1_of_3_3_2_1, part2_of_3_3_2_1, part3_of_3_3_2_1, part0_of_3_3_3, part1_of_3_3_3, part2_of_3_3_3, part0_of_3_5_1, part1_of_3_5_1, part2_of_3_5_1, part0_of_3_6, part1_of_3_6, part0_of_4_2, part1_of_4_2, part0_of_5_1, part1_of_5_1, part0_of_5_2_2, part1_of_5_2_2, part2_of_5_2_2, part0_of_5_3_1, part1_of_5_3_1, part2_of_5_3_1, part0_of_5_4, part1_of_5_4, part0_of_6_2_1, part1_of_6_2_1, part2_of_6_2_1, part0_of_6_6, part1_of_6_6, part0_of_8_1, part1_of_8_1, need, beq_self_eq_true, Bool.and_self, if_true]
theorem scat : ∀ x0 x1 x2 x3 x4, Statement (.scat x0 x1 x2 x3 x4) := by
  intro x0 x1 x2 x3 x4
  refine ⟨fun _ h => (major_31 ..).trans ?_, nofun, nofun⟩
  unfold decodeMajor31
  rw [fFn6_packCX]
  change (need (((fI6 (packCX 49#6 0x1#6 x0 x1 (0x0#2 ++ x2 ++ x3 ++ x4))).extractLsb' 4 2) == 0x0#2) (.scat (fXa (packCX 49#6 0x1#6 x0 x1 (0x0#2 ++ x2 ++ x3 ++ x4))) (fXb (packCX 49#6 0x1#6 x0 x1 (0x0#2 ++ x2 ++ x3 ++ x4))) ((fI6 (packCX 49#6 0x1#6 x0 x1 (0x0#2 ++ x2 ++ x3 ++ x4))).extractLsb' 3 1) ((fI6 (packCX 49#6 0x1#6 x0 x1 (0x0#2 ++ x2 ++ x3 ++ x4))).extractLsb' 2 1) ((fI6 (packCX 49#6 0x1#6 x0 x1 (0x0#2 ++ x2 ++ x3 ++ x4))).extractLsb' 0 2)) : Except DecodeError Instr) = _
  simp only [fI6_packCX, fXa_packCX, fXb_packCX, part0_of_1_5, part1_of_1_5, part0_of_2_1_1_2, part1_of_2_1_1_2, part2_of_2_1_1_2, part3_of_2_1_1_2, part0_of_2_3, part1_of_2_3, part0_of_2_4, part1_of_2_4, part0_of_3_1_2, part1_of_3_1_2, part2_of_3_1_2, part0_of_3_2_3_1, part1_of_3_2_3_1, part2_of_3_2_3_1, part3_of_3_2_3_1, part0_of_3_2_4, part1_of_3_2_4, part2_of_3_2_4, part0_of_3_3_2_1, part1_of_3_3_2_1, part2_of_3_3_2_1, part3_of_3_3_2_1, part0_of_3_3_3, part1_of_3_3_3, part2_of_3_3_3, part0_of_3_5_1, part1_of_3_5_1, part2_of_3_5_1, part0_of_3_6, part1_of_3_6, part0_of_4_2, part1_of_4_2, part0_of_5_1, part1_of_5_1, part0_of_5_2_2, part1_of_5_2_2, part2_of_5_2_2, part0_of_5_3_1, part1_of_5_3_1, part2_of_5_3_1, part0_of_5_4, part1_of_5_4, part0_of_6_2_1, part1_of_6_2_1, part2_of_6_2_1, part0_of_6_6, part1_of_6_6, part0_of_8_1, part1_of_8_1, need, beq_self_eq_true, Bool.and_self, if_true]
theorem launch : ∀ x0 x1, Statement (.launch x0 x1) := by
  intro x0 x1
  refine ⟨fun _ h => (major_32 ..).trans ?_, nofun, nofun⟩
  unfold decodeMajor32
  rw [fFn_packCR]
  change (need ((fB (packCR 50#6 x0 x1 0x0#7 0x0#5)) == 0x0#7) (.launch (fD (packCR 50#6 x0 x1 0x0#7 0x0#5)) (fA (packCR 50#6 x0 x1 0x0#7 0x0#5))) : Except DecodeError Instr) = _
  simp only [fA_packCR, fB_packCR, fD_packCR, need, beq_self_eq_true, Bool.and_self, if_true]
theorem launchW : ∀ x0 x1, Statement (.launchW x0 x1) := by
  intro x0 x1
  refine ⟨fun _ h => (major_32 ..).trans ?_, nofun, nofun⟩
  unfold decodeMajor32
  rw [fFn_packCR]
  change (need ((fB (packCR 50#6 x0 x1 0x0#7 0x1#5)) == 0x0#7) (.launchW (fD (packCR 50#6 x0 x1 0x0#7 0x1#5)) (fA (packCR 50#6 x0 x1 0x0#7 0x1#5))) : Except DecodeError Instr) = _
  simp only [fA_packCR, fB_packCR, fD_packCR, need, beq_self_eq_true, Bool.and_self, if_true]
theorem cancel : ∀ x0 x1, Statement (.cancel x0 x1) := by
  intro x0 x1
  refine ⟨fun _ h => (major_32 ..).trans ?_, nofun, nofun⟩
  unfold decodeMajor32
  rw [fFn_packCR]
  change (need ((fD (packCR 50#6 0x0#7 x0 x1 0x2#5)) == 0x0#7) (.cancel (fA (packCR 50#6 0x0#7 x0 x1 0x2#5)) (fB (packCR 50#6 0x0#7 x0 x1 0x2#5))) : Except DecodeError Instr) = _
  simp only [fA_packCR, fB_packCR, fD_packCR, need, beq_self_eq_true, Bool.and_self, if_true]
theorem graphnew : ∀ x0 x1, Statement (.graphnew x0 x1) := by
  intro x0 x1
  refine ⟨fun _ h => (major_32 ..).trans ?_, nofun, nofun⟩
  unfold decodeMajor32
  rw [fFn_packCR]
  change (need ((fD (packCR 50#6 0x0#7 x0 x1 0x3#5)) == 0x0#7) (.graphnew (fA (packCR 50#6 0x0#7 x0 x1 0x3#5)) (fB (packCR 50#6 0x0#7 x0 x1 0x3#5))) : Except DecodeError Instr) = _
  simp only [fA_packCR, fB_packCR, fD_packCR, need, beq_self_eq_true, Bool.and_self, if_true]
theorem jobdl : ∀ x0 x1, Statement (.jobdl x0 x1) := by
  intro x0 x1
  refine ⟨fun _ h => (major_32 ..).trans ?_, nofun, nofun⟩
  unfold decodeMajor32
  rw [fFn_packCR]
  change (need ((fD (packCR 50#6 0x0#7 x0 x1 0x4#5)) == 0x0#7) (.jobdl (fA (packCR 50#6 0x0#7 x0 x1 0x4#5)) (fB (packCR 50#6 0x0#7 x0 x1 0x4#5))) : Except DecodeError Instr) = _
  simp only [fA_packCR, fB_packCR, fD_packCR, need, beq_self_eq_true, Bool.and_self, if_true]
theorem lturn : ∀ x0 x1 x2 x3, Statement (.lturn x0 x1 x2 x3) := by
  intro x0 x1 x2 x3
  refine ⟨fun _ h => (major_33 ..).trans ?_, nofun, nofun⟩
  unfold decodeMajor33
  rw [fFn6_packCX]
  change (.ok (.lturn (fXa (packCX 51#6 0x0#6 x0 x1 (x2 ++ x3))) (fXb (packCX 51#6 0x0#6 x0 x1 (x2 ++ x3))) ((fI6 (packCX 51#6 0x0#6 x0 x1 (x2 ++ x3))).extractLsb' 4 2) ((fI6 (packCX 51#6 0x0#6 x0 x1 (x2 ++ x3))).extractLsb' 0 4)) : Except DecodeError Instr) = _
  simp only [fI6_packCX, fXa_packCX, fXb_packCX, part0_of_1_5, part1_of_1_5, part0_of_2_1_1_2, part1_of_2_1_1_2, part2_of_2_1_1_2, part3_of_2_1_1_2, part0_of_2_3, part1_of_2_3, part0_of_2_4, part1_of_2_4, part0_of_3_1_2, part1_of_3_1_2, part2_of_3_1_2, part0_of_3_2_3_1, part1_of_3_2_3_1, part2_of_3_2_3_1, part3_of_3_2_3_1, part0_of_3_2_4, part1_of_3_2_4, part2_of_3_2_4, part0_of_3_3_2_1, part1_of_3_3_2_1, part2_of_3_3_2_1, part3_of_3_3_2_1, part0_of_3_3_3, part1_of_3_3_3, part2_of_3_3_3, part0_of_3_5_1, part1_of_3_5_1, part2_of_3_5_1, part0_of_3_6, part1_of_3_6, part0_of_4_2, part1_of_4_2, part0_of_5_1, part1_of_5_1, part0_of_5_2_2, part1_of_5_2_2, part2_of_5_2_2, part0_of_5_3_1, part1_of_5_3_1, part2_of_5_3_1, part0_of_5_4, part1_of_5_4, part0_of_6_2_1, part1_of_6_2_1, part2_of_6_2_1, part0_of_6_6, part1_of_6_6, part0_of_8_1, part1_of_8_1]
theorem lqry : ∀ x0 x1 x2 x3, Statement (.lqry x0 x1 x2 x3) := by
  intro x0 x1 x2 x3
  refine ⟨fun _ h => (major_33 ..).trans ?_, nofun, nofun⟩
  unfold decodeMajor33
  rw [fFn6_packCX]
  change (need (((fI6 (packCX 51#6 0x1#6 x0 x1 (0x0#3 ++ x2 ++ x3))).extractLsb' 3 3) == 0x0#3) (.lqry (fXa (packCX 51#6 0x1#6 x0 x1 (0x0#3 ++ x2 ++ x3))) (fXb (packCX 51#6 0x1#6 x0 x1 (0x0#3 ++ x2 ++ x3))) ((fI6 (packCX 51#6 0x1#6 x0 x1 (0x0#3 ++ x2 ++ x3))).extractLsb' 2 1) ((fI6 (packCX 51#6 0x1#6 x0 x1 (0x0#3 ++ x2 ++ x3))).extractLsb' 0 2)) : Except DecodeError Instr) = _
  simp only [fI6_packCX, fXa_packCX, fXb_packCX, part0_of_1_5, part1_of_1_5, part0_of_2_1_1_2, part1_of_2_1_1_2, part2_of_2_1_1_2, part3_of_2_1_1_2, part0_of_2_3, part1_of_2_3, part0_of_2_4, part1_of_2_4, part0_of_3_1_2, part1_of_3_1_2, part2_of_3_1_2, part0_of_3_2_3_1, part1_of_3_2_3_1, part2_of_3_2_3_1, part3_of_3_2_3_1, part0_of_3_2_4, part1_of_3_2_4, part2_of_3_2_4, part0_of_3_3_2_1, part1_of_3_3_2_1, part2_of_3_3_2_1, part3_of_3_3_2_1, part0_of_3_3_3, part1_of_3_3_3, part2_of_3_3_3, part0_of_3_5_1, part1_of_3_5_1, part2_of_3_5_1, part0_of_3_6, part1_of_3_6, part0_of_4_2, part1_of_4_2, part0_of_5_1, part1_of_5_1, part0_of_5_2_2, part1_of_5_2_2, part2_of_5_2_2, part0_of_5_3_1, part1_of_5_3_1, part2_of_5_3_1, part0_of_5_4, part1_of_5_4, part0_of_6_2_1, part1_of_6_2_1, part2_of_6_2_1, part0_of_6_6, part1_of_6_6, part0_of_8_1, part1_of_8_1, need, beq_self_eq_true, Bool.and_self, if_true]
theorem lfloor : ∀ x0 x1 x2, Statement (.lfloor x0 x1 x2) := by
  intro x0 x1 x2
  refine ⟨fun _ h => (major_33 ..).trans ?_, nofun, nofun⟩
  unfold decodeMajor33
  rw [fFn6_packCX]
  change (need (((fI6 (packCX 51#6 0x2#6 x0 x1 (0x0#4 ++ x2))).extractLsb' 2 4) == 0x0#4) (.lfloor (fXa (packCX 51#6 0x2#6 x0 x1 (0x0#4 ++ x2))) (fXb (packCX 51#6 0x2#6 x0 x1 (0x0#4 ++ x2))) ((fI6 (packCX 51#6 0x2#6 x0 x1 (0x0#4 ++ x2))).extractLsb' 0 2)) : Except DecodeError Instr) = _
  simp only [fI6_packCX, fXa_packCX, fXb_packCX, part0_of_1_5, part1_of_1_5, part0_of_2_1_1_2, part1_of_2_1_1_2, part2_of_2_1_1_2, part3_of_2_1_1_2, part0_of_2_3, part1_of_2_3, part0_of_2_4, part1_of_2_4, part0_of_3_1_2, part1_of_3_1_2, part2_of_3_1_2, part0_of_3_2_3_1, part1_of_3_2_3_1, part2_of_3_2_3_1, part3_of_3_2_3_1, part0_of_3_2_4, part1_of_3_2_4, part2_of_3_2_4, part0_of_3_3_2_1, part1_of_3_3_2_1, part2_of_3_3_2_1, part3_of_3_3_2_1, part0_of_3_3_3, part1_of_3_3_3, part2_of_3_3_3, part0_of_3_5_1, part1_of_3_5_1, part2_of_3_5_1, part0_of_3_6, part1_of_3_6, part0_of_4_2, part1_of_4_2, part0_of_5_1, part1_of_5_1, part0_of_5_2_2, part1_of_5_2_2, part2_of_5_2_2, part0_of_5_3_1, part1_of_5_3_1, part2_of_5_3_1, part0_of_5_4, part1_of_5_4, part0_of_6_2_1, part1_of_6_2_1, part2_of_6_2_1, part0_of_6_6, part1_of_6_6, part0_of_8_1, part1_of_8_1, need, beq_self_eq_true, Bool.and_self, if_true]
theorem mcst : ∀ x0 x1 x2, Statement (.mcst x0 x1 x2) := by
  intro x0 x1 x2
  refine ⟨fun _ h => (major_33 ..).trans ?_, nofun, nofun⟩
  unfold decodeMajor33
  rw [fFn6_packCX]
  change (need (((fI6 (packCX 51#6 0x3#6 x0 x1 (0x0#2 ++ x2))).extractLsb' 4 2) == 0x0#2) (.mcst (fXa (packCX 51#6 0x3#6 x0 x1 (0x0#2 ++ x2))) (fXb (packCX 51#6 0x3#6 x0 x1 (0x0#2 ++ x2))) ((fI6 (packCX 51#6 0x3#6 x0 x1 (0x0#2 ++ x2))).extractLsb' 0 4)) : Except DecodeError Instr) = _
  simp only [fI6_packCX, fXa_packCX, fXb_packCX, part0_of_1_5, part1_of_1_5, part0_of_2_1_1_2, part1_of_2_1_1_2, part2_of_2_1_1_2, part3_of_2_1_1_2, part0_of_2_3, part1_of_2_3, part0_of_2_4, part1_of_2_4, part0_of_3_1_2, part1_of_3_1_2, part2_of_3_1_2, part0_of_3_2_3_1, part1_of_3_2_3_1, part2_of_3_2_3_1, part3_of_3_2_3_1, part0_of_3_2_4, part1_of_3_2_4, part2_of_3_2_4, part0_of_3_3_2_1, part1_of_3_3_2_1, part2_of_3_3_2_1, part3_of_3_3_2_1, part0_of_3_3_3, part1_of_3_3_3, part2_of_3_3_3, part0_of_3_5_1, part1_of_3_5_1, part2_of_3_5_1, part0_of_3_6, part1_of_3_6, part0_of_4_2, part1_of_4_2, part0_of_5_1, part1_of_5_1, part0_of_5_2_2, part1_of_5_2_2, part2_of_5_2_2, part0_of_5_3_1, part1_of_5_3_1, part2_of_5_3_1, part0_of_5_4, part1_of_5_4, part0_of_6_2_1, part1_of_6_2_1, part2_of_6_2_1, part0_of_6_6, part1_of_6_6, part0_of_8_1, part1_of_8_1, need, beq_self_eq_true, Bool.and_self, if_true]
theorem epbind : ∀ x0 x1, Statement (.epbind x0 x1) := by
  intro x0 x1
  refine ⟨fun _ h => (major_33 ..).trans ?_, nofun, nofun⟩
  unfold decodeMajor33
  rw [fFn6_packCX]
  change (need ((fXb (packCX 51#6 0x4#6 x0 0x0#7 (0x0#1 ++ x1))) == 0x0#7 && ((fI6 (packCX 51#6 0x4#6 x0 0x0#7 (0x0#1 ++ x1))).extractLsb' 5 1) == 0x0#1) (.epbind (fXa (packCX 51#6 0x4#6 x0 0x0#7 (0x0#1 ++ x1))) ((fI6 (packCX 51#6 0x4#6 x0 0x0#7 (0x0#1 ++ x1))).extractLsb' 0 5)) : Except DecodeError Instr) = _
  simp only [fI6_packCX, fXa_packCX, fXb_packCX, part0_of_1_5, part1_of_1_5, part0_of_2_1_1_2, part1_of_2_1_1_2, part2_of_2_1_1_2, part3_of_2_1_1_2, part0_of_2_3, part1_of_2_3, part0_of_2_4, part1_of_2_4, part0_of_3_1_2, part1_of_3_1_2, part2_of_3_1_2, part0_of_3_2_3_1, part1_of_3_2_3_1, part2_of_3_2_3_1, part3_of_3_2_3_1, part0_of_3_2_4, part1_of_3_2_4, part2_of_3_2_4, part0_of_3_3_2_1, part1_of_3_3_2_1, part2_of_3_3_2_1, part3_of_3_3_2_1, part0_of_3_3_3, part1_of_3_3_3, part2_of_3_3_3, part0_of_3_5_1, part1_of_3_5_1, part2_of_3_5_1, part0_of_3_6, part1_of_3_6, part0_of_4_2, part1_of_4_2, part0_of_5_1, part1_of_5_1, part0_of_5_2_2, part1_of_5_2_2, part2_of_5_2_2, part0_of_5_3_1, part1_of_5_3_1, part2_of_5_3_1, part0_of_5_4, part1_of_5_4, part0_of_6_2_1, part1_of_6_2_1, part2_of_6_2_1, part0_of_6_6, part1_of_6_6, part0_of_8_1, part1_of_8_1, need, beq_self_eq_true, Bool.and_self, if_true]
theorem epunb : ∀ x0, Statement (.epunb x0) := by
  intro x0
  refine ⟨fun _ h => (major_33 ..).trans ?_, nofun, nofun⟩
  unfold decodeMajor33
  rw [fFn6_packCX]
  change (need ((fXa (packCX 51#6 0x5#6 0x0#7 0x0#7 (0x0#1 ++ x0))) == 0x0#7 && (fXb (packCX 51#6 0x5#6 0x0#7 0x0#7 (0x0#1 ++ x0))) == 0x0#7 && ((fI6 (packCX 51#6 0x5#6 0x0#7 0x0#7 (0x0#1 ++ x0))).extractLsb' 5 1) == 0x0#1) (.epunb ((fI6 (packCX 51#6 0x5#6 0x0#7 0x0#7 (0x0#1 ++ x0))).extractLsb' 0 5)) : Except DecodeError Instr) = _
  simp only [fI6_packCX, fXa_packCX, fXb_packCX, part0_of_1_5, part1_of_1_5, part0_of_2_1_1_2, part1_of_2_1_1_2, part2_of_2_1_1_2, part3_of_2_1_1_2, part0_of_2_3, part1_of_2_3, part0_of_2_4, part1_of_2_4, part0_of_3_1_2, part1_of_3_1_2, part2_of_3_1_2, part0_of_3_2_3_1, part1_of_3_2_3_1, part2_of_3_2_3_1, part3_of_3_2_3_1, part0_of_3_2_4, part1_of_3_2_4, part2_of_3_2_4, part0_of_3_3_2_1, part1_of_3_3_2_1, part2_of_3_3_2_1, part3_of_3_3_2_1, part0_of_3_3_3, part1_of_3_3_3, part2_of_3_3_3, part0_of_3_5_1, part1_of_3_5_1, part2_of_3_5_1, part0_of_3_6, part1_of_3_6, part0_of_4_2, part1_of_4_2, part0_of_5_1, part1_of_5_1, part0_of_5_2_2, part1_of_5_2_2, part2_of_5_2_2, part0_of_5_3_1, part1_of_5_3_1, part2_of_5_3_1, part0_of_5_4, part1_of_5_4, part0_of_6_2_1, part1_of_6_2_1, part2_of_6_2_1, part0_of_6_6, part1_of_6_6, part0_of_8_1, part1_of_8_1, need, beq_self_eq_true, Bool.and_self, if_true]
theorem preempt : ∀ x0 x1, Statement (.preempt x0 x1) := by
  intro x0 x1
  refine ⟨fun _ h => (major_34 ..).trans ?_, nofun, nofun⟩
  unfold decodeMajor34
  rw [fFn6_packCX]
  change (need ((fI6 (packCX 52#6 0x0#6 x0 x1 0x0#6)) == 0x0#6) (.preempt (fXa (packCX 52#6 0x0#6 x0 x1 0x0#6)) (fXb (packCX 52#6 0x0#6 x0 x1 0x0#6))) : Except DecodeError Instr) = _
  simp only [fI6_packCX, fXa_packCX, fXb_packCX, need, beq_self_eq_true, Bool.and_self, if_true]
theorem resume : ∀ x0 x1, Statement (.resume x0 x1) := by
  intro x0 x1
  refine ⟨fun _ h => (major_34 ..).trans ?_, nofun, nofun⟩
  unfold decodeMajor34
  rw [fFn6_packCX]
  change (need ((fI6 (packCX 52#6 0x1#6 x0 x1 0x0#6)) == 0x0#6) (.resume (fXa (packCX 52#6 0x1#6 x0 x1 0x0#6)) (fXb (packCX 52#6 0x1#6 x0 x1 0x0#6))) : Except DecodeError Instr) = _
  simp only [fI6_packCX, fXa_packCX, fXb_packCX, need, beq_self_eq_true, Bool.and_self, if_true]
theorem snapq : ∀ x0 x1, Statement (.snapq x0 x1) := by
  intro x0 x1
  refine ⟨fun _ h => (major_34 ..).trans ?_, nofun, nofun⟩
  unfold decodeMajor34
  rw [fFn6_packCX]
  change (need ((fI6 (packCX 52#6 0x2#6 x0 x1 0x0#6)) == 0x0#6) (.snapq (fXa (packCX 52#6 0x2#6 x0 x1 0x0#6)) (fXb (packCX 52#6 0x2#6 x0 x1 0x0#6))) : Except DecodeError Instr) = _
  simp only [fI6_packCX, fXa_packCX, fXb_packCX, need, beq_self_eq_true, Bool.and_self, if_true]
theorem tlbinv : ∀ x0 x1, Statement (.tlbinv x0 x1) := by
  intro x0 x1
  refine ⟨fun _ h => (major_35 ..).trans ?_, nofun, nofun⟩
  unfold decodeMajor35
  rw [fFn6_packCX]
  change (need ((fI6 (packCX 53#6 0x0#6 x0 x1 0x0#6)) == 0x0#6) (.tlbinv (fXa (packCX 53#6 0x0#6 x0 x1 0x0#6)) (fXb (packCX 53#6 0x0#6 x0 x1 0x0#6))) : Except DecodeError Instr) = _
  simp only [fI6_packCX, fXa_packCX, fXb_packCX, need, beq_self_eq_true, Bool.and_self, if_true]
theorem tlbinva : ∀ x0 x1, Statement (.tlbinva x0 x1) := by
  intro x0 x1
  refine ⟨fun _ h => (major_35 ..).trans ?_, nofun, nofun⟩
  unfold decodeMajor35
  rw [fFn6_packCX]
  change (need ((fXb (packCX 53#6 0x1#6 x0 0x0#7 (0x0#5 ++ x1))) == 0x0#7 && ((fI6 (packCX 53#6 0x1#6 x0 0x0#7 (0x0#5 ++ x1))).extractLsb' 1 5) == 0x0#5) (.tlbinva (fXa (packCX 53#6 0x1#6 x0 0x0#7 (0x0#5 ++ x1))) ((fI6 (packCX 53#6 0x1#6 x0 0x0#7 (0x0#5 ++ x1))).extractLsb' 0 1)) : Except DecodeError Instr) = _
  simp only [fI6_packCX, fXa_packCX, fXb_packCX, part0_of_1_5, part1_of_1_5, part0_of_2_1_1_2, part1_of_2_1_1_2, part2_of_2_1_1_2, part3_of_2_1_1_2, part0_of_2_3, part1_of_2_3, part0_of_2_4, part1_of_2_4, part0_of_3_1_2, part1_of_3_1_2, part2_of_3_1_2, part0_of_3_2_3_1, part1_of_3_2_3_1, part2_of_3_2_3_1, part3_of_3_2_3_1, part0_of_3_2_4, part1_of_3_2_4, part2_of_3_2_4, part0_of_3_3_2_1, part1_of_3_3_2_1, part2_of_3_3_2_1, part3_of_3_3_2_1, part0_of_3_3_3, part1_of_3_3_3, part2_of_3_3_3, part0_of_3_5_1, part1_of_3_5_1, part2_of_3_5_1, part0_of_3_6, part1_of_3_6, part0_of_4_2, part1_of_4_2, part0_of_5_1, part1_of_5_1, part0_of_5_2_2, part1_of_5_2_2, part2_of_5_2_2, part0_of_5_3_1, part1_of_5_3_1, part2_of_5_3_1, part0_of_5_4, part1_of_5_4, part0_of_6_2_1, part1_of_6_2_1, part2_of_6_2_1, part0_of_6_6, part1_of_6_6, part0_of_8_1, part1_of_8_1, need, beq_self_eq_true, Bool.and_self, if_true]
theorem wcinv : ∀ x0, Statement (.wcinv x0) := by
  intro x0
  refine ⟨fun _ h => (major_35 ..).trans ?_, nofun, nofun⟩
  unfold decodeMajor35
  rw [fFn6_packCX]
  change (need ((fXb (packCX 53#6 0x2#6 x0 0x0#7 0x0#6)) == 0x0#7 && (fI6 (packCX 53#6 0x2#6 x0 0x0#7 0x0#6)) == 0x0#6) (.wcinv (fXa (packCX 53#6 0x2#6 x0 0x0#7 0x0#6))) : Except DecodeError Instr) = _
  simp only [fI6_packCX, fXa_packCX, fXb_packCX, need, beq_self_eq_true, Bool.and_self, if_true]
theorem xlprobe : ∀ x0 x1, Statement (.xlprobe x0 x1) := by
  intro x0 x1
  refine ⟨fun _ h => (major_35 ..).trans ?_, nofun, nofun⟩
  unfold decodeMajor35
  rw [fFn6_packCX]
  change (need ((fI6 (packCX 53#6 0x3#6 x0 x1 0x0#6)) == 0x0#6) (.xlprobe (fXa (packCX 53#6 0x3#6 x0 x1 0x0#6)) (fXb (packCX 53#6 0x3#6 x0 x1 0x0#6))) : Except DecodeError Instr) = _
  simp only [fI6_packCX, fXa_packCX, fXb_packCX, need, beq_self_eq_true, Bool.and_self, if_true]
theorem csrr : ∀ x0 x1, Statement (.csrr x0 x1) := by
  intro x0 x1
  refine ⟨fun _ h => ?_, nofun, nofun⟩
  change decodeC (packCI 54#6 x0 0x0#7 x1) = _
  unfold decodeC
  rw [fMajor_packCI]
  change (need ((fA (packCI 54#6 x0 0x0#7 x1)) == 0x0#7) (.csrr (fD (packCI 54#6 x0 0x0#7 x1)) (fI12 (packCI 54#6 x0 0x0#7 x1))) : Except DecodeError Instr) = _
  simp only [fA_packCI, fD_packCI, fI12_packCI, need, beq_self_eq_true, Bool.and_self, if_true]
theorem csrw : ∀ x0 x1 x2, Statement (.csrw x0 x1 x2) := by
  intro x0 x1 x2
  refine ⟨fun _ h => ?_, nofun, nofun⟩
  change decodeC (packCI 55#6 x0 x1 x2) = _
  unfold decodeC
  rw [fMajor_packCI]
  change (.ok (.csrw (fD (packCI 55#6 x0 x1 x2)) (fA (packCI 55#6 x0 x1 x2)) (fI12 (packCI 55#6 x0 x1 x2))) : Except DecodeError Instr) = _
  simp only [fA_packCI, fD_packCI, fI12_packCI]
theorem csrs : ∀ x0 x1 x2, Statement (.csrs x0 x1 x2) := by
  intro x0 x1 x2
  refine ⟨fun _ h => ?_, nofun, nofun⟩
  change decodeC (packCI 56#6 x0 x1 x2) = _
  unfold decodeC
  rw [fMajor_packCI]
  change (.ok (.csrs (fD (packCI 56#6 x0 x1 x2)) (fA (packCI 56#6 x0 x1 x2)) (fI12 (packCI 56#6 x0 x1 x2))) : Except DecodeError Instr) = _
  simp only [fA_packCI, fD_packCI, fI12_packCI]
theorem csrc : ∀ x0 x1 x2, Statement (.csrc x0 x1 x2) := by
  intro x0 x1 x2
  refine ⟨fun _ h => ?_, nofun, nofun⟩
  change decodeC (packCI 57#6 x0 x1 x2) = _
  unfold decodeC
  rw [fMajor_packCI]
  change (.ok (.csrc (fD (packCI 57#6 x0 x1 x2)) (fA (packCI 57#6 x0 x1 x2)) (fI12 (packCI 57#6 x0 x1 x2))) : Except DecodeError Instr) = _
  simp only [fA_packCI, fD_packCI, fI12_packCI]
theorem trap : ∀ x0, Statement (.trap x0) := by
  intro x0
  refine ⟨fun _ h => (major_3f ..).trans ?_, nofun, nofun⟩
  unfold decodeMajor3f
  rw [fFn6_packCX]
  change (need ((fXa (packCX 63#6 0x0#6 0x0#7 0x0#7 x0)) == 0x0#7 && (fXb (packCX 63#6 0x0#6 0x0#7 0x0#7 x0)) == 0x0#7) (.trap (fI6 (packCX 63#6 0x0#6 0x0#7 0x0#7 x0))) : Except DecodeError Instr) = _
  simp only [fI6_packCX, fXa_packCX, fXb_packCX, need, beq_self_eq_true, Bool.and_self, if_true]
theorem eret : Statement .eret := by
  refine ⟨fun _ h => (major_3f ..).trans ?_, nofun, nofun⟩
  unfold decodeMajor3f
  rw [fFn6_packCX]
  change (need ((fXa (packCX 63#6 0x1#6 0x0#7 0x0#7 0x0#6)) == 0x0#7 && (fXb (packCX 63#6 0x1#6 0x0#7 0x0#7 0x0#6)) == 0x0#7 && (fI6 (packCX 63#6 0x1#6 0x0#7 0x0#7 0x0#6)) == 0x0#6) (.eret) : Except DecodeError Instr) = _
  simp only [fI6_packCX, fXa_packCX, fXb_packCX, need, beq_self_eq_true, Bool.and_self, if_true]
theorem breakI : ∀ x0, Statement (.breakI x0) := by
  intro x0
  refine ⟨fun _ h => (major_3f ..).trans ?_, nofun, nofun⟩
  unfold decodeMajor3f
  rw [fFn6_packCX]
  change (need ((fXa (packCX 63#6 0x2#6 0x0#7 0x0#7 x0)) == 0x0#7 && (fXb (packCX 63#6 0x2#6 0x0#7 0x0#7 x0)) == 0x0#7) (.breakI (fI6 (packCX 63#6 0x2#6 0x0#7 0x0#7 x0))) : Except DecodeError Instr) = _
  simp only [fI6_packCX, fXa_packCX, fXb_packCX, need, beq_self_eq_true, Bool.and_self, if_true]
theorem attest : ∀ x0 x1, Statement (.attest x0 x1) := by
  intro x0 x1
  refine ⟨fun _ h => (major_3f ..).trans ?_, nofun, nofun⟩
  unfold decodeMajor3f
  rw [fFn6_packCX]
  change (need ((fI6 (packCX 63#6 0x3#6 x0 x1 0x0#6)) == 0x0#6) (.attest (fXa (packCX 63#6 0x3#6 x0 x1 0x0#6)) (fXb (packCX 63#6 0x3#6 x0 x1 0x0#6))) : Except DecodeError Instr) = _
  simp only [fI6_packCX, fXa_packCX, fXb_packCX, need, beq_self_eq_true, Bool.and_self, if_true]
theorem freeze : ∀ x0, Statement (.freeze x0) := by
  intro x0
  refine ⟨fun _ h => (major_3f ..).trans ?_, nofun, nofun⟩
  unfold decodeMajor3f
  rw [fFn6_packCX]
  change (need ((fXb (packCX 63#6 0x4#6 x0 0x0#7 0x0#6)) == 0x0#7 && (fI6 (packCX 63#6 0x4#6 x0 0x0#7 0x0#6)) == 0x0#6) (.freeze (fXa (packCX 63#6 0x4#6 x0 0x0#7 0x0#6))) : Except DecodeError Instr) = _
  simp only [fI6_packCX, fXa_packCX, fXb_packCX, need, beq_self_eq_true, Bool.and_self, if_true]
theorem oadd : ∀ x0 x1 x2, Statement (.oadd x0 x1 x2) := by
  intro x0 x1 x2
  refine ⟨nofun, fun _ => (eop_01 ..).trans ?_, nofun⟩
  unfold decodeEOnline
  rw [fEop_packE]
  change (need ((fEc (packE 1#8 x0 x1 0x0#5 (x2 ++ 0x0#4))) == 0x0#5 && ((fMode (packE 1#8 x0 x1 0x0#5 (x2 ++ 0x0#4))).extractLsb' 0 4) == 0x0#4) (.oadd (fEa (packE 1#8 x0 x1 0x0#5 (x2 ++ 0x0#4))) (fEb (packE 1#8 x0 x1 0x0#5 (x2 ++ 0x0#4))) ((fMode (packE 1#8 x0 x1 0x0#5 (x2 ++ 0x0#4))).extractLsb' 4 5)) : Except DecodeError Instr) = _
  simp only [fEa_packE, fEb_packE, fEc_packE, fMode_packE, part0_of_1_5, part1_of_1_5, part0_of_2_1_1_2, part1_of_2_1_1_2, part2_of_2_1_1_2, part3_of_2_1_1_2, part0_of_2_3, part1_of_2_3, part0_of_2_4, part1_of_2_4, part0_of_3_1_2, part1_of_3_1_2, part2_of_3_1_2, part0_of_3_2_3_1, part1_of_3_2_3_1, part2_of_3_2_3_1, part3_of_3_2_3_1, part0_of_3_2_4, part1_of_3_2_4, part2_of_3_2_4, part0_of_3_3_2_1, part1_of_3_3_2_1, part2_of_3_3_2_1, part3_of_3_3_2_1, part0_of_3_3_3, part1_of_3_3_3, part2_of_3_3_3, part0_of_3_5_1, part1_of_3_5_1, part2_of_3_5_1, part0_of_3_6, part1_of_3_6, part0_of_4_2, part1_of_4_2, part0_of_5_1, part1_of_5_1, part0_of_5_2_2, part1_of_5_2_2, part2_of_5_2_2, part0_of_5_3_1, part1_of_5_3_1, part2_of_5_3_1, part0_of_5_4, part1_of_5_4, part0_of_6_2_1, part1_of_6_2_1, part2_of_6_2_1, part0_of_6_6, part1_of_6_6, part0_of_8_1, part1_of_8_1, need, beq_self_eq_true, Bool.and_self, if_true]
theorem osub : ∀ x0 x1 x2, Statement (.osub x0 x1 x2) := by
  intro x0 x1 x2
  refine ⟨nofun, fun _ => (eop_02 ..).trans ?_, nofun⟩
  unfold decodeEOnline
  rw [fEop_packE]
  change (need ((fEc (packE 2#8 x0 x1 0x0#5 (x2 ++ 0x0#4))) == 0x0#5 && ((fMode (packE 2#8 x0 x1 0x0#5 (x2 ++ 0x0#4))).extractLsb' 0 4) == 0x0#4) (.osub (fEa (packE 2#8 x0 x1 0x0#5 (x2 ++ 0x0#4))) (fEb (packE 2#8 x0 x1 0x0#5 (x2 ++ 0x0#4))) ((fMode (packE 2#8 x0 x1 0x0#5 (x2 ++ 0x0#4))).extractLsb' 4 5)) : Except DecodeError Instr) = _
  simp only [fEa_packE, fEb_packE, fEc_packE, fMode_packE, part0_of_1_5, part1_of_1_5, part0_of_2_1_1_2, part1_of_2_1_1_2, part2_of_2_1_1_2, part3_of_2_1_1_2, part0_of_2_3, part1_of_2_3, part0_of_2_4, part1_of_2_4, part0_of_3_1_2, part1_of_3_1_2, part2_of_3_1_2, part0_of_3_2_3_1, part1_of_3_2_3_1, part2_of_3_2_3_1, part3_of_3_2_3_1, part0_of_3_2_4, part1_of_3_2_4, part2_of_3_2_4, part0_of_3_3_2_1, part1_of_3_3_2_1, part2_of_3_3_2_1, part3_of_3_3_2_1, part0_of_3_3_3, part1_of_3_3_3, part2_of_3_3_3, part0_of_3_5_1, part1_of_3_5_1, part2_of_3_5_1, part0_of_3_6, part1_of_3_6, part0_of_4_2, part1_of_4_2, part0_of_5_1, part1_of_5_1, part0_of_5_2_2, part1_of_5_2_2, part2_of_5_2_2, part0_of_5_3_1, part1_of_5_3_1, part2_of_5_3_1, part0_of_5_4, part1_of_5_4, part0_of_6_2_1, part1_of_6_2_1, part2_of_6_2_1, part0_of_6_6, part1_of_6_6, part0_of_8_1, part1_of_8_1, need, beq_self_eq_true, Bool.and_self, if_true]
theorem omul : ∀ x0 x1 x2, Statement (.omul x0 x1 x2) := by
  intro x0 x1 x2
  refine ⟨nofun, fun _ => (eop_03 ..).trans ?_, nofun⟩
  unfold decodeEOnline
  rw [fEop_packE]
  change (need ((fEc (packE 3#8 x0 x1 0x0#5 (x2 ++ 0x0#4))) == 0x0#5 && ((fMode (packE 3#8 x0 x1 0x0#5 (x2 ++ 0x0#4))).extractLsb' 0 4) == 0x0#4) (.omul (fEa (packE 3#8 x0 x1 0x0#5 (x2 ++ 0x0#4))) (fEb (packE 3#8 x0 x1 0x0#5 (x2 ++ 0x0#4))) ((fMode (packE 3#8 x0 x1 0x0#5 (x2 ++ 0x0#4))).extractLsb' 4 5)) : Except DecodeError Instr) = _
  simp only [fEa_packE, fEb_packE, fEc_packE, fMode_packE, part0_of_1_5, part1_of_1_5, part0_of_2_1_1_2, part1_of_2_1_1_2, part2_of_2_1_1_2, part3_of_2_1_1_2, part0_of_2_3, part1_of_2_3, part0_of_2_4, part1_of_2_4, part0_of_3_1_2, part1_of_3_1_2, part2_of_3_1_2, part0_of_3_2_3_1, part1_of_3_2_3_1, part2_of_3_2_3_1, part3_of_3_2_3_1, part0_of_3_2_4, part1_of_3_2_4, part2_of_3_2_4, part0_of_3_3_2_1, part1_of_3_3_2_1, part2_of_3_3_2_1, part3_of_3_3_2_1, part0_of_3_3_3, part1_of_3_3_3, part2_of_3_3_3, part0_of_3_5_1, part1_of_3_5_1, part2_of_3_5_1, part0_of_3_6, part1_of_3_6, part0_of_4_2, part1_of_4_2, part0_of_5_1, part1_of_5_1, part0_of_5_2_2, part1_of_5_2_2, part2_of_5_2_2, part0_of_5_3_1, part1_of_5_3_1, part2_of_5_3_1, part0_of_5_4, part1_of_5_4, part0_of_6_2_1, part1_of_6_2_1, part2_of_6_2_1, part0_of_6_6, part1_of_6_6, part0_of_8_1, part1_of_8_1, need, beq_self_eq_true, Bool.and_self, if_true]
theorem ofma : ∀ x0 x1 x2 x3, Statement (.ofma x0 x1 x2 x3) := by
  intro x0 x1 x2 x3
  refine ⟨nofun, fun _ => (eop_04 ..).trans ?_, nofun⟩
  unfold decodeEOnline
  rw [fEop_packE]
  change (need (((fMode (packE 4#8 x0 x1 x2 (x3 ++ 0x0#4))).extractLsb' 0 4) == 0x0#4) (.ofma (fEa (packE 4#8 x0 x1 x2 (x3 ++ 0x0#4))) (fEb (packE 4#8 x0 x1 x2 (x3 ++ 0x0#4))) (fEc (packE 4#8 x0 x1 x2 (x3 ++ 0x0#4))) ((fMode (packE 4#8 x0 x1 x2 (x3 ++ 0x0#4))).extractLsb' 4 5)) : Except DecodeError Instr) = _
  simp only [fEa_packE, fEb_packE, fEc_packE, fMode_packE, part0_of_1_5, part1_of_1_5, part0_of_2_1_1_2, part1_of_2_1_1_2, part2_of_2_1_1_2, part3_of_2_1_1_2, part0_of_2_3, part1_of_2_3, part0_of_2_4, part1_of_2_4, part0_of_3_1_2, part1_of_3_1_2, part2_of_3_1_2, part0_of_3_2_3_1, part1_of_3_2_3_1, part2_of_3_2_3_1, part3_of_3_2_3_1, part0_of_3_2_4, part1_of_3_2_4, part2_of_3_2_4, part0_of_3_3_2_1, part1_of_3_3_2_1, part2_of_3_3_2_1, part3_of_3_3_2_1, part0_of_3_3_3, part1_of_3_3_3, part2_of_3_3_3, part0_of_3_5_1, part1_of_3_5_1, part2_of_3_5_1, part0_of_3_6, part1_of_3_6, part0_of_4_2, part1_of_4_2, part0_of_5_1, part1_of_5_1, part0_of_5_2_2, part1_of_5_2_2, part2_of_5_2_2, part0_of_5_3_1, part1_of_5_3_1, part2_of_5_3_1, part0_of_5_4, part1_of_5_4, part0_of_6_2_1, part1_of_6_2_1, part2_of_6_2_1, part0_of_6_6, part1_of_6_6, part0_of_8_1, part1_of_8_1, need, beq_self_eq_true, Bool.and_self, if_true]
theorem odiv : ∀ x0 x1 x2, Statement (.odiv x0 x1 x2) := by
  intro x0 x1 x2
  refine ⟨nofun, fun _ => (eop_05 ..).trans ?_, nofun⟩
  unfold decodeEOnline
  rw [fEop_packE]
  change (need ((fEc (packE 5#8 x0 x1 0x0#5 (x2 ++ 0x0#4))) == 0x0#5 && ((fMode (packE 5#8 x0 x1 0x0#5 (x2 ++ 0x0#4))).extractLsb' 0 4) == 0x0#4) (.odiv (fEa (packE 5#8 x0 x1 0x0#5 (x2 ++ 0x0#4))) (fEb (packE 5#8 x0 x1 0x0#5 (x2 ++ 0x0#4))) ((fMode (packE 5#8 x0 x1 0x0#5 (x2 ++ 0x0#4))).extractLsb' 4 5)) : Except DecodeError Instr) = _
  simp only [fEa_packE, fEb_packE, fEc_packE, fMode_packE, part0_of_1_5, part1_of_1_5, part0_of_2_1_1_2, part1_of_2_1_1_2, part2_of_2_1_1_2, part3_of_2_1_1_2, part0_of_2_3, part1_of_2_3, part0_of_2_4, part1_of_2_4, part0_of_3_1_2, part1_of_3_1_2, part2_of_3_1_2, part0_of_3_2_3_1, part1_of_3_2_3_1, part2_of_3_2_3_1, part3_of_3_2_3_1, part0_of_3_2_4, part1_of_3_2_4, part2_of_3_2_4, part0_of_3_3_2_1, part1_of_3_3_2_1, part2_of_3_3_2_1, part3_of_3_3_2_1, part0_of_3_3_3, part1_of_3_3_3, part2_of_3_3_3, part0_of_3_5_1, part1_of_3_5_1, part2_of_3_5_1, part0_of_3_6, part1_of_3_6, part0_of_4_2, part1_of_4_2, part0_of_5_1, part1_of_5_1, part0_of_5_2_2, part1_of_5_2_2, part2_of_5_2_2, part0_of_5_3_1, part1_of_5_3_1, part2_of_5_3_1, part0_of_5_4, part1_of_5_4, part0_of_6_2_1, part1_of_6_2_1, part2_of_6_2_1, part0_of_6_6, part1_of_6_6, part0_of_8_1, part1_of_8_1, need, beq_self_eq_true, Bool.and_self, if_true]
theorem osqrt : ∀ x0 x1, Statement (.osqrt x0 x1) := by
  intro x0 x1
  refine ⟨nofun, fun _ => (eop_06 ..).trans ?_, nofun⟩
  unfold decodeEOnline
  rw [fEop_packE]
  change (need ((fEb (packE 6#8 x0 0x0#5 0x0#5 (x1 ++ 0x0#4))) == 0x0#5 && (fEc (packE 6#8 x0 0x0#5 0x0#5 (x1 ++ 0x0#4))) == 0x0#5 && ((fMode (packE 6#8 x0 0x0#5 0x0#5 (x1 ++ 0x0#4))).extractLsb' 0 4) == 0x0#4) (.osqrt (fEa (packE 6#8 x0 0x0#5 0x0#5 (x1 ++ 0x0#4))) ((fMode (packE 6#8 x0 0x0#5 0x0#5 (x1 ++ 0x0#4))).extractLsb' 4 5)) : Except DecodeError Instr) = _
  simp only [fEa_packE, fEb_packE, fEc_packE, fMode_packE, part0_of_1_5, part1_of_1_5, part0_of_2_1_1_2, part1_of_2_1_1_2, part2_of_2_1_1_2, part3_of_2_1_1_2, part0_of_2_3, part1_of_2_3, part0_of_2_4, part1_of_2_4, part0_of_3_1_2, part1_of_3_1_2, part2_of_3_1_2, part0_of_3_2_3_1, part1_of_3_2_3_1, part2_of_3_2_3_1, part3_of_3_2_3_1, part0_of_3_2_4, part1_of_3_2_4, part2_of_3_2_4, part0_of_3_3_2_1, part1_of_3_3_2_1, part2_of_3_3_2_1, part3_of_3_3_2_1, part0_of_3_3_3, part1_of_3_3_3, part2_of_3_3_3, part0_of_3_5_1, part1_of_3_5_1, part2_of_3_5_1, part0_of_3_6, part1_of_3_6, part0_of_4_2, part1_of_4_2, part0_of_5_1, part1_of_5_1, part0_of_5_2_2, part1_of_5_2_2, part2_of_5_2_2, part0_of_5_3_1, part1_of_5_3_1, part2_of_5_3_1, part0_of_5_4, part1_of_5_4, part0_of_6_2_1, part1_of_6_2_1, part2_of_6_2_1, part0_of_6_6, part1_of_6_6, part0_of_8_1, part1_of_8_1, need, beq_self_eq_true, Bool.and_self, if_true]
theorem orsqrt : ∀ x0 x1, Statement (.orsqrt x0 x1) := by
  intro x0 x1
  refine ⟨nofun, fun _ => (eop_07 ..).trans ?_, nofun⟩
  unfold decodeEOnline
  rw [fEop_packE]
  change (need ((fEb (packE 7#8 x0 0x0#5 0x0#5 (x1 ++ 0x0#4))) == 0x0#5 && (fEc (packE 7#8 x0 0x0#5 0x0#5 (x1 ++ 0x0#4))) == 0x0#5 && ((fMode (packE 7#8 x0 0x0#5 0x0#5 (x1 ++ 0x0#4))).extractLsb' 0 4) == 0x0#4) (.orsqrt (fEa (packE 7#8 x0 0x0#5 0x0#5 (x1 ++ 0x0#4))) ((fMode (packE 7#8 x0 0x0#5 0x0#5 (x1 ++ 0x0#4))).extractLsb' 4 5)) : Except DecodeError Instr) = _
  simp only [fEa_packE, fEb_packE, fEc_packE, fMode_packE, part0_of_1_5, part1_of_1_5, part0_of_2_1_1_2, part1_of_2_1_1_2, part2_of_2_1_1_2, part3_of_2_1_1_2, part0_of_2_3, part1_of_2_3, part0_of_2_4, part1_of_2_4, part0_of_3_1_2, part1_of_3_1_2, part2_of_3_1_2, part0_of_3_2_3_1, part1_of_3_2_3_1, part2_of_3_2_3_1, part3_of_3_2_3_1, part0_of_3_2_4, part1_of_3_2_4, part2_of_3_2_4, part0_of_3_3_2_1, part1_of_3_3_2_1, part2_of_3_3_2_1, part3_of_3_3_2_1, part0_of_3_3_3, part1_of_3_3_3, part2_of_3_3_3, part0_of_3_5_1, part1_of_3_5_1, part2_of_3_5_1, part0_of_3_6, part1_of_3_6, part0_of_4_2, part1_of_4_2, part0_of_5_1, part1_of_5_1, part0_of_5_2_2, part1_of_5_2_2, part2_of_5_2_2, part0_of_5_3_1, part1_of_5_3_1, part2_of_5_3_1, part0_of_5_4, part1_of_5_4, part0_of_6_2_1, part1_of_6_2_1, part2_of_6_2_1, part0_of_6_6, part1_of_6_6, part0_of_8_1, part1_of_8_1, need, beq_self_eq_true, Bool.and_self, if_true]
theorem oexp2 : ∀ x0 x1, Statement (.oexp2 x0 x1) := by
  intro x0 x1
  refine ⟨nofun, fun _ => (eop_08 ..).trans ?_, nofun⟩
  unfold decodeEOnline
  rw [fEop_packE]
  change (need ((fEb (packE 8#8 x0 0x0#5 0x0#5 (x1 ++ 0x0#4))) == 0x0#5 && (fEc (packE 8#8 x0 0x0#5 0x0#5 (x1 ++ 0x0#4))) == 0x0#5 && ((fMode (packE 8#8 x0 0x0#5 0x0#5 (x1 ++ 0x0#4))).extractLsb' 0 4) == 0x0#4) (.oexp2 (fEa (packE 8#8 x0 0x0#5 0x0#5 (x1 ++ 0x0#4))) ((fMode (packE 8#8 x0 0x0#5 0x0#5 (x1 ++ 0x0#4))).extractLsb' 4 5)) : Except DecodeError Instr) = _
  simp only [fEa_packE, fEb_packE, fEc_packE, fMode_packE, part0_of_1_5, part1_of_1_5, part0_of_2_1_1_2, part1_of_2_1_1_2, part2_of_2_1_1_2, part3_of_2_1_1_2, part0_of_2_3, part1_of_2_3, part0_of_2_4, part1_of_2_4, part0_of_3_1_2, part1_of_3_1_2, part2_of_3_1_2, part0_of_3_2_3_1, part1_of_3_2_3_1, part2_of_3_2_3_1, part3_of_3_2_3_1, part0_of_3_2_4, part1_of_3_2_4, part2_of_3_2_4, part0_of_3_3_2_1, part1_of_3_3_2_1, part2_of_3_3_2_1, part3_of_3_3_2_1, part0_of_3_3_3, part1_of_3_3_3, part2_of_3_3_3, part0_of_3_5_1, part1_of_3_5_1, part2_of_3_5_1, part0_of_3_6, part1_of_3_6, part0_of_4_2, part1_of_4_2, part0_of_5_1, part1_of_5_1, part0_of_5_2_2, part1_of_5_2_2, part2_of_5_2_2, part0_of_5_3_1, part1_of_5_3_1, part2_of_5_3_1, part0_of_5_4, part1_of_5_4, part0_of_6_2_1, part1_of_6_2_1, part2_of_6_2_1, part0_of_6_6, part1_of_6_6, part0_of_8_1, part1_of_8_1, need, beq_self_eq_true, Bool.and_self, if_true]
theorem oscl : ∀ x0 x1, Statement (.oscl x0 x1) := by
  intro x0 x1
  refine ⟨nofun, fun _ => (eop_09 ..).trans ?_, nofun⟩
  unfold decodeEOnline
  rw [fEop_packE]
  change (need ((fEb (packE 9#8 x0 0x0#5 0x0#5 (x1 ++ 0x0#4))) == 0x0#5 && (fEc (packE 9#8 x0 0x0#5 0x0#5 (x1 ++ 0x0#4))) == 0x0#5 && ((fMode (packE 9#8 x0 0x0#5 0x0#5 (x1 ++ 0x0#4))).extractLsb' 0 4) == 0x0#4) (.oscl (fEa (packE 9#8 x0 0x0#5 0x0#5 (x1 ++ 0x0#4))) ((fMode (packE 9#8 x0 0x0#5 0x0#5 (x1 ++ 0x0#4))).extractLsb' 4 5)) : Except DecodeError Instr) = _
  simp only [fEa_packE, fEb_packE, fEc_packE, fMode_packE, part0_of_1_5, part1_of_1_5, part0_of_2_1_1_2, part1_of_2_1_1_2, part2_of_2_1_1_2, part3_of_2_1_1_2, part0_of_2_3, part1_of_2_3, part0_of_2_4, part1_of_2_4, part0_of_3_1_2, part1_of_3_1_2, part2_of_3_1_2, part0_of_3_2_3_1, part1_of_3_2_3_1, part2_of_3_2_3_1, part3_of_3_2_3_1, part0_of_3_2_4, part1_of_3_2_4, part2_of_3_2_4, part0_of_3_3_2_1, part1_of_3_3_2_1, part2_of_3_3_2_1, part3_of_3_3_2_1, part0_of_3_3_3, part1_of_3_3_3, part2_of_3_3_3, part0_of_3_5_1, part1_of_3_5_1, part2_of_3_5_1, part0_of_3_6, part1_of_3_6, part0_of_4_2, part1_of_4_2, part0_of_5_1, part1_of_5_1, part0_of_5_2_2, part1_of_5_2_2, part2_of_5_2_2, part0_of_5_3_1, part1_of_5_3_1, part2_of_5_3_1, part0_of_5_4, part1_of_5_4, part0_of_6_2_1, part1_of_6_2_1, part2_of_6_2_1, part0_of_6_6, part1_of_6_6, part0_of_8_1, part1_of_8_1, need, beq_self_eq_true, Bool.and_self, if_true]
theorem oneg : ∀ x0 x1, Statement (.oneg x0 x1) := by
  intro x0 x1
  refine ⟨nofun, fun _ => (eop_0a ..).trans ?_, nofun⟩
  unfold decodeEOnline
  rw [fEop_packE]
  change (need ((fEb (packE 10#8 x0 0x0#5 0x0#5 (x1 ++ 0x0#4))) == 0x0#5 && (fEc (packE 10#8 x0 0x0#5 0x0#5 (x1 ++ 0x0#4))) == 0x0#5 && ((fMode (packE 10#8 x0 0x0#5 0x0#5 (x1 ++ 0x0#4))).extractLsb' 0 4) == 0x0#4) (.oneg (fEa (packE 10#8 x0 0x0#5 0x0#5 (x1 ++ 0x0#4))) ((fMode (packE 10#8 x0 0x0#5 0x0#5 (x1 ++ 0x0#4))).extractLsb' 4 5)) : Except DecodeError Instr) = _
  simp only [fEa_packE, fEb_packE, fEc_packE, fMode_packE, part0_of_1_5, part1_of_1_5, part0_of_2_1_1_2, part1_of_2_1_1_2, part2_of_2_1_1_2, part3_of_2_1_1_2, part0_of_2_3, part1_of_2_3, part0_of_2_4, part1_of_2_4, part0_of_3_1_2, part1_of_3_1_2, part2_of_3_1_2, part0_of_3_2_3_1, part1_of_3_2_3_1, part2_of_3_2_3_1, part3_of_3_2_3_1, part0_of_3_2_4, part1_of_3_2_4, part2_of_3_2_4, part0_of_3_3_2_1, part1_of_3_3_2_1, part2_of_3_3_2_1, part3_of_3_3_2_1, part0_of_3_3_3, part1_of_3_3_3, part2_of_3_3_3, part0_of_3_5_1, part1_of_3_5_1, part2_of_3_5_1, part0_of_3_6, part1_of_3_6, part0_of_4_2, part1_of_4_2, part0_of_5_1, part1_of_5_1, part0_of_5_2_2, part1_of_5_2_2, part2_of_5_2_2, part0_of_5_3_1, part1_of_5_3_1, part2_of_5_3_1, part0_of_5_4, part1_of_5_4, part0_of_6_2_1, part1_of_6_2_1, part2_of_6_2_1, part0_of_6_6, part1_of_6_6, part0_of_8_1, part1_of_8_1, need, beq_self_eq_true, Bool.and_self, if_true]
theorem oabs : ∀ x0 x1, Statement (.oabs x0 x1) := by
  intro x0 x1
  refine ⟨nofun, fun _ => (eop_0b ..).trans ?_, nofun⟩
  unfold decodeEOnline
  rw [fEop_packE]
  change (need ((fEb (packE 11#8 x0 0x0#5 0x0#5 (x1 ++ 0x0#4))) == 0x0#5 && (fEc (packE 11#8 x0 0x0#5 0x0#5 (x1 ++ 0x0#4))) == 0x0#5 && ((fMode (packE 11#8 x0 0x0#5 0x0#5 (x1 ++ 0x0#4))).extractLsb' 0 4) == 0x0#4) (.oabs (fEa (packE 11#8 x0 0x0#5 0x0#5 (x1 ++ 0x0#4))) ((fMode (packE 11#8 x0 0x0#5 0x0#5 (x1 ++ 0x0#4))).extractLsb' 4 5)) : Except DecodeError Instr) = _
  simp only [fEa_packE, fEb_packE, fEc_packE, fMode_packE, part0_of_1_5, part1_of_1_5, part0_of_2_1_1_2, part1_of_2_1_1_2, part2_of_2_1_1_2, part3_of_2_1_1_2, part0_of_2_3, part1_of_2_3, part0_of_2_4, part1_of_2_4, part0_of_3_1_2, part1_of_3_1_2, part2_of_3_1_2, part0_of_3_2_3_1, part1_of_3_2_3_1, part2_of_3_2_3_1, part3_of_3_2_3_1, part0_of_3_2_4, part1_of_3_2_4, part2_of_3_2_4, part0_of_3_3_2_1, part1_of_3_3_2_1, part2_of_3_3_2_1, part3_of_3_3_2_1, part0_of_3_3_3, part1_of_3_3_3, part2_of_3_3_3, part0_of_3_5_1, part1_of_3_5_1, part2_of_3_5_1, part0_of_3_6, part1_of_3_6, part0_of_4_2, part1_of_4_2, part0_of_5_1, part1_of_5_1, part0_of_5_2_2, part1_of_5_2_2, part2_of_5_2_2, part0_of_5_3_1, part1_of_5_3_1, part2_of_5_3_1, part0_of_5_4, part1_of_5_4, part0_of_6_2_1, part1_of_6_2_1, part2_of_6_2_1, part0_of_6_6, part1_of_6_6, part0_of_8_1, part1_of_8_1, need, beq_self_eq_true, Bool.and_self, if_true]
theorem ocmp : ∀ x0 x1 x2 x3, Statement (.ocmp x0 x1 x2 x3) := by
  intro x0 x1 x2 x3
  refine ⟨nofun, fun _ => (eop_0c ..).trans ?_, nofun⟩
  unfold decodeEOnline
  rw [fEop_packE]
  change (need ((fEc (packE 12#8 x0 x1 0x0#5 (x2 ++ 0x0#3 ++ x3))) == 0x0#5 && ((fMode (packE 12#8 x0 x1 0x0#5 (x2 ++ 0x0#3 ++ x3))).extractLsb' 1 3) == 0x0#3) (.ocmp (fEa (packE 12#8 x0 x1 0x0#5 (x2 ++ 0x0#3 ++ x3))) (fEb (packE 12#8 x0 x1 0x0#5 (x2 ++ 0x0#3 ++ x3))) ((fMode (packE 12#8 x0 x1 0x0#5 (x2 ++ 0x0#3 ++ x3))).extractLsb' 4 5) ((fMode (packE 12#8 x0 x1 0x0#5 (x2 ++ 0x0#3 ++ x3))).extractLsb' 0 1)) : Except DecodeError Instr) = _
  simp only [fEa_packE, fEb_packE, fEc_packE, fMode_packE, part0_of_1_5, part1_of_1_5, part0_of_2_1_1_2, part1_of_2_1_1_2, part2_of_2_1_1_2, part3_of_2_1_1_2, part0_of_2_3, part1_of_2_3, part0_of_2_4, part1_of_2_4, part0_of_3_1_2, part1_of_3_1_2, part2_of_3_1_2, part0_of_3_2_3_1, part1_of_3_2_3_1, part2_of_3_2_3_1, part3_of_3_2_3_1, part0_of_3_2_4, part1_of_3_2_4, part2_of_3_2_4, part0_of_3_3_2_1, part1_of_3_3_2_1, part2_of_3_3_2_1, part3_of_3_3_2_1, part0_of_3_3_3, part1_of_3_3_3, part2_of_3_3_3, part0_of_3_5_1, part1_of_3_5_1, part2_of_3_5_1, part0_of_3_6, part1_of_3_6, part0_of_4_2, part1_of_4_2, part0_of_5_1, part1_of_5_1, part0_of_5_2_2, part1_of_5_2_2, part2_of_5_2_2, part0_of_5_3_1, part1_of_5_3_1, part2_of_5_3_1, part0_of_5_4, part1_of_5_4, part0_of_6_2_1, part1_of_6_2_1, part2_of_6_2_1, part0_of_6_6, part1_of_6_6, part0_of_8_1, part1_of_8_1, need, beq_self_eq_true, Bool.and_self, if_true]
theorem omax : ∀ x0 x1 x2 x3, Statement (.omax x0 x1 x2 x3) := by
  intro x0 x1 x2 x3
  refine ⟨nofun, fun _ => (eop_0d ..).trans ?_, nofun⟩
  unfold decodeEOnline
  rw [fEop_packE]
  change (need ((fEc (packE 13#8 x0 x1 0x0#5 (x2 ++ 0x0#3 ++ x3))) == 0x0#5 && ((fMode (packE 13#8 x0 x1 0x0#5 (x2 ++ 0x0#3 ++ x3))).extractLsb' 1 3) == 0x0#3) (.omax (fEa (packE 13#8 x0 x1 0x0#5 (x2 ++ 0x0#3 ++ x3))) (fEb (packE 13#8 x0 x1 0x0#5 (x2 ++ 0x0#3 ++ x3))) ((fMode (packE 13#8 x0 x1 0x0#5 (x2 ++ 0x0#3 ++ x3))).extractLsb' 4 5) ((fMode (packE 13#8 x0 x1 0x0#5 (x2 ++ 0x0#3 ++ x3))).extractLsb' 0 1)) : Except DecodeError Instr) = _
  simp only [fEa_packE, fEb_packE, fEc_packE, fMode_packE, part0_of_1_5, part1_of_1_5, part0_of_2_1_1_2, part1_of_2_1_1_2, part2_of_2_1_1_2, part3_of_2_1_1_2, part0_of_2_3, part1_of_2_3, part0_of_2_4, part1_of_2_4, part0_of_3_1_2, part1_of_3_1_2, part2_of_3_1_2, part0_of_3_2_3_1, part1_of_3_2_3_1, part2_of_3_2_3_1, part3_of_3_2_3_1, part0_of_3_2_4, part1_of_3_2_4, part2_of_3_2_4, part0_of_3_3_2_1, part1_of_3_3_2_1, part2_of_3_3_2_1, part3_of_3_3_2_1, part0_of_3_3_3, part1_of_3_3_3, part2_of_3_3_3, part0_of_3_5_1, part1_of_3_5_1, part2_of_3_5_1, part0_of_3_6, part1_of_3_6, part0_of_4_2, part1_of_4_2, part0_of_5_1, part1_of_5_1, part0_of_5_2_2, part1_of_5_2_2, part2_of_5_2_2, part0_of_5_3_1, part1_of_5_3_1, part2_of_5_3_1, part0_of_5_4, part1_of_5_4, part0_of_6_2_1, part1_of_6_2_1, part2_of_6_2_1, part0_of_6_6, part1_of_6_6, part0_of_8_1, part1_of_8_1, need, beq_self_eq_true, Bool.and_self, if_true]
theorem orelu : ∀ x0 x1 x2, Statement (.orelu x0 x1 x2) := by
  intro x0 x1 x2
  refine ⟨nofun, fun _ => (eop_0e ..).trans ?_, nofun⟩
  unfold decodeEOnline
  rw [fEop_packE]
  change (need ((fEb (packE 14#8 x0 0x0#5 0x0#5 (x1 ++ 0x0#3 ++ x2))) == 0x0#5 && (fEc (packE 14#8 x0 0x0#5 0x0#5 (x1 ++ 0x0#3 ++ x2))) == 0x0#5 && ((fMode (packE 14#8 x0 0x0#5 0x0#5 (x1 ++ 0x0#3 ++ x2))).extractLsb' 1 3) == 0x0#3) (.orelu (fEa (packE 14#8 x0 0x0#5 0x0#5 (x1 ++ 0x0#3 ++ x2))) ((fMode (packE 14#8 x0 0x0#5 0x0#5 (x1 ++ 0x0#3 ++ x2))).extractLsb' 4 5) ((fMode (packE 14#8 x0 0x0#5 0x0#5 (x1 ++ 0x0#3 ++ x2))).extractLsb' 0 1)) : Except DecodeError Instr) = _
  simp only [fEa_packE, fEb_packE, fEc_packE, fMode_packE, part0_of_1_5, part1_of_1_5, part0_of_2_1_1_2, part1_of_2_1_1_2, part2_of_2_1_1_2, part3_of_2_1_1_2, part0_of_2_3, part1_of_2_3, part0_of_2_4, part1_of_2_4, part0_of_3_1_2, part1_of_3_1_2, part2_of_3_1_2, part0_of_3_2_3_1, part1_of_3_2_3_1, part2_of_3_2_3_1, part3_of_3_2_3_1, part0_of_3_2_4, part1_of_3_2_4, part2_of_3_2_4, part0_of_3_3_2_1, part1_of_3_3_2_1, part2_of_3_3_2_1, part3_of_3_3_2_1, part0_of_3_3_3, part1_of_3_3_3, part2_of_3_3_3, part0_of_3_5_1, part1_of_3_5_1, part2_of_3_5_1, part0_of_3_6, part1_of_3_6, part0_of_4_2, part1_of_4_2, part0_of_5_1, part1_of_5_1, part0_of_5_2_2, part1_of_5_2_2, part2_of_5_2_2, part0_of_5_3_1, part1_of_5_3_1, part2_of_5_3_1, part0_of_5_4, part1_of_5_4, part0_of_6_2_1, part1_of_6_2_1, part2_of_6_2_1, part0_of_6_6, part1_of_6_6, part0_of_8_1, part1_of_8_1, need, beq_self_eq_true, Bool.and_self, if_true]
theorem othr : ∀ x0 x1 x2, Statement (.othr x0 x1 x2) := by
  intro x0 x1 x2
  refine ⟨nofun, fun _ => (eop_0f ..).trans ?_, nofun⟩
  unfold decodeEOnline
  rw [fEop_packE]
  change (need ((fEb (packE 15#8 x0 0x0#5 0x0#5 (x1 ++ 0x0#3 ++ x2))) == 0x0#5 && (fEc (packE 15#8 x0 0x0#5 0x0#5 (x1 ++ 0x0#3 ++ x2))) == 0x0#5 && ((fMode (packE 15#8 x0 0x0#5 0x0#5 (x1 ++ 0x0#3 ++ x2))).extractLsb' 1 3) == 0x0#3) (.othr (fEa (packE 15#8 x0 0x0#5 0x0#5 (x1 ++ 0x0#3 ++ x2))) ((fMode (packE 15#8 x0 0x0#5 0x0#5 (x1 ++ 0x0#3 ++ x2))).extractLsb' 4 5) ((fMode (packE 15#8 x0 0x0#5 0x0#5 (x1 ++ 0x0#3 ++ x2))).extractLsb' 0 1)) : Except DecodeError Instr) = _
  simp only [fEa_packE, fEb_packE, fEc_packE, fMode_packE, part0_of_1_5, part1_of_1_5, part0_of_2_1_1_2, part1_of_2_1_1_2, part2_of_2_1_1_2, part3_of_2_1_1_2, part0_of_2_3, part1_of_2_3, part0_of_2_4, part1_of_2_4, part0_of_3_1_2, part1_of_3_1_2, part2_of_3_1_2, part0_of_3_2_3_1, part1_of_3_2_3_1, part2_of_3_2_3_1, part3_of_3_2_3_1, part0_of_3_2_4, part1_of_3_2_4, part2_of_3_2_4, part0_of_3_3_2_1, part1_of_3_3_2_1, part2_of_3_3_2_1, part3_of_3_3_2_1, part0_of_3_3_3, part1_of_3_3_3, part2_of_3_3_3, part0_of_3_5_1, part1_of_3_5_1, part2_of_3_5_1, part0_of_3_6, part1_of_3_6, part0_of_4_2, part1_of_4_2, part0_of_5_1, part1_of_5_1, part0_of_5_2_2, part1_of_5_2_2, part2_of_5_2_2, part0_of_5_3_1, part1_of_5_3_1, part2_of_5_3_1, part0_of_5_4, part1_of_5_4, part0_of_6_2_1, part1_of_6_2_1, part2_of_6_2_1, part0_of_6_6, part1_of_6_6, part0_of_8_1, part1_of_8_1, need, beq_self_eq_true, Bool.and_self, if_true]
theorem ow2d : ∀ x0 x1 x2, Statement (.ow2d x0 x1 x2) := by
  intro x0 x1 x2
  refine ⟨nofun, fun _ => (eop_10 ..).trans ?_, nofun⟩
  unfold decodeEOnline
  rw [fEop_packE]
  change (need ((fEb (packE 16#8 x0 0x0#5 0x0#5 (x1 ++ 0x0#2 ++ x2))) == 0x0#5 && (fEc (packE 16#8 x0 0x0#5 0x0#5 (x1 ++ 0x0#2 ++ x2))) == 0x0#5 && ((fMode (packE 16#8 x0 0x0#5 0x0#5 (x1 ++ 0x0#2 ++ x2))).extractLsb' 2 2) == 0x0#2) (.ow2d (fEa (packE 16#8 x0 0x0#5 0x0#5 (x1 ++ 0x0#2 ++ x2))) ((fMode (packE 16#8 x0 0x0#5 0x0#5 (x1 ++ 0x0#2 ++ x2))).extractLsb' 4 5) ((fMode (packE 16#8 x0 0x0#5 0x0#5 (x1 ++ 0x0#2 ++ x2))).extractLsb' 0 2)) : Except DecodeError Instr) = _
  simp only [fEa_packE, fEb_packE, fEc_packE, fMode_packE, part0_of_1_5, part1_of_1_5, part0_of_2_1_1_2, part1_of_2_1_1_2, part2_of_2_1_1_2, part3_of_2_1_1_2, part0_of_2_3, part1_of_2_3, part0_of_2_4, part1_of_2_4, part0_of_3_1_2, part1_of_3_1_2, part2_of_3_1_2, part0_of_3_2_3_1, part1_of_3_2_3_1, part2_of_3_2_3_1, part3_of_3_2_3_1, part0_of_3_2_4, part1_of_3_2_4, part2_of_3_2_4, part0_of_3_3_2_1, part1_of_3_3_2_1, part2_of_3_3_2_1, part3_of_3_3_2_1, part0_of_3_3_3, part1_of_3_3_3, part2_of_3_3_3, part0_of_3_5_1, part1_of_3_5_1, part2_of_3_5_1, part0_of_3_6, part1_of_3_6, part0_of_4_2, part1_of_4_2, part0_of_5_1, part1_of_5_1, part0_of_5_2_2, part1_of_5_2_2, part2_of_5_2_2, part0_of_5_3_1, part1_of_5_3_1, part2_of_5_3_1, part0_of_5_4, part1_of_5_4, part0_of_6_2_1, part1_of_6_2_1, part2_of_6_2_1, part0_of_6_6, part1_of_6_6, part0_of_8_1, part1_of_8_1, need, beq_self_eq_true, Bool.and_self, if_true]
theorem od2w : ∀ x0 x1 x2 x3, Statement (.od2w x0 x1 x2 x3) := by
  intro x0 x1 x2 x3
  refine ⟨nofun, fun _ => (eop_11 ..).trans ?_, nofun⟩
  unfold decodeEOnline
  rw [fEop_packE]
  change (need ((fEb (packE 17#8 x0 0x0#5 0x0#5 (x1 ++ x2 ++ x3))) == 0x0#5 && (fEc (packE 17#8 x0 0x0#5 0x0#5 (x1 ++ x2 ++ x3))) == 0x0#5) (.od2w (fEa (packE 17#8 x0 0x0#5 0x0#5 (x1 ++ x2 ++ x3))) ((fMode (packE 17#8 x0 0x0#5 0x0#5 (x1 ++ x2 ++ x3))).extractLsb' 4 5) ((fMode (packE 17#8 x0 0x0#5 0x0#5 (x1 ++ x2 ++ x3))).extractLsb' 2 2) ((fMode (packE 17#8 x0 0x0#5 0x0#5 (x1 ++ x2 ++ x3))).extractLsb' 0 2)) : Except DecodeError Instr) = _
  simp only [fEa_packE, fEb_packE, fEc_packE, fMode_packE, part0_of_1_5, part1_of_1_5, part0_of_2_1_1_2, part1_of_2_1_1_2, part2_of_2_1_1_2, part3_of_2_1_1_2, part0_of_2_3, part1_of_2_3, part0_of_2_4, part1_of_2_4, part0_of_3_1_2, part1_of_3_1_2, part2_of_3_1_2, part0_of_3_2_3_1, part1_of_3_2_3_1, part2_of_3_2_3_1, part3_of_3_2_3_1, part0_of_3_2_4, part1_of_3_2_4, part2_of_3_2_4, part0_of_3_3_2_1, part1_of_3_3_2_1, part2_of_3_3_2_1, part3_of_3_3_2_1, part0_of_3_3_3, part1_of_3_3_3, part2_of_3_3_3, part0_of_3_5_1, part1_of_3_5_1, part2_of_3_5_1, part0_of_3_6, part1_of_3_6, part0_of_4_2, part1_of_4_2, part0_of_5_1, part1_of_5_1, part0_of_5_2_2, part1_of_5_2_2, part2_of_5_2_2, part0_of_5_3_1, part1_of_5_3_1, part2_of_5_3_1, part0_of_5_4, part1_of_5_4, part0_of_6_2_1, part1_of_6_2_1, part2_of_6_2_1, part0_of_6_6, part1_of_6_6, part0_of_8_1, part1_of_8_1, need, beq_self_eq_true, Bool.and_self, if_true]
theorem oacc : ∀ x0 x1, Statement (.oacc x0 x1) := by
  intro x0 x1
  refine ⟨nofun, fun _ => (eop_12 ..).trans ?_, nofun⟩
  unfold decodeEOnline
  rw [fEop_packE]
  change (need ((fEb (packE 18#8 x0 0x0#5 0x0#5 (x1 ++ 0x0#4))) == 0x0#5 && (fEc (packE 18#8 x0 0x0#5 0x0#5 (x1 ++ 0x0#4))) == 0x0#5 && ((fMode (packE 18#8 x0 0x0#5 0x0#5 (x1 ++ 0x0#4))).extractLsb' 0 4) == 0x0#4) (.oacc (fEa (packE 18#8 x0 0x0#5 0x0#5 (x1 ++ 0x0#4))) ((fMode (packE 18#8 x0 0x0#5 0x0#5 (x1 ++ 0x0#4))).extractLsb' 4 5)) : Except DecodeError Instr) = _
  simp only [fEa_packE, fEb_packE, fEc_packE, fMode_packE, part0_of_1_5, part1_of_1_5, part0_of_2_1_1_2, part1_of_2_1_1_2, part2_of_2_1_1_2, part3_of_2_1_1_2, part0_of_2_3, part1_of_2_3, part0_of_2_4, part1_of_2_4, part0_of_3_1_2, part1_of_3_1_2, part2_of_3_1_2, part0_of_3_2_3_1, part1_of_3_2_3_1, part2_of_3_2_3_1, part3_of_3_2_3_1, part0_of_3_2_4, part1_of_3_2_4, part2_of_3_2_4, part0_of_3_3_2_1, part1_of_3_3_2_1, part2_of_3_3_2_1, part3_of_3_3_2_1, part0_of_3_3_3, part1_of_3_3_3, part2_of_3_3_3, part0_of_3_5_1, part1_of_3_5_1, part2_of_3_5_1, part0_of_3_6, part1_of_3_6, part0_of_4_2, part1_of_4_2, part0_of_5_1, part1_of_5_1, part0_of_5_2_2, part1_of_5_2_2, part2_of_5_2_2, part0_of_5_3_1, part1_of_5_3_1, part2_of_5_3_1, part0_of_5_4, part1_of_5_4, part0_of_6_2_1, part1_of_6_2_1, part2_of_6_2_1, part0_of_6_6, part1_of_6_6, part0_of_8_1, part1_of_8_1, need, beq_self_eq_true, Bool.and_self, if_true]
theorem vadd : ∀ x0 x1 x2 x3 x4, Statement (.vadd x0 x1 x2 x3 x4) := by
  intro x0 x1 x2 x3 x4
  refine ⟨nofun, fun _ => (eop_20 ..).trans ?_, nofun⟩
  unfold decodeEVector
  rw [fEop_packE]
  change (need ((fEc (packE 32#8 x0 x1 0x0#5 (x2 ++ x3 ++ x4))) == 0x0#5) (.vadd (fEa (packE 32#8 x0 x1 0x0#5 (x2 ++ x3 ++ x4))) (fEb (packE 32#8 x0 x1 0x0#5 (x2 ++ x3 ++ x4))) ((fMode (packE 32#8 x0 x1 0x0#5 (x2 ++ x3 ++ x4))).extractLsb' 6 3) ((fMode (packE 32#8 x0 x1 0x0#5 (x2 ++ x3 ++ x4))).extractLsb' 4 2) ((fMode (packE 32#8 x0 x1 0x0#5 (x2 ++ x3 ++ x4))).extractLsb' 0 4)) : Except DecodeError Instr) = _
  simp only [fEa_packE, fEb_packE, fEc_packE, fMode_packE, part0_of_1_5, part1_of_1_5, part0_of_2_1_1_2, part1_of_2_1_1_2, part2_of_2_1_1_2, part3_of_2_1_1_2, part0_of_2_3, part1_of_2_3, part0_of_2_4, part1_of_2_4, part0_of_3_1_2, part1_of_3_1_2, part2_of_3_1_2, part0_of_3_2_3_1, part1_of_3_2_3_1, part2_of_3_2_3_1, part3_of_3_2_3_1, part0_of_3_2_4, part1_of_3_2_4, part2_of_3_2_4, part0_of_3_3_2_1, part1_of_3_3_2_1, part2_of_3_3_2_1, part3_of_3_3_2_1, part0_of_3_3_3, part1_of_3_3_3, part2_of_3_3_3, part0_of_3_5_1, part1_of_3_5_1, part2_of_3_5_1, part0_of_3_6, part1_of_3_6, part0_of_4_2, part1_of_4_2, part0_of_5_1, part1_of_5_1, part0_of_5_2_2, part1_of_5_2_2, part2_of_5_2_2, part0_of_5_3_1, part1_of_5_3_1, part2_of_5_3_1, part0_of_5_4, part1_of_5_4, part0_of_6_2_1, part1_of_6_2_1, part2_of_6_2_1, part0_of_6_6, part1_of_6_6, part0_of_8_1, part1_of_8_1, need, beq_self_eq_true, Bool.and_self, if_true]
theorem vsub : ∀ x0 x1 x2 x3 x4, Statement (.vsub x0 x1 x2 x3 x4) := by
  intro x0 x1 x2 x3 x4
  refine ⟨nofun, fun _ => (eop_21 ..).trans ?_, nofun⟩
  unfold decodeEVector
  rw [fEop_packE]
  change (need ((fEc (packE 33#8 x0 x1 0x0#5 (x2 ++ x3 ++ x4))) == 0x0#5) (.vsub (fEa (packE 33#8 x0 x1 0x0#5 (x2 ++ x3 ++ x4))) (fEb (packE 33#8 x0 x1 0x0#5 (x2 ++ x3 ++ x4))) ((fMode (packE 33#8 x0 x1 0x0#5 (x2 ++ x3 ++ x4))).extractLsb' 6 3) ((fMode (packE 33#8 x0 x1 0x0#5 (x2 ++ x3 ++ x4))).extractLsb' 4 2) ((fMode (packE 33#8 x0 x1 0x0#5 (x2 ++ x3 ++ x4))).extractLsb' 0 4)) : Except DecodeError Instr) = _
  simp only [fEa_packE, fEb_packE, fEc_packE, fMode_packE, part0_of_1_5, part1_of_1_5, part0_of_2_1_1_2, part1_of_2_1_1_2, part2_of_2_1_1_2, part3_of_2_1_1_2, part0_of_2_3, part1_of_2_3, part0_of_2_4, part1_of_2_4, part0_of_3_1_2, part1_of_3_1_2, part2_of_3_1_2, part0_of_3_2_3_1, part1_of_3_2_3_1, part2_of_3_2_3_1, part3_of_3_2_3_1, part0_of_3_2_4, part1_of_3_2_4, part2_of_3_2_4, part0_of_3_3_2_1, part1_of_3_3_2_1, part2_of_3_3_2_1, part3_of_3_3_2_1, part0_of_3_3_3, part1_of_3_3_3, part2_of_3_3_3, part0_of_3_5_1, part1_of_3_5_1, part2_of_3_5_1, part0_of_3_6, part1_of_3_6, part0_of_4_2, part1_of_4_2, part0_of_5_1, part1_of_5_1, part0_of_5_2_2, part1_of_5_2_2, part2_of_5_2_2, part0_of_5_3_1, part1_of_5_3_1, part2_of_5_3_1, part0_of_5_4, part1_of_5_4, part0_of_6_2_1, part1_of_6_2_1, part2_of_6_2_1, part0_of_6_6, part1_of_6_6, part0_of_8_1, part1_of_8_1, need, beq_self_eq_true, Bool.and_self, if_true]
theorem vmul : ∀ x0 x1 x2 x3 x4, Statement (.vmul x0 x1 x2 x3 x4) := by
  intro x0 x1 x2 x3 x4
  refine ⟨nofun, fun _ => (eop_22 ..).trans ?_, nofun⟩
  unfold decodeEVector
  rw [fEop_packE]
  change (need ((fEc (packE 34#8 x0 x1 0x0#5 (x2 ++ x3 ++ x4))) == 0x0#5) (.vmul (fEa (packE 34#8 x0 x1 0x0#5 (x2 ++ x3 ++ x4))) (fEb (packE 34#8 x0 x1 0x0#5 (x2 ++ x3 ++ x4))) ((fMode (packE 34#8 x0 x1 0x0#5 (x2 ++ x3 ++ x4))).extractLsb' 6 3) ((fMode (packE 34#8 x0 x1 0x0#5 (x2 ++ x3 ++ x4))).extractLsb' 4 2) ((fMode (packE 34#8 x0 x1 0x0#5 (x2 ++ x3 ++ x4))).extractLsb' 0 4)) : Except DecodeError Instr) = _
  simp only [fEa_packE, fEb_packE, fEc_packE, fMode_packE, part0_of_1_5, part1_of_1_5, part0_of_2_1_1_2, part1_of_2_1_1_2, part2_of_2_1_1_2, part3_of_2_1_1_2, part0_of_2_3, part1_of_2_3, part0_of_2_4, part1_of_2_4, part0_of_3_1_2, part1_of_3_1_2, part2_of_3_1_2, part0_of_3_2_3_1, part1_of_3_2_3_1, part2_of_3_2_3_1, part3_of_3_2_3_1, part0_of_3_2_4, part1_of_3_2_4, part2_of_3_2_4, part0_of_3_3_2_1, part1_of_3_3_2_1, part2_of_3_3_2_1, part3_of_3_3_2_1, part0_of_3_3_3, part1_of_3_3_3, part2_of_3_3_3, part0_of_3_5_1, part1_of_3_5_1, part2_of_3_5_1, part0_of_3_6, part1_of_3_6, part0_of_4_2, part1_of_4_2, part0_of_5_1, part1_of_5_1, part0_of_5_2_2, part1_of_5_2_2, part2_of_5_2_2, part0_of_5_3_1, part1_of_5_3_1, part2_of_5_3_1, part0_of_5_4, part1_of_5_4, part0_of_6_2_1, part1_of_6_2_1, part2_of_6_2_1, part0_of_6_6, part1_of_6_6, part0_of_8_1, part1_of_8_1, need, beq_self_eq_true, Bool.and_self, if_true]
theorem vfma : ∀ x0 x1 x2 x3 x4 x5, Statement (.vfma x0 x1 x2 x3 x4 x5) := by
  intro x0 x1 x2 x3 x4 x5
  refine ⟨nofun, fun _ => (eop_23 ..).trans ?_, nofun⟩
  unfold decodeEVector
  rw [fEop_packE]
  change (.ok (.vfma (fEa (packE 35#8 x0 x1 x2 (x3 ++ x4 ++ x5))) (fEb (packE 35#8 x0 x1 x2 (x3 ++ x4 ++ x5))) (fEc (packE 35#8 x0 x1 x2 (x3 ++ x4 ++ x5))) ((fMode (packE 35#8 x0 x1 x2 (x3 ++ x4 ++ x5))).extractLsb' 6 3) ((fMode (packE 35#8 x0 x1 x2 (x3 ++ x4 ++ x5))).extractLsb' 4 2) ((fMode (packE 35#8 x0 x1 x2 (x3 ++ x4 ++ x5))).extractLsb' 0 4)) : Except DecodeError Instr) = _
  simp only [fEa_packE, fEb_packE, fEc_packE, fMode_packE, part0_of_1_5, part1_of_1_5, part0_of_2_1_1_2, part1_of_2_1_1_2, part2_of_2_1_1_2, part3_of_2_1_1_2, part0_of_2_3, part1_of_2_3, part0_of_2_4, part1_of_2_4, part0_of_3_1_2, part1_of_3_1_2, part2_of_3_1_2, part0_of_3_2_3_1, part1_of_3_2_3_1, part2_of_3_2_3_1, part3_of_3_2_3_1, part0_of_3_2_4, part1_of_3_2_4, part2_of_3_2_4, part0_of_3_3_2_1, part1_of_3_3_2_1, part2_of_3_3_2_1, part3_of_3_3_2_1, part0_of_3_3_3, part1_of_3_3_3, part2_of_3_3_3, part0_of_3_5_1, part1_of_3_5_1, part2_of_3_5_1, part0_of_3_6, part1_of_3_6, part0_of_4_2, part1_of_4_2, part0_of_5_1, part1_of_5_1, part0_of_5_2_2, part1_of_5_2_2, part2_of_5_2_2, part0_of_5_3_1, part1_of_5_3_1, part2_of_5_3_1, part0_of_5_4, part1_of_5_4, part0_of_6_2_1, part1_of_6_2_1, part2_of_6_2_1, part0_of_6_6, part1_of_6_6, part0_of_8_1, part1_of_8_1]
theorem vdiv : ∀ x0 x1 x2 x3 x4, Statement (.vdiv x0 x1 x2 x3 x4) := by
  intro x0 x1 x2 x3 x4
  refine ⟨nofun, fun _ => (eop_24 ..).trans ?_, nofun⟩
  unfold decodeEVector
  rw [fEop_packE]
  change (need ((fEc (packE 36#8 x0 x1 0x0#5 (x2 ++ x3 ++ x4))) == 0x0#5) (.vdiv (fEa (packE 36#8 x0 x1 0x0#5 (x2 ++ x3 ++ x4))) (fEb (packE 36#8 x0 x1 0x0#5 (x2 ++ x3 ++ x4))) ((fMode (packE 36#8 x0 x1 0x0#5 (x2 ++ x3 ++ x4))).extractLsb' 6 3) ((fMode (packE 36#8 x0 x1 0x0#5 (x2 ++ x3 ++ x4))).extractLsb' 4 2) ((fMode (packE 36#8 x0 x1 0x0#5 (x2 ++ x3 ++ x4))).extractLsb' 0 4)) : Except DecodeError Instr) = _
  simp only [fEa_packE, fEb_packE, fEc_packE, fMode_packE, part0_of_1_5, part1_of_1_5, part0_of_2_1_1_2, part1_of_2_1_1_2, part2_of_2_1_1_2, part3_of_2_1_1_2, part0_of_2_3, part1_of_2_3, part0_of_2_4, part1_of_2_4, part0_of_3_1_2, part1_of_3_1_2, part2_of_3_1_2, part0_of_3_2_3_1, part1_of_3_2_3_1, part2_of_3_2_3_1, part3_of_3_2_3_1, part0_of_3_2_4, part1_of_3_2_4, part2_of_3_2_4, part0_of_3_3_2_1, part1_of_3_3_2_1, part2_of_3_3_2_1, part3_of_3_3_2_1, part0_of_3_3_3, part1_of_3_3_3, part2_of_3_3_3, part0_of_3_5_1, part1_of_3_5_1, part2_of_3_5_1, part0_of_3_6, part1_of_3_6, part0_of_4_2, part1_of_4_2, part0_of_5_1, part1_of_5_1, part0_of_5_2_2, part1_of_5_2_2, part2_of_5_2_2, part0_of_5_3_1, part1_of_5_3_1, part2_of_5_3_1, part0_of_5_4, part1_of_5_4, part0_of_6_2_1, part1_of_6_2_1, part2_of_6_2_1, part0_of_6_6, part1_of_6_6, part0_of_8_1, part1_of_8_1, need, beq_self_eq_true, Bool.and_self, if_true]
theorem vsqrt : ∀ x0 x1 x2 x3, Statement (.vsqrt x0 x1 x2 x3) := by
  intro x0 x1 x2 x3
  refine ⟨nofun, fun _ => (eop_25 ..).trans ?_, nofun⟩
  unfold decodeEVector
  rw [fEop_packE]
  change (need ((fEb (packE 37#8 x0 0x0#5 0x0#5 (x1 ++ x2 ++ x3))) == 0x0#5 && (fEc (packE 37#8 x0 0x0#5 0x0#5 (x1 ++ x2 ++ x3))) == 0x0#5) (.vsqrt (fEa (packE 37#8 x0 0x0#5 0x0#5 (x1 ++ x2 ++ x3))) ((fMode (packE 37#8 x0 0x0#5 0x0#5 (x1 ++ x2 ++ x3))).extractLsb' 6 3) ((fMode (packE 37#8 x0 0x0#5 0x0#5 (x1 ++ x2 ++ x3))).extractLsb' 4 2) ((fMode (packE 37#8 x0 0x0#5 0x0#5 (x1 ++ x2 ++ x3))).extractLsb' 0 4)) : Except DecodeError Instr) = _
  simp only [fEa_packE, fEb_packE, fEc_packE, fMode_packE, part0_of_1_5, part1_of_1_5, part0_of_2_1_1_2, part1_of_2_1_1_2, part2_of_2_1_1_2, part3_of_2_1_1_2, part0_of_2_3, part1_of_2_3, part0_of_2_4, part1_of_2_4, part0_of_3_1_2, part1_of_3_1_2, part2_of_3_1_2, part0_of_3_2_3_1, part1_of_3_2_3_1, part2_of_3_2_3_1, part3_of_3_2_3_1, part0_of_3_2_4, part1_of_3_2_4, part2_of_3_2_4, part0_of_3_3_2_1, part1_of_3_3_2_1, part2_of_3_3_2_1, part3_of_3_3_2_1, part0_of_3_3_3, part1_of_3_3_3, part2_of_3_3_3, part0_of_3_5_1, part1_of_3_5_1, part2_of_3_5_1, part0_of_3_6, part1_of_3_6, part0_of_4_2, part1_of_4_2, part0_of_5_1, part1_of_5_1, part0_of_5_2_2, part1_of_5_2_2, part2_of_5_2_2, part0_of_5_3_1, part1_of_5_3_1, part2_of_5_3_1, part0_of_5_4, part1_of_5_4, part0_of_6_2_1, part1_of_6_2_1, part2_of_6_2_1, part0_of_6_6, part1_of_6_6, part0_of_8_1, part1_of_8_1, need, beq_self_eq_true, Bool.and_self, if_true]
theorem vmin : ∀ x0 x1 x2 x3 x4, Statement (.vmin x0 x1 x2 x3 x4) := by
  intro x0 x1 x2 x3 x4
  refine ⟨nofun, fun _ => (eop_26 ..).trans ?_, nofun⟩
  unfold decodeEVector
  rw [fEop_packE]
  change (need ((fEc (packE 38#8 x0 x1 0x0#5 (x2 ++ x3 ++ x4))) == 0x0#5) (.vmin (fEa (packE 38#8 x0 x1 0x0#5 (x2 ++ x3 ++ x4))) (fEb (packE 38#8 x0 x1 0x0#5 (x2 ++ x3 ++ x4))) ((fMode (packE 38#8 x0 x1 0x0#5 (x2 ++ x3 ++ x4))).extractLsb' 6 3) ((fMode (packE 38#8 x0 x1 0x0#5 (x2 ++ x3 ++ x4))).extractLsb' 4 2) ((fMode (packE 38#8 x0 x1 0x0#5 (x2 ++ x3 ++ x4))).extractLsb' 0 4)) : Except DecodeError Instr) = _
  simp only [fEa_packE, fEb_packE, fEc_packE, fMode_packE, part0_of_1_5, part1_of_1_5, part0_of_2_1_1_2, part1_of_2_1_1_2, part2_of_2_1_1_2, part3_of_2_1_1_2, part0_of_2_3, part1_of_2_3, part0_of_2_4, part1_of_2_4, part0_of_3_1_2, part1_of_3_1_2, part2_of_3_1_2, part0_of_3_2_3_1, part1_of_3_2_3_1, part2_of_3_2_3_1, part3_of_3_2_3_1, part0_of_3_2_4, part1_of_3_2_4, part2_of_3_2_4, part0_of_3_3_2_1, part1_of_3_3_2_1, part2_of_3_3_2_1, part3_of_3_3_2_1, part0_of_3_3_3, part1_of_3_3_3, part2_of_3_3_3, part0_of_3_5_1, part1_of_3_5_1, part2_of_3_5_1, part0_of_3_6, part1_of_3_6, part0_of_4_2, part1_of_4_2, part0_of_5_1, part1_of_5_1, part0_of_5_2_2, part1_of_5_2_2, part2_of_5_2_2, part0_of_5_3_1, part1_of_5_3_1, part2_of_5_3_1, part0_of_5_4, part1_of_5_4, part0_of_6_2_1, part1_of_6_2_1, part2_of_6_2_1, part0_of_6_6, part1_of_6_6, part0_of_8_1, part1_of_8_1, need, beq_self_eq_true, Bool.and_self, if_true]
theorem vmax : ∀ x0 x1 x2 x3 x4, Statement (.vmax x0 x1 x2 x3 x4) := by
  intro x0 x1 x2 x3 x4
  refine ⟨nofun, fun _ => (eop_27 ..).trans ?_, nofun⟩
  unfold decodeEVector
  rw [fEop_packE]
  change (need ((fEc (packE 39#8 x0 x1 0x0#5 (x2 ++ x3 ++ x4))) == 0x0#5) (.vmax (fEa (packE 39#8 x0 x1 0x0#5 (x2 ++ x3 ++ x4))) (fEb (packE 39#8 x0 x1 0x0#5 (x2 ++ x3 ++ x4))) ((fMode (packE 39#8 x0 x1 0x0#5 (x2 ++ x3 ++ x4))).extractLsb' 6 3) ((fMode (packE 39#8 x0 x1 0x0#5 (x2 ++ x3 ++ x4))).extractLsb' 4 2) ((fMode (packE 39#8 x0 x1 0x0#5 (x2 ++ x3 ++ x4))).extractLsb' 0 4)) : Except DecodeError Instr) = _
  simp only [fEa_packE, fEb_packE, fEc_packE, fMode_packE, part0_of_1_5, part1_of_1_5, part0_of_2_1_1_2, part1_of_2_1_1_2, part2_of_2_1_1_2, part3_of_2_1_1_2, part0_of_2_3, part1_of_2_3, part0_of_2_4, part1_of_2_4, part0_of_3_1_2, part1_of_3_1_2, part2_of_3_1_2, part0_of_3_2_3_1, part1_of_3_2_3_1, part2_of_3_2_3_1, part3_of_3_2_3_1, part0_of_3_2_4, part1_of_3_2_4, part2_of_3_2_4, part0_of_3_3_2_1, part1_of_3_3_2_1, part2_of_3_3_2_1, part3_of_3_3_2_1, part0_of_3_3_3, part1_of_3_3_3, part2_of_3_3_3, part0_of_3_5_1, part1_of_3_5_1, part2_of_3_5_1, part0_of_3_6, part1_of_3_6, part0_of_4_2, part1_of_4_2, part0_of_5_1, part1_of_5_1, part0_of_5_2_2, part1_of_5_2_2, part2_of_5_2_2, part0_of_5_3_1, part1_of_5_3_1, part2_of_5_3_1, part0_of_5_4, part1_of_5_4, part0_of_6_2_1, part1_of_6_2_1, part2_of_6_2_1, part0_of_6_6, part1_of_6_6, part0_of_8_1, part1_of_8_1, need, beq_self_eq_true, Bool.and_self, if_true]
theorem vabs : ∀ x0 x1 x2 x3, Statement (.vabs x0 x1 x2 x3) := by
  intro x0 x1 x2 x3
  refine ⟨nofun, fun _ => (eop_28 ..).trans ?_, nofun⟩
  unfold decodeEVector
  rw [fEop_packE]
  change (need ((fEb (packE 40#8 x0 0x0#5 0x0#5 (x1 ++ x2 ++ x3))) == 0x0#5 && (fEc (packE 40#8 x0 0x0#5 0x0#5 (x1 ++ x2 ++ x3))) == 0x0#5) (.vabs (fEa (packE 40#8 x0 0x0#5 0x0#5 (x1 ++ x2 ++ x3))) ((fMode (packE 40#8 x0 0x0#5 0x0#5 (x1 ++ x2 ++ x3))).extractLsb' 6 3) ((fMode (packE 40#8 x0 0x0#5 0x0#5 (x1 ++ x2 ++ x3))).extractLsb' 4 2) ((fMode (packE 40#8 x0 0x0#5 0x0#5 (x1 ++ x2 ++ x3))).extractLsb' 0 4)) : Except DecodeError Instr) = _
  simp only [fEa_packE, fEb_packE, fEc_packE, fMode_packE, part0_of_1_5, part1_of_1_5, part0_of_2_1_1_2, part1_of_2_1_1_2, part2_of_2_1_1_2, part3_of_2_1_1_2, part0_of_2_3, part1_of_2_3, part0_of_2_4, part1_of_2_4, part0_of_3_1_2, part1_of_3_1_2, part2_of_3_1_2, part0_of_3_2_3_1, part1_of_3_2_3_1, part2_of_3_2_3_1, part3_of_3_2_3_1, part0_of_3_2_4, part1_of_3_2_4, part2_of_3_2_4, part0_of_3_3_2_1, part1_of_3_3_2_1, part2_of_3_3_2_1, part3_of_3_3_2_1, part0_of_3_3_3, part1_of_3_3_3, part2_of_3_3_3, part0_of_3_5_1, part1_of_3_5_1, part2_of_3_5_1, part0_of_3_6, part1_of_3_6, part0_of_4_2, part1_of_4_2, part0_of_5_1, part1_of_5_1, part0_of_5_2_2, part1_of_5_2_2, part2_of_5_2_2, part0_of_5_3_1, part1_of_5_3_1, part2_of_5_3_1, part0_of_5_4, part1_of_5_4, part0_of_6_2_1, part1_of_6_2_1, part2_of_6_2_1, part0_of_6_6, part1_of_6_6, part0_of_8_1, part1_of_8_1, need, beq_self_eq_true, Bool.and_self, if_true]
theorem vneg : ∀ x0 x1 x2 x3, Statement (.vneg x0 x1 x2 x3) := by
  intro x0 x1 x2 x3
  refine ⟨nofun, fun _ => (eop_29 ..).trans ?_, nofun⟩
  unfold decodeEVector
  rw [fEop_packE]
  change (need ((fEb (packE 41#8 x0 0x0#5 0x0#5 (x1 ++ x2 ++ x3))) == 0x0#5 && (fEc (packE 41#8 x0 0x0#5 0x0#5 (x1 ++ x2 ++ x3))) == 0x0#5) (.vneg (fEa (packE 41#8 x0 0x0#5 0x0#5 (x1 ++ x2 ++ x3))) ((fMode (packE 41#8 x0 0x0#5 0x0#5 (x1 ++ x2 ++ x3))).extractLsb' 6 3) ((fMode (packE 41#8 x0 0x0#5 0x0#5 (x1 ++ x2 ++ x3))).extractLsb' 4 2) ((fMode (packE 41#8 x0 0x0#5 0x0#5 (x1 ++ x2 ++ x3))).extractLsb' 0 4)) : Except DecodeError Instr) = _
  simp only [fEa_packE, fEb_packE, fEc_packE, fMode_packE, part0_of_1_5, part1_of_1_5, part0_of_2_1_1_2, part1_of_2_1_1_2, part2_of_2_1_1_2, part3_of_2_1_1_2, part0_of_2_3, part1_of_2_3, part0_of_2_4, part1_of_2_4, part0_of_3_1_2, part1_of_3_1_2, part2_of_3_1_2, part0_of_3_2_3_1, part1_of_3_2_3_1, part2_of_3_2_3_1, part3_of_3_2_3_1, part0_of_3_2_4, part1_of_3_2_4, part2_of_3_2_4, part0_of_3_3_2_1, part1_of_3_3_2_1, part2_of_3_3_2_1, part3_of_3_3_2_1, part0_of_3_3_3, part1_of_3_3_3, part2_of_3_3_3, part0_of_3_5_1, part1_of_3_5_1, part2_of_3_5_1, part0_of_3_6, part1_of_3_6, part0_of_4_2, part1_of_4_2, part0_of_5_1, part1_of_5_1, part0_of_5_2_2, part1_of_5_2_2, part2_of_5_2_2, part0_of_5_3_1, part1_of_5_3_1, part2_of_5_3_1, part0_of_5_4, part1_of_5_4, part0_of_6_2_1, part1_of_6_2_1, part2_of_6_2_1, part0_of_6_6, part1_of_6_6, part0_of_8_1, part1_of_8_1, need, beq_self_eq_true, Bool.and_self, if_true]
theorem vcmp : ∀ x0 x1 x2 x3 x4, Statement (.vcmp x0 x1 x2 x3 x4) := by
  intro x0 x1 x2 x3 x4
  refine ⟨nofun, fun _ => (eop_2a ..).trans ?_, nofun⟩
  unfold decodeEVector
  rw [fEop_packE]
  change (need ((fEc (packE 42#8 x0 x1 0x0#5 (x2 ++ x3 ++ x4))) == 0x0#5) (.vcmp (fEa (packE 42#8 x0 x1 0x0#5 (x2 ++ x3 ++ x4))) (fEb (packE 42#8 x0 x1 0x0#5 (x2 ++ x3 ++ x4))) ((fMode (packE 42#8 x0 x1 0x0#5 (x2 ++ x3 ++ x4))).extractLsb' 6 3) ((fMode (packE 42#8 x0 x1 0x0#5 (x2 ++ x3 ++ x4))).extractLsb' 4 2) ((fMode (packE 42#8 x0 x1 0x0#5 (x2 ++ x3 ++ x4))).extractLsb' 0 4)) : Except DecodeError Instr) = _
  simp only [fEa_packE, fEb_packE, fEc_packE, fMode_packE, part0_of_1_5, part1_of_1_5, part0_of_2_1_1_2, part1_of_2_1_1_2, part2_of_2_1_1_2, part3_of_2_1_1_2, part0_of_2_3, part1_of_2_3, part0_of_2_4, part1_of_2_4, part0_of_3_1_2, part1_of_3_1_2, part2_of_3_1_2, part0_of_3_2_3_1, part1_of_3_2_3_1, part2_of_3_2_3_1, part3_of_3_2_3_1, part0_of_3_2_4, part1_of_3_2_4, part2_of_3_2_4, part0_of_3_3_2_1, part1_of_3_3_2_1, part2_of_3_3_2_1, part3_of_3_3_2_1, part0_of_3_3_3, part1_of_3_3_3, part2_of_3_3_3, part0_of_3_5_1, part1_of_3_5_1, part2_of_3_5_1, part0_of_3_6, part1_of_3_6, part0_of_4_2, part1_of_4_2, part0_of_5_1, part1_of_5_1, part0_of_5_2_2, part1_of_5_2_2, part2_of_5_2_2, part0_of_5_3_1, part1_of_5_3_1, part2_of_5_3_1, part0_of_5_4, part1_of_5_4, part0_of_6_2_1, part1_of_6_2_1, part2_of_6_2_1, part0_of_6_6, part1_of_6_6, part0_of_8_1, part1_of_8_1, need, beq_self_eq_true, Bool.and_self, if_true]
theorem vsel : ∀ x0 x1 x2 x3 x4 x5, Statement (.vsel x0 x1 x2 x3 x4 x5) := by
  intro x0 x1 x2 x3 x4 x5
  refine ⟨nofun, fun _ => (eop_2b ..).trans ?_, nofun⟩
  unfold decodeEVector
  rw [fEop_packE]
  change (.ok (.vsel (fEa (packE 43#8 x0 x1 x2 (x3 ++ x4 ++ x5))) (fEb (packE 43#8 x0 x1 x2 (x3 ++ x4 ++ x5))) (fEc (packE 43#8 x0 x1 x2 (x3 ++ x4 ++ x5))) ((fMode (packE 43#8 x0 x1 x2 (x3 ++ x4 ++ x5))).extractLsb' 6 3) ((fMode (packE 43#8 x0 x1 x2 (x3 ++ x4 ++ x5))).extractLsb' 4 2) ((fMode (packE 43#8 x0 x1 x2 (x3 ++ x4 ++ x5))).extractLsb' 0 4)) : Except DecodeError Instr) = _
  simp only [fEa_packE, fEb_packE, fEc_packE, fMode_packE, part0_of_1_5, part1_of_1_5, part0_of_2_1_1_2, part1_of_2_1_1_2, part2_of_2_1_1_2, part3_of_2_1_1_2, part0_of_2_3, part1_of_2_3, part0_of_2_4, part1_of_2_4, part0_of_3_1_2, part1_of_3_1_2, part2_of_3_1_2, part0_of_3_2_3_1, part1_of_3_2_3_1, part2_of_3_2_3_1, part3_of_3_2_3_1, part0_of_3_2_4, part1_of_3_2_4, part2_of_3_2_4, part0_of_3_3_2_1, part1_of_3_3_2_1, part2_of_3_3_2_1, part3_of_3_3_2_1, part0_of_3_3_3, part1_of_3_3_3, part2_of_3_3_3, part0_of_3_5_1, part1_of_3_5_1, part2_of_3_5_1, part0_of_3_6, part1_of_3_6, part0_of_4_2, part1_of_4_2, part0_of_5_1, part1_of_5_1, part0_of_5_2_2, part1_of_5_2_2, part2_of_5_2_2, part0_of_5_3_1, part1_of_5_3_1, part2_of_5_3_1, part0_of_5_4, part1_of_5_4, part0_of_6_2_1, part1_of_6_2_1, part2_of_6_2_1, part0_of_6_6, part1_of_6_6, part0_of_8_1, part1_of_8_1]
theorem vcvt : ∀ x0 x1 x2 x3, Statement (.vcvt x0 x1 x2 x3) := by
  intro x0 x1 x2 x3
  refine ⟨nofun, fun _ => (eop_2c ..).trans ?_, nofun⟩
  unfold decodeEVector
  rw [fEop_packE]
  change (need ((fEb (packE 44#8 x0 0x0#5 0x0#5 (x1 ++ x2 ++ x3))) == 0x0#5 && (fEc (packE 44#8 x0 0x0#5 0x0#5 (x1 ++ x2 ++ x3))) == 0x0#5) (.vcvt (fEa (packE 44#8 x0 0x0#5 0x0#5 (x1 ++ x2 ++ x3))) ((fMode (packE 44#8 x0 0x0#5 0x0#5 (x1 ++ x2 ++ x3))).extractLsb' 6 3) ((fMode (packE 44#8 x0 0x0#5 0x0#5 (x1 ++ x2 ++ x3))).extractLsb' 4 2) ((fMode (packE 44#8 x0 0x0#5 0x0#5 (x1 ++ x2 ++ x3))).extractLsb' 0 4)) : Except DecodeError Instr) = _
  simp only [fEa_packE, fEb_packE, fEc_packE, fMode_packE, part0_of_1_5, part1_of_1_5, part0_of_2_1_1_2, part1_of_2_1_1_2, part2_of_2_1_1_2, part3_of_2_1_1_2, part0_of_2_3, part1_of_2_3, part0_of_2_4, part1_of_2_4, part0_of_3_1_2, part1_of_3_1_2, part2_of_3_1_2, part0_of_3_2_3_1, part1_of_3_2_3_1, part2_of_3_2_3_1, part3_of_3_2_3_1, part0_of_3_2_4, part1_of_3_2_4, part2_of_3_2_4, part0_of_3_3_2_1, part1_of_3_3_2_1, part2_of_3_3_2_1, part3_of_3_3_2_1, part0_of_3_3_3, part1_of_3_3_3, part2_of_3_3_3, part0_of_3_5_1, part1_of_3_5_1, part2_of_3_5_1, part0_of_3_6, part1_of_3_6, part0_of_4_2, part1_of_4_2, part0_of_5_1, part1_of_5_1, part0_of_5_2_2, part1_of_5_2_2, part2_of_5_2_2, part0_of_5_3_1, part1_of_5_3_1, part2_of_5_3_1, part0_of_5_4, part1_of_5_4, part0_of_6_2_1, part1_of_6_2_1, part2_of_6_2_1, part0_of_6_6, part1_of_6_6, part0_of_8_1, part1_of_8_1, need, beq_self_eq_true, Bool.and_self, if_true]
theorem vred : ∀ x0 x1 x2 x3, Statement (.vred x0 x1 x2 x3) := by
  intro x0 x1 x2 x3
  refine ⟨nofun, fun _ => (eop_2d ..).trans ?_, nofun⟩
  unfold decodeEVector
  rw [fEop_packE]
  change (need ((fEb (packE 45#8 x0 0x0#5 0x0#5 (x1 ++ x2 ++ x3))) == 0x0#5 && (fEc (packE 45#8 x0 0x0#5 0x0#5 (x1 ++ x2 ++ x3))) == 0x0#5) (.vred (fEa (packE 45#8 x0 0x0#5 0x0#5 (x1 ++ x2 ++ x3))) ((fMode (packE 45#8 x0 0x0#5 0x0#5 (x1 ++ x2 ++ x3))).extractLsb' 6 3) ((fMode (packE 45#8 x0 0x0#5 0x0#5 (x1 ++ x2 ++ x3))).extractLsb' 4 2) ((fMode (packE 45#8 x0 0x0#5 0x0#5 (x1 ++ x2 ++ x3))).extractLsb' 0 4)) : Except DecodeError Instr) = _
  simp only [fEa_packE, fEb_packE, fEc_packE, fMode_packE, part0_of_1_5, part1_of_1_5, part0_of_2_1_1_2, part1_of_2_1_1_2, part2_of_2_1_1_2, part3_of_2_1_1_2, part0_of_2_3, part1_of_2_3, part0_of_2_4, part1_of_2_4, part0_of_3_1_2, part1_of_3_1_2, part2_of_3_1_2, part0_of_3_2_3_1, part1_of_3_2_3_1, part2_of_3_2_3_1, part3_of_3_2_3_1, part0_of_3_2_4, part1_of_3_2_4, part2_of_3_2_4, part0_of_3_3_2_1, part1_of_3_3_2_1, part2_of_3_3_2_1, part3_of_3_3_2_1, part0_of_3_3_3, part1_of_3_3_3, part2_of_3_3_3, part0_of_3_5_1, part1_of_3_5_1, part2_of_3_5_1, part0_of_3_6, part1_of_3_6, part0_of_4_2, part1_of_4_2, part0_of_5_1, part1_of_5_1, part0_of_5_2_2, part1_of_5_2_2, part2_of_5_2_2, part0_of_5_3_1, part1_of_5_3_1, part2_of_5_3_1, part0_of_5_4, part1_of_5_4, part0_of_6_2_1, part1_of_6_2_1, part2_of_6_2_1, part0_of_6_6, part1_of_6_6, part0_of_8_1, part1_of_8_1, need, beq_self_eq_true, Bool.and_self, if_true]
theorem vand : ∀ x0 x1 x2 x3 x4, Statement (.vand x0 x1 x2 x3 x4) := by
  intro x0 x1 x2 x3 x4
  refine ⟨nofun, fun _ => (eop_2e ..).trans ?_, nofun⟩
  unfold decodeEVector
  rw [fEop_packE]
  change (need ((fEc (packE 46#8 x0 x1 0x0#5 (x2 ++ x3 ++ x4))) == 0x0#5) (.vand (fEa (packE 46#8 x0 x1 0x0#5 (x2 ++ x3 ++ x4))) (fEb (packE 46#8 x0 x1 0x0#5 (x2 ++ x3 ++ x4))) ((fMode (packE 46#8 x0 x1 0x0#5 (x2 ++ x3 ++ x4))).extractLsb' 6 3) ((fMode (packE 46#8 x0 x1 0x0#5 (x2 ++ x3 ++ x4))).extractLsb' 4 2) ((fMode (packE 46#8 x0 x1 0x0#5 (x2 ++ x3 ++ x4))).extractLsb' 0 4)) : Except DecodeError Instr) = _
  simp only [fEa_packE, fEb_packE, fEc_packE, fMode_packE, part0_of_1_5, part1_of_1_5, part0_of_2_1_1_2, part1_of_2_1_1_2, part2_of_2_1_1_2, part3_of_2_1_1_2, part0_of_2_3, part1_of_2_3, part0_of_2_4, part1_of_2_4, part0_of_3_1_2, part1_of_3_1_2, part2_of_3_1_2, part0_of_3_2_3_1, part1_of_3_2_3_1, part2_of_3_2_3_1, part3_of_3_2_3_1, part0_of_3_2_4, part1_of_3_2_4, part2_of_3_2_4, part0_of_3_3_2_1, part1_of_3_3_2_1, part2_of_3_3_2_1, part3_of_3_3_2_1, part0_of_3_3_3, part1_of_3_3_3, part2_of_3_3_3, part0_of_3_5_1, part1_of_3_5_1, part2_of_3_5_1, part0_of_3_6, part1_of_3_6, part0_of_4_2, part1_of_4_2, part0_of_5_1, part1_of_5_1, part0_of_5_2_2, part1_of_5_2_2, part2_of_5_2_2, part0_of_5_3_1, part1_of_5_3_1, part2_of_5_3_1, part0_of_5_4, part1_of_5_4, part0_of_6_2_1, part1_of_6_2_1, part2_of_6_2_1, part0_of_6_6, part1_of_6_6, part0_of_8_1, part1_of_8_1, need, beq_self_eq_true, Bool.and_self, if_true]
theorem vor : ∀ x0 x1 x2 x3 x4, Statement (.vor x0 x1 x2 x3 x4) := by
  intro x0 x1 x2 x3 x4
  refine ⟨nofun, fun _ => (eop_2f ..).trans ?_, nofun⟩
  unfold decodeEVector
  rw [fEop_packE]
  change (need ((fEc (packE 47#8 x0 x1 0x0#5 (x2 ++ x3 ++ x4))) == 0x0#5) (.vor (fEa (packE 47#8 x0 x1 0x0#5 (x2 ++ x3 ++ x4))) (fEb (packE 47#8 x0 x1 0x0#5 (x2 ++ x3 ++ x4))) ((fMode (packE 47#8 x0 x1 0x0#5 (x2 ++ x3 ++ x4))).extractLsb' 6 3) ((fMode (packE 47#8 x0 x1 0x0#5 (x2 ++ x3 ++ x4))).extractLsb' 4 2) ((fMode (packE 47#8 x0 x1 0x0#5 (x2 ++ x3 ++ x4))).extractLsb' 0 4)) : Except DecodeError Instr) = _
  simp only [fEa_packE, fEb_packE, fEc_packE, fMode_packE, part0_of_1_5, part1_of_1_5, part0_of_2_1_1_2, part1_of_2_1_1_2, part2_of_2_1_1_2, part3_of_2_1_1_2, part0_of_2_3, part1_of_2_3, part0_of_2_4, part1_of_2_4, part0_of_3_1_2, part1_of_3_1_2, part2_of_3_1_2, part0_of_3_2_3_1, part1_of_3_2_3_1, part2_of_3_2_3_1, part3_of_3_2_3_1, part0_of_3_2_4, part1_of_3_2_4, part2_of_3_2_4, part0_of_3_3_2_1, part1_of_3_3_2_1, part2_of_3_3_2_1, part3_of_3_3_2_1, part0_of_3_3_3, part1_of_3_3_3, part2_of_3_3_3, part0_of_3_5_1, part1_of_3_5_1, part2_of_3_5_1, part0_of_3_6, part1_of_3_6, part0_of_4_2, part1_of_4_2, part0_of_5_1, part1_of_5_1, part0_of_5_2_2, part1_of_5_2_2, part2_of_5_2_2, part0_of_5_3_1, part1_of_5_3_1, part2_of_5_3_1, part0_of_5_4, part1_of_5_4, part0_of_6_2_1, part1_of_6_2_1, part2_of_6_2_1, part0_of_6_6, part1_of_6_6, part0_of_8_1, part1_of_8_1, need, beq_self_eq_true, Bool.and_self, if_true]
theorem vxor : ∀ x0 x1 x2 x3 x4, Statement (.vxor x0 x1 x2 x3 x4) := by
  intro x0 x1 x2 x3 x4
  refine ⟨nofun, fun _ => (eop_30 ..).trans ?_, nofun⟩
  unfold decodeEVector
  rw [fEop_packE]
  change (need ((fEc (packE 48#8 x0 x1 0x0#5 (x2 ++ x3 ++ x4))) == 0x0#5) (.vxor (fEa (packE 48#8 x0 x1 0x0#5 (x2 ++ x3 ++ x4))) (fEb (packE 48#8 x0 x1 0x0#5 (x2 ++ x3 ++ x4))) ((fMode (packE 48#8 x0 x1 0x0#5 (x2 ++ x3 ++ x4))).extractLsb' 6 3) ((fMode (packE 48#8 x0 x1 0x0#5 (x2 ++ x3 ++ x4))).extractLsb' 4 2) ((fMode (packE 48#8 x0 x1 0x0#5 (x2 ++ x3 ++ x4))).extractLsb' 0 4)) : Except DecodeError Instr) = _
  simp only [fEa_packE, fEb_packE, fEc_packE, fMode_packE, part0_of_1_5, part1_of_1_5, part0_of_2_1_1_2, part1_of_2_1_1_2, part2_of_2_1_1_2, part3_of_2_1_1_2, part0_of_2_3, part1_of_2_3, part0_of_2_4, part1_of_2_4, part0_of_3_1_2, part1_of_3_1_2, part2_of_3_1_2, part0_of_3_2_3_1, part1_of_3_2_3_1, part2_of_3_2_3_1, part3_of_3_2_3_1, part0_of_3_2_4, part1_of_3_2_4, part2_of_3_2_4, part0_of_3_3_2_1, part1_of_3_3_2_1, part2_of_3_3_2_1, part3_of_3_3_2_1, part0_of_3_3_3, part1_of_3_3_3, part2_of_3_3_3, part0_of_3_5_1, part1_of_3_5_1, part2_of_3_5_1, part0_of_3_6, part1_of_3_6, part0_of_4_2, part1_of_4_2, part0_of_5_1, part1_of_5_1, part0_of_5_2_2, part1_of_5_2_2, part2_of_5_2_2, part0_of_5_3_1, part1_of_5_3_1, part2_of_5_3_1, part0_of_5_4, part1_of_5_4, part0_of_6_2_1, part1_of_6_2_1, part2_of_6_2_1, part0_of_6_6, part1_of_6_6, part0_of_8_1, part1_of_8_1, need, beq_self_eq_true, Bool.and_self, if_true]
theorem vshl : ∀ x0 x1 x2 x3 x4, Statement (.vshl x0 x1 x2 x3 x4) := by
  intro x0 x1 x2 x3 x4
  refine ⟨nofun, fun _ => (eop_31 ..).trans ?_, nofun⟩
  unfold decodeEVector
  rw [fEop_packE]
  change (need ((fEc (packE 49#8 x0 x1 0x0#5 (x2 ++ x3 ++ x4))) == 0x0#5) (.vshl (fEa (packE 49#8 x0 x1 0x0#5 (x2 ++ x3 ++ x4))) (fEb (packE 49#8 x0 x1 0x0#5 (x2 ++ x3 ++ x4))) ((fMode (packE 49#8 x0 x1 0x0#5 (x2 ++ x3 ++ x4))).extractLsb' 6 3) ((fMode (packE 49#8 x0 x1 0x0#5 (x2 ++ x3 ++ x4))).extractLsb' 4 2) ((fMode (packE 49#8 x0 x1 0x0#5 (x2 ++ x3 ++ x4))).extractLsb' 0 4)) : Except DecodeError Instr) = _
  simp only [fEa_packE, fEb_packE, fEc_packE, fMode_packE, part0_of_1_5, part1_of_1_5, part0_of_2_1_1_2, part1_of_2_1_1_2, part2_of_2_1_1_2, part3_of_2_1_1_2, part0_of_2_3, part1_of_2_3, part0_of_2_4, part1_of_2_4, part0_of_3_1_2, part1_of_3_1_2, part2_of_3_1_2, part0_of_3_2_3_1, part1_of_3_2_3_1, part2_of_3_2_3_1, part3_of_3_2_3_1, part0_of_3_2_4, part1_of_3_2_4, part2_of_3_2_4, part0_of_3_3_2_1, part1_of_3_3_2_1, part2_of_3_3_2_1, part3_of_3_3_2_1, part0_of_3_3_3, part1_of_3_3_3, part2_of_3_3_3, part0_of_3_5_1, part1_of_3_5_1, part2_of_3_5_1, part0_of_3_6, part1_of_3_6, part0_of_4_2, part1_of_4_2, part0_of_5_1, part1_of_5_1, part0_of_5_2_2, part1_of_5_2_2, part2_of_5_2_2, part0_of_5_3_1, part1_of_5_3_1, part2_of_5_3_1, part0_of_5_4, part1_of_5_4, part0_of_6_2_1, part1_of_6_2_1, part2_of_6_2_1, part0_of_6_6, part1_of_6_6, part0_of_8_1, part1_of_8_1, need, beq_self_eq_true, Bool.and_self, if_true]
theorem vshr : ∀ x0 x1 x2 x3 x4, Statement (.vshr x0 x1 x2 x3 x4) := by
  intro x0 x1 x2 x3 x4
  refine ⟨nofun, fun _ => (eop_32 ..).trans ?_, nofun⟩
  unfold decodeEVector
  rw [fEop_packE]
  change (need ((fEc (packE 50#8 x0 x1 0x0#5 (x2 ++ x3 ++ x4))) == 0x0#5) (.vshr (fEa (packE 50#8 x0 x1 0x0#5 (x2 ++ x3 ++ x4))) (fEb (packE 50#8 x0 x1 0x0#5 (x2 ++ x3 ++ x4))) ((fMode (packE 50#8 x0 x1 0x0#5 (x2 ++ x3 ++ x4))).extractLsb' 6 3) ((fMode (packE 50#8 x0 x1 0x0#5 (x2 ++ x3 ++ x4))).extractLsb' 4 2) ((fMode (packE 50#8 x0 x1 0x0#5 (x2 ++ x3 ++ x4))).extractLsb' 0 4)) : Except DecodeError Instr) = _
  simp only [fEa_packE, fEb_packE, fEc_packE, fMode_packE, part0_of_1_5, part1_of_1_5, part0_of_2_1_1_2, part1_of_2_1_1_2, part2_of_2_1_1_2, part3_of_2_1_1_2, part0_of_2_3, part1_of_2_3, part0_of_2_4, part1_of_2_4, part0_of_3_1_2, part1_of_3_1_2, part2_of_3_1_2, part0_of_3_2_3_1, part1_of_3_2_3_1, part2_of_3_2_3_1, part3_of_3_2_3_1, part0_of_3_2_4, part1_of_3_2_4, part2_of_3_2_4, part0_of_3_3_2_1, part1_of_3_3_2_1, part2_of_3_3_2_1, part3_of_3_3_2_1, part0_of_3_3_3, part1_of_3_3_3, part2_of_3_3_3, part0_of_3_5_1, part1_of_3_5_1, part2_of_3_5_1, part0_of_3_6, part1_of_3_6, part0_of_4_2, part1_of_4_2, part0_of_5_1, part1_of_5_1, part0_of_5_2_2, part1_of_5_2_2, part2_of_5_2_2, part0_of_5_3_1, part1_of_5_3_1, part2_of_5_3_1, part0_of_5_4, part1_of_5_4, part0_of_6_2_1, part1_of_6_2_1, part2_of_6_2_1, part0_of_6_6, part1_of_6_6, part0_of_8_1, part1_of_8_1, need, beq_self_eq_true, Bool.and_self, if_true]
theorem vmac : ∀ x0 x1 x2 x3 x4, Statement (.vmac x0 x1 x2 x3 x4) := by
  intro x0 x1 x2 x3 x4
  refine ⟨nofun, fun _ => (eop_33 ..).trans ?_, nofun⟩
  unfold decodeEVector
  rw [fEop_packE]
  change (need ((fEc (packE 51#8 x0 x1 0x0#5 (x2 ++ x3 ++ x4))) == 0x0#5) (.vmac (fEa (packE 51#8 x0 x1 0x0#5 (x2 ++ x3 ++ x4))) (fEb (packE 51#8 x0 x1 0x0#5 (x2 ++ x3 ++ x4))) ((fMode (packE 51#8 x0 x1 0x0#5 (x2 ++ x3 ++ x4))).extractLsb' 6 3) ((fMode (packE 51#8 x0 x1 0x0#5 (x2 ++ x3 ++ x4))).extractLsb' 4 2) ((fMode (packE 51#8 x0 x1 0x0#5 (x2 ++ x3 ++ x4))).extractLsb' 0 4)) : Except DecodeError Instr) = _
  simp only [fEa_packE, fEb_packE, fEc_packE, fMode_packE, part0_of_1_5, part1_of_1_5, part0_of_2_1_1_2, part1_of_2_1_1_2, part2_of_2_1_1_2, part3_of_2_1_1_2, part0_of_2_3, part1_of_2_3, part0_of_2_4, part1_of_2_4, part0_of_3_1_2, part1_of_3_1_2, part2_of_3_1_2, part0_of_3_2_3_1, part1_of_3_2_3_1, part2_of_3_2_3_1, part3_of_3_2_3_1, part0_of_3_2_4, part1_of_3_2_4, part2_of_3_2_4, part0_of_3_3_2_1, part1_of_3_3_2_1, part2_of_3_3_2_1, part3_of_3_3_2_1, part0_of_3_3_3, part1_of_3_3_3, part2_of_3_3_3, part0_of_3_5_1, part1_of_3_5_1, part2_of_3_5_1, part0_of_3_6, part1_of_3_6, part0_of_4_2, part1_of_4_2, part0_of_5_1, part1_of_5_1, part0_of_5_2_2, part1_of_5_2_2, part2_of_5_2_2, part0_of_5_3_1, part1_of_5_3_1, part2_of_5_3_1, part0_of_5_4, part1_of_5_4, part0_of_6_2_1, part1_of_6_2_1, part2_of_6_2_1, part0_of_6_6, part1_of_6_6, part0_of_8_1, part1_of_8_1, need, beq_self_eq_true, Bool.and_self, if_true]
theorem vperm : ∀ x0 x1 x2 x3 x4, Statement (.vperm x0 x1 x2 x3 x4) := by
  intro x0 x1 x2 x3 x4
  refine ⟨nofun, fun _ => (eop_34 ..).trans ?_, nofun⟩
  unfold decodeEVector
  rw [fEop_packE]
  change (need ((fEc (packE 52#8 x0 x1 0x0#5 (x2 ++ x3 ++ x4))) == 0x0#5) (.vperm (fEa (packE 52#8 x0 x1 0x0#5 (x2 ++ x3 ++ x4))) (fEb (packE 52#8 x0 x1 0x0#5 (x2 ++ x3 ++ x4))) ((fMode (packE 52#8 x0 x1 0x0#5 (x2 ++ x3 ++ x4))).extractLsb' 6 3) ((fMode (packE 52#8 x0 x1 0x0#5 (x2 ++ x3 ++ x4))).extractLsb' 4 2) ((fMode (packE 52#8 x0 x1 0x0#5 (x2 ++ x3 ++ x4))).extractLsb' 0 4)) : Except DecodeError Instr) = _
  simp only [fEa_packE, fEb_packE, fEc_packE, fMode_packE, part0_of_1_5, part1_of_1_5, part0_of_2_1_1_2, part1_of_2_1_1_2, part2_of_2_1_1_2, part3_of_2_1_1_2, part0_of_2_3, part1_of_2_3, part0_of_2_4, part1_of_2_4, part0_of_3_1_2, part1_of_3_1_2, part2_of_3_1_2, part0_of_3_2_3_1, part1_of_3_2_3_1, part2_of_3_2_3_1, part3_of_3_2_3_1, part0_of_3_2_4, part1_of_3_2_4, part2_of_3_2_4, part0_of_3_3_2_1, part1_of_3_3_2_1, part2_of_3_3_2_1, part3_of_3_3_2_1, part0_of_3_3_3, part1_of_3_3_3, part2_of_3_3_3, part0_of_3_5_1, part1_of_3_5_1, part2_of_3_5_1, part0_of_3_6, part1_of_3_6, part0_of_4_2, part1_of_4_2, part0_of_5_1, part1_of_5_1, part0_of_5_2_2, part1_of_5_2_2, part2_of_5_2_2, part0_of_5_3_1, part1_of_5_3_1, part2_of_5_3_1, part0_of_5_4, part1_of_5_4, part0_of_6_2_1, part1_of_6_2_1, part2_of_6_2_1, part0_of_6_6, part1_of_6_6, part0_of_8_1, part1_of_8_1, need, beq_self_eq_true, Bool.and_self, if_true]
theorem vsat : ∀ x0 x1 x2 x3, Statement (.vsat x0 x1 x2 x3) := by
  intro x0 x1 x2 x3
  refine ⟨nofun, fun _ => (eop_35 ..).trans ?_, nofun⟩
  unfold decodeEVector
  rw [fEop_packE]
  change (need ((fEb (packE 53#8 x0 0x0#5 0x0#5 (x1 ++ x2 ++ x3))) == 0x0#5 && (fEc (packE 53#8 x0 0x0#5 0x0#5 (x1 ++ x2 ++ x3))) == 0x0#5) (.vsat (fEa (packE 53#8 x0 0x0#5 0x0#5 (x1 ++ x2 ++ x3))) ((fMode (packE 53#8 x0 0x0#5 0x0#5 (x1 ++ x2 ++ x3))).extractLsb' 6 3) ((fMode (packE 53#8 x0 0x0#5 0x0#5 (x1 ++ x2 ++ x3))).extractLsb' 4 2) ((fMode (packE 53#8 x0 0x0#5 0x0#5 (x1 ++ x2 ++ x3))).extractLsb' 0 4)) : Except DecodeError Instr) = _
  simp only [fEa_packE, fEb_packE, fEc_packE, fMode_packE, part0_of_1_5, part1_of_1_5, part0_of_2_1_1_2, part1_of_2_1_1_2, part2_of_2_1_1_2, part3_of_2_1_1_2, part0_of_2_3, part1_of_2_3, part0_of_2_4, part1_of_2_4, part0_of_3_1_2, part1_of_3_1_2, part2_of_3_1_2, part0_of_3_2_3_1, part1_of_3_2_3_1, part2_of_3_2_3_1, part3_of_3_2_3_1, part0_of_3_2_4, part1_of_3_2_4, part2_of_3_2_4, part0_of_3_3_2_1, part1_of_3_3_2_1, part2_of_3_3_2_1, part3_of_3_3_2_1, part0_of_3_3_3, part1_of_3_3_3, part2_of_3_3_3, part0_of_3_5_1, part1_of_3_5_1, part2_of_3_5_1, part0_of_3_6, part1_of_3_6, part0_of_4_2, part1_of_4_2, part0_of_5_1, part1_of_5_1, part0_of_5_2_2, part1_of_5_2_2, part2_of_5_2_2, part0_of_5_3_1, part1_of_5_3_1, part2_of_5_3_1, part0_of_5_4, part1_of_5_4, part0_of_6_2_1, part1_of_6_2_1, part2_of_6_2_1, part0_of_6_6, part1_of_6_6, part0_of_8_1, part1_of_8_1, need, beq_self_eq_true, Bool.and_self, if_true]
theorem mma : ∀ x0 x1 x2 x3 x4, Statement (.mma x0 x1 x2 x3 x4) := by
  intro x0 x1 x2 x3 x4
  refine ⟨nofun, fun _ => (eop_40 ..).trans ?_, nofun⟩
  unfold decodeEMatrix
  rw [fEop_packE]
  change (need (((fMode (packE 64#8 x0 x1 x2 (x3 ++ 0x0#2 ++ x4))).extractLsb' 4 2) == 0x0#2) (.mma (fEa (packE 64#8 x0 x1 x2 (x3 ++ 0x0#2 ++ x4))) (fEb (packE 64#8 x0 x1 x2 (x3 ++ 0x0#2 ++ x4))) (fEc (packE 64#8 x0 x1 x2 (x3 ++ 0x0#2 ++ x4))) ((fMode (packE 64#8 x0 x1 x2 (x3 ++ 0x0#2 ++ x4))).extractLsb' 6 3) ((fMode (packE 64#8 x0 x1 x2 (x3 ++ 0x0#2 ++ x4))).extractLsb' 0 4)) : Except DecodeError Instr) = _
  simp only [fEa_packE, fEb_packE, fEc_packE, fMode_packE, part0_of_1_5, part1_of_1_5, part0_of_2_1_1_2, part1_of_2_1_1_2, part2_of_2_1_1_2, part3_of_2_1_1_2, part0_of_2_3, part1_of_2_3, part0_of_2_4, part1_of_2_4, part0_of_3_1_2, part1_of_3_1_2, part2_of_3_1_2, part0_of_3_2_3_1, part1_of_3_2_3_1, part2_of_3_2_3_1, part3_of_3_2_3_1, part0_of_3_2_4, part1_of_3_2_4, part2_of_3_2_4, part0_of_3_3_2_1, part1_of_3_3_2_1, part2_of_3_3_2_1, part3_of_3_3_2_1, part0_of_3_3_3, part1_of_3_3_3, part2_of_3_3_3, part0_of_3_5_1, part1_of_3_5_1, part2_of_3_5_1, part0_of_3_6, part1_of_3_6, part0_of_4_2, part1_of_4_2, part0_of_5_1, part1_of_5_1, part0_of_5_2_2, part1_of_5_2_2, part2_of_5_2_2, part0_of_5_3_1, part1_of_5_3_1, part2_of_5_3_1, part0_of_5_4, part1_of_5_4, part0_of_6_2_1, part1_of_6_2_1, part2_of_6_2_1, part0_of_6_6, part1_of_6_6, part0_of_8_1, part1_of_8_1, need, beq_self_eq_true, Bool.and_self, if_true]
theorem mmas : ∀ x0 x1 x2 x3 x4, Statement (.mmas x0 x1 x2 x3 x4) := by
  intro x0 x1 x2 x3 x4
  refine ⟨nofun, fun _ => (eop_41 ..).trans ?_, nofun⟩
  unfold decodeEMatrix
  rw [fEop_packE]
  change (need (((fMode (packE 65#8 x0 x1 x2 (x3 ++ 0x0#2 ++ x4))).extractLsb' 4 2) == 0x0#2) (.mmas (fEa (packE 65#8 x0 x1 x2 (x3 ++ 0x0#2 ++ x4))) (fEb (packE 65#8 x0 x1 x2 (x3 ++ 0x0#2 ++ x4))) (fEc (packE 65#8 x0 x1 x2 (x3 ++ 0x0#2 ++ x4))) ((fMode (packE 65#8 x0 x1 x2 (x3 ++ 0x0#2 ++ x4))).extractLsb' 6 3) ((fMode (packE 65#8 x0 x1 x2 (x3 ++ 0x0#2 ++ x4))).extractLsb' 0 4)) : Except DecodeError Instr) = _
  simp only [fEa_packE, fEb_packE, fEc_packE, fMode_packE, part0_of_1_5, part1_of_1_5, part0_of_2_1_1_2, part1_of_2_1_1_2, part2_of_2_1_1_2, part3_of_2_1_1_2, part0_of_2_3, part1_of_2_3, part0_of_2_4, part1_of_2_4, part0_of_3_1_2, part1_of_3_1_2, part2_of_3_1_2, part0_of_3_2_3_1, part1_of_3_2_3_1, part2_of_3_2_3_1, part3_of_3_2_3_1, part0_of_3_2_4, part1_of_3_2_4, part2_of_3_2_4, part0_of_3_3_2_1, part1_of_3_3_2_1, part2_of_3_3_2_1, part3_of_3_3_2_1, part0_of_3_3_3, part1_of_3_3_3, part2_of_3_3_3, part0_of_3_5_1, part1_of_3_5_1, part2_of_3_5_1, part0_of_3_6, part1_of_3_6, part0_of_4_2, part1_of_4_2, part0_of_5_1, part1_of_5_1, part0_of_5_2_2, part1_of_5_2_2, part2_of_5_2_2, part0_of_5_3_1, part1_of_5_3_1, part2_of_5_3_1, part0_of_5_4, part1_of_5_4, part0_of_6_2_1, part1_of_6_2_1, part2_of_6_2_1, part0_of_6_6, part1_of_6_6, part0_of_8_1, part1_of_8_1, need, beq_self_eq_true, Bool.and_self, if_true]
theorem mmac : ∀ x0 x1 x2, Statement (.mmac x0 x1 x2) := by
  intro x0 x1 x2
  refine ⟨nofun, fun _ => (eop_42 ..).trans ?_, nofun⟩
  unfold decodeEMatrix
  rw [fEop_packE]
  change (need ((fEa (packE 66#8 0x0#5 0x0#5 x0 (x1 ++ 0x0#2 ++ x2))) == 0x0#5 && (fEb (packE 66#8 0x0#5 0x0#5 x0 (x1 ++ 0x0#2 ++ x2))) == 0x0#5 && ((fMode (packE 66#8 0x0#5 0x0#5 x0 (x1 ++ 0x0#2 ++ x2))).extractLsb' 4 2) == 0x0#2) (.mmac (fEc (packE 66#8 0x0#5 0x0#5 x0 (x1 ++ 0x0#2 ++ x2))) ((fMode (packE 66#8 0x0#5 0x0#5 x0 (x1 ++ 0x0#2 ++ x2))).extractLsb' 6 3) ((fMode (packE 66#8 0x0#5 0x0#5 x0 (x1 ++ 0x0#2 ++ x2))).extractLsb' 0 4)) : Except DecodeError Instr) = _
  simp only [fEa_packE, fEb_packE, fEc_packE, fMode_packE, part0_of_1_5, part1_of_1_5, part0_of_2_1_1_2, part1_of_2_1_1_2, part2_of_2_1_1_2, part3_of_2_1_1_2, part0_of_2_3, part1_of_2_3, part0_of_2_4, part1_of_2_4, part0_of_3_1_2, part1_of_3_1_2, part2_of_3_1_2, part0_of_3_2_3_1, part1_of_3_2_3_1, part2_of_3_2_3_1, part3_of_3_2_3_1, part0_of_3_2_4, part1_of_3_2_4, part2_of_3_2_4, part0_of_3_3_2_1, part1_of_3_3_2_1, part2_of_3_3_2_1, part3_of_3_3_2_1, part0_of_3_3_3, part1_of_3_3_3, part2_of_3_3_3, part0_of_3_5_1, part1_of_3_5_1, part2_of_3_5_1, part0_of_3_6, part1_of_3_6, part0_of_4_2, part1_of_4_2, part0_of_5_1, part1_of_5_1, part0_of_5_2_2, part1_of_5_2_2, part2_of_5_2_2, part0_of_5_3_1, part1_of_5_3_1, part2_of_5_3_1, part0_of_5_4, part1_of_5_4, part0_of_6_2_1, part1_of_6_2_1, part2_of_6_2_1, part0_of_6_6, part1_of_6_6, part0_of_8_1, part1_of_8_1, need, beq_self_eq_true, Bool.and_self, if_true]
theorem mldb : ∀ x0 x1 x2, Statement (.mldb x0 x1 x2) := by
  intro x0 x1 x2
  refine ⟨nofun, fun _ => (eop_43 ..).trans ?_, nofun⟩
  unfold decodeEMatrix
  rw [fEop_packE]
  change (need ((fEb (packE 67#8 x0 0x0#5 0x0#5 (x1 ++ 0x0#2 ++ x2))) == 0x0#5 && (fEc (packE 67#8 x0 0x0#5 0x0#5 (x1 ++ 0x0#2 ++ x2))) == 0x0#5 && ((fMode (packE 67#8 x0 0x0#5 0x0#5 (x1 ++ 0x0#2 ++ x2))).extractLsb' 4 2) == 0x0#2) (.mldb (fEa (packE 67#8 x0 0x0#5 0x0#5 (x1 ++ 0x0#2 ++ x2))) ((fMode (packE 67#8 x0 0x0#5 0x0#5 (x1 ++ 0x0#2 ++ x2))).extractLsb' 6 3) ((fMode (packE 67#8 x0 0x0#5 0x0#5 (x1 ++ 0x0#2 ++ x2))).extractLsb' 0 4)) : Except DecodeError Instr) = _
  simp only [fEa_packE, fEb_packE, fEc_packE, fMode_packE, part0_of_1_5, part1_of_1_5, part0_of_2_1_1_2, part1_of_2_1_1_2, part2_of_2_1_1_2, part3_of_2_1_1_2, part0_of_2_3, part1_of_2_3, part0_of_2_4, part1_of_2_4, part0_of_3_1_2, part1_of_3_1_2, part2_of_3_1_2, part0_of_3_2_3_1, part1_of_3_2_3_1, part2_of_3_2_3_1, part3_of_3_2_3_1, part0_of_3_2_4, part1_of_3_2_4, part2_of_3_2_4, part0_of_3_3_2_1, part1_of_3_3_2_1, part2_of_3_3_2_1, part3_of_3_3_2_1, part0_of_3_3_3, part1_of_3_3_3, part2_of_3_3_3, part0_of_3_5_1, part1_of_3_5_1, part2_of_3_5_1, part0_of_3_6, part1_of_3_6, part0_of_4_2, part1_of_4_2, part0_of_5_1, part1_of_5_1, part0_of_5_2_2, part1_of_5_2_2, part2_of_5_2_2, part0_of_5_3_1, part1_of_5_3_1, part2_of_5_3_1, part0_of_5_4, part1_of_5_4, part0_of_6_2_1, part1_of_6_2_1, part2_of_6_2_1, part0_of_6_6, part1_of_6_6, part0_of_8_1, part1_of_8_1, need, beq_self_eq_true, Bool.and_self, if_true]
theorem mzero : ∀ x0 x1 x2, Statement (.mzero x0 x1 x2) := by
  intro x0 x1 x2
  refine ⟨nofun, fun _ => (eop_44 ..).trans ?_, nofun⟩
  unfold decodeEMatrix
  rw [fEop_packE]
  change (need ((fEb (packE 68#8 x0 0x0#5 0x0#5 (x1 ++ 0x0#2 ++ x2))) == 0x0#5 && (fEc (packE 68#8 x0 0x0#5 0x0#5 (x1 ++ 0x0#2 ++ x2))) == 0x0#5 && ((fMode (packE 68#8 x0 0x0#5 0x0#5 (x1 ++ 0x0#2 ++ x2))).extractLsb' 4 2) == 0x0#2) (.mzero (fEa (packE 68#8 x0 0x0#5 0x0#5 (x1 ++ 0x0#2 ++ x2))) ((fMode (packE 68#8 x0 0x0#5 0x0#5 (x1 ++ 0x0#2 ++ x2))).extractLsb' 6 3) ((fMode (packE 68#8 x0 0x0#5 0x0#5 (x1 ++ 0x0#2 ++ x2))).extractLsb' 0 4)) : Except DecodeError Instr) = _
  simp only [fEa_packE, fEb_packE, fEc_packE, fMode_packE, part0_of_1_5, part1_of_1_5, part0_of_2_1_1_2, part1_of_2_1_1_2, part2_of_2_1_1_2, part3_of_2_1_1_2, part0_of_2_3, part1_of_2_3, part0_of_2_4, part1_of_2_4, part0_of_3_1_2, part1_of_3_1_2, part2_of_3_1_2, part0_of_3_2_3_1, part1_of_3_2_3_1, part2_of_3_2_3_1, part3_of_3_2_3_1, part0_of_3_2_4, part1_of_3_2_4, part2_of_3_2_4, part0_of_3_3_2_1, part1_of_3_3_2_1, part2_of_3_3_2_1, part3_of_3_3_2_1, part0_of_3_3_3, part1_of_3_3_3, part2_of_3_3_3, part0_of_3_5_1, part1_of_3_5_1, part2_of_3_5_1, part0_of_3_6, part1_of_3_6, part0_of_4_2, part1_of_4_2, part0_of_5_1, part1_of_5_1, part0_of_5_2_2, part1_of_5_2_2, part2_of_5_2_2, part0_of_5_3_1, part1_of_5_3_1, part2_of_5_3_1, part0_of_5_4, part1_of_5_4, part0_of_6_2_1, part1_of_6_2_1, part2_of_6_2_1, part0_of_6_6, part1_of_6_6, part0_of_8_1, part1_of_8_1, need, beq_self_eq_true, Bool.and_self, if_true]
theorem mrd : ∀ x0 x1 x2 x3, Statement (.mrd x0 x1 x2 x3) := by
  intro x0 x1 x2 x3
  refine ⟨nofun, fun _ => (eop_45 ..).trans ?_, nofun⟩
  unfold decodeEMatrix
  rw [fEop_packE]
  change (need ((fEb (packE 69#8 x0 0x0#5 0x0#5 (x1 ++ x2 ++ x3))) == 0x0#5 && (fEc (packE 69#8 x0 0x0#5 0x0#5 (x1 ++ x2 ++ x3))) == 0x0#5) (.mrd (fEa (packE 69#8 x0 0x0#5 0x0#5 (x1 ++ x2 ++ x3))) ((fMode (packE 69#8 x0 0x0#5 0x0#5 (x1 ++ x2 ++ x3))).extractLsb' 6 3) ((fMode (packE 69#8 x0 0x0#5 0x0#5 (x1 ++ x2 ++ x3))).extractLsb' 4 2) ((fMode (packE 69#8 x0 0x0#5 0x0#5 (x1 ++ x2 ++ x3))).extractLsb' 0 4)) : Except DecodeError Instr) = _
  simp only [fEa_packE, fEb_packE, fEc_packE, fMode_packE, part0_of_1_5, part1_of_1_5, part0_of_2_1_1_2, part1_of_2_1_1_2, part2_of_2_1_1_2, part3_of_2_1_1_2, part0_of_2_3, part1_of_2_3, part0_of_2_4, part1_of_2_4, part0_of_3_1_2, part1_of_3_1_2, part2_of_3_1_2, part0_of_3_2_3_1, part1_of_3_2_3_1, part2_of_3_2_3_1, part3_of_3_2_3_1, part0_of_3_2_4, part1_of_3_2_4, part2_of_3_2_4, part0_of_3_3_2_1, part1_of_3_3_2_1, part2_of_3_3_2_1, part3_of_3_3_2_1, part0_of_3_3_3, part1_of_3_3_3, part2_of_3_3_3, part0_of_3_5_1, part1_of_3_5_1, part2_of_3_5_1, part0_of_3_6, part1_of_3_6, part0_of_4_2, part1_of_4_2, part0_of_5_1, part1_of_5_1, part0_of_5_2_2, part1_of_5_2_2, part2_of_5_2_2, part0_of_5_3_1, part1_of_5_3_1, part2_of_5_3_1, part0_of_5_4, part1_of_5_4, part0_of_6_2_1, part1_of_6_2_1, part2_of_6_2_1, part0_of_6_6, part1_of_6_6, part0_of_8_1, part1_of_8_1, need, beq_self_eq_true, Bool.and_self, if_true]
theorem mcx : ∀ x0 x1 x2, Statement (.mcx x0 x1 x2) := by
  intro x0 x1 x2
  refine ⟨nofun, fun _ => (eop_46 ..).trans ?_, nofun⟩
  unfold decodeEMatrix
  rw [fEop_packE]
  change (need ((fEb (packE 70#8 x0 0x0#5 0x0#5 (x1 ++ 0x0#2 ++ x2))) == 0x0#5 && (fEc (packE 70#8 x0 0x0#5 0x0#5 (x1 ++ 0x0#2 ++ x2))) == 0x0#5 && ((fMode (packE 70#8 x0 0x0#5 0x0#5 (x1 ++ 0x0#2 ++ x2))).extractLsb' 4 2) == 0x0#2) (.mcx (fEa (packE 70#8 x0 0x0#5 0x0#5 (x1 ++ 0x0#2 ++ x2))) ((fMode (packE 70#8 x0 0x0#5 0x0#5 (x1 ++ 0x0#2 ++ x2))).extractLsb' 6 3) ((fMode (packE 70#8 x0 0x0#5 0x0#5 (x1 ++ 0x0#2 ++ x2))).extractLsb' 0 4)) : Except DecodeError Instr) = _
  simp only [fEa_packE, fEb_packE, fEc_packE, fMode_packE, part0_of_1_5, part1_of_1_5, part0_of_2_1_1_2, part1_of_2_1_1_2, part2_of_2_1_1_2, part3_of_2_1_1_2, part0_of_2_3, part1_of_2_3, part0_of_2_4, part1_of_2_4, part0_of_3_1_2, part1_of_3_1_2, part2_of_3_1_2, part0_of_3_2_3_1, part1_of_3_2_3_1, part2_of_3_2_3_1, part3_of_3_2_3_1, part0_of_3_2_4, part1_of_3_2_4, part2_of_3_2_4, part0_of_3_3_2_1, part1_of_3_3_2_1, part2_of_3_3_2_1, part3_of_3_3_2_1, part0_of_3_3_3, part1_of_3_3_3, part2_of_3_3_3, part0_of_3_5_1, part1_of_3_5_1, part2_of_3_5_1, part0_of_3_6, part1_of_3_6, part0_of_4_2, part1_of_4_2, part0_of_5_1, part1_of_5_1, part0_of_5_2_2, part1_of_5_2_2, part2_of_5_2_2, part0_of_5_3_1, part1_of_5_3_1, part2_of_5_3_1, part0_of_5_4, part1_of_5_4, part0_of_6_2_1, part1_of_6_2_1, part2_of_6_2_1, part0_of_6_6, part1_of_6_6, part0_of_8_1, part1_of_8_1, need, beq_self_eq_true, Bool.and_self, if_true]
theorem mspm : ∀ x0 x1 x2 x3 x4, Statement (.mspm x0 x1 x2 x3 x4) := by
  intro x0 x1 x2 x3 x4
  refine ⟨nofun, fun _ => (eop_47 ..).trans ?_, nofun⟩
  unfold decodeEMatrix
  rw [fEop_packE]
  change (need (((fMode (packE 71#8 x0 x1 x2 (x3 ++ 0x0#2 ++ x4))).extractLsb' 4 2) == 0x0#2) (.mspm (fEa (packE 71#8 x0 x1 x2 (x3 ++ 0x0#2 ++ x4))) (fEb (packE 71#8 x0 x1 x2 (x3 ++ 0x0#2 ++ x4))) (fEc (packE 71#8 x0 x1 x2 (x3 ++ 0x0#2 ++ x4))) ((fMode (packE 71#8 x0 x1 x2 (x3 ++ 0x0#2 ++ x4))).extractLsb' 6 3) ((fMode (packE 71#8 x0 x1 x2 (x3 ++ 0x0#2 ++ x4))).extractLsb' 0 4)) : Except DecodeError Instr) = _
  simp only [fEa_packE, fEb_packE, fEc_packE, fMode_packE, part0_of_1_5, part1_of_1_5, part0_of_2_1_1_2, part1_of_2_1_1_2, part2_of_2_1_1_2, part3_of_2_1_1_2, part0_of_2_3, part1_of_2_3, part0_of_2_4, part1_of_2_4, part0_of_3_1_2, part1_of_3_1_2, part2_of_3_1_2, part0_of_3_2_3_1, part1_of_3_2_3_1, part2_of_3_2_3_1, part3_of_3_2_3_1, part0_of_3_2_4, part1_of_3_2_4, part2_of_3_2_4, part0_of_3_3_2_1, part1_of_3_3_2_1, part2_of_3_3_2_1, part3_of_3_3_2_1, part0_of_3_3_3, part1_of_3_3_3, part2_of_3_3_3, part0_of_3_5_1, part1_of_3_5_1, part2_of_3_5_1, part0_of_3_6, part1_of_3_6, part0_of_4_2, part1_of_4_2, part0_of_5_1, part1_of_5_1, part0_of_5_2_2, part1_of_5_2_2, part2_of_5_2_2, part0_of_5_3_1, part1_of_5_3_1, part2_of_5_3_1, part0_of_5_4, part1_of_5_4, part0_of_6_2_1, part1_of_6_2_1, part2_of_6_2_1, part0_of_6_6, part1_of_6_6, part0_of_8_1, part1_of_8_1, need, beq_self_eq_true, Bool.and_self, if_true]
theorem cvdn : ∀ x0 x1 x2, Statement (.cvdn x0 x1 x2) := by
  intro x0 x1 x2
  refine ⟨nofun, fun _ => (eop_50 ..).trans ?_, nofun⟩
  unfold decodeEMatrix
  rw [fEop_packE]
  change (need ((fEb (packE 80#8 x0 0x0#5 0x0#5 (x1 ++ 0x0#5 ++ x2))) == 0x0#5 && (fEc (packE 80#8 x0 0x0#5 0x0#5 (x1 ++ 0x0#5 ++ x2))) == 0x0#5 && ((fMode (packE 80#8 x0 0x0#5 0x0#5 (x1 ++ 0x0#5 ++ x2))).extractLsb' 1 5) == 0x0#5) (.cvdn (fEa (packE 80#8 x0 0x0#5 0x0#5 (x1 ++ 0x0#5 ++ x2))) ((fMode (packE 80#8 x0 0x0#5 0x0#5 (x1 ++ 0x0#5 ++ x2))).extractLsb' 6 3) ((fMode (packE 80#8 x0 0x0#5 0x0#5 (x1 ++ 0x0#5 ++ x2))).extractLsb' 0 1)) : Except DecodeError Instr) = _
  simp only [fEa_packE, fEb_packE, fEc_packE, fMode_packE, part0_of_1_5, part1_of_1_5, part0_of_2_1_1_2, part1_of_2_1_1_2, part2_of_2_1_1_2, part3_of_2_1_1_2, part0_of_2_3, part1_of_2_3, part0_of_2_4, part1_of_2_4, part0_of_3_1_2, part1_of_3_1_2, part2_of_3_1_2, part0_of_3_2_3_1, part1_of_3_2_3_1, part2_of_3_2_3_1, part3_of_3_2_3_1, part0_of_3_2_4, part1_of_3_2_4, part2_of_3_2_4, part0_of_3_3_2_1, part1_of_3_3_2_1, part2_of_3_3_2_1, part3_of_3_3_2_1, part0_of_3_3_3, part1_of_3_3_3, part2_of_3_3_3, part0_of_3_5_1, part1_of_3_5_1, part2_of_3_5_1, part0_of_3_6, part1_of_3_6, part0_of_4_2, part1_of_4_2, part0_of_5_1, part1_of_5_1, part0_of_5_2_2, part1_of_5_2_2, part2_of_5_2_2, part0_of_5_3_1, part1_of_5_3_1, part2_of_5_3_1, part0_of_5_4, part1_of_5_4, part0_of_6_2_1, part1_of_6_2_1, part2_of_6_2_1, part0_of_6_6, part1_of_6_6, part0_of_8_1, part1_of_8_1, need, beq_self_eq_true, Bool.and_self, if_true]
theorem cvup : ∀ x0 x1 x2, Statement (.cvup x0 x1 x2) := by
  intro x0 x1 x2
  refine ⟨nofun, fun _ => (eop_51 ..).trans ?_, nofun⟩
  unfold decodeEMatrix
  rw [fEop_packE]
  change (need ((fEb (packE 81#8 x0 0x0#5 0x0#5 (x1 ++ x2 ++ 0x0#4))) == 0x0#5 && (fEc (packE 81#8 x0 0x0#5 0x0#5 (x1 ++ x2 ++ 0x0#4))) == 0x0#5 && ((fMode (packE 81#8 x0 0x0#5 0x0#5 (x1 ++ x2 ++ 0x0#4))).extractLsb' 0 4) == 0x0#4) (.cvup (fEa (packE 81#8 x0 0x0#5 0x0#5 (x1 ++ x2 ++ 0x0#4))) ((fMode (packE 81#8 x0 0x0#5 0x0#5 (x1 ++ x2 ++ 0x0#4))).extractLsb' 6 3) ((fMode (packE 81#8 x0 0x0#5 0x0#5 (x1 ++ x2 ++ 0x0#4))).extractLsb' 4 2)) : Except DecodeError Instr) = _
  simp only [fEa_packE, fEb_packE, fEc_packE, fMode_packE, part0_of_1_5, part1_of_1_5, part0_of_2_1_1_2, part1_of_2_1_1_2, part2_of_2_1_1_2, part3_of_2_1_1_2, part0_of_2_3, part1_of_2_3, part0_of_2_4, part1_of_2_4, part0_of_3_1_2, part1_of_3_1_2, part2_of_3_1_2, part0_of_3_2_3_1, part1_of_3_2_3_1, part2_of_3_2_3_1, part3_of_3_2_3_1, part0_of_3_2_4, part1_of_3_2_4, part2_of_3_2_4, part0_of_3_3_2_1, part1_of_3_3_2_1, part2_of_3_3_2_1, part3_of_3_3_2_1, part0_of_3_3_3, part1_of_3_3_3, part2_of_3_3_3, part0_of_3_5_1, part1_of_3_5_1, part2_of_3_5_1, part0_of_3_6, part1_of_3_6, part0_of_4_2, part1_of_4_2, part0_of_5_1, part1_of_5_1, part0_of_5_2_2, part1_of_5_2_2, part2_of_5_2_2, part0_of_5_3_1, part1_of_5_3_1, part2_of_5_3_1, part0_of_5_4, part1_of_5_4, part0_of_6_2_1, part1_of_6_2_1, part2_of_6_2_1, part0_of_6_6, part1_of_6_6, part0_of_8_1, part1_of_8_1, need, beq_self_eq_true, Bool.and_self, if_true]
theorem sjoin : ∀ x0 x1 x2, Statement (.sjoin x0 x1 x2) := by
  intro x0 x1 x2
  refine ⟨nofun, fun _ => (eop_52 ..).trans ?_, nofun⟩
  unfold decodeEMatrix
  rw [fEop_packE]
  change (need ((fEc (packE 82#8 x0 x1 0x0#5 (x2 ++ 0x0#6))) == 0x0#5 && ((fMode (packE 82#8 x0 x1 0x0#5 (x2 ++ 0x0#6))).extractLsb' 0 6) == 0x0#6) (.sjoin (fEa (packE 82#8 x0 x1 0x0#5 (x2 ++ 0x0#6))) (fEb (packE 82#8 x0 x1 0x0#5 (x2 ++ 0x0#6))) ((fMode (packE 82#8 x0 x1 0x0#5 (x2 ++ 0x0#6))).extractLsb' 6 3)) : Except DecodeError Instr) = _
  simp only [fEa_packE, fEb_packE, fEc_packE, fMode_packE, part0_of_1_5, part1_of_1_5, part0_of_2_1_1_2, part1_of_2_1_1_2, part2_of_2_1_1_2, part3_of_2_1_1_2, part0_of_2_3, part1_of_2_3, part0_of_2_4, part1_of_2_4, part0_of_3_1_2, part1_of_3_1_2, part2_of_3_1_2, part0_of_3_2_3_1, part1_of_3_2_3_1, part2_of_3_2_3_1, part3_of_3_2_3_1, part0_of_3_2_4, part1_of_3_2_4, part2_of_3_2_4, part0_of_3_3_2_1, part1_of_3_3_2_1, part2_of_3_3_2_1, part3_of_3_3_2_1, part0_of_3_3_3, part1_of_3_3_3, part2_of_3_3_3, part0_of_3_5_1, part1_of_3_5_1, part2_of_3_5_1, part0_of_3_6, part1_of_3_6, part0_of_4_2, part1_of_4_2, part0_of_5_1, part1_of_5_1, part0_of_5_2_2, part1_of_5_2_2, part2_of_5_2_2, part0_of_5_3_1, part1_of_5_3_1, part2_of_5_3_1, part0_of_5_4, part1_of_5_4, part0_of_6_2_1, part1_of_6_2_1, part2_of_6_2_1, part0_of_6_6, part1_of_6_6, part0_of_8_1, part1_of_8_1, need, beq_self_eq_true, Bool.and_self, if_true]
theorem mld : ∀ x0 x1 x2 x3, Statement (.mld x0 x1 x2 x3) := by
  intro x0 x1 x2 x3
  refine ⟨nofun, fun _ => (eop_60 ..).trans ?_, nofun⟩
  unfold decodeEPort
  rw [fEop_packE]
  change (need ((fEb (packE 96#8 x0 0x0#5 0x0#5 (x1 ++ x2 ++ x3))) == 0x0#5 && (fEc (packE 96#8 x0 0x0#5 0x0#5 (x1 ++ x2 ++ x3))) == 0x0#5) (.mld (fEa (packE 96#8 x0 0x0#5 0x0#5 (x1 ++ x2 ++ x3))) ((fMode (packE 96#8 x0 0x0#5 0x0#5 (x1 ++ x2 ++ x3))).extractLsb' 6 3) ((fMode (packE 96#8 x0 0x0#5 0x0#5 (x1 ++ x2 ++ x3))).extractLsb' 3 3) ((fMode (packE 96#8 x0 0x0#5 0x0#5 (x1 ++ x2 ++ x3))).extractLsb' 0 3)) : Except DecodeError Instr) = _
  simp only [fEa_packE, fEb_packE, fEc_packE, fMode_packE, part0_of_1_5, part1_of_1_5, part0_of_2_1_1_2, part1_of_2_1_1_2, part2_of_2_1_1_2, part3_of_2_1_1_2, part0_of_2_3, part1_of_2_3, part0_of_2_4, part1_of_2_4, part0_of_3_1_2, part1_of_3_1_2, part2_of_3_1_2, part0_of_3_2_3_1, part1_of_3_2_3_1, part2_of_3_2_3_1, part3_of_3_2_3_1, part0_of_3_2_4, part1_of_3_2_4, part2_of_3_2_4, part0_of_3_3_2_1, part1_of_3_3_2_1, part2_of_3_3_2_1, part3_of_3_3_2_1, part0_of_3_3_3, part1_of_3_3_3, part2_of_3_3_3, part0_of_3_5_1, part1_of_3_5_1, part2_of_3_5_1, part0_of_3_6, part1_of_3_6, part0_of_4_2, part1_of_4_2, part0_of_5_1, part1_of_5_1, part0_of_5_2_2, part1_of_5_2_2, part2_of_5_2_2, part0_of_5_3_1, part1_of_5_3_1, part2_of_5_3_1, part0_of_5_4, part1_of_5_4, part0_of_6_2_1, part1_of_6_2_1, part2_of_6_2_1, part0_of_6_6, part1_of_6_6, part0_of_8_1, part1_of_8_1, need, beq_self_eq_true, Bool.and_self, if_true]
theorem mst : ∀ x0 x1 x2 x3 x4, Statement (.mst x0 x1 x2 x3 x4) := by
  intro x0 x1 x2 x3 x4
  refine ⟨nofun, fun _ => (eop_61 ..).trans ?_, nofun⟩
  unfold decodeEPort
  rw [fEop_packE]
  change (need ((fEc (packE 97#8 x0 x1 0x0#5 (x2 ++ x3 ++ x4))) == 0x0#5) (.mst (fEa (packE 97#8 x0 x1 0x0#5 (x2 ++ x3 ++ x4))) (fEb (packE 97#8 x0 x1 0x0#5 (x2 ++ x3 ++ x4))) ((fMode (packE 97#8 x0 x1 0x0#5 (x2 ++ x3 ++ x4))).extractLsb' 6 3) ((fMode (packE 97#8 x0 x1 0x0#5 (x2 ++ x3 ++ x4))).extractLsb' 3 3) ((fMode (packE 97#8 x0 x1 0x0#5 (x2 ++ x3 ++ x4))).extractLsb' 0 3)) : Except DecodeError Instr) = _
  simp only [fEa_packE, fEb_packE, fEc_packE, fMode_packE, part0_of_1_5, part1_of_1_5, part0_of_2_1_1_2, part1_of_2_1_1_2, part2_of_2_1_1_2, part3_of_2_1_1_2, part0_of_2_3, part1_of_2_3, part0_of_2_4, part1_of_2_4, part0_of_3_1_2, part1_of_3_1_2, part2_of_3_1_2, part0_of_3_2_3_1, part1_of_3_2_3_1, part2_of_3_2_3_1, part3_of_3_2_3_1, part0_of_3_2_4, part1_of_3_2_4, part2_of_3_2_4, part0_of_3_3_2_1, part1_of_3_3_2_1, part2_of_3_3_2_1, part3_of_3_3_2_1, part0_of_3_3_3, part1_of_3_3_3, part2_of_3_3_3, part0_of_3_5_1, part1_of_3_5_1, part2_of_3_5_1, part0_of_3_6, part1_of_3_6, part0_of_4_2, part1_of_4_2, part0_of_5_1, part1_of_5_1, part0_of_5_2_2, part1_of_5_2_2, part2_of_5_2_2, part0_of_5_3_1, part1_of_5_3_1, part2_of_5_3_1, part0_of_5_4, part1_of_5_4, part0_of_6_2_1, part1_of_6_2_1, part2_of_6_2_1, part0_of_6_6, part1_of_6_6, part0_of_8_1, part1_of_8_1, need, beq_self_eq_true, Bool.and_self, if_true]
theorem mldt : ∀ x0 x1, Statement (.mldt x0 x1) := by
  intro x0 x1
  refine ⟨nofun, fun _ => (eop_62 ..).trans ?_, nofun⟩
  unfold decodeEPort
  rw [fEop_packE]
  change (need ((fEb (packE 98#8 x0 0x0#5 0x0#5 (0x0#3 ++ x1 ++ 0x0#3))) == 0x0#5 && (fEc (packE 98#8 x0 0x0#5 0x0#5 (0x0#3 ++ x1 ++ 0x0#3))) == 0x0#5 && ((fMode (packE 98#8 x0 0x0#5 0x0#5 (0x0#3 ++ x1 ++ 0x0#3))).extractLsb' 6 3) == 0x0#3 && ((fMode (packE 98#8 x0 0x0#5 0x0#5 (0x0#3 ++ x1 ++ 0x0#3))).extractLsb' 0 3) == 0x0#3) (.mldt (fEa (packE 98#8 x0 0x0#5 0x0#5 (0x0#3 ++ x1 ++ 0x0#3))) ((fMode (packE 98#8 x0 0x0#5 0x0#5 (0x0#3 ++ x1 ++ 0x0#3))).extractLsb' 3 3)) : Except DecodeError Instr) = _
  simp only [fEa_packE, fEb_packE, fEc_packE, fMode_packE, part0_of_1_5, part1_of_1_5, part0_of_2_1_1_2, part1_of_2_1_1_2, part2_of_2_1_1_2, part3_of_2_1_1_2, part0_of_2_3, part1_of_2_3, part0_of_2_4, part1_of_2_4, part0_of_3_1_2, part1_of_3_1_2, part2_of_3_1_2, part0_of_3_2_3_1, part1_of_3_2_3_1, part2_of_3_2_3_1, part3_of_3_2_3_1, part0_of_3_2_4, part1_of_3_2_4, part2_of_3_2_4, part0_of_3_3_2_1, part1_of_3_3_2_1, part2_of_3_3_2_1, part3_of_3_3_2_1, part0_of_3_3_3, part1_of_3_3_3, part2_of_3_3_3, part0_of_3_5_1, part1_of_3_5_1, part2_of_3_5_1, part0_of_3_6, part1_of_3_6, part0_of_4_2, part1_of_4_2, part0_of_5_1, part1_of_5_1, part0_of_5_2_2, part1_of_5_2_2, part2_of_5_2_2, part0_of_5_3_1, part1_of_5_3_1, part2_of_5_3_1, part0_of_5_4, part1_of_5_4, part0_of_6_2_1, part1_of_6_2_1, part2_of_6_2_1, part0_of_6_6, part1_of_6_6, part0_of_8_1, part1_of_8_1, need, beq_self_eq_true, Bool.and_self, if_true]
theorem mstt : ∀ x0 x1 x2, Statement (.mstt x0 x1 x2) := by
  intro x0 x1 x2
  refine ⟨nofun, fun _ => (eop_63 ..).trans ?_, nofun⟩
  unfold decodeEPort
  rw [fEop_packE]
  change (need ((fEc (packE 99#8 x0 x1 0x0#5 (0x0#3 ++ x2 ++ 0x0#3))) == 0x0#5 && ((fMode (packE 99#8 x0 x1 0x0#5 (0x0#3 ++ x2 ++ 0x0#3))).extractLsb' 6 3) == 0x0#3 && ((fMode (packE 99#8 x0 x1 0x0#5 (0x0#3 ++ x2 ++ 0x0#3))).extractLsb' 0 3) == 0x0#3) (.mstt (fEa (packE 99#8 x0 x1 0x0#5 (0x0#3 ++ x2 ++ 0x0#3))) (fEb (packE 99#8 x0 x1 0x0#5 (0x0#3 ++ x2 ++ 0x0#3))) ((fMode (packE 99#8 x0 x1 0x0#5 (0x0#3 ++ x2 ++ 0x0#3))).extractLsb' 3 3)) : Except DecodeError Instr) = _
  simp only [fEa_packE, fEb_packE, fEc_packE, fMode_packE, part0_of_1_5, part1_of_1_5, part0_of_2_1_1_2, part1_of_2_1_1_2, part2_of_2_1_1_2, part3_of_2_1_1_2, part0_of_2_3, part1_of_2_3, part0_of_2_4, part1_of_2_4, part0_of_3_1_2, part1_of_3_1_2, part2_of_3_1_2, part0_of_3_2_3_1, part1_of_3_2_3_1, part2_of_3_2_3_1, part3_of_3_2_3_1, part0_of_3_2_4, part1_of_3_2_4, part2_of_3_2_4, part0_of_3_3_2_1, part1_of_3_3_2_1, part2_of_3_3_2_1, part3_of_3_3_2_1, part0_of_3_3_3, part1_of_3_3_3, part2_of_3_3_3, part0_of_3_5_1, part1_of_3_5_1, part2_of_3_5_1, part0_of_3_6, part1_of_3_6, part0_of_4_2, part1_of_4_2, part0_of_5_1, part1_of_5_1, part0_of_5_2_2, part1_of_5_2_2, part2_of_5_2_2, part0_of_5_3_1, part1_of_5_3_1, part2_of_5_3_1, part0_of_5_4, part1_of_5_4, part0_of_6_2_1, part1_of_6_2_1, part2_of_6_2_1, part0_of_6_6, part1_of_6_6, part0_of_8_1, part1_of_8_1, need, beq_self_eq_true, Bool.and_self, if_true]
theorem mamo : ∀ x0 x1 x2 x3 x4 x5, Statement (.mamo x0 x1 x2 x3 x4 x5) := by
  intro x0 x1 x2 x3 x4 x5
  refine ⟨nofun, fun _ => (eop_64 ..).trans ?_, nofun⟩
  unfold decodeEPort
  rw [fEop_packE]
  change (need (((fMode (packE 100#8 x0 x1 x2 (x3 ++ x4 ++ 0x0#2 ++ x5))).extractLsb' 1 2) == 0x0#2) (.mamo (fEa (packE 100#8 x0 x1 x2 (x3 ++ x4 ++ 0x0#2 ++ x5))) (fEb (packE 100#8 x0 x1 x2 (x3 ++ x4 ++ 0x0#2 ++ x5))) (fEc (packE 100#8 x0 x1 x2 (x3 ++ x4 ++ 0x0#2 ++ x5))) ((fMode (packE 100#8 x0 x1 x2 (x3 ++ x4 ++ 0x0#2 ++ x5))).extractLsb' 6 3) ((fMode (packE 100#8 x0 x1 x2 (x3 ++ x4 ++ 0x0#2 ++ x5))).extractLsb' 3 3) ((fMode (packE 100#8 x0 x1 x2 (x3 ++ x4 ++ 0x0#2 ++ x5))).extractLsb' 0 1)) : Except DecodeError Instr) = _
  simp only [fEa_packE, fEb_packE, fEc_packE, fMode_packE, part0_of_1_5, part1_of_1_5, part0_of_2_1_1_2, part1_of_2_1_1_2, part2_of_2_1_1_2, part3_of_2_1_1_2, part0_of_2_3, part1_of_2_3, part0_of_2_4, part1_of_2_4, part0_of_3_1_2, part1_of_3_1_2, part2_of_3_1_2, part0_of_3_2_3_1, part1_of_3_2_3_1, part2_of_3_2_3_1, part3_of_3_2_3_1, part0_of_3_2_4, part1_of_3_2_4, part2_of_3_2_4, part0_of_3_3_2_1, part1_of_3_3_2_1, part2_of_3_3_2_1, part3_of_3_3_2_1, part0_of_3_3_3, part1_of_3_3_3, part2_of_3_3_3, part0_of_3_5_1, part1_of_3_5_1, part2_of_3_5_1, part0_of_3_6, part1_of_3_6, part0_of_4_2, part1_of_4_2, part0_of_5_1, part1_of_5_1, part0_of_5_2_2, part1_of_5_2_2, part2_of_5_2_2, part0_of_5_3_1, part1_of_5_3_1, part2_of_5_3_1, part0_of_5_4, part1_of_5_4, part0_of_6_2_1, part1_of_6_2_1, part2_of_6_2_1, part0_of_6_6, part1_of_6_6, part0_of_8_1, part1_of_8_1, need, beq_self_eq_true, Bool.and_self, if_true]
theorem mldf : ∀ x0 x1 x2 x3, Statement (.mldf x0 x1 x2 x3) := by
  intro x0 x1 x2 x3
  refine ⟨nofun, fun _ => (eop_65 ..).trans ?_, nofun⟩
  unfold decodeEPort
  rw [fEop_packE]
  change (need ((fEb (packE 101#8 x0 0x0#5 0x0#5 (x1 ++ x2 ++ 0x0#2 ++ x3))) == 0x0#5 && (fEc (packE 101#8 x0 0x0#5 0x0#5 (x1 ++ x2 ++ 0x0#2 ++ x3))) == 0x0#5 && ((fMode (packE 101#8 x0 0x0#5 0x0#5 (x1 ++ x2 ++ 0x0#2 ++ x3))).extractLsb' 1 2) == 0x0#2) (.mldf (fEa (packE 101#8 x0 0x0#5 0x0#5 (x1 ++ x2 ++ 0x0#2 ++ x3))) ((fMode (packE 101#8 x0 0x0#5 0x0#5 (x1 ++ x2 ++ 0x0#2 ++ x3))).extractLsb' 6 3) ((fMode (packE 101#8 x0 0x0#5 0x0#5 (x1 ++ x2 ++ 0x0#2 ++ x3))).extractLsb' 3 3) ((fMode (packE 101#8 x0 0x0#5 0x0#5 (x1 ++ x2 ++ 0x0#2 ++ x3))).extractLsb' 0 1)) : Except DecodeError Instr) = _
  simp only [fEa_packE, fEb_packE, fEc_packE, fMode_packE, part0_of_1_5, part1_of_1_5, part0_of_2_1_1_2, part1_of_2_1_1_2, part2_of_2_1_1_2, part3_of_2_1_1_2, part0_of_2_3, part1_of_2_3, part0_of_2_4, part1_of_2_4, part0_of_3_1_2, part1_of_3_1_2, part2_of_3_1_2, part0_of_3_2_3_1, part1_of_3_2_3_1, part2_of_3_2_3_1, part3_of_3_2_3_1, part0_of_3_2_4, part1_of_3_2_4, part2_of_3_2_4, part0_of_3_3_2_1, part1_of_3_3_2_1, part2_of_3_3_2_1, part3_of_3_3_2_1, part0_of_3_3_3, part1_of_3_3_3, part2_of_3_3_3, part0_of_3_5_1, part1_of_3_5_1, part2_of_3_5_1, part0_of_3_6, part1_of_3_6, part0_of_4_2, part1_of_4_2, part0_of_5_1, part1_of_5_1, part0_of_5_2_2, part1_of_5_2_2, part2_of_5_2_2, part0_of_5_3_1, part1_of_5_3_1, part2_of_5_3_1, part0_of_5_4, part1_of_5_4, part0_of_6_2_1, part1_of_6_2_1, part2_of_6_2_1, part0_of_6_6, part1_of_6_6, part0_of_8_1, part1_of_8_1, need, beq_self_eq_true, Bool.and_self, if_true]
theorem mste : ∀ x0 x1 x2 x3 x4, Statement (.mste x0 x1 x2 x3 x4) := by
  intro x0 x1 x2 x3 x4
  refine ⟨nofun, fun _ => (eop_66 ..).trans ?_, nofun⟩
  unfold decodeEPort
  rw [fEop_packE]
  change (need ((fEc (packE 102#8 x0 x1 0x0#5 (x2 ++ x3 ++ 0x0#2 ++ x4))) == 0x0#5 && ((fMode (packE 102#8 x0 x1 0x0#5 (x2 ++ x3 ++ 0x0#2 ++ x4))).extractLsb' 1 2) == 0x0#2) (.mste (fEa (packE 102#8 x0 x1 0x0#5 (x2 ++ x3 ++ 0x0#2 ++ x4))) (fEb (packE 102#8 x0 x1 0x0#5 (x2 ++ x3 ++ 0x0#2 ++ x4))) ((fMode (packE 102#8 x0 x1 0x0#5 (x2 ++ x3 ++ 0x0#2 ++ x4))).extractLsb' 6 3) ((fMode (packE 102#8 x0 x1 0x0#5 (x2 ++ x3 ++ 0x0#2 ++ x4))).extractLsb' 3 3) ((fMode (packE 102#8 x0 x1 0x0#5 (x2 ++ x3 ++ 0x0#2 ++ x4))).extractLsb' 0 1)) : Except DecodeError Instr) = _
  simp only [fEa_packE, fEb_packE, fEc_packE, fMode_packE, part0_of_1_5, part1_of_1_5, part0_of_2_1_1_2, part1_of_2_1_1_2, part2_of_2_1_1_2, part3_of_2_1_1_2, part0_of_2_3, part1_of_2_3, part0_of_2_4, part1_of_2_4, part0_of_3_1_2, part1_of_3_1_2, part2_of_3_1_2, part0_of_3_2_3_1, part1_of_3_2_3_1, part2_of_3_2_3_1, part3_of_3_2_3_1, part0_of_3_2_4, part1_of_3_2_4, part2_of_3_2_4, part0_of_3_3_2_1, part1_of_3_3_2_1, part2_of_3_3_2_1, part3_of_3_3_2_1, part0_of_3_3_3, part1_of_3_3_3, part2_of_3_3_3, part0_of_3_5_1, part1_of_3_5_1, part2_of_3_5_1, part0_of_3_6, part1_of_3_6, part0_of_4_2, part1_of_4_2, part0_of_5_1, part1_of_5_1, part0_of_5_2_2, part1_of_5_2_2, part2_of_5_2_2, part0_of_5_3_1, part1_of_5_3_1, part2_of_5_3_1, part0_of_5_4, part1_of_5_4, part0_of_6_2_1, part1_of_6_2_1, part2_of_6_2_1, part0_of_6_6, part1_of_6_6, part0_of_8_1, part1_of_8_1, need, beq_self_eq_true, Bool.and_self, if_true]
theorem aga : Statement .aga := by
  refine ⟨nofun, fun _ => (eop_68 ..).trans ?_, nofun⟩
  unfold decodeEPort
  rw [fEop_packE]
  change (need ((fEa (packE 104#8 0x0#5 0x0#5 0x0#5 0x0#9)) == 0x0#5 && (fEb (packE 104#8 0x0#5 0x0#5 0x0#5 0x0#9)) == 0x0#5 && (fEc (packE 104#8 0x0#5 0x0#5 0x0#5 0x0#9)) == 0x0#5 && (fMode (packE 104#8 0x0#5 0x0#5 0x0#5 0x0#9)) == 0x0#9) (.aga) : Except DecodeError Instr) = _
  simp only [fEa_packE, fEb_packE, fEc_packE, fMode_packE, need, beq_self_eq_true, Bool.and_self, if_true]
theorem agx : ∀ x0, Statement (.agx x0) := by
  intro x0
  refine ⟨nofun, fun _ => (eop_69 ..).trans ?_, nofun⟩
  unfold decodeEPort
  rw [fEop_packE]
  change (need ((fEb (packE 105#8 x0 0x0#5 0x0#5 0x0#9)) == 0x0#5 && (fEc (packE 105#8 x0 0x0#5 0x0#5 0x0#9)) == 0x0#5 && (fMode (packE 105#8 x0 0x0#5 0x0#5 0x0#9)) == 0x0#9) (.agx (fEa (packE 105#8 x0 0x0#5 0x0#5 0x0#9))) : Except DecodeError Instr) = _
  simp only [fEa_packE, fEb_packE, fEc_packE, fMode_packE, need, beq_self_eq_true, Bool.and_self, if_true]
theorem agh : Statement .agh := by
  refine ⟨nofun, fun _ => (eop_6a ..).trans ?_, nofun⟩
  unfold decodeEPort
  rw [fEop_packE]
  change (need ((fEa (packE 106#8 0x0#5 0x0#5 0x0#5 0x0#9)) == 0x0#5 && (fEb (packE 106#8 0x0#5 0x0#5 0x0#5 0x0#9)) == 0x0#5 && (fEc (packE 106#8 0x0#5 0x0#5 0x0#5 0x0#9)) == 0x0#5 && (fMode (packE 106#8 0x0#5 0x0#5 0x0#5 0x0#9)) == 0x0#9) (.agh) : Except DecodeError Instr) = _
  simp only [fEa_packE, fEb_packE, fEc_packE, fMode_packE, need, beq_self_eq_true, Bool.and_self, if_true]
theorem xlate : ∀ x0 x1 x2, Statement (.xlate x0 x1 x2) := by
  intro x0 x1 x2
  refine ⟨nofun, fun _ => (eop_70 ..).trans ?_, nofun⟩
  unfold decodeEPort
  rw [fEop_packE]
  change (need ((fEb (packE 112#8 x0 0x0#5 0x0#5 (0x0#6 ++ x1 ++ x2))) == 0x0#5 && (fEc (packE 112#8 x0 0x0#5 0x0#5 (0x0#6 ++ x1 ++ x2))) == 0x0#5 && ((fMode (packE 112#8 x0 0x0#5 0x0#5 (0x0#6 ++ x1 ++ x2))).extractLsb' 3 6) == 0x0#6) (.xlate (fEa (packE 112#8 x0 0x0#5 0x0#5 (0x0#6 ++ x1 ++ x2))) ((fMode (packE 112#8 x0 0x0#5 0x0#5 (0x0#6 ++ x1 ++ x2))).extractLsb' 1 2) ((fMode (packE 112#8 x0 0x0#5 0x0#5 (0x0#6 ++ x1 ++ x2))).extractLsb' 0 1)) : Except DecodeError Instr) = _
  simp only [fEa_packE, fEb_packE, fEc_packE, fMode_packE, part0_of_1_5, part1_of_1_5, part0_of_2_1_1_2, part1_of_2_1_1_2, part2_of_2_1_1_2, part3_of_2_1_1_2, part0_of_2_3, part1_of_2_3, part0_of_2_4, part1_of_2_4, part0_of_3_1_2, part1_of_3_1_2, part2_of_3_1_2, part0_of_3_2_3_1, part1_of_3_2_3_1, part2_of_3_2_3_1, part3_of_3_2_3_1, part0_of_3_2_4, part1_of_3_2_4, part2_of_3_2_4, part0_of_3_3_2_1, part1_of_3_3_2_1, part2_of_3_3_2_1, part3_of_3_3_2_1, part0_of_3_3_3, part1_of_3_3_3, part2_of_3_3_3, part0_of_3_5_1, part1_of_3_5_1, part2_of_3_5_1, part0_of_3_6, part1_of_3_6, part0_of_4_2, part1_of_4_2, part0_of_5_1, part1_of_5_1, part0_of_5_2_2, part1_of_5_2_2, part2_of_5_2_2, part0_of_5_3_1, part1_of_5_3_1, part2_of_5_3_1, part0_of_5_4, part1_of_5_4, part0_of_6_2_1, part1_of_6_2_1, part2_of_6_2_1, part0_of_6_6, part1_of_6_6, part0_of_8_1, part1_of_8_1, need, beq_self_eq_true, Bool.and_self, if_true]
theorem sieve : ∀ x0 x1 x2 x3, Statement (.sieve x0 x1 x2 x3) := by
  intro x0 x1 x2 x3
  refine ⟨nofun, fun _ => (eop_72 ..).trans ?_, nofun⟩
  unfold decodeEPort
  rw [fEop_packE]
  change (need ((fEb (packE 114#8 x0 0x0#5 0x0#5 (x1 ++ 0x0#2 ++ x2 ++ x3))) == 0x0#5 && (fEc (packE 114#8 x0 0x0#5 0x0#5 (x1 ++ 0x0#2 ++ x2 ++ x3))) == 0x0#5 && ((fMode (packE 114#8 x0 0x0#5 0x0#5 (x1 ++ 0x0#2 ++ x2 ++ x3))).extractLsb' 4 2) == 0x0#2) (.sieve (fEa (packE 114#8 x0 0x0#5 0x0#5 (x1 ++ 0x0#2 ++ x2 ++ x3))) ((fMode (packE 114#8 x0 0x0#5 0x0#5 (x1 ++ 0x0#2 ++ x2 ++ x3))).extractLsb' 6 3) ((fMode (packE 114#8 x0 0x0#5 0x0#5 (x1 ++ 0x0#2 ++ x2 ++ x3))).extractLsb' 1 3) ((fMode (packE 114#8 x0 0x0#5 0x0#5 (x1 ++ 0x0#2 ++ x2 ++ x3))).extractLsb' 0 1)) : Except DecodeError Instr) = _
  simp only [fEa_packE, fEb_packE, fEc_packE, fMode_packE, part0_of_1_5, part1_of_1_5, part0_of_2_1_1_2, part1_of_2_1_1_2, part2_of_2_1_1_2, part3_of_2_1_1_2, part0_of_2_3, part1_of_2_3, part0_of_2_4, part1_of_2_4, part0_of_3_1_2, part1_of_3_1_2, part2_of_3_1_2, part0_of_3_2_3_1, part1_of_3_2_3_1, part2_of_3_2_3_1, part3_of_3_2_3_1, part0_of_3_2_4, part1_of_3_2_4, part2_of_3_2_4, part0_of_3_3_2_1, part1_of_3_3_2_1, part2_of_3_3_2_1, part3_of_3_3_2_1, part0_of_3_3_3, part1_of_3_3_3, part2_of_3_3_3, part0_of_3_5_1, part1_of_3_5_1, part2_of_3_5_1, part0_of_3_6, part1_of_3_6, part0_of_4_2, part1_of_4_2, part0_of_5_1, part1_of_5_1, part0_of_5_2_2, part1_of_5_2_2, part2_of_5_2_2, part0_of_5_3_1, part1_of_5_3_1, part2_of_5_3_1, part0_of_5_4, part1_of_5_4, part0_of_6_2_1, part1_of_6_2_1, part2_of_6_2_1, part0_of_6_6, part1_of_6_6, part0_of_8_1, part1_of_8_1, need, beq_self_eq_true, Bool.and_self, if_true]
theorem unsieve : ∀ x0 x1 x2 x3, Statement (.unsieve x0 x1 x2 x3) := by
  intro x0 x1 x2 x3
  refine ⟨nofun, fun _ => (eop_73 ..).trans ?_, nofun⟩
  unfold decodeEPort
  rw [fEop_packE]
  change (need ((fEb (packE 115#8 x0 0x0#5 0x0#5 (x1 ++ 0x0#2 ++ x2 ++ x3))) == 0x0#5 && (fEc (packE 115#8 x0 0x0#5 0x0#5 (x1 ++ 0x0#2 ++ x2 ++ x3))) == 0x0#5 && ((fMode (packE 115#8 x0 0x0#5 0x0#5 (x1 ++ 0x0#2 ++ x2 ++ x3))).extractLsb' 4 2) == 0x0#2) (.unsieve (fEa (packE 115#8 x0 0x0#5 0x0#5 (x1 ++ 0x0#2 ++ x2 ++ x3))) ((fMode (packE 115#8 x0 0x0#5 0x0#5 (x1 ++ 0x0#2 ++ x2 ++ x3))).extractLsb' 6 3) ((fMode (packE 115#8 x0 0x0#5 0x0#5 (x1 ++ 0x0#2 ++ x2 ++ x3))).extractLsb' 1 3) ((fMode (packE 115#8 x0 0x0#5 0x0#5 (x1 ++ 0x0#2 ++ x2 ++ x3))).extractLsb' 0 1)) : Except DecodeError Instr) = _
  simp only [fEa_packE, fEb_packE, fEc_packE, fMode_packE, part0_of_1_5, part1_of_1_5, part0_of_2_1_1_2, part1_of_2_1_1_2, part2_of_2_1_1_2, part3_of_2_1_1_2, part0_of_2_3, part1_of_2_3, part0_of_2_4, part1_of_2_4, part0_of_3_1_2, part1_of_3_1_2, part2_of_3_1_2, part0_of_3_2_3_1, part1_of_3_2_3_1, part2_of_3_2_3_1, part3_of_3_2_3_1, part0_of_3_2_4, part1_of_3_2_4, part2_of_3_2_4, part0_of_3_3_2_1, part1_of_3_3_2_1, part2_of_3_3_2_1, part3_of_3_3_2_1, part0_of_3_3_3, part1_of_3_3_3, part2_of_3_3_3, part0_of_3_5_1, part1_of_3_5_1, part2_of_3_5_1, part0_of_3_6, part1_of_3_6, part0_of_4_2, part1_of_4_2, part0_of_5_1, part1_of_5_1, part0_of_5_2_2, part1_of_5_2_2, part2_of_5_2_2, part0_of_5_3_1, part1_of_5_3_1, part2_of_5_3_1, part0_of_5_4, part1_of_5_4, part0_of_6_2_1, part1_of_6_2_1, part2_of_6_2_1, part0_of_6_6, part1_of_6_6, part0_of_8_1, part1_of_8_1, need, beq_self_eq_true, Bool.and_self, if_true]
theorem gateCtok : ∀ x0 x1, Statement (.gateCtok x0 x1) := by
  intro x0 x1
  refine ⟨nofun, fun _ => ?_, nofun⟩
  change decodeE (packE 120#8 x0 x1 0x0#5 0x0#9) = _
  simp [decodeE, decodeEFlow, need]
theorem gateCounter : ∀ x0, Statement (.gateCounter x0) := by
  intro x0
  refine ⟨nofun, fun _ => ?_, nofun⟩
  change decodeE (packE 120#8 x0 0x0#5 0x0#5 0x1#9) = _
  simp [decodeE, decodeEFlow, need]
theorem carry : ∀ x0 x1 x2, Statement (.carry x0 x1 x2) := by
  intro x0 x1 x2
  refine ⟨nofun, fun _ => (eop_79 ..).trans ?_, nofun⟩
  unfold decodeEFlow
  rw [fEop_packE]
  change (need ((fMode (packE 121#8 x0 x1 x2 0x0#9)) == 0x0#9) (.carry (fEa (packE 121#8 x0 x1 x2 0x0#9)) (fEb (packE 121#8 x0 x1 x2 0x0#9)) (fEc (packE 121#8 x0 x1 x2 0x0#9))) : Except DecodeError Instr) = _
  simp only [fEa_packE, fEb_packE, fEc_packE, fMode_packE, need, beq_self_eq_true, Bool.and_self, if_true]
theorem steer : ∀ x0 x1 x2, Statement (.steer x0 x1 x2) := by
  intro x0 x1 x2
  refine ⟨nofun, fun _ => (eop_7a ..).trans ?_, nofun⟩
  unfold decodeEFlow
  rw [fEop_packE]
  change (need ((fEc (packE 122#8 x0 x1 0x0#5 (0x0#8 ++ x2))) == 0x0#5 && ((fMode (packE 122#8 x0 x1 0x0#5 (0x0#8 ++ x2))).extractLsb' 1 8) == 0x0#8) (.steer (fEa (packE 122#8 x0 x1 0x0#5 (0x0#8 ++ x2))) (fEb (packE 122#8 x0 x1 0x0#5 (0x0#8 ++ x2))) ((fMode (packE 122#8 x0 x1 0x0#5 (0x0#8 ++ x2))).extractLsb' 0 1)) : Except DecodeError Instr) = _
  simp only [fEa_packE, fEb_packE, fEc_packE, fMode_packE, part0_of_1_5, part1_of_1_5, part0_of_2_1_1_2, part1_of_2_1_1_2, part2_of_2_1_1_2, part3_of_2_1_1_2, part0_of_2_3, part1_of_2_3, part0_of_2_4, part1_of_2_4, part0_of_3_1_2, part1_of_3_1_2, part2_of_3_1_2, part0_of_3_2_3_1, part1_of_3_2_3_1, part2_of_3_2_3_1, part3_of_3_2_3_1, part0_of_3_2_4, part1_of_3_2_4, part2_of_3_2_4, part0_of_3_3_2_1, part1_of_3_3_2_1, part2_of_3_3_2_1, part3_of_3_3_2_1, part0_of_3_3_3, part1_of_3_3_3, part2_of_3_3_3, part0_of_3_5_1, part1_of_3_5_1, part2_of_3_5_1, part0_of_3_6, part1_of_3_6, part0_of_4_2, part1_of_4_2, part0_of_5_1, part1_of_5_1, part0_of_5_2_2, part1_of_5_2_2, part2_of_5_2_2, part0_of_5_3_1, part1_of_5_3_1, part2_of_5_3_1, part0_of_5_4, part1_of_5_4, part0_of_6_2_1, part1_of_6_2_1, part2_of_6_2_1, part0_of_6_6, part1_of_6_6, part0_of_8_1, part1_of_8_1, need, beq_self_eq_true, Bool.and_self, if_true]
theorem merge : ∀ x0 x1 x2, Statement (.merge x0 x1 x2) := by
  intro x0 x1 x2
  refine ⟨nofun, fun _ => (eop_7b ..).trans ?_, nofun⟩
  unfold decodeEFlow
  rw [fEop_packE]
  change (need ((fMode (packE 123#8 x0 x1 x2 0x0#9)) == 0x0#9) (.merge (fEa (packE 123#8 x0 x1 x2 0x0#9)) (fEb (packE 123#8 x0 x1 x2 0x0#9)) (fEc (packE 123#8 x0 x1 x2 0x0#9))) : Except DecodeError Instr) = _
  simp only [fEa_packE, fEb_packE, fEc_packE, fMode_packE, need, beq_self_eq_true, Bool.and_self, if_true]
theorem dup : ∀ x0, Statement (.dup x0) := by
  intro x0
  refine ⟨nofun, fun _ => (eop_7c ..).trans ?_, nofun⟩
  unfold decodeEFlow
  rw [fEop_packE]
  change (need ((fEb (packE 124#8 x0 0x0#5 0x0#5 0x0#9)) == 0x0#5 && (fEc (packE 124#8 x0 0x0#5 0x0#5 0x0#9)) == 0x0#5 && (fMode (packE 124#8 x0 0x0#5 0x0#5 0x0#9)) == 0x0#9) (.dup (fEa (packE 124#8 x0 0x0#5 0x0#5 0x0#9))) : Except DecodeError Instr) = _
  simp only [fEa_packE, fEb_packE, fEc_packE, fMode_packE, need, beq_self_eq_true, Bool.and_self, if_true]
theorem eosgen : ∀ x0 x1, Statement (.eosgen x0 x1) := by
  intro x0 x1
  refine ⟨nofun, fun _ => (eop_7d ..).trans ?_, nofun⟩
  unfold decodeEFlow
  rw [fEop_packE]
  change (need ((fEb (packE 125#8 x0 0x0#5 0x0#5 (0x0#8 ++ x1))) == 0x0#5 && (fEc (packE 125#8 x0 0x0#5 0x0#5 (0x0#8 ++ x1))) == 0x0#5 && ((fMode (packE 125#8 x0 0x0#5 0x0#5 (0x0#8 ++ x1))).extractLsb' 1 8) == 0x0#8) (.eosgen (fEa (packE 125#8 x0 0x0#5 0x0#5 (0x0#8 ++ x1))) ((fMode (packE 125#8 x0 0x0#5 0x0#5 (0x0#8 ++ x1))).extractLsb' 0 1)) : Except DecodeError Instr) = _
  simp only [fEa_packE, fEb_packE, fEc_packE, fMode_packE, part0_of_1_5, part1_of_1_5, part0_of_2_1_1_2, part1_of_2_1_1_2, part2_of_2_1_1_2, part3_of_2_1_1_2, part0_of_2_3, part1_of_2_3, part0_of_2_4, part1_of_2_4, part0_of_3_1_2, part1_of_3_1_2, part2_of_3_1_2, part0_of_3_2_3_1, part1_of_3_2_3_1, part2_of_3_2_3_1, part3_of_3_2_3_1, part0_of_3_2_4, part1_of_3_2_4, part2_of_3_2_4, part0_of_3_3_2_1, part1_of_3_3_2_1, part2_of_3_3_2_1, part3_of_3_3_2_1, part0_of_3_3_3, part1_of_3_3_3, part2_of_3_3_3, part0_of_3_5_1, part1_of_3_5_1, part2_of_3_5_1, part0_of_3_6, part1_of_3_6, part0_of_4_2, part1_of_4_2, part0_of_5_1, part1_of_5_1, part0_of_5_2_2, part1_of_5_2_2, part2_of_5_2_2, part0_of_5_3_1, part1_of_5_3_1, part2_of_5_3_1, part0_of_5_4, part1_of_5_4, part0_of_6_2_1, part1_of_6_2_1, part2_of_6_2_1, part0_of_6_6, part1_of_6_6, part0_of_8_1, part1_of_8_1, need, beq_self_eq_true, Bool.and_self, if_true]
theorem sink : ∀ x0 x1, Statement (.sink x0 x1) := by
  intro x0 x1
  refine ⟨nofun, fun _ => (eop_7f ..).trans ?_, nofun⟩
  unfold decodeEFlow
  rw [fEop_packE]
  change (need ((fEb (packE 127#8 x0 0x0#5 0x0#5 (0x0#8 ++ x1))) == 0x0#5 && (fEc (packE 127#8 x0 0x0#5 0x0#5 (0x0#8 ++ x1))) == 0x0#5 && ((fMode (packE 127#8 x0 0x0#5 0x0#5 (0x0#8 ++ x1))).extractLsb' 1 8) == 0x0#8) (.sink (fEa (packE 127#8 x0 0x0#5 0x0#5 (0x0#8 ++ x1))) ((fMode (packE 127#8 x0 0x0#5 0x0#5 (0x0#8 ++ x1))).extractLsb' 0 1)) : Except DecodeError Instr) = _
  simp only [fEa_packE, fEb_packE, fEc_packE, fMode_packE, part0_of_1_5, part1_of_1_5, part0_of_2_1_1_2, part1_of_2_1_1_2, part2_of_2_1_1_2, part3_of_2_1_1_2, part0_of_2_3, part1_of_2_3, part0_of_2_4, part1_of_2_4, part0_of_3_1_2, part1_of_3_1_2, part2_of_3_1_2, part0_of_3_2_3_1, part1_of_3_2_3_1, part2_of_3_2_3_1, part3_of_3_2_3_1, part0_of_3_2_4, part1_of_3_2_4, part2_of_3_2_4, part0_of_3_3_2_1, part1_of_3_3_2_1, part2_of_3_3_2_1, part3_of_3_3_2_1, part0_of_3_3_3, part1_of_3_3_3, part2_of_3_3_3, part0_of_3_5_1, part1_of_3_5_1, part2_of_3_5_1, part0_of_3_6, part1_of_3_6, part0_of_4_2, part1_of_4_2, part0_of_5_1, part1_of_5_1, part0_of_5_2_2, part1_of_5_2_2, part2_of_5_2_2, part0_of_5_3_1, part1_of_5_3_1, part2_of_5_3_1, part0_of_5_4, part1_of_5_4, part0_of_6_2_1, part1_of_6_2_1, part2_of_6_2_1, part0_of_6_6, part1_of_6_6, part0_of_8_1, part1_of_8_1, need, beq_self_eq_true, Bool.and_self, if_true]
theorem emitTok : Statement .emitTok := by
  refine ⟨nofun, fun _ => ?_, nofun⟩
  change decodeE (packE 128#8 0x0#5 0x0#5 0x0#5 0x0#9) = _
  simp [decodeE, decodeEFlow, need]
theorem emitIota : Statement .emitIota := by
  refine ⟨nofun, fun _ => ?_, nofun⟩
  change decodeE (packE 128#8 0x0#5 0x0#5 0x0#5 0x1#9) = _
  simp [decodeE, decodeEFlow, need]
theorem emitIng : Statement .emitIng := by
  refine ⟨nofun, fun _ => ?_, nofun⟩
  change decodeE (packE 128#8 0x0#5 0x0#5 0x0#5 0x2#9) = _
  simp [decodeE, decodeEFlow, need]
theorem tagopSet : ∀ x0, Statement (.tagopSet x0) := by
  intro x0
  refine ⟨nofun, fun _ => ?_, nofun⟩
  change decodeE (packE 129#8 x0 0x0#5 0x0#5 0x0#9) = _
  simp [decodeE, decodeEFlow, need]
theorem tagopCtok : ∀ x0, Statement (.tagopCtok x0) := by
  intro x0
  refine ⟨nofun, fun _ => ?_, nofun⟩
  change decodeE (packE 129#8 x0 0x0#5 0x0#5 0x1#9) = _
  simp [decodeE, decodeEFlow, need]
theorem tagopClear : ∀ x0, Statement (.tagopClear x0) := by
  intro x0
  refine ⟨nofun, fun _ => ?_, nofun⟩
  change decodeE (packE 129#8 x0 0x0#5 0x0#5 0x2#9) = _
  simp [decodeE, decodeEFlow, need]
theorem routePass : ∀ x0 x1 x2, Statement (.routePass x0 x1 x2) := by
  intro x0 x1 x2
  refine ⟨nofun, nofun, fun _ => ?_⟩
  simp [encodeS, decodeS]
theorem routeHold : ∀ x0 x1 x2, Statement (.routeHold x0 x1 x2) := by
  intro x0 x1 x2
  refine ⟨nofun, nofun, fun _ => ?_⟩
  simp [encodeS, decodeS]
theorem routeFanout : ∀ x0 x1 x2, Statement (.routeFanout x0 x1 x2) := by
  intro x0 x1 x2
  refine ⟨nofun, nofun, fun _ => ?_⟩
  simp [encodeS, decodeS]
theorem routeSeam : ∀ x0 x1 x2, Statement (.routeSeam x0 x1 x2) := by
  intro x0 x1 x2
  refine ⟨nofun, nofun, fun _ => ?_⟩
  simp [encodeS, decodeS]
theorem boundaryTrap : ∀ x0, Statement (.boundaryTrap x0) := fun _ => ⟨nofun, nofun, nofun⟩
theorem waitTimeout : ∀ x0, Statement (.waitTimeout x0) := fun _ => ⟨nofun, nofun, nofun⟩
theorem scrub : ∀ x0, Statement (.scrub x0) := fun _ => ⟨nofun, nofun, nofun⟩
theorem sleepuWake : ∀ x0, Statement (.sleepuWake x0) := fun _ => ⟨nofun, nofun, nofun⟩
theorem watchFire : ∀ x0 x1, Statement (.watchFire x0 x1) := fun _ _ => ⟨nofun, nofun, nofun⟩
theorem copyComplete : ∀ x0, Statement (.copyComplete x0) := fun _ => ⟨nofun, nofun, nofun⟩
theorem sendrMerge : ∀ x0, Statement (.sendrMerge x0) := fun _ => ⟨nofun, nofun, nofun⟩
theorem pendingTakeover : ∀ x0 x1, Statement (.pendingTakeover x0 x1) := fun _ _ => ⟨nofun, nofun, nofun⟩
theorem segmentLoad : ∀ x0, Statement (.segmentLoad x0) := fun _ => ⟨nofun, nofun, nofun⟩
theorem launchStart : ∀ x0, Statement (.launchStart x0) := fun _ => ⟨nofun, nofun, nofun⟩
theorem unitRetire : ∀ x0, Statement (.unitRetire x0) := fun _ => ⟨nofun, nofun, nofun⟩
theorem eosStep : ∀ x0 x1, Statement (.eosStep x0 x1) := fun _ _ => ⟨nofun, nofun, nofun⟩
theorem roundStep : ∀ x0 x1, Statement (.roundStep x0 x1) := fun _ _ => ⟨nofun, nofun, nofun⟩
theorem roundCommit : ∀ x0 x1, Statement (.roundCommit x0 x1) := fun _ _ => ⟨nofun, nofun, nofun⟩
theorem kill : Statement .kill := ⟨nofun, nofun, nofun⟩
theorem creditReturn : ∀ x0, Statement (.creditReturn x0) := fun _ => ⟨nofun, nofun, nofun⟩
theorem faultRecordWrite : ∀ x0, Statement (.faultRecordWrite x0) := fun _ => ⟨nofun, nofun, nofun⟩
theorem oredMerge : ∀ x0, Statement (.oredMerge x0) := fun _ => ⟨nofun, nofun, nofun⟩
theorem redEvent : ∀ x0, Statement (.redEvent x0) := fun _ => ⟨nofun, nofun, nofun⟩
theorem gatherStep : ∀ x0, Statement (.gatherStep x0) := fun _ => ⟨nofun, nofun, nofun⟩
theorem attestReport : ∀ x0, Statement (.attestReport x0) := fun _ => ⟨nofun, nofun, nofun⟩
theorem pageWalk : ∀ x0 x1 x2 x3, Statement (.pageWalk x0 x1 x2 x3) := fun _ _ _ _ => ⟨nofun, nofun, nofun⟩
theorem launchComplete : ∀ x0, Statement (.launchComplete x0) := fun _ => ⟨nofun, nofun, nofun⟩
theorem phaseComplete : ∀ x0 x1, Statement (.phaseComplete x0 x1) := fun _ _ => ⟨nofun, nofun, nofun⟩
theorem loaderDescriptor : ∀ x0, Statement (.loaderDescriptor x0) := fun _ => ⟨nofun, nofun, nofun⟩
theorem poolPlace : ∀ x0, Statement (.poolPlace x0) := fun _ => ⟨nofun, nofun, nofun⟩
theorem compact : ∀ x0 x1, Statement (.compact x0 x1) := fun _ _ => ⟨nofun, nofun, nofun⟩
theorem victimPreempt : ∀ x0, Statement (.victimPreempt x0) := fun _ => ⟨nofun, nofun, nofun⟩
theorem parentYield : ∀ x0, Statement (.parentYield x0) := fun _ => ⟨nofun, nofun, nofun⟩
theorem packetArbitrate : ∀ x0, Statement (.packetArbitrate x0) := fun _ => ⟨nofun, nofun, nofun⟩
theorem watchdogSnapshot : ∀ x0, Statement (.watchdogSnapshot x0) := fun _ => ⟨nofun, nofun, nofun⟩
theorem watchdogCancel : ∀ x0, Statement (.watchdogCancel x0) := fun _ => ⟨nofun, nofun, nofun⟩
theorem rcResume : ∀ x0, Statement (.rcResume x0) := fun _ => ⟨nofun, nofun, nofun⟩
theorem rcCancel : ∀ x0, Statement (.rcCancel x0) := fun _ => ⟨nofun, nofun, nofun⟩
theorem rcSnapshot : ∀ x0, Statement (.rcSnapshot x0) := fun _ => ⟨nofun, nofun, nofun⟩
theorem rcselWrite : ∀ x0 x1, Statement (.rcselWrite x0 x1) := fun _ _ => ⟨nofun, nofun, nofun⟩
theorem rcUnitFrameWrite : ∀ x0 x1 x2, Statement (.rcUnitFrameWrite x0 x1 x2) := fun _ _ _ => ⟨nofun, nofun, nofun⟩
theorem rcEsrWrite : ∀ x0 x1, Statement (.rcEsrWrite x0 x1) := fun _ _ => ⟨nofun, nofun, nofun⟩
theorem rcCvsrWrite : ∀ x0 x1, Statement (.rcCvsrWrite x0 x1) := fun _ _ => ⟨nofun, nofun, nofun⟩
theorem registerWrite : ∀ x0 x1 x2, Statement (.registerWrite x0 x1 x2) := fun _ _ _ => ⟨nofun, nofun, nofun⟩
theorem elementSave : ∀ x0 x1, Statement (.elementSave x0 x1) := fun _ _ => ⟨nofun, nofun, nofun⟩
theorem snapshotClose : ∀ x0, Statement (.snapshotClose x0) := fun _ => ⟨nofun, nofun, nofun⟩
theorem restore : ∀ x0, Statement (.restore x0) := fun _ => ⟨nofun, nofun, nofun⟩
theorem savedTokenInject : ∀ x0, Statement (.savedTokenInject x0) := fun _ => ⟨nofun, nofun, nofun⟩
theorem turnStart : ∀ x0, Statement (.turnStart x0) := fun _ => ⟨nofun, nofun, nofun⟩
theorem turnDrained : ∀ x0, Statement (.turnDrained x0) := fun _ => ⟨nofun, nofun, nofun⟩
theorem turnComplete : ∀ x0, Statement (.turnComplete x0) := fun _ => ⟨nofun, nofun, nofun⟩
theorem ingressSlotWrite : ∀ x0 x1 x2 x3, Statement (.ingressSlotWrite x0 x1 x2 x3) := fun _ _ _ _ => ⟨nofun, nofun, nofun⟩
theorem ingressEosWrite : ∀ x0 x1 x2, Statement (.ingressEosWrite x0 x1 x2) := fun _ _ _ => ⟨nofun, nofun, nofun⟩
theorem hostWindowAccess : ∀ x0 x1 x2 x3 x4, Statement (.hostWindowAccess x0 x1 x2 x3 x4) := fun _ _ _ _ _ => ⟨nofun, nofun, nofun⟩
theorem hostAtomic : ∀ x0 x1 x2 x3 x4, Statement (.hostAtomic x0 x1 x2 x3 x4) := fun _ _ _ _ _ => ⟨nofun, nofun, nofun⟩
theorem hostBadOffset : ∀ x0 x1, Statement (.hostBadOffset x0 x1) := fun _ _ => ⟨nofun, nofun, nofun⟩
theorem hwjobWrite : ∀ x0 x1, Statement (.hwjobWrite x0 x1) := fun _ _ => ⟨nofun, nofun, nofun⟩
theorem hwbaseWrite : ∀ x0 x1, Statement (.hwbaseWrite x0 x1) := fun _ _ => ⟨nofun, nofun, nofun⟩
theorem mgRelease : ∀ x0, Statement (.mgRelease x0) := fun _ => ⟨nofun, nofun, nofun⟩
theorem mgPolicy : ∀ x0, Statement (.mgPolicy x0) := fun _ => ⟨nofun, nofun, nofun⟩
theorem mgFrame : ∀ x0, Statement (.mgFrame x0) := fun _ => ⟨nofun, nofun, nofun⟩
theorem mgStandby : ∀ x0, Statement (.mgStandby x0) := fun _ => ⟨nofun, nofun, nofun⟩
theorem mgWake : ∀ x0, Statement (.mgWake x0) := fun _ => ⟨nofun, nofun, nofun⟩
theorem wakeComplete : Statement .wakeComplete := ⟨nofun, nofun, nofun⟩
theorem mgPair : ∀ x0, Statement (.mgPair x0) := fun _ => ⟨nofun, nofun, nofun⟩
theorem mgKey : ∀ x0, Statement (.mgKey x0) := fun _ => ⟨nofun, nofun, nofun⟩
theorem mgLog : ∀ x0, Statement (.mgLog x0) := fun _ => ⟨nofun, nofun, nofun⟩
theorem mgDebug : ∀ x0 x1, Statement (.mgDebug x0 x1) := fun _ _ => ⟨nofun, nofun, nofun⟩
theorem thcfgWrite : ∀ x0 x1, Statement (.thcfgWrite x0 x1) := fun _ _ => ⟨nofun, nofun, nofun⟩
theorem monitorSample : ∀ x0, Statement (.monitorSample x0) := fun _ => ⟨nofun, nofun, nofun⟩
theorem thermalStepUp : Statement .thermalStepUp := ⟨nofun, nofun, nofun⟩
theorem packageReset : Statement .packageReset := ⟨nofun, nofun, nofun⟩
theorem idleGate : ∀ x0, Statement (.idleGate x0) := fun _ => ⟨nofun, nofun, nofun⟩
theorem illegalCWord : ∀ x0, Statement (.illegalCWord x0) := fun _ => ⟨nofun, nofun, nofun⟩
theorem fetchFault : Statement .fetchFault := ⟨nofun, nofun, nofun⟩
theorem uncorrectableError : ∀ x0, Statement (.uncorrectableError x0) := fun _ => ⟨nofun, nofun, nofun⟩
theorem rccmdUnassigned : ∀ x0 x1, Statement (.rccmdUnassigned x0 x1) := fun _ _ => ⟨nofun, nofun, nofun⟩
theorem mgcmdUnassigned : ∀ x0 x1, Statement (.mgcmdUnassigned x0 x1) := fun _ _ => ⟨nofun, nofun, nofun⟩

end Laws.RoundTrip

end Sys2Proof
end

