-- ==== Sys2Proof/Laws/State.lean ====
section
/-!
SUPPORT. Laws of the state: what each of its writers leaves alone, one lemma for each field, and what it reads as
afterwards. No later proof needs to unfold a record update.
-/

namespace Sys2Proof.Machine

open Sys2Proof

/-! ## What the writers leave alone -/

@[simp] theorem setUnit_tb (s : State) (u : Nat) (x : UnitRegs) : (setUnit s u x).tb = s.tb := rfl
@[simp] theorem setUnit_power (s : State) (u : Nat) (x : UnitRegs) : (setUnit s u x).power = s.power := rfl
@[simp] theorem setUnit_steps (s : State) (u : Nat) (x : UnitRegs) : (setUnit s u x).steps = s.steps := rfl
@[simp] theorem setUnit_lastStep (s : State) (u : Nat) (x : UnitRegs) : (setUnit s u x).lastStep = s.lastStep := rfl
@[simp] theorem setUnit_thermLog (s : State) (u : Nat) (x : UnitRegs) : (setUnit s u x).thermLog = s.thermLog := rfl
@[simp] theorem setUnit_bringUp (s : State) (u : Nat) (x : UnitRegs) : (setUnit s u x).bringUp = s.bringUp := rfl
@[simp] theorem setUnit_failed (s : State) (u : Nat) (x : UnitRegs) : (setUnit s u x).failed = s.failed := rfl
@[simp] theorem setUnit_held (s : State) (u : Nat) (x : UnitRegs) : (setUnit s u x).held = s.held := rfl
@[simp] theorem setUnit_mem (s : State) (u : Nat) (x : UnitRegs) : (setUnit s u x).mem = s.mem := rfl
@[simp] theorem setUnit_hostMem (s : State) (u : Nat) (x : UnitRegs) : (setUnit s u x).hostMem = s.hostMem := rfl
@[simp] theorem setUnit_banks (s : State) (u : Nat) (x : UnitRegs) : (setUnit s u x).banks = s.banks := rfl
@[simp] theorem setUnit_elems (s : State) (u : Nat) (x : UnitRegs) : (setUnit s u x).elems = s.elems := rfl
@[simp] theorem setUnit_fifos (s : State) (u : Nat) (x : UnitRegs) : (setUnit s u x).fifos = s.fifos := rfl
@[simp] theorem setUnit_rows (s : State) (u : Nat) (x : UnitRegs) : (setUnit s u x).rows = s.rows := rfl
@[simp] theorem setUnit_claims (s : State) (u : Nat) (x : UnitRegs) : (setUnit s u x).claims = s.claims := rfl
@[simp] theorem setUnit_lastFired (s : State) (u : Nat) (x : UnitRegs) : (setUnit s u x).lastFired = s.lastFired := rfl
@[simp] theorem setUnit_lastIssue (s : State) (u : Nat) (x : UnitRegs) : (setUnit s u x).lastIssue = s.lastIssue := rfl
@[simp] theorem setUnit_kills (s : State) (u : Nat) (x : UnitRegs) : (setUnit s u x).kills = s.kills := rfl
@[simp] theorem setUnit_series (s : State) (u : Nat) (x : UnitRegs) : (setUnit s u x).series = s.series := rfl
@[simp] theorem setUnit_engines (s : State) (u : Nat) (x : UnitRegs) : (setUnit s u x).engines = s.engines := rfl
@[simp] theorem setUnit_nextEng (s : State) (u : Nat) (x : UnitRegs) : (setUnit s u x).nextEng = s.nextEng := rfl
@[simp] theorem setUnit_episodes (s : State) (u : Nat) (x : UnitRegs) : (setUnit s u x).episodes = s.episodes := rfl
@[simp] theorem setUnit_barriers (s : State) (u : Nat) (x : UnitRegs) : (setUnit s u x).barriers = s.barriers := rfl
@[simp] theorem setUnit_qwaiters (s : State) (u : Nat) (x : UnitRegs) : (setUnit s u x).qwaiters = s.qwaiters := rfl
@[simp] theorem setUnit_twaiters (s : State) (u : Nat) (x : UnitRegs) : (setUnit s u x).twaiters = s.twaiters := rfl
@[simp] theorem setUnit_launches (s : State) (u : Nat) (x : UnitRegs) : (setUnit s u x).launches = s.launches := rfl
@[simp] theorem setUnit_graphs (s : State) (u : Nat) (x : UnitRegs) : (setUnit s u x).graphs = s.graphs := rfl
@[simp] theorem setUnit_jobs (s : State) (u : Nat) (x : UnitRegs) : (setUnit s u x).jobs = s.jobs := rfl
@[simp] theorem setUnit_phased (s : State) (u : Nat) (x : UnitRegs) : (setUnit s u x).phased = s.phased := rfl
@[simp] theorem setUnit_decls (s : State) (u : Nat) (x : UnitRegs) : (setUnit s u x).decls = s.decls := rfl
@[simp] theorem setUnit_pages (s : State) (u : Nat) (x : UnitRegs) : (setUnit s u x).pages = s.pages := rfl
@[simp] theorem setUnit_dies (s : State) (u : Nat) (x : UnitRegs) : (setUnit s u x).dies = s.dies := rfl
@[simp] theorem setUnit_links (s : State) (u : Nat) (x : UnitRegs) : (setUnit s u x).links = s.links := rfl
@[simp] theorem setUnit_endpoints (s : State) (u : Nat) (x : UnitRegs) : (setUnit s u x).endpoints = s.endpoints := rfl
@[simp] theorem setUnit_frames (s : State) (u : Nat) (x : UnitRegs) : (setUnit s u x).frames = s.frames := rfl
@[simp] theorem setUnit_edges (s : State) (u : Nat) (x : UnitRegs) : (setUnit s u x).edges = s.edges := rfl
@[simp] theorem setUnit_arbiters (s : State) (u : Nat) (x : UnitRegs) : (setUnit s u x).arbiters = s.arbiters := rfl
@[simp] theorem setUnit_replies (s : State) (u : Nat) (x : UnitRegs) : (setUnit s u x).replies = s.replies := rfl
@[simp] theorem setUnit_agenda (s : State) (u : Nat) (x : UnitRegs) : (setUnit s u x).agenda = s.agenda := rfl
@[simp] theorem setUnit_cur (s : State) (u : Nat) (x : UnitRegs) : (setUnit s u x).cur = s.cur := rfl
@[simp] theorem setUnit_curElem (s : State) (u : Nat) (x : UnitRegs) : (setUnit s u x).curElem = s.curElem := rfl
@[simp] theorem setUnit_movers (s : State) (u : Nat) (x : UnitRegs) : (setUnit s u x).movers = s.movers := rfl
@[simp] theorem setUnit_fired (s : State) (u : Nat) (x : UnitRegs) : (setUnit s u x).fired = s.fired := rfl
@[simp] theorem setUnit_free (s : State) (u : Nat) (x : UnitRegs) : (setUnit s u x).free = s.free := rfl

@[simp] theorem setBank_tb (s : State) (u : Nat) (b : Bank) : (setBank s u b).tb = s.tb := rfl
@[simp] theorem setBank_power (s : State) (u : Nat) (b : Bank) : (setBank s u b).power = s.power := rfl
@[simp] theorem setBank_steps (s : State) (u : Nat) (b : Bank) : (setBank s u b).steps = s.steps := rfl
@[simp] theorem setBank_lastStep (s : State) (u : Nat) (b : Bank) : (setBank s u b).lastStep = s.lastStep := rfl
@[simp] theorem setBank_thermLog (s : State) (u : Nat) (b : Bank) : (setBank s u b).thermLog = s.thermLog := rfl
@[simp] theorem setBank_bringUp (s : State) (u : Nat) (b : Bank) : (setBank s u b).bringUp = s.bringUp := rfl
@[simp] theorem setBank_failed (s : State) (u : Nat) (b : Bank) : (setBank s u b).failed = s.failed := rfl
@[simp] theorem setBank_held (s : State) (u : Nat) (b : Bank) : (setBank s u b).held = s.held := rfl
@[simp] theorem setBank_mem (s : State) (u : Nat) (b : Bank) : (setBank s u b).mem = s.mem := rfl
@[simp] theorem setBank_hostMem (s : State) (u : Nat) (b : Bank) : (setBank s u b).hostMem = s.hostMem := rfl
@[simp] theorem setBank_units (s : State) (u : Nat) (b : Bank) : (setBank s u b).units = s.units := rfl
@[simp] theorem setBank_elems (s : State) (u : Nat) (b : Bank) : (setBank s u b).elems = s.elems := rfl
@[simp] theorem setBank_fifos (s : State) (u : Nat) (b : Bank) : (setBank s u b).fifos = s.fifos := rfl
@[simp] theorem setBank_rows (s : State) (u : Nat) (b : Bank) : (setBank s u b).rows = s.rows := rfl
@[simp] theorem setBank_claims (s : State) (u : Nat) (b : Bank) : (setBank s u b).claims = s.claims := rfl
@[simp] theorem setBank_lastFired (s : State) (u : Nat) (b : Bank) : (setBank s u b).lastFired = s.lastFired := rfl
@[simp] theorem setBank_lastIssue (s : State) (u : Nat) (b : Bank) : (setBank s u b).lastIssue = s.lastIssue := rfl
@[simp] theorem setBank_kills (s : State) (u : Nat) (b : Bank) : (setBank s u b).kills = s.kills := rfl
@[simp] theorem setBank_series (s : State) (u : Nat) (b : Bank) : (setBank s u b).series = s.series := rfl
@[simp] theorem setBank_engines (s : State) (u : Nat) (b : Bank) : (setBank s u b).engines = s.engines := rfl
@[simp] theorem setBank_nextEng (s : State) (u : Nat) (b : Bank) : (setBank s u b).nextEng = s.nextEng := rfl
@[simp] theorem setBank_episodes (s : State) (u : Nat) (b : Bank) : (setBank s u b).episodes = s.episodes := rfl
@[simp] theorem setBank_barriers (s : State) (u : Nat) (b : Bank) : (setBank s u b).barriers = s.barriers := rfl
@[simp] theorem setBank_qwaiters (s : State) (u : Nat) (b : Bank) : (setBank s u b).qwaiters = s.qwaiters := rfl
@[simp] theorem setBank_twaiters (s : State) (u : Nat) (b : Bank) : (setBank s u b).twaiters = s.twaiters := rfl
@[simp] theorem setBank_launches (s : State) (u : Nat) (b : Bank) : (setBank s u b).launches = s.launches := rfl
@[simp] theorem setBank_graphs (s : State) (u : Nat) (b : Bank) : (setBank s u b).graphs = s.graphs := rfl
@[simp] theorem setBank_jobs (s : State) (u : Nat) (b : Bank) : (setBank s u b).jobs = s.jobs := rfl
@[simp] theorem setBank_phased (s : State) (u : Nat) (b : Bank) : (setBank s u b).phased = s.phased := rfl
@[simp] theorem setBank_decls (s : State) (u : Nat) (b : Bank) : (setBank s u b).decls = s.decls := rfl
@[simp] theorem setBank_pages (s : State) (u : Nat) (b : Bank) : (setBank s u b).pages = s.pages := rfl
@[simp] theorem setBank_dies (s : State) (u : Nat) (b : Bank) : (setBank s u b).dies = s.dies := rfl
@[simp] theorem setBank_links (s : State) (u : Nat) (b : Bank) : (setBank s u b).links = s.links := rfl
@[simp] theorem setBank_endpoints (s : State) (u : Nat) (b : Bank) : (setBank s u b).endpoints = s.endpoints := rfl
@[simp] theorem setBank_frames (s : State) (u : Nat) (b : Bank) : (setBank s u b).frames = s.frames := rfl
@[simp] theorem setBank_edges (s : State) (u : Nat) (b : Bank) : (setBank s u b).edges = s.edges := rfl
@[simp] theorem setBank_arbiters (s : State) (u : Nat) (b : Bank) : (setBank s u b).arbiters = s.arbiters := rfl
@[simp] theorem setBank_replies (s : State) (u : Nat) (b : Bank) : (setBank s u b).replies = s.replies := rfl
@[simp] theorem setBank_agenda (s : State) (u : Nat) (b : Bank) : (setBank s u b).agenda = s.agenda := rfl
@[simp] theorem setBank_cur (s : State) (u : Nat) (b : Bank) : (setBank s u b).cur = s.cur := rfl
@[simp] theorem setBank_curElem (s : State) (u : Nat) (b : Bank) : (setBank s u b).curElem = s.curElem := rfl
@[simp] theorem setBank_movers (s : State) (u : Nat) (b : Bank) : (setBank s u b).movers = s.movers := rfl
@[simp] theorem setBank_fired (s : State) (u : Nat) (b : Bank) : (setBank s u b).fired = s.fired := rfl
@[simp] theorem setBank_free (s : State) (u : Nat) (b : Bank) : (setBank s u b).free = s.free := rfl

@[simp] theorem setElem_tb (s : State) (u e : Nat) (x : Elem) : (setElem s u e x).tb = s.tb := rfl
@[simp] theorem setElem_power (s : State) (u e : Nat) (x : Elem) : (setElem s u e x).power = s.power := rfl
@[simp] theorem setElem_steps (s : State) (u e : Nat) (x : Elem) : (setElem s u e x).steps = s.steps := rfl
@[simp] theorem setElem_lastStep (s : State) (u e : Nat) (x : Elem) : (setElem s u e x).lastStep = s.lastStep := rfl
@[simp] theorem setElem_thermLog (s : State) (u e : Nat) (x : Elem) : (setElem s u e x).thermLog = s.thermLog := rfl
@[simp] theorem setElem_bringUp (s : State) (u e : Nat) (x : Elem) : (setElem s u e x).bringUp = s.bringUp := rfl
@[simp] theorem setElem_failed (s : State) (u e : Nat) (x : Elem) : (setElem s u e x).failed = s.failed := rfl
@[simp] theorem setElem_held (s : State) (u e : Nat) (x : Elem) : (setElem s u e x).held = s.held := rfl
@[simp] theorem setElem_mem (s : State) (u e : Nat) (x : Elem) : (setElem s u e x).mem = s.mem := rfl
@[simp] theorem setElem_hostMem (s : State) (u e : Nat) (x : Elem) : (setElem s u e x).hostMem = s.hostMem := rfl
@[simp] theorem setElem_units (s : State) (u e : Nat) (x : Elem) : (setElem s u e x).units = s.units := rfl
@[simp] theorem setElem_banks (s : State) (u e : Nat) (x : Elem) : (setElem s u e x).banks = s.banks := rfl
@[simp] theorem setElem_fifos (s : State) (u e : Nat) (x : Elem) : (setElem s u e x).fifos = s.fifos := rfl
@[simp] theorem setElem_rows (s : State) (u e : Nat) (x : Elem) : (setElem s u e x).rows = s.rows := rfl
@[simp] theorem setElem_claims (s : State) (u e : Nat) (x : Elem) : (setElem s u e x).claims = s.claims := rfl
@[simp] theorem setElem_lastFired (s : State) (u e : Nat) (x : Elem) : (setElem s u e x).lastFired = s.lastFired := rfl
@[simp] theorem setElem_lastIssue (s : State) (u e : Nat) (x : Elem) : (setElem s u e x).lastIssue = s.lastIssue := rfl
@[simp] theorem setElem_kills (s : State) (u e : Nat) (x : Elem) : (setElem s u e x).kills = s.kills := rfl
@[simp] theorem setElem_series (s : State) (u e : Nat) (x : Elem) : (setElem s u e x).series = s.series := rfl
@[simp] theorem setElem_engines (s : State) (u e : Nat) (x : Elem) : (setElem s u e x).engines = s.engines := rfl
@[simp] theorem setElem_nextEng (s : State) (u e : Nat) (x : Elem) : (setElem s u e x).nextEng = s.nextEng := rfl
@[simp] theorem setElem_episodes (s : State) (u e : Nat) (x : Elem) : (setElem s u e x).episodes = s.episodes := rfl
@[simp] theorem setElem_barriers (s : State) (u e : Nat) (x : Elem) : (setElem s u e x).barriers = s.barriers := rfl
@[simp] theorem setElem_qwaiters (s : State) (u e : Nat) (x : Elem) : (setElem s u e x).qwaiters = s.qwaiters := rfl
@[simp] theorem setElem_twaiters (s : State) (u e : Nat) (x : Elem) : (setElem s u e x).twaiters = s.twaiters := rfl
@[simp] theorem setElem_launches (s : State) (u e : Nat) (x : Elem) : (setElem s u e x).launches = s.launches := rfl
@[simp] theorem setElem_graphs (s : State) (u e : Nat) (x : Elem) : (setElem s u e x).graphs = s.graphs := rfl
@[simp] theorem setElem_jobs (s : State) (u e : Nat) (x : Elem) : (setElem s u e x).jobs = s.jobs := rfl
@[simp] theorem setElem_phased (s : State) (u e : Nat) (x : Elem) : (setElem s u e x).phased = s.phased := rfl
@[simp] theorem setElem_decls (s : State) (u e : Nat) (x : Elem) : (setElem s u e x).decls = s.decls := rfl
@[simp] theorem setElem_pages (s : State) (u e : Nat) (x : Elem) : (setElem s u e x).pages = s.pages := rfl
@[simp] theorem setElem_dies (s : State) (u e : Nat) (x : Elem) : (setElem s u e x).dies = s.dies := rfl
@[simp] theorem setElem_links (s : State) (u e : Nat) (x : Elem) : (setElem s u e x).links = s.links := rfl
@[simp] theorem setElem_endpoints (s : State) (u e : Nat) (x : Elem) : (setElem s u e x).endpoints = s.endpoints := rfl
@[simp] theorem setElem_frames (s : State) (u e : Nat) (x : Elem) : (setElem s u e x).frames = s.frames := rfl
@[simp] theorem setElem_edges (s : State) (u e : Nat) (x : Elem) : (setElem s u e x).edges = s.edges := rfl
@[simp] theorem setElem_arbiters (s : State) (u e : Nat) (x : Elem) : (setElem s u e x).arbiters = s.arbiters := rfl
@[simp] theorem setElem_replies (s : State) (u e : Nat) (x : Elem) : (setElem s u e x).replies = s.replies := rfl
@[simp] theorem setElem_agenda (s : State) (u e : Nat) (x : Elem) : (setElem s u e x).agenda = s.agenda := rfl
@[simp] theorem setElem_cur (s : State) (u e : Nat) (x : Elem) : (setElem s u e x).cur = s.cur := rfl
@[simp] theorem setElem_curElem (s : State) (u e : Nat) (x : Elem) : (setElem s u e x).curElem = s.curElem := rfl
@[simp] theorem setElem_movers (s : State) (u e : Nat) (x : Elem) : (setElem s u e x).movers = s.movers := rfl
@[simp] theorem setElem_fired (s : State) (u e : Nat) (x : Elem) : (setElem s u e x).fired = s.fired := rfl
@[simp] theorem setElem_free (s : State) (u e : Nat) (x : Elem) : (setElem s u e x).free = s.free := rfl

@[simp] theorem setFifo_tb (s : State) (f : Nat) (x : Fifo) : (setFifo s f x).tb = s.tb := rfl
@[simp] theorem setFifo_power (s : State) (f : Nat) (x : Fifo) : (setFifo s f x).power = s.power := rfl
@[simp] theorem setFifo_steps (s : State) (f : Nat) (x : Fifo) : (setFifo s f x).steps = s.steps := rfl
@[simp] theorem setFifo_lastStep (s : State) (f : Nat) (x : Fifo) : (setFifo s f x).lastStep = s.lastStep := rfl
@[simp] theorem setFifo_thermLog (s : State) (f : Nat) (x : Fifo) : (setFifo s f x).thermLog = s.thermLog := rfl
@[simp] theorem setFifo_bringUp (s : State) (f : Nat) (x : Fifo) : (setFifo s f x).bringUp = s.bringUp := rfl
@[simp] theorem setFifo_failed (s : State) (f : Nat) (x : Fifo) : (setFifo s f x).failed = s.failed := rfl
@[simp] theorem setFifo_held (s : State) (f : Nat) (x : Fifo) : (setFifo s f x).held = s.held := rfl
@[simp] theorem setFifo_mem (s : State) (f : Nat) (x : Fifo) : (setFifo s f x).mem = s.mem := rfl
@[simp] theorem setFifo_hostMem (s : State) (f : Nat) (x : Fifo) : (setFifo s f x).hostMem = s.hostMem := rfl
@[simp] theorem setFifo_units (s : State) (f : Nat) (x : Fifo) : (setFifo s f x).units = s.units := rfl
@[simp] theorem setFifo_banks (s : State) (f : Nat) (x : Fifo) : (setFifo s f x).banks = s.banks := rfl
@[simp] theorem setFifo_elems (s : State) (f : Nat) (x : Fifo) : (setFifo s f x).elems = s.elems := rfl
@[simp] theorem setFifo_rows (s : State) (f : Nat) (x : Fifo) : (setFifo s f x).rows = s.rows := rfl
@[simp] theorem setFifo_claims (s : State) (f : Nat) (x : Fifo) : (setFifo s f x).claims = s.claims := rfl
@[simp] theorem setFifo_lastFired (s : State) (f : Nat) (x : Fifo) : (setFifo s f x).lastFired = s.lastFired := rfl
@[simp] theorem setFifo_lastIssue (s : State) (f : Nat) (x : Fifo) : (setFifo s f x).lastIssue = s.lastIssue := rfl
@[simp] theorem setFifo_kills (s : State) (f : Nat) (x : Fifo) : (setFifo s f x).kills = s.kills := rfl
@[simp] theorem setFifo_series (s : State) (f : Nat) (x : Fifo) : (setFifo s f x).series = s.series := rfl
@[simp] theorem setFifo_engines (s : State) (f : Nat) (x : Fifo) : (setFifo s f x).engines = s.engines := rfl
@[simp] theorem setFifo_nextEng (s : State) (f : Nat) (x : Fifo) : (setFifo s f x).nextEng = s.nextEng := rfl
@[simp] theorem setFifo_episodes (s : State) (f : Nat) (x : Fifo) : (setFifo s f x).episodes = s.episodes := rfl
@[simp] theorem setFifo_barriers (s : State) (f : Nat) (x : Fifo) : (setFifo s f x).barriers = s.barriers := rfl
@[simp] theorem setFifo_qwaiters (s : State) (f : Nat) (x : Fifo) : (setFifo s f x).qwaiters = s.qwaiters := rfl
@[simp] theorem setFifo_twaiters (s : State) (f : Nat) (x : Fifo) : (setFifo s f x).twaiters = s.twaiters := rfl
@[simp] theorem setFifo_launches (s : State) (f : Nat) (x : Fifo) : (setFifo s f x).launches = s.launches := rfl
@[simp] theorem setFifo_graphs (s : State) (f : Nat) (x : Fifo) : (setFifo s f x).graphs = s.graphs := rfl
@[simp] theorem setFifo_jobs (s : State) (f : Nat) (x : Fifo) : (setFifo s f x).jobs = s.jobs := rfl
@[simp] theorem setFifo_phased (s : State) (f : Nat) (x : Fifo) : (setFifo s f x).phased = s.phased := rfl
@[simp] theorem setFifo_decls (s : State) (f : Nat) (x : Fifo) : (setFifo s f x).decls = s.decls := rfl
@[simp] theorem setFifo_pages (s : State) (f : Nat) (x : Fifo) : (setFifo s f x).pages = s.pages := rfl
@[simp] theorem setFifo_dies (s : State) (f : Nat) (x : Fifo) : (setFifo s f x).dies = s.dies := rfl
@[simp] theorem setFifo_links (s : State) (f : Nat) (x : Fifo) : (setFifo s f x).links = s.links := rfl
@[simp] theorem setFifo_endpoints (s : State) (f : Nat) (x : Fifo) : (setFifo s f x).endpoints = s.endpoints := rfl
@[simp] theorem setFifo_frames (s : State) (f : Nat) (x : Fifo) : (setFifo s f x).frames = s.frames := rfl
@[simp] theorem setFifo_edges (s : State) (f : Nat) (x : Fifo) : (setFifo s f x).edges = s.edges := rfl
@[simp] theorem setFifo_arbiters (s : State) (f : Nat) (x : Fifo) : (setFifo s f x).arbiters = s.arbiters := rfl
@[simp] theorem setFifo_replies (s : State) (f : Nat) (x : Fifo) : (setFifo s f x).replies = s.replies := rfl
@[simp] theorem setFifo_agenda (s : State) (f : Nat) (x : Fifo) : (setFifo s f x).agenda = s.agenda := rfl
@[simp] theorem setFifo_cur (s : State) (f : Nat) (x : Fifo) : (setFifo s f x).cur = s.cur := rfl
@[simp] theorem setFifo_curElem (s : State) (f : Nat) (x : Fifo) : (setFifo s f x).curElem = s.curElem := rfl
@[simp] theorem setFifo_movers (s : State) (f : Nat) (x : Fifo) : (setFifo s f x).movers = s.movers := rfl
@[simp] theorem setFifo_fired (s : State) (f : Nat) (x : Fifo) : (setFifo s f x).fired = s.fired := rfl
@[simp] theorem setFifo_free (s : State) (f : Nat) (x : Fifo) : (setFifo s f x).free = s.free := rfl

@[simp] theorem setLaunch_tb (s : State) (l : Nat) (x : Launch) : (setLaunch s l x).tb = s.tb := rfl
@[simp] theorem setLaunch_power (s : State) (l : Nat) (x : Launch) : (setLaunch s l x).power = s.power := rfl
@[simp] theorem setLaunch_steps (s : State) (l : Nat) (x : Launch) : (setLaunch s l x).steps = s.steps := rfl
@[simp] theorem setLaunch_lastStep (s : State) (l : Nat) (x : Launch) : (setLaunch s l x).lastStep = s.lastStep := rfl
@[simp] theorem setLaunch_thermLog (s : State) (l : Nat) (x : Launch) : (setLaunch s l x).thermLog = s.thermLog := rfl
@[simp] theorem setLaunch_bringUp (s : State) (l : Nat) (x : Launch) : (setLaunch s l x).bringUp = s.bringUp := rfl
@[simp] theorem setLaunch_failed (s : State) (l : Nat) (x : Launch) : (setLaunch s l x).failed = s.failed := rfl
@[simp] theorem setLaunch_held (s : State) (l : Nat) (x : Launch) : (setLaunch s l x).held = s.held := rfl
@[simp] theorem setLaunch_mem (s : State) (l : Nat) (x : Launch) : (setLaunch s l x).mem = s.mem := rfl
@[simp] theorem setLaunch_hostMem (s : State) (l : Nat) (x : Launch) : (setLaunch s l x).hostMem = s.hostMem := rfl
@[simp] theorem setLaunch_units (s : State) (l : Nat) (x : Launch) : (setLaunch s l x).units = s.units := rfl
@[simp] theorem setLaunch_banks (s : State) (l : Nat) (x : Launch) : (setLaunch s l x).banks = s.banks := rfl
@[simp] theorem setLaunch_elems (s : State) (l : Nat) (x : Launch) : (setLaunch s l x).elems = s.elems := rfl
@[simp] theorem setLaunch_fifos (s : State) (l : Nat) (x : Launch) : (setLaunch s l x).fifos = s.fifos := rfl
@[simp] theorem setLaunch_rows (s : State) (l : Nat) (x : Launch) : (setLaunch s l x).rows = s.rows := rfl
@[simp] theorem setLaunch_claims (s : State) (l : Nat) (x : Launch) : (setLaunch s l x).claims = s.claims := rfl
@[simp] theorem setLaunch_lastFired (s : State) (l : Nat) (x : Launch) : (setLaunch s l x).lastFired = s.lastFired := rfl
@[simp] theorem setLaunch_lastIssue (s : State) (l : Nat) (x : Launch) : (setLaunch s l x).lastIssue = s.lastIssue := rfl
@[simp] theorem setLaunch_kills (s : State) (l : Nat) (x : Launch) : (setLaunch s l x).kills = s.kills := rfl
@[simp] theorem setLaunch_series (s : State) (l : Nat) (x : Launch) : (setLaunch s l x).series = s.series := rfl
@[simp] theorem setLaunch_engines (s : State) (l : Nat) (x : Launch) : (setLaunch s l x).engines = s.engines := rfl
@[simp] theorem setLaunch_nextEng (s : State) (l : Nat) (x : Launch) : (setLaunch s l x).nextEng = s.nextEng := rfl
@[simp] theorem setLaunch_episodes (s : State) (l : Nat) (x : Launch) : (setLaunch s l x).episodes = s.episodes := rfl
@[simp] theorem setLaunch_barriers (s : State) (l : Nat) (x : Launch) : (setLaunch s l x).barriers = s.barriers := rfl
@[simp] theorem setLaunch_qwaiters (s : State) (l : Nat) (x : Launch) : (setLaunch s l x).qwaiters = s.qwaiters := rfl
@[simp] theorem setLaunch_twaiters (s : State) (l : Nat) (x : Launch) : (setLaunch s l x).twaiters = s.twaiters := rfl
@[simp] theorem setLaunch_graphs (s : State) (l : Nat) (x : Launch) : (setLaunch s l x).graphs = s.graphs := rfl
@[simp] theorem setLaunch_jobs (s : State) (l : Nat) (x : Launch) : (setLaunch s l x).jobs = s.jobs := rfl
@[simp] theorem setLaunch_phased (s : State) (l : Nat) (x : Launch) : (setLaunch s l x).phased = s.phased := rfl
@[simp] theorem setLaunch_decls (s : State) (l : Nat) (x : Launch) : (setLaunch s l x).decls = s.decls := rfl
@[simp] theorem setLaunch_pages (s : State) (l : Nat) (x : Launch) : (setLaunch s l x).pages = s.pages := rfl
@[simp] theorem setLaunch_dies (s : State) (l : Nat) (x : Launch) : (setLaunch s l x).dies = s.dies := rfl
@[simp] theorem setLaunch_links (s : State) (l : Nat) (x : Launch) : (setLaunch s l x).links = s.links := rfl
@[simp] theorem setLaunch_endpoints (s : State) (l : Nat) (x : Launch) : (setLaunch s l x).endpoints = s.endpoints := rfl
@[simp] theorem setLaunch_frames (s : State) (l : Nat) (x : Launch) : (setLaunch s l x).frames = s.frames := rfl
@[simp] theorem setLaunch_edges (s : State) (l : Nat) (x : Launch) : (setLaunch s l x).edges = s.edges := rfl
@[simp] theorem setLaunch_arbiters (s : State) (l : Nat) (x : Launch) : (setLaunch s l x).arbiters = s.arbiters := rfl
@[simp] theorem setLaunch_replies (s : State) (l : Nat) (x : Launch) : (setLaunch s l x).replies = s.replies := rfl
@[simp] theorem setLaunch_agenda (s : State) (l : Nat) (x : Launch) : (setLaunch s l x).agenda = s.agenda := rfl
@[simp] theorem setLaunch_cur (s : State) (l : Nat) (x : Launch) : (setLaunch s l x).cur = s.cur := rfl
@[simp] theorem setLaunch_curElem (s : State) (l : Nat) (x : Launch) : (setLaunch s l x).curElem = s.curElem := rfl
@[simp] theorem setLaunch_movers (s : State) (l : Nat) (x : Launch) : (setLaunch s l x).movers = s.movers := rfl
@[simp] theorem setLaunch_fired (s : State) (l : Nat) (x : Launch) : (setLaunch s l x).fired = s.fired := rfl
@[simp] theorem setLaunch_free (s : State) (l : Nat) (x : Launch) : (setLaunch s l x).free = s.free := rfl

@[simp] theorem setPage_tb (s : State) (pg : Nat) (p : Page) : (setPage s pg p).tb = s.tb := rfl
@[simp] theorem setPage_power (s : State) (pg : Nat) (p : Page) : (setPage s pg p).power = s.power := rfl
@[simp] theorem setPage_steps (s : State) (pg : Nat) (p : Page) : (setPage s pg p).steps = s.steps := rfl
@[simp] theorem setPage_lastStep (s : State) (pg : Nat) (p : Page) : (setPage s pg p).lastStep = s.lastStep := rfl
@[simp] theorem setPage_thermLog (s : State) (pg : Nat) (p : Page) : (setPage s pg p).thermLog = s.thermLog := rfl
@[simp] theorem setPage_bringUp (s : State) (pg : Nat) (p : Page) : (setPage s pg p).bringUp = s.bringUp := rfl
@[simp] theorem setPage_failed (s : State) (pg : Nat) (p : Page) : (setPage s pg p).failed = s.failed := rfl
@[simp] theorem setPage_held (s : State) (pg : Nat) (p : Page) : (setPage s pg p).held = s.held := rfl
@[simp] theorem setPage_mem (s : State) (pg : Nat) (p : Page) : (setPage s pg p).mem = s.mem := rfl
@[simp] theorem setPage_hostMem (s : State) (pg : Nat) (p : Page) : (setPage s pg p).hostMem = s.hostMem := rfl
@[simp] theorem setPage_units (s : State) (pg : Nat) (p : Page) : (setPage s pg p).units = s.units := rfl
@[simp] theorem setPage_banks (s : State) (pg : Nat) (p : Page) : (setPage s pg p).banks = s.banks := rfl
@[simp] theorem setPage_elems (s : State) (pg : Nat) (p : Page) : (setPage s pg p).elems = s.elems := rfl
@[simp] theorem setPage_fifos (s : State) (pg : Nat) (p : Page) : (setPage s pg p).fifos = s.fifos := rfl
@[simp] theorem setPage_rows (s : State) (pg : Nat) (p : Page) : (setPage s pg p).rows = s.rows := rfl
@[simp] theorem setPage_claims (s : State) (pg : Nat) (p : Page) : (setPage s pg p).claims = s.claims := rfl
@[simp] theorem setPage_lastFired (s : State) (pg : Nat) (p : Page) : (setPage s pg p).lastFired = s.lastFired := rfl
@[simp] theorem setPage_lastIssue (s : State) (pg : Nat) (p : Page) : (setPage s pg p).lastIssue = s.lastIssue := rfl
@[simp] theorem setPage_kills (s : State) (pg : Nat) (p : Page) : (setPage s pg p).kills = s.kills := rfl
@[simp] theorem setPage_series (s : State) (pg : Nat) (p : Page) : (setPage s pg p).series = s.series := rfl
@[simp] theorem setPage_engines (s : State) (pg : Nat) (p : Page) : (setPage s pg p).engines = s.engines := rfl
@[simp] theorem setPage_nextEng (s : State) (pg : Nat) (p : Page) : (setPage s pg p).nextEng = s.nextEng := rfl
@[simp] theorem setPage_episodes (s : State) (pg : Nat) (p : Page) : (setPage s pg p).episodes = s.episodes := rfl
@[simp] theorem setPage_barriers (s : State) (pg : Nat) (p : Page) : (setPage s pg p).barriers = s.barriers := rfl
@[simp] theorem setPage_qwaiters (s : State) (pg : Nat) (p : Page) : (setPage s pg p).qwaiters = s.qwaiters := rfl
@[simp] theorem setPage_twaiters (s : State) (pg : Nat) (p : Page) : (setPage s pg p).twaiters = s.twaiters := rfl
@[simp] theorem setPage_launches (s : State) (pg : Nat) (p : Page) : (setPage s pg p).launches = s.launches := rfl
@[simp] theorem setPage_graphs (s : State) (pg : Nat) (p : Page) : (setPage s pg p).graphs = s.graphs := rfl
@[simp] theorem setPage_jobs (s : State) (pg : Nat) (p : Page) : (setPage s pg p).jobs = s.jobs := rfl
@[simp] theorem setPage_phased (s : State) (pg : Nat) (p : Page) : (setPage s pg p).phased = s.phased := rfl
@[simp] theorem setPage_decls (s : State) (pg : Nat) (p : Page) : (setPage s pg p).decls = s.decls := rfl
@[simp] theorem setPage_dies (s : State) (pg : Nat) (p : Page) : (setPage s pg p).dies = s.dies := rfl
@[simp] theorem setPage_links (s : State) (pg : Nat) (p : Page) : (setPage s pg p).links = s.links := rfl
@[simp] theorem setPage_endpoints (s : State) (pg : Nat) (p : Page) : (setPage s pg p).endpoints = s.endpoints := rfl
@[simp] theorem setPage_frames (s : State) (pg : Nat) (p : Page) : (setPage s pg p).frames = s.frames := rfl
@[simp] theorem setPage_edges (s : State) (pg : Nat) (p : Page) : (setPage s pg p).edges = s.edges := rfl
@[simp] theorem setPage_arbiters (s : State) (pg : Nat) (p : Page) : (setPage s pg p).arbiters = s.arbiters := rfl
@[simp] theorem setPage_replies (s : State) (pg : Nat) (p : Page) : (setPage s pg p).replies = s.replies := rfl
@[simp] theorem setPage_agenda (s : State) (pg : Nat) (p : Page) : (setPage s pg p).agenda = s.agenda := rfl
@[simp] theorem setPage_cur (s : State) (pg : Nat) (p : Page) : (setPage s pg p).cur = s.cur := rfl
@[simp] theorem setPage_curElem (s : State) (pg : Nat) (p : Page) : (setPage s pg p).curElem = s.curElem := rfl
@[simp] theorem setPage_movers (s : State) (pg : Nat) (p : Page) : (setPage s pg p).movers = s.movers := rfl
@[simp] theorem setPage_fired (s : State) (pg : Nat) (p : Page) : (setPage s pg p).fired = s.fired := rfl
@[simp] theorem setPage_free (s : State) (pg : Nat) (p : Page) : (setPage s pg p).free = s.free := rfl

@[simp] theorem setSeries_tb (s : State) (key : Nat) (x : Series) : (setSeries s key x).tb = s.tb := rfl
@[simp] theorem setSeries_power (s : State) (key : Nat) (x : Series) : (setSeries s key x).power = s.power := rfl
@[simp] theorem setSeries_steps (s : State) (key : Nat) (x : Series) : (setSeries s key x).steps = s.steps := rfl
@[simp] theorem setSeries_lastStep (s : State) (key : Nat) (x : Series) : (setSeries s key x).lastStep = s.lastStep := rfl
@[simp] theorem setSeries_thermLog (s : State) (key : Nat) (x : Series) : (setSeries s key x).thermLog = s.thermLog := rfl
@[simp] theorem setSeries_bringUp (s : State) (key : Nat) (x : Series) : (setSeries s key x).bringUp = s.bringUp := rfl
@[simp] theorem setSeries_failed (s : State) (key : Nat) (x : Series) : (setSeries s key x).failed = s.failed := rfl
@[simp] theorem setSeries_held (s : State) (key : Nat) (x : Series) : (setSeries s key x).held = s.held := rfl
@[simp] theorem setSeries_mem (s : State) (key : Nat) (x : Series) : (setSeries s key x).mem = s.mem := rfl
@[simp] theorem setSeries_hostMem (s : State) (key : Nat) (x : Series) : (setSeries s key x).hostMem = s.hostMem := rfl
@[simp] theorem setSeries_units (s : State) (key : Nat) (x : Series) : (setSeries s key x).units = s.units := rfl
@[simp] theorem setSeries_banks (s : State) (key : Nat) (x : Series) : (setSeries s key x).banks = s.banks := rfl
@[simp] theorem setSeries_elems (s : State) (key : Nat) (x : Series) : (setSeries s key x).elems = s.elems := rfl
@[simp] theorem setSeries_fifos (s : State) (key : Nat) (x : Series) : (setSeries s key x).fifos = s.fifos := rfl
@[simp] theorem setSeries_rows (s : State) (key : Nat) (x : Series) : (setSeries s key x).rows = s.rows := rfl
@[simp] theorem setSeries_claims (s : State) (key : Nat) (x : Series) : (setSeries s key x).claims = s.claims := rfl
@[simp] theorem setSeries_lastFired (s : State) (key : Nat) (x : Series) : (setSeries s key x).lastFired = s.lastFired := rfl
@[simp] theorem setSeries_lastIssue (s : State) (key : Nat) (x : Series) : (setSeries s key x).lastIssue = s.lastIssue := rfl
@[simp] theorem setSeries_kills (s : State) (key : Nat) (x : Series) : (setSeries s key x).kills = s.kills := rfl
@[simp] theorem setSeries_engines (s : State) (key : Nat) (x : Series) : (setSeries s key x).engines = s.engines := rfl
@[simp] theorem setSeries_nextEng (s : State) (key : Nat) (x : Series) : (setSeries s key x).nextEng = s.nextEng := rfl
@[simp] theorem setSeries_episodes (s : State) (key : Nat) (x : Series) : (setSeries s key x).episodes = s.episodes := rfl
@[simp] theorem setSeries_barriers (s : State) (key : Nat) (x : Series) : (setSeries s key x).barriers = s.barriers := rfl
@[simp] theorem setSeries_qwaiters (s : State) (key : Nat) (x : Series) : (setSeries s key x).qwaiters = s.qwaiters := rfl
@[simp] theorem setSeries_twaiters (s : State) (key : Nat) (x : Series) : (setSeries s key x).twaiters = s.twaiters := rfl
@[simp] theorem setSeries_launches (s : State) (key : Nat) (x : Series) : (setSeries s key x).launches = s.launches := rfl
@[simp] theorem setSeries_graphs (s : State) (key : Nat) (x : Series) : (setSeries s key x).graphs = s.graphs := rfl
@[simp] theorem setSeries_jobs (s : State) (key : Nat) (x : Series) : (setSeries s key x).jobs = s.jobs := rfl
@[simp] theorem setSeries_phased (s : State) (key : Nat) (x : Series) : (setSeries s key x).phased = s.phased := rfl
@[simp] theorem setSeries_decls (s : State) (key : Nat) (x : Series) : (setSeries s key x).decls = s.decls := rfl
@[simp] theorem setSeries_pages (s : State) (key : Nat) (x : Series) : (setSeries s key x).pages = s.pages := rfl
@[simp] theorem setSeries_dies (s : State) (key : Nat) (x : Series) : (setSeries s key x).dies = s.dies := rfl
@[simp] theorem setSeries_links (s : State) (key : Nat) (x : Series) : (setSeries s key x).links = s.links := rfl
@[simp] theorem setSeries_endpoints (s : State) (key : Nat) (x : Series) : (setSeries s key x).endpoints = s.endpoints := rfl
@[simp] theorem setSeries_frames (s : State) (key : Nat) (x : Series) : (setSeries s key x).frames = s.frames := rfl
@[simp] theorem setSeries_edges (s : State) (key : Nat) (x : Series) : (setSeries s key x).edges = s.edges := rfl
@[simp] theorem setSeries_arbiters (s : State) (key : Nat) (x : Series) : (setSeries s key x).arbiters = s.arbiters := rfl
@[simp] theorem setSeries_replies (s : State) (key : Nat) (x : Series) : (setSeries s key x).replies = s.replies := rfl
@[simp] theorem setSeries_agenda (s : State) (key : Nat) (x : Series) : (setSeries s key x).agenda = s.agenda := rfl
@[simp] theorem setSeries_cur (s : State) (key : Nat) (x : Series) : (setSeries s key x).cur = s.cur := rfl
@[simp] theorem setSeries_curElem (s : State) (key : Nat) (x : Series) : (setSeries s key x).curElem = s.curElem := rfl
@[simp] theorem setSeries_movers (s : State) (key : Nat) (x : Series) : (setSeries s key x).movers = s.movers := rfl
@[simp] theorem setSeries_fired (s : State) (key : Nat) (x : Series) : (setSeries s key x).fired = s.fired := rfl
@[simp] theorem setSeries_free (s : State) (key : Nat) (x : Series) : (setSeries s key x).free = s.free := rfl

@[simp] theorem setMe_tb (s : State) (x : UnitRegs) : (setMe s x).tb = s.tb := rfl
@[simp] theorem setMe_power (s : State) (x : UnitRegs) : (setMe s x).power = s.power := rfl
@[simp] theorem setMe_steps (s : State) (x : UnitRegs) : (setMe s x).steps = s.steps := rfl
@[simp] theorem setMe_lastStep (s : State) (x : UnitRegs) : (setMe s x).lastStep = s.lastStep := rfl
@[simp] theorem setMe_thermLog (s : State) (x : UnitRegs) : (setMe s x).thermLog = s.thermLog := rfl
@[simp] theorem setMe_bringUp (s : State) (x : UnitRegs) : (setMe s x).bringUp = s.bringUp := rfl
@[simp] theorem setMe_failed (s : State) (x : UnitRegs) : (setMe s x).failed = s.failed := rfl
@[simp] theorem setMe_held (s : State) (x : UnitRegs) : (setMe s x).held = s.held := rfl
@[simp] theorem setMe_mem (s : State) (x : UnitRegs) : (setMe s x).mem = s.mem := rfl
@[simp] theorem setMe_hostMem (s : State) (x : UnitRegs) : (setMe s x).hostMem = s.hostMem := rfl
@[simp] theorem setMe_banks (s : State) (x : UnitRegs) : (setMe s x).banks = s.banks := rfl
@[simp] theorem setMe_elems (s : State) (x : UnitRegs) : (setMe s x).elems = s.elems := rfl
@[simp] theorem setMe_fifos (s : State) (x : UnitRegs) : (setMe s x).fifos = s.fifos := rfl
@[simp] theorem setMe_rows (s : State) (x : UnitRegs) : (setMe s x).rows = s.rows := rfl
@[simp] theorem setMe_claims (s : State) (x : UnitRegs) : (setMe s x).claims = s.claims := rfl
@[simp] theorem setMe_lastFired (s : State) (x : UnitRegs) : (setMe s x).lastFired = s.lastFired := rfl
@[simp] theorem setMe_lastIssue (s : State) (x : UnitRegs) : (setMe s x).lastIssue = s.lastIssue := rfl
@[simp] theorem setMe_kills (s : State) (x : UnitRegs) : (setMe s x).kills = s.kills := rfl
@[simp] theorem setMe_series (s : State) (x : UnitRegs) : (setMe s x).series = s.series := rfl
@[simp] theorem setMe_engines (s : State) (x : UnitRegs) : (setMe s x).engines = s.engines := rfl
@[simp] theorem setMe_nextEng (s : State) (x : UnitRegs) : (setMe s x).nextEng = s.nextEng := rfl
@[simp] theorem setMe_episodes (s : State) (x : UnitRegs) : (setMe s x).episodes = s.episodes := rfl
@[simp] theorem setMe_barriers (s : State) (x : UnitRegs) : (setMe s x).barriers = s.barriers := rfl
@[simp] theorem setMe_qwaiters (s : State) (x : UnitRegs) : (setMe s x).qwaiters = s.qwaiters := rfl
@[simp] theorem setMe_twaiters (s : State) (x : UnitRegs) : (setMe s x).twaiters = s.twaiters := rfl
@[simp] theorem setMe_launches (s : State) (x : UnitRegs) : (setMe s x).launches = s.launches := rfl
@[simp] theorem setMe_graphs (s : State) (x : UnitRegs) : (setMe s x).graphs = s.graphs := rfl
@[simp] theorem setMe_jobs (s : State) (x : UnitRegs) : (setMe s x).jobs = s.jobs := rfl
@[simp] theorem setMe_phased (s : State) (x : UnitRegs) : (setMe s x).phased = s.phased := rfl
@[simp] theorem setMe_decls (s : State) (x : UnitRegs) : (setMe s x).decls = s.decls := rfl
@[simp] theorem setMe_pages (s : State) (x : UnitRegs) : (setMe s x).pages = s.pages := rfl
@[simp] theorem setMe_dies (s : State) (x : UnitRegs) : (setMe s x).dies = s.dies := rfl
@[simp] theorem setMe_links (s : State) (x : UnitRegs) : (setMe s x).links = s.links := rfl
@[simp] theorem setMe_endpoints (s : State) (x : UnitRegs) : (setMe s x).endpoints = s.endpoints := rfl
@[simp] theorem setMe_frames (s : State) (x : UnitRegs) : (setMe s x).frames = s.frames := rfl
@[simp] theorem setMe_edges (s : State) (x : UnitRegs) : (setMe s x).edges = s.edges := rfl
@[simp] theorem setMe_arbiters (s : State) (x : UnitRegs) : (setMe s x).arbiters = s.arbiters := rfl
@[simp] theorem setMe_replies (s : State) (x : UnitRegs) : (setMe s x).replies = s.replies := rfl
@[simp] theorem setMe_agenda (s : State) (x : UnitRegs) : (setMe s x).agenda = s.agenda := rfl
@[simp] theorem setMe_cur (s : State) (x : UnitRegs) : (setMe s x).cur = s.cur := rfl
@[simp] theorem setMe_curElem (s : State) (x : UnitRegs) : (setMe s x).curElem = s.curElem := rfl
@[simp] theorem setMe_movers (s : State) (x : UnitRegs) : (setMe s x).movers = s.movers := rfl
@[simp] theorem setMe_fired (s : State) (x : UnitRegs) : (setMe s x).fired = s.fired := rfl
@[simp] theorem setMe_free (s : State) (x : UnitRegs) : (setMe s x).free = s.free := rfl

@[simp] theorem modMe_tb (s : State) (f : UnitRegs → UnitRegs) : (modMe s f).tb = s.tb := rfl
@[simp] theorem modMe_power (s : State) (f : UnitRegs → UnitRegs) : (modMe s f).power = s.power := rfl
@[simp] theorem modMe_steps (s : State) (f : UnitRegs → UnitRegs) : (modMe s f).steps = s.steps := rfl
@[simp] theorem modMe_lastStep (s : State) (f : UnitRegs → UnitRegs) : (modMe s f).lastStep = s.lastStep := rfl
@[simp] theorem modMe_thermLog (s : State) (f : UnitRegs → UnitRegs) : (modMe s f).thermLog = s.thermLog := rfl
@[simp] theorem modMe_bringUp (s : State) (f : UnitRegs → UnitRegs) : (modMe s f).bringUp = s.bringUp := rfl
@[simp] theorem modMe_failed (s : State) (f : UnitRegs → UnitRegs) : (modMe s f).failed = s.failed := rfl
@[simp] theorem modMe_held (s : State) (f : UnitRegs → UnitRegs) : (modMe s f).held = s.held := rfl
@[simp] theorem modMe_mem (s : State) (f : UnitRegs → UnitRegs) : (modMe s f).mem = s.mem := rfl
@[simp] theorem modMe_hostMem (s : State) (f : UnitRegs → UnitRegs) : (modMe s f).hostMem = s.hostMem := rfl
@[simp] theorem modMe_banks (s : State) (f : UnitRegs → UnitRegs) : (modMe s f).banks = s.banks := rfl
@[simp] theorem modMe_elems (s : State) (f : UnitRegs → UnitRegs) : (modMe s f).elems = s.elems := rfl
@[simp] theorem modMe_fifos (s : State) (f : UnitRegs → UnitRegs) : (modMe s f).fifos = s.fifos := rfl
@[simp] theorem modMe_rows (s : State) (f : UnitRegs → UnitRegs) : (modMe s f).rows = s.rows := rfl
@[simp] theorem modMe_claims (s : State) (f : UnitRegs → UnitRegs) : (modMe s f).claims = s.claims := rfl
@[simp] theorem modMe_lastFired (s : State) (f : UnitRegs → UnitRegs) : (modMe s f).lastFired = s.lastFired := rfl
@[simp] theorem modMe_lastIssue (s : State) (f : UnitRegs → UnitRegs) : (modMe s f).lastIssue = s.lastIssue := rfl
@[simp] theorem modMe_kills (s : State) (f : UnitRegs → UnitRegs) : (modMe s f).kills = s.kills := rfl
@[simp] theorem modMe_series (s : State) (f : UnitRegs → UnitRegs) : (modMe s f).series = s.series := rfl
@[simp] theorem modMe_engines (s : State) (f : UnitRegs → UnitRegs) : (modMe s f).engines = s.engines := rfl
@[simp] theorem modMe_nextEng (s : State) (f : UnitRegs → UnitRegs) : (modMe s f).nextEng = s.nextEng := rfl
@[simp] theorem modMe_episodes (s : State) (f : UnitRegs → UnitRegs) : (modMe s f).episodes = s.episodes := rfl
@[simp] theorem modMe_barriers (s : State) (f : UnitRegs → UnitRegs) : (modMe s f).barriers = s.barriers := rfl
@[simp] theorem modMe_qwaiters (s : State) (f : UnitRegs → UnitRegs) : (modMe s f).qwaiters = s.qwaiters := rfl
@[simp] theorem modMe_twaiters (s : State) (f : UnitRegs → UnitRegs) : (modMe s f).twaiters = s.twaiters := rfl
@[simp] theorem modMe_launches (s : State) (f : UnitRegs → UnitRegs) : (modMe s f).launches = s.launches := rfl
@[simp] theorem modMe_graphs (s : State) (f : UnitRegs → UnitRegs) : (modMe s f).graphs = s.graphs := rfl
@[simp] theorem modMe_jobs (s : State) (f : UnitRegs → UnitRegs) : (modMe s f).jobs = s.jobs := rfl
@[simp] theorem modMe_phased (s : State) (f : UnitRegs → UnitRegs) : (modMe s f).phased = s.phased := rfl
@[simp] theorem modMe_decls (s : State) (f : UnitRegs → UnitRegs) : (modMe s f).decls = s.decls := rfl
@[simp] theorem modMe_pages (s : State) (f : UnitRegs → UnitRegs) : (modMe s f).pages = s.pages := rfl
@[simp] theorem modMe_dies (s : State) (f : UnitRegs → UnitRegs) : (modMe s f).dies = s.dies := rfl
@[simp] theorem modMe_links (s : State) (f : UnitRegs → UnitRegs) : (modMe s f).links = s.links := rfl
@[simp] theorem modMe_endpoints (s : State) (f : UnitRegs → UnitRegs) : (modMe s f).endpoints = s.endpoints := rfl
@[simp] theorem modMe_frames (s : State) (f : UnitRegs → UnitRegs) : (modMe s f).frames = s.frames := rfl
@[simp] theorem modMe_edges (s : State) (f : UnitRegs → UnitRegs) : (modMe s f).edges = s.edges := rfl
@[simp] theorem modMe_arbiters (s : State) (f : UnitRegs → UnitRegs) : (modMe s f).arbiters = s.arbiters := rfl
@[simp] theorem modMe_replies (s : State) (f : UnitRegs → UnitRegs) : (modMe s f).replies = s.replies := rfl
@[simp] theorem modMe_agenda (s : State) (f : UnitRegs → UnitRegs) : (modMe s f).agenda = s.agenda := rfl
@[simp] theorem modMe_cur (s : State) (f : UnitRegs → UnitRegs) : (modMe s f).cur = s.cur := rfl
@[simp] theorem modMe_curElem (s : State) (f : UnitRegs → UnitRegs) : (modMe s f).curElem = s.curElem := rfl
@[simp] theorem modMe_movers (s : State) (f : UnitRegs → UnitRegs) : (modMe s f).movers = s.movers := rfl
@[simp] theorem modMe_fired (s : State) (f : UnitRegs → UnitRegs) : (modMe s f).fired = s.fired := rfl
@[simp] theorem modMe_free (s : State) (f : UnitRegs → UnitRegs) : (modMe s f).free = s.free := rfl

@[simp] theorem setEl_tb (s : State) (x : Elem) : (setEl s x).tb = s.tb := rfl
@[simp] theorem setEl_power (s : State) (x : Elem) : (setEl s x).power = s.power := rfl
@[simp] theorem setEl_steps (s : State) (x : Elem) : (setEl s x).steps = s.steps := rfl
@[simp] theorem setEl_lastStep (s : State) (x : Elem) : (setEl s x).lastStep = s.lastStep := rfl
@[simp] theorem setEl_thermLog (s : State) (x : Elem) : (setEl s x).thermLog = s.thermLog := rfl
@[simp] theorem setEl_bringUp (s : State) (x : Elem) : (setEl s x).bringUp = s.bringUp := rfl
@[simp] theorem setEl_failed (s : State) (x : Elem) : (setEl s x).failed = s.failed := rfl
@[simp] theorem setEl_held (s : State) (x : Elem) : (setEl s x).held = s.held := rfl
@[simp] theorem setEl_mem (s : State) (x : Elem) : (setEl s x).mem = s.mem := rfl
@[simp] theorem setEl_hostMem (s : State) (x : Elem) : (setEl s x).hostMem = s.hostMem := rfl
@[simp] theorem setEl_units (s : State) (x : Elem) : (setEl s x).units = s.units := rfl
@[simp] theorem setEl_banks (s : State) (x : Elem) : (setEl s x).banks = s.banks := rfl
@[simp] theorem setEl_fifos (s : State) (x : Elem) : (setEl s x).fifos = s.fifos := rfl
@[simp] theorem setEl_rows (s : State) (x : Elem) : (setEl s x).rows = s.rows := rfl
@[simp] theorem setEl_claims (s : State) (x : Elem) : (setEl s x).claims = s.claims := rfl
@[simp] theorem setEl_lastFired (s : State) (x : Elem) : (setEl s x).lastFired = s.lastFired := rfl
@[simp] theorem setEl_lastIssue (s : State) (x : Elem) : (setEl s x).lastIssue = s.lastIssue := rfl
@[simp] theorem setEl_kills (s : State) (x : Elem) : (setEl s x).kills = s.kills := rfl
@[simp] theorem setEl_series (s : State) (x : Elem) : (setEl s x).series = s.series := rfl
@[simp] theorem setEl_engines (s : State) (x : Elem) : (setEl s x).engines = s.engines := rfl
@[simp] theorem setEl_nextEng (s : State) (x : Elem) : (setEl s x).nextEng = s.nextEng := rfl
@[simp] theorem setEl_episodes (s : State) (x : Elem) : (setEl s x).episodes = s.episodes := rfl
@[simp] theorem setEl_barriers (s : State) (x : Elem) : (setEl s x).barriers = s.barriers := rfl
@[simp] theorem setEl_qwaiters (s : State) (x : Elem) : (setEl s x).qwaiters = s.qwaiters := rfl
@[simp] theorem setEl_twaiters (s : State) (x : Elem) : (setEl s x).twaiters = s.twaiters := rfl
@[simp] theorem setEl_launches (s : State) (x : Elem) : (setEl s x).launches = s.launches := rfl
@[simp] theorem setEl_graphs (s : State) (x : Elem) : (setEl s x).graphs = s.graphs := rfl
@[simp] theorem setEl_jobs (s : State) (x : Elem) : (setEl s x).jobs = s.jobs := rfl
@[simp] theorem setEl_phased (s : State) (x : Elem) : (setEl s x).phased = s.phased := rfl
@[simp] theorem setEl_decls (s : State) (x : Elem) : (setEl s x).decls = s.decls := rfl
@[simp] theorem setEl_pages (s : State) (x : Elem) : (setEl s x).pages = s.pages := rfl
@[simp] theorem setEl_dies (s : State) (x : Elem) : (setEl s x).dies = s.dies := rfl
@[simp] theorem setEl_links (s : State) (x : Elem) : (setEl s x).links = s.links := rfl
@[simp] theorem setEl_endpoints (s : State) (x : Elem) : (setEl s x).endpoints = s.endpoints := rfl
@[simp] theorem setEl_frames (s : State) (x : Elem) : (setEl s x).frames = s.frames := rfl
@[simp] theorem setEl_edges (s : State) (x : Elem) : (setEl s x).edges = s.edges := rfl
@[simp] theorem setEl_arbiters (s : State) (x : Elem) : (setEl s x).arbiters = s.arbiters := rfl
@[simp] theorem setEl_replies (s : State) (x : Elem) : (setEl s x).replies = s.replies := rfl
@[simp] theorem setEl_agenda (s : State) (x : Elem) : (setEl s x).agenda = s.agenda := rfl
@[simp] theorem setEl_cur (s : State) (x : Elem) : (setEl s x).cur = s.cur := rfl
@[simp] theorem setEl_curElem (s : State) (x : Elem) : (setEl s x).curElem = s.curElem := rfl
@[simp] theorem setEl_movers (s : State) (x : Elem) : (setEl s x).movers = s.movers := rfl
@[simp] theorem setEl_fired (s : State) (x : Elem) : (setEl s x).fired = s.fired := rfl
@[simp] theorem setEl_free (s : State) (x : Elem) : (setEl s x).free = s.free := rfl

@[simp] theorem modEl_tb (s : State) (f : Elem → Elem) : (modEl s f).tb = s.tb := rfl
@[simp] theorem modEl_power (s : State) (f : Elem → Elem) : (modEl s f).power = s.power := rfl
@[simp] theorem modEl_steps (s : State) (f : Elem → Elem) : (modEl s f).steps = s.steps := rfl
@[simp] theorem modEl_lastStep (s : State) (f : Elem → Elem) : (modEl s f).lastStep = s.lastStep := rfl
@[simp] theorem modEl_thermLog (s : State) (f : Elem → Elem) : (modEl s f).thermLog = s.thermLog := rfl
@[simp] theorem modEl_bringUp (s : State) (f : Elem → Elem) : (modEl s f).bringUp = s.bringUp := rfl
@[simp] theorem modEl_failed (s : State) (f : Elem → Elem) : (modEl s f).failed = s.failed := rfl
@[simp] theorem modEl_held (s : State) (f : Elem → Elem) : (modEl s f).held = s.held := rfl
@[simp] theorem modEl_mem (s : State) (f : Elem → Elem) : (modEl s f).mem = s.mem := rfl
@[simp] theorem modEl_hostMem (s : State) (f : Elem → Elem) : (modEl s f).hostMem = s.hostMem := rfl
@[simp] theorem modEl_units (s : State) (f : Elem → Elem) : (modEl s f).units = s.units := rfl
@[simp] theorem modEl_banks (s : State) (f : Elem → Elem) : (modEl s f).banks = s.banks := rfl
@[simp] theorem modEl_fifos (s : State) (f : Elem → Elem) : (modEl s f).fifos = s.fifos := rfl
@[simp] theorem modEl_rows (s : State) (f : Elem → Elem) : (modEl s f).rows = s.rows := rfl
@[simp] theorem modEl_claims (s : State) (f : Elem → Elem) : (modEl s f).claims = s.claims := rfl
@[simp] theorem modEl_lastFired (s : State) (f : Elem → Elem) : (modEl s f).lastFired = s.lastFired := rfl
@[simp] theorem modEl_lastIssue (s : State) (f : Elem → Elem) : (modEl s f).lastIssue = s.lastIssue := rfl
@[simp] theorem modEl_kills (s : State) (f : Elem → Elem) : (modEl s f).kills = s.kills := rfl
@[simp] theorem modEl_series (s : State) (f : Elem → Elem) : (modEl s f).series = s.series := rfl
@[simp] theorem modEl_engines (s : State) (f : Elem → Elem) : (modEl s f).engines = s.engines := rfl
@[simp] theorem modEl_nextEng (s : State) (f : Elem → Elem) : (modEl s f).nextEng = s.nextEng := rfl
@[simp] theorem modEl_episodes (s : State) (f : Elem → Elem) : (modEl s f).episodes = s.episodes := rfl
@[simp] theorem modEl_barriers (s : State) (f : Elem → Elem) : (modEl s f).barriers = s.barriers := rfl
@[simp] theorem modEl_qwaiters (s : State) (f : Elem → Elem) : (modEl s f).qwaiters = s.qwaiters := rfl
@[simp] theorem modEl_twaiters (s : State) (f : Elem → Elem) : (modEl s f).twaiters = s.twaiters := rfl
@[simp] theorem modEl_launches (s : State) (f : Elem → Elem) : (modEl s f).launches = s.launches := rfl
@[simp] theorem modEl_graphs (s : State) (f : Elem → Elem) : (modEl s f).graphs = s.graphs := rfl
@[simp] theorem modEl_jobs (s : State) (f : Elem → Elem) : (modEl s f).jobs = s.jobs := rfl
@[simp] theorem modEl_phased (s : State) (f : Elem → Elem) : (modEl s f).phased = s.phased := rfl
@[simp] theorem modEl_decls (s : State) (f : Elem → Elem) : (modEl s f).decls = s.decls := rfl
@[simp] theorem modEl_pages (s : State) (f : Elem → Elem) : (modEl s f).pages = s.pages := rfl
@[simp] theorem modEl_dies (s : State) (f : Elem → Elem) : (modEl s f).dies = s.dies := rfl
@[simp] theorem modEl_links (s : State) (f : Elem → Elem) : (modEl s f).links = s.links := rfl
@[simp] theorem modEl_endpoints (s : State) (f : Elem → Elem) : (modEl s f).endpoints = s.endpoints := rfl
@[simp] theorem modEl_frames (s : State) (f : Elem → Elem) : (modEl s f).frames = s.frames := rfl
@[simp] theorem modEl_edges (s : State) (f : Elem → Elem) : (modEl s f).edges = s.edges := rfl
@[simp] theorem modEl_arbiters (s : State) (f : Elem → Elem) : (modEl s f).arbiters = s.arbiters := rfl
@[simp] theorem modEl_replies (s : State) (f : Elem → Elem) : (modEl s f).replies = s.replies := rfl
@[simp] theorem modEl_agenda (s : State) (f : Elem → Elem) : (modEl s f).agenda = s.agenda := rfl
@[simp] theorem modEl_cur (s : State) (f : Elem → Elem) : (modEl s f).cur = s.cur := rfl
@[simp] theorem modEl_curElem (s : State) (f : Elem → Elem) : (modEl s f).curElem = s.curElem := rfl
@[simp] theorem modEl_movers (s : State) (f : Elem → Elem) : (modEl s f).movers = s.movers := rfl
@[simp] theorem modEl_fired (s : State) (f : Elem → Elem) : (modEl s f).fired = s.fired := rfl
@[simp] theorem modEl_free (s : State) (f : Elem → Elem) : (modEl s f).free = s.free := rfl

@[simp] theorem modWk_tb (s : State) (f : Work → Work) : (modWk s f).tb = s.tb := rfl
@[simp] theorem modWk_power (s : State) (f : Work → Work) : (modWk s f).power = s.power := rfl
@[simp] theorem modWk_steps (s : State) (f : Work → Work) : (modWk s f).steps = s.steps := rfl
@[simp] theorem modWk_lastStep (s : State) (f : Work → Work) : (modWk s f).lastStep = s.lastStep := rfl
@[simp] theorem modWk_thermLog (s : State) (f : Work → Work) : (modWk s f).thermLog = s.thermLog := rfl
@[simp] theorem modWk_bringUp (s : State) (f : Work → Work) : (modWk s f).bringUp = s.bringUp := rfl
@[simp] theorem modWk_failed (s : State) (f : Work → Work) : (modWk s f).failed = s.failed := rfl
@[simp] theorem modWk_held (s : State) (f : Work → Work) : (modWk s f).held = s.held := rfl
@[simp] theorem modWk_mem (s : State) (f : Work → Work) : (modWk s f).mem = s.mem := rfl
@[simp] theorem modWk_hostMem (s : State) (f : Work → Work) : (modWk s f).hostMem = s.hostMem := rfl
@[simp] theorem modWk_units (s : State) (f : Work → Work) : (modWk s f).units = s.units := rfl
@[simp] theorem modWk_banks (s : State) (f : Work → Work) : (modWk s f).banks = s.banks := rfl
@[simp] theorem modWk_fifos (s : State) (f : Work → Work) : (modWk s f).fifos = s.fifos := rfl
@[simp] theorem modWk_rows (s : State) (f : Work → Work) : (modWk s f).rows = s.rows := rfl
@[simp] theorem modWk_claims (s : State) (f : Work → Work) : (modWk s f).claims = s.claims := rfl
@[simp] theorem modWk_lastFired (s : State) (f : Work → Work) : (modWk s f).lastFired = s.lastFired := rfl
@[simp] theorem modWk_lastIssue (s : State) (f : Work → Work) : (modWk s f).lastIssue = s.lastIssue := rfl
@[simp] theorem modWk_kills (s : State) (f : Work → Work) : (modWk s f).kills = s.kills := rfl
@[simp] theorem modWk_series (s : State) (f : Work → Work) : (modWk s f).series = s.series := rfl
@[simp] theorem modWk_engines (s : State) (f : Work → Work) : (modWk s f).engines = s.engines := rfl
@[simp] theorem modWk_nextEng (s : State) (f : Work → Work) : (modWk s f).nextEng = s.nextEng := rfl
@[simp] theorem modWk_episodes (s : State) (f : Work → Work) : (modWk s f).episodes = s.episodes := rfl
@[simp] theorem modWk_barriers (s : State) (f : Work → Work) : (modWk s f).barriers = s.barriers := rfl
@[simp] theorem modWk_qwaiters (s : State) (f : Work → Work) : (modWk s f).qwaiters = s.qwaiters := rfl
@[simp] theorem modWk_twaiters (s : State) (f : Work → Work) : (modWk s f).twaiters = s.twaiters := rfl
@[simp] theorem modWk_launches (s : State) (f : Work → Work) : (modWk s f).launches = s.launches := rfl
@[simp] theorem modWk_graphs (s : State) (f : Work → Work) : (modWk s f).graphs = s.graphs := rfl
@[simp] theorem modWk_jobs (s : State) (f : Work → Work) : (modWk s f).jobs = s.jobs := rfl
@[simp] theorem modWk_phased (s : State) (f : Work → Work) : (modWk s f).phased = s.phased := rfl
@[simp] theorem modWk_decls (s : State) (f : Work → Work) : (modWk s f).decls = s.decls := rfl
@[simp] theorem modWk_pages (s : State) (f : Work → Work) : (modWk s f).pages = s.pages := rfl
@[simp] theorem modWk_dies (s : State) (f : Work → Work) : (modWk s f).dies = s.dies := rfl
@[simp] theorem modWk_links (s : State) (f : Work → Work) : (modWk s f).links = s.links := rfl
@[simp] theorem modWk_endpoints (s : State) (f : Work → Work) : (modWk s f).endpoints = s.endpoints := rfl
@[simp] theorem modWk_frames (s : State) (f : Work → Work) : (modWk s f).frames = s.frames := rfl
@[simp] theorem modWk_edges (s : State) (f : Work → Work) : (modWk s f).edges = s.edges := rfl
@[simp] theorem modWk_arbiters (s : State) (f : Work → Work) : (modWk s f).arbiters = s.arbiters := rfl
@[simp] theorem modWk_replies (s : State) (f : Work → Work) : (modWk s f).replies = s.replies := rfl
@[simp] theorem modWk_agenda (s : State) (f : Work → Work) : (modWk s f).agenda = s.agenda := rfl
@[simp] theorem modWk_cur (s : State) (f : Work → Work) : (modWk s f).cur = s.cur := rfl
@[simp] theorem modWk_curElem (s : State) (f : Work → Work) : (modWk s f).curElem = s.curElem := rfl
@[simp] theorem modWk_movers (s : State) (f : Work → Work) : (modWk s f).movers = s.movers := rfl
@[simp] theorem modWk_fired (s : State) (f : Work → Work) : (modWk s f).fired = s.fired := rfl
@[simp] theorem modWk_free (s : State) (f : Work → Work) : (modWk s f).free = s.free := rfl

/-! ## What the readers of one table see of a writer of another -/

@[simp] theorem bankAt_setUnit (s : State) (u : Nat) (x : UnitRegs) (k : Nat) : bankAt (setUnit s u x) k = bankAt s k := rfl
@[simp] theorem elemAt_setUnit (s : State) (u : Nat) (x : UnitRegs) (k e2 : Nat) : elemAt (setUnit s u x) k e2 = elemAt s k e2 := rfl
@[simp] theorem fifoAt_setUnit (s : State) (u : Nat) (x : UnitRegs) (k : Nat) : fifoAt (setUnit s u x) k = fifoAt s k := rfl
@[simp] theorem pageAt_setUnit (s : State) (u : Nat) (x : UnitRegs) (k : Nat) : pageAt (setUnit s u x) k = pageAt s k := rfl
@[simp] theorem seriesAt_setUnit (s : State) (u : Nat) (x : UnitRegs) (k : Nat) : seriesAt (setUnit s u x) k = seriesAt s k := rfl
@[simp] theorem launchAt_setUnit (s : State) (u : Nat) (x : UnitRegs) (k : Nat) : launchAt (setUnit s u x) k = launchAt s k := rfl

@[simp] theorem unitAt_setBank (s : State) (u : Nat) (b : Bank) (k : Nat) : unitAt (setBank s u b) k = unitAt s k := rfl
@[simp] theorem elemAt_setBank (s : State) (u : Nat) (b : Bank) (k e2 : Nat) : elemAt (setBank s u b) k e2 = elemAt s k e2 := rfl
@[simp] theorem fifoAt_setBank (s : State) (u : Nat) (b : Bank) (k : Nat) : fifoAt (setBank s u b) k = fifoAt s k := rfl
@[simp] theorem pageAt_setBank (s : State) (u : Nat) (b : Bank) (k : Nat) : pageAt (setBank s u b) k = pageAt s k := rfl
@[simp] theorem seriesAt_setBank (s : State) (u : Nat) (b : Bank) (k : Nat) : seriesAt (setBank s u b) k = seriesAt s k := rfl
@[simp] theorem launchAt_setBank (s : State) (u : Nat) (b : Bank) (k : Nat) : launchAt (setBank s u b) k = launchAt s k := rfl
@[simp] theorem me_setBank (s : State) (u : Nat) (b : Bank) : me (setBank s u b) = me s := rfl

@[simp] theorem unitAt_setElem (s : State) (u e : Nat) (x : Elem) (k : Nat) : unitAt (setElem s u e x) k = unitAt s k := rfl
@[simp] theorem bankAt_setElem (s : State) (u e : Nat) (x : Elem) (k : Nat) : bankAt (setElem s u e x) k = bankAt s k := rfl
@[simp] theorem fifoAt_setElem (s : State) (u e : Nat) (x : Elem) (k : Nat) : fifoAt (setElem s u e x) k = fifoAt s k := rfl
@[simp] theorem pageAt_setElem (s : State) (u e : Nat) (x : Elem) (k : Nat) : pageAt (setElem s u e x) k = pageAt s k := rfl
@[simp] theorem seriesAt_setElem (s : State) (u e : Nat) (x : Elem) (k : Nat) : seriesAt (setElem s u e x) k = seriesAt s k := rfl
@[simp] theorem launchAt_setElem (s : State) (u e : Nat) (x : Elem) (k : Nat) : launchAt (setElem s u e x) k = launchAt s k := rfl
@[simp] theorem me_setElem (s : State) (u e : Nat) (x : Elem) : me (setElem s u e x) = me s := rfl

@[simp] theorem unitAt_setFifo (s : State) (f : Nat) (x : Fifo) (k : Nat) : unitAt (setFifo s f x) k = unitAt s k := rfl
@[simp] theorem bankAt_setFifo (s : State) (f : Nat) (x : Fifo) (k : Nat) : bankAt (setFifo s f x) k = bankAt s k := rfl
@[simp] theorem elemAt_setFifo (s : State) (f : Nat) (x : Fifo) (k e2 : Nat) : elemAt (setFifo s f x) k e2 = elemAt s k e2 := rfl
@[simp] theorem pageAt_setFifo (s : State) (f : Nat) (x : Fifo) (k : Nat) : pageAt (setFifo s f x) k = pageAt s k := rfl
@[simp] theorem seriesAt_setFifo (s : State) (f : Nat) (x : Fifo) (k : Nat) : seriesAt (setFifo s f x) k = seriesAt s k := rfl
@[simp] theorem launchAt_setFifo (s : State) (f : Nat) (x : Fifo) (k : Nat) : launchAt (setFifo s f x) k = launchAt s k := rfl
@[simp] theorem me_setFifo (s : State) (f : Nat) (x : Fifo) : me (setFifo s f x) = me s := rfl

@[simp] theorem unitAt_setLaunch (s : State) (l : Nat) (x : Launch) (k : Nat) : unitAt (setLaunch s l x) k = unitAt s k := rfl
@[simp] theorem bankAt_setLaunch (s : State) (l : Nat) (x : Launch) (k : Nat) : bankAt (setLaunch s l x) k = bankAt s k := rfl
@[simp] theorem elemAt_setLaunch (s : State) (l : Nat) (x : Launch) (k e2 : Nat) : elemAt (setLaunch s l x) k e2 = elemAt s k e2 := rfl
@[simp] theorem fifoAt_setLaunch (s : State) (l : Nat) (x : Launch) (k : Nat) : fifoAt (setLaunch s l x) k = fifoAt s k := rfl
@[simp] theorem pageAt_setLaunch (s : State) (l : Nat) (x : Launch) (k : Nat) : pageAt (setLaunch s l x) k = pageAt s k := rfl
@[simp] theorem seriesAt_setLaunch (s : State) (l : Nat) (x : Launch) (k : Nat) : seriesAt (setLaunch s l x) k = seriesAt s k := rfl
@[simp] theorem me_setLaunch (s : State) (l : Nat) (x : Launch) : me (setLaunch s l x) = me s := rfl

@[simp] theorem unitAt_setPage (s : State) (pg : Nat) (p : Page) (k : Nat) : unitAt (setPage s pg p) k = unitAt s k := rfl
@[simp] theorem bankAt_setPage (s : State) (pg : Nat) (p : Page) (k : Nat) : bankAt (setPage s pg p) k = bankAt s k := rfl
@[simp] theorem elemAt_setPage (s : State) (pg : Nat) (p : Page) (k e2 : Nat) : elemAt (setPage s pg p) k e2 = elemAt s k e2 := rfl
@[simp] theorem fifoAt_setPage (s : State) (pg : Nat) (p : Page) (k : Nat) : fifoAt (setPage s pg p) k = fifoAt s k := rfl
@[simp] theorem seriesAt_setPage (s : State) (pg : Nat) (p : Page) (k : Nat) : seriesAt (setPage s pg p) k = seriesAt s k := rfl
@[simp] theorem launchAt_setPage (s : State) (pg : Nat) (p : Page) (k : Nat) : launchAt (setPage s pg p) k = launchAt s k := rfl
@[simp] theorem me_setPage (s : State) (pg : Nat) (p : Page) : me (setPage s pg p) = me s := rfl

@[simp] theorem unitAt_setSeries (s : State) (key : Nat) (x : Series) (k : Nat) : unitAt (setSeries s key x) k = unitAt s k := rfl
@[simp] theorem bankAt_setSeries (s : State) (key : Nat) (x : Series) (k : Nat) : bankAt (setSeries s key x) k = bankAt s k := rfl
@[simp] theorem elemAt_setSeries (s : State) (key : Nat) (x : Series) (k e2 : Nat) : elemAt (setSeries s key x) k e2 = elemAt s k e2 := rfl
@[simp] theorem fifoAt_setSeries (s : State) (key : Nat) (x : Series) (k : Nat) : fifoAt (setSeries s key x) k = fifoAt s k := rfl
@[simp] theorem pageAt_setSeries (s : State) (key : Nat) (x : Series) (k : Nat) : pageAt (setSeries s key x) k = pageAt s k := rfl
@[simp] theorem launchAt_setSeries (s : State) (key : Nat) (x : Series) (k : Nat) : launchAt (setSeries s key x) k = launchAt s k := rfl
@[simp] theorem me_setSeries (s : State) (key : Nat) (x : Series) : me (setSeries s key x) = me s := rfl

@[simp] theorem bankAt_setMe (s : State) (x : UnitRegs) (k : Nat) : bankAt (setMe s x) k = bankAt s k := rfl
@[simp] theorem elemAt_setMe (s : State) (x : UnitRegs) (k e2 : Nat) : elemAt (setMe s x) k e2 = elemAt s k e2 := rfl
@[simp] theorem fifoAt_setMe (s : State) (x : UnitRegs) (k : Nat) : fifoAt (setMe s x) k = fifoAt s k := rfl
@[simp] theorem pageAt_setMe (s : State) (x : UnitRegs) (k : Nat) : pageAt (setMe s x) k = pageAt s k := rfl
@[simp] theorem seriesAt_setMe (s : State) (x : UnitRegs) (k : Nat) : seriesAt (setMe s x) k = seriesAt s k := rfl
@[simp] theorem launchAt_setMe (s : State) (x : UnitRegs) (k : Nat) : launchAt (setMe s x) k = launchAt s k := rfl

@[simp] theorem bankAt_modMe (s : State) (f : UnitRegs → UnitRegs) (k : Nat) : bankAt (modMe s f) k = bankAt s k := rfl
@[simp] theorem elemAt_modMe (s : State) (f : UnitRegs → UnitRegs) (k e2 : Nat) : elemAt (modMe s f) k e2 = elemAt s k e2 := rfl
@[simp] theorem fifoAt_modMe (s : State) (f : UnitRegs → UnitRegs) (k : Nat) : fifoAt (modMe s f) k = fifoAt s k := rfl
@[simp] theorem pageAt_modMe (s : State) (f : UnitRegs → UnitRegs) (k : Nat) : pageAt (modMe s f) k = pageAt s k := rfl
@[simp] theorem seriesAt_modMe (s : State) (f : UnitRegs → UnitRegs) (k : Nat) : seriesAt (modMe s f) k = seriesAt s k := rfl
@[simp] theorem launchAt_modMe (s : State) (f : UnitRegs → UnitRegs) (k : Nat) : launchAt (modMe s f) k = launchAt s k := rfl

@[simp] theorem unitAt_setEl (s : State) (x : Elem) (k : Nat) : unitAt (setEl s x) k = unitAt s k := rfl
@[simp] theorem bankAt_setEl (s : State) (x : Elem) (k : Nat) : bankAt (setEl s x) k = bankAt s k := rfl
@[simp] theorem fifoAt_setEl (s : State) (x : Elem) (k : Nat) : fifoAt (setEl s x) k = fifoAt s k := rfl
@[simp] theorem pageAt_setEl (s : State) (x : Elem) (k : Nat) : pageAt (setEl s x) k = pageAt s k := rfl
@[simp] theorem seriesAt_setEl (s : State) (x : Elem) (k : Nat) : seriesAt (setEl s x) k = seriesAt s k := rfl
@[simp] theorem launchAt_setEl (s : State) (x : Elem) (k : Nat) : launchAt (setEl s x) k = launchAt s k := rfl
@[simp] theorem me_setEl (s : State) (x : Elem) : me (setEl s x) = me s := rfl

@[simp] theorem unitAt_modEl (s : State) (f : Elem → Elem) (k : Nat) : unitAt (modEl s f) k = unitAt s k := rfl
@[simp] theorem bankAt_modEl (s : State) (f : Elem → Elem) (k : Nat) : bankAt (modEl s f) k = bankAt s k := rfl
@[simp] theorem fifoAt_modEl (s : State) (f : Elem → Elem) (k : Nat) : fifoAt (modEl s f) k = fifoAt s k := rfl
@[simp] theorem pageAt_modEl (s : State) (f : Elem → Elem) (k : Nat) : pageAt (modEl s f) k = pageAt s k := rfl
@[simp] theorem seriesAt_modEl (s : State) (f : Elem → Elem) (k : Nat) : seriesAt (modEl s f) k = seriesAt s k := rfl
@[simp] theorem launchAt_modEl (s : State) (f : Elem → Elem) (k : Nat) : launchAt (modEl s f) k = launchAt s k := rfl
@[simp] theorem me_modEl (s : State) (f : Elem → Elem) : me (modEl s f) = me s := rfl

@[simp] theorem unitAt_modWk (s : State) (f : Work → Work) (k : Nat) : unitAt (modWk s f) k = unitAt s k := rfl
@[simp] theorem bankAt_modWk (s : State) (f : Work → Work) (k : Nat) : bankAt (modWk s f) k = bankAt s k := rfl
@[simp] theorem fifoAt_modWk (s : State) (f : Work → Work) (k : Nat) : fifoAt (modWk s f) k = fifoAt s k := rfl
@[simp] theorem pageAt_modWk (s : State) (f : Work → Work) (k : Nat) : pageAt (modWk s f) k = pageAt s k := rfl
@[simp] theorem seriesAt_modWk (s : State) (f : Work → Work) (k : Nat) : seriesAt (modWk s f) k = seriesAt s k := rfl
@[simp] theorem launchAt_modWk (s : State) (f : Work → Work) (k : Nat) : launchAt (modWk s f) k = launchAt s k := rfl
@[simp] theorem me_modWk (s : State) (f : Work → Work) : me (modWk s f) = me s := rfl

/-! ## What a writer's own reader sees -/

@[simp] theorem unitAt_setUnit (s : State) (u : Nat) (x : UnitRegs) : unitAt (setUnit s u x) u = x := by
  simp [unitAt, setUnit]
theorem unitAt_setUnit_ne (s : State) (u k : Nat) (x : UnitRegs) (h : k ≠ u) : unitAt (setUnit s u x) k = unitAt s k := by
  simp [unitAt, setUnit, mget_mset_ne _ _ _ _ h]
@[simp] theorem me_setMe (s : State) (x : UnitRegs) : me (setMe s x) = x := by simp [me, setMe]
@[simp] theorem me_modMe (s : State) (f : UnitRegs → UnitRegs) : me (modMe s f) = f (me s) := by
  simp [modMe]
theorem unitAt_setMe_ne (s : State) (k : Nat) (x : UnitRegs) (h : k ≠ s.cur) : unitAt (setMe s x) k = unitAt s k :=
  unitAt_setUnit_ne s s.cur k x h
theorem unitAt_modMe_ne (s : State) (k : Nat) (f : UnitRegs → UnitRegs) (h : k ≠ s.cur) :
    unitAt (modMe s f) k = unitAt s k := unitAt_setMe_ne s k _ h
@[simp] theorem setUnit_setUnit (s : State) (u : Nat) (x y : UnitRegs) : setUnit (setUnit s u x) u y = setUnit s u y := by
  simp [setUnit]
@[simp] theorem setMe_setMe (s : State) (x y : UnitRegs) : setMe (setMe s x) y = setMe s y := by
  simp [setMe]
@[simp] theorem modMe_modMe (s : State) (f g : UnitRegs → UnitRegs) : modMe (modMe s f) g = modMe s fun x => g (f x) := by
  simp [modMe]
@[simp] theorem modMe_setMe (s : State) (x : UnitRegs) (g : UnitRegs → UnitRegs) : modMe (setMe s x) g = setMe s (g x) := by
  simp [modMe]
@[simp] theorem bankAt_setBank (s : State) (u : Nat) (b : Bank) : bankAt (setBank s u b) u = b := by
  simp [bankAt, setBank]
theorem bankAt_setBank_ne (s : State) (u k : Nat) (b : Bank) (h : k ≠ u) : bankAt (setBank s u b) k = bankAt s k := by
  simp [bankAt, setBank, mget_mset_ne _ _ _ _ h]
@[simp] theorem elemAt_setElem (s : State) (u e : Nat) (x : Elem) : elemAt (setElem s u e x) u e = x := by
  simp [elemAt, setElem]
theorem elemAt_setElem_ne (s : State) (u e u' e' : Nat) (x : Elem) (h : 32 * u' + e' ≠ 32 * u + e) :
    elemAt (setElem s u e x) u' e' = elemAt s u' e' := by
  simp [elemAt, setElem, mget_mset_ne _ _ _ _ h]
@[simp] theorem setElem_setElem (s : State) (u e : Nat) (x y : Elem) : setElem (setElem s u e x) u e y = setElem s u e y := by
  simp [setElem]
@[simp] theorem el_setEl (s : State) (x : Elem) : el (setEl s x) = x := by simp [el, setEl]
@[simp] theorem el_modEl (s : State) (f : Elem → Elem) : el (modEl s f) = f (el s) := by simp [modEl]
@[simp] theorem wk_modWk (s : State) (f : Work → Work) : wk (modWk s f) = f (wk s) := by simp [modWk, wk]
@[simp] theorem fifoAt_setFifo (s : State) (f : Nat) (x : Fifo) : fifoAt (setFifo s f x) f = x := by
  simp [fifoAt, setFifo]
theorem fifoAt_setFifo_ne (s : State) (f k : Nat) (x : Fifo) (h : k ≠ f) : fifoAt (setFifo s f x) k = fifoAt s k := by
  simp [fifoAt, setFifo, mget_mset_ne _ _ _ _ h]
@[simp] theorem pageAt_setPage (s : State) (pg : Nat) (p : Page) : pageAt (setPage s pg p) pg = p := by
  simp [pageAt, setPage]
theorem pageAt_setPage_ne (s : State) (pg k : Nat) (p : Page) (h : k ≠ pg) : pageAt (setPage s pg p) k = pageAt s k := by
  simp [pageAt, setPage, mget_mset_ne _ _ _ _ h]
@[simp] theorem seriesAt_setSeries (s : State) (key : Nat) (x : Series) : seriesAt (setSeries s key x) key = x := by
  simp [seriesAt, setSeries]
@[simp] theorem launchAt_setLaunch (s : State) (l : Nat) (x : Launch) : launchAt (setLaunch s l x) l = some x := by
  simp [launchAt, setLaunch]

end Sys2Proof.Machine
end

