-- ==== Sys2Proof/Safety.lean ====
section
/-!
DEFINITION. What a safe step is: it answers a next state.
-/

namespace Sys2Proof

/-- A step from a state is safe when it is neither a fault nor a refusal. -/
def SafeStep (s : Machine.State) : Prop := ∃ t, Machine.step s = .next t

end Sys2Proof
end

