-- ==== Sys2Proof/Certificates/Slice0/Obligations.lean ====
section
/-!
DEFINITION. The statements for the provers, each from the rules that its docstring names.
-/

/-! ## What the statements speak of -/

namespace Sys2Proof.Claims

open Sys2Proof Sys2Proof.Machine

/-- The checks of R13 pass for a C-word: its fields lie in their ranges, its unit may run it, and its operands are of
their kinds. -/
abbrev Legal (i : Instr) (s : State) : Prop :=
  fieldsOk i = true ∧ (privileged i = true → modeM (me s) = true) ∧ operandsOk i = true

/-- The state with the issuing unit's registers replaced, its C-word complete and its PC moved. -/
def goesOn (s : State) (x : UnitRegs) (pc : Word) : State := setMe s (goOn x pc)

/-- The state with the issuing unit's registers replaced, its C-word complete and its PC at the next word. -/
def nextWord (s : State) (x : UnitRegs) : State := goesOn s x ((me s).pc + 4#64)

/-- The smaller of two words in an order, or the larger. -/
def pick (b : Bool) (x y : Word) : Word := if b then x else y

/-- What R58 to R63 and R67 write: the destination and the value. -/
def valueResult (x : UnitRegs) (i : Instr) : Option (BitVec 7 × Word) :=
  let v := readVal x
  match i with
  | .add d a b => some (d, v a + v b)
  | .sub d a b => some (d, v a - v b)
  | .mul d a b => some (d, v a * v b)
  | .mulh d a b => some (d, BitVec.ofInt 64 ((v a).toInt * (v b).toInt / 2 ^ 64))
  | .mulhn d a b => some (d, BitVec.ofNat 64 ((v a).toNat * (v b).toNat / 2 ^ 64))
  | .div d a b => some (d, if v b = 0#64 then BitVec.allOnes 64 else (v a).sdiv (v b))
  | .divn d a b => some (d, if v b = 0#64 then BitVec.allOnes 64 else v a / v b)
  | .rem d a b => some (d, if v b = 0#64 then v a else (v a).srem (v b))
  | .remn d a b => some (d, if v b = 0#64 then v a else v a % v b)
  | .and d a b => some (d, v a &&& v b)
  | .or d a b => some (d, v a ||| v b)
  | .xor d a b => some (d, v a ^^^ v b)
  | .andn d a b => some (d, v a &&& ~~~(v b))
  | .shl d a b => some (d, v a <<< ((v b).toNat % 64))
  | .shr d a b => some (d, v a >>> ((v b).toNat % 64))
  | .sar d a b => some (d, (v a).sshiftRight ((v b).toNat % 64))
  | .rotl d a b => some (d, (v a).rotateLeft ((v b).toNat % 64))
  | .min d a b => some (d, pick ((v a).sle (v b)) (v a) (v b))
  | .max d a b => some (d, pick ((v b).sle (v a)) (v a) (v b))
  | .minn d a b => some (d, pick ((v a).ule (v b)) (v a) (v b))
  | .maxn d a b => some (d, pick ((v b).ule (v a)) (v a) (v b))
  | .clz d a => some (d, (v a).clz)
  | .ctz d a => some (d, (v a).ctz)
  | .popc d a => some (d, (v a).cpop)
  | .sext d a b => some (d, ((v a).setWidth ((v b).toNat % 64 + 1)).signExtend 64)
  | .zext d a b => some (d, ((v a).setWidth ((v b).toNat % 64 + 1)).setWidth 64)
  | .movx d a => some (d, v a)
  | .addi d a m => some (d, v a + m.signExtend 64)
  | .andi d a m => some (d, v a &&& m.signExtend 64)
  | .ori d a m => some (d, v a ||| m.signExtend 64)
  | .xori d a m => some (d, v a ^^^ m.signExtend 64)
  | .shli d a m => some (d, v a <<< m.toNat)
  | .shri d a m => some (d, v a >>> m.toNat)
  | .sari d a m => some (d, (v a).sshiftRight m.toNat)
  | .muli d a m => some (d, v a * m.signExtend 64)
  | .li d m => some (d, m.signExtend 64)
  | .lpc d m => some (d, x.pc + 4#64 * m.signExtend 64)
  | .sel d a b p => some (d, if predNum x p then v a else v b)
  | _ => none

/-- What R64 to R66 write: the predicate destination and the value. -/
def predResult (x : UnitRegs) (i : Instr) : Option (BitVec 7 × Bool) :=
  let v := readVal x
  let q := readPred x
  match i with
  | .cmpeq d a b => some (d, v a == v b)
  | .cmpne d a b => some (d, v a != v b)
  | .cmplt d a b => some (d, decide ((v a).toInt < (v b).toInt))
  | .cmple d a b => some (d, decide ((v a).toInt ≤ (v b).toInt))
  | .cmpltn d a b => some (d, decide ((v a).toNat < (v b).toNat))
  | .cmplen d a b => some (d, decide ((v a).toNat ≤ (v b).toNat))
  | .cmptst d a b => some (d, v a &&& v b != 0#64)
  | .cmpeqi d a m => some (d, v a == m.signExtend 64)
  | .cmplti d a m => some (d, decide ((v a).toInt < (m.signExtend 64).toInt))
  | .cmpltni d a m => some (d, decide ((v a).toNat < (m.signExtend 64).toNat))
  | .pand d a b => some (d, q a && q b)
  | .por d a b => some (d, q a || q b)
  | .pxor d a b => some (d, q a != q b)
  | .pandn d a b => some (d, q a && !q b)
  | .pnot d a => some (d, !q a)
  | .pmov d a => some (d, q a)
  | .pset d a => some (d, v a != 0#64)
  | _ => none

/-- Where a branch or a jump goes (R69 to R73), with the register that it writes. -/
def flowResult (x : UnitRegs) (i : Instr) : Option (Option (BitVec 7 × Word) × Word) :=
  let v := readVal x
  let next := x.pc + 4#64
  let far := fun (o : Word) => x.pc + 4#64 * o
  match i with
  | .b o => some (none, far (o.signExtend 64))
  | .bp p o => some (none, if predNum x p then far (o.signExtend 64) else next)
  | .bnp p o => some (none, if predNum x p then next else far (o.signExtend 64))
  | .bz a n o => some (none, if (v a = 0#64) ↔ (n = 0#1) then far (o.signExtend 64) else next)
  | .bnz a n o => some (none, if (v a = 0#64) ↔ (n = 0#1) then next else far (o.signExtend 64))
  | .loop d m => some (some (d, v d - 1#64), if v d = 1#64 then next else far (m.signExtend 64))
  | .call o => some (some (0x3E#7, next), far (o.signExtend 64))
  | .jr a => some (none, v a)
  | .jalr d a => some (some (d, next), v a)
  | .ret => some (none, v 0x3E#7)
  | _ => none

/-- The registers with a value destination written, where there is one. -/
def writeOpt (x : UnitRegs) : Option (BitVec 7 × Word) → UnitRegs
  | some p => writeVal x p.1 p.2
  | none => x

/-- The result of a scalar floating-point C-word (R76 to R82): a value or a predicate, with the exceptions that it raises. -/
def floatResult (x : UnitRegs) (i : Instr) : Option ((BitVec 7 × Word ⊕ BitVec 7 × Bool) × BitVec 5) :=
  let v := fun c => (readVal x c).toNat
  let r := regFRM x
  let val := fun (d : BitVec 7) (z : Nat × BitVec 5) => some (Sum.inl (d, BitVec.ofNat 64 z.1), z.2)
  let cmp := fun (d : BitVec 7) (z : Bool × BitVec 5) => some (Sum.inr (d, z.1), z.2)
  match i with
  | .fadd d a b => val d (fpAdd binary64 r (v a) (v b))
  | .fsub d a b => val d (fpSub binary64 r (v a) (v b))
  | .fmul d a b => val d (fpMul binary64 r (v a) (v b))
  | .fdiv d a b => val d (fpDiv binary64 r (v a) (v b))
  | .fsqrt d a => val d (fpSqrt binary64 r (v a))
  | .fmin d a b => val d (fpMinMax binary64 false (v a) (v b))
  | .fmax d a b => val d (fpMinMax binary64 true (v a) (v b))
  | .fabs d a => some (.inl (d, readVal x a &&& 0x7FFFFFFFFFFFFFFF#64), 0#5)
  | .fneg d a => some (.inl (d, readVal x a ^^^ 0x8000000000000000#64), 0#5)
  | .fcmpeq d a b => cmp d (fpCmp binary64 .eq (v a) (v b))
  | .fcmplt d a b => cmp d (fpCmp binary64 .lt (v a) (v b))
  | .fcmple d a b => cmp d (fpCmp binary64 .le (v a) (v b))
  | .fcvtif d a => val d (intToFp binary64 r (readVal x a).toInt)
  | .fcvtfi d a =>
    let z := fpToInt binary64 r (-2 ^ 63) (2 ^ 63 - 1) (v a)
    some (.inl (d, BitVec.ofInt 64 z.1), z.2)
  | .fcvtsd d a => val d (fpConv binary32 binary64 r false (v a % 2 ^ 32))
  | .fcvtds d a => val d (fpConv binary64 binary32 r false (v a))
  | .fclass d a => val d (fpClass binary64 (v a), 0#5)
  | .ffma d a b => val d (fpFma binary64 r (v a) (v b) (v d))
  | .ffms d a b => val d (fpFms binary64 r (v a) (v b) (v d))
  | _ => none

/-- The registers with a value or a predicate destination written. -/
def writeEither (x : UnitRegs) : BitVec 7 × Word ⊕ BitVec 7 × Bool → UnitRegs
  | .inl p => writeVal x p.1 p.2
  | .inr p => writePred x p.1 p.2

end Sys2Proof.Claims

open Sys2Proof Sys2Proof.Machine Sys2Proof.Claims

/-! ## Arithmetic, compares, control transfer and floating point (03_unit_instructions_compute.md) -/

/-- R58, R60 to R63, R67: every legal integer, logic, immediate, constant and selection C-word completes, and the next state
is that of its one value destination written with the value of the rule, and the PC at the next word. -/
def Sys2Proof.Claims.IntegerWordsRule : Prop :=
  ∀ (s : State) (i : Instr) (d : BitVec 7) (v : Word),
    valueResult (me s) i = some (d, v) → Legal i s → exec i s = .next (nextWord s (writeVal (me s) d v))

/-- R59: DIV, DIVN, REM and REMN of a zero divisor and of the one signed overflow. -/
def Sys2Proof.Claims.DivisionCornersRule : Prop :=
  ∀ (s : State) (d a b : BitVec 7),
    (readVal (me s) b = 0#64 → Legal (.div d a b) s →
      exec (.div d a b) s = .next (nextWord s (writeVal (me s) d 0xFFFFFFFFFFFFFFFF#64)) ∧
      exec (.divn d a b) s = .next (nextWord s (writeVal (me s) d 0xFFFFFFFFFFFFFFFF#64)) ∧
      exec (.rem d a b) s = .next (nextWord s (writeVal (me s) d (readVal (me s) a))) ∧
      exec (.remn d a b) s = .next (nextWord s (writeVal (me s) d (readVal (me s) a)))) ∧
    (readVal (me s) a = 0x8000000000000000#64 → readVal (me s) b = 0xFFFFFFFFFFFFFFFF#64 → Legal (.div d a b) s →
      exec (.div d a b) s = .next (nextWord s (writeVal (me s) d 0x8000000000000000#64)) ∧
      exec (.rem d a b) s = .next (nextWord s (writeVal (me s) d 0#64)))

/-- R64 to R66: every legal compare and predicate C-word completes, and writes its predicate destination alone. -/
def Sys2Proof.Claims.PredicateWordsRule : Prop :=
  ∀ (s : State) (i : Instr) (d : BitVec 7) (v : Bool),
    predResult (me s) i = some (d, v) → Legal i s → exec i s = .next (nextWord s (writePred (me s) d v))

/-- R69 to R73: every legal branch, LOOP, CALL, JR, JALR and RET whose target is a multiple of 4 goes to its target, or
to the next word, and writes its register. -/
def Sys2Proof.Claims.ControlTransfersRule : Prop :=
  ∀ (s : State) (i : Instr) (w : Option (BitVec 7 × Word)) (t : Word),
    flowResult (me s) i = some (w, t) → Legal i s → t.toNat % 4 = 0 →
      exec i s = .next (goesOn s (writeOpt (me s) w) t)

/-- R73: JR, JALR and RET to a target whose low two bits are not both zero raise cause 0x04 with DETAIL 4 and TRAPVAL the
target, and write nothing. -/
def Sys2Proof.Claims.JumpMisalignedRule : Prop :=
  ∀ (s : State) (d a : BitVec 7),
    (Legal (.jr a) s → (readVal (me s) a).toNat % 4 ≠ 0 →
      exec (.jr a) s = .next (raise (burn s) s.cur 4#8 4#8 (readVal (me s) a) (me s).pc)) ∧
    (Legal (.jalr d a) s → (readVal (me s) a).toNat % 4 ≠ 0 →
      exec (.jalr d a) s = .next (raise (burn s) s.cur 4#8 4#8 (readVal (me s) a) (me s).pc)) ∧
    ((readVal (me s) 0x3E#7).toNat % 4 ≠ 0 →
      exec .ret s = .next (raise (burn s) s.cur 4#8 4#8 (readVal (me s) 0x3E#7) (me s).pc))

/-- R75 to R82: every legal scalar floating-point C-word whose exceptions are not enabled completes: the exceptions are
ORed into FPFLAGS and the destination is written. -/
def Sys2Proof.Claims.FloatingWordsRule : Prop :=
  ∀ (s : State) (i : Instr) (w : BitVec 7 × Word ⊕ BitVec 7 × Bool) (e : BitVec 5),
    floatResult (me s) i = some (w, e) → Legal i s → e &&& statusFPTE (me s) = 0#5 →
      exec i s = .next (nextWord s (writeEither (mergeFlags (me s) e) w))

/-- R75: with an exception that FPTE enables, the C-word raises cause 0x12 with the exceptions as DETAIL; FPFLAGS has them
merged, and the destination is not written. -/
def Sys2Proof.Claims.FloatingTrapsRule : Prop :=
  ∀ (s : State) (i : Instr) (w : BitVec 7 × Word ⊕ BitVec 7 × Bool) (e : BitVec 5),
    floatResult (me s) i = some (w, e) → Legal i s → e &&& statusFPTE (me s) ≠ 0#5 →
      exec i s =
        .next (raise (burn (setMe s (mergeFlags (me s) e))) s.cur 0x12#8 (e.setWidth 8) (wordVal i) (me s).pc)

/-! ## Encodings (01_encodings.md) -/

/-- The worked encodings of R24, R84, R87 and R88, and a word of each other kind, read by the decoder. -/
def Obligations.DecodedWords : Prop :=
  (decodeC 0x042860E0#32 = .ok (.add 5#7 6#7 7#7) ∧ decodeC 0x08204FFF#32 = .ok (.addi 4#7 4#7 0xFFF#12) ∧
   decodeC 0x28200064#32 = .ok (.li 4#7 100#19) ∧ decodeC 0x50FFFFFE#32 = .ok (.bp 3#3 0x3FFFFE#22) ∧
   decodeC 0x6023FFFF#32 = .ok (.bnz 4#7 0#1 0x3FFFF#18) ∧ decodeC 0x80283C82#32 = .ok (.ldd 5#7 3#7 1#3 2#7) ∧
   decodeC 0xA4400000#32 = .ok .done ∧ decodeC 0xD828000C#32 = .ok (.csrr 5#7 0x00C#12) ∧
   decodeC 0xDC004005#32 = .ok (.csrw 0#7 4#7 0x005#12) ∧ decodeC 0xFC000009#32 = .ok (.trap 9#6) ∧
   decodeC 0xFC200000#32 = .ok (.breakI 0#6) ∧ decodeC 0xFC100000#32 = .ok .eret) ∧
  (decodeC 0#32 = .error .zeroMajor ∧ decodeC 0x80283E82#32 = .ok (.ldd 5#7 3#7 5#3 2#7) ∧
   fieldsOk (.ldd 5#7 3#7 5#3 2#7) = false)

/-- Decoding and encoding agree (R15 to R33): every C-word whose fields lie in their ranges, every E-word and every S-word,
with every operand at every value, decodes from its own encoding as itself. -/
def Obligations.EncodeDecode : Prop := ∀ i : Instr, Laws.RoundTrip.Statement i

/-! ## A step runs the decoded instruction (R48, R68, R161, R229) -/

/-- A unit that may issue, with no boundary trap due, runs the C-word that its PC names: the word is translated for fetching,
read little-endian, decoded and given to exec; a word that decodes to nothing is the illegal C-word of R12, and a fetch that
fails is the fetch fault of R68. It rests on the model's own choices too (assumption log 1). -/
def Obligations.StepRunsCWord : Prop :=
  ∀ (s t : State) (u : Nat) (rest : List Action), s.held = false → s.agenda = .issue u :: rest →
    t = beginIssue { s with agenda := rest } u → mayIssue { s with agenda := rest } u = true →
    boundaryDue { s with agenda := rest } u = false →
    (∀ (x : XOk) (r : State) (i : Instr), translate t (requester t u) .fetch (unitAt t u).pc = (.ok x, r) →
      decodeC (BitVec.ofNat 32 (rdNum r.mem x.pa 4)) = .ok i → step s = exec i r) ∧
    (∀ (x : XOk) (r : State) (e : DecodeError), translate t (requester t u) .fetch (unitAt t u).pc = (.ok x, r) →
      decodeC (BitVec.ofNat 32 (rdNum r.mem x.pa 4)) = .error e →
        step s = exec (.illegalCWord (BitVec.ofNat 32 (rdNum r.mem x.pa 4))) r) ∧
    (∀ (f : XFail) (r : State), translate t (requester t u) .fetch (unitAt t u).pc = (.error f, r) →
      step s = exec .fetchFault t)

/-- An element whose turn comes runs the operation that its E-word encodes, a route moves as its S-word says, and an event of
the agenda is the row of the opcode table that it is; a boundary step that is due stands before an element's operation. A
context whose turn has fired moves the element's context counter on, and one for which the element is held does not fire (R251).
It rests on the model's own choices too (assumption log 1, 3). -/
def Obligations.StepRunsDatapath : Prop :=
  ∀ (s t : State) (rest : List Action), s.held = false → t = { s with agenda := rest } →
    (∀ (u e : Nat) (i : Instr) (r : State), s.agenda = .fire u e :: rest → boundaryStep t u e = none →
      ewordAt t u e ≠ 0#32 → decodeE (ewordAt t u e) = .ok i →
      (isFiring (dueAct t u e) && elementHeld t u e) = false → exec i (asElem t u e) = .next r →
        step s = .next (afterFire t u e r)) ∧
    (∀ (u e : Nat) (b : Event) (r : State), s.agenda = .fire u e :: rest → boundaryStep t u e = some b →
      (isFiring (dueAct t u e) && elementHeld t u e) = false → exec b.instr (asElem t u e) = .next r →
        step s = .next (afterFire t u e r)) ∧
    (∀ (u e : Nat), s.agenda = .fire u e :: rest → isFiring (dueAct t u e) = true → elementHeld t u e = true →
      step s = .next t) ∧
    (∀ (u k : Nat) (w : BitVec 16) (i : Instr), s.agenda = .route u k :: rest → swordAt t u k = some w →
      decodeS w = .ok i → step s = exec i { t with cur := u }) ∧
    (∀ e : Event, s.agenda = .event e :: rest → step s = exec e.instr t)

/-! ## Reset (25_bringup_power.md) -/

/-- R415 and R361: TB starts at 0, every byte of memory reads zero, every tag is empty, no frame entry is valid, no context
holds a unit, and every link has its reset map. -/
def Obligations.ResetState : Prop :=
  State.reset.tb = 0 ∧ (∀ a, rdByte State.reset.mem a = 0#8) ∧ (∀ a, isFull State.reset.mem a = false) ∧
  State.reset.frames = [] ∧ (∀ u, (unitAt State.reset u).st = .free) ∧ State.reset.launches = [] ∧
  (∀ k : Fin 4, State.reset.links[k].dir = 0xFF00#16 ∧ State.reset.links[k].turn = 0#16 ∧
    State.reset.links[k].floorL = 2 ∧ State.reset.links[k].floorH = 2 ∧ State.reset.links[k].queue = []) ∧
  State.reset.held = false ∧ State.reset.failed = 0#4

/-! ## Registers (R41, R42, R45) -/

/-- R41 and R42: a value destination g or k holds the value written to it, but g0 reads zero; every other g and k register,
every predicate, every handle and every CSR keeps what it held; and the last-result file shifts with the full value. -/
def Sys2Proof.Claims.RegisterFileRule : Prop :=
  ∀ (x : UnitRegs) (d : BitVec 7) (v : Word), OperandKind.valueDst.accepts d = true →
    readVal (writeVal x d v) d = (if d = 0#7 then 0#64 else v) ∧
    (∀ c, OperandKind.valueDst.accepts c = true → c ≠ d → readVal (writeVal x d v) c = readVal x c) ∧
    (writeVal x d v).l = #v[v, x.l[0], x.l[1], x.l[2]] ∧
    (∀ c, readPred (writeVal x d v) c = readPred x c) ∧ (writeVal x d v).th = x.th ∧ (writeVal x d v).csr = x.csr ∧
    (writeVal x d v).pc = x.pc

namespace Sys2Proof.Claims

/-- Every predicate register but one number holds what it held. -/
def SamePredsBut (x y : UnitRegs) (n : BitVec 3) : Prop := ∀ m, m ≠ n → predNum y m = predNum x m

end Sys2Proof.Claims

/-- R41 and R121: a predicate destination holds the value written to it, but p0 reads one; the others keep theirs; the watch
of that number is disarmed, and nothing else of the unit changes. -/
def Sys2Proof.Claims.PredicateFileRule : Prop :=
  ∀ (x : UnitRegs) (n : BitVec 3) (v : Bool),
    predNum (putPred x n v) n = (if n = 0#3 then true else v) ∧ SamePredsBut x (putPred x n v) n ∧
    (n ≠ 0#3 → (putPred x n v).watches[n.toNat]'n.isLt = none) ∧
    putPred x n v = { x with p := (putPred x n v).p, watches := (putPred x n v).watches }

namespace Sys2Proof.Claims

/-- Only the issuing unit's registers differ (and the model's own count of free values). -/
def OnlyMe (s t : State) : Prop :=
  t = { s with units := t.units, free := t.free } ∧ ∀ u, u ≠ s.cur → unitAt t u = unitAt s u

/-- What a register-only C-word leaves of its unit beside g, k, l, p, the watches that writes of p disarm, and FPFLAGS. -/
def KeepsRest (x y : UnitRegs) : Prop :=
  y.th = x.th ∧ { y.csr with fpflags := x.csr.fpflags } = x.csr ∧ y.launch = x.launch ∧ y.pend = x.pend ∧
  y.drains = x.drains ∧ y.pts = x.pts ∧ y.yielded = x.yielded ∧ y.issued = x.issued ∧ y.awaits = x.awaits ∧
  y.before = x.before ∧ y.selfFault = x.selfFault ∧ y.newBr = x.newBr ∧ y.newLate = x.newLate

/-- Every g and k register but a destination holds what it held. -/
def SameValsBut (x y : UnitRegs) (d : BitVec 7) : Prop :=
  ∀ c, OperandKind.valueDst.accepts c = true → c ≠ d → readVal y c = readVal x c

/-- The trap frame and the handler's entry of R50. -/
def framed (x : UnitRegs) (cause detail : BitVec 8) (value : Word) : UnitRegs :=
  { x with
    st := .ready
    wait := none
    pc := x.csr.trapvec
    csr := { x.csr with
      trappc := x.pc
      cause := (detail.setWidth 64 <<< 8) ||| cause.setWidth 64
      trapval := value
      status := (x.csr.status &&& 0xFFFFFFFFFFFFFFF8#64) ||| (if modeM x then 7#64 else 5#64) } }

/-- What a trap of the issuing unit's C-word leaves (R50): with TD = 0 the trap frame alone; with TD = 1 the unit faulted
with its PC, TRAPPC, CAUSE and TRAPVAL as they were, and one record of kind 1 with the new cause, in its place among its
page's records. -/
def Trapped (s t : State) (cause detail : BitVec 8) (value : Word) : Prop :=
  (statusTD (me s) = false → OnlyMe s t ∧ unitAt t s.cur = framed (me s) cause detail value) ∧
  (statusTD (me s) = true →
    (∀ u, u ≠ s.cur → unitAt t u = unitAt s u) ∧
    unitAt t s.cur = { me s with st := .faulted, before := .ready, selfFault := true, wait := none } ∧
    t = { s with units := t.units, free := t.free, pages := t.pages } ∧
    ∃ r, (pageAt t (pageOfTile (tileOf s.cur))).records =
        insertRecord r (pageAt s (pageOfTile (tileOf s.cur))).records ∧
      numAt r 0 1 = cause.toNat ∧ numAt r 1 1 = detail.toNat ∧ numAt r 2 1 = 1 ∧ numAt r 8 8 = value.toNat ∧
      numAt r 40 8 = (me s).pc.toNat)

/-- The first cause of R13 that a C-word meets in a unit. -/
def firstCause (x : UnitRegs) (i : Instr) : Option (BitVec 8) :=
  if fieldsOk i = false then some 1#8
  else if privileged i = true ∧ modeM x = false then some 3#8
  else if operandsOk i = false then some 2#8
  else none

/-- The privileged instructions of R23. -/
def listed (i : Instr) : Prop :=
  match i with
  | .tlbinv _ _ => True
  | .tlbinva _ _ => True
  | .wcinv _ => True
  | .xlprobe _ _ => True
  | .lfloor _ _ _ => True
  | .epbind _ _ => True
  | .epunb _ => True
  | .qdrain _ _ _ => True
  | .jobdl _ _ => True
  | .eret => True
  | .attest _ _ => True
  | .freeze _ => True
  | .csrw _ _ c => csrClass c = .system
  | .csrs _ _ c => csrClass c = .system
  | .csrc _ _ c => csrClass c = .system
  | _ => False

end Sys2Proof.Claims

/-- The frame of the C-words that write a value register, a predicate or nothing beside the PC: all of memory, every other
unit and everything else of the machine is as before, and of the issuing unit only the destination, the last-result file
(for a value) and the PC change. -/
def Obligations.RegisterWordFrame : Prop :=
  ∀ (s : State) (i : Instr), Legal i s →
    (∀ d v, valueResult (me s) i = some (d, v) →
      ∃ t, exec i s = .next t ∧ OnlyMe s t ∧ KeepsRest (me s) (unitAt t s.cur) ∧ SameValsBut (me s) (unitAt t s.cur) d ∧
        (unitAt t s.cur).p = (me s).p ∧ (unitAt t s.cur).csr = (me s).csr ∧ (unitAt t s.cur).pc = (me s).pc + 4#64) ∧
    (∀ d v, predResult (me s) i = some (d, v) →
      ∃ t, exec i s = .next t ∧ OnlyMe s t ∧ KeepsRest (me s) (unitAt t s.cur) ∧ (unitAt t s.cur).g = (me s).g ∧
        (unitAt t s.cur).k = (me s).k ∧ (unitAt t s.cur).l = (me s).l ∧ (unitAt t s.cur).csr = (me s).csr ∧
        (∀ n : BitVec 3, decodeReg d ≠ some (.p n) → predNum (unitAt t s.cur) n = predNum (me s) n) ∧
        (unitAt t s.cur).pc = (me s).pc + 4#64) ∧
    (∀ w e, floatResult (me s) i = some (w, e) → e &&& statusFPTE (me s) = 0#5 →
      ∃ t, exec i s = .next t ∧ OnlyMe s t ∧ KeepsRest (me s) (unitAt t s.cur) ∧
        (unitAt t s.cur).csr.fpflags = (me s).csr.fpflags ||| e.setWidth 64 ∧
        (∀ d v, w = .inl (d, v) → SameValsBut (me s) (unitAt t s.cur) d ∧ (unitAt t s.cur).p = (me s).p) ∧
        (∀ d v, w = .inr (d, v) → (unitAt t s.cur).g = (me s).g ∧ (unitAt t s.cur).k = (me s).k ∧
          (unitAt t s.cur).l = (me s).l)) ∧
    (∀ w p, flowResult (me s) i = some (w, p) → p.toNat % 4 = 0 →
      ∃ t, exec i s = .next t ∧ OnlyMe s t ∧ KeepsRest (me s) (unitAt t s.cur) ∧ (unitAt t s.cur).p = (me s).p ∧
        (unitAt t s.cur).csr = (me s).csr ∧
        (w = none → (unitAt t s.cur).g = (me s).g ∧ (unitAt t s.cur).k = (me s).k ∧ (unitAt t s.cur).l = (me s).l) ∧
        (∀ d v, w = some (d, v) → SameValsBut (me s) (unitAt t s.cur) d))

/-! ## Traps (R12, R13, R23, R50 to R54, R68, R87, R88) -/

/-- R12 and R13: a C-word that fails a check raises the first cause that applies, of 0x01, 0x03 and 0x02 in this order, with
the C-word as TRAPVAL and no effect but the trap's; a word that is no encoding raises cause 0x01. -/
def Sys2Proof.Claims.CheckOrderRule : Prop :=
  ∀ (s : State),
    (∀ (i : Instr) (c : BitVec 8), kindOf i = .cword → firstCause (me s) i = some c →
      ∃ t, exec i s = .next t ∧ Trapped s t c 0#8 ((encode i).setWidth 64)) ∧
    (∀ w : BitVec 32, ∃ t, exec (.illegalCWord w) s = .next t ∧ Trapped s t 1#8 0#8 (w.setWidth 64))

/-- R23: each of the privileged instructions, executed in user mode, raises cause 0x03. -/
def Sys2Proof.Claims.PrivilegedWordsRule : Prop :=
  ∀ (s : State) (i : Instr), listed i → fieldsOk i = true → modeM (me s) = false →
    ∃ t, exec i s = .next t ∧ Trapped s t 3#8 0#8 ((encode i).setWidth 64)

/-- R87, R50: TRAP raises cause 0x14 and BREAK cause 0x16, in either mode, with imm6 as TRAPVAL and TRAPPC the word itself. -/
def Sys2Proof.Claims.TrapAndBreakRule : Prop :=
  ∀ (s : State) (imm : BitVec 6),
    (∃ t, exec (.trap imm) s = .next t ∧ Trapped s t 0x14#8 0#8 (imm.setWidth 64)) ∧
    (∃ t, exec (.breakI imm) s = .next t ∧ Trapped s t 0x16#8 0#8 (imm.setWidth 64))

/-- R51, R88: ERET in system mode, whatever TD is, loads PC from TRAPPC and M from PM and clears PM and TD; nothing else
changes, the last-result file included. In user mode it raises cause 0x03. -/
def Sys2Proof.Claims.ReturnFromTrapRule : Prop :=
  ∀ (s : State),
    (modeM (me s) = true → ∃ t, exec .eret s = .next t ∧ OnlyMe s t ∧ t.free = s.free ∧
      unitAt t s.cur = goOn { me s with csr := { (me s).csr with
        status := ((me s).csr.status &&& 0xFFFFFFFFFFFFFFF8#64) ||| (if modePM (me s) then 1#64 else 0#64) } }
        (me s).csr.trappc) ∧
    (modeM (me s) = false → ∃ t, exec .eret s = .next t ∧ Trapped s t 3#8 0#8 ((encode .eret).setWidth 64))

/-- R68: a C-word that cannot be fetched traps with the cause of its translation, and TRAPPC and TRAPVAL hold its address. -/
def Sys2Proof.Claims.FetchFaultsRule : Prop :=
  ∀ (s t : State) (c d : BitVec 8),
    translate s (requester s s.cur) .fetch (me s).pc = (.error (.cause c d), t) → statusTD (me s) = false →
      exec .fetchFault s = .next (setUnit t s.cur (framed (unitAt t s.cur) c d (me s).pc)) ∧ unitAt t s.cur = me s

namespace Sys2Proof.Claims

/-- What R84 gives CSRW, CSRS and CSRC: the number, the new value, the destination. -/
def csrNew (x : UnitRegs) (i : Instr) : Option (BitVec 12 × Word × BitVec 7) :=
  match i with
  | .csrw d a c => some (c, readVal x a, d)
  | .csrs d a c => some (c, readCsr x c ||| readVal x a, d)
  | .csrc d a c => some (c, readCsr x c &&& ~~~(readVal x a), d)
  | _ => none

end Sys2Proof.Claims

/-- R84: CSRR of an assigned number reads it; CSRW, CSRS and CSRC of a number that is assigned and not RO, with a value that
R45 does not refuse, write the CSR, and d receives the old value; an unassigned number, an RO number to be written and a
refused value raise cause 0x02. -/
def Sys2Proof.Claims.CsrWordsRule : Prop :=
  ∀ (s : State) (i : Instr), Legal i s →
    (∀ d c, i = .csrr d c →
      (csrClass c ≠ .unassigned → exec i s = .next (nextWord s (writeVal (me s) d (readCsr (me s) c)))) ∧
      (csrClass c = .unassigned → ∃ t, exec i s = .next t ∧ Trapped s t 2#8 0#8 ((encode i).setWidth 64))) ∧
    (∀ c v d, csrNew (me s) i = some (c, v, d) →
      (csrClass c = .system ∨ csrClass c = .user → csrRefused c v = false →
        exec i s = .next (nextWord s (writeVal (writeCsr (me s) c v) d (readCsr (me s) c)))) ∧
      (csrClass c = .unassigned ∨ csrClass c = .readOnly ∨ csrRefused c v = true →
        ∃ t, exec i s = .next t ∧ Trapped s t 2#8 0#8 ((encode i).setWidth 64)))

/-- R45: what the table refuses (a reserved bit that is set, WAITLIM below 16, a ROUNDSZ that is no listed power of two, a
SCOPEDEF of 5 to 7), and what a write that is not refused leaves: the CSR reads the value, but STATUS.M stays; every other
CSR and every other register stays. -/
def Sys2Proof.Claims.CsrTableRule : Prop :=
  (∀ v : Word,
    csrRefused 0x000#12 v = decide (v &&& 0xFFFFFFFFFFFF20F8#64 ≠ 0#64) ∧
    csrRefused 0x001#12 v = decide (v &&& 0xFFFFFFFFFFFF0000#64 ≠ 0#64) ∧
    csrRefused 0x002#12 v = decide (v &&& 3#64 ≠ 0#64) ∧ csrRefused 0x003#12 v = false ∧
    csrRefused 0x004#12 v = decide (v &&& 3#64 ≠ 0#64) ∧
    csrRefused 0x005#12 v = decide (v.toNat < 16 ∨ 2 ^ 32 ≤ v.toNat) ∧
    (csrRefused 0x006#12 v = false ↔ v ∈ [64#64, 128#64, 256#64, 512#64, 1024#64, 2048#64, 4096#64]) ∧
    csrRefused 0x007#12 v = decide (5 ≤ v.toNat) ∧
    csrRefused 0x00C#12 v = decide (v &&& 0xFFFFFFFFFFFFFCE0#64 ≠ 0#64) ∧
    csrRefused 0x00D#12 v = decide (2 ^ 32 ≤ v.toNat) ∧ csrRefused 0x00E#12 v = decide (2 ^ 32 ≤ v.toNat)) ∧
  (∀ (x : UnitRegs) (c : BitVec 12) (v : Word), csrClass c = .system ∨ csrClass c = .user →
    readCsr (writeCsr x c v) c = (if c = 0#12 then (v &&& 0xFFFFFFFFFFFFFFFE#64) ||| (x.csr.status &&& 1#64) else v) ∧
    (∀ e, e ≠ c → readCsr (writeCsr x c v) e = readCsr x e) ∧ writeCsr x c v = { x with csr := (writeCsr x c v).csr })

/-! ## Memory's canonical form -/

/-- The memory that reset leaves is in the canonical form: addresses strictly rising, and no byte listed that is zero (R415). It
rests on the model's own choices too (assumption log 6). -/
def Obligations.ResetMemoryCanonical : Prop := State.reset.mem.wf = true

/-- Every step keeps memory in the canonical form, whatever the instruction or the event is: equal memories are equal data.
The form is the model's own (assumption log 6). -/
def Obligations.MemoryStaysCanonical : Prop :=
  ∀ s t : State, s.mem.wf = true → step s = .next t → t.mem.wf = true

/-! ## Accesses of C-words (04_unit_instructions_memory.md, 18_die_instructions.md) -/

namespace Sys2Proof.Claims

/-- What a scalar load names: destination, size, declared scope, whether it sign-extends, address (R94, R95). -/
def loadForm (x : UnitRegs) (i : Instr) : Option (BitVec 7 × Nat × Option Nat × Bool × Word) :=
  let v := readVal x
  match i with
  | .ldb d a c o => some (d, 1, some c.toNat, true, v a + o.signExtend 64)
  | .ldh d a c o => some (d, 2, some c.toNat, true, v a + o.signExtend 64 * 2#64)
  | .ldw d a c o => some (d, 4, some c.toNat, true, v a + o.signExtend 64 * 4#64)
  | .ldd d a c o => some (d, 8, some c.toNat, true, v a + o.signExtend 64 * 8#64)
  | .ldbz d a c o => some (d, 1, some c.toNat, false, v a + o.signExtend 64)
  | .ldhz d a c o => some (d, 2, some c.toNat, false, v a + o.signExtend 64 * 2#64)
  | .ldwz d a c o => some (d, 4, some c.toNat, false, v a + o.signExtend 64 * 4#64)
  | .lddZ d a c o => some (d, 8, some c.toNat, false, v a + o.signExtend 64 * 8#64)
  | .ldx d a b => some (d, 8, none, false, v a + v b)
  | _ => none

/-- What a scalar store names: data, size, declared scope, address (R94, R95). -/
def storeForm (x : UnitRegs) (i : Instr) : Option (Word × Nat × Option Nat × Word) :=
  let v := readVal x
  match i with
  | .stb d a c o => some (v d, 1, some c.toNat, v a + o.signExtend 64)
  | .sth d a c o => some (v d, 2, some c.toNat, v a + o.signExtend 64 * 2#64)
  | .stw d a c o => some (v d, 4, some c.toNat, v a + o.signExtend 64 * 4#64)
  | .std d a c o => some (v d, 8, some c.toNat, v a + o.signExtend 64 * 8#64)
  | .stx d a b => some (v d, 8, none, v a + v b)
  | _ => none

/-- An n-byte number as a load extends it (R94). -/
def extended (signed : Bool) (n m : Nat) : Word :=
  if signed ∧ 2 ^ (8 * n - 1) ≤ m then BitVec.ofInt 64 ((m : Int) - 2 ^ (8 * n)) else BitVec.ofNat 64 m

/-- A unit after an event of its own C-word: its time moves on (R296), and a breach of a declared scope is counted as the cycle
ends (R86) and, under SBTE, made a pending boundary trap (R52, R294). -/
def accessed (x : UnitRegs) (scope : Option Nat) (va : Word) (e : MemEvent) : UnitRegs :=
  match scope with
  | some c =>
    if e.br then
      { x with
        pts := e.pts
        newBr := x.newBr + 1
        pend := if bitOf x.csr.status 15 then x.pend ++ [⟨0x10#8, BitVec.ofNat 8 c, va⟩] else x.pend }
    else { x with pts := e.pts }
  | none => { x with pts := e.pts }

/-- No byte and no tag of memory differs. -/
def SameMem (s t : State) : Prop := (∀ a, rdByte t.mem a = rdByte s.mem a) ∧ ∀ a, isFull t.mem a = isFull s.mem a

/-- No byte outside n bytes from an address differs. -/
def SameBytesBut (s t : State) (a n : Nat) : Prop := ∀ b, b < a ∨ a + n ≤ b → rdByte t.mem b = rdByte s.mem b

/-- Of the machine only memory, the issuing unit, packets and translation caches differ. -/
def Accessed (s t : State) : Prop :=
  t = { s with mem := t.mem, units := t.units, pages := t.pages, arbiters := t.arbiters, free := t.free } ∧
  ∀ u, u ≠ s.cur → unitAt t u = unitAt s u

/-- The address that a C-word of one access checks by R91, with its alignment and its access kind. -/
def accessForm (x : UnitRegs) (i : Instr) : Option (Word × Nat × Access) :=
  let v := readVal x
  match loadForm x i, storeForm x i with
  | some (_, n, _, _, va), _ => some (va, n, .read)
  | none, some (_, n, _, va) => some (va, n, .write)
  | none, none =>
    match i with
    | .ldf _ a => some (v a, 8, .read)
    | .ldfe _ a => some (v a, 8, .atomic)
    | .ste a _ => some (v a, 8, .write)
    | .stf a _ => some (v a, 8, .write)
    | .feset a => some (v a, 8, .write)
    | .feclr a => some (v a, 8, .write)
    | .feq _ a => some (v a, 8, .read)
    | .ldfeNb _ a => some (v a, 8, .atomic)
    | .steNb a _ => some (v a, 8, .write)
    | .amoadd _ a _ => some (v a, 8, .atomic)
    | .amoand _ a _ => some (v a, 8, .atomic)
    | .amoor _ a _ => some (v a, 8, .atomic)
    | .amoxor _ a _ => some (v a, 8, .atomic)
    | .amomin _ a _ => some (v a, 8, .atomic)
    | .amomax _ a _ => some (v a, 8, .atomic)
    | .amominn _ a _ => some (v a, 8, .atomic)
    | .amomaxn _ a _ => some (v a, 8, .atomic)
    | .amoswp _ a _ => some (v a, 8, .atomic)
    | .amocas _ a _ => some (v a, 8, .atomic)
    | .ctradd a _ => some (v a, 8, .atomic)
    | .ctrwait a _ => some (v a, 8, .read)
    | .ctrrd _ b => some (v b, 8, .read)
    | .ctrwaitNb a _ => some (v a, 8, .read)
    | .ctrwatch a _ _ => some (v a, 8, .read)
    | .thld _ b => some (v b, 64, .read)
    | .thst _ b => some (v b, 64, .write)
    | _ => none

end Sys2Proof.Claims

/-- R94, R95: a legal load whose address is canonical, aligned and translates to memory that is not poisoned completes: the
destination receives the sign- or zero-extended number that memory holds, and the last-result file shifts. No byte and no
tag changes, and of the unit only what the access, the destination and the PC say. -/
def Sys2Proof.Claims.LoadsRule : Prop :=
  ∀ (s r : State) (i : Instr) (d : BitVec 7) (n : Nat) (c : Option Nat) (g : Bool) (va : Word) (x : XOk),
    loadForm (me s) i = some (d, n, c, g, va) → Legal i s → canonical va = true → va.toNat % n = 0 →
    translate s (requester s s.cur) .read va = (.ok x, r) → isRegion x.pa = false → poisonedIn s.mem x.pa n = none →
    ∃ t, exec i s = .next t ∧ Accessed s t ∧ SameMem s t ∧
      unitAt t s.cur =
        goOn (writeVal (accessed (me s) c va (readEvent r.mem x.pa n (tileOf s.cur) s.tb c x.sa (me s).pts)) d
          (extended g n (rdNum s.mem x.pa n))) ((me s).pc + 4#64)

/-- R94, R95: a legal store whose address is canonical, aligned and translates to memory that no pinned round leases
completes: the n bytes at the address become the low n bytes of the data, lowest first, and every other byte and every tag
is as before; of the unit only its time, its breach count and its PC change, and the last-result file does not shift. -/
def Sys2Proof.Claims.StoresRule : Prop :=
  ∀ (s r : State) (i : Instr) (v : Word) (n : Nat) (c : Option Nat) (va : Word) (x : XOk),
    storeForm (me s) i = some (v, n, c, va) → Legal i s → canonical va = true → va.toNat % n = 0 →
    translate s (requester s s.cur) .write va = (.ok x, r) → isRegion x.pa = false → pinnedRange s none x.pa n = false →
    ∃ t, exec i s = .next t ∧ Accessed s t ∧ rdNum t.mem x.pa n = v.toNat % 2 ^ (8 * n) ∧ SameBytesBut s t x.pa n ∧
      (∀ a, isFull t.mem a = isFull s.mem a) ∧
      unitAt t s.cur =
        goOn (accessed (me s) c va
          (writeEvent r.mem x.pa (toBytes n v.toNat) (tileOf s.cur) s.tb c x.sa (me s).pts)) ((me s).pc + 4#64)

/-- R91: a legal access whose address is not canonical raises cause 0x05, one that is misaligned cause 0x04 with DETAIL the
alignment, and one whose translation fails the cause of the walk, each with TRAPVAL the address and in this order. Of a walk
that fails the reads stay, which change no byte and no tag (R316). -/
def Sys2Proof.Claims.AccessTrapsRule : Prop :=
  ∀ (s : State) (i : Instr) (va : Word) (n : Nat) (k : Access),
    accessForm (me s) i = some (va, n, k) → Legal i s →
    (canonical va = false → ∃ t, exec i s = .next t ∧ Trapped s t 5#8 0#8 va) ∧
    (canonical va = true → va.toNat % n ≠ 0 → ∃ t, exec i s = .next t ∧ Trapped s t 4#8 (BitVec.ofNat 8 n) va) ∧
    (∀ (c d : BitVec 8) (r : State), canonical va = true → va.toNat % n = 0 →
      translate s (requester s s.cur) k va = (.error (.cause c d), r) →
        ∃ t, exec i s = .next t ∧ Trapped r t c d va ∧ me r = me s ∧ SameMem s t)

namespace Sys2Proof.Claims

/-- What R96 gives a tagged operation that finds its condition: the address, the access kind, the data then in the word, its
tag, a value destination and a predicate. None where its condition is false. -/
def taggedResult (x : UnitRegs) (full : Bool) (data : Word) (i : Instr) :
    Option (Word × Access × Word × Bool × Option (BitVec 7 × Word) × Option (BitVec 7 × Bool)) :=
  let v := readVal x
  match i with
  | .ldf d a => if full then some (v a, .read, data, true, some (d, data), none) else none
  | .ldfe d a => if full then some (v a, .atomic, data, false, some (d, data), none) else none
  | .ste a b => if full then none else some (v a, .write, v b, true, none, none)
  | .stf a b => some (v a, .write, v b, true, none, none)
  | .feset a => some (v a, .write, data, true, none, none)
  | .feclr a => some (v a, .write, data, false, none, none)
  | .feq d a => some (v a, .read, data, full, none, some (d, full))
  | .ldfeNb d a =>
    if full then some (v a, .atomic, data, false, some (d, data), some (0x57#7, true))
    else some (v a, .atomic, data, false, some (d, 0#64), some (0x57#7, false))
  | .steNb a b =>
    if full then some (v a, .write, data, true, none, some (0x57#7, false))
    else some (v a, .write, v b, true, none, some (0x57#7, true))
  | _ => none

/-- The registers with a value, then a predicate destination written, where there are such. -/
def writeBoth (x : UnitRegs) (w : Option (BitVec 7 × Word)) (p : Option (BitVec 7 × Bool)) : UnitRegs :=
  match p with
  | some q => writePred (writeOpt x w) q.1 q.2
  | none => writeOpt x w

/-- What R332 gives an atomic: destination, address and the new word for the old one; none for a CAS that finds another
value. -/
def atomicResult (x : UnitRegs) (old : Word) (i : Instr) : Option (BitVec 7 × Word × Option Word) :=
  let v := readVal x
  match i with
  | .amoadd d a b => some (d, v a, some (old + v b))
  | .amoand d a b => some (d, v a, some (old &&& v b))
  | .amoor d a b => some (d, v a, some (old ||| v b))
  | .amoxor d a b => some (d, v a, some (old ^^^ v b))
  | .amomin d a b => some (d, v a, some (if old.sle (v b) then old else v b))
  | .amomax d a b => some (d, v a, some (if (v b).sle old then old else v b))
  | .amominn d a b => some (d, v a, some (if old.ule (v b) then old else v b))
  | .amomaxn d a b => some (d, v a, some (if (v b).ule old then old else v b))
  | .amoswp d a b => some (d, v a, some (v b))
  | .amocas d a b => some (d, v a, if old = v d then some (v b) else none)
  | _ => none

/-- The engine operation that a C-word forks after its alignment check, with that alignment (R334, R336). -/
def forked (x : UnitRegs) (i : Instr) : Option (EngineKind × Word × Nat) :=
  let v := readVal x
  match i with
  | .redadd a b => some (.red 0 (v a) (v b), v a, 8)
  | .redand a b => some (.red 1 (v a) (v b), v a, 8)
  | .redor a b => some (.red 2 (v a) (v b), v a, 8)
  | .redxor a b => some (.red 3 (v a) (v b), v a, 8)
  | .redmin a b => some (.red 4 (v a) (v b), v a, 8)
  | .redmax a b => some (.red 5 (v a) (v b), v a, 8)
  | .oredFadd c a b => some (.ored 0 (v c) (v a) (v b), v a, 64)
  | .oredFadds c a b => some (.ored 1 (v c) (v a) (v b), v a, 64)
  | .oredAdd c a b => some (.ored 2 (v c) (v a) (v b), v a, 64)
  | .oredFmax c a b => some (.ored 3 (v c) (v a) (v b), v a, 64)
  | .oredFmin c a b => some (.ored 4 (v c) (v a) (v b), v a, 64)
  | _ => none

end Sys2Proof.Claims

/-- R96: a legal tagged operation on a scratchpad word that finds its condition, with no waiter parked at the word, completes:
the word's data and tag, the value and the predicate become what the table gives; every other byte and every other word's
tag is as before. -/
def Sys2Proof.Claims.TaggedWordsRule : Prop :=
  ∀ (s r : State) (i : Instr) (va nd : Word) (k : Access) (f : Bool) (w : Option (BitVec 7 × Word))
    (p : Option (BitVec 7 × Bool)) (x : XOk),
    taggedResult (me s) (isFull s.mem x.pa) (rd64 s.mem x.pa) i = some (va, k, nd, f, w, p) → Legal i s →
    canonical va = true → va.toNat % 8 = 0 → translate s (requester s s.cur) k va = (.ok x, r) → isSpad x.pa = true →
    x.pa % 8 = 0 → poisonedIn s.mem x.pa 8 = none → pinnedRange s none x.pa 8 = false →
    (∀ q ∈ s.twaiters, q.pa ≠ x.pa) →
    ∃ t n, exec i s = .next t ∧ Accessed s t ∧ rd64 t.mem x.pa = nd ∧ SameBytesBut s t x.pa 8 ∧
      isFull t.mem x.pa = f ∧ (∀ a, wordOf a ≠ x.pa → isFull t.mem a = isFull s.mem a) ∧
      unitAt t s.cur = goOn { writeBoth (me s) w p with pts := n } ((me s).pc + 4#64)

/-- R96, R97, R169: LDF or LDFE of an empty word and STE of a full word park the unit in the bank's list, waiting with a count
that goes on from its last; with the list of 32 full the unit waits and is tried again. No byte, tag or register changes. -/
def Sys2Proof.Claims.TaggedParkingRule : Prop :=
  ∀ (s r : State) (d a : BitVec 7) (k : Access) (i : Instr) (q : TagWaiter) (x : XOk),
    (i = .ldf d a ∧ k = .read ∧ isFull s.mem x.pa = false ∧
        q = { pa := wordOf x.pa, who := s.cur, elem := false, full := true, clear := false, value := 0#64, reg := d,
              va := readVal (me s) a, sa := x.sa } ∨
      i = .ldfe d a ∧ k = .atomic ∧ isFull s.mem x.pa = false ∧
        q = { pa := wordOf x.pa, who := s.cur, elem := false, full := true, clear := true, value := 0#64, reg := d,
              va := readVal (me s) a, sa := x.sa } ∨
      i = .ste a d ∧ k = .write ∧ isFull s.mem x.pa = true ∧
        q = { pa := wordOf x.pa, who := s.cur, elem := false, full := false, clear := false,
              value := readVal (me s) d, reg := 0#7, va := readVal (me s) a, sa := x.sa }) →
    Legal i s → canonical (readVal (me s) a) = true → (readVal (me s) a).toNat % 8 = 0 →
    translate s (requester s s.cur) k (readVal (me s) a) = (.ok x, r) → isSpad x.pa = true →
    poisonedIn s.mem x.pa 8 = none →
    ∃ t, exec i s = .next t ∧ SameMem s t ∧ (∀ u, u ≠ s.cur → unitAt t u = unitAt s u) ∧
      t.twaiters = (if (s.twaiters.filter fun y => decide (bankNo y.pa = bankNo x.pa)).length ≥ 32 then s.twaiters
        else s.twaiters ++ [q]) ∧
      unitAt t s.cur = { me s with
        st := .waiting
        wait := some { kind := .tagWord, value := readVal (me s) a, count := waitCount (me s) } }

/-- R97: an STF that fills a word at which one unit alone is parked completes the parked word too: LDF receives the value and
leaves the word full, LDFE receives it and empties the word; the parked unit is ready behind its C-word. -/
def Sys2Proof.Claims.TaggedWaiterServedRule : Prop :=
  ∀ (s r : State) (a b : BitVec 7) (q : TagWaiter) (x : XOk),
    Legal (.stf a b) s → canonical (readVal (me s) a) = true → (readVal (me s) a).toNat % 8 = 0 →
    translate s (requester s s.cur) .write (readVal (me s) a) = (.ok x, r) → isSpad x.pa = true → x.pa % 8 = 0 →
    pinnedRange s none x.pa 8 = false → s.twaiters = [q] → q.pa = x.pa → q.full = true → q.elem = false →
    q.who ≠ s.cur → (unitAt s q.who).st = .waiting →
    ∃ t, exec (.stf a b) s = .next t ∧ rd64 t.mem x.pa = readVal (me s) b ∧ isFull t.mem x.pa = !q.clear ∧
      t.twaiters = [] ∧ (unitAt t q.who).st = .ready ∧ (unitAt t q.who).wait = none ∧
      (unitAt t q.who).pc = (unitAt s q.who).pc + 4#64 ∧
      (∀ c, readVal (unitAt t q.who) c = readVal (writeVal (unitAt s q.who) q.reg (readVal (me s) b)) c) ∧
      (unitAt t s.cur).pc = (me s).pc + 4#64

/-- R332: a legal atomic whose word translates outside the region windows, unpoisoned and not leased by a pinned round,
completes: the word becomes what the table gives (a CAS that finds another value writes nothing), d receives the old word and
shifts; every other byte and every tag is as before. The constructors of which it says where they complete: amoadd, amoand,
amoor, amoxor, amomin, amomax, amominn, amomaxn, amoswp, amocas. -/
def Obligations.Atomics : Prop :=
  ∀ (s r : State) (i : Instr) (d : BitVec 7) (va : Word) (nw : Option Word) (x : XOk),
    atomicResult (me s) (rd64 s.mem x.pa) i = some (d, va, nw) → Legal i s → canonical va = true → va.toNat % 8 = 0 →
    translate s (requester s s.cur) .atomic va = (.ok x, r) → isRegion x.pa = false → poisonedIn s.mem x.pa 8 = none →
    pinnedRange s none x.pa 8 = false →
    ∃ t n, exec i s = .next t ∧ Accessed s t ∧ rd64 t.mem x.pa = nw.getD (rd64 s.mem x.pa) ∧
      SameBytesBut s t x.pa 8 ∧ (∀ a, isFull t.mem a = isFull s.mem a) ∧
      unitAt t s.cur = goOn { writeVal (me s) d (rd64 s.mem x.pa) with pts := n } ((me s).pc + 4#64)

/-- R334, R336, R298: a legal RED or ORED C-word with an aligned address completes at once: one engine operation is forked,
with the operands as they stand, the issuer's launch, job and time; nothing is returned, no byte changes, and the unit only
goes on. A misaligned one raises cause 0x04. -/
def Sys2Proof.Claims.ReductionForksRule : Prop :=
  ∀ (s : State) (i : Instr) (k : EngineKind) (va : Word) (n : Nat), forked (me s) i = some (k, va, n) → Legal i s →
    (va.toNat % n = 0 →
      exec i s = .next { nextWord s (me s) with
        engines := mset s.engines s.nextEng
          { unit := s.cur, launch := (me s).launch, job := (me s).csr.jobid.toNat, kind := k, pts := (me s).pts,
            dest := va }
        nextEng := s.nextEng + 1 }) ∧
    (va.toNat % n ≠ 0 → ∃ t, exec i s = .next t ∧ Trapped s t 4#8 (BitVec.ofNat 8 n) va)

/-- R170: a C-word that reads a poisoned word has no effect: its unit is faulted with PC kept, and one record of kind 0 with
cause 0x13 and the word's address is written; no byte, tag or other register changes. -/
def Sys2Proof.Claims.PoisonedReadsRule : Prop :=
  ∀ (s r : State) (i : Instr) (va : Word) (n p : Nat) (k : Access) (x : XOk),
    ((∃ d c g, loadForm (me s) i = some (d, n, c, g, va) ∧ k = .read ∧ isRegion x.pa = false) ∨
      (∃ d w, atomicResult (me s) 0#64 i = some (d, va, w) ∧ n = 8 ∧ k = .atomic ∧ isRegion x.pa = false) ∨
      (∃ d a, i = .ldf d a ∧ va = readVal (me s) a ∧ n = 8 ∧ k = .read ∧ isSpad x.pa = true)) →
    Legal i s → canonical va = true → va.toNat % n = 0 → translate s (requester s s.cur) k va = (.ok x, r) →
    poisonedIn s.mem x.pa n = some p → p = wordOf x.pa →
    ∃ t q, exec i s = .next t ∧ SameMem s t ∧ (∀ u, u ≠ s.cur → unitAt t u = unitAt s u) ∧
      unitAt t s.cur = { me s with st := .faulted, before := .ready, selfFault := true, wait := none } ∧
      (pageAt t (pageOfTile (tileOf s.cur))).records = insertRecord q (pageAt r (pageOfTile (tileOf s.cur))).records ∧
      numAt q 0 1 = 0x13 ∧ numAt q 2 1 = 0 ∧ numAt q 8 8 = va.toNat / 8 * 8 ∧ numAt q 40 8 = (me s).pc.toNat

/-! ## Time, streams, copies, counters, handles and exchange words (04_unit_instructions_memory.md, 13_cluster_instructions.md) -/

namespace Sys2Proof.Claims

/-- Whether an engine operation is a fork of the issuing unit. -/
def mine (s : State) (e : Engine) : Bool := decide (e.unit = s.cur) && decide (e.launch = (me s).launch)

/-- The forks of the issuing unit that satisfy a condition, joined: they leave the table, and the unit's time is not before
theirs (R298). -/
def joined (s : State) (p : Engine → Bool) : State :=
  setMe { s with engines := s.engines.filter fun e => !(mine s e.2 && p e.2) }
    { me s with pts := (s.engines.filter fun e => mine s e.2 && p e.2).foldl (fun m e => max m e.2.pts) (me s).pts }

/-- Whether every fork of the issuing unit is complete. -/
abbrev forksComplete (s : State) : Prop := ∀ e ∈ s.engines, mine s e.2 = true → e.2.complete = true

/-- The issuing unit held in the running state, nothing else changed (R46, R102, R107); the model counts free values. -/
def HeldRunning (s t : State) : Prop := OnlyMe s t ∧ unitAt t s.cur = { me s with st := .running }

/-- The issuing unit waiting on an object (R49), its count going on from its last. -/
def Waiting (s t : State) (k : WaitKind) (v : Word) (aux : Nat) : Prop :=
  (∀ u, u ≠ s.cur → unitAt t u = unitAt s u) ∧ SameMem s t ∧
  unitAt t s.cur =
    { me s with st := .waiting, wait := some { kind := k, value := v, aux := aux, count := waitCount (me s) } }

end Sys2Proof.Claims

/-- R100, R102, R103: RDTB reads the timebase; YIELD changes nothing but the mark of its context; FJOIN joins every fork once
all are complete and holds the thread until then; DONE drains the unit and disarms its watches. -/
def Sys2Proof.Claims.TimeWordsRule : Prop :=
  ∀ (s : State),
    (∀ a, Legal (.rdtb a) s → exec (.rdtb a) s = .next (nextWord s (writeVal (me s) a (BitVec.ofNat 64 (tbOf s (dieOf s.cur)))))) ∧
    exec .yield s = .next (nextWord s { me s with yielded := some s.tb }) ∧
    (forksComplete s → exec .fjoin s = .next (nextWord (joined s fun _ => true) (me (joined s fun _ => true)))) ∧
    (¬ forksComplete s → ∃ t, exec .fjoin s = .next t ∧ HeldRunning s t) ∧
    exec .done s =
      .next (nextWord s { me s with st := .draining, watches := Vector.replicate 8 none })

/-- R101: SLEEPU with a wake time that has come, issued while every promised copy due is complete, joins those copies and
goes on; with a later wake time the unit sleeps; and a copy that is due, neither complete nor reported, raises cause 0x0A
with TRAPVAL its promise, reported from then on. -/
def Sys2Proof.Claims.SleepRule : Prop :=
  ∀ (s : State) (a : BitVec 7), Legal (.sleepu a) s → (me s).wait = none →
    ((readVal (me s) a).toNat ≤ tbOf s (dieOf s.cur) →
      (∀ e ∈ s.engines, mine s e.2 = true → e.2.promise.any (fun p => decide (p ≤ tbOf s (dieOf s.cur))) = true →
        e.2.complete = true) →
      ∃ t, t = joined s (fun e => e.promise.any fun p => decide (p ≤ tbOf s (dieOf s.cur))) ∧
        exec (.sleepu a) s = .next (nextWord t (me t))) ∧
    (tbOf s (dieOf s.cur) < (readVal (me s) a).toNat →
      ∃ t, exec (.sleepu a) s = .next t ∧ Waiting s t .sleep (readVal (me s) a) 0) ∧
    (∀ (f : Nat) (e : Engine) (p : Nat), (readVal (me s) a).toNat ≤ tbOf s (dieOf s.cur) → s.engines = [(f, e)] →
      mine s e = true → e.promise = some p → p ≤ tbOf s (dieOf s.cur) → e.complete = false → e.reported = false →
      ∃ t, exec (.sleepu a) s = .next t ∧
        Trapped { s with engines := [(f, { e with reported := true })] } t 0x0A#8 0#8 (BitVec.ofNat 64 p))

namespace Sys2Proof.Claims

/-- Whether an E-word can take STRM.GO (R106, R227): AGA, AGX, AGH, MLDT, and EMIT but for TOK. -/
def startable (w : BitVec 32) : Bool := eSource w && !(decide (eopOf w = 0x80) && decide (w.extractLsb' 0 2 = 0#2))

/-- Every command queue of a slot but one element's is as before, and so is every element's operation. -/
def QueuesBut (s t : State) (e : Nat) : Prop :=
  (∀ f, f < 32 → f ≠ e → (elemAt t s.cur f).cmds = (elemAt s s.cur f).cmds) ∧ t.banks = s.banks

end Sys2Proof.Claims

/-- R107 to R110: STRM.GO, STRM.ARG and STRM.TOK at an element that can take them, with room in its queue of eight, append their
command with what it carries at the fork (count, end rank, ROUNDSZ, SCOPEDEF, handles); a full queue holds the thread in the
running state; STRM.TOK of a kind above 4 queues nothing and clears p7. The constructors of which it says where they complete:
strmGo, strmArg, strmTok. -/
def Obligations.StreamWords : Prop :=
  ∀ (s : State) (a b : BitVec 7) (r : BitVec 1) (e : BitVec 5),
    (Legal (.strmGo a r e) s → startable (ewordAt s s.cur e.toNat) = true →
      ((elemAt s s.cur e.toNat).cmds.length < 8 →
        ∃ t, exec (.strmGo a r e) s = .next t ∧ unitAt t s.cur = goOn (me s) ((me s).pc + 4#64) ∧ SameMem s t ∧
          QueuesBut s t e.toNat ∧ (seriesAt t (seriesOf s s.cur)).isOpen = true ∧
          (elemAt t s.cur e.toNat).cmds = (elemAt s s.cur e.toNat).cmds ++
            [.go { count := (readVal (me s) a).toNat, rank := if r = 1#1 then 2#2 else 1#2,
                   roundsz := (me s).csr.roundsz.toNat, scopedef := (me s).csr.scopedef.toNat, handles := (me s).th }]) ∧
      (8 ≤ (elemAt s s.cur e.toNat).cmds.length → ∃ t, exec (.strmGo a r e) s = .next t ∧ HeldRunning s t)) ∧
    (Legal (.strmGo a r e) s → startable (ewordAt s s.cur e.toNat) = false →
      ∃ t, exec (.strmGo a r e) s = .next t ∧ Trapped s t 2#8 0#8 ((encode (.strmGo a r e)).setWidth 64)) ∧
    (Legal (.strmArg a r e) s → ewordAt s s.cur e.toNat ≠ 0#32 → (elemAt s s.cur e.toNat).cmds.length < 8 →
      exec (.strmArg a r e) s = .next (setElem (nextWord s (me s)) s.cur e.toNat { elemAt s s.cur e.toNat with
        cmds := (elemAt s s.cur e.toNat).cmds ++ [.arg (readVal (me s) a) (r == 1#1)] })) ∧
    (Legal (.strmTok a b e) s → eopOf (ewordAt s s.cur e.toNat) = 0x80 →
      (ewordAt s s.cur e.toNat).extractLsb' 0 2 = 0#2 →
      ((readVal (me s) b).toNat ≤ 4 → (elemAt s s.cur e.toNat).cmds.length < 8 →
        ∃ t st, exec (.strmTok a b e) s = .next t ∧
          unitAt t s.cur = goOn (putPred (me s) 7#3 true) ((me s).pc + 4#64) ∧ SameMem s t ∧ QueuesBut s t e.toNat ∧
          (elemAt t s.cur e.toNat).cmds = (elemAt s s.cur e.toNat).cmds ++
            [.tok (readVal (me s) a)
              (if readVal (me s) b = 0#64 then none else some (BitVec.ofNat 2 ((readVal (me s) b).toNat - 1))) st]) ∧
      (4 < (readVal (me s) b).toNat →
        exec (.strmTok a b e) s = .next (nextWord s (putPred (me s) 7#3 false))))

namespace Sys2Proof.Claims

/-- The condition of DRAIN k (R111): every sink of the issuing context has passed one EOS of rank k or higher more than the
unit has completed DRAINs, and the round of that EOS has committed. -/
def drainable (s : State) (k : BitVec 2) : Prop :=
  ∀ e w, (e, w) ∈ (bankAt s s.cur).words.ewords → w ≠ 0#32 → eSink w = true →
    ∃ n, ((elemAt s s.cur e).passed.filter fun p => decide (k.toNat ≤ p.1))[(me s).drains[k.toNat]'k.isLt]? = some (n, none)

/-- Elements of a bank that an old configuration keeps busy. -/
def busyElems (b : Bank) : List Nat := (List.range 24).filter fun e => decide ((mget b.words.ewords e).getD 0#32 ≠ 0#32)

end Sys2Proof.Claims

/-- R111, R112, R114: DRAIN completes where its condition holds, counts, and waits otherwise; CFGQ reports the pending bank;
CFGLD of a segment that passes its checks, with the pending bank empty, puts the new word of every idle element in force at
once, leaves every busy element its old word, and keeps the segment pending while something old runs; with the bank full it
waits. The constructors of which it says where they complete: drain, cfgld, cfgq. It rests on the model's own choices too
(assumption log 12). -/
def Obligations.DrainAndConfig : Prop :=
  ∀ (s : State),
    (∀ r : BitVec 6, Legal (.drain r) s →
      (drainable s (r.setWidth 2) →
        exec (.drain r) s = .next (nextWord s { me s with
          pts := max (me s).pts (seriesAt s (seriesOf s s.cur)).pts
          drains := (me s).drains.set (r.setWidth 2).toNat
            ((me s).drains[(r.setWidth 2).toNat]'(r.setWidth 2).isLt + 1) (r.setWidth 2).isLt })) ∧
      (¬ drainable s (r.setWidth 2) → ∃ t, exec (.drain r) s = .next t ∧ Waiting s t .drain (r.setWidth 64) 0)) ∧
    (∀ a, Legal (.cfgq a) s →
      exec (.cfgq a) s = .next (nextWord s (writeVal (me s) a (BitVec.ofNat 64
        ((if (bankAt s s.cur).pending.isSome then 3 else 0) + 2 ^ 8 * (bankAt s s.cur).oldElems.length +
          2 ^ 13 * (bankAt s s.cur).oldOuts.length))))) ∧
    (∀ (a : BitVec 7) (x : XOk) (r : State) (g : Segment), Legal (.cfgld a) s → canonical (readVal (me s) a) = true →
      (readVal (me s) a).toNat % 4 = 0 → translate s (requester s s.cur) .read (readVal (me s) a) = (.ok x, r) →
      isRegion x.pa = false →
      checkSegment r (readImageBytes r (requester r r.cur) (readVal (me s) a) 162) = .ok g →
      (∀ n, poisonedIn s.mem x.pa n = none) →
      ((bankAt s s.cur).pending = none →
        ∃ t, exec (.cfgld a) s = .next t ∧ SameMem s t ∧ (unitAt t s.cur).pc = (me s).pc + 4#64 ∧
          (∀ e, e < 24 → (ewordAt s s.cur e = 0#32 → ewordAt t s.cur e = (mget g.words.ewords e).getD 0#32) ∧
            (ewordAt s s.cur e ≠ 0#32 → ewordAt t s.cur e = ewordAt s s.cur e)) ∧
          (bankAt t s.cur).oldElems = busyElems (bankAt s s.cur) ∧
          ((bankAt t s.cur).pending = none ↔ busyElems (bankAt s s.cur) = [] ∧ (bankAt s s.cur).words.swords = [])) ∧
      ((bankAt s s.cur).pending ≠ none →
        ∃ t, exec (.cfgld a) s = .next t ∧ Waiting s t .cfgld (readVal (me s) a) 0))

namespace Sys2Proof.Claims

/-- The promised time of a copy (R117): the timebase, the path to the destination's home, and 64 bytes in a cycle. -/
def promised (s : State) (pa len : Nat) : Nat := tbOf s (dieOf s.cur) + pathCycles (tileOf s.cur) pa + (len + 63) / 64

/-- The checks of SEND and SENDR on addresses and lengths (R115). -/
abbrev sendable (s : State) (a b : BitVec 7) (merge : Bool) : Prop :=
  canonical (readVal (me s) a) = true ∧ canonical (readVal (me s) b) = true ∧ canonical (regK1 (me s)) = true ∧
  (readVal (me s) a).toNat % 8 = 0 ∧ (readVal (me s) b).toNat % 8 = 0 ∧ (regK1 (me s)).toNat % 8 = 0 ∧
  (regK0 (me s)).toNat % 8 = 0 ∧ sourceOk s s.cur (readVal (me s) a) (regK0 (me s)).toNat = true ∧
  (merge = true → inWindow (readVal (me s) b) = true ∧
    (let k := (regK2 (me s)).toNat
     1 ≤ k / 2 ^ 48 ∧ k / 2 ^ 32 % 2 ^ 16 < k / 2 ^ 48 ∧ k / 2 ^ 4 % 2 ^ 28 = 0 ∧ k % 16 ≤ 8))

end Sys2Proof.Claims

/-- R115 to R117, R119: SEND and SENDR whose checks pass and whose destination and counter translate fork one copy, or one
contribution with the n, c and op of k2, write the promised time to d and shift; nothing is moved yet. A source outside the
issuing tile's own range raises cause 0x07 with DETAIL 1. -/
def Sys2Proof.Claims.CopyWordsRule : Prop :=
  ∀ (s s1 s2 s3 : State) (d a b : BitVec 7) (x y z : XOk) (merge : Bool) (i : Instr),
    i = (if merge then .sendr d a b else .send d a b) → Legal i s →
    (sendable s a b merge → translate s (requester s s.cur) .write (readVal (me s) b) = (.ok x, s1) →
      (if regK0 (me s) = 0#64 then s2 = s1
       else translate s1 (requester s1 s.cur) .write (readVal (me s) b + (regK0 (me s) - 1#64)) = (.ok y, s2)) →
      (if regK1 (me s) = 0#64 then s3 = s2
       else translate s2 (requester s2 s.cur) .atomic (regK1 (me s)) = (.ok z, s3)) →
      ∃ t e, exec i s = .next t ∧ SameMem s t ∧ t.engines = mset s.engines s.nextEng e ∧ t.nextEng = s.nextEng + 1 ∧
        e = { unit := s.cur, launch := (me s).launch, job := (me s).csr.jobid.toNat, pts := (me s).pts,
              promise := some (promised s x.pa (regK0 (me s)).toNat), dest := readVal (me s) b,
              kind := if merge then
                  .merge (readVal (me s) a).toNat (readVal (me s) b).toNat (regK0 (me s)).toNat (regK1 (me s))
                    ((regK2 (me s)).toNat / 2 ^ 48) ((regK2 (me s)).toNat / 2 ^ 32 % 2 ^ 16) ((regK2 (me s)).toNat % 16)
                else .copy (readVal (me s) a).toNat (readVal (me s) b).toNat (regK0 (me s)).toNat (regK1 (me s)) } ∧
        unitAt t s.cur = goOn (writeVal (me s) d (BitVec.ofNat 64 (promised s x.pa (regK0 (me s)).toNat)))
          ((me s).pc + 4#64) ∧
        ∀ u, u ≠ s.cur → unitAt t u = unitAt s u) ∧
    (canonical (readVal (me s) a) = true → canonical (readVal (me s) b) = true → canonical (regK1 (me s)) = true →
      (readVal (me s) a).toNat % 8 = 0 → (readVal (me s) b).toNat % 8 = 0 → (regK1 (me s)).toNat % 8 = 0 →
      (regK0 (me s)).toNat % 8 = 0 → sourceOk s s.cur (readVal (me s) a) (regK0 (me s)).toNat = false →
        ∃ t, exec i s = .next t ∧ Trapped s t 7#8 1#8 (readVal (me s) a))

namespace Sys2Proof.Claims

/-- The copies that have counted in the word of a physical address. -/
def counted (pa : Nat) (e : Engine) : Bool := e.complete && decide (e.counted = some pa)

/-- The unit's forks that satisfy a condition are gone from the table, and its other operations are as before. -/
def JoinedOnly (s t : State) (p : Engine → Bool) : Prop :=
  t.engines = s.engines.filter fun e => !(mine s e.2 && p e.2)

end Sys2Proof.Claims

/-- R120, R121: CTRADD joins every fork and adds up to 2^64 − 1, and at a region window raises cause 0x07 with DETAIL 3
(R263); the others read memory or the register of a region window: CTRRD reads and shifts; CTRWAIT with its target reached
acquires and joins the copies that counted, and waits below it; CTRWAIT.NB reports in p7; CTRWATCH arms watch N and clears
pN, or sets it at once where the target is reached. -/
def Sys2Proof.Claims.CounterWordsRule : Prop :=
  ∀ (s r : State) (a b : BitVec 7) (n : BitVec 6) (x : XOk) (va : Word) (ctr : Nat),
    canonical va = true → va.toNat % 8 = 0 → poisonedIn s.mem x.pa 8 = none → ctr = readAt s x.pa 8 →
    (Legal (.ctradd a b) s → va = readVal (me s) a → translate s (requester s s.cur) .atomic va = (.ok x, r) →
      (isRegion x.pa = true → ∃ t, exec (.ctradd a b) s = .next t ∧ Trapped s t 7#8 3#8 va) ∧
      (isRegion x.pa = false → pinnedRange s none x.pa 8 = false → forksComplete s →
        ∃ t m, exec (.ctradd a b) s = .next t ∧
          rdNum t.mem x.pa 8 = min (ctr + (readVal (me s) b).toNat) (2 ^ 64 - 1) ∧ SameBytesBut s t x.pa 8 ∧
          JoinedOnly s t (fun _ => true) ∧ unitAt t s.cur = goOn { me s with pts := m } ((me s).pc + 4#64)) ∧
      (isRegion x.pa = false → ¬ forksComplete s → ∃ t, exec (.ctradd a b) s = .next t ∧ HeldRunning s t)) ∧
    (Legal (.ctrrd a b) s → va = readVal (me s) b → translate s (requester s s.cur) .read va = (.ok x, r) →
      ∃ t m, exec (.ctrrd a b) s = .next t ∧ SameMem s t ∧
        unitAt t s.cur = goOn { writeVal (me s) a (BitVec.ofNat 64 ctr) with pts := m } ((me s).pc + 4#64)) ∧
    (Legal (.ctrwait a b) s → va = readVal (me s) a → translate s (requester s s.cur) .read va = (.ok x, r) →
      ((readVal (me s) b).toNat ≤ ctr →
        ∃ t m, exec (.ctrwait a b) s = .next t ∧ SameMem s t ∧ JoinedOnly s t (counted x.pa) ∧
          unitAt t s.cur = goOn { me s with pts := m } ((me s).pc + 4#64)) ∧
      (ctr < (readVal (me s) b).toNat → ∃ t, exec (.ctrwait a b) s = .next t ∧ Waiting s t .counter va 0)) ∧
    (Legal (.ctrwaitNb a b) s → va = readVal (me s) a → translate s (requester s s.cur) .read va = (.ok x, r) →
      ∃ t m, exec (.ctrwaitNb a b) s = .next t ∧ SameMem s t ∧
        JoinedOnly s t (fun e => decide ((readVal (me s) b).toNat ≤ ctr) && counted x.pa e) ∧
        unitAt t s.cur =
          goOn { putPred (me s) 7#3 (decide ((readVal (me s) b).toNat ≤ ctr)) with pts := m } ((me s).pc + 4#64)) ∧
    (Legal (.ctrwatch a b n) s → va = readVal (me s) a → translate s (requester s s.cur) .read va = (.ok x, r) →
      ∃ t m, exec (.ctrwatch a b n) s = .next t ∧ SameMem s t ∧
        JoinedOnly s t (fun e => decide ((readVal (me s) b).toNat ≤ ctr) && counted x.pa e) ∧
        predNum (unitAt t s.cur) (n.setWidth 3) = decide ((readVal (me s) b).toNat ≤ ctr) ∧
        (unitAt t s.cur).watches[(n.setWidth 3).toNat]'(n.setWidth 3).isLt =
          (if (readVal (me s) b).toNat ≤ ctr then none else some { addr := va, target := readVal (me s) b }) ∧
        unitAt t s.cur = { me s with
          st := (goOn (me s) 0#64).st, wait := none, pc := (me s).pc + 4#64, pts := m, p := (unitAt t s.cur).p
          watches := (unitAt t s.cur).watches } ∧
        SamePredsBut (me s) (unitAt t s.cur) (n.setWidth 3))

/-- R122, R123: THSET writes one word of a handle unchecked, THGET reads one and shifts, THCHK reports in p7 whether the
handle is well formed; THLD takes a well-formed descriptor of 128 bytes, or type none, and reports in p7; THST writes the
128 bytes. Memory alone holds handles: at a region window both raise cause 0x04 with DETAIL 8 (R263). -/
def Sys2Proof.Claims.HandleWordsRule : Prop :=
  ∀ (s : State) (h b : BitVec 7),
    (∀ w, Legal (.thset h b w) s →
      exec (.thset h b w) s = .next (nextWord s (writeHandle (me s) h
        (Vector.ofFn fun (k : Fin 16) => if k.val = w.toNat then readVal (me s) b else (readHandle (me s) h)[k])))) ∧
    (∀ w, Legal (.thget b h w) s →
      exec (.thget b h w) s = .next (nextWord s (writeVal (me s) b ((readHandle (me s) h).toList.getD w.toNat 0#64)))) ∧
    (Legal (.thchk h) s →
      exec (.thchk h) s = .next (nextWord s (putPred (me s) 7#3 (handleOk (readHandle (me s) h))))) ∧
    (∀ (x y : XOk) (r q : State), canonical (readVal (me s) b) = true → (readVal (me s) b).toNat % 64 = 0 →
      (Legal (.thld h b) s → translate s (requester s s.cur) .read (readVal (me s) b) = (.ok x, r) →
        translate r (requester r s.cur) .read (readVal (me s) b + 127#64) = (.ok y, q) → y.pa = x.pa + 127 →
        isRegion x.pa = false → isRegion y.pa = false →
        poisonedIn s.mem x.pa 64 = none → poisonedIn s.mem (x.pa + 64) 64 = none →
        ∃ t m, exec (.thld h b) s = .next t ∧ SameMem s t ∧
          unitAt t s.cur = goOn { putPred (writeHandle (me s) h
              (if handleOk (handleOf (rdBytes s.mem x.pa 128)) then handleOf (rdBytes s.mem x.pa 128)
               else Vector.replicate 16 0#64)) 7#3 (handleOk (handleOf (rdBytes s.mem x.pa 128))) with pts := m }
            ((me s).pc + 4#64)) ∧
      (Legal (.thst h b) s → translate s (requester s s.cur) .write (readVal (me s) b) = (.ok x, r) →
        translate r (requester r s.cur) .write (readVal (me s) b + 127#64) = (.ok y, q) → y.pa = x.pa + 127 →
        isRegion x.pa = false → isRegion y.pa = false →
        pinnedRange s none x.pa 64 = false → pinnedRange s none (x.pa + 64) 64 = false →
        ∃ t m, exec (.thst h b) s = .next t ∧ SameBytesBut s t x.pa 128 ∧
          (∀ k : Fin 16, rd64 t.mem (x.pa + 8 * k.val) = (readHandle (me s) h)[k]) ∧
          (∀ a, isFull t.mem a = isFull s.mem a) ∧
          unitAt t s.cur = goOn { me s with pts := m } ((me s).pc + 4#64)) ∧
      (∀ i k, (i = .thld h b ∧ k = .read ∨ i = .thst h b ∧ k = .write) → Legal i s →
        translate s (requester s s.cur) k (readVal (me s) b) = (.ok x, r) →
        translate r (requester r s.cur) k (readVal (me s) b + 127#64) = (.ok y, q) → isRegion x.pa = true →
        ∃ t, exec i s = .next t ∧ Trapped s t 4#8 8#8 (readVal (me s) b)))

namespace Sys2Proof.Claims

/-- X(c, n) as the issuer reads it (R279): the exchange word of context c of its launch, 0 where the launch holds no such
context. -/
def exchange (s : State) (c : Nat) (n : BitVec 3) : Word :=
  match launchOf s s.cur with
  | some l => if c < l.nctx then (bankAt s (4 * tileOf s.cur + l.base + c)).x[n.toNat]'n.isLt else 0#64
  | none => if c = imageCtx s s.cur then (bankAt s s.cur).x[n.toNat]'n.isLt else 0#64

/-- The time of the CTXDEF that wrote X(c, n), 0 where the launch holds no such context. -/
def exchangeTime (s : State) (c : Nat) (n : BitVec 3) : Nat :=
  match launchOf s s.cur with
  | some l => if c < l.nctx then (bankAt s (4 * tileOf s.cur + l.base + c)).xpts[n.toNat]'n.isLt else 0
  | none => if c = imageCtx s s.cur then (bankAt s s.cur).xpts[n.toNat]'n.isLt else 0

/-- The issuer behind an acquire of X(c, n): its time is not before that of the CTXDEF that wrote the word. -/
def acquired (s : State) (c : Nat) (n : BitVec 3) : UnitRegs :=
  { me s with pts := max (me s).pts (exchangeTime s c n) }

end Sys2Proof.Claims

/-- R278, R279: CTXDEF joins every fork and writes its own exchange word, which keeps its time; CTXRD reads word n of context
c mod 4 and shifts; CTXWT completes at or above its target and waits below it, with 8c + n as the value that a timeout reports.
Each read of a word, and each CTXWT that completes, is an acquire of what was stored before the CTXDEF that wrote it. -/
def Sys2Proof.Claims.ExchangeWordsRule : Prop :=
  ∀ (s : State) (a b : BitVec 7) (n : BitVec 6),
    (Legal (.ctxdef a n) s → forksComplete s →
      ∃ t, t = joined s (fun _ => true) ∧
        exec (.ctxdef a n) s = .next (setBank (nextWord t (me t)) s.cur { bankAt s s.cur with
          x := (bankAt s s.cur).x.set (n.setWidth 3).toNat (readVal (me s) a) (n.setWidth 3).isLt
          xpts := (bankAt s s.cur).xpts.set (n.setWidth 3).toNat (me t).pts (n.setWidth 3).isLt })) ∧
    (Legal (.ctxdef a n) s → ¬ forksComplete s → ∃ t, exec (.ctxdef a n) s = .next t ∧ HeldRunning s t) ∧
    (Legal (.ctxrd a b n) s →
      exec (.ctxrd a b n) s = .next (nextWord s (writeVal (acquired s ((readVal (me s) b).toNat % 4) (n.setWidth 3)) a
        (exchange s ((readVal (me s) b).toNat % 4) (n.setWidth 3))))) ∧
    (Legal (.ctxwt a b n) s →
      ((readVal (me s) a).toNat ≤ (exchange s ((readVal (me s) b).toNat % 4) (n.setWidth 3)).toNat →
        exec (.ctxwt a b n) s = .next (nextWord s (acquired s ((readVal (me s) b).toNat % 4) (n.setWidth 3)))) ∧
      ((exchange s ((readVal (me s) b).toNat % 4) (n.setWidth 3)).toNat < (readVal (me s) a).toNat →
        ∃ t, exec (.ctxwt a b n) s = .next t ∧
          Waiting s t .exchange (BitVec.ofNat 64 (8 * ((readVal (me s) b).toNat % 4) + n.toNat)) 0))

/-- R281, R282: RCLOSE 0 completes at once with p7 = 0 where no round is open, and otherwise waits until the rounds open at
its issue have committed; RCLOSE 1 voids the open rounds and reports in p7 whether there was one; RQRY reads VOIDS, PIN,
OPEN and LASTC and shifts. -/
def Sys2Proof.Claims.RoundWordsRule : Prop :=
  ∀ (s : State) (k : Nat) (x : Series), k = seriesOf s s.cur → x = seriesAt s k →
    ((me s).wait = none → openRounds s k = [] →
      exec (.rclose 0#6) s = .next (nextWord s (putPred { me s with pts := max (me s).pts x.pts } 7#3 false))) ∧
    (∀ l n, (me s).wait = none → openRounds s k = l ++ [n] →
      ∃ t, exec (.rclose 0#6) s = .next t ∧ Waiting s t .roundClose (BitVec.ofNat 64 x.next) (n + 1)) ∧
    (∀ w, (me s).wait = some w → w.aux ≤ x.next →
      exec (.rclose 0#6) s = .next (nextWord s (putPred { me s with pts := max (me s).pts x.pts } 7#3 true))) ∧
    (openRounds s k = [] → exec (.rclose 1#6) s = .next (nextWord s (putPred (me s) 7#3 false))) ∧
    (openRounds s k ≠ [] →
      exec (.rclose 1#6) s =
        .next (nextWord (voidRounds s k false) (putPred (me (voidRounds s k false)) 7#3 true))) ∧
    (∀ a, Legal (.rqry a) s →
      exec (.rqry a) s = .next (nextWord s (writeVal (me s) a (BitVec.ofNat 64
        (min x.voids 65535 * 2 ^ 40 + (if (openRounds s k).any (fun n => (x.round n).pinned) then 2 ^ 34 else 0) +
          min (openRounds s k).length 2 * 2 ^ 32 + x.lastc.toNat)))))

/-! ## Barriers and queues (13_cluster_instructions.md, 16_die_queues_translation.md, 18_die_instructions.md) -/

namespace Sys2Proof.Claims

/-- Every fork of the issuing unit joined. -/
def joinedAll (s : State) : State := joined s fun _ => true

/-- A barrier with the arrival of a member, at TB() as its C-word was issued (R261, R273). -/
def arrived (s : State) (x : Barrier) (m : Nat) : Barrier :=
  { x with
    members := x.members.set m { x.members.getD m {} with arrived := true, time := issueTb s }
    arr := x.arr + 1
    pts := max x.pts (me (joinedAll s)).pts }

/-- Whether an episode stays open: some member has neither arrived nor left. -/
abbrev staysOpen (x : Barrier) : Prop := ∃ m ∈ x.members, m.arrived = false ∧ m.left = false

/-- Whether an episode e is complete at a barrier whose next is EPI (R271). -/
abbrev passed (epi e : BitVec 32) : Prop := 1 ≤ (epi - e).toNat ∧ (epi - e).toNat < 2 ^ 31

/-- What a completed episode leaves at the home (R273, R275): EPI advanced, every member open again but those that left,
which count as arrived unless every member has left, and only the waiters whose episode is not complete. -/
def Completed (x y : Barrier) : Prop :=
  y.epi = x.epi + 1#32 ∧ y.nmem = x.nmem ∧ y.members.length = x.members.length ∧
  (∀ m, m < x.members.length → (y.members.getD m {}).left = (x.members.getD m {}).left) ∧
  ((∃ m ∈ x.members, m.left = false) → ∀ m, m < x.members.length →
    (y.members.getD m {}).arrived = (x.members.getD m {}).left ∧ (y.members.getD m {}).excused = (x.members.getD m {}).left) ∧
  ((∀ m ∈ x.members, m.left = true) → ∀ m ∈ y.members, m.arrived = false) ∧
  y.arr = (y.members.filter (·.arrived)).length ∧
  y.waiters = x.waiters.filter fun w => decide ((x.epi + 1#32 - w.epi).toNat = 0) || decide (2 ^ 31 ≤ (x.epi + 1#32 - w.epi).toNat)

end Sys2Proof.Claims

/-- R273: BARARR of a member, once at the home, joins its forks and answers EPI; a second arrival is refused with p7 = 0 and
changes nothing at the home; an arrival is recorded with its time; and one that completes the episode advances EPI, opens the
next episode and releases a unit parked for the old one. -/
def Sys2Proof.Claims.BarrierArrivalRule : Prop :=
  ∀ (s r : State) (a b : BitVec 7) (l : Launch) (k m : Nat) (x : Barrier), Legal (.bararr a b) s →
    heldBarrier s (readVal (me s) b) = .ok (r, l, k, x) →
    memberOf r (launchReq l) x (me s).launch s.cur = some m → m < x.members.length → forksComplete s →
    ((x.members.getD m {}).arrived = true ∨ (x.members.getD m {}).left = true →
      exec (.bararr a b) s = .next (nextWord (joinedAll r)
        (putPred (writeVal (me (joinedAll r)) a (x.epi.setWidth 64)) 7#3 false))) ∧
    ((x.members.getD m {}).arrived = false → (x.members.getD m {}).left = false →
      (staysOpen (arrived r x m) →
        exec (.bararr a b) s = .next (setBarrier (nextWord (joinedAll r)
          (putPred (writeVal (me (joinedAll r)) a (x.epi.setWidth 64)) 7#3 true)) k (arrived r x m))) ∧
      (¬ staysOpen (arrived r x m) → (∀ w ∈ x.waiters, w.unit ≠ s.cur) →
        ∃ t y, exec (.bararr a b) s = .next t ∧ mget t.barriers k = some y ∧ Completed (arrived r x m) y ∧
          unitAt t s.cur = goOn (putPred (writeVal (me (joinedAll r)) a (x.epi.setWidth 64)) 7#3 true)
            ((me s).pc + 4#64) ∧
          (∀ w, x.waiters = [w] → w.epi = x.epi → (unitAt s w.unit).st = .waiting →
            (unitAt t w.unit).st = .ready ∧ (unitAt t w.unit).pc = (unitAt s w.unit).pc + 4#64 ∧
            ∀ d, w.reg = some d → (unitAt t w.unit).l[0] = x.epi.setWidth 64)))

/-- R274, R276, R277, R275: BARWAIT passes an episode that is complete and parks for any other; BARSYNC is an arrival and the
wait for its episode; BARRD reads the field that sel names; BARCFG writes T, K and W where they are in range; BARLEAVE marks
the member. -/
def Sys2Proof.Claims.BarrierWordsRule : Prop :=
  ∀ (s r : State) (a b : BitVec 7) (l : Launch) (k m : Nat) (x : Barrier),
    (∀ e : BitVec 32, Legal (.barwait a b) s → heldBarrier s (readVal (me s) a) = .ok (r, l, k, x) →
      mget r.barriers k = some x → e = (readVal (me s) b).setWidth 32 →
      (passed x.epi e →
        exec (.barwait a b) s = .next (nextWord r { me r with pts := max (me r).pts x.pts })) ∧
      (¬ passed x.epi e → ∃ t, exec (.barwait a b) s = .next t ∧
        Waiting s t .barrier (BitVec.ofNat 64 ((readVal (me s) a).toNat % 2 ^ 10)) (2 * e.toNat) ∧
        mget t.barriers k = some { x with waiters := x.waiters ++ [{ unit := s.cur, epi := e, reg := none, ok := false }] })) ∧
    (Legal (.barsync a b) s → heldBarrier s (readVal (me s) b) = .ok (r, l, k, x) → (me s).wait = none →
      memberOf r (launchReq l) x (me s).launch s.cur = some m → m < x.members.length → forksComplete s →
      (x.members.getD m {}).arrived = false → (x.members.getD m {}).left = false →
      (staysOpen (arrived r x m) → ∃ t, exec (.barsync a b) s = .next t ∧ SameMem s t ∧
        mget t.barriers k = some { arrived r x m with
          waiters := x.waiters ++ [{ unit := s.cur, epi := x.epi, reg := some a, ok := true }] } ∧
        unitAt t s.cur = { me (joinedAll r) with
          st := .waiting
          wait := some { kind := .barrier, value := BitVec.ofNat 64 ((readVal (me s) b).toNat % 2 ^ 10),
                         aux := 2 * x.epi.toNat + 1 } }) ∧
      (¬ staysOpen (arrived r x m) → (∀ w ∈ x.waiters, w.unit ≠ s.cur) →
        ∃ t n y, exec (.barsync a b) s = .next t ∧ mget t.barriers k = some y ∧ Completed (arrived r x m) y ∧
          unitAt t s.cur =
            goOn { putPred (writeVal (me s) a (x.epi.setWidth 64)) 7#3 true with pts := n } ((me s).pc + 4#64))) ∧
    (∀ sel : BitVec 6, Legal (.barrd a b sel) s → heldBarrier s (readVal (me s) b) = .ok (r, l, k, x) →
      exec (.barrd a b sel) s = .next (nextWord r (writeVal (me r) a (match sel.toNat with
        | 0 => x.epi.setWidth 64
        | 1 => BitVec.ofNat 64 x.arr
        | 2 => BitVec.ofNat 64 x.nmem
        | 3 => BitVec.ofNat 64 (x.t + 2 ^ 24 * x.k + 2 ^ 32 * x.w)
        | 4 => x.mtb
        | 5 => x.srb
        | 6 => match memberOf r (launchReq l) x (me s).launch s.cur with
          | some m => BitVec.ofNat 64 m
          | none => BitVec.allOnes 64
        | _ => BitVec.ofNat 64 (x.members.filter (·.left)).length)))) ∧
    (∀ t w kk : Nat, Legal (.barcfg a b) s → heldBarrier s (readVal (me s) a) = .ok (r, l, k, x) →
      t = (readVal (me s) b).toNat % 2 ^ 23 → kk = (readVal (me s) b).toNat / 2 ^ 24 % 2 ^ 5 →
      w = (readVal (me s) b).toNat / 2 ^ 32 % 2 ^ 5 →
      (((readVal (me s) b).toNat = t + 2 ^ 24 * kk + 2 ^ 32 * w ∧ 1 ≤ t ∧ 1 ≤ w ∧ w ≤ 16 ∧ 1 ≤ kk ∧ kk ≤ w) →
        exec (.barcfg a b) s = .next (setBarrier (nextWord r (putPred (me r) 7#3 true)) k { x with t := t, k := kk, w := w })) ∧
      (¬ ((readVal (me s) b).toNat = t + 2 ^ 24 * kk + 2 ^ 32 * w ∧ 1 ≤ t ∧ 1 ≤ w ∧ w ≤ 16 ∧ 1 ≤ kk ∧ kk ≤ w) →
        exec (.barcfg a b) s = .next (nextWord r (putPred (me r) 7#3 false)))) ∧
    (∀ y z : Member, Legal (.barleave a) s → heldBarrier s (readVal (me s) a) = .ok (r, l, k, x) →
      memberOf r (launchReq l) x (me s).launch s.cur = some m → m < x.members.length → forksComplete s →
      y = x.members.getD m {} →
      z = { y with arrived := true, left := true, excused := if y.arrived then y.excused else true } →
      (y.left = true → exec (.barleave a) s = .next (nextWord (joinedAll r) (me (joinedAll r)))) ∧
      (y.left = false → staysOpen { x with members := x.members.set m z } →
        exec (.barleave a) s = .next (setBarrier (nextWord (joinedAll r) (me (joinedAll r))) k
          { x with members := x.members.set m z, arr := if y.arrived then x.arr else x.arr + 1,
                   pts := max x.pts (me (joinedAll r)).pts })))

/-- R272: BARINIT of a block that breaks a rule answers p7 = 0 and changes no byte; a page of the table or of the records that
does not translate is a precise trap; of a good block, whose table and records translate, whose entries are well formed and
distinct, and at a free slot, BARINIT claims the slot for the home launch with NMEM, MTB and SRB of the block, T, K and W at
4096, 3 and 4, episode 0 and nobody arrived, and answers p7 = 1. -/
def Sys2Proof.Claims.BarrierInitRule : Prop :=
  ∀ (s s1 s2 : State) (a b : BitVec 7) (key t i nmem : Nat) (l : Launch) (x : XOk) (v : List Byte)
    (mtb srb : Word), Legal (.barinit a b) s → resolveName s (readVal (me s) a) = .ok (key, l, t, i) →
    address s .read (readVal (me s) b) 32 = .ok (x, s1) → readC s1 x 32 none (readVal (me s) b) = .ok (v, s2) →
    mtb = BitVec.ofNat 64 (numAt v 0 8) → srb = BitVec.ofNat 64 (numAt v 8 8) → nmem = numAt v 16 4 →
    (mtb.toNat % 16 ≠ 0 ∨ srb.toNat % 64 ≠ 0 ∨ nmem = 0 ∨ 16384 < nmem ∨ numAt v 20 12 ≠ 0 →
      exec (.barinit a b) s = .next (nextWord s2 (putPred (me s2) 7#3 false)) ∧ SameMem s s2) ∧
    (mtb.toNat % 16 = 0 → srb.toNat % 64 = 0 → 1 ≤ nmem → nmem ≤ 16384 → numAt v 20 12 = 0 →
      (∀ (r : State) (c d : BitVec 8) (w : Word),
        (addressSpan s2 .read mtb (16 * nmem) = .error (.trapped r c d w) ∨
          ∃ s3, addressSpan s2 .read mtb (16 * nmem) = .ok s3 ∧
            addressSpan s3 .write srb (64 * nmem) = .error (.trapped r c d w)) →
        ∃ u, exec (.barinit a b) s = .next u ∧ Trapped r u c d w) ∧
      (∀ (s3 s4 s6 : State) (es : List (Word × Word)), addressSpan s2 .read mtb (16 * nmem) = .ok s3 →
        addressSpan s3 .write srb (64 * nmem) = .ok s4 → s6 = toHomeTile s4 t →
        memberTable s6 (launchReq l) mtb nmem = some es → (∀ e ∈ es, e.1.toNat % 2 ^ 18 = 0) →
        (es.map Prod.fst).Nodup →
        (∀ y, mget s6.barriers (1024 * t + i) = some y →
          mget s6.launches y.holder = none ∨ y.holder = key ∧ y.arr = 0 ∧ y.waiters = []) →
        ∃ r y, exec (.barinit a b) s = .next r ∧ mget r.barriers (1024 * t + i) = some y ∧
          y.holder = key ∧ y.nmem = nmem ∧ y.mtb = mtb ∧ y.srb = srb ∧ y.t = 4096 ∧ y.k = 3 ∧ y.w = 4 ∧ y.epi = 0#32 ∧
          y.arr = 0 ∧ y.members = List.replicate nmem {} ∧ y.waiters = [] ∧
          unitAt r s.cur = goOn (putPred (me s6) 7#3 true) ((me s).pc + 4#64)))

/-- R305: a block whose fields are in range is read back from its bytes as it was written, with its check word recomputed;
and the worked block of R306 has the check word that the rule prints. -/
def Sys2Proof.Claims.QueueBlocksRule : Prop :=
  (∀ q : Aqcb, q.head < 2 ^ 32 → q.tail < 2 ^ 32 → q.free < 2 ^ 32 → q.esz < 256 → q.capl < 256 → q.flags < 256 →
    q.home < 2 ^ 64 →
    q.bytes.length = 64 ∧ readAqcb q.bytes = { q with check := checkOf q.front, zeros := true }) ∧
  checkOf ({ head := 14, tail := 1, free := 13, esz := 3, capl := 4, flags := 4, owner := 0x0000021042500000#64,
             home := 0x00200040, base := 0x0000004100000000#64, check := 0, zeros := true } : Aqcb).front = 0xE1C1

namespace Sys2Proof.Claims

/-- The block at an address holds the fields of q, with its check word recomputed and its zero bytes zero (R309). -/
abbrev BlockIs (t : State) (pa : Nat) (q : Aqcb) : Prop :=
  blockAt t.mem pa = { q with check := checkOf q.front, zeros := true }

/-- Two ranges of bytes share none. -/
abbrev Apart (a n b m : Nat) : Prop := a + n ≤ b ∨ b + m ≤ a

/-- No byte outside two ranges differs. -/
def SameBytesBut2 (s t : State) (a n b m : Nat) : Prop :=
  ∀ c, (c < a ∨ a + n ≤ c) → (c < b ∨ b + m ≤ c) → rdByte t.mem c = rdByte s.mem c

/-- What a non-blocking form writes in p7; a blocking form writes none. -/
def report (nb ok : Bool) (x : UnitRegs) : UnitRegs := if nb then putPred x 7#3 ok else x

end Sys2Proof.Claims

/-- R309, R338, R339: ENQ, ENQ.NB and ENQV whose block passes the checks of R308 and has a free slot, with nobody parked on it,
join the issuer's forks, write the element into slot TAIL and advance TAIL and FREE, as one event with the check word
recomputed; every other byte is as before. On a full block ENQ.NB answers p7 = 0 and the blocking forms park. The constructors
of which it says where they complete: enq, enqNb, enqv. It rests on the model's own choices too (assumption log 12). -/
def Obligations.QueueEnqueues : Prop :=
  ∀ (s s1 s2 s4 s5 : State) (a b : BitVec 7) (i : Instr) (nb val : Bool) (x y slot : XOk) (q : Aqcb) (bs : List Byte),
    (i = .enq a b ∧ nb = false ∧ val = false ∨ i = .enqNb a b ∧ nb = true ∧ val = false ∨
      i = .enqv a b ∧ nb = false ∧ val = true) →
    Legal i s → address s .atomic (readVal (me s) a) 64 = .ok (x, s1) →
    (if val then s2 = s1 else address s1 .read (readVal (me s) b) 8 = .ok (y, s2)) → forksComplete s →
    checkQueue (joinedAll s2) x.pa (readVal (me s) a) false = .ok q →
    (if val then q.esz = 0 ∧ bs = toBytes 8 (readVal (me s) b).toNat ∧ s4 = joinedAll s2
     else readWords8 (joinedAll s2) (readVal (me s) b) (q.size / 8) = .ok (bs, s4)) →
    (0 < q.free → translate (toHome s4 x.pa) (requester s4 s4.cur) .write (q.slot q.tail) = (.ok slot, s5) →
      pinnedRange s none slot.pa q.size = false → pinnedRange s none x.pa 64 = false → Apart slot.pa q.size x.pa 64 →
      s.qwaiters = [] →
      ∃ t n, exec i s = .next t ∧ BlockIs t x.pa { q with tail := (q.tail + 1) % q.cap, free := q.free - 1 } ∧
        rdBytes t.mem slot.pa q.size = bs ∧ SameBytesBut2 s t slot.pa q.size x.pa 64 ∧ JoinedOnly s t (fun _ => true) ∧
        unitAt t s.cur = goOn { report nb true (me s) with pts := n } ((me s).pc + 4#64)) ∧
    (q.free = 0 →
      (nb = true → ∃ t n, exec i s = .next t ∧ SameMem s t ∧
        unitAt t s.cur = goOn { putPred (me s) 7#3 false with pts := n } ((me s).pc + 4#64)) ∧
      (nb = false → s.qwaiters = [] → ∃ t n, exec i s = .next t ∧ SameMem s t ∧
        t.qwaiters = [{ ctrl := homeCtrl x.pa, block := x.pa, unit := s.cur, enq := true, data := bs }] ∧
        unitAt t s.cur = { me s with
          st := .waiting, pts := n
          wait := some { kind := .queue, value := readVal (me s) a, count := waitCount (me s) } }))

namespace Sys2Proof.Claims

/-- The block after a dequeue or a steal, and the slot that it takes (R309). -/
def takeFrom (q : Aqcb) (steal : Bool) : Aqcb × Nat :=
  if steal then ({ q with tail := (q.tail + q.cap - 1) % q.cap, free := q.free + 1 }, (q.tail + q.cap - 1) % q.cap)
  else ({ q with head := (q.head + 1) % q.cap, free := q.free + 1 }, q.head)

end Sys2Proof.Claims

/-- R309, R338: DEQV of a block that passes the checks and holds an element, with nobody parked on it, takes the element of
slot HEAD into d and shifts, and advances HEAD and FREE; every other byte is as before. On an empty block it parks. -/
def Sys2Proof.Claims.QueueValueDequeueRule : Prop :=
  ∀ (s s1 s2 : State) (d a : BitVec 7) (x slot : XOk) (q : Aqcb), Legal (.deqv d a) s → takenBy s s.cur = none →
    address s .atomic (readVal (me s) a) 64 = .ok (x, s1) → checkQueue s1 x.pa (readVal (me s) a) true = .ok q →
    q.esz = 0 →
    (q.free < q.cap → translate (toHome s1 x.pa) (requester s1 s1.cur) .read (q.slot q.head) = (.ok slot, s2) →
      pinnedRange s none x.pa 64 = false → poisonedIn s.mem slot.pa 8 = none → s.qwaiters = [] →
      ∃ t n, exec (.deqv d a) s = .next t ∧ BlockIs t x.pa (takeFrom q false).1 ∧ SameBytesBut s t x.pa 64 ∧
        unitAt t s.cur = goOn { writeVal (me s) d (rd64 s.mem slot.pa) with pts := n } ((me s).pc + 4#64)) ∧
    (q.free = q.cap → s.qwaiters = [] →
      ∃ t, exec (.deqv d a) s = .next t ∧ Waiting s t .queue (readVal (me s) a) 0 ∧
        t.qwaiters = [{ ctrl := homeCtrl x.pa, block := x.pa, unit := s.cur, enq := false, dest := none, reg := some d }])

/-- R309, R311, R338, R339: DEQ, DEQ.NB and QSTEAL of a block that passes the checks and holds an element (and is stealable,
for QSTEAL), whose destination translates, take the element of slot HEAD, or of the last slot for a steal, and write it to
the destination in ascending address. An empty block parks DEQ and answers p7 = 0 to DEQ.NB and QSTEAL. -/
def Sys2Proof.Claims.QueueDequeuesRule : Prop :=
  ∀ (s s1 s2 sent s3 s4 s6 : State) (a b : BitVec 7) (i : Instr) (f : Taking) (x y slot : XOk) (q : Aqcb),
    (i = .deq a b ∧ f = .block ∨ i = .deqNb a b ∧ f = .nb ∨ i = .qsteal a b ∧ f = .steal) →
    Legal i s → takenBy s s.cur = none → address s .atomic (readVal (me s) a) 64 = .ok (x, s1) →
    address s1 .write (readVal (me s) b) 8 = .ok (y, s2) →
    checkQueue s2 x.pa (readVal (me s) a) (f != .steal) = .ok q → sent = toHome s2 x.pa →
    (q.free < q.cap → (f = .steal → q.steal = true) → pinnedWords s2 (readVal (me s) b) (q.size / 8) = false →
      xlateWords sent .write (readVal (me s) b) (q.size / 8) = .ok s3 →
      translate s3 (requester s3 s3.cur) .read (q.slot (takeFrom q (f == .steal)).2) = (.ok slot, s4) →
      pinnedRange s none x.pa 64 = false → poisonedIn s.mem slot.pa q.size = none → s.qwaiters = [] →
      (∀ r, r = queueEvent s4 (me s).pts x.pa (takeFrom q (f == .steal)).1 slot q.size none →
        writeWords8 (afterQueue r.1 r.2) (readVal (me s) b) (q.size / 8) (rdBytes s.mem slot.pa q.size) = .ok s6 →
        BlockIs r.1 x.pa (takeFrom q (f == .steal)).1 ∧ SameBytesBut s r.1 x.pa 64 ∧
        ∃ t n, exec i s = .next t ∧ t.mem = s6.mem ∧
          unitAt t s.cur = goOn { report (f != .block) true (me s) with pts := n } ((me s).pc + 4#64))) ∧
    (q.free = q.cap ∨ f = .steal ∧ q.steal = false →
      (f ≠ .block → exec i s = .next (nextWord sent (putPred (me sent) 7#3 false)) ∧ SameMem s sent) ∧
      (f = .block → s.qwaiters = [] →
        ∃ t, exec i s = .next t ∧ Waiting s t .queue (readVal (me s) a) 0 ∧
          t.qwaiters = [{ ctrl := homeCtrl x.pa, block := x.pa, unit := s.cur, enq := false,
                          dest := some (readVal (me s) b) }]))

/-- R308: the checks of a queue operation in their order: a block outside slice banks and HBM4 raises cause 0x07 with DETAIL 3;
a poisoned block cause 0x0C; an inconsistent one cause 0x0B, with POISON set and every other byte as found; one of another
die without MD, or a dequeue by a unit that does not own it, cause 0x07 with DETAIL 3. What the home answers has travelled to it
as a packet (R312). -/
def Sys2Proof.Claims.QueueChecksRule : Prop :=
  ∀ (s s1 : State) (d a : BitVec 7) (x : XOk) (va : Word) (q : Aqcb), Legal (.deqv d a) s → takenBy s s.cur = none →
    va = readVal (me s) a → address s .atomic va 64 = .ok (x, s1) → q = blockAt s.mem x.pa →
    (paClass x.pa ≠ 0 → paClass x.pa ≠ 2 → ∃ t, exec (.deqv d a) s = .next t ∧ Trapped s t 7#8 3#8 va) ∧
    (paClass x.pa = 0 ∨ paClass x.pa = 2 →
      (q.flags / 2 % 2 = 1 → ∃ t, exec (.deqv d a) s = .next t ∧ Trapped (toHome s1 x.pa) t 0x0C#8 0#8 va) ∧
      (q.flags / 2 % 2 = 0 → poisonedIn s.mem x.pa 64 = none → q.consistent x.pa = false → s.qwaiters = [] →
        statusTD (me s) = false →
        ∃ t, exec (.deqv d a) s = .next t ∧ unitAt t s.cur = framed (me s) 0x0B#8 0#8 va ∧
          rdByte t.mem (x.pa + 14) = rdByte s.mem (x.pa + 14) ||| 2#8 ∧ SameBytesBut s t (x.pa + 14) 1) ∧
      (q.flags / 2 % 2 = 0 → poisonedIn s.mem x.pa 64 = none → q.consistent x.pa = true →
        (q.flags / 4 % 2 = 0 ∧ paDie x.pa ≠ dieOf s.cur ∨ q.owner ≠ 0#64 ∧ q.owner ≠ unitName (me s).launch s.cur) →
        ∃ t, exec (.deqv d a) s = .next t ∧ Trapped (toHome s1 x.pa) t 7#8 3#8 va))

/-- R341, R342: QINIT of a configuration in range writes an empty block with its own address and check word, and answers p7 = 1,
or p7 = 0 and changes nothing; QSTAT reports; QPOISON sets POISON and recomputes CHECK; QDRAIN writes the held elements out,
empties the block and answers their number. The constructors of which it says where they complete: qinit, qstat, qpoison,
qdrain. -/
def Obligations.QueueManagement : Prop :=
  ∀ (s s1 : State) (a b d : BitVec 7) (x : XOk),
    address s .atomic (readVal (me s) a) 64 = .ok (x, s1) → paClass x.pa = 0 ∨ paClass x.pa = 2 →
    pinnedRange s none x.pa 64 = false → s.qwaiters = [] → poisonedIn s.mem x.pa 64 = none →
    (∀ esz capl flags : Nat, Legal (.qinit a b) s →
      esz ≤ 5 → capl ≤ 24 → flags = 0 ∨ flags = 1 ∨ flags = 4 ∨ flags = 5 →
      (readVal (me s) b).toNat = esz + 2 ^ 8 * capl + 2 ^ 16 * flags → 4 ≤ flags ∨ paDie x.pa = dieOf s.cur →
      (regK2 (me s)).toNat % (8 * 2 ^ esz) = 0 → (regK3 (me s)).toNat % 2 ^ 18 = 0 →
      ∃ t n, exec (.qinit a b) s = .next t ∧ SameBytesBut s t x.pa 64 ∧
        BlockIs t x.pa { head := 0, tail := 0, free := 2 ^ capl, esz := esz, capl := capl, flags := flags,
                         owner := regK3 (me s), home := x.pa, base := regK2 (me s), check := 0, zeros := true } ∧
        unitAt t s.cur = goOn { putPred (me s) 7#3 true with pts := n } ((me s).pc + 4#64)) ∧
    (Legal (.qinit a b) s → (readVal (me s) b).toNat / 2 ^ 18 % 2 = 1 ∨ paDie x.pa = dieOf s.cur →
      (readVal (me s) b).toNat % 2 ^ 3 > 5 ∨ (readVal (me s) b).toNat / 2 ^ 17 % 2 = 1 →
      exec (.qinit a b) s = .next (nextWord (toHome s1 x.pa) (putPred (me s1) 7#3 false))) ∧
    (∀ q : Aqcb, Legal (.qstat d a) s → q = blockAt s.mem x.pa →
      ∃ t n, exec (.qstat d a) s = .next t ∧ SameMem s t ∧
        unitAt t s.cur = goOn { writeVal (me s) d (BitVec.ofNat 64 ((if q.consistent x.pa then 2 ^ 63 else 0) +
          2 ^ 48 * q.capl + 2 ^ 40 * q.esz + 2 ^ 32 * q.flags + (2 ^ q.capl + (2 ^ 32 - q.free)) % 2 ^ 32)) with pts := n }
          ((me s).pc + 4#64)) ∧
    (∀ q : Aqcb, Legal (.qpoison a) s → q = blockAt s.mem x.pa →
      (q.poison = true → exec (.qpoison a) s = .next (nextWord (toHome s1 x.pa) (me s1)) ∧ SameMem s s1) ∧
      (q.poison = false → ∃ t, exec (.qpoison a) s = .next t ∧ SameBytesBut s t x.pa 42 ∧
        (blockAt t.mem x.pa).poison = true ∧ (blockAt t.mem x.pa).check = checkOf (rdBytes t.mem x.pa 40) ∧
        (∀ k, k < 40 → k ≠ 14 → rdByte t.mem (x.pa + k) = rdByte s.mem (x.pa + k)) ∧
        (unitAt t s.cur).pc = (me s).pc + 4#64)) ∧
    (∀ (s2 s3 s4 : State) (y : XOk) (q : Aqcb) (bs : List Byte) (slots places : List Nat), Legal (.qdrain d a b) s →
      q = blockAt s.mem x.pa → q.consistent x.pa = true → address s1 .write (readVal (me s) b) 8 = .ok (y, s2) →
      drainSlots q (q.cap - q.free) 0 (toHome s2 x.pa) = .ok (bs, slots, s3) →
      drainPlaces (readVal (me s) b) (bs.length / 8) s3 = .ok (places, s4) →
      (∀ p ∈ places, isRegion p = false ∧ Apart p 8 x.pa 64) → places.Pairwise (fun p r => Apart p 8 r 8) →
      ∃ t n, exec (.qdrain d a b) s = .next t ∧
        (∀ k, k < places.length → rdNum t.mem (places.getD k 0) 8 = numAt bs (8 * k) 8) ∧
        (∀ c, (∀ p ∈ places, c < p ∨ p + 8 ≤ c) → (c < x.pa ∨ x.pa + 64 ≤ c) → rdByte t.mem c = rdByte s.mem c) ∧
        BlockIs t x.pa ({ q with head := q.tail, free := q.cap }.withPoison false) ∧
        unitAt t s.cur = goOn { writeVal (me s) d (BitVec.ofNat 64 (q.cap - q.free)) with pts := n } ((me s).pc + 4#64))

/-- R343, R89: GATH, SCAT and ATTEST whose operands pass their checks fork one engine operation and go on; a misaligned base,
or a count above 2^24 − 1, raises the cause of the check. -/
def Sys2Proof.Claims.EngineForksRule : Prop :=
  ∀ (s : State) (a b : BitVec 7),
    (∀ (i : Instr) (gather : Bool) (z w : BitVec 1) (e : BitVec 2),
      i = (if gather then .gath a b z w e else .scat a b z w e) → Legal i s →
      ((regK0 (me s)).toNat ≤ 16777215 → (readVal (me s) a).toNat % 2 ^ e.toNat = 0 →
        (regK2 (me s)).toNat % 2 ^ e.toNat = 0 →
        (gather = true ∧ z = 1#1 ∨ (readVal (me s) b).toNat % (if w = 1#1 then 8 else 4) = 0) →
        (regK1 (me s)).toNat % 8 = 0 →
        exec i s = .next { nextWord s (me s) with
          engines := mset s.engines s.nextEng
            { unit := s.cur, launch := (me s).launch, job := (me s).csr.jobid.toNat, pts := (me s).pts,
              dest := readVal (me s) a,
              kind := .move gather (readVal (me s) a) (readVal (me s) b) (regK2 (me s)) (regK0 (me s)).toNat (2 ^ e.toNat)
                (decide (w = 1#1)) (decide (z = 1#1)) (regK1 (me s)) }
          nextEng := s.nextEng + 1 }) ∧
      (16777215 < (regK0 (me s)).toNat → ∃ t, exec i s = .next t ∧ Trapped s t 2#8 0#8 ((encode i).setWidth 64)) ∧
      ((regK0 (me s)).toNat ≤ 16777215 → (readVal (me s) a).toNat % 2 ^ e.toNat ≠ 0 →
        ∃ t, exec i s = .next t ∧ Trapped s t 4#8 (BitVec.ofNat 8 (2 ^ e.toNat)) (readVal (me s) a))) ∧
    (∀ (s1 s2 s3 s4 : State) (x1 x2 x3 x4 : XOk), Legal (.attest a b) s → (readVal (me s) a).toNat % 64 = 0 →
      (readVal (me s) b).toNat % 64 = 0 → (regK1 (me s)).toNat % 8 = 0 →
      translate s (requester s s.cur) .write (readVal (me s) a) = (.ok x1, s1) →
      translate s1 (requester s1 s.cur) .write (readVal (me s) a + 2047#64) = (.ok x2, s2) →
      translate s2 (requester s2 s.cur) .read (readVal (me s) b) = (.ok x3, s3) →
      translate s3 (requester s3 s.cur) .write (regK1 (me s)) = (.ok x4, s4) →
      ∃ t, exec (.attest a b) s = .next t ∧ SameMem s t ∧ unitAt t s.cur = goOn (me s) ((me s).pc + 4#64) ∧
        t.engines = mset s.engines s.nextEng
          { unit := s.cur, launch := (me s).launch, job := (me s).csr.jobid.toNat, pts := (me s).pts,
            dest := readVal (me s) a, kind := .attest (readVal (me s) a) (readVal (me s) b) (regK1 (me s)) })

/-! ## Launches, links, endpoints, pre-emption, translations and freezes (18_die_instructions.md, 21_package_instructions.md,
24_program_preemption.md, 16_die_queues_translation.md) -/

namespace Sys2Proof.Claims

/-- The launch that a descriptor of a thread makes (R321, R345): one deeper, of the issuer's job, its deadline the
descriptor's, else its parent's, and no later than the job's. -/
def child (s : State) (t : Descriptor) (sh : Bool) : Launch :=
  { job := (me s).csr.jobid.toNat, depth := (me s).csr.depth.toNat + 1, cfgid := t.id, image := t.image, arg := t.arg, lctr := t.lctr
    gctr := t.gctr, st := .pool, shared := some sh, parent := some (me s).launch
    deadline := capDeadline (policyOf s (me s).csr.jobid.toNat).deadline
      (if t.deadline = 0 then (match launchOf s s.cur with | some l => l.deadline | none => 0) else t.deadline) }

/-- The launch counter that a new launch takes on the issuer's die. -/
def nextLaunch (s : State) : Nat := (dieAt s (dieOf s.cur)).nextId

/-- The key under which State holds a new launch of the issuer's die. -/
def nextKey (s : State) : Nat := 2 ^ 32 * dieOf s.cur + nextLaunch s

/-- A launch has been put into the pool under a fresh LAUNCHID and counts among those that its graph holds, where its image is
resident, or is found and passes its check with the descriptor's id; otherwise no launch has been made. -/
def Pooled (s t : State) (x : Descriptor) (sh : Bool) : Prop :=
  (dieAt t (dieOf s.cur)).nextId = nextLaunch s + 1 ∧
  t.graphs = (holdGraph s (me s).csr.jobid.toNat x.gctr).graphs ∧
  ∃ q, SameMem s q ∧ q.launches = s.launches ∧ q.jobs = s.jobs ∧ q.frames = s.frames ∧
    (dieAt q (dieOf s.cur)).images = (dieAt s (dieOf s.cur)).images ∧
    match findImage q (dieOf s.cur) (child s x sh) with
    | .ok (r, i, _) =>
      SameMem s t ∧ t.launches = mset s.launches (nextKey s)
        { child s x sh with
          image := r.addr, words := r.words, width := i.width, height := i.height, nctx := i.contexts, die := dieOf s.cur }
    | .error _ => t.launches = s.launches

/-- The 64 bytes of the descriptor of a LAUNCH: read from memory or, by a LAUNCH.W that has waited, read before (R345). -/
def Described (s s1 : State) (a : BitVec 7) (x : XOk) (b : List Byte) : Prop :=
  ((me s).wait = none ∧ address s .read (readVal (me s) a) 64 = .ok (x, s1) ∧ isRegion x.pa = false ∧ x.pa % 64 = 0 ∧
    poisonedIn s.mem x.pa 64 = none ∧ b = rdBytes s.mem x.pa 64) ∨
  ∃ w, (me s).wait = some w ∧ b = toBytes 64 w.aux

/-- Whether a descriptor may launch: JOBID zero, and no graph, or a live one that takes another launch (R345). -/
def launchable (s : State) (t : Descriptor) : Prop :=
  t.job = 0 ∧ (t.gctr = 0#64 ∨ (openGraph s (me s).csr.jobid.toNat t.gctr).isSome = true)

end Sys2Proof.Claims

/-- R345, R323: LAUNCH and LAUNCH.W below depth 7 with a readable descriptor: a malformed one, and one that names no graph that
takes a launch, gives 2 and p7 = 0; one that finds no free entry gives 1 and p7 = 0 from LAUNCH, and LAUNCH.W waits, and goes on
from the descriptor that it has read; otherwise d is the fresh LAUNCHID, shifted in, and p7 = 1, with the child in the pool at
one depth more where its image passes. At depth 7 they raise cause 0x0F. The constructors of which it says where they complete:
launch, launchW. It rests on the model's own choices too (assumption log 71). -/
def Obligations.LaunchWords : Prop :=
  ∀ (s s1 : State) (d a : BitVec 7) (x : XOk) (waits : Bool) (i : Instr) (b : List Byte),
    i = (if waits then .launchW d a else .launch d a) → Legal i s → dieOf s.cur < 4 →
    ((me s).csr.depth = 7#64 → ∃ t, exec i s = .next t ∧ Trapped s t 0x0F#8 0#8 7#64) ∧
    ((me s).csr.depth ≠ 7#64 → Described s s1 a x b →
      ((readDescriptor b = none ∨ (me s).wait = none ∧ ∃ t, readDescriptor b = some t ∧ ¬ launchable s t) →
        ∃ t m, exec i s = .next t ∧ SameMem s t ∧ t.launches = s.launches ∧
          unitAt t s.cur = goOn { putPred (writeVal (me s) d 2#64) 7#3 false with pts := m } ((me s).pc + 4#64)) ∧
      (∀ desc, readDescriptor b = some desc → launchable s desc →
        (∀ sh, poolEntry s (dieOf s.cur) ((me s).csr.depth.toNat + 1) = some sh →
          ∃ t m, exec i s = .next t ∧ Pooled s t desc sh ∧
            unitAt t s.cur = goOn { putPred (writeVal (me s) d (BitVec.ofNat 64 (nextLaunch s))) 7#3 true with pts := m }
              ((me s).pc + 4#64)) ∧
        (poolEntry s (dieOf s.cur) ((me s).csr.depth.toNat + 1) = none →
          (waits = false → ∃ t m, exec i s = .next t ∧ SameMem s t ∧ t.launches = s.launches ∧
            unitAt t s.cur = goOn { putPred (writeVal (me s) d 1#64) 7#3 false with pts := m } ((me s).pc + 4#64)) ∧
          (waits = true → ∃ t m, exec i s = .next t ∧ SameMem s t ∧ t.launches = s.launches ∧
            unitAt t s.cur = { me s with
              st := .waiting, pts := m
              wait := some { kind := .launchReserve, value := readVal (me s) a, aux := ofBytes b,
                             count := waitCount (me s) } }))))

/-- R346, R347, R348: GRAPHNEW makes a live graph, its counter 16 zero bytes and p7 = 1, and refuses a bad count with p7 = 0 and
nothing changed; CANCEL of a counter and level that name something applies R319 to all of it, and sets p7 once no engine
operation of it is left, and is held while one is; a name that names nothing clears p7; JOBDL sets a live job's deadline. The
constructors of which it says where they complete: cancel, graphnew, jobdl. It rests on the model's own choices too (assumption
log 22, 24). -/
def Obligations.GraphCancelAndDeadline : Prop :=
  ∀ (s s1 s2 : State) (a b : BitVec 7) (x : XOk),
    (Legal (.graphnew a b) s → address s .write (readVal (me s) a) 16 = .ok (x, s1) →
      (if regK2 (me s) = 0#64 then s2 = s1
       else ∃ y, address s1 .write (regK2 (me s)) 16 = .ok (y, s2)) →
      (1 ≤ (readVal (me s) b).toNat → (readVal (me s) b).toNat < 65536 →
        (∀ g ∈ s.graphs, g.live = true → g.job = (me s).csr.jobid.toNat → g.ctr ≠ readVal (me s) a) →
        (liveGraphs s (dieOf s.cur)).length < 256 → pinnedRange s none x.pa 16 = false →
        ∃ t m, exec (.graphnew a b) s = .next t ∧ rdBytes t.mem x.pa 16 = List.replicate 16 0#8 ∧
          SameBytesBut s t x.pa 16 ∧
          t.graphs = s.graphs ++ [{ job := (me s).csr.jobid.toNat, die := dieOf s.cur, ctr := readVal (me s) a,
                                    phase := regK2 (me s), declared := (readVal (me s) b).toNat }] ∧
          unitAt t s.cur = goOn { putPred (me s) 7#3 true with pts := m } ((me s).pc + 4#64)) ∧
      ((readVal (me s) b = 0#64 ∨ 65536 ≤ (readVal (me s) b).toNat) →
        ∃ t, exec (.graphnew a b) s = .next t ∧ SameMem s t ∧ t.graphs = s.graphs ∧
          unitAt t s.cur = goOn (putPred (me s) 7#3 false) ((me s).pc + 4#64))) ∧
    (Legal (.cancel a b) s → (me s).awaits = none → address s .read (readVal (me s) a) 16 = .ok (x, s1) →
      (∀ (job : Nat) (ls : List Nat) (gs : List Graph), (readVal (me s) b).toNat < 4 → readVal (me s) a ≠ 0#64 →
        levelOf s1 (me s).csr.jobid.toNat (readVal (me s) a) (readVal (me s) b).toNat = some (job, ls, gs) →
        s2 = (if 2 ≤ (readVal (me s) b).toNat then
            cancelCounter (cancelLevel s1 ls gs (decide ((readVal (me s) b).toNat = 3)))
              { requester s s.cur with job := job } (readVal (me s) a)
          else cancelLevel s1 ls gs (decide ((readVal (me s) b).toNat = 3))) → s2.cur = s.cur → (me s2).st ≠ .retired →
        ((∀ e ∈ s2.engines, e.2.launch ∉ ls) →
          exec (.cancel a b) s = .next (setMe s2 (goOn { putPred (me s2) 7#3 true with awaits := none } ((me s2).pc + 4#64)))) ∧
        (∀ e ∈ s2.engines, e.2.launch ∈ ls →
          ∃ l, exec (.cancel a b) s = .next (setMe s2 { me s2 with st := .running, awaits := some l }))) ∧
      ((4 ≤ (readVal (me s) b).toNat ∨ readVal (me s) a = 0#64 ∨
          levelOf s1 (me s).csr.jobid.toNat (readVal (me s) a) (readVal (me s) b).toNat = none) →
        exec (.cancel a b) s = .next (setMe s1 (goOn (putPred (me s1) 7#3 false) ((me s1).pc + 4#64))))) ∧
    (Legal (.jobdl a b) s →
      ((readVal (me s) a).toNat < 65536 → jobLive s (readVal (me s) a).toNat = true →
        exec (.jobdl a b) s = .next { nextWord s (putPred (me s) 7#3 true) with
          jobs := mset s.jobs (readVal (me s) a).toNat
            { policyOf s (readVal (me s) a).toNat with deadline := (readVal (me s) b).toNat } }) ∧
      ((65536 ≤ (readVal (me s) a).toNat ∨ jobLive s (readVal (me s) a).toNat = false) →
        exec (.jobdl a b) s = .next (nextWord s (putPred (me s) 7#3 false))))

namespace Sys2Proof.Claims

/-- The turn of the group that a request asks for (R363). -/
def turnOf (g : BitVec 4) (v : Word) : Turn := { group := g.toNat, toL := v.getLsbD 0 }

/-- The status of a turn request in R363's own order. -/
def turnAnswer (s : State) (l : BitVec 2) (g : BitVec 4) (v : Word) : Nat :=
  let x := linkAt s l.toNat
  let r := setDir x.projected g.toNat (v.getLsbD 0)
  if (me s).csr.jobid ≠ 0#64 ∧ (policyOf s (me s).csr.jobid.toNat).lanes.getLsbD g.toNat = false then 4
  else if x.projected.getLsbD g.toNat = v.getLsbD 0 then 1
  else if (∃ t ∈ x.queue, t.group = g.toNat) ∨ tbOf s (endL l.toNat) < x.lastt.toList.getD g.toNat 0 + 2048 then 3
  else if 16 - countToL r < x.floorL ∨ countToL r < x.floorH then 2
  else if 16 ≤ x.queue.length then 5
  else 0

end Sys2Proof.Claims

/-- R361 to R363, R381 to R383: LTURN answers the status of R363's checks in their order, or 6 for reserved bits, with p7 = 1
for 0 and 1; an accepted turn goes to the end of the link's queue, and any other answer changes no link. LQRY reads the
link's word, or a group's LASTT. LFLOOR sets both floors, or answers 6 or 2 and changes nothing. -/
def Sys2Proof.Claims.LinkWordsRule : Prop :=
  ∀ (s : State) (a b : BitVec 7) (l : BitVec 2),
    (∀ g : BitVec 4, Legal (.lturn a b l g) s →
      ((readVal (me s) b).toNat < 2 →
        ∃ t, exec (.lturn a b l g) s = .next t ∧
          t = { nextWord s (putPred (writeVal (me s) a (BitVec.ofNat 64 (turnAnswer s l g (readVal (me s) b)))) 7#3
            (decide (turnAnswer s l g (readVal (me s) b) ≤ 1))) with links := t.links } ∧
          linkAt t l.toNat = (if turnAnswer s l g (readVal (me s) b) = 0 then
              { linkAt s l.toNat with queue := (linkAt s l.toNat).queue ++ [turnOf g (readVal (me s) b)] }
            else linkAt s l.toNat) ∧
          ∀ k, k ≠ l.toNat → linkAt t k = linkAt s k) ∧
      (2 ≤ (readVal (me s) b).toNat →
        exec (.lturn a b l g) s = .next (nextWord s (putPred (writeVal (me s) a 6#64) 7#3 false)))) ∧
    (∀ z : BitVec 1, Legal (.lqry a b z l) s →
      exec (.lqry a b z l) s = .next (nextWord s (writeVal (me s) a (BitVec.ofNat 64
        (if z = 1#1 then (linkAt s l.toNat).lastt.toList.getD ((readVal (me s) b).toNat % 16) 0
         else (linkAt s l.toNat).dir.toNat + 2 ^ 16 * (linkAt s l.toNat).turn.toNat + 2 ^ 32 * (linkAt s l.toNat).floorL +
           2 ^ 36 * (linkAt s l.toNat).floorH + 2 ^ 40 * (linkAt s l.toNat).queue.length))))) ∧
    (Legal (.lfloor a b l) s →
      ∀ fl fh, fl = (readVal (me s) b).toNat % 16 → fh = (readVal (me s) b).toNat / 16 % 16 →
      ((256 ≤ (readVal (me s) b).toNat ∨ 8 < fl ∨ 8 < fh) →
        exec (.lfloor a b l) s = .next (nextWord s (putPred (writeVal (me s) a 6#64) 7#3 false))) ∧
      ((readVal (me s) b).toNat < 256 → fl ≤ 8 → fh ≤ 8 →
        (keepsFloors (linkAt s l.toNat).dir fl fh = true → keepsFloors (linkAt s l.toNat).projected fl fh = true →
          exec (.lfloor a b l) s = .next (setLink (nextWord s (putPred (writeVal (me s) a 0#64) 7#3 true)) l.toNat
            { linkAt s l.toNat with floorL := fl, floorH := fh })) ∧
        ((keepsFloors (linkAt s l.toNat).dir fl fh = false ∨ keepsFloors (linkAt s l.toNat).projected fl fh = false) →
          exec (.lfloor a b l) s = .next (nextWord s (putPred (writeVal (me s) a 2#64) 7#3 false)))))

/-- R303, R384 to R386: MCST of translated replicas of memory in different lines, none pinned, stores b in every one at one
time; replicas in one line raise cause 0x04 with DETAIL 64 and TRAPVAL the higher address. EPBIND binds a free endpoint to
a live job with the ranges that its block names, and EPUNB frees one that nothing uses; a refusal clears p7 and changes
nothing. -/
def Sys2Proof.Claims.MulticastAndEndpointsRule : Prop :=
  ∀ (s s1 : State) (a b : BitVec 7),
    (∀ (m : BitVec 4) (xs : List (Word × XOk)), Legal (.mcst a b m) s →
      xlateReplicas s (readVal (me s) a) (regK2 (me s)) (replicas m) = .ok (xs, s1) → (me s).st ≠ .retired →
      (xs.Pairwise (fun x y => lineOf x.2.pa ≠ lineOf y.2.pa) → (∀ x ∈ xs, isRegion x.2.pa = false ∧ x.2.pa % 8 = 0) →
        (∀ x ∈ xs, pinnedRange s none x.2.pa 8 = false) →
        ∃ t n, exec (.mcst a b m) s = .next t ∧
          (∀ x ∈ xs, rdNum t.mem x.2.pa 8 = (readVal (me s) b).toNat) ∧
          (∀ c, (∀ x ∈ xs, c < x.2.pa ∨ x.2.pa + 8 ≤ c) → rdByte t.mem c = rdByte s.mem c) ∧
          (∀ x ∈ xs, (getLine t.mem (lineOf x.2.pa)).wts = n) ∧
          unitAt t s.cur = goOn { me s with pts := n } ((me s).pc + 4#64)) ∧
      (∀ va w, xs = [va, w] → lineOf va.2.pa = lineOf w.2.pa →
        ∃ t, exec (.mcst a b m) s = .next t ∧
          Trapped s t 4#8 64#8 (if va.1.toNat < w.1.toNat then w.1 else va.1))) ∧
    (∀ (e : BitVec 5) (x : XOk) (blk : List Byte), Legal (.epbind a e) s →
      address s .read (readVal (me s) a) 32 = .ok (x, s1) → isRegion x.pa = false → x.pa % 32 = 0 →
      poisonedIn s.mem x.pa 32 = none → blk = rdBytes s.mem x.pa 32 →
      ∃ t n, exec (.epbind a e) s = .next t ∧ SameMem s t ∧ (∀ k, k ≠ e.toNat → endpointAt t k = endpointAt s k) ∧
        ((jobLive s (numAt blk 0 2) = true ∧ numAt blk 2 6 = 0 ∧ numAt blk 8 8 % 64 = 0 ∧ numAt blk 16 8 % 64 = 0 ∧
            64 ≤ numAt blk 16 8 ∧ numAt blk 24 8 % 8 = 0 ∧ (endpointAt s e.toNat).bound = false ∧
            (endpointAt s e.toNat).frozen = false ∧
            endpointAt t e.toNat = { bound := true, job := numAt blk 0 2, egress := numAt blk 8 8,
                                     extent := numAt blk 16 8, compl := numAt blk 24 8 } ∧
            unitAt t s.cur = goOn { putPred (me s) 7#3 true with pts := n } ((me s).pc + 4#64)) ∨
         (¬ (jobLive s (numAt blk 0 2) = true ∧ numAt blk 2 6 = 0 ∧ numAt blk 8 8 % 64 = 0 ∧ numAt blk 16 8 % 64 = 0 ∧
            64 ≤ numAt blk 16 8 ∧ numAt blk 24 8 % 8 = 0 ∧ (endpointAt s e.toNat).bound = false ∧
            (endpointAt s e.toNat).frozen = false) ∧
            endpointAt t e.toNat = endpointAt s e.toNat ∧
            unitAt t s.cur = goOn { putPred (me s) 7#3 false with pts := n } ((me s).pc + 4#64)))) ∧
    (∀ e : BitVec 5, Legal (.epunb e) s →
      ((endpointAt s e.toNat).bound = true → (endpointAt s e.toNat).frozen = false → endpointInUse s e.toNat = false →
        exec (.epunb e) s = .next (setEndpoint (nextWord s (putPred (me s) 7#3 true)) e.toNat
          { endpointAt s e.toNat with bound := false, isOpen := false, ingress := [] })) ∧
      (((endpointAt s e.toNat).bound = false ∨ (endpointAt s e.toNat).frozen = true ∨ endpointInUse s e.toNat = true) →
        exec (.epunb e) s = .next (nextWord s (putPred (me s) 7#3 false))))

namespace Sys2Proof.Claims

/-- The key of the launch that a word names (R404). -/
def named (v : Word) : Nat := 2 ^ 32 * (v.toNat / 2 ^ 32 % 4) + v.toNat % 2 ^ 32

/-- Whether the issuing unit may name a launch (R404). -/
def mayName (s : State) (l : Launch) : Prop := (me s).csr.jobid = 0#64 ∨ l.job = (me s).csr.jobid.toNat

end Sys2Proof.Claims

/-- R404 to R406: PREEMPT, RESUME and SNAPQ name a launch by die and LAUNCHID. PREEMPT of the issuer's own launch answers 3, of
one that R405 allows 0 with the save begun, and of any other the status that forbids it; RESUME of a suspended launch with a
free pool entry answers 0 and queues it with its snapshot, and 2 with none free; SNAPQ reads the state code, place and count of
snapshots, or 0 for no such launch. A name that names nothing answers 1, and one with b<63:34> set raises cause 0x02. The
constructors of which it says where they complete: preempt, resume, snapq. It rests on the model's own choices too (assumption
log 30). -/
def Obligations.SaveWords : Prop :=
  ∀ (s : State) (a b : BitVec 7) (v : Word), v = readVal (me s) b →
    (∀ i, (i = .preempt a b ∨ i = .resume a b ∨ i = .snapq a b) → Legal i s → 2 ^ 34 ≤ v.toNat →
      ∃ t, exec i s = .next t ∧ Trapped s t 2#8 0#8 ((encode i).setWidth 64)) ∧
    (v.toNat < 2 ^ 34 →
      (Legal (.preempt a b) s →
        ((∀ l, mget s.launches (named v) = some l → ¬ mayName s l) →
          exec (.preempt a b) s = .next (nextWord s (putPred (writeVal (me s) a 1#64) 7#3 false))) ∧
        (∀ l, mget s.launches (named v) = some l → mayName s l →
          (named v = (me s).launch →
            exec (.preempt a b) s = .next (nextWord s (putPred (writeVal (me s) a 3#64) 7#3 false))) ∧
          (named v ≠ (me s).launch → saveStatus s (named v) ≠ 0 →
            exec (.preempt a b) s = .next (nextWord s
              (putPred (writeVal (me s) a (BitVec.ofNat 64 (saveStatus s (named v)))) 7#3 false))) ∧
          (named v ≠ (me s).launch → saveStatus s (named v) = 0 →
            ∃ t, exec (.preempt a b) s = .next t ∧ SameMem s t ∧
              unitAt t s.cur = goOn (putPred (writeVal (me s) a 0#64) 7#3 true) ((me s).pc + 4#64) ∧
              mget t.launches (named v) =
                some { l with st := .saving, toPool := false, inPlace := none, yielded := false }))) ∧
      (Legal (.resume a b) s →
        ((∀ l, mget s.launches (named v) = some l → mayName s l → l.st ≠ .suspended) →
          exec (.resume a b) s = .next (nextWord s (putPred (writeVal (me s) a 1#64) 7#3 false))) ∧
        (∀ l, mget s.launches (named v) = some l → mayName s l → l.st = .suspended →
          (poolEntry s (named v / 2 ^ 32) l.depth = none →
            exec (.resume a b) s = .next (nextWord s (putPred (writeVal (me s) a 2#64) 7#3 false))) ∧
          (∀ sh, poolEntry s (named v / 2 ^ 32) l.depth = some sh →
            exec (.resume a b) s = .next (setLaunch (nextWord s (putPred (writeVal (me s) a 0#64) 7#3 true)) (named v)
              { l with st := .poolSaved, shared := some sh })))) ∧
      (Legal (.snapq a b) s →
        ((∀ l, mget s.launches (named v) = some l → ¬ mayName s l) →
          exec (.snapq a b) s = .next (nextWord s (writeVal (me s) a 0#64))) ∧
        (∀ l, mget s.launches (named v) = some l → mayName s l →
          ∃ m, (me s).pts ≤ m ∧ exec (.snapq a b) s = .next (nextWord s
            { writeVal (me s) a (BitVec.ofNat 64 (snapshotWord l)) with pts := m }))))

namespace Sys2Proof.Claims

/-- Registers, memory, pages beside their caches, launches and units are as before: only held translations went, and parked
operations off their lists that ask anew with a fresh one. -/
def KeepsAllButXlations (s t : State) : Prop :=
  t = { s with units := t.units, pages := t.pages, elems := t.elems, fifos := t.fifos, banks := t.banks,
               twaiters := t.twaiters, qwaiters := t.qwaiters } ∧
  (∀ w ∈ t.twaiters, w ∈ s.twaiters) ∧ (∀ w ∈ t.qwaiters, w ∈ s.qwaiters) ∧
  (∀ u, u ≠ s.cur → unitAt t u = unitAt s u)

/-- After a removal the issuer goes on, unless a buffered store that used a removed translation is still to be made: then it is
held (R349). -/
def WentOn (s t : State) (p : Xlation → Bool) : Prop :=
  unitAt t s.cur = if pendingBy s p then { me s with st := .running } else goOn (me s) ((me s).pc + 4#64)

end Sys2Proof.Claims

/-- R349, R350, R90: after TLBINV no page's micro-cache holds a translation of the job that covers the address, after TLBINVA
none of the job (with M none at all), and after WCINV no walker holds an entry of the job; what does not match stays; the issuer
is held until every buffered store that used a removed translation is made. XLPROBE writes what a fresh walk answers, and raises
cause 0x05 for an address that is not canonical. FREEZE of a descriptor that names nothing the issuer may freeze clears p7 and
changes nothing; of an endpoint it freezes it and sets p7. The constructors of which it says where they complete: tlbinv,
tlbinva, wcinv, xlprobe, freeze. It rests on the model's own choices too (assumption log 27, 115). -/
def Obligations.MaintenanceWords : Prop :=
  ∀ (s : State) (a b : BitVec 7),
    (Legal (.tlbinv a b) s → (readVal (me s) b).toNat < 65536 →
      ∃ t, exec (.tlbinv a b) s = .next t ∧ KeepsAllButXlations s t ∧
        WentOn s t (fun x => x.covers57 (readVal (me s) b).toNat (readVal (me s) a)) ∧
        ∀ g, (pageAt t g).micro =
          (pageAt s g).micro.filter fun x => !x.covers57 (readVal (me s) b).toNat (readVal (me s) a)) ∧
    (Legal (.tlbinv a b) s → 65536 ≤ (readVal (me s) b).toNat →
      ∃ t, exec (.tlbinv a b) s = .next t ∧ Trapped s t 2#8 0#8 ((encode (.tlbinv a b)).setWidth 64)) ∧
    (∀ m : BitVec 1, Legal (.tlbinva a m) s →
      ∃ t, exec (.tlbinva a m) s = .next t ∧ KeepsAllButXlations s t ∧
        WentOn s t (fun x => decide (m = 1#1) || decide (x.job = (readVal (me s) a).toNat)) ∧
        ∀ g, (pageAt t g).micro =
            ((pageAt s g).micro.filter fun x => !(decide (m = 1#1) || decide (x.job = (readVal (me s) a).toNat))) ∧
          (pageAt t g).walks =
            ((pageAt s g).walks.filter fun y => !(decide (m = 1#1) || decide (walkKeyJob y.1 = (readVal (me s) a).toNat)))) ∧
    (Legal (.wcinv a) s →
      ∃ t, exec (.wcinv a) s = .next t ∧ KeepsAllButXlations s t ∧
        WentOn s t (fun x => decide (x.job = (readVal (me s) a).toNat)) ∧
        ∀ g, (pageAt t g).micro = (pageAt s g).micro ∧
          (pageAt t g).walks =
            ((pageAt s g).walks.filter fun y => !decide (walkKeyJob y.1 = (readVal (me s) a).toNat))) ∧
    (Legal (.xlprobe a b) s → (regK2 (me s)).toNat < 65536 → jobLive s (regK2 (me s)).toNat = true →
      (canonical (readVal (me s) b) = true →
        ∃ t, exec (.xlprobe a b) s = .next t ∧ SameMem s t ∧
          unitAt t s.cur = goOn (writeVal (me s) a (BitVec.ofNat 64 (probeWord
            (walkJob s (pageOf s.cur) (regK2 (me s)).toNat .probe (readVal (me s) b)).res))) ((me s).pc + 4#64)) ∧
      (canonical (readVal (me s) b) = false →
        ∃ t, exec (.xlprobe a b) s = .next t ∧ Trapped s t 5#8 0#8 (readVal (me s) b))) ∧
    (Legal (.freeze a) s →
      ((∀ m, readMaster (readVal (me s) a) = some m → mayFreeze s (me s).csr.jobid.toNat m = false) →
        exec (.freeze a) s = .next (nextWord s (putPred (me s) 7#3 false))) ∧
      (∀ e, e < 32 → readMaster (readVal (me s) a) = some (.endpoint e) →
        mayFreeze s (me s).csr.jobid.toNat (.endpoint e) = true →
        ∃ t, exec (.freeze a) s = .next t ∧ SameMem s t ∧
          unitAt t s.cur = goOn (putPred (me s) 7#3 true) ((me s).pc + 4#64) ∧
          endpointAt t e = { endpointAt s e with frozen := true } ∧ ∀ k, k ≠ e → endpointAt t k = endpointAt s k) ∧
      (∀ u, readMaster (readVal (me s) a) = some (.unit u) → mayFreeze s (me s).csr.jobid.toNat (.unit u) = true →
        u ≠ s.cur →
        ∃ t, exec (.freeze a) s = .next t ∧
          unitAt t s.cur = goOn (putPred (me s) 7#3 true) ((me s).pc + 4#64) ∧ (unitAt t u).st = .frozen))

/-! ## Elements: ports, vectors, digits (07_core.md, 08_core_instructions_compute.md, 06_online_arithmetic.md) -/

namespace Sys2Proof.Claims

/-- An element that can act and holds credit towards every reader, with the state in which its firing takes place: its commands
taken, its round entered (R107, R161, R173, R254); a route reads its output. -/
def Ready (s s0 : State) : Prop :=
  canAct s s.cur s.curElem = true ∧ hasCredit s s.cur s.curElem = true ∧ enterRound (withCommands s) = .ok s0 ∧
  routedOut (bankAt s s.cur) s.curElem = true

/-- What ports offer to a firing (R161, R162): at least one port holds no token; every port presents m tokens of DATA, from
its FIFO or from the token that it holds; and no MRK or CFG token stands at their FIFOs. -/
def Offered (s : State) (ps : List Port) (m : Nat) : Prop :=
  (∃ p ∈ owners ps, heldAt s p = none) ∧
  ∀ p ∈ ps, (present s ps m p).length = m ∧ (∀ t ∈ present s ps m p, t.ty = tyData) ∧
    ∀ t, (portFifo s p).q.head? = some t → t.ty ≠ tyCfg ∧ t.ty ≠ tyMrk

/-- The first m tokens of every FIFO that a port without a held token reads are consumed, and no other FIFO changes. -/
def Took (s t : State) (ps : List Port) (m : Nat) : Prop :=
  (∀ p ∈ owners ps, heldAt s p = none →
    fifoAt t (fifoNo s.cur s.curElem p.k) = popN' m (fifoAt s (fifoNo s.cur s.curElem p.k))) ∧
  ∀ f, (∀ p ∈ owners ps, heldAt s p = none → f ≠ fifoNo s.cur s.curElem p.k) → fifoAt t f = fifoAt s f

/-- Whether ports neither hold nor will hold a token. -/
abbrev Plain (s : State) (ps : List Port) : Prop := ∀ p ∈ ps, p.s = 0 ∧ heldAt s p = none

/-- The acting element after a firing that emits `out`, raises `esr` and leaves its work as `f` says; its sticky ports hold
what they have taken. -/
def ElemBecomes (s0 t : State) (ps : List Port) (out : List Token) (esr : Word) (f : Work → Work) : Prop :=
  ∃ w, el t = { el s0 with out := out, esr := (el s0).esr ||| esr, work := w } ∧
    w = { f (wk s0) with held := w.held, grp := w.grp } ∧ (Plain s0 ps → w = f (wk s0))

/-- Elements and FIFOs alone differ, and of the elements only the one that acts. -/
def OnlyElement (s t : State) : Prop :=
  t = { s with elems := t.elems, fifos := t.fifos } ∧
  ∀ u e, 32 * u + e ≠ 32 * s.cur + s.curElem → elemAt t u e = elemAt s u e

/-- A firing that consumes m tokens of each of its ports and emits `out` (R26, R161). -/
def Fired (s s0 t : State) (ps : List Port) (m : Nat) (out : List Token) (exc : BitVec 5) (f : Work → Work) : Prop :=
  OnlyElement s t ∧ Took s0 t ps m ∧ ElemBecomes s0 t ps out (exc.setWidth 64) f

/-- The next seq of an element that numbers what it emits (R159). -/
def numbered (w : Work) : Work := { w with seq := (w.seq + 1) % 4096 }

/-- The vectors that ports present, as lanes (R183). -/
def lanesIn (s : State) (ps : List Port) (w : Nat) : List (List Nat) :=
  ps.map fun p => splitLanes w (lanesOf w)
    ((((present s ps (tokensOf w) p).zip (List.range 8)).map fun t => t.1.data.toNat * 2 ^ (512 * t.2)).foldl (· + ·) 0)

/-- A lane operation: floating by its rule, integer by its exact value, which wraps or saturates (R184). -/
def byLane (f : LaneFmt) (sat : Bool) (fp : Fmt → Nat → Nat → Nat → Nat × BitVec 5) (int : Int → Int → Int → Int)
    (a b c : Nat) : Nat × BitVec 5 :=
  match f with
  | .fp g => fp g a b c
  | .int w u => (intResult w u sat (int (intOf w u a) (intOf w u b) (intOf w u c)), 0#5)

/-- Lanes of three vectors combined; one that is not read counts as zeros. -/
def combine (g : Nat → Nat → Nat → Nat × BitVec 5) (vs : List (List Nat)) : List (Nat × BitVec 5) :=
  (List.range (vs.getD 0 []).length).map fun i => g ((vs.getD 0 []).getD i 0) ((vs.getD 1 []).getD i 0) ((vs.getD 2 []).getD i 0)

/-- R185, R187: the lane format, the ports, and the lanes that an operation of the vector unit emits for the vectors at its
ports, with their exceptions. -/
def vectorForm (s : State) (i : Instr) : Option (LaneFmt × List Port × (List (List Nat) → List (Nat × BitVec 5))) :=
  let two := fun (a b : BitVec 5) => [portAs 0 a, portAs 1 b]
  let raw := fun (f : BitVec 3) (x : BitVec 4) (ps : List Port) (g : Nat → Nat → Nat → Nat) =>
    some (laneFmt f x, ps, combine fun a b c => (g a b c, (0#5 : BitVec 5)))
  let num := fun (f : BitVec 3) (x : BitVec 4) (sat : Bool) (ps : List Port) (fp : Fmt → Nat → Nat → Nat → Nat × BitVec 5)
      (int : Int → Int → Int → Int) => some (laneFmt f x, ps, combine (byLane (laneFmt f x) sat fp int))
  match i with
  | .vadd a b f r x => num f x (x.getLsbD 0) (two a b) (fun g a b _ => fpAdd g (rndOf r) a b) fun a b _ => a + b
  | .vsub a b f r x => num f x (x.getLsbD 0) (two a b) (fun g a b _ => fpSub g (rndOf r) a b) fun a b _ => a - b
  | .vmul a b f r x => num f x (x.getLsbD 0) (two a b) (fun g a b _ => fpMul g (rndOf r) a b) fun a b _ => a * b
  | .vfma a b c f r x => num f x false [portAs 0 a, portAs 1 b, portAs 2 c] (fun g a b c => fpFma g (rndOf r) a b c)
      fun a b c => a * b + c
  | .vdiv a b f r x =>
    match laneFmt f x with
    | .fp g => some (.fp g, two a b, combine fun a b _ => fpDiv g (rndOf r) a b)
    | .int _ _ => none
  | .vsqrt a f r x =>
    match laneFmt f x with
    | .fp g => some (.fp g, [portAs 0 a], combine fun a _ _ => fpSqrt g (rndOf r) a)
    | .int _ _ => none
  | .vmin a b f _ x => num f x (x.getLsbD 0) (two a b) (fun g a b _ => fpMinMax g false a b) fun a b _ => min a b
  | .vmax a b f _ x => num f x (x.getLsbD 0) (two a b) (fun g a b _ => fpMinMax g true a b) fun a b _ => max a b
  | .vabs a f _ x => num f x (x.getLsbD 0) [portAs 0 a] (fun g a _ _ => (a % 2 ^ (g.width - 1), 0#5)) fun a _ _ => a.natAbs
  | .vneg a f _ x => num f x (x.getLsbD 0) [portAs 0 a] (fun g a _ _ => (Nat.xor a (2 ^ (g.width - 1)), 0#5)) fun a _ _ => -a
  | .vcmp a b f _ x =>
    let ones := 2 ^ (laneFmt f x).width - 1
    some (laneFmt f x, two a b, combine fun a b _ =>
      match laneFmt f x, (slot s 0).toNat % 4 with
      | .fp g, 0 => (if (fpCmp g .eq a b).1 then ones else 0, (fpCmp g .eq a b).2)
      | .fp g, 1 => (if (fpCmp g .lt a b).1 then ones else 0, (fpCmp g .lt a b).2)
      | .fp g, 2 => (if (fpCmp g .le a b).1 then ones else 0, (fpCmp g .le a b).2)
      | .fp g, _ => (if (fpCmp g .ne a b).1 then ones else 0, (fpCmp g .ne a b).2)
      | .int w u, 0 => (if intOf w u a = intOf w u b then ones else 0, 0#5)
      | .int w u, 1 => (if intOf w u a < intOf w u b then ones else 0, 0#5)
      | .int w u, 2 => (if intOf w u a ≤ intOf w u b then ones else 0, 0#5)
      | .int w u, _ => (if intOf w u a ≠ intOf w u b then ones else 0, 0#5))
  | .vsel a b c f _ x => raw f x [portAs 0 a, portAs 1 b, portAs 2 c] fun a b c => if c ≠ 0 then a else b
  | .vred a f r x =>
    let node := fun (sel : Nat) => byLane (laneFmt f x) (x.getLsbD 0)
      (fun g a b _ => match sel with | 0 => fpAdd g (rndOf r) a b | 1 => fpMinMax g false a b | _ => fpMinMax g true a b)
      (fun a b _ => match sel with | 0 => a + b | 1 => min a b | _ => max a b)
    if (slot s 0).toNat % 4 = 3 then none
    else some (laneFmt f x, [portAs 0 a], fun vs =>
      treeFold (fun a b => node ((slot s 0).toNat % 4) a b 0) 6 ((vs.getD 0 []).map fun v => (v, 0#5)) ++
        List.replicate (lanesOf (laneFmt f x).width - 1) (0, 0#5))
  | .vand a b f _ x => raw f x (two a b) fun a b _ => Nat.land a b
  | .vor a b f _ x => raw f x (two a b) fun a b _ => Nat.lor a b
  | .vxor a b f _ x => raw f x (two a b) fun a b _ => Nat.xor a b
  | .vshl a b f _ x => raw f x (two a b) fun a b _ => a * 2 ^ (b % (laneFmt f x).width)
  | .vshr a b f _ x =>
    match laneFmt f x with
    | .int w u => some (.int w u, two a b, combine fun a b _ => (intBits w (intOf w u a / ((2 ^ (b % w) : Nat) : Int)), 0#5))
    | .fp _ => none
  | .vperm a b f _ x =>
    some (laneFmt f x, two a b, fun vs => (vs.getD 1 []).map fun k => ((vs.getD 0 []).getD (k % lanesOf (laneFmt f x).width) 0, 0#5))
  | .vsat a f _ x =>
    if field (slot s 0) 2 1 = 3 then none
    else
      match laneFmt f x with
      | .int w u => some (.int w u, [portAs 0 a], combine fun v _ _ =>
          let tw := 16 * 2 ^ field (slot s 0) 2 1
          (if w ≤ tw then v
           else intBits w (clampInt (intLo tw (bitOf (slot s 0) 0)) (intHi tw (bitOf (slot s 0) 0)) (intOf w u v)), 0#5))
      | .fp _ => none
  | _ => none

end Sys2Proof.Claims

/-- R183 to R185, R187: an operation of the vector unit whose ports offer a vector each consumes one vector from every port,
a held one counting down and one that arrives at a sticky port being held, and emits one vector, whose lanes are what its row
of the table gives, with the lanes' exceptions ORed into ESR; nothing else changes. -/
def Sys2Proof.Claims.VectorWordsRule : Prop :=
  ∀ (s s0 : State) (i : Instr) (f : LaneFmt) (ps : List Port) (g : List (List Nat) → List (Nat × BitVec 5)),
    Ready s s0 → vectorForm s0 i = some (f, ps, g) → Offered s0 ps (tokensOf f.width) →
    ∃ t, exec i s = .next t ∧
      Fired s s0 t ps (tokensOf f.width)
        (dataToks (BitVec.ofNat 12 (wk s0).seq) (tokensOf f.width) (joinLanes f.width ((g (lanesIn s0 ps f.width)).map (·.1))))
        (laneExc (g (lanesIn s0 ps f.width))) numbered

namespace Sys2Proof.Claims

/-- The destination vectors of a firing of VCVT (R186). -/
def vectorsOut (src dst : LaneFmt) : Nat := max (lanesOf src.width) (lanesOf dst.width) / lanesOf dst.width

end Sys2Proof.Claims

/-- R187, R186: VMAC adds a × b to its accumulator vector lane by lane and emits nothing; VCVT gathers source vectors, and
with the vector that completes its cover emits as many destination vectors as the cover makes, each lane converted. -/
def Sys2Proof.Claims.AccumulateAndConvertRule : Prop :=
  ∀ (s s0 : State) (a b : BitVec 5) (f : BitVec 3) (r : BitVec 2) (x : BitVec 4), Ready s s0 →
    (∀ g, g = combine (byLane (laneFmt f x) (x.getLsbD 0) (fun h a b c => fpFma h (rndOf r) a b c) fun a b c => a * b + c)
        (lanesIn s0 [portAs 0 a, portAs 1 b] (laneFmt f x).width ++ [(wk s0).vacc.map (·.toNat)]) →
      Offered s0 [portAs 0 a, portAs 1 b] (tokensOf (laneFmt f x).width) →
      ∃ t, exec (.vmac a b f r x) s = .next t ∧
        Fired s s0 t [portAs 0 a, portAs 1 b] (tokensOf (laneFmt f x).width) [] (laneExc g)
          fun w => { w with vacc := g.map fun v => BitVec.ofNat 64 v.1 }) ∧
    (∀ src got, cvtSource (slot s0 0) = some src → Offered s0 [portAs 0 a] (tokensOf src.width) →
      got = (wk s0).got ++ present s0 [portAs 0 a] (tokensOf src.width) (portAs 0 a) →
      (got.length * lanesOf src.width ≠ tokensOf src.width * max (lanesOf src.width) (lanesOf (laneFmt f x).width) →
        ∃ t, exec (.vcvt a f r x) s = .next t ∧
          Fired s s0 t [portAs 0 a] (tokensOf src.width) [] 0#5 fun w => { w with got := got }) ∧
      (∀ res : Nat → Nat × BitVec 5,
        got.length * lanesOf src.width = tokensOf src.width * max (lanesOf src.width) (lanesOf (laneFmt f x).width) →
        (∀ v ∈ got, v.ty = tyData) →
        (∀ i, res i = convLane src (laneFmt f x) (rndOf r) (x.getLsbD 0)
          (((got.zip (List.range got.length)).map fun t => t.1.data.toNat * 2 ^ (512 * t.2)).foldl (· + ·) 0 /
            2 ^ (src.width * i) % 2 ^ src.width)) →
        ∃ t, exec (.vcvt a f r x) s = .next t ∧
          Fired s s0 t [portAs 0 a] (tokensOf src.width)
            ((List.range (vectorsOut src (laneFmt f x))).flatMap fun k =>
              dataToks (BitVec.ofNat 12 ((wk s0).seq + k)) (tokensOf (laneFmt f x).width)
                (joinLanes (laneFmt f x).width ((List.range (lanesOf (laneFmt f x).width)).map fun i =>
                  (res (k * lanesOf (laneFmt f x).width + i)).1)))
            (laneExc ((List.range (max (lanesOf src.width) (lanesOf (laneFmt f x).width))).map res))
            fun w => { w with seq := (w.seq + vectorsOut src (laneFmt f x)) % 4096, got := [] }))

namespace Sys2Proof.Claims

/-- The digit operations of the online units (R147, R150, R151): the operation, whether it originates kills, its precision
field and its ports. -/
def digitForm (i : Instr) : Option (OnOp × BitVec 5 × List Port) :=
  match i with
  | .oadd a b p => some (.add, p, [portAs 0 a, portAs 1 b])
  | .osub a b p => some (.sub, p, [portAs 0 a, portAs 1 b])
  | .omul a b p => some (.mul, p, [portAs 0 a, portAs 1 b])
  | .ofma a b c p => some (.fma, p, [portAs 0 a, portAs 1 b, portAs 2 c])
  | .odiv a b p => some (.div, p, [portAs 0 a, portAs 1 b])
  | .osqrt a p => some (.sqrt, p, [portAs 0 a])
  | .orsqrt a p => some (.rsqrt, p, [portAs 0 a])
  | .oexp2 a p => some (.exp2, p, [portAs 0 a])
  | .oscl a p => some (.scl, p, [portAs 0 a])
  | .oneg a p => some (.neg, p, [portAs 0 a])
  | .oabs a p => some (.abs, p, [portAs 0 a])
  | .ocmp a b p _ => some (.cmp, p, [portAs 0 a, portAs 1 b])
  | .omax a b p _ => some (.max, p, [portAs 0 a, portAs 1 b])
  | .orelu a p _ => some (.relu, p, [portAs 0 a])
  | .othr a p _ => some (.thr, p, [portAs 0 a])
  | _ => none

/-- The digit flit at the head of a port. -/
def headDigit (s : State) (p : Port) : Token := ((portFifo s p).q.head?).getD {}

/-- Distinct inputs, and at the head of each a DIGIT flit that does not end its group. -/
def DigitsOffered (s : State) (ps : List Port) : Prop :=
  (ps.map (·.k)).Nodup ∧ ∀ p ∈ ps, heldAt s p = none ∧
    ∃ t q, (portFifo s p).q = t :: q ∧ t.ty = tyDigit ∧ t.gend = false

/-- The lanes i of a group's operands once d digits have come at every port, the last of them at the heads (R144, R145); the
threshold of OTHR is its second operand (R180). -/
def operandLanes (s : State) (op : OnOp) (ps : List Port) (n i : Nat) : List OLane :=
  (ps.map fun p => laneOf (grpFlits (wk s).grp p.n ++ [headDigit s p]) false (n + op.delta) i) ++
    (if op = .thr then
      (match thresholdLane (slot s 0).toNat binary64 with
       | some t => [{ t.1 with ds := t.1.ds.take (n + op.delta) }]
       | none => [])
     else [])

/-- A group in progress of which d - 1 digits have come at every port: none of its ports has ended, and the header and the
digits that R146 allows have been emitted. -/
abbrev InGroup (s : State) (op : OnOp) (ps : List Port) (n d : Nat) : Prop :=
  let g := (wk s).grp
  g.active = true ∧ (wk s).dropGrp = false ∧ 1 ≤ d ∧ d - op.delta ≤ n ∧
  g.hdrOut = (if d ≤ max op.delta 1 then 0 else 3) ∧ g.digOut.length = d - 1 - op.delta ∧
  killMask (el s).killIn (BitVec.ofNat 12 (wk s).seq) = 0#128 ∧
  ∀ p ∈ ps, grpEnd g p.n = false ∧ (grpFlits g p.n).length = d + 2

/-- The slot of lane j in the digit flit that d digits of the operands give (R143, R146, R150, R151). -/
def slotDue (s : State) (op o : OnOp) (ps : List Port) (n d j : Nat) : Nat :=
  if (operandLanes s o ps n j).all (·.mem) = false then 0
  else match emitted (wk s).grp.digOut j with
    | none => 12
    | some before =>
      match outDigit o (laneOut o (scaleArg s op) (operandLanes s o ps n j)) (operandLanes s o ps n j) (d - op.delta) before with
      | some z => 8 + (z % 8).toNat
      | none => 12

/-- Whether the group ends with that flit: every member lane stands at EZ, or the digits are used up (R145). -/
abbrev endsWith (s : State) (op o : OnOp) (ps : List Port) (n d : Nat) : Prop :=
  d - op.delta = n ∨ ∀ j, j < 128 → slotDue s op o ps n d j = 0 ∨ slotDue s op o ps n d j = 12

/-- Whether OCMP's token leaves with that flit (R151): the group ends with it, or every member lane is decided by a nonzero digit
of the difference, or unordered. -/
abbrev comparedWith (s : State) (ps : List Port) (n d : Nat) : Prop :=
  endsWith s .cmp .cmp ps n d ∨
  ∀ j, j < 128 → (operandLanes s .cmp ps n j).all (·.mem) = true → (laneOut .cmp 0 (operandLanes s .cmp ps n j)).nan = false →
    ∃ w, decidedBy (laneOut .cmp 0 (operandLanes s .cmp ps n j)) (operandLanes s .cmp ps n j) (d - 2) 1 = some w ∧ w ≠ 0

/-- The code of lane j in OCMP's token (R151): 2 for a lane that is no member or NaN, else the sign of the difference. -/
def compareCode (s : State) (ps : List Port) (n d j : Nat) : Nat :=
  let ls := operandLanes s .cmp ps n j
  let x := laneOut .cmp 0 ls
  if ls.all (·.mem) = false ∨ x.nan = true then 2
  else match (if x.zero then some 0 else decidedBy x ls (d - 2) 1) with
    | some w => if w > 0 then 1 else if w < 0 then 3 else 0
    | none => 0

end Sys2Proof.Claims

/-- R143 to R147, R150, R151: inside a value group, a digit operation that finds its d-th digit flit at every port takes those
flits; with d the online delay (or 1) it emits the header, each lane's exponent as its rule gives; and with d beyond the delay
it emits digit d - delay, in each lane the digit that the selection function gives for the target on the digits that have
come, EZ once the lane has ended, and nothing in a lane that is no member. OCMP emits no digits, but one code token once every
lane is decided. -/
def Sys2Proof.Claims.DigitWordsRule : Prop :=
  ∀ (s s0 : State) (i : Instr) (op o : OnOp) (p : BitVec 5) (ps : List Port) (d n : Nat),
    Ready s s0 → digitForm i = some (op, p, ps) → n = p.toNat + 6 → DigitsOffered s0 ps → InGroup s0 op ps n d →
    o = (if op = .thr ∧ (thresholdLane (slot s0 0).toNat binary64).isNone then .relu else op) →
    ∃ t, exec i s = .next t ∧ SameMem s t ∧ (∀ u, unitAt t u = unitAt s u) ∧
      (∀ q ∈ ps, (portFifo t q).q = (portFifo s0 q).q.drop 1) ∧
      (op ≠ .cmp → ∃ hdr dig : List Token, (el t).out = hdr ++ dig ∧
        (hdr.length = if d = max op.delta 1 then 3 else 0) ∧
        (∀ k, k < hdr.length → (hdr.getD k {}).ty = tyHdr ∧ ∀ j, j < 128 →
          slotOf (hdr.getD k {}).data j =
            intBits 12 (laneOut o (scaleArg s0 op) (operandLanes s0 o ps n j)).e / 16 ^ k % 16) ∧
        (dig.length = if op.delta < d then 1 else 0) ∧
        (∀ f ∈ dig, f.ty = tyDigit ∧ f.seq = BitVec.ofNat 12 (wk s0).seq ∧
          (f.gend = true ↔ endsWith s0 op o ps n d) ∧ ∀ j, j < 128 → slotOf f.data j = slotDue s0 op o ps n d j)) ∧
      (op = .cmp →
        (2 < d ∧ comparedWith s0 ps n d → ∃ c, (el t).out = [c] ∧ c.ty = tyData ∧ c.gend = true ∧
          ∀ j, j < 128 → c.data.toNat / 4 ^ j % 4 = compareCode s0 ps n d j) ∧
        (¬ (2 < d ∧ comparedWith s0 ps n d) → (el t).out = []))

/-- R152, R154, R155: OW2D gathers word tokens, and with the token that fills 128 lanes emits their group; OD2W gathers a
group's flits, and with the flit that ends the group emits each member lane as a rounded word, lanes 0 to the highest member;
OACC gathers a group's flits, and with the flit that ends it adds every lane to the accumulators and emits nothing. -/
def Sys2Proof.Claims.GroupWordsRule : Prop :=
  ∀ (s s0 : State) (a p : BitVec 5), Ready s s0 →
    (∀ (w : BitVec 2) (t : Token) (q ts : List Token), heldAt s0 (portAs 0 a) = none → (portAs 0 a).s = 0 →
      (portFifo s0 (portAs 0 a)).q = t :: q → t.ty = tyData → (wk s0).grp.active = true → (wk s0).dropGrp = false →
      ts = (wk s0).grp.inA ++ [t] → (∀ y ∈ ts, y.ty = tyData) →
      ∃ r, exec (.ow2d a p w) s = .next r ∧ OnlyElement s r ∧ (portFifo r (portAs 0 a)).q = q ∧
        (ts.length < wordsPerGroup (wordFmt w) → (el r).out = [] ∧ (wk r).grp.inA = ts) ∧
        (ts.length = wordsPerGroup (wordFmt w) → killMask (el s0).killIn (BitVec.ofNat 12 (wk s0).seq) = 0#128 →
          (el r).out = (groupOfWords (wordFmt w) (p.toNat + 6) (BitVec.ofNat 12 (wk s0).seq) ts).1 ∧ (wk r).grp = {} ∧
          (el r).esr = (el s0).esr |||
            ((groupOfWords (wordFmt w) (p.toNat + 6) (BitVec.ofNat 12 (wk s0).seq) ts).2).setWidth 64)) ∧
    (∀ (c w : BitVec 2) (t : Token) (q ts : List Token), heldAt s0 (portAs 0 a) = none →
      (portFifo s0 (portAs 0 a)).q = t :: q → t.ty = tyDigit → (wk s0).grp.active = true → (wk s0).dropGrp = false →
      (wk s0).grp.endA = false → ts = (wk s0).grp.inA ++ [t] → 4 ≤ ts.length →
      killMask (el s0).killIn (BitVec.ofNat 12 (wk s0).seq) = 0#128 →
      (∃ r, exec (.od2w a p c w) s = .next r ∧ OnlyElement s r ∧ (portFifo r (portAs 0 a)).q = q ∧
        (t.gend = false → (el r).out = [] ∧ (wk r).grp.inA = ts) ∧
        (t.gend = true → ∀ top words, top ≤ 128 → (top ≠ 0 → (laneOf ts true (p.toNat + 6) (top - 1)).mem = true) →
          (∀ j, top ≤ j → j < 128 → (laneOf ts true (p.toNat + 6) j).mem = false) →
          words = (List.range top).map (fun j => laneWord (wordFmt w) (rndOf c) (laneOf ts true (p.toNat + 6) j)) →
          (el r).out = dataToks (BitVec.ofNat 12 (wk s0).seq) ((top * (wordFmt w).width + 511) / 512)
            (((words.zip (List.range top)).map fun v => v.1.1 * 2 ^ ((wordFmt w).width * v.2)).foldl (· + ·) 0) ∧
          (wk r).grp = {})) ∧
      (∃ r, exec (.oacc a p) s = .next r ∧ OnlyElement s r ∧ (portFifo r (portAs 0 a)).q = q ∧ (el r).out = [] ∧
        (t.gend = false → (wk r).grp.inA = ts ∧ (wk r).oacc = (wk s0).oacc) ∧
        (t.gend = true → (wk r).grp = {} ∧
          (wk r).oacc = (List.range 128).map fun j =>
            (accTerm (wk s0).oacc.isEmpty ((wk s0).oacc.getD j {}) (laneOf ts true 1000 j)).1)))

/-! ## The matrix array, the converter and the joiner (08_core_instructions_compute.md, 05_number_formats.md) -/

namespace Sys2Proof.Claims

/-- The arguments of an operation of the array are in range, for accumulators of w bits (R177, R192). -/
abbrev ArrayArgs (s : State) (w : Nat) : Prop :=
  let a := rawArgs s
  a.row0 ≤ 255 ∧ 1 ≤ a.m ∧ a.m ≤ 256 ∧ (slot s 2).toNat < 64 ∧ a.row0 < accRows s s.cur w ∧
  a.row0 + a.m ≤ accRows s s.cur w

/-- No other context has claimed a row (R194). -/
abbrev RowFree (s : State) (w r : Nat) : Prop := accFree s s.cur (accKeys s s.cur w r) = true

/-- Only the tile's datapath and its accumulator rows differ. -/
def OnlyArray (s t : State) : Prop :=
  t = { s with elems := t.elems, fifos := t.fifos, rows := t.rows, claims := t.claims } ∧
  ∀ u e, 32 * u + e ≠ 32 * s.cur + s.curElem → elemAt t u e = elemAt s u e

/-- Row j of a pass that has counted c rows. -/
def rowNo (a : MaArgs) (c : Nat) : Nat := a.row0 + c % a.m

/-- The 32 results of a row of a product operation (R195): each accumulator with its column's sum, and what R132 to R134 and
R139 say of scales, order and rounding; the first pass of an episode starts at zero under ZF. -/
def rowSums (s : State) (w : MaWord) (c : Nat) (row : List (Option Nat)) (sc : RowScale) : List (Nat × BitVec 5 × Bool) :=
  let a := rawArgs s
  let b := (startPass a (intake s)).cur
  (List.range 32).map fun n =>
    accumulate w.lf
      (if a.zf ∧ c < a.m then 0 else (readAcc s s.cur (accWidth w.lf.width) (rowNo a c)).getD n 0)
      row ((blockCols b w.lf.width).getD n []) sc
      (if w.op = .mma then [0x7F, 0x7F, 0x7F, 0x7F] else blockBeta b n) (if w.op = .mma then 0x3F800000 else b.sW.toNat)

/-- Nothing waits at port C, nothing marks the current block or the row's scales, and what the rows need of port C has come
(R193). -/
abbrev Fed (s : State) (w : MaWord) : Prop :=
  (∀ c ∈ w.cPort s, (portFifo s c).q = [] ∧ heldAt s c = none) ∧ hasC w s (rawArgs s) = true ∧
  (startPass (rawArgs s) (intake s)).cur.err = none ∧
  (w.aScaled = true → ∀ t ∈ (intake s).scales.headD [], t.ty ≠ tyErr) ∧ ((w.cPort s).isSome ∨ w.c = 0#5)

/-- The scales of row c of a pass: those of its group of eight (R191). -/
def scaleOfRow (s : State) (w : MaWord) (c : Nat) : RowScale :=
  let r := c % (rawArgs s).m
  if w.aScaled then tokScale (((intake s).scales.headD []).getD (r / 8) {}) (r % 8) else {}

/-- After a row firing: the row holds its results, every other row of the tile what it held, the row is the context's, the
rows are counted, the row is emitted under ROWOUT, and ESR has the exceptions and MNS. -/
def RowDone (s s0 t : State) (w : MaWord) (res : List (Nat × BitVec 5 × Bool)) : Prop :=
  let a := rawArgs s0
  let aw := accWidth w.lf.width
  OnlyArray s t ∧ readAcc t s.cur aw (rowNo a (wk s0).count) = res.map (fun x => x.1 % 2 ^ aw) ∧
  (∀ r, r ≠ rowNo a (wk s0).count → readAcc t s.cur aw r = readAcc s s.cur aw r) ∧
  (∀ k ∈ accKeys s s.cur aw (rowNo a (wk s0).count), mget t.claims k = some s.cur) ∧
  (wk t).count = (wk s0).count + 1 ∧
  (el t).out = (if a.rowout then dataToks (BitVec.ofNat 12 (wk s0).seq) (32 * aw / 512) (joinLanes aw (res.map (·.1))) else []) ∧
  (el t).esr = (el s0).esr ||| (res.foldl (fun x y => x ||| y.2.1) (0#5 : BitVec 5)).setWidth 64 |||
    (if res.any (·.2.2) then 256#64 else 0#64)

/-- The row that A tokens make: their bits as elements. -/
def denseBits (s : State) (w : MaWord) : List (Option Nat) :=
  let ts := w.ab.map fun p => (present s w.ab 1 p).headD {}
  (splitLanes w.lf.width (maDepth w.lf.width)
    ((ts.getD 0 {}).data.toNat + (if w.ab.length = 2 then (ts.getD 1 {}).data.toNat * 2 ^ 512 else 0))).map some

end Sys2Proof.Claims

/-- R189 to R197, R201, R239: a row of MMA or MMAS that its ports offer, with equal seqs where it comes as two tokens, a row
that the converter has passed to MMAC, and a group of four sparse rows of MSPM update their accumulator rows with the current
block and their scales, count, and emit under ROWOUT. The constructors of which it says where they complete: mma, mmas, mmac,
mspm. It rests on the model's own choices too (assumption log 9, 44, 46, 48). -/
def Obligations.ProductWords : Prop :=
  ∀ (s s0 : State) (a b c : BitVec 5) (f : BitVec 3) (x : BitVec 4), Ready s s0 →
    (∀ (i : Instr) (w : MaWord),
      (i = .mma a b c f x ∧
          w = { op := .mma, lf := laneFmt f x, c := c
                ab := portAs 0 a :: (if (laneFmt f x).width = 8 then [portAs 1 b] else []) } ∨
        i = .mmas a b c f x ∧ (laneFmt f x).width = 8 ∧
          w = { op := .mmas, lf := laneFmt f x, ab := [portAs 0 a, portAs 1 b], c := c }) →
      ArrayArgs s0 (accWidth w.lf.width) → Fed s0 w → Offered s0 w.ab 1 → (wk s0).discard = false →
      RowFree s0 (accWidth w.lf.width) (rowNo (rawArgs s0) (wk s0).count) →
      (∀ p ∈ w.ab, ∀ t ∈ present s0 w.ab 1 p, ∀ q ∈ w.ab, ∀ u ∈ present s0 w.ab 1 q, t.seq = u.seq) →
      ∃ t, exec i s = .next t ∧
        RowDone s s0 t w (rowSums s0 w (wk s0).count (denseBits s0 w) (scaleOfRow s0 w (wk s0).count)) ∧
        ∀ p ∈ owners w.ab, heldAt s0 p = none → (portFifo t p).q = (portFifo s0 p).q.drop 1) ∧
    (∀ (w : MaWord) (u v z : Token) (rest : List Token), w = { op := .mmac, lf := laneFmt f x, ab := [], c := c } →
      (laneFmt f x).width = 8 → ArrayArgs s0 (accWidth w.lf.width) → Fed s0 w →
      (intake s0).chain = u :: v :: z :: rest → u.ty ≠ tyEos → u.ty ≠ tyTag → (∀ t ∈ [u, v, z], t.ty ≠ tyErr) →
      (ewordAt s0 s0.cur 22).extractLsb' 6 3 = f → RowFree s0 32 (rowNo (rawArgs s0) (wk s0).count) →
      ∃ t, exec (.mmac c f x) s = .next t ∧
        RowDone s s0 t w (rowSums s0 w (wk s0).count
          ((splitLanes 8 128 (u.data.toNat + v.data.toNat * 2 ^ 512)).map some) (tokScale z 0)) ∧
        (intake t).chain = rest) ∧
    (∀ (w : MaWord) (g : Token) (q els : List Nat) (rows : List (Option Nat)),
      w = { op := .mspm, lf := laneFmt f x, ab := [portAs 0 a, portAs 1 b], c := c } → (laneFmt f x).width = 8 →
      ArrayArgs s0 32 → (rawArgs s0).m % 4 = 0 → (wk s0).count % 4 = 0 → Fed s0 w →
      (wk s0).discard = false → Plain s0 w.ab → (portAs 0 a).k ≠ (portAs 1 b).k →
      (portFifo s0 (portAs 1 b)).q.head? = some g → g.ty = tyData → q.length = (popN 512 g.data.toNat + 63) / 64 →
      ((portFifo s0 (portAs 0 a)).q.take q.length).map (fun t => t.data.toNat) = q →
      (∀ t ∈ (portFifo s0 (portAs 0 a)).q.take q.length, t.ty = tyData) →
      (∀ t, (portFifo s0 (portAs 0 a)).q.head? = some t → t.ty = tyData) →
      (∀ j, j < 4 → RowFree s0 32 (rowNo (rawArgs s0) ((wk s0).count + j))) →
      els = q.flatMap (splitLanes 8 64) → rows = unpackRows 512 g.data.toNat els →
      ∃ t, exec (.mspm a b c f x) s = .next t ∧ OnlyArray s t ∧ (wk t).count = (wk s0).count + 4 ∧
        (∀ j, j < 4 → readAcc t s.cur 32 (rowNo (rawArgs s0) ((wk s0).count + j)) =
          (rowSums s0 w ((wk s0).count + j) ((rows.drop (128 * j)).take 128)
            (scaleOfRow s0 w ((wk s0).count + j))).map fun x => x.1 % 2 ^ 32) ∧
        (el t).out = (if (rawArgs s0).rowout then (List.range 4).flatMap fun j =>
            dataToks (BitVec.ofNat 12 ((wk s0).seq + j)) 2 (joinLanes 32 ((rowSums s0 w ((wk s0).count + j)
              ((rows.drop (128 * j)).take 128) (scaleOfRow s0 w ((wk s0).count + j))).map (·.1)))
          else []) ∧
        (portFifo t (portAs 0 a)).q = (portFifo s0 (portAs 0 a)).q.drop q.length ∧
        (portFifo t (portAs 1 b)).q = (portFifo s0 (portAs 1 b)).q.drop 1)

/-- R190, R192, R196, R198: a trigger token makes MZERO clear the next row, and MRD emit the next row converted and clear it
under CLR; MLDB gathers a block, and with its last token makes it current and emits one DATA token that counts it; MCX takes
the keys of a token with their places. -/
def Sys2Proof.Claims.ArrayRowsRule : Prop :=
  ∀ (s s0 : State) (a : BitVec 5) (f : BitVec 3) (r : BitVec 2) (x : BitVec 4) (p : Port), Ready s s0 → p = portAs 0 a →
    (∀ aw, Offered s0 [p] 1 → aw = accWidth (laneFmt f x).width → ArrayArgs s0 aw → noCtl (rawArgs s0) = true →
      RowFree s0 aw (rowNo (rawArgs s0) (wk s0).count) →
      ∃ t, exec (.mzero a f x) s = .next t ∧ OnlyArray s t ∧ Took s0 t [p] 1 ∧ (wk t).count = (wk s0).count + 1 ∧
        readAcc t s.cur aw (rowNo (rawArgs s0) (wk s0).count) = List.replicate 32 0 ∧
        (∀ n, n ≠ rowNo (rawArgs s0) (wk s0).count → readAcc t s.cur aw n = readAcc s s.cur aw n) ∧ (el t).out = []) ∧
    (∀ aw old res, Offered s0 [p] 1 → aw = (if (rawArgs s0).kind = 1 then 64 else 32) → ArrayArgs s0 aw → noCtl (rawArgs s0) = true →
      kindSuits f.toNat (rawArgs s0) = true → RowFree s0 aw (rowNo (rawArgs s0) (wk s0).count) →
      old = readAcc s0 s0.cur aw (rowNo (rawArgs s0) (wk s0).count) →
      res = old.map (fun v => match laneFmt f x with
        | .fp g => fpConv (if (rawArgs s0).kind = 1 then binary64 else binary32) g (rndOf r) false v
        | .int _ _ => (v, (0#5 : BitVec 5))) →
      ∃ t, exec (.mrd a f r x) s = .next t ∧ OnlyArray s t ∧ Took s0 t [p] 1 ∧ (wk t).count = (wk s0).count + 1 ∧
        (el t).out = dataToks (BitVec.ofNat 12 (wk s0).seq) (32 * (laneFmt f x).width / 512)
          (joinLanes (laneFmt f x).width (res.map (·.1))) ∧
        (el t).esr = (el s0).esr ||| (laneExc res).setWidth 64 ∧
        readAcc t s.cur aw (rowNo (rawArgs s0) (wk s0).count) = (if (rawArgs s0).clr then List.replicate 32 0 else old)) ∧
    (∀ (n : Nat) (u : Token) (q ts : List Token),
      n = blockToks (laneFmt f x).width + (if (laneFmt f x).isFp8 && x.getLsbD 0 then 3 else 0) →
      ts = (intake s0).part ++ [u] → heldAt s0 p = none → (portFifo s0 p).q = u :: q →
      u.ty = (if (intake s0).part.length < blockToks (laneFmt f x).width then tyData else tyScale) →
      (∀ y ∈ (intake s0).part, y.ty ≠ tyErr) →
      ((intake s0).part = [] → ArrayArgs s0 (accWidth (laneFmt f x).width) ∧ noCtl (rawArgs s0) = true) →
      (ts.length < n → ∃ t, exec (.mldb a f x) s = .next t ∧ OnlyElement s t ∧ Took s0 t [p] 1 ∧ (intake t).part = ts ∧
        (el t).out = []) ∧
      (ts.length = n → ∃ t, exec (.mldb a f x) s = .next t ∧ OnlyElement s t ∧ Took s0 t [p] 1 ∧ (intake t).part = [] ∧
        (intake t).cur = blockOf (laneFmt f x).width ts ∧ (intake t).loaded = (intake s0).loaded + 1 ∧
        (el t).out = dataToks (BitVec.ofNat 12 (wk s0).seq) 1 (((intake s0).loaded + 1) % 2 ^ 32))) ∧
    (∀ (u : Token) (w : Nat), w = (laneFmt f x).width → Offered s0 [p] 1 → present s0 [p] 1 p = [u] → 1 ≤ (slot s0 0).toNat →
      (slot s0 0).toNat ≤ 32 → (slot s0 1).toNat < 2 →
      ∃ t, exec (.mcx a f x) s = .next t ∧
        Fired s s0 t [p] 1 [] 0#5 fun k => { k with
          count := k.count + 512 / w
          keys := k.keys ++ (List.range (512 / w)).map fun j =>
            (u.data.toNat / 2 ^ (w * j) % 2 ^ w, (k.count + j) % 2 ^ 32) })

namespace Sys2Proof.Claims

/-- The element counters of CVDN once its stream is on (R200). -/
def converterOn (w : Work) : Work := if w.cvOn then w else { w with cvOn := true, cvUcnt := 0, cvBlk := 0 }

/-- CVDN's block of 32 words: their values, by the format of their tokens. -/
def wordsOf (f : Fmt) (ts : List Token) : List FVal :=
  (splitLanes f.width 32 (((ts.zip (List.range ts.length)).map fun t => t.1.data.toNat * 2 ^ (512 * t.2)).foldl (· + ·) 0)).map
    (unpack f)

end Sys2Proof.Claims

/-- R135 to R138, R199 to R203: CVDN outside chain mode gathers words, and with the token that fills a block of 32 emits one
token of codes whose band holds the scale code and the underflow count; a trigger token in chain mode passes four blocks of
accumulator rows to MMAC as one A row; CVUP emits the words of a scaled block; SJOIN puts a SCALE token's data into the band
of the data token of its seq, and passes a token without gend at once. -/
def Sys2Proof.Claims.ConverterWordsRule : Prop :=
  ∀ (s s0 : State) (a b : BitVec 5) (f : BitVec 3), Ready s s0 → Offered s0 [portAs 0 a] 1 →
    (∀ (z : BitVec 1) (v : CvArgs) (u : Token) (ts : List Token),
      cvArgs s0 u = .ok v → present s0 [portAs 0 a] 1 (portAs 0 a) = [u] →
      (v.chain = false → ts = (wk s0).got ++ [u] → (∀ y ∈ ts, y.ty = tyData) →
        (ts.length * 512 < 32 * (fmtOf v.src).width →
          ∃ t, exec (.cvdn a f z) s = .next t ∧
            Fired s s0 t [portAs 0 a] 1 [] 0#5 fun w => { converterOn w with got := ts }) ∧
        (∀ res, ts.length * 512 = 32 * (fmtOf v.src).width →
          res = downConvert (fmtOf f.toNat) (decide (z = 1#1)) v.m v.th (wordsOf (fmtOf v.src) ts) →
          ∃ t, exec (.cvdn a f z) s = .next t ∧ OnlyElement s t ∧ Took s0 t [portAs 0 a] 1 ∧ (wk t).got = [] ∧
            (el t).out = [{ ty := tyData, data := BitVec.ofNat 512 (joinLanes 8 res.q), gend := true
                            seq := BitVec.ofNat 12 (wk s0).seq, band := BitVec.ofNat 16 (res.c + 256 * res.u) }] ∧
            (wk t).cvBlk = min 4095 ((converterOn (wk s0)).cvBlk + 1) ∧
            (wk t).cvUcnt = min 255 ((converterOn (wk s0)).cvUcnt + res.u))) ∧
      (v.chain = true → s.curElem = 22 → eopOf (ewordAt s0 s0.cur 9) = 0x42 → (wk s0).count < v.mc →
        (∀ q, q < 4 → v.srow0 + (wk s0).count + v.sigma * q < accRows s0 s0.cur 32) →
        (∀ q, q < 4 → RowFree s0 32 (v.srow0 + (wk s0).count + v.sigma * q)) →
        ∀ blk : Nat → Converted, (∀ q, blk q = downConvert (fmtOf f.toNat) (decide (z = 1#1)) v.m v.th
          ((readAcc s0 s0.cur 32 (v.srow0 + (wk s0).count + v.sigma * q)).map (unpack binary32))) →
        ∃ t, exec (.cvdn a f z) s = .next t ∧ Took s0 t [portAs 0 a] 1 ∧ (wk t).count = (wk s0).count + 1 ∧ (el t).out = [] ∧
          SameMem s t ∧
          (elemAt t s.cur 9).work.intake.chain = (elemAt s s.cur 9).work.intake.chain ++
            [{ ty := tyData, data := BitVec.ofNat 512 (joinLanes 8 ((blk 0).q ++ (blk 1).q)) },
             { ty := tyData, data := BitVec.ofNat 512 (joinLanes 8 ((blk 2).q ++ (blk 3).q)) },
             { ty := tyScale, data := BitVec.ofNat 512
                (joinLanes 8 [(blk 0).c, (blk 1).c, (blk 2).c, (blk 3).c] + v.sA * 2 ^ 32) }])) ∧
    (∀ (r : BitVec 2) (u : Token) (c : Nat) (ws : List (Nat × BitVec 5)), present s0 [portAs 0 a] 1 (portAs 0 a) = [u] →
      u.gend = true → c = (slot s0 0).toNat % 8 → (c = 4 ∨ c = 5) →
      ws = (splitLanes 8 32 u.data.toNat).map (fun q =>
        if u.band.toNat % 256 = 255 then ((fmtOf f.toNat).nanCode, exNV)
        else roundTo (fmtOf f.toNat) (rndOf r) false
          ((unpack (fmtOf c) q).scale (((u.band.toNat % 256 : Nat) : Int) - 127)).toExact) →
      ∃ t, exec (.cvup a f r) s = .next t ∧
        Fired s s0 t [portAs 0 a] 1
          (dataToks (BitVec.ofNat 12 (wk s0).seq) (32 * (fmtOf f.toNat).width / 512) (joinLanes (fmtOf f.toNat).width (ws.map (·.1))))
          (laneExc ws) numbered) ∧
    (∀ (r : BitVec 2) (u : Token) (c : Nat), present s0 [portAs 0 a] 1 (portAs 0 a) = [u] → u.gend = false →
      c = (slot s0 0).toNat % 8 → (c = 4 ∨ c = 5) →
      ∃ t, exec (.cvup a f r) s = .next t ∧ Fired s s0 t [portAs 0 a] 1 [] 0#5 fun w => w) ∧
    (∀ (u : Token), present s0 [portAs 0 a] 1 (portAs 0 a) = [u] → (portAs 0 a).k ≠ (portAs 1 b).k → (wk s0).discard = false →
      (∀ t, (portFifo s0 (portAs 1 b)).q.head? = some t → t.ty = tyScale) →
      (u.gend = false →
        ∃ t, exec (.sjoin a b f) s = .next t ∧ Fired s s0 t [portAs 0 a] 1 [{ u with band := 0#16 }] 0#5 fun w => w) ∧
      (∀ (c : Token) (q : List Token), u.gend = true → heldAt s0 (portAs 1 b) = none → (portFifo s0 (portAs 1 b)).q = c :: q →
        c.ty = tyScale →
        (c.seq = u.seq → ∃ t, exec (.sjoin a b f) s = .next t ∧
          Fired s s0 t [portAs 0 a, portAs 1 b] 1 [{ u with band := c.data.setWidth 16 }] 0#5 fun w => w) ∧
        (c.seq ≠ u.seq → ∃ t, exec (.sjoin a b f) s = .next t ∧ (el t).frozen = true ∧ field (el t).efr 55 48 = 0x0D)))

/-! ## Memory ports, sources, the translation operator and the Sieve (09_core_instructions_stream.md) -/

namespace Sys2Proof.Claims

/-- An element that can act, and that holds credit towards every reader if it sends, with the state in which its firing takes
place; it need not drive a route (R161). -/
def Starts (s s0 : State) : Prop :=
  canAct s s.cur s.curElem = true ∧ hasCredit s s.cur s.curElem = true ∧ enterRound (withCommands s) = .ok s0

/-- A memory port that fires on an address token (R208): the address translates under its access to x, in memory, and it is
the operation's turn in its wave. -/
def AtTurn (s0 s1 : State) (k : Access) (w : Nat) (a : Token) (x : XOk) : Prop :=
  portAddress s0 k w a = .ok (x, s1) ∧ isRegion x.pa = false ∧ waveTurn s0 a = true

/-- The wave after the operation of the acting element on a token (R171). -/
def waveAfter (s : State) (a : Token) : Option (Nat × Nat) :=
  if wvEnd (wwordAt s s.cur s.curElem) then none else some (a.seq.toNat, wvOwn (wwordAt s s.cur s.curElem))

/-- The stores that the thread of the acting element has buffered in the rounds up to n, in order (R171, R208). -/
def ownStores (s : State) (n : Nat) : List RoundStore := bufferedStores (seriesAt s (seriesOf s s.cur)) n (tileOf s.cur)

/-- Every word of an access is supplied at once (R299): no buffered store covers a part of one only. -/
def Supplied (s : State) (n pa w : Nat) : Prop :=
  ∀ a ∈ accessWords pa w, (seenValue (ownStores s n) s.mem a.1 a.2).isSome

/-- Memory supplies a word of an access (R299). -/
def FromMemory (s : State) (n pa w : Nat) : Prop := ∃ a ∈ accessWords pa w, forward (ownStores s n) a.1 a.2 = .none

/-- A word of an access that memory supplies is poisoned (R170). -/
def Poisoned (s : State) (n pa w : Nat) : Prop :=
  ∃ a ∈ accessWords pa w, poisonedIn s.mem a.1 a.2 ≠ none ∧ forward (ownStores s n) a.1 a.2 = .none

/-- The number in w bytes as that thread reads it: each word from the last store buffered to it, else from memory. -/
def threadNum (s : State) (n pa w : Nat) : Nat :=
  ofBytes ((accessWords pa w).flatMap fun a => toBytes a.2 ((seenValue (ownStores s n) s.mem a.1 a.2).getD 0))

/-- What a load gives of a number of w bytes: with the sign copied up to bit 63 where SX asks it. -/
def loaded (sx : Bool) (w v : Nat) : Nat := if sx ∧ w ≤ 8 then (sext64 (8 * w) v).toNat else v

/-- The FIFOs of ports that hold nothing give up one token, and nothing else of the datapath's FIFOs changes. -/
def TookOne (s t : State) (ps : List Port) : Prop := Took s t ps 1

/-- The words that a store of w bytes at the address of a token buffers (R208), with the translation that they use (R349). -/
def storeWords (s : State) (u : Token) (y : XOk) (w v : Nat) : List RoundStore :=
  (List.range (w / min w 8)).map fun i =>
    { pa := y.pa + 8 * i, size := min w 8, value := BitVec.ofNat 64 (v / 2 ^ (64 * i) % 2 ^ (8 * min w 8)), tile := tileOf s.cur
      va := storeVa u (u.data.setWidth 64), tsz := y.tsz }

/-- The buffered stores of the round in which the acting element stands. -/
def roundStores (s : State) (n : Nat) : List RoundStore := ((seriesAt s (seriesOf s s.cur)).round n).stores

end Sys2Proof.Claims

/-- R171, R206, R208, R211, R238, R299: a firing of MLD or MLDT whose turn it is emits the number that its thread reads at the
address, sign-extended where its form asks, with the address token's seq and gend, and leases in the round the lines that
memory supplies; a poisoned word of memory gives an ERR of code 3; MLD with PK gathers, and emits the packed token at the last
lane or a gend. MST and MSTT buffer their words in the round, at memory's bytes unchanged, and with PK take B after its last
lane. -/
def Sys2Proof.Claims.RoundAccessesRule : Prop :=
  ∀ (s s0 s1 : State) (a b : BitVec 5) (wd z x : BitVec 3) (y : XOk) (u : Token) (w : Nat),
    (∀ (n : Nat) (i : Instr) (sx pk : Bool) (ty : BitVec 4) (up : Nat), Ready s s0 → Offered s0 [portAs 0 a] 1 →
      present s0 [portAs 0 a] 1 (portAs 0 a) = [u] → AtTurn s0 s1 .read w u y → n = (el s0).round →
      (i = .mld a wd z x ∧ w = 64 / 2 ^ wd.toNat ∧ sx = x.getLsbD 0 ∧ pk = x.getLsbD 1 ∧ up = 0 ∧
          loadType s0 (x.getLsbD 2) u = .ok ty ∨
        ∃ h, portHandle s0 (portAs 0 a) u = .ok h ∧ i = .mldt a z ∧ w = hBytes h ∧ sx = hSigned h ∧ pk = false ∧ ty = tyData ∧
          up = field u.data 191 96) →
      (¬ Poisoned s n y.pa w → Supplied s n y.pa w →
        (pk = false → ∃ t, exec i s = .next t ∧ SameMem s t ∧ TookOne s0 t [portAs 0 a] ∧
          (bankAt t s.cur).wave = waveAfter s u ∧
          (el t).out = [{ ty := ty, data := BitVec.ofNat 512 (loaded sx w (threadNum s n y.pa w) + up * 2 ^ 96)
                          seq := u.seq, gend := u.gend }] ∧
          (FromMemory s n y.pa w → ∀ ln ∈ linesOf y.pa w, (mget ((seriesAt t (seriesOf s s.cur)).round n).loads ln).isSome)) ∧
        (pk = true → ∀ got, got = (wk s0).got ++ [{ ty := ty, data := BitVec.ofNat 512 (loaded sx w (threadNum s n y.pa w))
                                                    seq := u.seq, gend := u.gend }] →
          (∀ v ∈ got, v.ty ≠ tyErr) →
          ∃ t, exec i s = .next t ∧ SameMem s t ∧ TookOne s0 t [portAs 0 a] ∧
            (got.length ≠ 64 / w → u.gend = false → (el t).out = [] ∧ (wk t).got = got) ∧
            ((got.length = 64 / w ∨ u.gend = true) → (wk t).got = [] ∧
              (el t).out = [{ ty := tyData, data := BitVec.ofNat 512 (joinLanes (8 * w) (got.map (·.data.toNat)))
                              seq := u.seq, gend := u.gend }]))) ∧
      (Poisoned s n y.pa w → pk = false → ∃ t, exec i s = .next t ∧ SameMem s t ∧
        (el t).out = [{ ty := tyErr, data := errData s.cur s.curElem 3, seq := u.seq, gend := u.gend }])) ∧
    (∀ (n c : Nat) (i : Instr) (pk : Bool) (v : Token), Starts s s0 → Offered s0 [portAs 0 a, portAs 1 b] 1 →
      present s0 [portAs 0 a, portAs 1 b] 1 (portAs 0 a) = [u] → present s0 [portAs 0 a, portAs 1 b] 1 (portAs 1 b) = [v] →
      AtTurn s0 s1 .write w u y → n = (el s0).round → c = (if pk then (wk s0).count else 0) →
      (i = .mst a b wd z x ∧ w = 64 / 2 ^ wd.toNat ∧ pk = x.getLsbD 1 ∨
        ∃ h, portHandle s0 (portAs 0 a) u = .ok h ∧ i = .mstt a b z ∧ w = hBytes h ∧ pk = false) →
      ∃ t, exec i s = .next t ∧ SameMem s t ∧ (bankAt t s.cur).wave = waveAfter s u ∧ (el t).out = [] ∧
        roundStores t n = roundStores s n ++ storeWords s u y w (v.data.toNat / 2 ^ (8 * w * c) % 2 ^ (8 * w)) ∧
        (if pk = true ∧ u.gend = false ∧ c + 1 < 64 / w
         then TookOne s0 t [portAs 0 a] ∧ (wk t).count = c + 1
         else TookOne s0 t [portAs 0 a, portAs 1 b] ∧ (wk t).count = 0))

/-- R209, R210, R169: MAMO makes one atomic event on its w bytes and emits the old value under RET; MLDF of a full
scratchpad word emits it, and under EMP empties it; MSTE to an empty word, or with UNC to any, stores and fills it; MLDF of an
empty word and MSTE to a full one stand among the bank's waiters. -/
def Sys2Proof.Claims.DatapathAtomicsRule : Prop :=
  ∀ (s s0 s1 : State) (a b c : BitVec 5) (wd z : BitVec 3) (x : BitVec 1) (y : XOk) (u : Token),
    (∀ (n w old new : Nat) (ps : List Port) (v k : Token), w = 64 / 2 ^ wd.toNat → w ≤ 8 → n = (slot s0 0).toNat → n ≤ 9 →
      (n ≠ 9 → c = 0#5) → ps = [portAs 0 a, portAs 1 b] ++ (if n = 9 then [portAs 2 c] else []) →
      (if x = 1#1 then Ready s s0 else Starts s s0) → Offered s0 ps 1 → present s0 ps 1 (portAs 0 a) = [u] →
      present s0 ps 1 (portAs 1 b) = [v] → (n = 9 → present s0 ps 1 (portAs 2 c) = [k]) → AtTurn s0 s1 .atomic w u y →
      pinnedRange s1 (some (seriesOf s s.cur)) y.pa w = false → poisonedIn s.mem y.pa w = none →
      old = rdNum s.mem y.pa w →
      new = (if n = 9 ∧ old ≠ k.data.toNat % 2 ^ (8 * w) then old
        else (amoOf n).apply (8 * w) old (v.data.toNat % 2 ^ (8 * w)) (k.data.toNat % 2 ^ (8 * w))) →
      ∃ t, exec (.mamo a b c wd z x) s = .next t ∧ rdNum t.mem y.pa w = new % 2 ^ (8 * w) ∧ SameBytesBut s t y.pa w ∧
        (bankAt t s.cur).wave = waveAfter s u ∧
        (el t).out = (if x = 1#1 then [{ ty := tyData, data := BitVec.ofNat 512 old, seq := u.seq, gend := u.gend }] else [])) ∧
    (∀ k, k = (if x = 1#1 then Access.atomic else Access.read) → Ready s s0 → Offered s0 [portAs 0 a] 1 → (wk s0).got = [] →
      present s0 [portAs 0 a] 1 (portAs 0 a) = [u] → AtTurn s0 s1 k 8 u y → isSpad y.pa = true →
      poisonedIn s.mem y.pa 8 = none → s.twaiters = [] →
      (∀ v, isFull s.mem y.pa = true → pinnedRange s1 (some (seriesOf s s.cur)) y.pa 8 = false →
        slotSees s0 s.cur s.curElem y.pa 8 = some v →
        ∃ t, exec (.mldf a wd z x) s = .next t ∧ (∀ q, rdByte t.mem q = rdByte s.mem q) ∧ TookOne s0 t [portAs 0 a] ∧
          (x = 1#1 → isFull t.mem y.pa = false) ∧ (x ≠ 1#1 → isFull t.mem y.pa = true) ∧
          (el t).out = [{ ty := tyData, data := BitVec.ofNat 512 v, seq := u.seq, gend := u.gend }]) ∧
      (isFull s.mem y.pa = false →
        ∃ t, exec (.mldf a wd z x) s = .next t ∧ SameMem s t ∧ (el t).parked = true ∧ t.fifos = s.fifos ∧
          t.twaiters = [{ pa := wordOf y.pa, who := 32 * s.cur + s.curElem, elem := true, full := true
                          clear := decide (x = 1#1), value := 0#64, va := u.data.setWidth 64
                          scope := some (portScope s0 z), sa := y.sa }])) ∧
    (∀ v, Starts s s0 → Offered s0 [portAs 0 a, portAs 1 b] 1 → (wk s0).got = [] →
      present s0 [portAs 0 a, portAs 1 b] 1 (portAs 0 a) = [u] → present s0 [portAs 0 a, portAs 1 b] 1 (portAs 1 b) = [v] →
      AtTurn s0 s1 .write 8 u y → isSpad y.pa = true → s.twaiters = [] →
      ((isFull s.mem y.pa = false ∨ x = 1#1) → pinnedRange s1 (some (seriesOf s s.cur)) y.pa 8 = false →
        ∃ t, exec (.mste a b wd z x) s = .next t ∧ rdNum t.mem y.pa 8 = v.data.toNat % 2 ^ 64 ∧ isFull t.mem y.pa = true ∧
          SameBytesBut s t y.pa 8 ∧ TookOne s0 t [portAs 0 a, portAs 1 b] ∧ (el t).out = []) ∧
      (isFull s.mem y.pa = true → x ≠ 1#1 →
        ∃ t, exec (.mste a b wd z x) s = .next t ∧ SameMem s t ∧ (el t).parked = true ∧ t.fifos = s.fifos ∧
          t.twaiters = [{ pa := wordOf y.pa, who := 32 * s.cur + s.curElem, elem := true, full := false, clear := false
                          value := v.data.setWidth 64, va := u.data.setWidth 64, scope := some (portScope s0 z)
                          sa := y.sa }]))

namespace Sys2Proof.Claims

/-- The state in which a stream emits: with its arguments taken, at its first firing (R177). -/
def streaming (s0 : State) (x : Stream) : State := if x.started then s0 else startStream s0

/-- An address token (R204): NEWPG on the first address and on every one in another page than the last. -/
def addrToken (last : Option Nat) (addr coord k : Nat) (gend : Bool) : Token :=
  { ty := tyData, seq := BitVec.ofNat 12 k, gend := gend
    data := BitVec.ofNat 512 (addr + (if last = some (addr / 4096) then 0 else 2 ^ 67) + coord * 2 ^ 96) }

/-- A stream after one more DATA token (R252). -/
def Emitted (t : State) (x : Stream) : Prop :=
  ∃ y, (el t).stream = some y ∧ y.emitted = x.emitted + 1 ∧ y.sinceTag = x.sinceTag + 1 ∧ y.count = x.count ∧ y.rank = x.rank

/-- Σ s(i) × ii of address number k, i0 varying fastest (R213). -/
def affineOffset : List (Nat × Int) → Nat → Int
  | [], _ => 0
  | d :: l, k => d.2 * ((k % d.1 : Nat) : Int) + affineOffset l (k / d.1)

/-- Whether the stream's next item is a token of its own: it has more, and no TAG is due (R252). -/
def Runs (x : Stream) (more : Bool) : Prop := x.started = true → more = true ∧ x.tagDue = false

end Sys2Proof.Claims

/-- R204, R212 to R215: AGA emits base + Σ s(i) × ii for the next address number, AGX base + index × 2^σ for the next index, or
an ERR of code 2 outside its window; AGH over one dense level visits the children of its box, emits each element's address with
its coordinate one visit later, and the last with gend. The constructors of which it says where they complete: aga, agx, agh. It
rests on the model's own choices too (assumption log 9, 56, 105, 110). -/
def Obligations.AddressStreams : Prop :=
  ∀ (s s0 s1 : State) (a : BitVec 5) (x : Stream), Ready s s0 → (el s0).stream = some x → s1 = streaming s0 x →
    (∀ ds, ds = affDims s1 → Runs x (decide (x.emitted < affTotal s0 x)) → (x.started = false → affCheck s1 = .ok ()) →
      ∃ t, exec .aga s = .next t ∧ OnlyElement s t ∧ Emitted t x ∧
        (el t).out = [addrToken (wk s1).page (streamArg s1 0 + BitVec.ofInt 64 (affineOffset ds x.emitted)).toNat 0 x.emitted
          (decide (0 < (streamArg s1 7).toNat) &&
            decide ((x.emitted + 1) % (((ds.take (streamArg s1 7).toNat).map (·.1)).foldl (· * ·) 1) = 0))]) ∧
    (∀ (u : Token) (addr : Word), Offered s0 [portAs 0 a] 1 → present s0 [portAs 0 a] 1 (portAs 0 a) = [u] → x.count = 0 →
      x.tagDue = false →
      (slot s0 1).toNat ≤ 6 → canonical (slot s0 5) = true → canonical (slot s0 6) = true →
      (slot s0 5).toNat < (slot s0 6).toNat → addr = slot s0 0 + ((u.data.setWidth 64) <<< (slot s0 1).toNat) →
      ∃ t, exec (.agx a) s = .next t ∧ OnlyElement s t ∧ Took s0 t [portAs 0 a] 1 ∧
        ((slot s0 5).toNat ≤ addr.toNat → addr.toNat < (slot s0 6).toNat → Emitted t x ∧
          (el t).out = [addrToken (wk s1).page addr.toNat 0 x.emitted u.gend]) ∧
        ((addr.toNat < (slot s0 5).toNat ∨ (slot s0 6).toNat ≤ addr.toNat) →
          (el t).out = [{ ty := tyErr, data := errData s.cur s.curElem 2, seq := BitVec.ofNat 12 x.emitted, gend := u.gend }])) ∧
    (∀ (h : Handle) (f : WalkFrame) (o : Nat), h = walkHandle s0 → hLevels h = 1 → lvFormat h 0 = 0 → x.started = true →
      (x.count = 0 ∨ x.emitted < x.count) → o = field (streamArg s0 1) 23 0 →
      (((wk s0).walk = [f] ∧ f.next < f.stop ∧ ((wk s0).got = [] ∨ x.tagDue = false)) →
        ∃ t addr, exec .agh s = .next t ∧ SameMem s t ∧
          addr = hword h 1 + BitVec.ofInt 64 ((hBytes h : Int) *
            (if lvStride h 0 = 0 then f.p * (lvExtent h 0 : Int) + ((o + f.next : Nat) : Int)
             else f.p + lvStride h 0 * ((o + f.next : Nat) : Int))) ∧
          (wk t).walk = [{ f with next := f.next + 1, x := o + f.next }] ∧
          (wk t).got = [{ ty := tyData, data := BitVec.ofNat 512 (addr.toNat + (o + f.next) % 2 ^ 24 * 2 ^ 96) }] ∧
          ((wk s0).got = [] → (el t).out = []) ∧
          (∀ v, (wk s0).got = [v] → v.ty = tyData → (el t).out =
            [addrToken (wk s0).page (v.data.toNat % 2 ^ 64) (field v.data 191 96) x.emitted false])) ∧
      (∀ v, (wk s0).walk = [f] → f.stop ≤ f.next → (wk s0).got = [v] → v.ty = tyData → x.tagDue = false →
        ∃ t, exec .agh s = .next t ∧ SameMem s t ∧ (wk t).walk = [] ∧ (wk t).got = [] ∧ Emitted t x ∧
          (el t).out = [addrToken (wk s0).page (v.data.toNat % 2 ^ 64) (field v.data 191 96) x.emitted true]))

namespace Sys2Proof.Claims

/-- The coordinates and elements that a dense token adds to an episode at a place (R219). -/
def keptOf (f : SieveFmt) (nz : Bool) (pos v : Nat) : List (Nat × Nat) :=
  ((List.range f.lanes).map fun j => (pos + j, v / 2 ^ (f.w * j) % 2 ^ f.w)).filter fun e =>
    decide (e.2 ≠ 0) && !(nz && decide (f.neg0 = some e.2))

/-- Tokens of full entries from a list, numbered from a seq (R218). -/
def entryTokens (f : SieveFmt) (seq : Nat) (l : List (Nat × Nat)) : List Token :=
  (List.range (l.length / f.entries)).map fun k =>
    { ty := tyData, gend := false, seq := BitVec.ofNat 12 (seq + k)
      data := BitVec.ofNat 512 (joinLanes f.entryBits (((l.drop (k * f.entries)).take f.entries).map f.pack)) }

end Sys2Proof.Claims

/-- R216, R217, R204: XLATE emits the address token with the physical address, PHYS and the extent, keeps its NEWPG and
coordinates, and writes its reserved bits as zero; a fault under FT becomes an ERR of code 6 with the cause and the address, and
otherwise freezes the element. R218 to R220: SIEVE keeps the elements that are not zero with their coordinates, and emits a
token for every full list of entries; UNSIEVE keeps the entries of its current dense token, and emits that token once an entry
of the next one comes. The constructors of which it says where they complete: xlate, sieve, unsieve. It rests on the model's own
choices too (assumption log 9). -/
def Obligations.TranslateAndSieve : Prop :=
  ∀ (s s0 : State) (a : BitVec 5) (u : Token), Ready s s0 → Offered s0 [portAs 0 a] 1 →
    present s0 [portAs 0 a] 1 (portAs 0 a) = [u] →
    (∀ (k : BitVec 2) (f : BitVec 1) (r : Except XFail XOk) (q : State),
      xlateXl s0 (if k = 0#2 then .read else if k = 1#2 then .write else .atomic) (u.data.getLsbD 67) (u.data.setWidth 64) = (r, q) →
      (∀ x, r = .ok x → ∃ t v, exec (.xlate a k f) s = .next t ∧ SameMem s t ∧ Took s0 t [portAs 0 a] 1 ∧ (el t).out = [v] ∧
        v.ty = u.ty ∧ v.seq = u.seq ∧ v.gend = u.gend ∧ v.band = u.band ∧
        v.data.toNat = (u.data.toNat / 2 ^ 96 % 2 ^ 96 * 2 ^ 96 + u.data.toNat / 2 ^ 67 % 2 * 2 ^ 67 + x.tsz * 2 ^ 65 +
          2 ^ 64 + x.pa) % 2 ^ 512) ∧
      (∀ c d, r = .error (.cause c d) →
        (f = 1#1 → ∃ t, exec (.xlate a k f) s = .next t ∧ SameMem s t ∧ Took s0 t [portAs 0 a] 1 ∧
          (el t).out = [{ ty := tyErr, seq := u.seq, gend := u.gend
                          data := BitVec.ofNat 512 ((errData s.cur s.curElem 6).toNat + c.toNat * 2 ^ 24 +
                            u.data.toNat % 2 ^ 64 * 2 ^ 64) }]) ∧
        (f = 0#1 → ∃ t, exec (.xlate a k f) s = .next t ∧ SameMem s t ∧ (el t).frozen = true ∧
          field (el t).efr 55 48 = c.toNat ∧ (el t).efv = u.data.setWidth 64))) ∧
    (∀ (f z : BitVec 3) (n : BitVec 1) (g : SieveFmt), g = sieveFmt f z → (wk s0).count + g.lanes ≤ sieveMax →
      (wk s0).keys.length < g.entries →
      ∃ t l, l = (wk s0).keys ++ keptOf g (decide (n = 1#1)) (wk s0).count u.data.toNat ∧
        exec (.sieve a f z n) s = .next t ∧ OnlyElement s t ∧ Took s0 t [portAs 0 a] 1 ∧
        (el t).out = entryTokens g (wk s0).seq l ∧ (wk t).keys = l.drop (l.length / g.entries * g.entries) ∧
        (wk t).count = (wk s0).count + g.lanes) ∧
    (∀ (f z : BitVec 3) (n : BitVec 1) (g : SieveFmt) (es : List (Nat × Nat)), g = sieveFmt f z → 1 ≤ (slot s0 0).toNat →
      (slot s0 0).toNat < 2 ^ 24 →
      es = (splitLanes g.entryBits g.entries u.data.toNat).filterMap g.unpack → es.Pairwise (fun x y => x.1 < y.1) →
      (∀ e ∈ es, e.1 < (slot s0 0).toNat ∧ e.1 / g.lanes = (wk s0).count ∧ (wk s0).last.all (fun l => decide (l < e.1)) = true) →
      ∃ t, exec (.unsieve a f z n) s = .next t ∧ OnlyElement s t ∧ Took s0 t [portAs 0 a] 1 ∧ (el t).out = [] ∧
        (wk t).keys = (wk s0).keys ++ es ∧ (wk t).count = (wk s0).count) ∧
    (∀ (f z : BitVec 3) (n : BitVec 1) (g : SieveFmt) (e : Nat × Nat), g = sieveFmt f z → (slot s0 0).toNat < 2 ^ 24 →
      (splitLanes g.entryBits g.entries u.data.toNat).filterMap g.unpack = [e] → e.1 < (slot s0 0).toNat →
      e.1 / g.lanes = (wk s0).count + 1 → (wk s0).last.all (fun l => decide (l < e.1)) = true →
      (∀ k ∈ (wk s0).keys, k.1 < g.lanes * ((wk s0).count + 1)) →
      ∃ t, exec (.unsieve a f z n) s = .next t ∧ OnlyElement s t ∧ Took s0 t [portAs 0 a] 1 ∧
        (el t).out = [{ ty := tyData, gend := false, seq := BitVec.ofNat 12 (wk s0).seq
                        data := BitVec.ofNat 512 (((wk s0).keys.map fun k =>
                          k.2 * 2 ^ (g.w * (k.1 - g.lanes * (wk s0).count))).foldl (· + ·) 0) }] ∧
        (wk t).keys = [e] ∧ (wk t).count = (wk s0).count + 1)

/-! ## Flow elements and routes (09_core_instructions_stream.md, 07_core.md) -/

namespace Sys2Proof.Claims

/-- A port that holds nothing, with a token at the head of its FIFO that is neither an end nor an ERR and no flit of a value
group: DATA, SCALE or CTOK. -/
abbrev Heads (s : State) (p : Port) (t : Token) : Prop :=
  heldAt s p = none ∧ (portFifo s p).q.head? = some t ∧ (t.ty = tyData ∨ t.ty = tyScale ∨ t.ty = tyCtok)

/-- A port whose FIFO is empty, or has at its head a token of a flow type. -/
abbrev Quiet (s : State) (p : Port) : Prop :=
  ∀ t ∈ (portFifo s p).q.head?, t.ty = tyData ∨ t.ty = tyScale ∨ t.ty = tyCtok

/-- A flow element that stands between value groups with nothing to discard. -/
abbrev Between (s : State) : Prop := (wk s).dropGrp = false ∧ (wk s).discard = false ∧ (wk s).grp.active = false

/-- A firing of a flow element: it alone changes, the ports given lose one token, and it emits `out`. -/
def Passed (s s0 t : State) (ps : List Port) (out : List Token) : Prop :=
  OnlyElement s t ∧ Took s0 t ps 1 ∧ (el t).out = out

end Sys2Proof.Claims

/-- R222 to R225, R228: GATE passes a token while it is open, closes after the count that opened it, and opens at a CTOK or,
with CW = 1, once its counter has reached the target; CARRY passes A with its loop tag and loops, and from then on passes B
where C asks it and the tag is its own; STEER passes A where bit 0 of B is its sense; MERGE takes A or B as bit 0 of C says; DUP
emits n copies; EOSGEN passes, and after the count holds an EOS; TAGOP sets or clears the tag, or makes DATA a CTOK. -/
def Sys2Proof.Claims.FlowWordsRule : Prop :=
  ∀ (s s0 : State) (a b c : BitVec 5) (u v : Token), Ready s s0 → Between s0 → Heads s0 (portAs 0 a) u →
    ((wk s0).isOpen = true → ((portFifo s0 (portAs 1 b)).q = [] ∨ ∃ k, (portFifo s0 (portAs 1 b)).q.head? = some k ∧ k.ty = tyCtok) →
      ∃ t, exec (.gateCtok a b) s = .next t ∧ Passed s s0 t [portAs 0 a] [u] ∧
        (∀ n, (wk s0).openTo = some n → u.ty = tyData →
          if n ≤ 1 then (wk t).isOpen = false else (wk t).isOpen = true ∧ (wk t).openTo = some (n - 1)) ∧
        ((wk s0).openTo = none → (wk t).isOpen = true ∧ (wk t).openTo = none)) ∧
    ((wk s0).isOpen = false → Heads s0 (portAs 1 b) v → v.ty = tyCtok → (portAs 0 a).k ≠ (portAs 1 b).k →
      ∃ t, exec (.gateCtok a b) s = .next t ∧ Passed s s0 t [portAs 1 b] [] ∧ (wk t).isOpen = true ∧
        (wk t).openTo = (if v.data.toNat % 2 ^ 32 = 0 then none else some (v.data.toNat % 2 ^ 32))) ∧
    ((wk s0).isOpen = true → ∃ t, exec (.gateCounter a) s = .next t ∧ Passed s s0 t [portAs 0 a] [u]) ∧
    (∀ (y : XOk) (s1 : State), (wk s0).isOpen = false → (slot s0 0).toNat % 8 = 0 →
      translate s0 (elemRequester s0) .read (slot s0 0) = (.ok y, s1) → isRegion y.pa = false →
      poisonedIn s.mem y.pa 8 = none →
      (((wk s0).target.getD (slot s0 1)).toNat ≤ rdNum s.mem y.pa 8 →
        ∃ t, exec (.gateCounter a) s = .next t ∧ SameMem s t ∧ t.fifos = s0.fifos ∧ (el t).out = [] ∧
          (wk t).isOpen = true ∧ (wk t).target = some ((wk s0).target.getD (slot s0 1))) ∧
      (rdNum s.mem y.pa 8 < ((wk s0).target.getD (slot s0 1)).toNat →
        ∃ t, exec (.gateCounter a) s = .next t ∧ SameMem s t ∧ t.fifos = s.fifos ∧ (el t).out = [] ∧ (wk t).isOpen = false)) ∧
    ((wk s0).expectB = none → (wk s0).expectC = none → (slot s0 0).toNat < 32 → Quiet s0 (portAs 1 b) → Quiet s0 (portAs 2 c) →
      ((wk s0).looping = false →
        ∃ t, exec (.carry a b c) s = .next t ∧ Passed s s0 t [portAs 0 a] [{ u with ltag := (slot s0 0).setWidth 5 }] ∧
          (wk t).looping = true) ∧
      (∀ k, (wk s0).looping = true → Heads s0 (portAs 1 b) v → Heads s0 (portAs 2 c) k → (portAs 1 b).k ≠ (portAs 2 c).k →
        ∃ t, exec (.carry a b c) s = .next t ∧ (wk t).looping = k.data.getLsbD 0 ∧
          Passed s s0 t [portAs 1 b, portAs 2 c]
            (if k.data.getLsbD 0 = false then []
             else if v.ltag = (slot s0 0).setWidth 5 then [v]
             else [{ ty := tyErr, data := errData s.cur s.curElem 1, ltag := (slot s0 0).setWidth 5 }]))) ∧
    (∀ z : BitVec 1, Heads s0 (portAs 1 b) v → (portAs 0 a).k ≠ (portAs 1 b).k →
      ∃ t, exec (.steer a b z) s = .next t ∧
        Passed s s0 t [portAs 0 a, portAs 1 b] (if v.data.getLsbD 0 = (z == 1#1) then [u] else [])) ∧
    (∀ k, Heads s0 (portAs 1 b) v → Heads s0 (portAs 2 c) k →
      [(portAs 0 a).k, (portAs 1 b).k, (portAs 2 c).k].Nodup →
      ∃ t, exec (.merge a b c) s = .next t ∧
        Passed s s0 t [if k.data.getLsbD 0 then portAs 1 b else portAs 0 a, portAs 2 c]
          [if k.data.getLsbD 0 then v else u]) ∧
    (1 ≤ (slot s0 0).toNat → (slot s0 0).toNat < 65536 → (wk s0).got = [] →
      ∃ t, exec (.dup a) s = .next t ∧ Passed s s0 t [portAs 0 a] (List.replicate (slot s0 0).toNat u)) ∧
    (∀ (g : BitVec 1) (n r : Nat), (wk s0).heldEos = none → (slot s0 0).toNat = n + 2 ^ 24 * r → 1 ≤ n → n < 2 ^ 24 → r ≤ 2 →
      ∃ t, exec (.eosgen a g) s = .next t ∧ Passed s s0 t [portAs 0 a] [u] ∧
        (u.ty = tyData → (u.gend = true ∨ g = 0#1) →
          if n ≤ (wk s0).count + 1 then (wk t).heldEos = some (BitVec.ofNat 2 r) ∧ (wk t).count = 0
          else (wk t).heldEos = none ∧ (wk t).count = (wk s0).count + 1)) ∧
    ((slot s0 0).toNat < 32 → ∃ t, exec (.tagopSet a) s = .next t ∧
      Passed s s0 t [portAs 0 a] [{ u with ltag := (slot s0 0).setWidth 5 }]) ∧
    (∃ t, exec (.tagopCtok a) s = .next t ∧
      Passed s s0 t [portAs 0 a] [if u.ty = tyData then { u with ty := tyCtok, band := 0#16 } else u]) ∧
    (∃ t, exec (.tagopClear a) s = .next t ∧ Passed s s0 t [portAs 0 a] [{ u with ltag := 0#5 }])

/-- R226, R227, R372: SINK consumes its tokens, and with EGR writes a DATA token's 64 bytes at the endpoint's egress offset and
moves it on; EMIT emits the value of STRM.TOK, the next value of its IOTA sequence, or the next token that the host has queued,
numbered by its place in the stream and with gend. -/
def Sys2Proof.Claims.SinkAndEmitRule : Prop :=
  ∀ (s s0 : State),
    (∀ (a : BitVec 5) (e : BitVec 1) (u : Token), Starts s s0 → Heads s0 (portAs 0 a) u →
      ((e = 0#1 ∨ u.ty ≠ tyData) → ∃ t, exec (.sink a e) s = .next t ∧ Passed s s0 t [portAs 0 a] []) ∧
      (∀ k : Nat, e = 1#1 → u.ty = tyData → (slot s0 0).toNat = k → k < 32 → (endpointAt s k).bound = true →
        (endpointAt s k).job = ((elemLaunch s).map (·.job)).getD 0 → (endpointAt s k).frozen = false →
        (endpointAt s k).egrcnt + 64 ≤ (endpointAt s k).extent →
        ∃ t, exec (.sink a e) s = .next t ∧ SameMem s t ∧ Took s0 t [portAs 0 a] 1 ∧ (el t).out = [] ∧
          endpointAt t k = { endpointAt s k with egrcnt := (endpointAt s k).egrcnt + 64 } ∧
          t.hostMem = wrHost s.hostMem ((endpointAt s k).egress + (endpointAt s k).egrcnt) (toBytes 64 u.data.toNat))) ∧
    (∀ (w : Word) (str x : Option Stream) (l : List Command), Ready s s0 → (el s0).cmds = .tok w none str :: l →
      x = str.or (el s0).stream → (∀ y, (el s0).stream = some y → y.tagDue = false) →
      ∃ t, exec .emitTok s = .next t ∧ OnlyElement s t ∧ (el t).cmds = l ∧ (∀ y, x = some y → Emitted t y) ∧
        (el t).out = [{ ty := tyData, data := w.setWidth 512, gend := true
                        seq := BitVec.ofNat 12 ((x.map (·.emitted)).getD 0) }]) ∧
    (∀ (x : Stream) (s1 : State), Ready s s0 → (el s0).stream = some x → s1 = streaming s0 x → x.emitted < x.count →
      (x.started = true → x.tagDue = false) →
      ∃ t, exec .emitIota s = .next t ∧ OnlyElement s t ∧ Emitted t x ∧
        (el t).out = [{ ty := tyData, gend := true, seq := BitVec.ofNat 12 x.emitted
                        data := (streamArg s1 0 + BitVec.ofNat 64 x.emitted * streamArg s1 1).setWidth 512 }]) ∧
    (∀ (x : Stream) (k : Nat) (u : Token) (l : List Token), Ready s s0 → (el s0).stream = some x → x.started = true →
      x.tagDue = false → (x.count = 0 ∨ x.emitted < x.count) → (streamArg s0 0).toNat = k → k < 32 →
      (endpointAt s k).bound = true → (endpointAt s k).job = ((elemLaunch s).map (·.job)).getD 0 →
      (endpointAt s k).isOpen = true → (endpointAt s k).ingress = u :: l → u.ty ≠ tyEos →
      ∃ t, exec .emitIng s = .next t ∧ SameMem s t ∧ Emitted t x ∧ (endpointAt t k).ingress = l ∧
        (el t).out = [{ ty := tyData, data := u.data, gend := true, seq := BitVec.ofNat 12 x.emitted }])

namespace Sys2Proof.Claims

/-- A route's word of a mode, its outputs, and whether it is the first of its fan-out (R229). -/
def crossForm (s : State) (i : Instr) : Option (BitVec 2 × Nat × List Nat) :=
  match i with
  | .routePass o n c => some (c, n.toNat, [o.toNat])
  | .routeSeam o n c => some (c, n.toNat, [o.toNat])
  | .routeFanout o n c => if (fanOuts s s.cur n.toNat).head? = some o.toNat then some (c, n.toNat, fanOuts s s.cur n.toNat) else none
  | _ => none

/-- The token at a switch input is gone from where it stood. -/
def InputTaken (s t : State) (n : Nat) : Prop :=
  (n < 8 → (fifoAt t (meshNo s.cur n)).q = (fifoAt s (meshNo s.cur n)).q.drop 1) ∧
  (∀ e, 8 ≤ n → inElem s s.cur (n - 8) = some e → (elemAt t s.cur e).out = (elemAt s s.cur e).out.drop 1)

end Sys2Proof.Claims

/-- R157 to R160, R229, R230: a pass or seam route, and the first word of a fan-out, moves the token at its input to every FIFO
that its outputs reach once each of them has credit, taking one credit of each; without credit nothing moves. A hold route keeps
the first data token that it passes, and presents it again at every credit while no other token ends the hold. The constructors
of which it says where they complete: routePass, routeHold, routeFanout, routeSeam. It rests on the model's own choices too
(assumption log 9, 59). -/
def Obligations.RouteWords : Prop :=
  ∀ (s : State) (u : Token) (r n : Nat) (xl : Bool),
    (∀ (i : Instr) (c : BitVec 2) (outs fs : List Nat), crossForm s i = some (c, n, outs) → ownContext s c = true →
      (∀ o ∈ outs, canRoute s s.cur o = true) → inputHead s s.cur n = some (u, r, xl) →
      fs = outs.flatMap (outFifos s s.cur) → fs.Nodup → fs ≠ [] → (n < 8 → meshNo s.cur n ∉ fs) →
      ((∀ f ∈ fs, 0 < (fifoAt s f).credit ∧ (fifoAt s f).inject = []) →
        ∃ t, exec i s = .next t ∧ SameMem s t ∧ InputTaken s t n ∧
          ∀ o ∈ outs, ∀ f ∈ outFifos s s.cur o,
            fifoAt t f = pushFifo (fifoAt s f) { u with viaXl := xl && decide (8 ≤ o) }) ∧
      ((∃ f ∈ fs, (fifoAt s f).credit = 0) → exec i s = .next s)) ∧
    (∀ (o m : BitVec 4) (c : BitVec 2) (f : Nat), n = m.toNat → ownContext s c = true → canRoute s s.cur o.toNat = true →
      outFifos s s.cur o.toNat = [f] → 0 < (fifoAt s f).credit → (fifoAt s f).inject = [] →
      (inputHead s s.cur n = some (u, r, xl) → u.ty = tyData → (routeAt s s.cur o.toNat).held = [] →
        (routeAt s s.cur o.toNat).full = false → (routeAt s s.cur o.toNat).pos = 0 → (n < 8 → meshNo s.cur n ≠ f) →
        ∃ t, exec (.routeHold o m c) s = .next t ∧ SameMem s t ∧ InputTaken s t n ∧
          fifoAt t f = pushFifo (fifoAt s f) { u with viaXl := xl && decide (8 ≤ o.toNat) } ∧
          (routeAt t s.cur o.toNat).held = [{ u with viaXl := xl && decide (8 ≤ o.toNat) }] ∧
          (routeAt t s.cur o.toNat).full = true) ∧
      (inputHead s s.cur n = none → (routeAt s s.cur o.toNat).held = [u] → (routeAt s s.cur o.toNat).full = true →
        (routeAt s s.cur o.toNat).pos = 0 →
        ∃ t, exec (.routeHold o m c) s = .next t ∧ SameMem s t ∧
          fifoAt t f = pushFifo (fifoAt s f) u ∧ (routeAt t s.cur o.toNat).held = [u] ∧
          (routeAt t s.cur o.toNat).full = true))

/-! ## What happens by itself (02_unit.md, 04_unit_instructions_memory.md, 08_core_memory_faults.md) -/

namespace Sys2Proof.Claims

/-- DETAIL of cause 0x09 by the object waited on, as R54 lists it. -/
def timeoutDetail (k : WaitKind) : BitVec 8 :=
  match k with
  | .tagWord => 1#8
  | .counter => 2#8
  | .queue => 3#8
  | .barrier => 4#8
  | .launchReserve => 5#8
  | .drain => 6#8
  | .cfgld => 7#8
  | .exchange => 9#8
  | .roundClose => 10#8
  | .promise => 11#8
  | .sleep => 0#8

/-- A unit faulted by a double trap. -/
def doubled (x : UnitRegs) : UnitRegs := { x with st := .faulted, before := .ready, selfFault := true, wait := none }

/-- Barriers without those who wait at them. -/
def bare (l : Map Barrier) : Map Barrier := l.map fun b => (b.1, { b.2 with waiters := [] })

end Sys2Proof.Claims

/-- R49, R52: a pending boundary trap is taken by a ready unit with TD = 0, TRAPPC the unissued C-word, and by no other; a
wait of WAITLIM cycles raises cause 0x09 with the DETAIL of its object, and disturbs nothing but the unit and its places on
waiter lists, while a shorter wait goes on. -/
def Sys2Proof.Claims.BoundaryTrapsAndTimeoutsRule : Prop :=
  ∀ (s : State) (u : Nat), unitSaving s u = false →
    (∀ b l, (unitAt s u).pend = b :: l →
      ((unitAt s u).st = .ready → statusTD (unitAt s u) = false →
        exec (.boundaryTrap u) s = .next (setUnit s u (framed { unitAt s u with pend := l } b.cause b.detail b.value))) ∧
      (statusTD (unitAt s u) = true → exec (.boundaryTrap u) s = .next s)) ∧
    (∀ w, (unitAt s u).st = .waiting → (unitAt s u).wait = some w → w.kind ≠ .sleep →
      ((unitAt s u).csr.waitlim.toNat ≤ w.count →
        ∃ t, exec (.waitTimeout u) s = .next t ∧
          (statusTD (unitAt s u) = false → unitAt t u = framed (unitAt s u) 9#8 (timeoutDetail w.kind) w.value ∧
            t.pages = s.pages) ∧
          (statusTD (unitAt s u) = true → unitAt t u = doubled (unitAt s u)) ∧
          t = { s with units := t.units, twaiters := t.twaiters, qwaiters := t.qwaiters, barriers := t.barriers,
                       pages := t.pages } ∧
          (∀ v, v ≠ u → unitAt t v = unitAt s v) ∧
          (∀ x ∈ t.twaiters, x ∈ s.twaiters ∧ (x.elem = false → x.who ≠ u)) ∧
          (∀ x ∈ t.qwaiters, x ∈ s.qwaiters ∧ (x.taken = false → x.unit ≠ u)) ∧
          bare t.barriers = bare s.barriers ∧ ∀ b ∈ t.barriers, ∀ x ∈ b.2.waiters, x.unit ≠ u) ∧
      (w.count < (unitAt s u).csr.waitlim.toNat → exec (.waitTimeout u) s = .next s))

/-- R101, R121: a sleep ends once its time has come or a watch has fired, its promised copies joined where all are complete;
a watch whose counter is seen at or above its target sets its predicate, is disarmed, and ends a sleep, and one whose counter
is below leaves everything. -/
def Sys2Proof.Claims.WakesAndWatchesRule : Prop :=
  ∀ (s : State) (u : Nat), unitSaving s u = false →
    (∀ w t, (unitAt s u).st = .waiting → (unitAt s u).wait = some w → w.kind = .sleep →
      (w.value.toNat ≤ tbOf s (dieOf u) ∨ w.aux = 1) →
      (∀ e ∈ s.engines, mine { s with cur := u } e.2 = true →
        e.2.promise.any (fun p => decide (p ≤ tbOf s (dieOf u))) = true → e.2.complete = true) →
      t = joined { s with cur := u } (fun e => e.promise.any fun p => decide (p ≤ tbOf s (dieOf u))) →
      exec (.sleepuWake u) s = .next (nextWord t (me t))) ∧
    (∀ (n : Nat) (w : Watch) (x : XOk) (s1 : State), 1 ≤ n → n < 8 → (unitAt s u).watches.toList.getD n none = some w →
      (unitAt s u).st ≠ .free → (unitAt s u).st ≠ .retired → (unitAt s u).st ≠ .frozen →
      xlateD { s with cur := u } (requester { s with cur := u } u) .read w.addr = some (x, s1) →
      poisonedIn s1.mem x.pa 8 = none →
      (w.target.toNat ≤ readAt s1 x.pa 8 →
        ∃ t, exec (.watchFire u n) s = .next t ∧ SameMem s t ∧ predNum (unitAt t u) (BitVec.ofNat 3 n) = true ∧
          (unitAt t u).watches.toList.getD n none = none ∧ (∀ v, v ≠ u → unitAt t v = unitAt s v) ∧
          (unitAt t u).g = (unitAt s u).g ∧ (unitAt t u).pc = (unitAt s u).pc ∧
          (∀ z, (unitAt s u).wait = some z → z.kind = .sleep → (unitAt t u).wait = some { z with aux := 1 })) ∧
      (readAt s1 x.pa 8 < w.target.toNat → exec (.watchFire u n) s = .next { s with cur := u }))

/-- R103, R170: a draining unit whose forks are complete and whose sinks have each passed an EOS of rank 2 or higher in a
committed round joins its forks and retires, and one with an incomplete fork does not; a scrub corrects the word that it
visits, and an uncorrectable error poisons a scratchpad word, and neither changes a byte. -/
def Sys2Proof.Claims.RetirementAndErrorsRule : Prop :=
  ∀ (s : State) (u : Nat),
    (unitSaving s u = false → (unitAt s u).st = .draining →
      (forksComplete { s with cur := u } →
        (∀ e ∈ activeElems s [u], eSink e.2.2 = true → ∃ p ∈ (elemAt s u e.2.1).passed, 2 ≤ p.1 ∧ p.2 = none) →
        ∃ t, t = { joinedAll { s with cur := u } with cur := s.cur } ∧
          exec (.unitRetire u) s =
            .next (setUnit t u { unitAt t u with st := .retired, wait := none, pend := [] })) ∧
      (¬ forksComplete { s with cur := u } → exec (.unitRetire u) s = .next s)) ∧
    (∀ t a, a = spadAddr t (8 * (s.tb / 32 % 32768)) →
      ∃ s', exec (.scrub t) s = .next s' ∧ SameMem s s' ∧ a ∉ s'.mem.single ∧ s' = { s with mem := s'.mem } ∧
        (∀ b ∈ s.mem.single, b % 8 = 0 → a % 8 = 0 → b ≠ a → b ∈ s'.mem.single)) ∧
    (∀ a, isSpad a = true → mapped a = true →
      ∃ s', exec (.uncorrectableError a) s = .next s' ∧ SameMem s s' ∧ wordOf a ∈ s'.mem.poisoned ∧
        s' = { s with mem := s'.mem })

/-! ## What elements, channels and rounds do besides firings (07_core.md, 12_cluster.md, 23_fabric.md) -/

namespace Sys2Proof.Claims

/-- The operations that gather nothing from one firing to the next: the vector operations but VCVT and VMAC, and SINK without
an endpoint. -/
abbrev gathersNothing (w : BitVec 32) : Prop :=
  (0x20 ≤ eopOf w ∧ eopOf w ≤ 0x34 ∧ eopOf w ≠ 0x2C ∧ eopOf w ≠ 0x33) ∨ (eopOf w = 0x7F ∧ w.getLsbD 0 = false)

/-- An element of such an operation that can act and holds credit towards every reader, its output read by a route where it
drives one. -/
def Acting (s s0 : State) (w : BitVec 32) : Prop :=
  canAct s s.cur s.curElem = true ∧ hasCredit s s.cur s.curElem = true ∧ ew s = w ∧ gathersNothing w ∧
  enterRound (withCommands s) = .ok s0 ∧ (wk s0).discard = false ∧ (eDrives w = true → routedOut (bankAt s s.cur) s.curElem = true)

/-- Every port presents an EOS, the highest of rank r (R164): at its FIFO, or by a count-7 token above an empty FIFO. -/
abbrev EosHeads (s : State) (ps : List Port) (r : BitVec 2) : Prop :=
  (∃ p ∈ owners ps, heldAt s p = none) ∧
  (∀ p ∈ owners ps, (∃ t ∈ (portFifo s p).q.head?, t.ty = tyEos ∧ t.rank.toNat ≤ r.toNat) ∨
    (holdsTill s p = true ∧ (portFifo s p).q = [])) ∧
  ∃ p ∈ owners ps, ∃ t ∈ (portFifo s p).q.head?, t.rank = r

/-- Every port presents TAG n, or an EOS of rank 1 or higher, or a count-7 token above an empty FIFO, and some port TAG n
(R254). -/
abbrev TagHeads (s : State) (ps : List Port) (n : Nat) : Prop :=
  (∃ p ∈ owners ps, heldAt s p = none) ∧
  (∀ p ∈ owners ps, (∃ t, (portFifo s p).q.head? = some t ∧
      ((t.ty = tyTag ∧ t.data.toNat % 2 ^ 32 = n) ∨ (t.ty = tyEos ∧ 1 ≤ t.rank.toNat))) ∨
    (holdsTill s p = true ∧ (portFifo s p).q = [])) ∧
  ∃ p ∈ owners ps, heldAt s p = none ∧ ∃ t ∈ (portFifo s p).q.head?, t.ty = tyTag

/-- Every port presents MRK, and some port has one at its FIFO (R398, R399). -/
abbrev MrkHeads (s : State) (ps : List Port) : Prop :=
  (∀ p ∈ owners ps, (∃ t ∈ (portFifo s p).q.head?, t.ty = tyMrk) ∨
    ((portFifo s p).q = [] ∧ ((portFifo s p).final = true ∨ holdsTill s p = true))) ∧
  ∃ p ∈ owners ps, ∃ t ∈ (portFifo s p).q.head?, t.ty = tyMrk

/-- The heads of the FIFOs of ports that satisfy a condition are consumed, and no other FIFO changes. -/
def Popped (s t : State) (ps : List Port) (c : Token → Bool) : Prop :=
  (∀ p ∈ owners ps, portFifo t p = if (portFifo s p).q.head?.any c then popFifo (portFifo s p) else portFifo s p) ∧
  ∀ f, (∀ p ∈ owners ps, f ≠ fifoNo s.cur s.curElem p.k) → fifoAt t f = fifoAt s f

end Sys2Proof.Claims

/-- R164, R254, R399: the EOS step forwards one EOS of the highest rank presented, consumes every EOS and releases sticky tokens
as R164 says, and a sink counts it; the round step consumes the TAGs, forwards one, and leaves the element's state in the
shadow of the round that opens; the save consumes the MRKs, forwards one, and the element halts. -/
def Sys2Proof.Claims.ElementStepsRule : Prop :=
  ∀ (s s0 : State) (w : BitVec 32) (ps : List Port), ps = portsOf w →
    (∀ r : BitVec 2, Acting s s0 w → EosHeads s0 ps r →
      ∃ t, exec (.eosStep s.cur s.curElem) s = .next t ∧ OnlyElement s t ∧ Popped s0 t ps (fun k => decide (k.ty = tyEos)) ∧
        (el t).out = (if eDrives w then [{ ty := tyEos, rank := r }] else []) ∧
        (el t).passed = (el s0).passed ++ (if eSink w then [(r.toNat, some (el s0).round)] else []) ∧
        (el t).fin = decide (1 ≤ r.toNat) ∧ (el t).ended = decide (2 ≤ r.toNat) ∧
        ∀ p ∈ owners ps, ∀ h, heldAt s0 p = some h → heldAt t p =
          (if h.till = true ∧ (portFifo s0 p).q.head?.all (fun k => decide (k.rank = 0#2)) = true then some h else none)) ∧
    (∀ n : Nat, n < 2 ^ 32 → Acting s s0 w → TagHeads s0 ps n → n ≤ (seriesAt s0 (seriesOf s0 s0.cur)).next →
      ∃ t, exec (.roundStep s.cur s.curElem) s = .next t ∧ OnlyElement s t ∧
        Popped s0 t ps (fun k => decide (k.ty = tyTag)) ∧
        (el t).out = (if eDrives w then [{ ty := tyTag, data := BitVec.ofNat 512 n }] else []) ∧
        (el t).round = n + 1 ∧ (wk t).held = (wk s0).held ∧
        ∃ h ∈ (el t).shadows, h.round = n + 1 ∧ h.work.held = (wk s0).held ∧ h.work.args = (wk s0).args ∧
          h.stream = (el s0).stream) ∧
    (canAct s s.cur s.curElem = true → ew s = w → gathersNothing w → MrkHeads s ps →
      (eDrives w = true → routedOut (bankAt s s.cur) s.curElem = true) →
      ∃ t, exec (.elementSave s.cur s.curElem) s = .next t ∧ OnlyElement s t ∧
        Popped s t ps (fun k => decide (k.ty = tyMrk)) ∧ (el t).saved = true ∧ (wk t).held = (wk s).held ∧
        (el t).out = (if eDrives w then [{ ty := tyMrk }] else []))

/-- R109, R252, R164: a source that runs a stream emits TAG n once ROUNDSZ tokens have left since the last, and its EOS of the
stream's rank behind its last token, with which the stream ends. -/
def Sys2Proof.Claims.SourceEndsRule : Prop :=
  ∀ (s s0 : State) (x : Stream), Ready s s0 → ew s = encode .emitIota → (el s0).stream = some x → x.started = true →
    (wk s0).discard = false → (wk s0).looping = false →
    (x.emitted < x.count → 1 ≤ x.roundsz → x.roundsz ≤ x.sinceTag → x.tag ≤ (seriesAt s0 (seriesOf s0 s0.cur)).next →
      savingSlot s s.cur = false →
      ∃ t, exec (.roundStep s.cur s.curElem) s = .next t ∧ OnlyElement s t ∧ t.fifos = s.fifos ∧
        (el t).out = [{ ty := tyTag, data := BitVec.ofNat 512 (x.tag % 2 ^ 32) }] ∧
        (el t).stream = some { x with tag := x.tag + 1, sinceTag := 0 } ∧ (el t).round = x.tag + 1) ∧
    (x.count ≤ x.emitted →
      ∃ t, exec (.eosStep s.cur s.curElem) s = .next t ∧ OnlyElement s t ∧ t.fifos = s.fifos ∧
        (el t).out = [{ ty := tyEos, rank := x.rank }] ∧ (el t).stream = none)

namespace Sys2Proof.Claims

/-- A token as a kill leaves it: a flit of its group carries EZ in its lanes (R166). -/
def killedToken (k : KillMsg) (m : BitVec 128) (t : Token) : Token :=
  if t.ty = tyDigit ∧ t.seq = k.seq then { t with data := maskFlit t.data m } else t

/-- What a kill leaves of the flits that wait in an element's output: in an arithmetic unit the first flit of the group with EZ
in every member lane is its last (R145, R166). -/
def killedOut (k : KillMsg) (m : BitVec 128) (unit : Prop) [Decidable unit] (l : List Token) : List Token :=
  if unit then endKilled k.seq (l.map (killedToken k m)) else l.map (killedToken k m)

end Sys2Proof.Claims

/-- R145, R160, R166, R167, R173, R408: what a FIFO owes is credited to its sender; a saved token enters its FIFO as one of the
sender's own; a kill that every consumer of a switch input has sent goes on to the mesh link before it, or makes EZ of the named
lanes of the flits that wait at the element before it, which ends a group that has no other lane left; one that some consumer has
not sent goes no further; and at a frozen element it stays on its way. -/
def Sys2Proof.Claims.ChannelsRule : Prop :=
  ∀ (s : State),
    (∀ f, exec (.creditReturn f) s = .next (if (fifoAt s f).owed = 0 then s else
      setFifo s f { fifoAt s f with credit := (fifoAt s f).credit + (fifoAt s f).owed, owed := 0 })) ∧
    (∀ f t l, (fifoAt s f).inject = t :: l →
      (0 < (fifoAt s f).credit → ∃ s', exec (.savedTokenInject f) s = .next s' ∧
        s' = { s with fifos := s'.fifos, movers := s'.movers } ∧ (∀ g, g ≠ f → fifoAt s' g = fifoAt s g) ∧
        fifoAt s' f = { fifoAt s f with
          q := (fifoAt s f).q ++ [t], inject := l, credit := (fifoAt s f).credit - 1 }) ∧
      ((fifoAt s f).credit = 0 → exec (.savedTokenInject f) s = .next s)) ∧
    (∀ (k : KillMsg) (ks : List KillMsg) (v n : Nat) (m : BitVec 128), s.kills = k :: ks → feeders s k.fifo = [(v, n)] →
      m = killedInput s v n k.seq →
      (m = 0#128 → exec .kill s = .next { s with kills := ks }) ∧
      (m ≠ 0#128 → n < 8 → ∃ t, exec .kill s = .next t ∧ t = { s with kills := t.kills, fifos := t.fifos } ∧
        t.kills = ks ++ [{ fifo := meshNo v n, seq := k.seq, mask := m }] ∧
        (∀ g, g ≠ meshNo v n → fifoAt t g = fifoAt s g) ∧ (fifoAt t (meshNo v n)).q = (fifoAt s (meshNo v n)).q ∧
        killedAt t (meshNo v n) k.seq = killedAt s (meshNo v n) k.seq ||| m) ∧
      (∀ e, m ≠ 0#128 → 8 ≤ n → inElem s v (n - 8) = some e →
        ((elemAt s v e).frozen = true → exec .kill s = .next { s with kills := ks ++ [k] }) ∧
        ((elemAt s v e).frozen = false → ∃ t, exec .kill s = .next t ∧ SameMem s t ∧
          (elemAt t v e).out = killedOut k m (eopOf (ewordAt s v e) ≤ 0x12) (elemAt s v e).out)))

/-- R112, R113: an element that has passed its final EOS takes over its pending word: one CFG leaves it, ESR is reset, its
argument slots stay, and the new word runs; a route does so too, once every FIFO that it reaches has credit. -/
def Sys2Proof.Claims.TakeoversRule : Prop :=
  ∀ (s : State) (u : Nat) (p : Words), (bankAt s u).pending = some p →
    (∀ e, e < 32 → (bankAt s u).oldElems.contains e = true → (elemAt s u e).ended = true → (elemAt s u e).out = [] →
      eDrives (ewordAt s u e) = true → routedOut (bankAt s u) e = true →
      ∃ t, exec (.pendingTakeover u e) s = .next t ∧ SameMem s t ∧ t.fifos = s.fifos ∧
        ewordAt t u e = (mget p.ewords e).getD 0#32 ∧ (elemAt t u e).out = [{ ty := tyCfg }] ∧
        (elemAt t u e).esr = 0#64 ∧ (elemAt t u e).work.args = (elemAt s u e).work.args ∧
        (elemAt t u e).cmds = (elemAt s u e).cmds ∧ ∀ d, d ≠ e → ewordAt t u d = ewordAt s u d) ∧
    (∀ o fs, (bankAt s u).oldOuts.contains o = true → (routeAt s u o).ended = true → fs = outFifos s u o → fs ≠ [] →
      fs.Nodup → (∀ f ∈ fs, 0 < (fifoAt s f).credit ∧ (fifoAt s f).inject = []) →
      ∃ t, exec (.pendingTakeover u (32 + o)) s = .next t ∧ SameMem s t ∧
        (∀ f ∈ fs, fifoAt t f = pushFifo (fifoAt s f) { ty := tyCfg }) ∧ (∀ f, f ∉ fs → fifoAt t f = fifoAt s f) ∧
        (bankAt t u).words.swords.filter (fun w => decide ((fSo w).toNat = o)) =
          p.swords.filter (fun w => decide ((fSo w).toNat = o))) ∧
    (∀ e, e < 32 → (elemAt s u e).ended = false → exec (.pendingTakeover u e) s = .next s)

namespace Sys2Proof.Claims

/-- A byte after buffered stores, in their order (R300). -/
def byteAfter (l : List RoundStore) (a : Nat) (b : Byte) : Byte :=
  l.foldl (fun b y => if y.pa ≤ a ∧ a < y.pa + y.size then BitVec.ofNat 8 (y.value.toNat / 256 ^ (a - y.pa)) else b) b

end Sys2Proof.Claims

/-- R255, R300: the oldest round of a series, once closed, commits at one time: its leases reach it, its stores are all visible,
in wave order, with that time, and LASTC names it; where a line that it loaded has been stored to behind the version read, at a
time up to its own, no store is made and the round is voided; and a round that has not closed stays open. The constructors of
which it says where they complete: roundCommit. It rests on the model's own choices too (assumption log 67). -/
def Obligations.RoundCommits : Prop :=
  ∀ (s : State) (l k n : Nat) (x : Series) (r : Round), x = seriesAt s (4 * l + k) → n = x.next → r = x.round n →
    x.isOpen = true →
    (roundClosed s (4 * l + k) n = false → exec (.roundCommit l k) s = .next s) ∧
    (roundClosed s (4 * l + k) n = true → (∀ p ∈ s.series, ∀ q ∈ p.2.rounds, q.pinned = false) →
      (∀ y ∈ r.stores, isRegion y.pa = false) →
      ((∀ y ∈ r.loads, ∀ w ∈ (getLine s.mem y.1).stores, ¬ (y.2 < w ∧ w ≤ commitTime s.mem x.pts r)) →
        ∃ t, exec (.roundCommit l k) s = .next t ∧ (∀ a, rdByte t.mem a = byteAfter r.stores a (rdByte s.mem a)) ∧
          (∀ y ∈ r.stores, ∀ i ∈ linesOf y.pa y.size, (getLine t.mem i).wts = commitTime s.mem x.pts r) ∧
          (∀ y ∈ r.loads, commitTime s.mem x.pts r ≤ (getLine t.mem y.1).rts) ∧
          (seriesAt t (4 * l + k)).lastc = BitVec.ofNat 32 n ∧
          (seriesAt t (4 * l + k)).pts = commitTime s.mem x.pts r ∧
          ∀ u ∈ seriesSlots s (4 * l + k), ∀ e, e < 32 → ∀ h ∈ (elemAt t u e).shadows, n < h.round) ∧
      ((∃ y ∈ r.loads, ∃ w ∈ (getLine s.mem y.1).stores, y.2 < w ∧ w ≤ commitTime s.mem x.pts r) →
        ∃ t, exec (.roundCommit l k) s = .next t ∧ SameMem s t ∧ (seriesAt t (4 * l + k)).lastc = x.lastc ∧
          (∀ q ∈ (seriesAt t (4 * l + k)).rounds, q.stores = [] ∧ q.loads = []) ∧
          (seriesAt t (4 * l + k)).voids = min 65535 (x.voids + (openRounds s (4 * l + k)).length)))

namespace Sys2Proof.Claims

/-- A packet that no other of its job precedes among those at an arbiter. -/
def OldestOfJob (l : List Packet) (q : Packet) : Prop := l.find? (fun y => decide (y.job = q.job)) = some q

end Sys2Proof.Claims

/-- R328, R329, R86: of the oldest packets of each job an arbiter sends the one of least slack, ties by JOBID from behind the
one served last, on to the next arbiter of its path; a packet that leaves late for the first time is counted for its unit while
that is of its launch, which the end of the cycle adds to LATECNT up to 2^32 − 1, and with LPTE = 1 is a pending trap of cause
0x11 with its slack. The constructors of which it says where they complete: packetArbitrate. It rests on the model's own choices
too (assumption log 85). -/
def Obligations.PacketOrder : Prop :=
  ∀ (s : State) (a tb : Nat) (x : Arbiter) (l r : List Packet) (p : Packet), a < 65536 → tb = arbiterTb s a →
    mget s.arbiters a = some x → x.packets = l ++ p :: r →
    (∀ q ∈ l, q.job ≠ p.job) →
    (∀ q ∈ x.packets, q.job ≠ p.job → OldestOfJob x.packets q → slackOf p tb < slackOf q tb ∨
      (slackOf p tb = slackOf q tb ∧ rotation x.lastJob p.job < rotation x.lastJob q.job)) →
    ∃ t, exec (.packetArbitrate a) s = .next t ∧ t = { s with arbiters := t.arbiters, units := t.units } ∧
      (p.path.head? ≠ some a → mget t.arbiters a = some { packets := l ++ r, lastJob := p.job }) ∧
      (∀ b rest, p.path = b :: rest → b ≠ a → ((mget t.arbiters b).getD {}).packets = ((mget s.arbiters b).getD {}).packets ++
        [{ p with path := rest, late := p.late || decide (slackOf p tb < 0) }]) ∧
      ((0 ≤ slackOf p tb ∨ p.late = true) → t.units = s.units) ∧
      (∀ y : UnitRegs, y.csr.latecnt.toNat < 2 ^ 32 →
        (countBreaches y).csr.latecnt.toNat = min (y.csr.latecnt.toNat + y.newLate) (2 ^ 32 - 1)) ∧
      (∀ u y, slackOf p tb < 0 → p.late = false → p.unit = some u → mget s.units u = some y → y.launch = p.launch →
        unitAt t u = { y with
          newLate := y.newLate + 1
          pend := if statusLPTE y then y.pend ++ [⟨0x11#8, 0#8, BitVec.ofInt 64 (slackOf p tb)⟩] else y.pend })

/-! ## Engine operations (04_unit_instructions_memory.md, 18_die_instructions.md, 03_unit_instructions_compute.md) -/

namespace Sys2Proof.Claims

/-- Engine operation f, neither complete nor frozen. -/
abbrev Moving (s : State) (f : Nat) (e : Engine) : Prop := mget s.engines f = some e ∧ e.complete = false ∧ e.frozen = false

/-- Of the engine operations f alone has changed. -/
def EngineNow (s t : State) (f : Nat) (e : Engine) : Prop :=
  mget t.engines f = some e ∧ ∀ g, g ≠ f → mget t.engines g = mget s.engines g

/-- An access of an engine that translates to n bytes outside the region windows, unpoisoned and leased by no pinned round. -/
def Reaches (s : State) (e : Engine) (k : Access) (va : Word) (n : Nat) (x : XOk) : Prop :=
  (∃ s1, translate s (engineReq s e) k va = (.ok x, s1)) ∧ isRegion x.pa = false ∧ poisonedIn s.mem x.pa n = none ∧
  pinnedRange s none x.pa n = false

/-- The step by which an operation counts itself in its counter (R89, R116): 1 added, up to the greatest value, and the operation
complete. -/
def CountsAt (i : Instr) (s : State) (f : Nat) (e : Engine) (ctr : Word) : Prop :=
  (∀ x, Reaches s e .atomic ctr 8 x →
    ∃ t m, exec i s = .next t ∧ SameBytesBut s t x.pa 8 ∧
      rdNum t.mem x.pa 8 = min (rdNum s.mem x.pa 8 + 1) (2 ^ 64 - 1) ∧
      EngineNow s t f { e with pts := m, complete := true, counted := some x.pa })

/-- The same of an operation whose counter address 0 names none (R116, R119, R344): with no counter it is complete alone. -/
def Counts (i : Instr) (s : State) (f : Nat) (e : Engine) (ctr : Word) : Prop :=
  (ctr = 0#64 → exec i s = .next { s with engines := mset s.engines f { e with complete := true } }) ∧
  (ctr ≠ 0#64 → CountsAt i s f e ctr)

/-- A fault record put in its place at the page of a tile (R173, R175). -/
def Recorded (s t : State) (tile cause detail kind elem value : Nat) : Prop :=
  ∃ r, (pageAt t (pageOfTile tile)).records = insertRecord r (pageAt s (pageOfTile tile)).records ∧ numAt r 0 1 = cause ∧
    numAt r 1 1 = detail ∧ numAt r 2 1 = kind ∧ numAt r 7 1 = elem ∧ numAt r 8 8 = value

/-- The step of an operation whose access does not translate (R331): it freezes there, with a record of kind 2. -/
def FaultsAt (i : Instr) (s : State) (f : Nat) (e : Engine) (k : Access) (va : Word) : Prop :=
  ∀ c d s1, translate s (engineReq s e) k va = (.error (.cause c d), s1) →
    ∃ t, exec i s = .next t ∧ SameMem s t ∧ EngineNow s t f { e with frozen := true } ∧
      Recorded s t (tileOf e.unit) c.toNat d.toNat 2 24 va.toNat

/-- The step that writes the next word of the bytes an operation has in hand, and fills the tag of a scratchpad word where
`tags` (R116). -/
def PutsWord (i : Instr) (s : State) (f : Nat) (e : Engine) (tags : Bool) : Prop :=
  ∀ va bs x, e.put = some (va, bs) → 8 ≤ bs.length → va.toNat % 8 = 0 → Reaches s e .write va 8 x →
    (∀ w ∈ s.twaiters, w.pa ≠ wordOf x.pa) →
    ∃ t m, exec i s = .next t ∧ rdBytes t.mem x.pa 8 = bs.take 8 ∧ SameBytesBut s t x.pa 8 ∧
      (isSpad x.pa = true → isFull t.mem x.pa = (tags || isFull s.mem x.pa)) ∧
      EngineNow s t f { e with pts := m, put := if 8 < bs.length then some (va + 8#64, bs.drop 8) else none }

/-- A word merged with an incoming one by SENDR (R119). -/
def mergedWord (op : Nat) (a b : Word) : Word :=
  match op with
  | 0 => a + b
  | 1 => BitVec.ofNat 64 (fpAdd binary64 .rne a.toNat b.toNat).1
  | 2 => if a.sle b then a else b
  | 3 => if b.sle a then a else b
  | 4 => if a.ule b then a else b
  | 5 => if b.ule a then a else b
  | 6 => a &&& b
  | 7 => a ||| b
  | _ => a ^^^ b

end Sys2Proof.Claims

/-- R116, R331: a copy reads its source word by word in ascending address, writes each word where it belongs with the tag of a
scratchpad word set full, and behind its last word counts itself in its counter; an access that does not translate freezes it
with a record of kind 2. -/
def Sys2Proof.Claims.CopyStepsRule : Prop :=
  ∀ (s : State) (f src dst len : Nat) (ctr : Word) (e : Engine), Moving s f e → e.kind = .copy src dst len ctr →
    PutsWord (.copyComplete f) s f e true ∧
    (e.put = none → 8 * e.pos < len →
      FaultsAt (.copyComplete f) s f e .read (BitVec.ofNat 64 (src + 8 * e.pos)) ∧
      ∀ x, Reaches s e .read (BitVec.ofNat 64 (src + 8 * e.pos)) 8 x →
        ∃ t m, exec (.copyComplete f) s = .next t ∧ SameMem s t ∧
          EngineNow s t f { e with pts := m, pos := e.pos + 1
                                   put := some (BitVec.ofNat 64 (dst + 8 * e.pos), rdBytes s.mem x.pa 8) }) ∧
    (e.put = none → len ≤ 8 * e.pos → Counts (.copyComplete f) s f e ctr)

/-- R119: contribution 0 opens the episode of a range, the next contribution is admitted, and a later one waits; a word is merged
with the incoming word by the operation of k2; behind its last word the next contribution is awaited or, behind contribution
n − 1, the episode closes; a repeated contribution is refused with a record of cause 0x13; and each counts itself at its end. -/
def Sys2Proof.Claims.MergeStepsRule : Prop :=
  ∀ (s s1 : State) (f src dst len n c op : Nat) (ctr : Word) (e : Engine) (x : XOk) (ep : Option Episode), Moving s f e →
    e.kind = .merge src dst len ctr n c op → ep = s.episodes.find? (fun e => decide (e.dst = x.pa)) →
    (e.put.isSome = true → Counts (.sendrMerge f) s f e ctr) ∧
    (e.put = none → translate s (engineReq s e) .write (BitVec.ofNat 64 dst) = (.ok x, s1) →
      (e.admitted = false →
        (c = 0 ∧ ep = none ∨ (∃ y, ep = some y ∧ y.next = c ∧ y.busy = false ∧ y.len = len ∧ y.n = n) →
          ∃ t, exec (.sendrMerge f) s = .next t ∧ SameMem s t ∧ EngineNow s t f { e with admitted := true } ∧
            { dst := x.pa, len := len, n := n, next := c, busy := true } ∈ t.episodes) ∧
        (c ≠ 0 ∧ ep = none ∨ (∃ y, ep = some y ∧ y.next < c) → exec (.sendrMerge f) s = .next s) ∧
        ((∃ y, ep = some y ∧ c < y.next) →
          ∃ t, exec (.sendrMerge f) s = .next t ∧ (t.episodes = s.episodes) ∧
            EngineNow s t f { e with put := some (BitVec.ofNat 64 dst, []) } ∧
            Recorded s t (spadTile x.pa) 0x13 0 3 24 (BitVec.ofNat 64 dst).toNat)) ∧
      (e.admitted = true → 8 * e.pos < len →
        (∀ y, e.buf = [] → (BitVec.ofNat 64 (src + 8 * e.pos)).toNat % 8 = 0 →
          Reaches s1 e .read (BitVec.ofNat 64 (src + 8 * e.pos)) 8 y →
          ∃ t m, exec (.sendrMerge f) s = .next t ∧ SameMem s t ∧
            EngineNow s t f { e with pts := m, buf := rdBytes s.mem y.pa 8 }) ∧
        (∀ y, e.buf.length = 8 → Reaches s1 e .atomic (BitVec.ofNat 64 (dst + 8 * e.pos)) 8 y →
          ∃ t m, exec (.sendrMerge f) s = .next t ∧ SameBytesBut s t y.pa 8 ∧
            (∀ a, isFull t.mem a = isFull s.mem a) ∧
            rd64 t.mem y.pa = mergedWord op (rd64 s.mem y.pa) (BitVec.ofNat 64 (ofBytes e.buf)) ∧
            EngineNow s t f { e with pts := m, pos := e.pos + 1, buf := [] })) ∧
      (e.admitted = true → len ≤ 8 * e.pos →
        (c + 1 < n → ∃ t, exec (.sendrMerge f) s = .next t ∧ SameMem s t ∧
          EngineNow s t f { e with put := some (BitVec.ofNat 64 dst, []) } ∧
          { dst := x.pa, len := len, n := n, next := c + 1 } ∈ t.episodes) ∧
        (n ≤ c + 1 → s.twaiters = [] → ∃ t, exec (.sendrMerge f) s = .next t ∧
          EngineNow s t f { e with put := some (BitVec.ofNat 64 dst, []) } ∧
          (∀ y ∈ t.episodes, y.dst ≠ x.pa) ∧ (∀ a, rdByte t.mem a = rdByte s.mem a) ∧
          ∀ k, k < len / 8 → isFull t.mem (x.pa + 8 * k) = true)))

namespace Sys2Proof.Claims

/-- A word after a RED (R334). -/
def redWord (op : Nat) (a b : Word) : Word :=
  match op with
  | 0 => a + b
  | 1 => a &&& b
  | 2 => a ||| b
  | 3 => a ^^^ b
  | 4 => if a.sle b then a else b
  | _ => if b.sle a then a else b

/-- VAL after the merge of a value (R336). -/
def oredValue (fn val v : Nat) : Nat :=
  match fn with
  | 0 => (fpAdd binary64 .rne val v).1
  | 1 => (fpAdd binary32 .rne (val % 2 ^ 32) (v % 2 ^ 32)).1
  | 2 => (val + v) % 2 ^ 64
  | 3 => (fpMinMax binary64 true val v).1
  | _ => (fpMinMax binary64 false val v).1

/-- The bytes of a range of memory but for those of a field. -/
def FieldsKept (s t : State) (pa n : Nat) (changed : Nat → Prop) : Prop :=
  SameBytesBut s t pa n ∧ ∀ k, k < n → ¬ changed k → rdByte t.mem (pa + k) = rdByte s.mem (pa + k)

end Sys2Proof.Claims

/-- R334, R335, R336, R331: a RED is one event that gives its word the value of its operation; an ORED contribution is refused
with STAT.REF and a record of cause 0x13 where R336 says so, is held where its turn has not come, and in its turn is merged into
VAL with NEXT advanced; behind the last merge STAT.DONE is set and the object's counter counts. -/
def Sys2Proof.Claims.ReductionStepsRule : Prop :=
  ∀ (s : State) (f : Nat) (e : Engine), Moving s f e → e.cancelled = false →
    (∀ op a b, e.kind = .red op a b → FaultsAt (.redEvent f) s f e .atomic a ∧
      ∀ x, Reaches s e .atomic a 8 x →
        ∃ t m, exec (.redEvent f) s = .next t ∧ SameBytesBut s t x.pa 8 ∧ rd64 t.mem x.pa = redWord op (rd64 s.mem x.pa) b ∧
          EngineNow s t f { e with pts := m, complete := true }) ∧
    (∀ fn c a v x b, e.kind = .ored fn c a v → Reaches s e .atomic a 64 x → b = rdBytes s.mem x.pa 64 →
      (e.pos = 0 → numAt b 12 4 ≠ numAt b 8 4 →
        (numAt b 17 1 / 2 % 2 = 1 ∨ numAt b 16 1 ≠ fn ∨ numAt b 8 4 ≤ c.toNat ∨ c.toNat < numAt b 12 4 →
          ∃ t m, exec (.oredMerge f) s = .next t ∧ FieldsKept s t x.pa 64 (fun k => k = 17) ∧
            (rdByte t.mem (x.pa + 17)).toNat = numAt b 17 1 ||| 4 ∧ Recorded s t (tileOf e.unit) 0x13 0 2 24 a.toNat ∧
            EngineNow s t f { e with pts := m, complete := true }) ∧
        (∀ s1 y, numAt b 17 1 / 2 % 2 = 0 → numAt b 16 1 = fn → c.toNat < numAt b 8 4 → numAt b 12 4 ≤ c.toNat →
          translate s (engineReq s e) .atomic a = (.ok x, s1) →
          Reaches s1 e .atomic (BitVec.ofNat 64 (numAt b 32 8) + BitVec.ofNat 64 (16 * c.toNat)) 16 y →
          numAt (rdBytes s.mem y.pa 16) 8 1 % 2 = 0 →
          (numAt b 12 4 ≠ c.toNat →
            (∀ s2, (translate s1 (engineReq s1 e) .atomic (BitVec.ofNat 64 (numAt b 32 8) + BitVec.ofNat 64 (16 * c.toNat))).2 = s2 →
              Reaches s2 e .atomic (BitVec.ofNat 64 (numAt b 32 8) + BitVec.ofNat 64 (16 * c.toNat)) 16 y) →
            ∃ t m, exec (.oredMerge f) s = .next t ∧ SameBytesBut s t y.pa 16 ∧
              rdBytes t.mem y.pa 16 = toBytes 8 v.toNat ++ toBytes 8 1 ∧
              EngineNow s t f { e with pts := m, complete := true }) ∧
          (numAt b 12 4 = c.toNat →
            ∃ t m, exec (.oredMerge f) s = .next t ∧ FieldsKept s t x.pa 64 (fun k => k < 8 ∨ (12 ≤ k ∧ k < 16)) ∧
              rdNum t.mem x.pa 8 = oredValue fn (numAt b 0 8) v.toNat % 2 ^ 64 ∧ rdNum t.mem (x.pa + 12) 4 = numAt b 12 4 + 1 ∧
              EngineNow s t f { e with pts := m, pos := 1 }))) ∧
      (e.pos = 1 → numAt b 17 1 / 2 % 2 = 0 → numAt b 12 4 = numAt b 8 4 → numAt b 24 8 = 0 →
        ∃ t m, exec (.oredMerge f) s = .next t ∧ FieldsKept s t x.pa 64 (fun k => k = 17) ∧
          (rdByte t.mem (x.pa + 17)).toNat = numAt b 17 1 ||| 2 ∧ EngineNow s t f { e with pts := m, complete := true }))

/-- R344, R89, R376, R316: a gather reads each index and then each element, in ascending i, and puts it in its place, and a
scatter puts the element where its index says; an attestation reads its nonce, makes the report with it and writes it; each
counts itself behind its last write. A walk changes no byte and no tag. -/
def Sys2Proof.Claims.MoveAndReportStepsRule : Prop :=
  ∀ (s : State) (f : Nat) (e : Engine), Moving s f e →
    (∀ g a b k2 n esz wide ctr, e.kind = .move g a b k2 n esz wide false ctr → (esz = 1 ∨ esz = 2 ∨ esz = 4 ∨ esz = 8) →
      PutsWord (.gatherStep f) s f e true ∧
      (∀ x w, e.put = none → e.pos < n → e.idx = none → w = (if wide then 8 else 4) →
        Reaches s e .read (b + BitVec.ofNat 64 (e.pos * w)) w x →
        ∃ t m, exec (.gatherStep f) s = .next t ∧ SameMem s t ∧
          EngineNow s t f { e with pts := m, idx := some (BitVec.ofNat 64 (rdNum s.mem x.pa w)) }) ∧
      (∀ x i va, e.put = none → e.pos < n → e.idx = some i → e.buf = [] →
        va = (if g then k2 + BitVec.ofNat 64 (i.toNat * esz) else a + BitVec.ofNat 64 (e.pos * esz)) →
        Reaches s e .read va esz x →
        ∃ t m, exec (.gatherStep f) s = .next t ∧ SameMem s t ∧
          EngineNow s t f { e with
            pts := m, pos := e.pos + 1, idx := none, buf := []
            put := some (if g then a + BitVec.ofNat 64 (e.pos * esz) else k2 + BitVec.ofNat 64 (i.toNat * esz),
              rdBytes s.mem x.pa esz) }) ∧
      (e.put = none → n ≤ e.pos → Counts (.gatherStep f) s f e ctr)) ∧
    (∀ buf nonce ctr, e.kind = .attest buf nonce ctr →
      (∀ g e', (g, e') ∈ s.engines → e'.complete = false → (∃ x y z, e'.kind = .attest x y z) → f ≤ g) →
      PutsWord (.attestReport f) s f e false ∧
      (∀ x va, e.put = none → e.pos = 0 → e.buf.length < 64 → e.buf.length % 8 = 0 →
        va = nonce + BitVec.ofNat 64 e.buf.length → va.toNat % 8 = 0 → Reaches s e .read va 8 x →
        ∃ t m, exec (.attestReport f) s = .next t ∧ SameMem s t ∧
          EngineNow s t f { e with pts := m, buf := e.buf ++ rdBytes s.mem x.pa 8 }) ∧
      (e.put = none → e.pos = 0 → e.buf.length = 64 →
        ∃ r, exec (.attestReport f) s =
            .next { s with engines := mset s.engines f { e with pos := 1, buf := [], put := some (buf, r) } } ∧
          r.length = 2048 ∧ numAt r 0 4 = 0x4A415454 ∧ numAt r 4 2 = 1 ∧ numAt r 6 1 = 0 ∧ numAt r 7 1 = dieOf e.unit % 256 ∧
          numAt r 8 2 = e.job % 65536 ∧ numAt r 16 8 = tbOf s (dieOf e.unit) % 2 ^ 64 ∧ (r.drop 24).take 64 = e.buf ∧
          numAt r 424 4 = (jobImages s e.job).length % 2 ^ 32) ∧
      (e.put = none → e.pos = 1 → CountsAt (.attestReport f) s f e ctr)) ∧
    (∀ t job va k, ∃ s', exec (.pageWalk t job va k) s = .next s' ∧ SameMem s s' ∧
      s' = { s with mem := s'.mem, pages := s'.pages, free := s'.free })

/-! ## Launches as the die and the page carry them (17_die_scheduling.md, 12_cluster.md, 23_fabric.md) -/

namespace Sys2Proof.Claims

/-- A unit as its launch loads it (R44): g1 the argument pointer, PC the job's prologue, TRAPPC its entry, and the launch's
names in its CSRs; every other register at its reset value. -/
def loadedUnit (s : State) (l : Nat) (x : Launch) (i : Image) (g : Segment) (e : Nat) : UnitRegs :=
  { st := .loaded
    g := (Vector.replicate 64 0#64).set 1 x.arg
    pc := (policyOf s x.job).prologue
    csr := { trappc := x.image + BitVec.ofNat 64 (i.code + e), jobid := BitVec.ofNat 64 x.job,
             launchid := BitVec.ofNat 64 (l % 2 ^ 32), depth := BitVec.ofNat 64 x.depth, ctxid := BitVec.ofNat 64 g.ctx }
    launch := l }

/-- The slot that a segment of an image takes in a launch's placement. -/
def segmentSlot (x : Launch) (g : Segment) : Option Nat :=
  (launchTile x g.dx g.dy).map fun t => 4 * t + x.base + g.ctx

/-- A declared queue's block as QINIT makes it, with no owner (R341). -/
def declaredBlock (x : Launch) (d : QueueDecl) (pa : Nat) : Aqcb :=
  { head := 0, tail := 0, free := 2 ^ d.capl, esz := d.esz, capl := d.capl, flags := d.flags, owner := 0#64, home := pa
    base := x.arg + BitVec.ofNat 64 d.base, check := 0, zeros := true }

end Sys2Proof.Claims

/-- R44, R264, R105, R341, R47, R98: a placed launch's segments go to the banks of their tiles and contexts, each with an entry
making a unit as R44 loads it; an image with a faulting word loads nothing and is reported; then the tags of the scratchpad words
that the launch owns are empty, the declared queues are initialised, and every loaded unit of the launch is ready. -/
def Sys2Proof.Claims.LoadingAndStartRule : Prop :=
  ∀ (s : State) (l : Nat) (x : Launch), mget s.launches l = some x →
    (∀ i, x.st = .loading → readImage x.words = .ok i → ∃ t, exec (.segmentLoad l) s = .next t ∧ SameMem s t ∧
        mget t.launches l = some { x with st := .loaded } ∧
        ∀ a g b u, i.segments = a ++ g :: b → segmentSlot x g = some u → (∀ h ∈ b, segmentSlot x h ≠ some u) →
          (bankAt t u).words = g.words ∧ (bankAt t u).launch = some l ∧
          ∀ e, g.entry = some e → unitAt t u = loadedUnit s l x i g e) ∧
    (∀ o, x.st = .loading → readImage x.words = .error o →
      ∃ t, exec (.segmentLoad l) s = .next t ∧ mget t.launches l = none ∧ t.units = s.units ∧ t.banks = s.banks ∧
        Recorded s t (originTile x) 8 0 2 24 (o % 2 ^ 64)) ∧
    (x.st = .loaded → ∃ t, exec (.launchStart l) s = .next t ∧ mget t.launches l = some { x with st := .running } ∧
      (∀ u ∈ launchSlots x, (unitAt s u).st = .loaded → unitAt t u = { unitAt s u with st := .ready }) ∧
      (∀ u, u ∉ launchSlots x → unitAt t u = unitAt s u) ∧
      ((∀ d ∈ s.decls, d.image ≠ x.cfgid) → (∀ a, rdByte t.mem a = rdByte s.mem a) ∧ t.barriers = s.barriers ∧
        ∀ a, isFull t.mem a = (isFull s.mem a && !ownsAddr x (launchTiles x) a)) ∧
      (∀ d y s1, s.decls = [{ image := x.cfgid, queues := [d] }] → d.esz ≤ 5 → d.capl ≤ 24 → d.flags < 8 →
        xlateD s (launchReq x) .atomic (x.arg + BitVec.ofNat 64 d.home) = some (y, s1) → y.pa < 2 ^ 64 →
        BlockIs t y.pa (declaredBlock x d y.pa) ∧ SameBytesBut s t y.pa 64))

/-- R318, R397, R401: a launch whose units have all retired and whose engine operations have all been joined completes: it
leaves the tables, its slots are free with their units' registers as they are, the scratchpad range that it owned reads zero
and empty, and unless it was cancelled its counter takes one addition with DONE, and LATE behind its deadline; before that
nothing happens. A complete phase leaves the tables, its counter marked DONE and one added to the job's; an incomplete one
stays. -/
def Sys2Proof.Claims.CompletionsRule : Prop :=
  ∀ (s : State) (l : Nat) (x : Launch), mget s.launches l = some x → x.st = .running → x.gctr = 0#64 → s.phased = [] →
    ((∀ u ∈ launchSlots x, (unitAt s u).st = .retired ∨ (unitAt s u).st = .free) → (∀ e ∈ s.engines, e.2.launch ≠ l) →
      ∃ t, exec (.launchComplete l) s = .next t ∧ mget t.launches l = none ∧
        (∀ k, k ≠ l → mget t.launches k = mget s.launches k) ∧
        (∀ u ∈ launchSlots x, bankAt t u = {} ∧ (unitAt t u).st = .free ∧ (unitAt t u).g = (unitAt s u).g ∧
          (unitAt t u).csr = (unitAt s u).csr) ∧
        (∀ a, ownsAddr x (launchTiles x) a = true → rdByte t.mem a = 0#8 ∧ isFull t.mem a = false) ∧
        (∀ a, ownsAddr x (launchTiles x) a = false → rdByte t.mem a =
          rdByte (if x.cancelled then s.mem else (bump (refreshPend s l) (launchReq x) x.lctr
            (4 + if x.deadline ≠ 0 ∧ x.deadline < s.tb then 8 else 0) (launchPts s l)).1.mem) a)) ∧
    ((∃ u ∈ launchSlots x, (unitAt s u).st = .ready) → exec (.launchComplete l) s = .next s) ∧
    (∀ q va bits p y s1, xlateD s q .atomic va = some (y, s1) → va ≠ 0#64 → bits ≠ 0 → bits < 2 ^ 32 → isRegion y.pa = false →
      rd64 (bump s q va bits p).1.mem y.pa =
        (if rd64 s.mem y.pa = BitVec.allOnes 64 then BitVec.allOnes 64 else rd64 s.mem y.pa + 1#64) ∧
      rd64 (bump s q va bits p).1.mem (y.pa + 8) = rd64 s.mem (y.pa + 8) ||| BitVec.ofNat 64 bits) ∧
    (∀ job ctr, (∃ g ∈ s.graphs, g.job = job ∧ g.phase = ctr) →
      (∃ h ∈ s.graphs, h.job = job ∧ h.phase ≠ ctr) →
      ((∀ g ∈ s.graphs, g.job = job → g.phase = ctr → g.declared ≤ g.complete ∧ g.rank3 = true) →
        ∃ t, exec (.phaseComplete job ctr) s = .next t ∧ t.jobs = s.jobs ∧
          t.graphs = s.graphs.filter (fun g => !(decide (g.job = job) && decide (g.phase = ctr))) ∧
          ∃ q s1 p, (s1, p) = counterEvent s q ctr 0 (fun v st => (v, st ||| 4#64)) ∧
            t.mem = (bump s1 q (policyOf s job).ctr 0 p).1.mem) ∧
      ((∃ g ∈ s.graphs, g.job = job ∧ g.phase = ctr ∧ g.complete < g.declared) →
        exec (.phaseComplete job ctr) s = .next s))

/-- R322: the loader takes a descriptor at the head of an idle endpoint's entries: with the endpoint's job and a free pool entry
it puts the launch into the pool, of depth 0, with its image as it is resident or else as it is fetched, and opens the stream; an
image of another id loads nothing and is reported; with another job it freezes the endpoint; with no entry free it waits; and an
end that no stream awaits is dropped and counted. -/
def Sys2Proof.Claims.LoaderDescriptorsRule : Prop :=
  ∀ (s s1 : State) (ep key d : Nat) (p : Endpoint) (t : Token) (rest : List Token), ep < 32 → p = endpointAt s ep → d = ep / 8 →
    p.bound = true → p.frozen = false → p.isOpen = false → endpointHeld s ep = false → p.ingress = t :: rest →
    key = 2 ^ 32 * d + (dieAt s d).nextId → s1 = setDie s d { dieAt s d with nextId := (dieAt s d).nextId + 1 } →
    (t.ty ≠ tyData → exec (.loaderDescriptor ep) s =
      .next (setEndpoint s ep { p with ingress := rest, errs := min (p.errs + 1) 65535 })) ∧
    (t.ty = tyData → numAt (toBytes 64 t.data.toNat) 48 2 ≠ p.job →
      ∃ s', exec (.loaderDescriptor ep) s = .next s' ∧ (endpointAt s' ep).frozen = true ∧ s'.launches = s.launches) ∧
    (∀ x, t.ty = tyData → numAt (toBytes 64 t.data.toNat) 48 2 = p.job →
      readDescriptor (toBytes 64 t.data.toNat) = some x →
      (poolEntry s d 0 = none → exec (.loaderDescriptor ep) s = .next s) ∧
      (∀ sh i b y, poolEntry s d 0 = some sh → x.gctr = 0#64 → y = { ingressLaunch s ep p.job x sh with die := d } →
        (dieAt s d).images.find? (fun r => decide (r.id = x.id)) = none →
        fetchImage s1 (launchReq y) x.image = .ok (i, b) → i.id ≠ x.id →
        ∃ s', exec (.loaderDescriptor ep) s = .next s' ∧ mget s'.launches key = mget s.launches key ∧
          Recorded s s' (1024 * d) 8 0 2 24 8) ∧
      (∀ sh r i s2 y, poolEntry s d 0 = some sh → x.gctr = 0#64 → y = { ingressLaunch s ep p.job x sh with die := d } →
        findImage s1 d y = .ok (r, i, s2) →
        ∃ s', exec (.loaderDescriptor ep) s = .next s' ∧ SameMem s s' ∧
          (∀ q, (dieAt s d).images.find? (fun r => decide (r.id = x.id)) = some q → r = q) ∧
          mget s'.launches key = some { y with
            image := r.addr, words := r.words, width := i.width, height := i.height, nctx := i.contexts } ∧
          y.depth = 0 ∧ y.job = p.job ∧ y.arg = x.arg ∧ y.st = .pool ∧ (dieAt s' d).nextId = (dieAt s d).nextId + 1 ∧
          endpointAt s' ep = { p with ingress := rest, isOpen := true, launch := some key }))

/-- R325, R323: a pool places an entry that fits, at the first context base and origin that hold it, no fitting entry coming
before it in the order of deadline, class, depth and job, and its pool entry is free again; with no entry that fits nothing
moves. -/
def Sys2Proof.Claims.PoolPlacementRule : Prop :=
  ∀ (s : State) (d : Nat),
    ((∀ y ∈ poolEntries s d, findPlace s y.1 y.2 = none) → exec (.poolPlace d) s = .next s) ∧
    ((∃ y ∈ poolEntries s d, (findPlace s y.1 y.2).isSome = true) →
      ∃ l x b g, (l, x) ∈ poolEntries s d ∧ findPlace s l x = some (b, g) ∧
        exec (.poolPlace d) s = .next (setLaunch s l { x with
          die := g / 64, page := g % 64, base := b, shared := none, yielded := false
          st := if x.st = .poolSaved then .restoring else .loading }) ∧
        ∀ y ∈ poolEntries s d, (findPlace s y.1 y.2).isSome = true → entryDeadline s x ≤ entryDeadline s y.2 ∧
          entryBefore s (l, x) y = true) ∧
    (∀ l x b g, findPlace s l x = some (b, g) → b + x.nctx ≤ 4 ∧ fitsAt s l x g b = true ∧
      ∀ c, c < b → ∀ o, o < 256 → fitsAt s l x o c = false)

/-- R324, R326, R327, R265, R398: the allocator saves a launch to move it to a higher origin, as a victim, or as a parent that
yields, and a watchdog that fires saves it in place or cancels it; its units' waits leave their lists, and no register and no
byte changes but by the cancel. -/
def Sys2Proof.Claims.AllocatorSavesRule : Prop :=
  ∀ (s : State) (l : Nat) (x : Launch), mget s.launches l = some x →
    (∀ g, canMove s l x g = true → nextToMove s x = true → ∃ t, exec (.compact l g) s = .next t ∧ SameMem s t ∧
      t.units = s.units ∧ homePage x < g ∧ mget t.launches l = some { x with
        st := .saving, toPool := true, inPlace := none, yielded := false, dest := some g, moved := some s.tb }) ∧
    (∀ g, canMove s l x g = false → exec (.compact l g) s = .next s) ∧
    (victimOf s = some l → allocatorBusy s = false → ∃ t, exec (.victimPreempt l) s = .next t ∧ SameMem s t ∧
      t.units = s.units ∧
      mget t.launches l = some { x with st := .saving, toPool := true, inPlace := none, yielded := false }) ∧
    (victimOf s ≠ some l → exec (.victimPreempt l) s = .next s) ∧
    (mayYield s l = true → ∃ t, exec (.parentYield l) s = .next t ∧ SameMem s t ∧ t.units = s.units ∧
      mget t.launches l = some { x with st := .saving, toPool := true, inPlace := none, yielded := true }) ∧
    (∀ s1, 2 ^ 22 ≤ x.quiet → (policyOf s x.job).wdc = false → s1 = setLaunch s l { x with quiet := 0 } →
      (saveStatus s1 l = 0 → ∃ t, exec (.watchdogSnapshot l) s = .next t ∧ SameMem s t ∧ t.units = s.units ∧
        mget t.launches l = some { x with st := .saving, toPool := false, inPlace := some 4#8, yielded := false, quiet := 0 }) ∧
      (saveStatus s1 l ≠ 0 → ∃ t, exec (.watchdogSnapshot l) s = .next t ∧ SameMem s t ∧ t.units = s.units ∧
        mget t.launches l = some { x with quiet := 0 } ∧ Recorded s t (originTile x) 9 8 4 24 0)) ∧
    (2 ^ 22 ≤ x.quiet → (policyOf s x.job).wdc = true → heldSlots s l ≠ [] →
      ∃ t y, exec (.watchdogCancel l) s = .next t ∧ mget t.launches l = some y ∧ y.cancelled = true ∧
        ∀ u ∈ heldSlots s l, (unitAt t u).st = .retired ∨ (unitAt t u).st = .free) ∧
    (x.quiet < 2 ^ 22 → exec (.watchdogSnapshot l) s = .next s ∧ exec (.watchdogCancel l) s = .next s)

/-- R400 to R403, R405: a snapshot that closes holds the unit and the bank of every tile and context of its launch, whose slots
are then free, and the launch is suspended or back in the pool; a fault at its save slot abandons it with a record, and the
launch runs on; a restored launch runs with each unit and bank of its snapshot in its place. -/
def Sys2Proof.Claims.SnapshotAndRestoreRule : Prop :=
  ∀ (s : State) (l : Nat) (x : Launch), mget s.launches l = some x →
    (∀ s1 n, snapshotReady s l = true → n = snapshotBytes s (recordsOf s l x).length →
      xlateSlot s (launchReq x) (saveSlot s l x) ((n + 4095) / 4096) = .ok s1 → x.inPlace = none → x.dest = none →
      ∃ t y, exec (.snapshotClose l) s = .next t ∧ mget t.launches l = some y ∧
        y.st = (if x.toPool then .poolSaved else .suspended) ∧ y.snaps = x.snaps + 1 ∧
        y.saved = some (x.die, x.page, x.base) ∧ (∀ u ∈ launchSlots x, (unitAt t u).st = .free ∧ bankAt t u = {}) ∧
        (∀ a, ownsAddr x (launchTiles x) a = true → rdByte t.mem a = 0#8) ∧
        ∀ dx dy k tile, dx < 4 * x.width → dy < 4 * x.height → k < x.nctx → launchTile x dx dy = some tile →
          ∃ r ∈ y.snapshot, r.dx = dx ∧ r.dy = dy ∧ r.ctx = k ∧ r.unit = mget s.units (4 * tile + x.base + k) ∧
            r.bank = bankAt s (4 * tile + x.base + k)) ∧
    (∀ c d a n, snapshotReady s l = true → n = snapshotBytes s (recordsOf s l x).length →
      xlateSlot s (launchReq x) (saveSlot s l x) ((n + 4095) / 4096) = .error (c, d, a) →
      ∃ t y, exec (.snapshotClose l) s = .next t ∧ mget t.launches l = some y ∧ y.st = .running ∧
        Recorded s t (originTile x) c.toNat d.toNat 2 24 a.toNat) ∧
    (snapshotReady s l = false → exec (.snapshotClose l) s = .next s) ∧
    (x.st = .restoring → ∃ t y, exec (.restore l) s = .next t ∧ mget t.launches l = some y ∧ y.st = .running ∧
      y.snapshot = [] ∧
      ∀ a r b u tile, x.snapshot = a ++ r :: b → launchTile x r.dx r.dy = some tile → u = 4 * tile + x.base + r.ctx →
        (∀ h ∈ b, ∀ tl, launchTile x h.dx h.dy = some tl → 4 * tl + x.base + h.ctx ≠ u) →
        (bankAt t u).words = r.bank.words ∧ (bankAt t u).launch = some l ∧
        ∀ z, r.unit = some z → unitAt t u = { z with wait := z.wait.map fun w => { w with count := 0 } })

/-- R173, R308, R309, R317: the oldest record of a page is enqueued on its job's fault queue, and then ERR is set at the levels
of the launch that it names, or stays with QWAIT set where that queue is full or cannot take it; a block found inconsistent is
marked POISON; the record of a job that is no longer live goes. The constructors of which it says where they complete:
faultRecordWrite. It rests on the model's own choices too (assumption log 79). -/
def Obligations.FaultQueues : Prop :=
  ∀ (s s1 : State) (pg job : Nat) (x : XOk) (r : Bytes) (l : List Bytes), (pageAt s pg).records = r :: l →
    job = numAt r 20 2 →
    (jobLive s job = false → exec (.faultRecordWrite pg) s =
      .next (setPage s pg { pageAt s pg with records := l, qwait := false })) ∧
    (jobLive s job = true → xlateD s (regionReq pg job) .atomic (policyOf s job).fq = some (x, s1) →
      (paClass x.pa = 0 ∨ paClass x.pa = 2) → poisonedIn s.mem x.pa 64 = none → (blockAt s.mem x.pa).poison = false →
      ((blockAt s.mem x.pa).consistent x.pa = false → s.qwaiters = [] → ∃ t, exec (.faultRecordWrite pg) s = .next t ∧
        (blockAt t.mem x.pa).poison = true ∧ SameBytesBut s t x.pa 64 ∧ (pageAt t pg).qwait = true ∧
        (pageAt t pg).records = r :: l) ∧
      ((blockAt s.mem x.pa).consistent x.pa = true → (blockAt s.mem x.pa).free = 0 →
        exec (.faultRecordWrite pg) s = .next (setPage s1 pg { pageAt s1 pg with qwait := true })) ∧
      (∀ q slot s2, (blockAt s.mem x.pa).consistent x.pa = true → (blockAt s.mem x.pa).esz = 3 →
        q = blockAt s.mem x.pa → 0 < q.free →
        q.multiDie = true ∨ paDie x.pa = pg / 64 → r.length = 64 →
        translate s1 (regionReq pg job) .write (q.slot q.tail) = (.ok slot, s2) →
        pinnedRange s none slot.pa 64 = false → pinnedRange s none x.pa 64 = false → Apart slot.pa 64 x.pa 64 →
        s.qwaiters = [] →
        ∃ t, exec (.faultRecordWrite pg) s = .next (markRecorded t pg r) ∧ (pageAt t pg).records = l ∧
          (pageAt t pg).qwait = false ∧
          BlockIs t x.pa { q with tail := (q.tail + 1) % q.cap, free := q.free - 1 } ∧
          rdBytes t.mem slot.pa 64 = r ∧ SameBytesBut2 s t slot.pa 64 x.pa 64))

/-! ## Region windows, links, host ports and management (12_cluster.md, 20_package.md, 25_bringup_power.md) -/

namespace Sys2Proof.Claims

/-- A command or a write of the region window refused: REF set, nothing else changed (R263). -/
def Refused (s : State) (pg : Nat) : State := setPage s pg { pageAt s pg with ref := true }

/-- REF of a page clear. -/
def Accepted (t : State) (pg : Nat) : Prop := (pageAt t pg).ref = false

end Sys2Proof.Claims

/-- R263, R174, R200, R173, R47: a write to RCSEL selects, or with an element above 24 or a reserved bit is refused; the unit
frame of a faulted unit alone is written, aligned and without reserved bits; ESR clears where the value has ones, and CVSR
clears STEP. -/
def Sys2Proof.Claims.RegionRegistersRule : Prop :=
  ∀ (s : State) (pg u e : Nat) (v : Word) (y : UnitRegs), u = selSlot pg (pageAt s pg) → e = selElem (pageAt s pg) →
    y = unitAt s u →
    (v.toNat < 2048 → v.toNat / 64 ≤ 24 →
      exec (.rcselWrite pg v) s = .next (setPage s pg { pageAt s pg with rcsel := v })) ∧
    ((2048 ≤ v.toNat ∨ 24 < v.toNat / 64) → exec (.rcselWrite pg v) s = .next (Refused s pg)) ∧
    (y.st = .faulted →
      (v.toNat % 4 = 0 → exec (.rcUnitFrameWrite pg 0x040 v) s = .next (setUnit s u { y with pc := v })) ∧
      (v.toNat % 4 = 0 → exec (.rcUnitFrameWrite pg 0x048 v) s =
        .next (setUnit s u { y with csr := { y.csr with trappc := v } })) ∧
      (v.toNat < 65536 → exec (.rcUnitFrameWrite pg 0x050 v) s =
        .next (setUnit s u { y with csr := { y.csr with cause := v } })) ∧
      (exec (.rcUnitFrameWrite pg 0x058 v) s = .next (setUnit s u { y with csr := { y.csr with trapval := v } })) ∧
      (v &&& csrReserved 0#12 = 0#64 → exec (.rcUnitFrameWrite pg 0x060 v) s = .next (setUnit s u
        { y with csr := { y.csr with status := (v &&& ~~~1#64) ||| (y.csr.status &&& 1#64) } })) ∧
      (v.toNat % 4 ≠ 0 → exec (.rcUnitFrameWrite pg 0x040 v) s = .next (Refused s pg))) ∧
    (y.st ≠ .faulted → exec (.rcUnitFrameWrite pg 0x040 v) s = .next (Refused s pg)) ∧
    (e < 24 → e ≠ 22 → exec (.rcEsrWrite pg v) s =
      .next (setElem s u e { elemAt s u e with esr := (elemAt s u e).esr &&& ~~~(v &&& 0xFF9F#64) })) ∧
    (e = 22 → exec (.rcEsrWrite pg v) s =
      .next (setElem s u e { elemAt s u e with esr := (elemAt s u e).esr &&& ~~~(v &&& 0x9F#64) })) ∧
    (e = 22 → v.getLsbD 8 = true → exec (.rcCvsrWrite pg v) s =
      .next (setElem s u 22 { elemAt s u 22 with work := { (elemAt s u 22).work with cvStep := false } })) ∧
    (e ≠ 22 → exec (.rcCvsrWrite pg v) s = .next s) ∧
    (pg < 256 → v.toNat < 2048 → v.toNat / 64 ≤ 24 →
      exec (.registerWrite pg 0x008 v) s = .next (setPage s pg { pageAt s pg with rcsel := v }))

/-- R263, R173, R47, R256: RCCMD 1 resumes a frozen element, voiding its open rounds for causes 0x05 to 0x07, or a faulted
unit with its engine operations; RCCMD 2 cancels the launch of the selected context; RCCMD 3 starts a snapshot in place; each
clears REF, and is refused where it has nothing to act on; any other code is refused. -/
def Sys2Proof.Claims.RegionCommandsRule : Prop :=
  ∀ (s : State) (pg u e : Nat), u = selSlot pg (pageAt s pg) → e = selElem (pageAt s pg) →
    (e < 24 → (elemAt s u e).frozen = true → (((elemAt s u e).efr.toNat / 2 ^ 48 % 256 < 5 ∨ 7 < (elemAt s u e).efr.toNat / 2 ^ 48 % 256) →
      ∃ t, exec (.rcResume pg) s = .next t ∧ Accepted t pg ∧ SameMem s t ∧ t.fifos = s.fifos ∧
        elemAt t u e = { elemAt s u e with efr := (elemAt s u e).efr &&& 0x7FFFFFFFFFFFFFFF#64 } ∧
        ((unitAt s u).st = .faulted → (unitAt s u).selfFault = false →
          anyFrozen (setElem s u e { elemAt s u e with efr := (elemAt s u e).efr &&& 0x7FFFFFFFFFFFFFFF#64 }) u = false →
          unitAt t u = { unitAt s u with st := (unitAt s u).before })) ∧
      (5 ≤ (elemAt s u e).efr.toNat / 2 ^ 48 % 256 → (elemAt s u e).efr.toNat / 2 ^ 48 % 256 ≤ 7 →
        ∃ t, exec (.rcResume pg) s = .next t ∧ Accepted t pg ∧ SameMem s t ∧ (elemAt t u e).frozen = false ∧
          ∀ q ∈ (seriesAt t (seriesOf s u)).rounds, q.stores = [] ∧ q.loads = [])) ∧
    (e < 24 → (elemAt s u e).frozen = false → exec (.rcResume pg) s = .next (Refused s pg)) ∧
    (e = 24 → (unitAt s u).st = .faulted → ∃ t, exec (.rcResume pg) s = .next t ∧ Accepted t pg ∧ SameMem s t ∧
      unitAt t u = { unitAt s u with st := (unitAt s u).before, selfFault := false } ∧
      ∀ x ∈ t.engines, x.2.unit = u → x.2.launch = (unitAt s u).launch → x.2.frozen = false) ∧
    (e = 24 → (unitAt s u).st ≠ .faulted → (∀ x ∈ s.engines, x.2.unit = u → x.2.frozen = false) →
      exec (.rcResume pg) s = .next (Refused s pg)) ∧
    (∀ l, (bankAt s u).launch = some l →
      (heldSlots s l ≠ [] → ∃ t y, exec (.rcCancel pg) s = .next t ∧ Accepted t pg ∧ mget t.launches l = some y ∧
        y.cancelled = true ∧ ∀ w ∈ heldSlots s l, (unitAt t w).st = .retired ∨ (unitAt t w).st = .free) ∧
      (∀ x, mget s.launches l = some x → saveStatus s l = 0 → ∃ t, exec (.rcSnapshot pg) s = .next t ∧ Accepted t pg ∧
        SameMem s t ∧ t.units = s.units ∧
        mget t.launches l = some { x with st := .saving, toPool := false, inPlace := some 5#8, yielded := false }) ∧
      (saveStatus s l ≠ 0 → exec (.rcSnapshot pg) s = .next (Refused s pg))) ∧
    ((bankAt s u).launch = none →
      exec (.rcCancel pg) s = .next (Refused s pg) ∧ exec (.rcSnapshot pg) s = .next (Refused s pg)) ∧
    (∀ v : Word, (v.toNat = 0 ∨ 3 < v.toNat) → exec (.rccmdUnassigned pg v) s = .next (Refused s pg))

/-- R364: the head entry of a link's queue starts by setting TURN of its group, drains, and 25 cycles behind its drain sets DIR,
clears TURN, records LASTT and leaves the queue; no earlier cycle completes it, and nothing else changes. The constructors of
which it says where they complete: turnStart, turnDrained, turnComplete. It rests on the model's own choices too (assumption log
86). -/
def Obligations.LinkTurns : Prop :=
  ∀ (s : State) (k tb : Nat) (x : Link) (a : Turn) (l : List Turn), k < 4 → x = linkAt s k → tb = tbOf s (endL k) →
    x.queue = a :: l → a.group < 16 →
    (a.started = none → ∃ t, exec (.turnStart k) s = .next t ∧ t = { s with links := t.links } ∧
      linkAt t k = { x with queue := { a with started := some tb } :: l, turn := x.turn ||| BitVec.ofNat 16 (2 ^ a.group) } ∧
      ∀ j, j ≠ k → linkAt t j = linkAt s j) ∧
    (∀ b, a.started = some b → a.drained = none → b < tb → ∃ t, exec (.turnDrained k) s = .next t ∧
      t = { s with links := t.links } ∧ linkAt t k = { x with queue := { a with drained := some tb } :: l } ∧
      ∀ j, j ≠ k → linkAt t j = linkAt s j) ∧
    (∀ e, a.drained = some e →
      (e + 25 ≤ tb → ∃ t, exec (.turnComplete k) s = .next t ∧ t = { s with links := t.links } ∧
        (linkAt t k).queue = l ∧ (linkAt t k).dir.getLsbD a.group = a.toL ∧ (linkAt t k).turn.getLsbD a.group = false ∧
        (∀ g, g ≠ a.group → (linkAt t k).dir.getLsbD g = x.dir.getLsbD g ∧ (linkAt t k).turn.getLsbD g = x.turn.getLsbD g) ∧
        (linkAt t k).lastt.toList.getD a.group 0 = tb ∧ ∀ j, j ≠ k → linkAt t j = linkAt s j) ∧
      (tb < e + 25 → exec (.turnComplete k) s = .next s)) ∧
    (a.drained = none → exec (.turnComplete k) s = .next s)

namespace Sys2Proof.Claims

/-- A completion put last among those that the host receives. -/
def Replied (s t : State) (r : Reply) : Prop := t.replies = s.replies ++ [r]

/-- An error completion of a die's port, counted in HERRCNT, and nothing else changed (R370, R374, R375). -/
def PortError (s t : State) (d : Nat) : Prop :=
  t = { s with dies := t.dies, replies := s.replies ++ [.error] } ∧
  dieAt t d = { dieAt s d with herrcnt := min ((dieAt s d).herrcnt + 1) 0xFFFFFFFF } ∧
  ∀ k, k ≠ d → dieAt t k = dieAt s k

end Sys2Proof.Claims

/-- R8, R370 to R375, R379: a port that is frozen answers every request with an error completion and does nothing. Otherwise a
64-byte write to an ingress slot of a bound endpoint with credit queues its token, and a rank written to EOS of an open stream
its EOS, and any other write is an error counted at the endpoint; a write-only slot reads zero; HWJOB takes a live job and
HWBASE a base without reserved bits, and what is refused, like an offset outside the aperture, is an error counted at the
port. -/
def Sys2Proof.Claims.HostRequestsRule : Prop :=
  ∀ (s : State) (ep d off size : Nat) (data : BitVec 512) (v : Word) (p : Endpoint), ep < 32 → d < 4 → p = endpointAt s ep →
    ((dieAt s d).hFrozen = true →
      exec (.hwjobWrite d v) s = .next { s with replies := s.replies ++ [.error] } ∧
      exec (.hostBadOffset d off) s = .next { s with replies := s.replies ++ [.error] } ∧
      exec (.hostWindowAccess d off size true data) s = .next { s with replies := s.replies ++ [.error] }) ∧
    ((dieAt s (ep / 8)).hFrozen = false →
      (size = 64 ∧ off % 64 = 0 ∧ off ≤ 0x7C0 ∧ p.bound = true ∧ p.frozen = false ∧ p.ingress.length < 64 →
        ∃ t, exec (.ingressSlotWrite ep off size data) s = .next t ∧ Replied s t (.ok 0#512) ∧
          endpointAt t ep = { p with
            ingress := p.ingress ++ [{ ty := tyData, data := data, slot := 0x1000 + 0x1000 * (ep % 8) + off }] }) ∧
      (size ≠ 64 ∨ off % 64 ≠ 0 ∨ 0x7C0 < off ∨ p.bound = false ∨ p.frozen = true ∨ 64 ≤ p.ingress.length →
        ∃ t, exec (.ingressSlotWrite ep off size data) s = .next t ∧ Replied s t .error ∧
          endpointAt t ep = { p with errs := min (p.errs + 1) 65535 }) ∧
      (size = 8 ∧ v.toNat < 4 ∧ p.bound = true ∧ p.frozen = false ∧ p.ingress.length < 64 ∧ p.isOpen = true →
        ∃ t, exec (.ingressEosWrite ep size v) s = .next t ∧ Replied s t (.ok 0#512) ∧
          endpointAt t ep = { p with ingress := p.ingress ++ [{ ty := tyEos, rank := v.setWidth 2 }] }) ∧
      (size ≠ 8 ∨ 4 ≤ v.toNat ∨ p.isOpen = false →
        ∃ t, exec (.ingressEosWrite ep size v) s = .next t ∧ Replied s t .error ∧
          endpointAt t ep = { p with errs := min (p.errs + 1) 65535 }) ∧
      (off < 0x800 →
        execRegisterAccess (1024 + ep) off size false data s = .next { s with replies := s.replies ++ [.ok 0#512] })) ∧
    ((dieAt s d).hFrozen = false →
      (v.toNat < 65536 → jobLive s v.toNat = true → ∃ t, exec (.hwjobWrite d v) s = .next t ∧ Replied s t (.ok 0#512) ∧
        dieAt t d = { dieAt s d with hwjob := v.toNat }) ∧
      (65536 ≤ v.toNat ∨ jobLive s v.toNat = false → ∃ t, exec (.hwjobWrite d v) s = .next t ∧ PortError s t d) ∧
      (v.toNat % 4096 = 0 → v.toNat < 2 ^ 57 → ∃ t, exec (.hwbaseWrite d v) s = .next t ∧ Replied s t (.ok 0#512) ∧
        dieAt t d = { dieAt s d with hwbase := v }) ∧
      (v.toNat % 4096 ≠ 0 ∨ 2 ^ 57 ≤ v.toNat → ∃ t, exec (.hwbaseWrite d v) s = .next t ∧ PortError s t d) ∧
      ((0x9000 ≤ off ∧ (off < 2 ^ 46 ∨ 2 ^ 47 ≤ off) ∨ off < 0x1000 ∧ (0x020 < off ∨ off % 8 ≠ 0)) →
        ∃ t, exec (.hostBadOffset d off) s = .next t ∧ PortError s t d))

/-- R374, R302, R332, R379: a window access of 1, 2, 4, 8 or 64 aligned bytes at HWBASE and its offset reads or writes memory
under HWJOB's tables; ADD, SWP and CAS of an aligned word on a page with SA change it as R332 says, and on another page are
refused and counted; a closed page or a confidential job freezes the port; what does not translate is an error without a
freeze. -/
def Sys2Proof.Claims.HostWindowRule : Prop :=
  ∀ (s s1 : State) (d off : Nat) (va : Word) (x : XOk) (q : Requester), d < 4 → (dieAt s d).hFrozen = false → 2 ^ 46 ≤ off →
    off < 2 ^ 47 → va = (dieAt s d).hwbase + BitVec.ofNat 64 (off - 2 ^ 46) → q = hostReq s d →
    (∀ n data, (n = 1 ∨ n = 2 ∨ n = 4 ∨ n = 8 ∨ n = 64) → va.toNat % n = 0 → x.cl = false → (policyOf s q.job).conf = false →
      isRegion x.pa = false →
      (translate s q .write va = (.ok x, s1) → pinnedRange s none x.pa n = false →
        ∃ t, exec (.hostWindowAccess d off n true data) s = .next t ∧ Replied s t (.ok 0#512) ∧
          rdBytes t.mem x.pa n = toBytes n data.toNat ∧ SameBytesBut s t x.pa n) ∧
      (translate s q .read va = (.ok x, s1) → poisonedIn s.mem x.pa n = none →
        ∃ t, exec (.hostWindowAccess d off n false data) s = .next t ∧ SameMem s t ∧
          Replied s t (.ok (BitVec.ofNat 512 (rdNum s.mem x.pa n))))) ∧
    (∀ op (v c : Word) new, va.toNat % 8 = 0 → x.cl = false → (policyOf s q.job).conf = false → isRegion x.pa = false →
      (op = 0 ∧ new = rd64 s.mem x.pa + v ∨ op = 8 ∧ new = v ∨
        op = 9 ∧ new = (if rd64 s.mem x.pa = c then v else rd64 s.mem x.pa)) →
      translate s q .atomic va = (.ok x, s1) → pinnedRange s none x.pa 8 = false →
      (x.sa = true → poisonedIn s.mem x.pa 8 = none →
        ∃ t, exec (.hostAtomic d off op v c) s = .next t ∧ rd64 t.mem x.pa = new ∧ SameBytesBut s t x.pa 8 ∧
          Replied s t (.ok (BitVec.ofNat 512 (rdNum s.mem x.pa 8)))) ∧
      (x.sa = false → ∃ t, exec (.hostAtomic d off op v c) s = .next t ∧ SameMem s t ∧ Replied s t .error ∧
        (dieAt t d).hrefcnt = min ((dieAt s d).hrefcnt + 1) 0xFFFFFFFF)) ∧
    (∀ n data, (n = 1 ∨ n = 2 ∨ n = 4 ∨ n = 8 ∨ n = 64) → va.toNat % n = 0 →
      (translate s q .read va = (.ok x, s1) → (x.cl = true ∨ (policyOf s q.job).conf = true) →
        ∃ t, exec (.hostWindowAccess d off n false data) s = .next t ∧ SameMem s t ∧ (dieAt t d).hFrozen = true ∧
          Replied s t .error) ∧
      (∀ c b, translate s q .read va = (.error (.cause c b), s1) →
        ∃ t, exec (.hostWindowAccess d off n false data) s = .next t ∧ SameMem s t ∧ (dieAt t d).hFrozen = false ∧
          (dieAt t d).herrcnt = min ((dieAt s d).herrcnt + 1) 0xFFFFFFFF ∧ Replied s t .error)) ∧
    (∀ n data, ¬ (n = 1 ∨ n = 2 ∨ n = 4 ∨ n = 8 ∨ n = 64) →
      ∃ t, exec (.hostWindowAccess d off n false data) s = .next t ∧ PortError s t d)

namespace Sys2Proof.Claims

/-- A management port that runs no command and is not frozen (R379, R420). -/
def Manages (s : State) (d : Nat) : Prop := d < 4 ∧ (dieAt s d).mgFrozen = false ∧ (dieAt s d).mgBusy = false

/-- A command that has answered: MGRES is r, and of the machine otherwise only what `f` names has changed (R420). -/
def Answered (i : Instr) (s : State) (d : Nat) (r : Word) (u : State) : Prop :=
  exec i s = .next (setDie u d { dieAt u d with mgRes := r })

end Sys2Proof.Claims

/-- R421, R368, R369, R320, R377, R379, R396, R420: release frees a frozen unit into the faulted state, an endpoint or a host
port, and is refused for what is not frozen; a policy record that keeps R320 is written, and another is malformed; a frame
that passes to a new owner is zeroed and its entry written; a pairing trains or is refused; key and log copy into MGBUF;
another code is malformed. -/
def Sys2Proof.Claims.ManagementCommandsRule : Prop :=
  ∀ (s : State) (d : Nat), Manages s d →
    (∀ u, readMaster (dieAt s d).mgArg = some (.unit u) →
      ((unitAt s u).st = .frozen → ∃ t, exec (.mgRelease d) s = .next t ∧ (dieAt t d).mgRes = 0#64 ∧
        unitAt t u = { unitAt s u with st := .faulted, selfFault := true } ∧ ∀ e, e < 32 → (elemAt t u e).sec = false) ∧
      ((unitAt s u).st ≠ .frozen → Answered (.mgRelease d) s d 1#64 s)) ∧
    (∀ e, e < 32 → readMaster (dieAt s d).mgArg = some (.endpoint e) → (endpointAt s e).frozen = true →
      Answered (.mgRelease d) s d 0#64 (setEndpoint s e { endpointAt s e with frozen := false })) ∧
    (∀ k, k < 4 → readMaster (dieAt s d).mgArg = some (.port k) → (dieAt s k).hFrozen = true →
      Answered (.mgRelease d) s d 0#64 (setDie s k { dieAt s k with hFrozen := false })) ∧
    (readMaster (dieAt s d).mgArg = none → Answered (.mgRelease d) s d 2#64 s) ∧
    (∀ job p, readPolicy (mgBytes (dieAt s d) 0 64) = some (job, p) →
      Answered (.mgPolicy d) s d 0#64 { s with jobs := mset s.jobs job p }) ∧
    ((numAt (mgBytes (dieAt s d) 0 64) 32 8 = 0 ∨ numAt (mgBytes (dieAt s d) 0 64) 32 8 % 64 ≠ 0 ∨
        numAt (mgBytes (dieAt s d) 0 64) 4 2 = 0) → Answered (.mgPolicy d) s d 2#64 s) ∧
    (∀ (e : BitVec 32) (fr : Nat), e = BitVec.ofNat 32 (ofBytes (mgBytes (dieAt s d) 0 4)) →
      fr = 2 ^ 25 * d + (dieAt s d).mgArg.toNat →
      (e.toNat < 2 ^ 17 → (dieAt s d).mgArg.toNat < 2 ^ 25 → mapped (4096 * fr) = true → e.getLsbD 16 = true →
        (mget s.frames fr).getD 0#32 = 0#32 →
        ∃ t, exec (.mgFrame d) s = .next t ∧ (dieAt t d).mgRes = 0#64 ∧ mget t.frames fr = some e ∧
          (∀ a, a / 4096 = fr → rdByte t.mem a = 0#8) ∧ ∀ a, a / 4096 ≠ fr → rdByte t.mem a = rdByte s.mem a) ∧
      ((2 ^ 17 ≤ e.toNat ∨ 2 ^ 25 ≤ (dieAt s d).mgArg.toNat) → Answered (.mgFrame d) s d 2#64 s)) ∧
    (∀ k, k = (dieAt s d).mgArg.toNat → k < 2 →
      (Config.trains d k = true → Answered (.mgPair d) s d 0#64 { s with edges := mset s.edges (2 * d + k) true }) ∧
      (Config.trains d k = false → Answered (.mgPair d) s d 1#64 s)) ∧
    (∀ k, k = (dieAt s d).mgArg.toNat → k < 4 → ∃ t, exec (.mgKey d) s = .next t ∧ (dieAt t d).mgRes = 0#64 ∧
      mgBytes (dieAt t d) 0 512 = toBytes 512 (Config.keyModulus k).toNat ∧
      mgBytes (dieAt t d) 512 4 = toBytes 4 (Config.keyExponent k).toNat ∧
      ∀ i, 516 ≤ i → mgByte (dieAt t d) i = 0#8) ∧
    (∀ k r, k = (dieAt s d).mgArg.toNat → (dieAt s d).seclog[k]? = some r → r.length = 64 →
      ∃ t, exec (.mgLog d) s = .next t ∧ (dieAt t d).mgRes = 0#64 ∧ mgBytes (dieAt t d) 0 64 = r ∧
        ∀ i, 64 ≤ i → mgByte (dieAt t d) i = 0#8) ∧
    (∀ c : Word, (c = 0#64 ∨ (8 < c.toNat ∧ c.toNat < 0x80) ∨ 0xFF < c.toNat) → Answered (.mgcmdUnassigned d c) s d 2#64 s) ∧
    (∀ v : Word, exec (.registerWrite (256 + d) 0x010 v) s =
      .next { setDie s d { dieAt s d with mgArg := v } with replies := s.replies ++ [.ok 0#512] })

/-- R421, R379, R420: a debug command without the debug right freezes the management port with one report of violation 2; with the
right, R421 gives it no effect and the machine stops by name; while a command runs it, like every command, is refused. -/
def Sys2Proof.Claims.DebugCommandsRule : Prop :=
  ∀ (s : State) (d : Nat) (c : Word), d < 4 → (dieAt s d).mgFrozen = false → 0x80 ≤ c.toNat → c.toNat ≤ 0xFF →
    ((dieAt s d).debug = false → ∃ t r, exec (.mgDebug d c) s = .next t ∧ (dieAt t d).mgFrozen = true ∧
      (dieAt t d).seclog.getLast? = some r ∧ numAt r 0 1 = 0x15 ∧ numAt r 1 1 = 2 ∧ SameMem s t ∧ t.units = s.units) ∧
    ((dieAt s d).debug = true → (dieAt s d).mgBusy = false → exec (.mgDebug d c) s = .refused (.debugCommand c)) ∧
    ((dieAt s d).debug = true → (dieAt s d).mgBusy = true → Answered (.mgDebug d c) s d 1#64 s)

/-- R415, R416, R418, R420, R378: standby is entered with no live job but the system job and is left 2^20 reference cycles
behind a wake, TB holding; idling changes PST alone; a monitor above TCRIT drops the clock to the floor at once, one above TSTEP
by one step that keeps its spacing, and a step up follows a cool package; a reset clears memory and every register, or holds
where a step of bring-up failed, and a package held in reset runs nothing. The constructors of which it says where they
complete: mgStandby, mgWake, wakeComplete, thcfgWrite, monitorSample, thermalStepUp, packageReset, idleGate. It rests on the
model's own choices too (assumption log 93, 94, 99). -/
def Obligations.PowerAndReset : Prop :=
  ∀ (s : State) (d : Nat),
    (Manages s d →
      ((∀ j ∈ s.jobs, j.1 = 0) → (s.power = .p0 ∨ s.power = .p1) → Answered (.mgStandby d) s d 0#64 { s with power := .p2 }) ∧
      ((∃ j ∈ s.jobs, j.1 ≠ 0) → Answered (.mgStandby d) s d 1#64 s) ∧
      (s.power = .p2 → Answered (.mgWake d) s d 0#64
        (setDie { s with power := .waking (2 ^ 20) } d { dieAt s d with mgBusy := true })) ∧
      (s.power ≠ .p2 → Answered (.mgWake d) s d 1#64 s)) ∧
    (s.power = .waking 0 → ∃ t, exec .wakeComplete s = .next t ∧ t = { s with power := .p0, dies := t.dies } ∧
      ∀ k, k < 4 → dieAt t k = { dieAt s k with mgBusy := false }) ∧
    (s.power = .p0 → exec (.idleGate true) s = .next { s with power := .p1 }) ∧
    (s.power = .p1 → exec (.idleGate false) s = .next { s with power := .p0 }) ∧
    (∀ v : Word, d < 4 → (dieAt s d).mgFrozen = false →
      (v.toNat % 256 < v.toNat / 256 % 256 → exec (.thcfgWrite d v) s =
        .next { setDie s d { dieAt s d with thcfg := v &&& 0xFFFF#64 } with replies := s.replies ++ [.ok 0#512] }) ∧
      (v.toNat / 256 % 256 ≤ v.toNat % 256 →
        exec (.thcfgWrite d v) s = .next { s with replies := s.replies ++ [.error] })) ∧
    (d < 4 → ∃ t x, exec (.monitorSample d) s = .next t ∧ x = dieAt t d ∧ SameMem s t ∧ t.units = s.units ∧ t.tb = s.tb ∧
      (∀ i (h : i < 64), x.temps[i] = Config.monitor d 0 i s.tb) ∧
      ((∃ i, ∃ h : i < 64, (dieAt s d).thcfg.toNat / 256 % 256 < x.temps[i]) → s.steps < 6 → t.steps = 6) ∧
      ((∀ i (h : i < 64), x.temps[i] ≤ (dieAt s d).thcfg.toNat / 256 % 256) →
        (∃ i, ∃ h : i < 64, (dieAt s d).thcfg.toNat % 256 < x.temps[i]) → s.steps < 6 →
        t.steps = (if s.lastStep.all (fun b => decide (b + 2 ^ 20 ≤ s.tb)) then s.steps + 1 else s.steps)) ∧
      (t.steps ≠ s.steps → t.lastStep = some s.tb ∧ t.thermLog = s.thermLog ++ [(s.tb, t.steps)] ∧
        ∀ k, k < 4 → (dieAt t k).mgTev = true)) ∧
    (0 < s.steps → s.lastStep.all (fun b => decide (b + 2 ^ 20 ≤ s.tb)) = true →
      (∀ k, k < 4 → (dieAt s k).coolSince + 2 ^ 24 ≤ s.tb) →
      ∃ t, exec .thermalStepUp s = .next t ∧ t.steps = s.steps - 1 ∧ t.lastStep = some s.tb ∧ SameMem s t) ∧
    (∃ t, exec .packageReset s = .next t ∧ (∀ a, rdByte t.mem a = 0#8) ∧ (∀ a, isFull t.mem a = false) ∧ t.units = [] ∧
      t.launches = [] ∧ t.tb = 0 ∧ t.frames = [] ∧ t.power = .p0 ∧ t.hostMem = s.hostMem ∧ (t.held = true ↔ s.bringUp ≠ 0) ∧
      t.bringUp = s.bringUp) ∧
    (s.held = true → step s = .fault .heldInReset)

/-! ## The statements made of several rules -/

/-- R58 to R67: the integer, move and predicate words give the values of their rules, the corners of division and shifts
included. The constructors of which it says where they complete: add, sub, mul, mulh, mulhn, div, divn, rem, remn, and, or, xor,
andn, shl, shr, sar, rotl, min, max, minn, maxn, clz, ctz, popc, sext, zext, movx, addi, andi, ori, xori, shli, shri, sari,
muli, li, lpc, cmpeq, cmpne, cmplt, cmple, cmpltn, cmplen, cmptst, cmpeqi, cmplti, cmpltni, pand, por, pxor, pandn, pnot, pmov,
pset, sel. -/
def Obligations.IntegerAndPredicateWords : Prop :=
  Sys2Proof.Claims.IntegerWordsRule ∧ Sys2Proof.Claims.DivisionCornersRule ∧ Sys2Proof.Claims.PredicateWordsRule

/-- R69 to R73: branches, jumps and calls, and the jump to a misaligned address. The constructors of which it says where they
complete: loop, b, bp, bnp, call, jr, jalr, ret, bz, bnz. -/
def Obligations.ControlWords : Prop :=
  Sys2Proof.Claims.ControlTransfersRule ∧ Sys2Proof.Claims.JumpMisalignedRule

/-- R74 to R82: the floating-point words, and their exceptions with FPTE. The constructors of which it says where they complete:
fadd, fsub, fmul, fdiv, fsqrt, fmin, fmax, fabs, fneg, fcmpeq, fcmplt, fcmple, fcvtif, fcvtfi, fcvtsd, fcvtds, fclass, ffma,
ffms. -/
def Obligations.FloatingPoint : Prop :=
  Sys2Proof.Claims.FloatingWordsRule ∧ Sys2Proof.Claims.FloatingTrapsRule

/-- R19, R41, R42: what is read behind a write of a value register or a predicate. -/
def Obligations.RegisterFiles : Prop :=
  Sys2Proof.Claims.RegisterFileRule ∧ Sys2Proof.Claims.PredicateFileRule

/-- R12, R13, R23, R68: what a C-word that cannot run raises. The constructors of which it says where they complete:
illegalCWord, fetchFault. -/
def Obligations.ChecksAndFetch : Prop :=
  Sys2Proof.Claims.CheckOrderRule ∧ Sys2Proof.Claims.PrivilegedWordsRule ∧ Sys2Proof.Claims.FetchFaultsRule

/-- R50, R51, R87, R88: TRAP, BREAK and ERET. The constructors of which it says where they complete: trap, eret, breakI. -/
def Obligations.TrapAndReturn : Prop :=
  Sys2Proof.Claims.TrapAndBreakRule ∧ Sys2Proof.Claims.ReturnFromTrapRule

/-- R24, R45, R83 to R85: the CSRs and their words. The constructors of which it says where they complete: csrr, csrw, csrs,
csrc. -/
def Obligations.CsrAccess : Prop :=
  Sys2Proof.Claims.CsrWordsRule ∧ Sys2Proof.Claims.CsrTableRule

/-- R92 to R95: the scalar loads and stores. The constructors of which it says where they complete: ldb, ldh, ldw, ldd, ldbz,
ldhz, ldwz, lddZ, stb, sth, stw, std, ldx, stx. It rests on the model's own choices too (assumption log 111). -/
def Obligations.LoadsAndStores : Prop :=
  Sys2Proof.Claims.LoadsRule ∧ Sys2Proof.Claims.StoresRule

/-- R91, R170, R316: what an access that fails its checks raises, and a read of a poisoned word. -/
def Obligations.AccessChecks : Prop :=
  Sys2Proof.Claims.AccessTrapsRule ∧ Sys2Proof.Claims.PoisonedReadsRule

/-- R96, R97, R169: the tagged words, where they park, and how they are served. The constructors of which it says where they
complete: ldf, ldfe, ste, stf, feset, feclr, feq, ldfeNb, steNb. It rests on the model's own choices too (assumption log 12, 26,
102). -/
def Obligations.TaggedOperations : Prop :=
  Sys2Proof.Claims.TaggedWordsRule ∧ Sys2Proof.Claims.TaggedParkingRule ∧ Sys2Proof.Claims.TaggedWaiterServedRule

/-- R89, R115 to R119, R334, R336, R343: the words that fork engine operations. The constructors of which it says where they
complete: redadd, redand, redor, redxor, redmin, redmax, oredFadd, oredFadds, oredAdd, oredFmax, oredFmin, send, sendr, gath,
scat, attest. It rests on the model's own choices too (assumption log 23, 32, 114). -/
def Obligations.ForkingWords : Prop :=
  Sys2Proof.Claims.ReductionForksRule ∧ Sys2Proof.Claims.EngineForksRule ∧ Sys2Proof.Claims.CopyWordsRule

/-- R99 to R103: time, sleep and the joins of DONE. The constructors of which it says where they complete: sleepu, rdtb, yield,
fjoin, done. It rests on the model's own choices too (assumption log 12). -/
def Obligations.TimeAndSleep : Prop :=
  Sys2Proof.Claims.TimeWordsRule ∧ Sys2Proof.Claims.SleepRule

/-- R278 to R282: exchange words and rounds as a thread sees them. The constructors of which it says where they complete:
ctxdef, ctxrd, ctxwt, rclose, rqry. It rests on the model's own choices too (assumption log 12, 31). -/
def Obligations.ExchangeAndRounds : Prop :=
  Sys2Proof.Claims.ExchangeWordsRule ∧ Sys2Proof.Claims.RoundWordsRule

/-- R259 to R277: barriers. The constructors of which it says where they complete: barinit, bararr, barwait, barsync, barrd,
barcfg, barleave. It rests on the model's own choices too (assumption log 12, 109). -/
def Obligations.Barriers : Prop :=
  Sys2Proof.Claims.BarrierArrivalRule ∧ Sys2Proof.Claims.BarrierWordsRule ∧ Sys2Proof.Claims.BarrierInitRule

/-- R309, R311, R338, R339: dequeues and steals. The constructors of which it says where they complete: deq, deqNb, qsteal,
deqv. It rests on the model's own choices too (assumption log 12). -/
def Obligations.QueueTaking : Prop :=
  Sys2Proof.Claims.QueueValueDequeueRule ∧ Sys2Proof.Claims.QueueDequeuesRule

/-- R305, R306, R308: queue blocks and their checks. It rests on the model's own choices too (assumption log 25). -/
def Obligations.QueueBlocksAndChecks : Prop :=
  Sys2Proof.Claims.QueueBlocksRule ∧ Sys2Proof.Claims.QueueChecksRule

/-- R183 to R187: the vector operations. The constructors of which it says where they complete: vadd, vsub, vmul, vfma, vdiv,
vsqrt, vmin, vmax, vabs, vneg, vcmp, vsel, vcvt, vred, vand, vor, vxor, vshl, vshr, vmac, vperm, vsat. It rests on the model's
own choices too (assumption log 9). -/
def Obligations.VectorElements : Prop :=
  Sys2Proof.Claims.VectorWordsRule ∧ Sys2Proof.Claims.AccumulateAndConvertRule

/-- R141 to R155, R179 to R182: the online operations and their converters. The constructors of which it says where they
complete: oadd, osub, omul, ofma, odiv, osqrt, orsqrt, oexp2, oscl, oneg, oabs, ocmp, omax, orelu, othr, ow2d, od2w, oacc. It
rests on the model's own choices too (assumption log 9, 38, 118, 119). -/
def Obligations.OnlineElements : Prop :=
  Sys2Proof.Claims.DigitWordsRule ∧ Sys2Proof.Claims.GroupWordsRule

/-- R189 to R203: the array's rows, the converter and the scale joiner. The constructors of which it says where they complete:
mldb, mzero, mrd, mcx, cvdn, cvup, sjoin. It rests on the model's own choices too (assumption log 9, 49, 51, 120). -/
def Obligations.ArrayAndConverter : Prop :=
  Sys2Proof.Claims.ArrayRowsRule ∧ Sys2Proof.Claims.ConverterWordsRule

/-- R204 to R211, R238: the memory ports. The constructors of which it says where they complete: mld, mst, mldt, mstt, mamo,
mldf, mste. It rests on the model's own choices too (assumption log 9, 35, 52, 53, 104). -/
def Obligations.MemoryPorts : Prop :=
  Sys2Proof.Claims.RoundAccessesRule ∧ Sys2Proof.Claims.DatapathAtomicsRule

/-- R222 to R228: the flow elements, sinks and EMIT. The constructors of which it says where they complete: gateCtok,
gateCounter, carry, steer, merge, dup, eosgen, sink, emitTok, emitIota, emitIng, tagopSet, tagopCtok, tagopClear. It rests on
the model's own choices too (assumption log 9, 43, 57). -/
def Obligations.FlowElements : Prop :=
  Sys2Proof.Claims.FlowWordsRule ∧ Sys2Proof.Claims.SinkAndEmitRule

/-- R49, R52, R101, R103, R121, R170: what happens to a unit between its C-words. The constructors of which it says where they
complete: boundaryTrap, waitTimeout, scrub, sleepuWake, watchFire, unitRetire, uncorrectableError. It rests on the model's own
choices too (assumption log 13, 14, 15, 108, 113). -/
def Obligations.UnitEvents : Prop :=
  Sys2Proof.Claims.BoundaryTrapsAndTimeoutsRule ∧ Sys2Proof.Claims.WakesAndWatchesRule ∧ Sys2Proof.Claims.RetirementAndErrorsRule

/-- R164, R252, R254, R399: the EOS step, the round step and the save. The constructors of which it says where they complete:
eosStep, roundStep, elementSave. It rests on the model's own choices too (assumption log 33, 58). -/
def Obligations.EndsOfStreams : Prop :=
  Sys2Proof.Claims.ElementStepsRule ∧ Sys2Proof.Claims.SourceEndsRule

/-- R112, R113, R145, R160, R166, R167, R173, R408: what moves on channels beside tokens, and takeovers. The constructors of
which it says where they complete: pendingTakeover, kill, creditReturn, savedTokenInject. It rests on the model's own choices
too (assumption log 81, 82, 98). -/
def Obligations.ChannelsAndTakeovers : Prop :=
  Sys2Proof.Claims.ChannelsRule ∧ Sys2Proof.Claims.TakeoversRule

/-- R116, R119: the copy engines. The constructors of which it says where they complete: copyComplete, sendrMerge. It rests on
the model's own choices too (assumption log 61, 62, 64). -/
def Obligations.CopyEngines : Prop :=
  Sys2Proof.Claims.CopyStepsRule ∧ Sys2Proof.Claims.MergeStepsRule

/-- R89, R316, R334 to R337, R344, R376: the engines of the die. The constructors of which it says where they complete:
oredMerge, redEvent, gatherStep, attestReport, pageWalk. It rests on the model's own choices too (assumption log 61, 62, 64, 65,
66, 84). -/
def Obligations.DieEngines : Prop :=
  Sys2Proof.Claims.ReductionStepsRule ∧ Sys2Proof.Claims.MoveAndReportStepsRule

/-- R44, R98, R105, R264, R318, R341, R397, R401: how a launch is loaded, starts and completes. The constructors of which it
says where they complete: segmentLoad, launchStart, launchComplete, phaseComplete. It rests on the model's own choices too
(assumption log 71, 72, 95). -/
def Obligations.LaunchLife : Prop :=
  Sys2Proof.Claims.LoadingAndStartRule ∧ Sys2Proof.Claims.CompletionsRule

/-- R322, R323, R325: the loader and the page allocator. The constructors of which it says where they complete:
loaderDescriptor, poolPlace. It rests on the model's own choices too (assumption log 74, 80). -/
def Obligations.LoaderAndPool : Prop :=
  Sys2Proof.Claims.LoaderDescriptorsRule ∧ Sys2Proof.Claims.PoolPlacementRule

/-- R265, R324 to R327, R398 to R403: how launches are saved and go on. The constructors of which it says where they complete:
compact, victimPreempt, parentYield, watchdogSnapshot, watchdogCancel, snapshotClose, restore. It rests on the model's own
choices too (assumption log 74, 75, 76, 77). -/
def Obligations.SavesAndRestores : Prop :=
  Sys2Proof.Claims.AllocatorSavesRule ∧ Sys2Proof.Claims.SnapshotAndRestoreRule

/-- R263: the region window. The constructors of which it says where they complete: rcResume, rcCancel, rcSnapshot, rcselWrite,
rcUnitFrameWrite, rcEsrWrite, rcCvsrWrite, registerWrite, rccmdUnassigned. It rests on the model's own choices too (assumption
log 29, 87, 107). -/
def Obligations.RegionWindow : Prop :=
  Sys2Proof.Claims.RegionRegistersRule ∧ Sys2Proof.Claims.RegionCommandsRule

/-- R8, R302, R332, R370 to R375, R379: the host ports. The constructors of which it says where they complete: ingressSlotWrite,
ingressEosWrite, hostWindowAccess, hostAtomic, hostBadOffset, hwjobWrite, hwbaseWrite. It rests on the model's own choices too
(assumption log 87, 88, 89). -/
def Obligations.HostPorts : Prop :=
  Sys2Proof.Claims.HostRequestsRule ∧ Sys2Proof.Claims.HostWindowRule

/-- R420, R421: the management commands. The constructors of which it says where they complete: registerWrite, mgRelease,
mgPolicy, mgFrame, mgPair, mgKey, mgLog, mgDebug, mgcmdUnassigned. It rests on the model's own choices too (assumption log 90,
91, 92). -/
def Obligations.Management : Prop :=
  Sys2Proof.Claims.ManagementCommandsRule ∧ Sys2Proof.Claims.DebugCommandsRule

/-- R120 to R123, R263: counters, watches and tensor handles. The constructors of which it says where they complete: ctradd,
ctrwait, ctrrd, ctrwaitNb, ctrwatch, thld, thst, thset, thget, thchk. It rests on the model's own choices too (assumption log
12, 20, 21, 23). -/
def Obligations.CountersAndHandles : Prop :=
  Sys2Proof.Claims.CounterWordsRule ∧ Sys2Proof.Claims.HandleWordsRule

/-- R303, R361 to R363, R380 to R386: links, multicast and endpoints. The constructors of which it says where they complete:
lturn, lqry, lfloor, mcst, epbind, epunb. It rests on the model's own choices too (assumption log 28). -/
def Obligations.LinksAndEndpoints : Prop :=
  Sys2Proof.Claims.LinkWordsRule ∧ Sys2Proof.Claims.MulticastAndEndpointsRule
end

