-- ==== Sys2Proof/Laws/Words.lean ====
section
/-!
SUPPORT. What the frame of every C-word does, said once: a check that fails leaves the trap frame alone, a body that
completes lets the thread go on, and one that stops leaves what its stop says (R13, R50, R68).
-/

namespace Sys2Proof.Machine

open Sys2Proof

/-- The checks of R13 pass. -/
theorem decodeChecks_none (i : Instr) (x : UnitRegs) (hf : fieldsOk i = true)
    (hp : privileged i = true → modeM x = true) (ho : operandsOk i = true) : decodeChecks i x = none := by
  unfold decodeChecks
  cases hq : privileged i <;> simp_all

/-- A check of R13 that fails raises its cause, and nothing else happens. -/
theorem cword_check (i : Instr) (s : State) (c : BitVec 8) (body : State → Except Stop State)
    (h : decodeChecks i (me s) = some c) : cword i s body = .next (stopped s i (.trap c 0#8 (wordVal i))) := by
  simp [cword, h]

theorem cflow_check (i : Instr) (s : State) (c : BitVec 8) (body : State → Except Stop (State × Word))
    (h : decodeChecks i (me s) = some c) : cflow i s body = .next (stopped s i (.trap c 0#8 (wordVal i))) := by
  simp [cflow, h]

/-- The same, for an instruction whose meaning is such a frame. -/
theorem exec_cword_check {i : Instr} {s : State} {c : BitVec 8} {body : State → Except Stop State}
    (he : exec i s = cword i s body) (h : decodeChecks i (me s) = some c) :
    exec i s = .next (raise (burn s) s.cur c 0#8 (wordVal i) (me s).pc) := he.trans (cword_check i s c body h)

theorem exec_cflow_check {i : Instr} {s : State} {c : BitVec 8} {body : State → Except Stop (State × Word)}
    (he : exec i s = cflow i s body) (h : decodeChecks i (me s) = some c) :
    exec i s = .next (raise (burn s) s.cur c 0#8 (wordVal i) (me s).pc) := he.trans (cflow_check i s c body h)

/-- A body that completes lets the thread go on at the next word. -/
theorem cword_ok (i : Instr) (s t : State) (body : State → Except Stop State) (h : decodeChecks i (me s) = none)
    (hb : body s = .ok t) : cword i s body = .next (modMe t fun x => goOn x (x.pc + 4#64)) := by
  simp [cword, h, hb]

/-- A body that stops leaves what its stop says. -/
theorem cword_error (i : Instr) (s : State) (e : Stop) (body : State → Except Stop State)
    (h : decodeChecks i (me s) = none) (hb : body s = .error e) : cword i s body = .next (stopped s i e) := by
  simp [cword, h, hb]

theorem cflow_ok (i : Instr) (s t : State) (pc : Word) (body : State → Except Stop (State × Word))
    (h : decodeChecks i (me s) = none) (hb : body s = .ok (t, pc)) :
    cflow i s body = .next (modMe t fun x => goOn x pc) := by
  simp [cflow, h, hb]

theorem cflow_error (i : Instr) (s : State) (e : Stop) (body : State → Except Stop (State × Word))
    (h : decodeChecks i (me s) = none) (hb : body s = .error e) : cflow i s body = .next (stopped s i e) := by
  simp [cflow, h, hb]

/-- A C-word on registers alone: the unit's registers change as it says, and nothing else does. -/
theorem regWord_ok (i : Instr) (s : State) (f : UnitRegs → UnitRegs) (h : decodeChecks i (me s) = none) :
    regWord i s f = .next (setMe s (goOn (f (me s)) ((f (me s)).pc + 4#64))) := by
  rw [regWord, cword_ok i s (modMe s f) _ h rfl, modMe_modMe]
  rfl

/-! ## Registers -/

@[simp] theorem pc_putReg (x : UnitRegs) (c : BitVec 7) (v : Word) : (putReg x c v).pc = x.pc := by
  unfold putReg
  split
  · split <;> rfl
  · rfl
  · rfl
@[simp] theorem pc_shiftLast (x : UnitRegs) (v : Word) : (shiftLast x v).pc = x.pc := rfl
@[simp] theorem pc_writeVal (x : UnitRegs) (c : BitVec 7) (v : Word) : (writeVal x c v).pc = x.pc := by
  simp [writeVal]
@[simp] theorem pc_putPred (x : UnitRegs) (n : BitVec 3) (v : Bool) : (putPred x n v).pc = x.pc := by
  unfold putPred
  split <;> rfl
@[simp] theorem pc_writePred (x : UnitRegs) (c : BitVec 7) (v : Bool) : (writePred x c v).pc = x.pc := by
  unfold writePred
  split <;> simp
@[simp] theorem pc_mergeFlags (x : UnitRegs) (e : BitVec 5) : (mergeFlags x e).pc = x.pc := rfl
@[simp] theorem pc_goOn (x : UnitRegs) (pc : Word) : (goOn x pc).pc = pc := rfl

@[simp] theorem csr_putReg (x : UnitRegs) (c : BitVec 7) (v : Word) : (putReg x c v).csr = x.csr := by
  unfold putReg
  split
  · split <;> rfl
  · rfl
  · rfl
@[simp] theorem csr_writeVal (x : UnitRegs) (c : BitVec 7) (v : Word) : (writeVal x c v).csr = x.csr := by
  simp [writeVal, shiftLast]
@[simp] theorem csr_putPred (x : UnitRegs) (n : BitVec 3) (v : Bool) : (putPred x n v).csr = x.csr := by
  unfold putPred
  split <;> rfl
@[simp] theorem csr_writePred (x : UnitRegs) (c : BitVec 7) (v : Bool) : (writePred x c v).csr = x.csr := by
  unfold writePred
  split <;> simp

end Sys2Proof.Machine
end

