-- ==== Sys2Proof/Laws/Traps.lean ====
section
/-!
SUPPORT. What taking a trap and recording a fault do, said once (R50, R51, R175).
-/

namespace Sys2Proof.Machine

open Sys2Proof

/-! ## STATUS -/

/-- STATUS as a trap leaves it: M and TD set, and PM the old mode. -/
theorem statusWith_trap (st : Word) (m : Bool) :
    statusWith st true m true = (st &&& 0xFFFFFFFFFFFFFFF8#64) ||| (if m then 7#64 else 5#64) := by
  cases m <;> simp [statusWith, word1, BitVec.or_assoc]

/-- STATUS as ERET leaves it: M from PM, and PM and TD clear. -/
theorem statusWith_eret (st : Word) (m : Bool) :
    statusWith st m false false = (st &&& 0xFFFFFFFFFFFFFFF8#64) ||| (if m then 1#64 else 0#64) := by
  cases m <;> simp [statusWith, word1]

/-! ## Records -/

/-- A fault record put to its page: it takes its place among the page's records, and nothing else changes (R173). -/
theorem record_eq (s : State) (p : Place) (kind cause detail value efr pc : Nat) :
    record s p kind cause detail value efr pc =
      setPage s (pageOfTile p.tile) { pageAt s (pageOfTile p.tile) with
        records := insertRecord (faultRecord p kind cause detail value (tbOf s (dieOfTile p.tile)) efr pc)
          (pageAt s (pageOfTile p.tile)).records } := rfl

/-- What holds of a record put among others: it is there, with all of them and nothing else. -/
theorem mem_insertRecord (r x : Bytes) (l : List Bytes) : x ∈ insertRecord r l ↔ x = r ∨ x ∈ l := by
  induction l with
  | nil => simp [insertRecord]
  | cons y l ih =>
    unfold insertRecord
    split
    · simp
    · simp [ih, or_left_comm]
theorem length_insertRecord (r : Bytes) (l : List Bytes) : (insertRecord r l).length = l.length + 1 := by
  induction l with
  | nil => rfl
  | cons y l ih =>
    unfold insertRecord
    split
    · rfl
    · simp [ih]

@[simp] theorem unitAt_record (s : State) (p : Place) (k c d v e pc u : Nat) :
    unitAt (record s p k c d v e pc) u = unitAt s u := rfl
@[simp] theorem mem_record (s : State) (p : Place) (k c d v e pc : Nat) : (record s p k c d v e pc).mem = s.mem := rfl

/-- The fields of a fault record (R175): cause, detail, kind, value and pc. -/
theorem numAt_faultRecord (p : Place) (k c d v tb e pc : Nat) :
    numAt (faultRecord p k c d v tb e pc) 0 1 = c % 256 ∧ numAt (faultRecord p k c d v tb e pc) 1 1 = d % 256 ∧
    numAt (faultRecord p k c d v tb e pc) 2 1 = k % 256 ∧ numAt (faultRecord p k c d v tb e pc) 8 8 = v % 2 ^ 64 ∧
    numAt (faultRecord p k c d v tb e pc) 40 8 = pc % 2 ^ 64 := by
  have h1 : ((faultRecord p k c d v tb e pc).drop 0).take 1 = toBytes 1 c := by simp [faultRecord, toBytes]
  have h2 : ((faultRecord p k c d v tb e pc).drop 1).take 1 = toBytes 1 d := by simp [faultRecord, toBytes]
  have h3 : ((faultRecord p k c d v tb e pc).drop 2).take 1 = toBytes 1 k := by simp [faultRecord, toBytes]
  have h4 : ((faultRecord p k c d v tb e pc).drop 8).take 8 = toBytes 8 v := by simp [faultRecord, toBytes]
  have h5 : ((faultRecord p k c d v tb e pc).drop 40).take 8 = toBytes 8 pc := by simp [faultRecord, toBytes]
  simp only [numAt, h1, h2, h3, h4, h5, ofBytes_toBytes, Nat.reduceMul, Nat.reducePow, and_self]

/-! ## Taking a trap -/

/-- With TD = 0 a trap writes the trap frame of R50 and enters the handler, and nothing else changes. -/
theorem raise_taken (s : State) (u : Nat) (c d : BitVec 8) (v pc : Word) (h : statusTD (unitAt s u) = false) :
    raise s u c d v pc = setUnit s u (enterTrap (unitAt s u) c d v pc) := by
  simp [raise, h]

/-- With TD = 1 the unit is faulted with its registers as they are, and a record of kind 1 is written. -/
theorem raise_double (s : State) (u : Nat) (c d : BitVec 8) (v pc : Word) (h : statusTD (unitAt s u) = true) :
    raise s u c d v pc =
      record (setUnit s u { unitAt s u with st := .faulted, before := .ready, selfFault := true, wait := none })
        (placeOf s u 24) 1 c.toNat d.toNat v.toNat 0 pc.toNat := by
  simp [raise, h, faultUnit]

/-- A trap's stop is the trap itself. -/
theorem stopped_trap (s : State) (i : Instr) (c d : BitVec 8) (v : Word) :
    stopped s i (.trap c d v) = raise (burn s) s.cur c d v (me s).pc := rfl

@[simp] theorem unitAt_burn (s : State) (u : Nat) : unitAt (burn s) u = unitAt s u := rfl
@[simp] theorem cur_burn (s : State) : (burn s).cur = s.cur := rfl
@[simp] theorem pageAt_burn (s : State) (pg : Nat) : pageAt (burn s) pg = pageAt s pg := rfl

end Sys2Proof.Machine
end

