-- ==== Sys2Proof/Laws/Access.lean ====
section
/-!
SUPPORT. What the accesses of C-words do, said once: a translation changes caches, line times and free values alone; a read
adds an event, and a write its bytes (R91 to R93, R296, R316).
-/

namespace Sys2Proof.Machine

open Sys2Proof

/-! ## The parts of memory that are no bytes -/

@[simp] theorem full_walkerReads (m : Memory) (t tb pts : Nat) (l : List Nat) :
    (walkerReads m t tb pts l).1.full = m.full := by
  induction l generalizing m pts with
  | nil => rfl
  | cons a l ih => simp [walkerReads, ih]
@[simp] theorem poisoned_walkerReads (m : Memory) (t tb pts : Nat) (l : List Nat) :
    (walkerReads m t tb pts l).1.poisoned = m.poisoned := by
  induction l generalizing m pts with
  | nil => rfl
  | cons a l ih => simp [walkerReads, ih]
@[simp] theorem full_correctIf (m : Memory) (t : Nat) (p : Nat → Bool) : (correctIf m t p).full = m.full := by
  unfold correctIf
  dsimp only
  split <;> rfl
@[simp] theorem poisoned_correctIf (m : Memory) (t : Nat) (p : Nat → Bool) : (correctIf m t p).poisoned = m.poisoned := by
  unfold correctIf
  dsimp only
  split <;> rfl
@[simp] theorem full_correct (m : Memory) (a n : Nat) : (correct m a n).full = m.full := full_correctIf ..
@[simp] theorem poisoned_correct (m : Memory) (a n : Nat) : (correct m a n).poisoned = m.poisoned := poisoned_correctIf ..
@[simp] theorem full_correctEdges (m : Memory) (a n : Nat) : (correctEdges m a n).full = m.full := full_correctIf ..
@[simp] theorem poisoned_correctEdges (m : Memory) (a n : Nat) : (correctEdges m a n).poisoned = m.poisoned :=
  poisoned_correctIf ..
@[simp] theorem full_leaseLines (m : Memory) (t tb : Nat) (sc : Option Nat) (sa : Bool) (pts : Nat) (l : List Nat) :
    (leaseLines m t tb sc sa pts l).mem.full = m.full := by
  induction l generalizing m pts with
  | nil => rfl
  | cons ln l ih => simp [leaseLines, ih]
@[simp] theorem poisoned_leaseLines (m : Memory) (t tb : Nat) (sc : Option Nat) (sa : Bool) (pts : Nat) (l : List Nat) :
    (leaseLines m t tb sc sa pts l).mem.poisoned = m.poisoned := by
  induction l generalizing m pts with
  | nil => rfl
  | cons ln l ih => simp [leaseLines, ih]
@[simp] theorem full_stampLines (m : Memory) (t tb : Nat) (sc : Option Nat) (sa : Bool) (pts : Nat) (l : List Nat) :
    (stampLines m t tb sc sa pts l).mem.full = m.full := by
  induction l generalizing m pts with
  | nil => rfl
  | cons ln l ih => simp [stampLines, ih]
@[simp] theorem poisoned_stampLines (m : Memory) (t tb : Nat) (sc : Option Nat) (sa : Bool) (pts : Nat)
    (l : List Nat) : (stampLines m t tb sc sa pts l).mem.poisoned = m.poisoned := by
  induction l generalizing m pts with
  | nil => rfl
  | cons ln l ih => simp [stampLines, ih]
@[simp] theorem full_readEvent (m : Memory) (a n t tb : Nat) (sc : Option Nat) (sa : Bool) (pts : Nat) :
    (readEvent m a n t tb sc sa pts).mem.full = m.full := by simp [readEvent]
@[simp] theorem poisoned_readEvent (m : Memory) (a n t tb : Nat) (sc : Option Nat) (sa : Bool) (pts : Nat) :
    (readEvent m a n t tb sc sa pts).mem.poisoned = m.poisoned := by simp [readEvent]
@[simp] theorem full_atomicEvent (m : Memory) (a n t tb : Nat) (sc : Option Nat) (sa : Bool) (pts : Nat) :
    (atomicEvent m a n t tb sc sa pts).mem.full = m.full := by simp [atomicEvent]
@[simp] theorem poisoned_atomicEvent (m : Memory) (a n t tb : Nat) (sc : Option Nat) (sa : Bool) (pts : Nat) :
    (atomicEvent m a n t tb sc sa pts).mem.poisoned = m.poisoned := by simp [atomicEvent]
@[simp] theorem full_wrByte (m : Memory) (a : Nat) (b : Byte) : (wrByte m a b).full = m.full := rfl
@[simp] theorem full_wrBytes (m : Memory) (a : Nat) (l : List Byte) : (wrBytes m a l).full = m.full := by
  induction l generalizing m a with
  | nil => rfl
  | cons b l ih => simp [wrBytes, ih]
@[simp] theorem full_clearPoison (m : Memory) (a n : Nat) : (clearPoison m a n).full = m.full := rfl
@[simp] theorem full_writeEvent (m : Memory) (a : Nat) (bs : List Byte) (t tb : Nat) (sc : Option Nat) (sa : Bool)
    (pts : Nat) : (writeEvent m a bs t tb sc sa pts).mem.full = m.full := by simp [writeEvent]

theorem rdBytes_of_cells {m n : Memory} (h : n.cells = m.cells) (a k : Nat) : rdBytes n a k = rdBytes m a k := by
  induction k generalizing a with
  | zero => rfl
  | succ k ih => simp [rdBytes, ih, rdByte_of_cells h]
theorem rdNum_of_cells {m n : Memory} (h : n.cells = m.cells) (a k : Nat) : rdNum n a k = rdNum m a k := by
  simp [rdNum, rdBytes_of_cells h]
theorem rd64_of_cells {m n : Memory} (h : n.cells = m.cells) (a : Nat) : rd64 n a = rd64 m a := by
  simp [rd64, rdNum_of_cells h]
theorem poisonedIn_of_poisoned {m n : Memory} (h : n.poisoned = m.poisoned) (a k : Nat) :
    poisonedIn n a k = poisonedIn m a k := by
  simp [poisonedIn, h]
theorem isFull_of_full {m n : Memory} (h : n.full = m.full) (a : Nat) : isFull n a = isFull m a := by
  simp [isFull, h]

/-! ## Translation -/

/-- A translation changes the caches of a page, the times of table lines, and the count of free values, and nothing else:
no byte, no tag, no register. -/
theorem translate_frame (s : State) (q : Requester) (k : Access) (va : Word) :
    (translate s q k va).2 = { s with
      free := (translate s q k va).2.free
      pages := (translate s q k va).2.pages
      mem := (translate s q k va).2.mem } ∧
    (translate s q k va).2.mem.cells = s.mem.cells ∧ (translate s q k va).2.mem.full = s.mem.full ∧
    (translate s q k va).2.mem.poisoned = s.mem.poisoned := by
  unfold translate
  split
  · exact ⟨rfl, rfl, rfl, rfl⟩
  split
  · exact ⟨rfl, rfl, rfl, rfl⟩
  dsimp only
  split
  · exact ⟨rfl, rfl, rfl, rfl⟩
  · split
    · exact ⟨rfl, by simp [afterWalk], by simp [afterWalk], by simp [afterWalk]⟩
    · exact ⟨rfl, by simp [setPage, afterWalk], by simp [setPage, afterWalk], by simp [setPage, afterWalk]⟩

/-- The same of an address that a C-word has checked and translated (R91). -/
theorem address_frame {s t : State} {k : Access} {va : Word} {n : Nat} {x : XOk} (h : address s k va n = .ok (x, t)) :
    t = { s with free := t.free, pages := t.pages, mem := t.mem } ∧ t.mem.cells = s.mem.cells ∧
    t.mem.full = s.mem.full ∧ t.mem.poisoned = s.mem.poisoned := by
  have hf := translate_frame s (requester s s.cur) k va
  unfold address checkAddr checkAligned need' at h
  simp only [bind, Except.bind] at h
  split at h
  · cases h
  · unfold xlateC at h
    split at h
    · rename_i heq
      cases h
      rw [heq] at hf
      exact hf
    · cases h
    · cases h

/-- An address that passes is canonical, aligned, and translates (R91). -/
theorem address_ok {s t : State} {k : Access} {va : Word} {n : Nat} {x : XOk} (hc : canonical va = true)
    (ha : va.toNat % n = 0) (hx : translate s (requester s s.cur) k va = (.ok x, t)) : address s k va n = .ok (x, t) := by
  simp [address, checkAddr, checkAligned, need', hc, ha, xlateC, hx, bind, Except.bind]

/-! ## Events of a thread -/

/-- The unit after an access of its own: its time moves on, and a breach is counted at the end of the cycle and, under SBTE,
made pending (R52, R86, R294, R296). -/
def afterAccess (x : UnitRegs) (scope : Option Nat) (va : Word) (e : MemEvent) : UnitRegs :=
  let y := { x with pts := e.pts }
  match scope with
  | some c =>
    if e.br then
      let z := { y with newBr := y.newBr + 1 }
      if statusSBTE z then { z with pend := z.pend ++ [⟨0x10#8, BitVec.ofNat 8 c, va⟩] } else z
    else y
  | none => y

theorem putPacket_frame (s : State) (p : Packet) : putPacket s p = { s with arbiters := (putPacket s p).arbiters } := by
  unfold putPacket
  cases p.path <;> rfl
theorem sendPacket_frame (s : State) (u a : Nat) :
    sendPacket s u a = { s with arbiters := (sendPacket s u a).arbiters } := putPacket_frame s _

theorem unitAt_modMe (s : State) (f : UnitRegs → UnitRegs) : unitAt (modMe s f) s.cur = f (me s) :=
  unitAt_setUnit s s.cur _
theorem unitAt_sendPacket (s : State) (u a v : Nat) : unitAt (sendPacket s u a) v = unitAt s v := by
  rw [sendPacket_frame]
  rfl

/-- A breach counts for its unit alone. -/
theorem breach_eq (s : State) (u scope : Nat) (va : Word) : ∃ x, breach s u scope va = setUnit s u x := ⟨_, rfl⟩

/-- What the event of a thread's access leaves: memory, the issuing unit, and the packet on its way; nothing else. -/
theorem putEvent_frame (s : State) (pa : Nat) (scope : Option Nat) (va : Word) (e : MemEvent) :
    putEvent s pa scope va e = { s with
      mem := e.mem
      units := (putEvent s pa scope va e).units
      arbiters := (putEvent s pa scope va e).arbiters } ∧
    unitAt (putEvent s pa scope va e) s.cur = afterAccess (me s) scope va e ∧
    ∀ u, u ≠ s.cur → unitAt (putEvent s pa scope va e) u = unitAt s u := by
  let s1 := modMe { s with mem := e.mem } fun x => { x with pts := e.pts }
  have h1 : unitAt s1 s.cur = { me s with pts := e.pts } := unitAt_modMe { s with mem := e.mem } _
  have h2 : ∀ u, u ≠ s.cur → unitAt s1 u = unitAt s u := fun u hu => unitAt_modMe_ne { s with mem := e.mem } u _ hu
  cases scope with
  | none =>
    have h : putEvent s pa none va e = sendPacket s1 s.cur pa := rfl
    rw [h]
    refine ⟨?_, ?_, ?_⟩
    · rw [sendPacket_frame]
      rfl
    · rw [unitAt_sendPacket]
      exact h1
    · intro u hu
      rw [unitAt_sendPacket]
      exact h2 u hu
  | some c =>
    have h : putEvent s pa (some c) va e = sendPacket (if e.br then breach s1 s.cur c va else s1) s.cur pa := rfl
    rw [h]
    refine ⟨?_, ?_, ?_⟩
    · rw [sendPacket_frame]
      split <;> rfl
    · rw [unitAt_sendPacket]
      unfold afterAccess
      cases he : e.br
      · exact h1
      · change unitAt (breach s1 s.cur c va) s.cur = _
        rw [breach, unitAt_setUnit, h1]
        rfl
    · intro u hu
      rw [unitAt_sendPacket]
      split
      · obtain ⟨x, hx⟩ := breach_eq s1 s.cur c va
        rw [hx, unitAt_setUnit_ne _ _ _ _ hu]
        exact h2 u hu
      · exact h2 u hu

/-- A read of memory that finds no poison: the bytes, and the state after its event. -/
theorem readC_ok (s : State) (x : XOk) (n : Nat) (scope : Option Nat) (va : Word) (hr : isRegion x.pa = false)
    (h : poisonedIn s.mem x.pa n = none) :
    readC s x n scope va = .ok (rdBytes s.mem x.pa n,
      putEvent s x.pa scope va (readEvent s.mem x.pa n (tileOf s.cur) s.tb scope x.sa (me s).pts)) := by
  simp [readC, regionSize, need', needClean, hr, h, bind, Except.bind]

/-- A write to memory that no pinned round holds up. -/
theorem writeC_ok (s : State) (x : XOk) (bs : List Byte) (scope : Option Nat) (va : Word)
    (hr : isRegion x.pa = false) (h : pinnedRange s none x.pa bs.length = false) :
    writeC s x bs scope va =
      .ok (putEvent s x.pa scope va (writeEvent s.mem x.pa bs (tileOf s.cur) s.tb scope x.sa (me s).pts)) := by
  simp [writeC, regionSize, need', hr, h, bind, Except.bind]

end Sys2Proof.Machine
end

