-- ==== Sys2Proof/Tests/Slice0.lean ====
section
/-!
SUPPORT. Tests: words written out from the tables of 01_encodings.md and read by the decoder, terms that WellFormed refuses,
and for each statement of Certificates/Slice0/Obligations.lean states and operands that meet its hypotheses.
-/

namespace Sys2Proof.Tests

open Sys2Proof Sys2Proof.Machine Sys2Proof.Claims

set_option Elab.async false

/-! ## Small states -/

/-- A launch of one tile and two contexts at tile 0 of die 0, of the system job. -/
def lch : Launch :=
  { job := 0, depth := 0, cfgid := 7#64, image := 0#64, arg := 0#64, lctr := 0#64, gctr := 0#64, deadline := 0, st := .running,
    nctx := 2 }

/-- The state at reset with an identity map of the first GiB in three tables (R313), one launch, and its first unit. -/
def st (x : UnitRegs) : State :=
  { State.reset with
    mem := { cells := [(0, 0x01#8), (1, 0x10#8), (0x1000, 0x01#8), (0x1001, 0x20#8), (0x2000, 0x1F#8)] }
    launches := [(1, lch)]
    units := [(0, x)] }

/-- A unit of that launch with g4 and g5 given, in system mode. -/
def ux (a b : Word) : UnitRegs :=
  { st := .ready, launch := 1, pc := 0x4000#64, g := ((Vector.replicate 64 0#64).set 4 a).set 5 b
    csr := { status := 1#64, trapvec := 0x100#64 } }

/-- The state with that unit. -/
def sx (a b : Word) : State := st (ux a b)

/-- That unit in user mode. -/
def uu (a b : Word) : UnitRegs := { ux a b with csr := { status := 0#64, trapvec := 0x100#64 } }

theorem translated {s : State} {q : Requester} {k : Access} {va : Word} {x : XOk}
    (h : (match (translate s q k va).1 with | .ok y => decide (y = x) | .error _ => false) = true) :
    translate s q k va = (.ok x, (translate s q k va).2) := by
  revert h
  rcases translate s q k va with ⟨_ | y, r⟩ <;> simp

theorem untranslated {s : State} {q : Requester} {k : Access} {va : Word} {x : XFail}
    (h : (match (translate s q k va).1 with | .ok _ => false | .error y => decide (y = x)) = true) :
    translate s q k va = (.error x, (translate s q k va).2) := by
  revert h
  rcases translate s q k va with ⟨y | _, r⟩ <;> simp

theorem okOf {ε α : Type} {e : Except ε α} (h : e.toOption.isSome = true) : e = .ok (e.toOption.get h) := by
  cases e with
  | error _ => cases h
  | ok _ => rfl

theorem someOf {α : Type} {o : Option α} (h : o.isSome = true) : o = some (o.get h) := by
  cases o with
  | none => cases h
  | some _ => rfl

/-- The answer of an operation that may stop. -/
def answers {ε α : Type} [DecidableEq α] : Except ε α → α → Bool
  | .ok b, a => decide (b = a)
  | .error _, _ => false

theorem answered {ε α : Type} [DecidableEq α] {e : Except ε α} {a : α} (h : answers e a = true) : e = .ok a := by
  cases e with
  | error _ => cases h
  | ok _ => exact congrArg _ (of_decide_eq_true h)

theorem addressed {s : State} {k : Access} {va : Word} {n : Nat} {x : XOk}
    (h : canonical va = true ∧ va.toNat % n = 0 ∧
      (match (translate s (requester s s.cur) k va).1 with | .ok y => decide (y = x) | .error _ => false) = true) :
    address s k va n = .ok (x, (translate s (requester s s.cur) k va).2) := by
  obtain ⟨h1, h2, h3⟩ := h
  have e1 : checkAddr va n = .ok () := by
    unfold checkAddr checkAligned need'
    rw [h1, decide_eq_true h2]
    rfl
  have e2 : xlateC s k va = .ok (x, (translate s (requester s s.cur) k va).2) := by
    unfold xlateC
    rw [translated h3]
  unfold address
  rw [e1]
  exact e2

/-- The state with one operation at an element of the unit's context, a route at its output, what stands at its inputs, and
its arguments and work. -/
def cell (e : Nat) (w : BitVec 32) (fs : List (Nat × List Token)) (k : Work) : State :=
  { sx 0#64 0#64 with
    banks := [(0, { words := { ewords := [(e, w)], swords := [BitVec.ofNat 16 (256 * (8 + e % 8))] }, launch := some 1 })]
    elems := [(e, { work := k })]
    fifos := fs.map fun p => (4 * e + p.1, { q := p.2 })
    curElem := e }

/-- The arguments of an operation. -/
def args (a b c d : Word) : Vector Word 8 := #v[a, b, c, d, 0#64, 0#64, 0#64, 0#64]

/-- The state in which an element's firing takes place. -/
def started (s : State) : State := (enterRound (withCommands s)).toOption.getD s

theorem starts {s : State} (h : (canAct s s.cur s.curElem && hasCredit s s.cur s.curElem &&
    (enterRound (withCommands s)).toOption.isSome) = true) : Starts s (started s) := by
  rw [Bool.and_eq_true, Bool.and_eq_true] at h
  refine ⟨h.1.1, h.1.2, ?_⟩
  unfold started
  have h2 := h.2
  revert h2
  cases enterRound (withCommands s) with
  | error _ => intro h; cases h
  | ok _ => intro _; rfl

theorem ready {s : State} (h : (canAct s s.cur s.curElem && hasCredit s s.cur s.curElem &&
    (enterRound (withCommands s)).toOption.isSome) = true) (h2 : routedOut (bankAt s s.cur) s.curElem = true) :
    Ready s (started s) :=
  ⟨(starts h).1, (starts h).2.1, (starts h).2.2, h2⟩

/-- What Offered asks, as a check. -/
def offers (s : State) (ps : List Port) (m : Nat) : Bool :=
  ((owners ps).any fun p => (heldAt s p).isNone) &&
  ps.all fun p => decide ((present s ps m p).length = m) && (present s ps m p).all (fun t => decide (t.ty = tyData)) &&
    match (portFifo s p).q.head? with
    | some t => decide (t.ty ≠ tyCfg) && decide (t.ty ≠ tyMrk)
    | none => true

theorem offered {s : State} {ps : List Port} {m : Nat} (h : offers s ps m = true) : Offered s ps m := by
  unfold offers at h
  simp only [Bool.and_eq_true, List.any_eq_true, List.all_eq_true, decide_eq_true_eq] at h
  obtain ⟨⟨p, hp, h1⟩, h2⟩ := h
  refine ⟨⟨p, hp, Option.isNone_iff_eq_none.mp h1⟩, fun q hq => ?_⟩
  obtain ⟨⟨h3, h4⟩, h5⟩ := h2 q hq
  refine ⟨h3, h4, fun t ht => ?_⟩
  rw [ht] at h5
  simpa using h5

theorem xlated {s : State} {q : Requester} {k : Access} {va : Word} {x : XOk}
    (h : (match (translate s q k va).1 with | .ok y => decide (y = x) | .error _ => false) = true) :
    xlateD s q k va = some (x, (translate s q k va).2) := by
  unfold xlateD
  rw [translated h]

theorem failed {ε α : Type} [DecidableEq ε] {e : Except ε α} {x : ε}
    (h : (match e with | .ok _ => false | .error y => decide (y = x)) = true) : e = .error x := by
  cases e with
  | ok _ => cases h
  | error y => exact congrArg _ (of_decide_eq_true h)

/-! ## Arithmetic, compares, control transfer, floating point -/

theorem met_integerWords : ∃ s i d v, valueResult (me s) i = some (d, v) ∧ Legal i s :=
  ⟨sx 5#64 7#64, .add 6#7 4#7 5#7, 6#7, 12#64, by decide⟩

theorem met_divisionCorners_zero : ∃ s d a b, readVal (me s) b = 0#64 ∧ Legal (.div d a b) s :=
  ⟨sx 5#64 0#64, 6#7, 4#7, 5#7, by decide⟩

theorem met_divisionCorners_overflow : ∃ s d a b, readVal (me s) a = 0x8000000000000000#64 ∧
    readVal (me s) b = 0xFFFFFFFFFFFFFFFF#64 ∧ Legal (.div d a b) s :=
  ⟨sx 0x8000000000000000#64 0xFFFFFFFFFFFFFFFF#64, 6#7, 4#7, 5#7, by decide⟩

theorem met_predicateWords : ∃ s i d v, predResult (me s) i = some (d, v) ∧ Legal i s :=
  ⟨sx 5#64 7#64, .cmplt 0x51#7 4#7 5#7, 0x51#7, true, by decide⟩

theorem met_controlTransfers : ∃ s i w t, flowResult (me s) i = some (w, t) ∧ Legal i s ∧ t.toNat % 4 = 0 :=
  ⟨sx 5#64 1#64, .loop 5#7 0x3FFFC#19, some (5#7, 0#64), 0x4004#64, by decide⟩

theorem met_jumpMisaligned : ∃ s d a, Legal (.jr a) s ∧ Legal (.jalr d a) s ∧ (readVal (me s) a).toNat % 4 ≠ 0 :=
  ⟨sx 0x4002#64 0#64, 6#7, 4#7, by decide⟩

theorem met_jumpMisaligned_ret : ∃ s, (readVal (me s) 0x3E#7).toNat % 4 ≠ 0 :=
  ⟨st { ux 0#64 0#64 with g := Vector.replicate 64 3#64 }, by decide⟩

theorem met_floatingWords : ∃ s i w e, floatResult (me s) i = some (w, e) ∧ Legal i s ∧ e &&& statusFPTE (me s) = 0#5 :=
  ⟨sx 0x3FF0000000000000#64 0x4000000000000000#64, .fadd 6#7 4#7 5#7, .inl (6#7, 0x4008000000000000#64), 0#5, by decide⟩

theorem met_floatingTraps : ∃ s i w e, floatResult (me s) i = some (w, e) ∧ Legal i s ∧ e &&& statusFPTE (me s) ≠ 0#5 :=
  ⟨st { ux 0x3FF0000000000000#64 0#64 with csr := { status := 0x1F01#64 } }, .fdiv 6#7 4#7 5#7,
   .inl (6#7, 0x7FF0000000000000#64), 8#5, by decide⟩

/-! ## Decoding, steps, registers, traps, CSRs -/

theorem met_encodeDecode : fieldsOk (.ldd 5#7 3#7 1#3 2#7) = true := by decide

/-- The state about to issue its unit's C-word, which stands at 0x4000. -/
def issuing (x : UnitRegs) (w : BitVec 32) : State :=
  { st x with mem := wrNum (st x).mem 0x4000 4 w.toNat, agenda := [.issue 0] }

theorem met_stepRunsCWord : ∃ (s : State) (x : XOk) (i : Instr), s.held = false ∧ s.agenda = .issue 0 :: [] ∧
    mayIssue { s with agenda := [] } 0 = true ∧ boundaryDue { s with agenda := [] } 0 = false ∧
    (∃ r, translate (beginIssue { s with agenda := [] } 0) (requester (beginIssue { s with agenda := [] } 0) 0) .fetch
      (unitAt (beginIssue { s with agenda := [] } 0) 0).pc = (.ok x, r) ∧
      decodeC (BitVec.ofNat 32 (rdNum r.mem x.pa 4)) = .ok i) :=
  ⟨issuing (ux 5#64 7#64) 0x042860E0#32, ⟨0x4000, 3, 7#6⟩, .add 5#7 6#7 7#7, by decide, by decide, by decide, by decide,
   _, translated (by decide), rfl⟩

theorem met_stepRunsCWord_illegal : ∃ (s : State) (x : XOk) (e : DecodeError), s.held = false ∧ s.agenda = .issue 0 :: [] ∧
    mayIssue { s with agenda := [] } 0 = true ∧ boundaryDue { s with agenda := [] } 0 = false ∧
    (∃ r, translate (beginIssue { s with agenda := [] } 0) (requester (beginIssue { s with agenda := [] } 0) 0) .fetch
      (unitAt (beginIssue { s with agenda := [] } 0) 0).pc = (.ok x, r) ∧
      decodeC (BitVec.ofNat 32 (rdNum r.mem x.pa 4)) = .error e) :=
  ⟨issuing (ux 5#64 7#64) 0#32, ⟨0x4000, 3, 7#6⟩, .zeroMajor, by decide, by decide, by decide, by decide,
   _, translated (by decide), rfl⟩

theorem met_stepRunsCWord_fetch : ∃ (s : State) (f : XFail), s.held = false ∧ s.agenda = .issue 0 :: [] ∧
    mayIssue { s with agenda := [] } 0 = true ∧ boundaryDue { s with agenda := [] } 0 = false ∧
    ∃ r, translate (beginIssue { s with agenda := [] } 0) (requester (beginIssue { s with agenda := [] } 0) 0) .fetch
      (unitAt (beginIssue { s with agenda := [] } 0) 0).pc = (.error f, r) :=
  ⟨issuing { ux 5#64 7#64 with pc := 0x40000000#64 } 0#32, .cause 5#8 0#8, by decide, by decide, by decide, by decide,
   _, untranslated (by decide)⟩

/-- The state with one E-word at an element of slot 0 and one S-word. -/
def placed (e : Nat) (w : BitVec 32) (a : Action) : State :=
  { sx 0#64 0#64 with banks := [(0, { words := { ewords := [(e, w)], swords := [0x9300#16] } })], agenda := [a] }

/-- A DATA token. -/
def dat1 : Token := { ty := tyData, data := 1#512 }

theorem met_stepRunsDatapath_fire : ∃ (s : State) (i : Instr) (r : State), s.held = false ∧ s.agenda = [.fire 0 0] ∧
    boundaryStep { s with agenda := [] } 0 0 = none ∧ ewordAt { s with agenda := [] } 0 0 ≠ 0#32 ∧
    decodeE (ewordAt { s with agenda := [] } 0 0) = .ok i ∧
    (isFiring (dueAct { s with agenda := [] } 0 0) && elementHeld { s with agenda := [] } 0 0) = false ∧
    exec i (asElem { s with agenda := [] } 0 0) = .next r :=
  ⟨{ placed 0 0x0303C040#32 (.fire 0 0) with fifos := [(0, { q := [dat1] }), (1, { q := [dat1] })] }, _, _, by decide,
   by decide, by decide, by decide, rfl, by decide, rfl⟩

theorem met_stepRunsDatapath_boundary : ∃ (s : State) (b : Event) (r : State), s.held = false ∧ s.agenda = [.fire 0 0] ∧
    boundaryStep { s with agenda := [] } 0 0 = some b ∧
    (isFiring (dueAct { s with agenda := [] } 0 0) && elementHeld { s with agenda := [] } 0 0) = false ∧
    exec b.instr (asElem { s with agenda := [] } 0 0) = .next r :=
  ⟨{ placed 0 0x0303C040#32 (.fire 0 0) with
     fifos := [(0, { q := [{ ty := 3#4, rank := 1#2 }] }), (1, { q := [{ ty := 3#4, rank := 1#2 }] })] }, .eosStep 0 0, _,
   by decide, by decide, by decide, by decide, rfl⟩

theorem met_stepRunsDatapath_held : ∃ s : State, s.held = false ∧ s.agenda = [.fire 0 0] ∧
    isFiring (dueAct { s with agenda := [] } 0 0) = true ∧ elementHeld { s with agenda := [] } 0 0 = true :=
  ⟨{ placed 0 0x20020000#32 (.fire 0 0) with fifos := [(0, { q := [dat1, dat1] }), (1, { q := [dat1, dat1] })], fired := [0] }, by decide⟩

theorem met_stepRunsDatapath_route : ∃ (s : State) (w : BitVec 16), s.held = false ∧ s.agenda = [.route 0 0] ∧
    swordAt { s with agenda := [] } 0 0 = some w ∧ ∃ i, decodeS w = .ok i :=
  ⟨placed 0 0#32 (.route 0 0), 0x9300#16, by decide, by decide, by decide, _, rfl⟩

theorem met_stepRunsDatapath_event : ∃ s : State, s.held = false ∧ s.agenda = [.event .kill] :=
  ⟨placed 0 0#32 (.event .kill), by decide⟩

theorem met_registerFile : OperandKind.valueDst.accepts 0#7 = true ∧ OperandKind.valueDst.accepts 0x47#7 = true := by decide

theorem met_predicateFile : (7#3 : BitVec 3) ≠ 0#3 := by decide

theorem met_registerWordFrame : ∃ s i d v, Legal i s ∧ valueResult (me s) i = some (d, v) :=
  ⟨sx 5#64 7#64, .add 0#7 4#7 5#7, 0#7, 12#64, by decide⟩

theorem met_registerWordFrame_pred : ∃ s i d v, Legal i s ∧ predResult (me s) i = some (d, v) :=
  ⟨sx 5#64 7#64, .pnot 0x57#7 0x50#7, 0x57#7, false, by decide⟩

theorem met_registerWordFrame_float : ∃ s i w e, Legal i s ∧ floatResult (me s) i = some (w, e) ∧
    e &&& statusFPTE (me s) = 0#5 :=
  ⟨sx 0x3FF0000000000000#64 0#64, .fneg 6#7 4#7, .inl (6#7, 0xBFF0000000000000#64), 0#5, by decide⟩

theorem met_registerWordFrame_flow : ∃ s i w p, Legal i s ∧ flowResult (me s) i = some (w, p) ∧ p.toNat % 4 = 0 :=
  ⟨sx 5#64 7#64, .call 0x3FFFFF#22, some (0x3E#7, 0x4004#64), 0x3FFC#64, by decide⟩

theorem met_checkOrder : ∃ s i c, kindOf i = .cword ∧ firstCause (me s) i = some c :=
  ⟨st (uu 0#64 0#64), .csrw 0x60#7 0x70#7 0x005#12, 3#8, by decide⟩

theorem met_privilegedWords : ∃ s i, listed i ∧ fieldsOk i = true ∧ modeM (me s) = false :=
  ⟨st (uu 0#64 0#64), .eret, trivial, by decide, by decide⟩

theorem met_trapAndBreak_td0 : statusTD (me (sx 0#64 0#64)) = false := by decide

theorem met_trapAndBreak_td1 : statusTD (me State.reset) = true := by decide

theorem met_returnFromTrap : ∃ s, modeM (me s) = true := ⟨sx 0#64 0#64, by decide⟩

theorem met_returnFromTrap_user : ∃ s, modeM (me s) = false := ⟨st (uu 0#64 0#64), by decide⟩

theorem met_fetchFaults : ∃ s c d t, translate s (requester s s.cur) .fetch (me s).pc = (.error (.cause c d), t) ∧
    statusTD (me s) = false :=
  ⟨st { ux 0#64 0#64 with pc := 0x40000000#64 }, 5#8, 0#8, _, untranslated (by decide), by decide⟩

theorem met_csrWords_read : ∃ s i d c, Legal i s ∧ i = .csrr d c ∧ csrClass c ≠ .unassigned :=
  ⟨sx 0#64 0#64, _, 4#7, 0x008#12, by decide, rfl, by decide⟩

theorem met_csrWords_noRead : ∃ s i d c, Legal i s ∧ i = .csrr d c ∧ csrClass c = .unassigned :=
  ⟨sx 0#64 0#64, _, 4#7, 0x00F#12, by decide, rfl, by decide⟩

theorem met_csrWords_write : ∃ s i c v d, Legal i s ∧ csrNew (me s) i = some (c, v, d) ∧ csrClass c = .system ∧
    csrRefused c v = false :=
  ⟨sx 128#64 0#64, .csrw 6#7 4#7 6#12, 6#12, 128#64, 6#7, by decide⟩

theorem met_csrWords_refused : ∃ s i c v d, Legal i s ∧ csrNew (me s) i = some (c, v, d) ∧ csrRefused c v = true :=
  ⟨sx 129#64 0#64, .csrw 6#7 4#7 6#12, 6#12, 129#64, 6#7, by decide⟩

theorem met_csrTable : csrClass 0#12 = .system ∧ csrClass 0x00C#12 = .user := by decide

/-! ## Accesses -/

/-- The local window of the launch's scratchpad (R291) and where it lies. -/
def lb : Word := 0x00FFFFFFFFFC0000#64
/-- The translation of the local window's byte n. -/
def spad (n : Nat) : XOk := ⟨0x1000000000000 + n, 0, 0#6⟩

/-- The state with a word of the scratchpad's beginning full. -/
def filled (s : State) : State := { s with mem := { s.mem with full := [0x1000000000000] } }

/-- The state with that word poisoned. -/
def poisoned (s : State) : State := { s with mem := { s.mem with poisoned := [0x1000000000000] } }

theorem met_loads : ∃ s i d n c g va x r, loadForm (me s) i = some (d, n, c, g, va) ∧ Legal i s ∧ canonical va = true ∧
    va.toNat % n = 0 ∧ translate s (requester s s.cur) .read va = (.ok x, r) ∧ isRegion x.pa = false ∧
    poisonedIn s.mem x.pa n = none :=
  ⟨sx lb 7#64, .ldh 6#7 4#7 1#3 1#7, 6#7, 2, some 1, true, lb + 2#64, spad 2, _, by decide, by decide, by decide, by decide,
   translated (by decide), by decide, by decide⟩

theorem met_stores : ∃ s i v n c va x r, storeForm (me s) i = some (v, n, c, va) ∧ Legal i s ∧ canonical va = true ∧
    va.toNat % n = 0 ∧ translate s (requester s s.cur) .write va = (.ok x, r) ∧ isRegion x.pa = false ∧
    pinnedRange s none x.pa n = false :=
  ⟨sx lb 0x123#64, .stw 5#7 4#7 0#3 1#7, 0x123#64, 4, some 0, lb + 4#64, spad 4, _, by decide, by decide, by decide, by decide,
   translated (by decide), by decide, by decide⟩

theorem met_accessTraps_canonical : ∃ s i va n k, accessForm (me s) i = some (va, n, k) ∧ Legal i s ∧ canonical va = false :=
  ⟨sx 0x0200000000000000#64 0#64, .ldf 6#7 4#7, 0x0200000000000000#64, 8, .read, by decide⟩

theorem met_accessTraps_aligned : ∃ s i va n k, accessForm (me s) i = some (va, n, k) ∧ Legal i s ∧ canonical va = true ∧
    va.toNat % n ≠ 0 :=
  ⟨sx 12#64 0#64, .amoadd 6#7 4#7 5#7, 12#64, 8, .atomic, by decide⟩

theorem met_accessTraps_translated : ∃ s i va n k c d r, accessForm (me s) i = some (va, n, k) ∧ Legal i s ∧
    canonical va = true ∧ va.toNat % n = 0 ∧ translate s (requester s s.cur) k va = (.error (.cause c d), r) :=
  ⟨sx 0x40000000#64 0#64, .ldd 6#7 4#7 0#3 0#7, 0x40000000#64, 8, .read, 5#8, 0#8, _, by decide, by decide, by decide,
   by decide, untranslated (by decide)⟩

theorem met_taggedWords : ∃ s i va nd k f w p x r,
    taggedResult (me s) (isFull s.mem x.pa) (rd64 s.mem x.pa) i = some (va, k, nd, f, w, p) ∧ Legal i s ∧
    canonical va = true ∧ va.toNat % 8 = 0 ∧ translate s (requester s s.cur) k va = (.ok x, r) ∧ isSpad x.pa = true ∧
    x.pa % 8 = 0 ∧ poisonedIn s.mem x.pa 8 = none ∧ pinnedRange s none x.pa 8 = false ∧ ∀ q ∈ s.twaiters, q.pa ≠ x.pa :=
  ⟨filled (sx lb 0#64), .ldfeNb 6#7 4#7, lb, 0#64, .atomic, false, some (6#7, 0#64), some (0x57#7, true), spad 0, _,
   rfl, by decide, by decide, by decide, translated (by decide), by decide, by decide, by decide, by decide, by decide⟩

theorem met_taggedParking : ∃ s d a x r, isFull s.mem x.pa = false ∧ Legal (.ldfe d a) s ∧
    canonical (readVal (me s) a) = true ∧ (readVal (me s) a).toNat % 8 = 0 ∧
    translate s (requester s s.cur) .atomic (readVal (me s) a) = (.ok x, r) ∧ isSpad x.pa = true ∧
    poisonedIn s.mem x.pa 8 = none :=
  ⟨sx lb 0#64, 6#7, 4#7, spad 0, _, by decide, by decide, by decide, by decide, translated (by decide), by decide, by decide⟩

/-- The state with the launch's second unit parked at the scratchpad's first word. -/
def parkedAt (a b : Word) : State :=
  { sx a b with
    units := [(0, ux a b), (1, { ux a b with st := .waiting, wait := some { kind := .tagWord, value := lb } })]
    twaiters := [{ pa := 0x1000000000000, who := 1, elem := false, full := true, clear := true, reg := 9#7 }] }

theorem met_taggedWaiterServed : ∃ s a b q x r, Legal (.stf a b) s ∧ canonical (readVal (me s) a) = true ∧
    (readVal (me s) a).toNat % 8 = 0 ∧ translate s (requester s s.cur) .write (readVal (me s) a) = (.ok x, r) ∧
    isSpad x.pa = true ∧ x.pa % 8 = 0 ∧ pinnedRange s none x.pa 8 = false ∧ s.twaiters = [q] ∧ q.pa = x.pa ∧
    q.full = true ∧ q.elem = false ∧ q.who ≠ s.cur ∧ (unitAt s q.who).st = .waiting :=
  ⟨parkedAt lb 9#64, 4#7, 5#7, _, spad 0, _, by decide, by decide, by decide, translated (by decide), by decide, by decide,
   by decide, rfl, by decide⟩

theorem met_atomics : ∃ s i d va nw x r, atomicResult (me s) (rd64 s.mem x.pa) i = some (d, va, nw) ∧ Legal i s ∧
    canonical va = true ∧ va.toNat % 8 = 0 ∧ translate s (requester s s.cur) .atomic va = (.ok x, r) ∧
    isRegion x.pa = false ∧ poisonedIn s.mem x.pa 8 = none ∧ pinnedRange s none x.pa 8 = false :=
  ⟨sx 0x8000#64 3#64, .amocas 6#7 4#7 5#7, 6#7, 0x8000#64, some 3#64, ⟨0x8000, 3, 7#6⟩, _, by decide, by decide, by decide,
   by decide, translated (by decide), by decide, by decide, by decide⟩

theorem met_reductionForks : ∃ s i k va n, forked (me s) i = some (k, va, n) ∧ Legal i s ∧ va.toNat % n = 0 :=
  ⟨sx 64#64 3#64, .oredFadd 6#7 4#7 5#7, .ored 0 0#64 64#64 3#64, 64#64, 64, by decide⟩

theorem met_reductionForks_trap : ∃ s i k va n, forked (me s) i = some (k, va, n) ∧ Legal i s ∧ va.toNat % n ≠ 0 :=
  ⟨sx 68#64 3#64, .redadd 4#7 5#7, .red 0 68#64 3#64, 68#64, 8, by decide⟩

theorem met_poisonedReads : ∃ s i d c g va x p r, loadForm (me s) i = some (d, 8, c, g, va) ∧ isRegion x.pa = false ∧
    Legal i s ∧ canonical va = true ∧ va.toNat % 8 = 0 ∧ translate s (requester s s.cur) .read va = (.ok x, r) ∧
    poisonedIn s.mem x.pa 8 = some p ∧ p = wordOf x.pa :=
  ⟨poisoned (sx lb 0#64), .ldd 6#7 4#7 0#3 0#7, 6#7, some 0, true, lb, spad 0, 0x1000000000000, _, by decide, by decide,
   by decide, by decide, by decide, translated (by decide), by decide⟩

/-! ## Time, streams, copies, counters, handles, exchange words, rounds -/

/-- The state with one engine operation of its unit: a copy with a promise and a counter at 0x8000. -/
def copying (done : Bool) (p : Nat) : State :=
  { sx 0#64 7#64 with
    engines := [(0, { unit := 0, launch := 1, job := 0, kind := .copy 0 0x9000 8 0x8000#64, promise := some p, complete := done })]
    nextEng := 1 }

theorem met_timeWords : ∃ s a, Legal (.rdtb a) s ∧ forksComplete s := ⟨copying true 0, 6#7, by decide⟩

theorem met_timeWords_held : ∃ s, ¬ forksComplete s := ⟨copying false 0, by decide⟩

theorem met_sleep_goes : ∃ s a, Legal (.sleepu a) s ∧ (me s).wait = none ∧ (readVal (me s) a).toNat ≤ tbOf s (dieOf s.cur) ∧
    ∀ e ∈ s.engines, mine s e.2 = true → e.2.promise.any (fun p => decide (p ≤ tbOf s (dieOf s.cur))) = true →
      e.2.complete = true :=
  ⟨copying true 0, 4#7, by decide, by decide, Nat.zero_le _, by intro e he; simp_all [copying]⟩

theorem met_sleep_waits : ∃ s a, Legal (.sleepu a) s ∧ (me s).wait = none ∧ tbOf s (dieOf s.cur) < (readVal (me s) a).toNat :=
  ⟨sx 9#64 0#64, 4#7, by decide, by decide, by
    have h : Config.skew 0 % 3 < 3 := Nat.mod_lt _ (by decide)
    show 0 + Config.skew 0 % 3 < 9
    omega⟩

theorem met_sleep_missed : ∃ s a f e p, Legal (.sleepu a) s ∧ (me s).wait = none ∧
    (readVal (me s) a).toNat ≤ tbOf s (dieOf s.cur) ∧ s.engines = [(f, e)] ∧ mine s e = true ∧ e.promise = some p ∧
    p ≤ tbOf s (dieOf s.cur) ∧ e.complete = false ∧ e.reported = false :=
  ⟨copying false 0, 4#7, 0, _, 0, by decide, by decide, Nat.zero_le _, rfl, by decide, rfl, Nat.zero_le _, by decide⟩

/-- The state with one E-word in its bank. -/
def banked (s : State) (e : Nat) (w : BitVec 32) : State := { s with banks := [(0, { words := { ewords := [(e, w)] } })] }

/-- The state with the command queue of element 14 full. -/
def queued (s : State) (e : Nat) : State := { s with elems := [(e, { cmds := List.replicate 8 (.arg 0#64 false) })] }

theorem met_streamWords_go : ∃ s a r e, Legal (.strmGo a r e) s ∧ startable (ewordAt s s.cur e.toNat) = true ∧
    (elemAt s s.cur e.toNat).cmds.length < 8 :=
  ⟨banked (sx 16#64 0#64) 14 0x68000000#32, 4#7, 1#1, 14#5, by decide⟩

theorem met_streamWords_full : ∃ s a r e, Legal (.strmGo a r e) s ∧ startable (ewordAt s s.cur e.toNat) = true ∧
    8 ≤ (elemAt s s.cur e.toNat).cmds.length :=
  ⟨queued (banked (sx 16#64 0#64) 14 0x68000000#32) 14, 4#7, 1#1, 14#5, by decide⟩

theorem met_streamWords_notStartable : ∃ s a r e, Legal (.strmGo a r e) s ∧ startable (ewordAt s s.cur e.toNat) = false :=
  ⟨banked (sx 16#64 0#64) 18 0x80000000#32, 4#7, 1#1, 18#5, by decide⟩

theorem met_streamWords_arg : ∃ s a r e, Legal (.strmArg a r e) s ∧ ewordAt s s.cur e.toNat ≠ 0#32 ∧
    (elemAt s s.cur e.toNat).cmds.length < 8 :=
  ⟨banked (sx 16#64 0#64) 0 0x0303C040#32, 4#7, 0#1, 0#5, by decide⟩

theorem met_streamWords_tok : ∃ s a b e, Legal (.strmTok a b e) s ∧ eopOf (ewordAt s s.cur e.toNat) = 0x80 ∧
    (ewordAt s s.cur e.toNat).extractLsb' 0 2 = 0#2 ∧ (readVal (me s) b).toNat ≤ 4 ∧
    (elemAt s s.cur e.toNat).cmds.length < 8 :=
  ⟨banked (sx 16#64 4#64) 18 0x80000000#32, 4#7, 5#7, 18#5, by decide⟩

theorem met_streamWords_badTok : ∃ s a b e, Legal (.strmTok a b e) s ∧ eopOf (ewordAt s s.cur e.toNat) = 0x80 ∧
    (ewordAt s s.cur e.toNat).extractLsb' 0 2 = 0#2 ∧ 4 < (readVal (me s) b).toNat :=
  ⟨banked (sx 16#64 5#64) 18 0x80000000#32, 4#7, 5#7, 18#5, by decide⟩

/-- The state with a SINK that has passed some EOSs. -/
def sunk (ps : List (Nat × Option Nat)) : State :=
  { banked (sx 0#64 0#64) 18 0x7F000000#32 with elems := [(18, { passed := ps })] }

theorem met_drain : ∃ s r, Legal (.drain r) s ∧ drainable s (r.setWidth 2) :=
  ⟨sunk [(2, none)], 1#6, by decide, by
    intro e w h
    obtain ⟨rfl, rfl⟩ : e = 18 ∧ w = 0x7F000000#32 := by
      have : (e, w) ∈ [(18, 0x7F000000#32)] := h
      simpa using this
    exact fun _ _ => ⟨2, by decide⟩⟩

theorem met_drain_waits : ∃ s r, Legal (.drain r) s ∧ ¬ drainable s (r.setWidth 2) :=
  ⟨sunk [], 1#6, by decide, by
    intro h
    obtain ⟨n, hn⟩ := h 18 0x7F000000#32 (show _ ∈ [(18, 0x7F000000#32)] by simp) (by decide) (by decide)
    have : (none : Option (Nat × Option Nat)) = some (n, none) := hn
    simp at this⟩

/-- The state with a segment of one E-word at the scratchpad's beginning (R104). -/
def segmented (b : Bank) : State :=
  { sx lb 0#64 with
    mem := wrNum (wrNum (wrNum (sx lb 0#64).mem 0x1000000000004 4 1) 0x1000000000008 8 0xFFFFFFFFFFFFFFFF) 0x1000000000010 4
      0x0303C040
    banks := [(0, b)] }

theorem met_cfgld : ∃ (s r : State) (a : BitVec 7) (x : XOk) (g : Segment), Legal (.cfgld a) s ∧
    canonical (readVal (me s) a) = true ∧ (readVal (me s) a).toNat % 4 = 0 ∧
    translate s (requester s s.cur) .read (readVal (me s) a) = (.ok x, r) ∧ isRegion x.pa = false ∧
    checkSegment r (readImageBytes r (requester r r.cur) (readVal (me s) a) 162) = .ok g ∧
    (∀ n, poisonedIn s.mem x.pa n = none) ∧ (bankAt s s.cur).pending = none :=
  ⟨segmented {}, _, 4#7, spad 0, _, by decide, by decide, by decide, translated (by decide), by decide,
   okOf (by decide +kernel), fun _ => rfl, by decide⟩

theorem met_cfgld_waits : ∃ (s r : State) (a : BitVec 7) (x : XOk) (g : Segment), Legal (.cfgld a) s ∧
    canonical (readVal (me s) a) = true ∧ (readVal (me s) a).toNat % 4 = 0 ∧
    translate s (requester s s.cur) .read (readVal (me s) a) = (.ok x, r) ∧ isRegion x.pa = false ∧
    checkSegment r (readImageBytes r (requester r r.cur) (readVal (me s) a) 162) = .ok g ∧
    (∀ n, poisonedIn s.mem x.pa n = none) ∧ (bankAt s s.cur).pending ≠ none :=
  ⟨segmented { pending := some {} }, _, 4#7, spad 0, _, by decide, by decide, by decide, translated (by decide), by decide,
   okOf (by decide +kernel), fun _ => rfl, by decide⟩

/-- The state whose unit has k0 to k3. -/
def withK (s : State) (a b c d : Word) : State :=
  setMe s { me s with k := #v[a, b, c, d, 0#64, 0#64, 0#64, 0#64] }

theorem met_copyWords : ∃ (s s1 s2 s3 : State) (d a b : BitVec 7) (x y z : XOk), Legal (.send d a b) s ∧
    sendable s a b false ∧ translate s (requester s s.cur) .write (readVal (me s) b) = (.ok x, s1) ∧ regK0 (me s) ≠ 0#64 ∧
    translate s1 (requester s1 s.cur) .write (readVal (me s) b + (regK0 (me s) - 1#64)) = (.ok y, s2) ∧
    regK1 (me s) ≠ 0#64 ∧ translate s2 (requester s2 s.cur) .atomic (regK1 (me s)) = (.ok z, s3) :=
  ⟨withK (sx lb (lb + 64#64)) 16#64 (lb + 256#64) 0#64 0#64, _, _, _, 6#7, 4#7, 5#7, spad 64, spad 79, spad 256, by decide,
   by decide, translated (by decide), by decide, translated (by decide), by decide, translated (by decide)⟩

theorem met_copyWords_merge : ∃ (s s1 s2 : State) (d a b : BitVec 7) (x y : XOk), Legal (.sendr d a b) s ∧
    sendable s a b true ∧ translate s (requester s s.cur) .write (readVal (me s) b) = (.ok x, s1) ∧ regK0 (me s) ≠ 0#64 ∧
    translate s1 (requester s1 s.cur) .write (readVal (me s) b + (regK0 (me s) - 1#64)) = (.ok y, s2) ∧
    regK1 (me s) = 0#64 :=
  ⟨withK (sx lb (lb + 64#64)) 16#64 0#64 0x0002000100000002#64 0#64, _, _, 6#7, 4#7, 5#7, spad 64, spad 79, by decide,
   by decide, translated (by decide), by decide, translated (by decide), by decide⟩

theorem met_copyWords_source : ∃ (s : State) (d a b : BitVec 7), Legal (.send d a b) s ∧
    canonical (readVal (me s) a) = true ∧ canonical (readVal (me s) b) = true ∧ canonical (regK1 (me s)) = true ∧
    (readVal (me s) a).toNat % 8 = 0 ∧ (readVal (me s) b).toNat % 8 = 0 ∧ (regK1 (me s)).toNat % 8 = 0 ∧
    (regK0 (me s)).toNat % 8 = 0 ∧ sourceOk s s.cur (readVal (me s) a) (regK0 (me s)).toNat = false :=
  ⟨withK (sx 0x4000#64 (lb + 64#64)) 16#64 0#64 0#64 0#64, 6#7, 4#7, 5#7, by decide⟩

/-- The state with the number 5 at 0x8000. -/
def counting (s : State) : State := { s with mem := wrNum s.mem 0x8000 8 5 }

/-- Where that counter lies. -/
def ctr0 : XOk := ⟨0x8000, 3, 7#6⟩

theorem met_ctradd : ∃ s r a b x, Legal (.ctradd a b) s ∧ canonical (readVal (me s) a) = true ∧
    (readVal (me s) a).toNat % 8 = 0 ∧ poisonedIn s.mem x.pa 8 = none ∧
    translate s (requester s s.cur) .atomic (readVal (me s) a) = (.ok x, r) ∧ isRegion x.pa = false ∧
    pinnedRange s none x.pa 8 = false ∧ forksComplete s :=
  ⟨counting (sx 0x8000#64 0xFFFFFFFFFFFFFFFD#64), _, 4#7, 5#7, ctr0, by decide, by decide, by decide, by decide,
   translated (by decide), by decide, by decide, by decide⟩

theorem met_ctradd_held : ∃ s r a b x, Legal (.ctradd a b) s ∧ canonical (readVal (me s) a) = true ∧
    (readVal (me s) a).toNat % 8 = 0 ∧ poisonedIn s.mem x.pa 8 = none ∧
    translate s (requester s s.cur) .atomic (readVal (me s) a) = (.ok x, r) ∧ isRegion x.pa = false ∧ ¬ forksComplete s :=
  ⟨setMe (copying false 0) (ux 0x8000#64 5#64), _, 4#7, 5#7, ctr0, by decide, by decide, by decide, by decide,
   translated (by decide), by decide, by decide⟩

/-- The state in which the second GiB is that of the region windows. -/
def windowed (s : State) : State := { s with mem := wrNum s.mem 0x2008 8 0x000300000000001F }

/-- RCSEL of page 0. -/
def rcsel0 : XOk := ⟨0x3000000000008, 3, 7#6⟩

theorem met_ctradd_region : ∃ s r a b x, Legal (.ctradd a b) s ∧ canonical (readVal (me s) a) = true ∧
    (readVal (me s) a).toNat % 8 = 0 ∧ poisonedIn s.mem x.pa 8 = none ∧
    translate s (requester s s.cur) .atomic (readVal (me s) a) = (.ok x, r) ∧ isRegion x.pa = true :=
  ⟨windowed (sx 0x40000008#64 5#64), _, 4#7, 5#7, rcsel0, by decide, by decide, by decide, by decide, translated (by decide),
   by decide⟩

theorem met_ctrrd : ∃ s r a b x, Legal (.ctrrd a b) s ∧ canonical (readVal (me s) b) = true ∧
    (readVal (me s) b).toNat % 8 = 0 ∧ poisonedIn s.mem x.pa 8 = none ∧
    translate s (requester s s.cur) .read (readVal (me s) b) = (.ok x, r) :=
  ⟨counting (sx 0x8000#64 5#64), _, 6#7, 4#7, ctr0, by decide, by decide, by decide, by decide, translated (by decide)⟩

theorem met_ctrrd_region : ∃ s r a b x, Legal (.ctrrd a b) s ∧ canonical (readVal (me s) b) = true ∧
    (readVal (me s) b).toNat % 8 = 0 ∧ poisonedIn s.mem x.pa 8 = none ∧
    translate s (requester s s.cur) .read (readVal (me s) b) = (.ok x, r) ∧ isRegion x.pa = true :=
  ⟨windowed (sx 0x40000008#64 5#64), _, 6#7, 4#7, rcsel0, by decide, by decide, by decide, by decide, translated (by decide),
   by decide⟩

theorem met_ctrwait : ∃ s r a b x, Legal (.ctrwait a b) s ∧ Legal (.ctrwaitNb a b) s ∧ Legal (.ctrwatch a b 3#6) s ∧
    canonical (readVal (me s) a) = true ∧ (readVal (me s) a).toNat % 8 = 0 ∧ poisonedIn s.mem x.pa 8 = none ∧
    translate s (requester s s.cur) .read (readVal (me s) a) = (.ok x, r) ∧ (readVal (me s) b).toNat ≤ readAt s x.pa 8 :=
  ⟨counting (sx 0x8000#64 5#64), _, 4#7, 5#7, ctr0, by decide, by decide, by decide, by decide, by decide, by decide,
   translated (by decide), by decide⟩

theorem met_ctrwait_waits : ∃ s r a b x, Legal (.ctrwait a b) s ∧ canonical (readVal (me s) a) = true ∧
    (readVal (me s) a).toNat % 8 = 0 ∧ poisonedIn s.mem x.pa 8 = none ∧
    translate s (requester s s.cur) .read (readVal (me s) a) = (.ok x, r) ∧ readAt s x.pa 8 < (readVal (me s) b).toNat :=
  ⟨counting (sx 0x8000#64 6#64), _, 4#7, 5#7, ctr0, by decide, by decide, by decide, by decide, translated (by decide),
   by decide⟩

theorem met_handleWords : ∃ s h b w, Legal (.thset h b w) s ∧ Legal (.thget b h w) s ∧ Legal (.thchk h) s :=
  ⟨sx 0#64 0#64, 0x61#7, 5#7, 15#6, by decide⟩

theorem met_thld : ∃ (s r q : State) (h b : BitVec 7) (x y : XOk), canonical (readVal (me s) b) = true ∧
    (readVal (me s) b).toNat % 64 = 0 ∧ Legal (.thld h b) s ∧
    translate s (requester s s.cur) .read (readVal (me s) b) = (.ok x, r) ∧
    translate r (requester r s.cur) .read (readVal (me s) b + 127#64) = (.ok y, q) ∧ isRegion x.pa = false ∧
    isRegion y.pa = false ∧ y.pa = x.pa + 127 ∧
    poisonedIn s.mem x.pa 64 = none ∧ poisonedIn s.mem (x.pa + 64) 64 = none :=
  ⟨sx lb 0#64, _, _, 0x61#7, 4#7, spad 0, spad 127, by decide, by decide, by decide, translated (by decide),
   translated (by decide), by decide⟩

theorem met_thst : ∃ (s r q : State) (h b : BitVec 7) (x y : XOk), canonical (readVal (me s) b) = true ∧
    (readVal (me s) b).toNat % 64 = 0 ∧ Legal (.thst h b) s ∧
    translate s (requester s s.cur) .write (readVal (me s) b) = (.ok x, r) ∧
    translate r (requester r s.cur) .write (readVal (me s) b + 127#64) = (.ok y, q) ∧ isRegion x.pa = false ∧
    isRegion y.pa = false ∧ y.pa = x.pa + 127 ∧
    pinnedRange s none x.pa 64 = false ∧ pinnedRange s none (x.pa + 64) 64 = false :=
  ⟨sx lb 0#64, _, _, 0x61#7, 4#7, spad 0, spad 127, by decide, by decide, by decide, translated (by decide),
   translated (by decide), by decide⟩

/-- A state with the first page's registers mapped just below the launch window. -/
def windowedBelow (s : State) : State :=
  { s with
    mem := [(0x7F8, 0x1001), (0x1FF8, 0x2001), (0x2FD8, 0x3001), (0x3FF8, 0x5001), (0x5FF8, 0x300000000001F)].foldl
      (fun m x => wrNum m x.1 8 x.2) s.mem }

theorem met_thld_region : ∃ (s r q : State) (h b : BitVec 7) (x y : XOk), canonical (readVal (me s) b) = true ∧
    (readVal (me s) b).toNat % 64 = 0 ∧ Legal (.thld h b) s ∧
    translate s (requester s s.cur) .read (readVal (me s) b) = (.ok x, r) ∧
    translate r (requester r s.cur) .read (readVal (me s) b + 127#64) = (.ok y, q) ∧ isRegion x.pa = true :=
  ⟨windowedBelow (sx 0x00FFFFFEFFFFFFC0#64 0#64), _, _, 0x61#7, 4#7, ⟨0x3000000000FC0, 0, 7#6⟩, spad 63, by decide, by decide,
   by decide, translated (by decide), translated (by decide), by decide⟩

theorem met_exchangeWords : ∃ s a b n, Legal (.ctxdef a n) s ∧ forksComplete s ∧ Legal (.ctxrd a b n) s ∧
    Legal (.ctxwt a b n) s ∧
    (readVal (me s) a).toNat ≤ (exchange s ((readVal (me s) b).toNat % 4) (n.setWidth 3)).toNat :=
  ⟨sx 0#64 1#64, 4#7, 5#7, 3#6, by decide⟩

theorem met_exchangeWords_held : ∃ s a n, Legal (.ctxdef a n) s ∧ ¬ forksComplete s := ⟨copying false 0, 4#7, 3#6, by decide⟩

theorem met_exchangeWords_waits : ∃ s a b n, Legal (.ctxwt a b n) s ∧
    (exchange s ((readVal (me s) b).toNat % 4) (n.setWidth 3)).toNat < (readVal (me s) a).toNat :=
  ⟨sx 1#64 1#64, 4#7, 5#7, 3#6, by decide⟩

/-- The state with rounds 4 and 5 of its series open: its SINK stands in round 6, and round 3 has committed. -/
def rounding (s : State) : State :=
  { s with
    banks := [(0, { words := { ewords := [(18, 0x7F000000#32)] }, launch := some 1 })]
    elems := [(18, { round := 6 })]
    series := [(4, { isOpen := true, lastc := 3#32 })] }

theorem met_roundWords_none : ∃ s, (me s).wait = none ∧ openRounds s (seriesOf s s.cur) = [] := ⟨sx 0#64 0#64, by decide⟩

theorem met_roundWords_open : ∃ s l n, (me s).wait = none ∧ openRounds s (seriesOf s s.cur) = l ++ [n] :=
  ⟨rounding (sx 0#64 0#64), [4], 5, by decide⟩

theorem met_roundWords_waited : ∃ s w, (me s).wait = some w ∧ w.aux ≤ (seriesAt s (seriesOf s s.cur)).next :=
  ⟨rounding (st { ux 0#64 0#64 with st := .waiting, wait := some { kind := .roundClose, value := 3#64, aux := 4 } }), _, rfl,
   by decide⟩

/-! ## Barriers and queues -/

/-- A barrier of two members, the units of contexts 0 and 1, whose table lies at 0x100 and whose records at 0x200 of the
launch's scratchpad. -/
def bar2 (m0 m1 : Member) : Barrier :=
  { holder := 1, nmem := 2, mtb := lb + 0x100#64, srb := lb + 0x200#64, members := [m0, m1]
    arr := (if m0.arrived then 1 else 0) + if m1.arrived then 1 else 0 }

/-- The state with that barrier at index 3, or with its table alone. -/
def barred (s : State) (x : Option Barrier) : State :=
  { s with
    mem := wrNum (wrNum s.mem 0x1000000000100 8 0x100000000) 0x1000000000110 8 0x100040000
    barriers := match x with | some y => [(3, y)] | none => [] }

/-- A member that has arrived. -/
def here : Member := { arrived := true, time := 5 }
/-- A member that has left. -/
def gone : Member := { arrived := true, left := true, excused := true }
/-- The barrier's name. -/
def name3 : Word := 0x80003#64

/-- What heldBarrier leaves of the state. -/
def heldBy (s : State) (name : Word) : State := match heldBarrier s name with | .ok (r, _) => r | .error _ => s

theorem held {s : State} {name : Word} {l : Launch} {k : Nat} {x : Barrier}
    (h : (match heldBarrier s name with
      | .ok (_, a, b, c) => decide (a = l) && decide (b = k) && decide (c = x)
      | .error _ => false) = true) : heldBarrier s name = .ok (heldBy s name, l, k, x) := by
  unfold heldBy
  revert h
  rcases heldBarrier s name with _ | ⟨r, a, b, c⟩
  · simp
  · simp only [Bool.and_eq_true, decide_eq_true_eq]
    rintro ⟨⟨rfl, rfl⟩, rfl⟩
    rfl

/-- The state that a trap keeps. -/
def keptBy (e : Except Stop State) : State := match e with | .error (.trapped r _ _ _) => r | _ => State.reset

theorem kept {e : Except Stop State} {c d : BitVec 8} {w : Word}
    (h : (match e with
      | .error (.trapped _ a b v) => decide (a = c) && decide (b = d) && decide (v = w)
      | _ => false) = true) : e = .error (.trapped (keptBy e) c d w) := by
  unfold keptBy
  revert h
  split
  · simp only [Bool.and_eq_true, decide_eq_true_eq]
    rintro ⟨⟨rfl, rfl⟩, rfl⟩
    rfl
  · simp

theorem met_bararr : ∃ s r a b l k m x, Legal (.bararr a b) s ∧ heldBarrier s (readVal (me s) b) = .ok (r, l, k, x) ∧
    memberOf r (launchReq l) x (me s).launch s.cur = some m ∧ m < x.members.length ∧ forksComplete s ∧
    (x.members.getD m {}).arrived = true :=
  ⟨barred (sx 0#64 name3) (some (bar2 here {})), _, 6#7, 5#7, lch, 3, 0, bar2 here {}, by decide, held (by decide), by decide,
   by decide⟩

theorem met_bararr_open : ∃ s r a b l k m x, Legal (.bararr a b) s ∧ heldBarrier s (readVal (me s) b) = .ok (r, l, k, x) ∧
    memberOf r (launchReq l) x (me s).launch s.cur = some m ∧ m < x.members.length ∧ forksComplete s ∧
    (x.members.getD m {}).arrived = false ∧ (x.members.getD m {}).left = false ∧ staysOpen (arrived r x m) :=
  ⟨barred (sx 0#64 name3) (some (bar2 {} {})), _, 6#7, 5#7, lch, 3, 0, bar2 {} {}, by decide, held (by decide), by decide,
   by decide, by decide, by decide, by decide, by decide⟩

theorem met_bararr_last : ∃ s r a b l k m x, Legal (.bararr a b) s ∧ heldBarrier s (readVal (me s) b) = .ok (r, l, k, x) ∧
    memberOf r (launchReq l) x (me s).launch s.cur = some m ∧ m < x.members.length ∧ forksComplete s ∧
    (x.members.getD m {}).arrived = false ∧ (x.members.getD m {}).left = false ∧ ¬ staysOpen (arrived r x m) ∧
    ∀ w ∈ x.waiters, w.unit ≠ s.cur :=
  ⟨barred (sx 0#64 name3) (some (bar2 {} here)), _, 6#7, 5#7, lch, 3, 0, bar2 {} here, by decide, held (by decide), by decide,
   by decide, by decide, by decide, by decide, by decide, by decide⟩

theorem met_barwait : ∃ s r a b l k x, Legal (.barwait a b) s ∧ heldBarrier s (readVal (me s) a) = .ok (r, l, k, x) ∧
    mget r.barriers k = some x ∧ passed x.epi ((readVal (me s) b).setWidth 32) :=
  ⟨barred (sx name3 0#64) (some { bar2 {} {} with epi := 1#32 }), _, 4#7, 5#7, lch, 3, _, by decide, held (by decide), rfl,
   by decide⟩

theorem met_barwait_waits : ∃ s r a b l k x, Legal (.barwait a b) s ∧ heldBarrier s (readVal (me s) a) = .ok (r, l, k, x) ∧
    mget r.barriers k = some x ∧ ¬ passed x.epi ((readVal (me s) b).setWidth 32) :=
  ⟨barred (sx name3 1#64) (some { bar2 {} {} with epi := 1#32 }), _, 4#7, 5#7, lch, 3, _, by decide, held (by decide), rfl,
   by decide⟩

theorem met_barsync_open : ∃ s r a b l k m x, Legal (.barsync a b) s ∧ heldBarrier s (readVal (me s) b) = .ok (r, l, k, x) ∧
    (me s).wait = none ∧ memberOf r (launchReq l) x (me s).launch s.cur = some m ∧ m < x.members.length ∧ forksComplete s ∧
    (x.members.getD m {}).arrived = false ∧ (x.members.getD m {}).left = false ∧ staysOpen (arrived r x m) :=
  ⟨barred (sx 0#64 name3) (some (bar2 {} {})), _, 6#7, 5#7, lch, 3, 0, bar2 {} {}, by decide, held (by decide), by decide,
   by decide, by decide, by decide, by decide, by decide, by decide⟩

theorem met_barsync_last : ∃ s r a b l k m x, Legal (.barsync a b) s ∧ heldBarrier s (readVal (me s) b) = .ok (r, l, k, x) ∧
    (me s).wait = none ∧ memberOf r (launchReq l) x (me s).launch s.cur = some m ∧ m < x.members.length ∧ forksComplete s ∧
    (x.members.getD m {}).arrived = false ∧ (x.members.getD m {}).left = false ∧ ¬ staysOpen (arrived r x m) ∧
    ∀ w ∈ x.waiters, w.unit ≠ s.cur :=
  ⟨barred (sx 0#64 name3) (some (bar2 {} here)), _, 6#7, 5#7, lch, 3, 0, bar2 {} here, by decide, held (by decide), by decide,
   by decide, by decide, by decide, by decide, by decide, by decide, by decide⟩

theorem met_barrd : ∃ s r a b l k x, Legal (.barrd a b 6#6) s ∧ heldBarrier s (readVal (me s) b) = .ok (r, l, k, x) :=
  ⟨barred (sx 0#64 name3) (some (bar2 {} {})), _, 6#7, 5#7, lch, 3, bar2 {} {}, by decide, held (by decide)⟩

theorem met_barcfg : ∃ s r a b l k x, Legal (.barcfg a b) s ∧ heldBarrier s (readVal (me s) a) = .ok (r, l, k, x) ∧
    ∃ t w kk, t = (readVal (me s) b).toNat % 2 ^ 23 ∧ kk = (readVal (me s) b).toNat / 2 ^ 24 % 2 ^ 5 ∧
      w = (readVal (me s) b).toNat / 2 ^ 32 % 2 ^ 5 ∧ (readVal (me s) b).toNat = t + 2 ^ 24 * kk + 2 ^ 32 * w ∧ 1 ≤ t ∧
      1 ≤ w ∧ w ≤ 16 ∧ 1 ≤ kk ∧ kk ≤ w :=
  ⟨barred (sx name3 0x1010000001#64) (some (bar2 {} {})), _, 4#7, 5#7, lch, 3, bar2 {} {}, by decide, held (by decide),
   1, 16, 16, by decide⟩

theorem met_barcfg_refused : ∃ s r a b l k x, Legal (.barcfg a b) s ∧ heldBarrier s (readVal (me s) a) = .ok (r, l, k, x) ∧
    (readVal (me s) b).toNat % 2 ^ 23 = 0 :=
  ⟨barred (sx name3 0x1010000000#64) (some (bar2 {} {})), _, 4#7, 5#7, lch, 3, bar2 {} {}, by decide, held (by decide),
   by decide⟩

theorem met_barleave_left : ∃ s r a l k m x, Legal (.barleave a) s ∧ heldBarrier s (readVal (me s) a) = .ok (r, l, k, x) ∧
    memberOf r (launchReq l) x (me s).launch s.cur = some m ∧ m < x.members.length ∧ forksComplete s ∧
    (x.members.getD m {}).left = true :=
  ⟨barred (sx name3 0#64) (some (bar2 gone {})), _, 4#7, lch, 3, 0, bar2 gone {}, by decide, held (by decide), by decide⟩

theorem met_barleave_open : ∃ s r a l k m x, Legal (.barleave a) s ∧ heldBarrier s (readVal (me s) a) = .ok (r, l, k, x) ∧
    memberOf r (launchReq l) x (me s).launch s.cur = some m ∧ m < x.members.length ∧ forksComplete s ∧
    (x.members.getD m {}).left = false ∧
    staysOpen { x with members := x.members.set m { x.members.getD m {} with arrived := true, left := true, excused := true } } :=
  ⟨barred (sx name3 0#64) (some (bar2 {} {})), _, 4#7, lch, 3, 0, bar2 {} {}, by decide, held (by decide), by decide,
   by decide, by decide, by decide, by decide⟩

/-- The state with a barrier block at 0x300 of the scratchpad, for one member. -/
def blocked (s : State) (srb : Word) : State :=
  { s with
    mem := wrNum (wrNum (wrNum s.mem 0x1000000000300 8 (lb + 0x100#64).toNat) 0x1000000000308 8 srb.toNat) 0x1000000000310 4 1 }

theorem met_barinit_refused : ∃ (s s1 s2 : State) (a b : BitVec 7) (key t i : Nat) (l : Launch) (x : XOk) (v : List Byte),
    Legal (.barinit a b) s ∧ resolveName s (readVal (me s) a) = .ok (key, l, t, i) ∧
    address s .read (readVal (me s) b) 32 = .ok (x, s1) ∧ readC s1 x 32 none (readVal (me s) b) = .ok (v, s2) ∧
    numAt v 8 8 % 64 ≠ 0 :=
  ⟨blocked (barred (sx name3 (lb + 0x300#64)) none) (lb + 0x208#64), _, _, 4#7, 5#7, 1, 0, 3, lch, spad 0x300, _, by decide,
   answered (by decide), addressed (by decide), okOf (by decide +kernel), by decide +kernel⟩

theorem met_barinit_trap : ∃ (s s1 s2 r : State) (a b : BitVec 7) (key t i : Nat) (l : Launch) (x : XOk) (v : List Byte)
    (mtb srb : Word), Legal (.barinit a b) s ∧ resolveName s (readVal (me s) a) = .ok (key, l, t, i) ∧
    address s .read (readVal (me s) b) 32 = .ok (x, s1) ∧ readC s1 x 32 none (readVal (me s) b) = .ok (v, s2) ∧
    mtb = BitVec.ofNat 64 (numAt v 0 8) ∧ srb = BitVec.ofNat 64 (numAt v 8 8) ∧ 1 = numAt v 16 4 ∧ numAt v 20 12 = 0 ∧
    mtb.toNat % 16 = 0 ∧ srb.toNat % 64 = 0 ∧
    ∃ s3, addressSpan s2 .read mtb (16 * 1) = .ok s3 ∧
      addressSpan s3 .write srb (64 * 1) = .error (.trapped r 5#8 0#8 0x40000000#64) :=
  ⟨blocked (barred (sx name3 (lb + 0x300#64)) none) 0x40000000#64, _, _, _, 4#7, 5#7, 1, 0, 3, lch, spad 0x300, _,
   lb + 0x100#64, 0x40000000#64, by decide, answered (by decide), addressed (by decide), okOf (by decide +kernel),
   by decide +kernel, by decide +kernel, by decide +kernel, by decide +kernel, by decide, by decide, _,
   okOf (by decide +kernel), kept (by decide +kernel)⟩

theorem met_barinit : ∃ (s s1 s2 s3 s4 s6 : State) (a b : BitVec 7) (key t i : Nat) (l : Launch) (x : XOk)
    (v : List Byte) (mtb srb : Word) (es : List (Word × Word)), Legal (.barinit a b) s ∧
    resolveName s (readVal (me s) a) = .ok (key, l, t, i) ∧ address s .read (readVal (me s) b) 32 = .ok (x, s1) ∧
    readC s1 x 32 none (readVal (me s) b) = .ok (v, s2) ∧ mtb = BitVec.ofNat 64 (numAt v 0 8) ∧
    srb = BitVec.ofNat 64 (numAt v 8 8) ∧ 1 = numAt v 16 4 ∧ numAt v 20 12 = 0 ∧
    addressSpan s2 .read mtb (16 * 1) = .ok s3 ∧ addressSpan s3 .write srb (64 * 1) = .ok s4 ∧ s6 = toHomeTile s4 t ∧
    memberTable s6 (launchReq l) mtb 1 = some es ∧ (∀ e ∈ es, e.1.toNat % 2 ^ 18 = 0) ∧ (es.map Prod.fst).Nodup ∧
    mget s6.barriers (1024 * t + i) = none :=
  ⟨blocked (barred (sx name3 (lb + 0x300#64)) none) (lb + 0x200#64), _, _, _, _, _, 4#7, 5#7, 1, 0, 3, lch, spad 0x300,
   _, lb + 0x100#64, lb + 0x200#64, [(0x100000000#64, 0#64)], by decide,
   answered (by decide), addressed (by decide), okOf (by decide +kernel), by decide +kernel, by decide +kernel,
   by decide +kernel, by decide +kernel, okOf (by decide +kernel), okOf (by decide +kernel), rfl, by decide +kernel,
   List.forall_mem_cons.mpr ⟨by decide, List.forall_mem_nil _⟩, by decide +kernel, by decide +kernel⟩

theorem met_queueBlocks : ∃ q : Aqcb, q.head < 2 ^ 32 ∧ q.tail < 2 ^ 32 ∧ q.free < 2 ^ 32 ∧ q.esz < 256 ∧ q.capl < 256 ∧
    q.flags < 256 ∧ q.home < 2 ^ 64 :=
  ⟨{ head := 0, tail := 0, free := 1, esz := 0, capl := 0, flags := 0, owner := 0#64, home := 64, base := 0#64, check := 0,
     zeros := true }, by decide⟩

/-- A block at 0x8000 with 8-byte slots in the scratchpad's beginning, of four slots. -/
def block (head tail free flags : Nat) : Aqcb :=
  { head := head, tail := tail, free := free, esz := 0, capl := 2, flags := flags, owner := 0#64, home := 0x8000, base := lb
    check := checkOf ({ head := head, tail := tail, free := free, esz := 0, capl := 2, flags := flags, owner := 0#64,
                        home := 0x8000, base := lb, check := 0, zeros := true } : Aqcb).front
    zeros := true }

/-- The state with a block. -/
def qst (s : State) (q : Aqcb) : State := { s with mem := wrBytes s.mem 0x8000 q.bytes }

theorem met_enqv : ∃ (s s1 s4 s5 : State) (a b : BitVec 7) (x slot : XOk) (q : Aqcb), Legal (.enqv a b) s ∧
    address s .atomic (readVal (me s) a) 64 = .ok (x, s1) ∧ forksComplete s ∧
    checkQueue (joinedAll s1) x.pa (readVal (me s) a) false = .ok q ∧ q.esz = 0 ∧ s4 = joinedAll s1 ∧ 0 < q.free ∧
    translate (toHome s4 x.pa) (requester s4 s4.cur) .write (q.slot q.tail) = (.ok slot, s5) ∧ pinnedRange s none slot.pa q.size = false ∧
    pinnedRange s none x.pa 64 = false ∧ Apart slot.pa q.size x.pa 64 ∧ s.qwaiters = [] :=
  ⟨qst (sx 0x8000#64 77#64) (block 1 3 2 0), _, _, _, 4#7, 5#7, ctr0, spad 24, block 1 3 2 0, by decide,
   addressed (by decide +kernel), by decide, answered (by decide +kernel), by decide, rfl, by decide,
   translated (by decide +kernel), by decide, by decide, by decide, by decide⟩

theorem met_enq : ∃ (s s1 s2 s4 s5 : State) (a b : BitVec 7) (x y slot : XOk) (q : Aqcb) (bs : List Byte),
    Legal (.enq a b) s ∧ Legal (.enqNb a b) s ∧ address s .atomic (readVal (me s) a) 64 = .ok (x, s1) ∧
    address s1 .read (readVal (me s) b) 8 = .ok (y, s2) ∧ forksComplete s ∧
    checkQueue (joinedAll s2) x.pa (readVal (me s) a) false = .ok q ∧
    readWords8 (joinedAll s2) (readVal (me s) b) (q.size / 8) = .ok (bs, s4) ∧ 0 < q.free ∧
    translate (toHome s4 x.pa) (requester s4 s4.cur) .write (q.slot q.tail) = (.ok slot, s5) ∧ pinnedRange s none slot.pa q.size = false ∧
    pinnedRange s none x.pa 64 = false ∧ Apart slot.pa q.size x.pa 64 ∧ s.qwaiters = [] :=
  ⟨qst (sx 0x8000#64 (lb + 0x100#64)) (block 1 3 2 0), _, _, _, _, 4#7, 5#7, ctr0, spad 0x100, spad 24, block 1 3 2 0, _,
   by decide, by decide, addressed (by decide +kernel), addressed (by decide +kernel), by decide, answered (by decide +kernel),
   okOf (by decide +kernel), by decide, translated (by decide +kernel), by decide, by decide, by decide, by decide⟩

theorem met_enq_full : ∃ (s s1 s2 s4 : State) (a b : BitVec 7) (x y : XOk) (q : Aqcb) (bs : List Byte), Legal (.enq a b) s ∧
    Legal (.enqNb a b) s ∧ address s .atomic (readVal (me s) a) 64 = .ok (x, s1) ∧
    address s1 .read (readVal (me s) b) 8 = .ok (y, s2) ∧ forksComplete s ∧
    checkQueue (joinedAll s2) x.pa (readVal (me s) a) false = .ok q ∧
    readWords8 (joinedAll s2) (readVal (me s) b) (q.size / 8) = .ok (bs, s4) ∧ q.free = 0 ∧ s.qwaiters = [] :=
  ⟨qst (sx 0x8000#64 (lb + 0x100#64)) (block 3 3 0 0), _, _, _, 4#7, 5#7, ctr0, spad 0x100, block 3 3 0 0, _, by decide,
   by decide, addressed (by decide +kernel), addressed (by decide +kernel), by decide, answered (by decide +kernel),
   okOf (by decide +kernel), by decide, by decide⟩

theorem met_deqv : ∃ (s s1 s2 : State) (d a : BitVec 7) (x slot : XOk) (q : Aqcb), Legal (.deqv d a) s ∧
    takenBy s s.cur = none ∧ address s .atomic (readVal (me s) a) 64 = .ok (x, s1) ∧
    checkQueue s1 x.pa (readVal (me s) a) true = .ok q ∧ q.esz = 0 ∧ q.free < q.cap ∧
    translate (toHome s1 x.pa) (requester s1 s1.cur) .read (q.slot q.head) = (.ok slot, s2) ∧ pinnedRange s none x.pa 64 = false ∧
    poisonedIn s.mem slot.pa 8 = none ∧ s.qwaiters = [] :=
  ⟨qst (sx 0x8000#64 0#64) (block 1 3 2 0), _, _, 6#7, 4#7, ctr0, spad 8, block 1 3 2 0, by decide, by decide,
   addressed (by decide +kernel), answered (by decide +kernel), by decide, by decide, translated (by decide +kernel),
   by decide⟩

theorem met_deqv_empty : ∃ (s s1 : State) (d a : BitVec 7) (x : XOk) (q : Aqcb), Legal (.deqv d a) s ∧
    takenBy s s.cur = none ∧ address s .atomic (readVal (me s) a) 64 = .ok (x, s1) ∧
    checkQueue s1 x.pa (readVal (me s) a) true = .ok q ∧ q.esz = 0 ∧ q.free = q.cap ∧ s.qwaiters = [] :=
  ⟨qst (sx 0x8000#64 0#64) (block 1 1 4 0), _, 6#7, 4#7, ctr0, block 1 1 4 0, by decide, by decide,
   addressed (by decide +kernel), answered (by decide +kernel), by decide⟩

theorem met_qsteal : ∃ (s s1 s2 sent s3 s4 s6 : State) (a b : BitVec 7) (x y slot : XOk) (q : Aqcb), Legal (.qsteal a b) s ∧
    takenBy s s.cur = none ∧ address s .atomic (readVal (me s) a) 64 = .ok (x, s1) ∧
    address s1 .write (readVal (me s) b) 8 = .ok (y, s2) ∧ checkQueue s2 x.pa (readVal (me s) a) false = .ok q ∧
    sent = toHome s2 x.pa ∧ q.free < q.cap ∧ q.steal = true ∧ pinnedWords s2 (readVal (me s) b) (q.size / 8) = false ∧
    xlateWords sent .write (readVal (me s) b) (q.size / 8) = .ok s3 ∧
    translate s3 (requester s3 s3.cur) .read (q.slot (takeFrom q true).2) = (.ok slot, s4) ∧
    pinnedRange s none x.pa 64 = false ∧ poisonedIn s.mem slot.pa q.size = none ∧ s.qwaiters = [] ∧
    ∃ r, r = queueEvent s4 (me s).pts x.pa (takeFrom q true).1 slot q.size none ∧
      writeWords8 (afterQueue r.1 r.2) (readVal (me s) b) (q.size / 8) (rdBytes s.mem slot.pa q.size) = .ok s6 :=
  ⟨qst (sx 0x8000#64 (lb + 0x100#64)) (block 1 3 2 1), _, _, _, _, _, _, 4#7, 5#7, ctr0, spad 0x100, spad 16, block 1 3 2 1,
   by decide, by decide, addressed (by decide +kernel), addressed (by decide +kernel), answered (by decide +kernel), rfl,
   by decide, by decide, by decide +kernel, okOf (by decide +kernel), translated (by decide +kernel), by decide, by decide, by decide,
   _, rfl, okOf (by decide +kernel)⟩

theorem met_deq_empty : ∃ (s s1 s2 : State) (a b : BitVec 7) (x y : XOk) (q : Aqcb), Legal (.deq a b) s ∧
    Legal (.deqNb a b) s ∧ takenBy s s.cur = none ∧ address s .atomic (readVal (me s) a) 64 = .ok (x, s1) ∧
    address s1 .write (readVal (me s) b) 8 = .ok (y, s2) ∧ checkQueue s2 x.pa (readVal (me s) a) true = .ok q ∧
    q.free = q.cap ∧ s.qwaiters = [] :=
  ⟨qst (sx 0x8000#64 (lb + 0x100#64)) (block 1 1 4 0), _, _, 4#7, 5#7, ctr0, spad 0x100, block 1 1 4 0, by decide, by decide,
   by decide, addressed (by decide +kernel), addressed (by decide +kernel), answered (by decide +kernel), by decide⟩

theorem met_queueChecks_class : ∃ (s s1 : State) (d a : BitVec 7) (x : XOk), Legal (.deqv d a) s ∧ takenBy s s.cur = none ∧
    address s .atomic (readVal (me s) a) 64 = .ok (x, s1) ∧ paClass x.pa ≠ 0 ∧ paClass x.pa ≠ 2 :=
  ⟨sx lb 0#64, _, 6#7, 4#7, spad 0, by decide, by decide, addressed (by decide), by decide⟩

theorem met_queueChecks_poison : ∃ (s s1 : State) (d a : BitVec 7) (x : XOk), Legal (.deqv d a) s ∧ takenBy s s.cur = none ∧
    address s .atomic (readVal (me s) a) 64 = .ok (x, s1) ∧ paClass x.pa = 0 ∧ (blockAt s.mem x.pa).flags / 2 % 2 = 1 :=
  ⟨qst (sx 0x8000#64 0#64) (block 1 3 2 2), _, 6#7, 4#7, ctr0, by decide, by decide, addressed (by decide +kernel), by decide,
   by decide +kernel⟩

theorem met_queueChecks_inconsistent : ∃ (s s1 : State) (d a : BitVec 7) (x : XOk), Legal (.deqv d a) s ∧
    takenBy s s.cur = none ∧ address s .atomic (readVal (me s) a) 64 = .ok (x, s1) ∧ paClass x.pa = 0 ∧
    (blockAt s.mem x.pa).flags / 2 % 2 = 0 ∧ poisonedIn s.mem x.pa 64 = none ∧
    (blockAt s.mem x.pa).consistent x.pa = false ∧ s.qwaiters = [] ∧ statusTD (me s) = false :=
  ⟨qst (sx 0x8000#64 0#64) (block 1 3 3 0), _, 6#7, 4#7, ctr0, by decide, by decide, addressed (by decide +kernel), by decide,
   by decide +kernel, by decide, by decide +kernel, by decide, by decide⟩

theorem met_queueChecks_owner : ∃ (s s1 : State) (d a : BitVec 7) (x : XOk), Legal (.deqv d a) s ∧
    takenBy s s.cur = none ∧ address s .atomic (readVal (me s) a) 64 = .ok (x, s1) ∧ paClass x.pa = 0 ∧
    (blockAt s.mem x.pa).flags / 2 % 2 = 0 ∧ poisonedIn s.mem x.pa 64 = none ∧
    (blockAt s.mem x.pa).consistent x.pa = true ∧ (blockAt s.mem x.pa).owner ≠ 0#64 ∧
    (blockAt s.mem x.pa).owner ≠ unitName (me s).launch s.cur :=
  ⟨qst (sx 0x8000#64 0#64) { block 1 3 2 0 with owner := 0x100040000#64 }, _, 6#7, 4#7, ctr0, by decide, by decide,
   addressed (by decide +kernel), by decide, by decide +kernel, by decide, by decide +kernel, by decide +kernel,
   by decide +kernel⟩

theorem met_qinit : ∃ (s s1 : State) (a b : BitVec 7) (x : XOk), address s .atomic (readVal (me s) a) 64 = .ok (x, s1) ∧
    paClass x.pa = 0 ∧ pinnedRange s none x.pa 64 = false ∧ s.qwaiters = [] ∧ poisonedIn s.mem x.pa 64 = none ∧
    Legal (.qinit a b) s ∧ (readVal (me s) b).toNat = 5 + 2 ^ 8 * 24 + 2 ^ 16 * 1 ∧ paDie x.pa = dieOf s.cur ∧
    (regK2 (me s)).toNat % (8 * 2 ^ 5) = 0 ∧ (regK3 (me s)).toNat % 2 ^ 18 = 0 :=
  ⟨withK (sx 0x8000#64 0x11805#64) 0#64 0#64 lb 0#64, _, 4#7, 5#7, ctr0, addressed (by decide), by decide⟩

theorem met_qinit_refused : ∃ (s s1 : State) (a b : BitVec 7) (x : XOk), address s .atomic (readVal (me s) a) 64 = .ok (x, s1) ∧
    paClass x.pa = 0 ∧ pinnedRange s none x.pa 64 = false ∧ s.qwaiters = [] ∧ poisonedIn s.mem x.pa 64 = none ∧
    Legal (.qinit a b) s ∧ paDie x.pa = dieOf s.cur ∧ (readVal (me s) b).toNat % 2 ^ 3 > 5 :=
  ⟨withK (sx 0x8000#64 6#64) 0#64 0#64 lb 0#64, _, 4#7, 5#7, ctr0, addressed (by decide), by decide⟩

theorem met_qstat : ∃ (s s1 : State) (d a : BitVec 7) (x : XOk), address s .atomic (readVal (me s) a) 64 = .ok (x, s1) ∧
    paClass x.pa = 0 ∧ pinnedRange s none x.pa 64 = false ∧ s.qwaiters = [] ∧ poisonedIn s.mem x.pa 64 = none ∧
    Legal (.qstat d a) s ∧ Legal (.qpoison a) s ∧ (blockAt s.mem x.pa).poison = false :=
  ⟨qst (sx 0x8000#64 0#64) (block 1 3 2 0), _, 6#7, 4#7, ctr0, addressed (by decide +kernel), by decide +kernel⟩

theorem met_qpoison_again : ∃ (s s1 : State) (a : BitVec 7) (x : XOk), address s .atomic (readVal (me s) a) 64 = .ok (x, s1) ∧
    paClass x.pa = 0 ∧ pinnedRange s none x.pa 64 = false ∧ s.qwaiters = [] ∧ poisonedIn s.mem x.pa 64 = none ∧
    Legal (.qpoison a) s ∧ (blockAt s.mem x.pa).poison = true :=
  ⟨qst (sx 0x8000#64 0#64) (block 1 3 2 2), _, 4#7, ctr0, addressed (by decide +kernel), by decide +kernel⟩

theorem met_qdrain : ∃ (s s1 s2 s3 s4 : State) (d a b : BitVec 7) (x y : XOk) (q : Aqcb) (bs : List Byte)
    (slots places : List Nat), address s .atomic (readVal (me s) a) 64 = .ok (x, s1) ∧ paClass x.pa = 0 ∧
    pinnedRange s none x.pa 64 = false ∧ s.qwaiters = [] ∧ poisonedIn s.mem x.pa 64 = none ∧ Legal (.qdrain d a b) s ∧
    q = blockAt s.mem x.pa ∧ q.consistent x.pa = true ∧ address s1 .write (readVal (me s) b) 8 = .ok (y, s2) ∧
    drainSlots q (q.cap - q.free) 0 (toHome s2 x.pa) = .ok (bs, slots, s3) ∧
    drainPlaces (readVal (me s) b) (bs.length / 8) s3 = .ok (places, s4) ∧
    (∀ p ∈ places, isRegion p = false ∧ Apart p 8 x.pa 64) ∧ places.Pairwise (fun p r => Apart p 8 r 8) :=
  ⟨qst (sx 0x8000#64 (lb + 0x100#64)) (block 1 3 2 0), _, _, _, _, 6#7, 4#7, 5#7, ctr0, spad 0x100, _, _, _, _,
   addressed (by decide +kernel), by decide, by decide, by decide, by decide, by decide, rfl, by decide +kernel,
   addressed (by decide +kernel), okOf (by decide +kernel), okOf (by decide +kernel), by decide +kernel, by decide +kernel⟩

theorem met_engineForks : ∃ s a b, Legal (.scat a b 0#1 1#1 2#2) s ∧ (regK0 (me s)).toNat ≤ 16777215 ∧
    (readVal (me s) a).toNat % 2 ^ 2 = 0 ∧ (regK2 (me s)).toNat % 2 ^ 2 = 0 ∧ (readVal (me s) b).toNat % 8 = 0 ∧
    (regK1 (me s)).toNat % 8 = 0 :=
  ⟨withK (sx 0x8004#64 0x9000#64) 16777215#64 0#64 0xA004#64 0#64, 4#7, 5#7, by decide⟩

theorem met_engineForks_count : ∃ s a b, Legal (.gath a b 0#1 1#1 2#2) s ∧ 16777215 < (regK0 (me s)).toNat :=
  ⟨withK (sx 0x8004#64 0x9000#64) 16777216#64 0#64 0#64 0#64, 4#7, 5#7, by decide⟩

theorem met_engineForks_align : ∃ s a b, Legal (.gath a b 0#1 1#1 2#2) s ∧ (regK0 (me s)).toNat ≤ 16777215 ∧
    (readVal (me s) a).toNat % 2 ^ 2 ≠ 0 :=
  ⟨withK (sx 0x8002#64 0x9000#64) 1#64 0#64 0#64 0#64, 4#7, 5#7, by decide⟩

theorem met_attest : ∃ (s s1 s2 s3 s4 : State) (a b : BitVec 7) (x1 x2 x3 x4 : XOk), Legal (.attest a b) s ∧
    (readVal (me s) a).toNat % 64 = 0 ∧ (readVal (me s) b).toNat % 64 = 0 ∧ (regK1 (me s)).toNat % 8 = 0 ∧
    translate s (requester s s.cur) .write (readVal (me s) a) = (.ok x1, s1) ∧
    translate s1 (requester s1 s.cur) .write (readVal (me s) a + 2047#64) = (.ok x2, s2) ∧
    translate s2 (requester s2 s.cur) .read (readVal (me s) b) = (.ok x3, s3) ∧
    translate s3 (requester s3 s.cur) .write (regK1 (me s)) = (.ok x4, s4) :=
  ⟨withK (sx lb (lb + 0x1000#64)) 0#64 (lb + 0x2000#64) 0#64 0#64, _, _, _, _, 4#7, 5#7, spad 0, spad 2047, spad 0x1000,
   spad 0x2000, by decide, by decide, by decide, by decide, translated (by decide), translated (by decide),
   translated (by decide), translated (by decide)⟩

/-! ## Launches, links, endpoints, saves, maintenance -/

/-- The state with a descriptor of configuration 9 with an image address at 0x8000 (R321). -/
def described (s : State) (image : Nat) : State := { s with mem := wrNum (wrNum s.mem 0x8000 8 9) 0x8008 8 image }

/-- A unit at depth 7. -/
def deep : State := st { ux 0x8000#64 0#64 with csr := { status := 1#64, depth := 7#64 } }

theorem met_launch_deep : ∃ s d a i, i = Instr.launch d a ∧ Legal i s ∧ dieOf s.cur < 4 ∧ (me s).csr.depth = 7#64 :=
  ⟨deep, 6#7, 4#7, _, rfl, by decide⟩

theorem met_launch_malformed : ∃ (s s1 : State) (d a : BitVec 7) (x : XOk) (b : List Byte), Legal (.launch d a) s ∧
    Legal (.launchW d a) s ∧ dieOf s.cur < 4 ∧ (me s).csr.depth ≠ 7#64 ∧ Described s s1 a x b ∧ readDescriptor b = none :=
  ⟨described (sx 0x8000#64 0#64) 8, _, 6#7, 4#7, ctr0, _, by decide, by decide, by decide, by decide,
   .inl ⟨by decide, addressed (by decide), by decide, by decide, by decide, rfl⟩, by decide +kernel⟩

theorem met_launch_noGraph : ∃ (s s1 : State) (d a : BitVec 7) (x : XOk) (b : List Byte) (t : Descriptor),
    Legal (.launch d a) s ∧ dieOf s.cur < 4 ∧ (me s).csr.depth ≠ 7#64 ∧ Described s s1 a x b ∧ (me s).wait = none ∧
    readDescriptor b = some t ∧ ¬ launchable s t :=
  ⟨{ described (sx 0x8000#64 0#64) 0x4000 with mem := wrNum (described (sx 0x8000#64 0#64) 0x4000).mem 0x8020 8 lb.toNat }, _,
   6#7, 4#7, ctr0, _, _, by decide, by decide, by decide,
   .inl ⟨by decide, addressed (by decide), by decide, by decide, by decide, rfl⟩, by decide, rfl, by
    intro h
    exact absurd h.2 (by decide +kernel)⟩

theorem met_launch : ∃ (s s1 : State) (d a : BitVec 7) (x : XOk) (b : List Byte) (desc : Descriptor) (sh : Bool),
    Legal (.launch d a) s ∧ Legal (.launchW d a) s ∧ dieOf s.cur < 4 ∧ (me s).csr.depth ≠ 7#64 ∧ Described s s1 a x b ∧
    readDescriptor b = some desc ∧ launchable s desc ∧ poolEntry s (dieOf s.cur) ((me s).csr.depth.toNat + 1) = some sh :=
  ⟨described (sx 0x8000#64 0#64) 0x4000, _, 6#7, 4#7, ctr0, _, _, true, by decide, by decide, by decide, by decide,
   .inl ⟨by decide, addressed (by decide), by decide, by decide, by decide, rfl⟩, rfl,
   ⟨by decide +kernel, .inl (by decide +kernel)⟩, by decide +kernel⟩

/-- The bytes of a descriptor of configuration 9 with an image address. -/
def descBytes : List Byte := toBytes 64 (9 + 2 ^ 64 * 0x4000)

theorem met_launch_waited : ∃ (s s1 : State) (d a : BitVec 7) (x : XOk) (b : List Byte) (desc : Descriptor) (sh : Bool),
    Legal (.launchW d a) s ∧ dieOf s.cur < 4 ∧ (me s).csr.depth ≠ 7#64 ∧ Described s s1 a x b ∧ (me s).wait.isSome = true ∧
    readDescriptor b = some desc ∧ launchable s desc ∧ poolEntry s (dieOf s.cur) ((me s).csr.depth.toNat + 1) = some sh :=
  ⟨st { ux 0#64 0#64 with st := .running, wait := some { kind := .launchReserve, value := 0#64, aux := ofBytes descBytes } },
   sx 0#64 0#64, 6#7, 4#7, ctr0, _, _, true, by decide, by decide, by decide, .inr ⟨_, rfl, rfl⟩, by decide, someOf (by decide +kernel),
   ⟨by decide +kernel, .inl (by decide +kernel)⟩, by decide +kernel⟩

/-- A launch in the pool. -/
def pooled (depth : Nat) (sh : Bool) : Launch := { lch with st := .pool, shared := some sh, depth := depth }

/-- The state with a pool that is full for depth 1: 3,584 shared entries and the 64 of depth 1. -/
def full (s : State) : State :=
  { s with launches := (1, lch) :: (List.range 3648).map fun k => (k + 2, pooled 1 (decide (k < 3584))) }

theorem met_launch_full : ∃ (s s1 : State) (d a : BitVec 7) (x : XOk) (b : List Byte) (desc : Descriptor),
    Legal (.launch d a) s ∧ Legal (.launchW d a) s ∧ dieOf s.cur < 4 ∧ (me s).csr.depth ≠ 7#64 ∧ Described s s1 a x b ∧
    readDescriptor b = some desc ∧ launchable s desc ∧ poolEntry s (dieOf s.cur) ((me s).csr.depth.toNat + 1) = none :=
  ⟨full (described (sx 0x8000#64 0#64) 0x4000), _, 6#7, 4#7, ctr0, _, _, by decide, by decide, by decide +kernel, by decide,
   .inl ⟨by decide, addressed (by decide), by decide, by decide, by decide, rfl⟩, rfl,
   ⟨by decide +kernel, .inl (by decide +kernel)⟩, by decide +kernel⟩

theorem met_graphnew : ∃ (s s1 s2 : State) (a b : BitVec 7) (x : XOk), Legal (.graphnew a b) s ∧
    address s .write (readVal (me s) a) 16 = .ok (x, s1) ∧
    (if regK2 (me s) = 0#64 then s2 = s1 else ∃ y, address s1 .write (regK2 (me s)) 16 = .ok (y, s2)) ∧
    1 ≤ (readVal (me s) b).toNat ∧ (readVal (me s) b).toNat < 65536 ∧
    (∀ g ∈ s.graphs, g.live = true → g.job = (me s).csr.jobid.toNat → g.ctr ≠ readVal (me s) a) ∧
    (liveGraphs s (dieOf s.cur)).length < 256 ∧ pinnedRange s none x.pa 16 = false :=
  ⟨sx lb 65535#64, _, _, 4#7, 5#7, spad 0, by decide, addressed (by decide), rfl, by decide⟩

theorem met_graphnew_count : ∃ (s s1 s2 : State) (a b : BitVec 7) (x : XOk), Legal (.graphnew a b) s ∧
    address s .write (readVal (me s) a) 16 = .ok (x, s1) ∧
    (if regK2 (me s) = 0#64 then s2 = s1 else ∃ y, address s1 .write (regK2 (me s)) 16 = .ok (y, s2)) ∧
    65536 ≤ (readVal (me s) b).toNat :=
  ⟨withK (sx lb 65536#64) 0#64 0#64 (lb + 16#64) 0#64, _, _, 4#7, 5#7, spad 0, by decide, addressed (by decide),
   ⟨spad 16, addressed (by decide)⟩, by decide⟩

/-- The state with another launch of the system job, in some state, whose counter is the scratchpad's first word. -/
def other (s : State) (t : LaunchState) : State :=
  { s with launches := [(1, lch), (2, { lch with lctr := lb, st := t, base := 2, page := 1, nctx := 1 })] }

theorem met_cancel : ∃ (s s1 s2 : State) (a b : BitVec 7) (x : XOk) (job : Nat) (ls : List Nat) (gs : List Graph),
    Legal (.cancel a b) s ∧ (me s).awaits = none ∧ address s .read (readVal (me s) a) 16 = .ok (x, s1) ∧
    (readVal (me s) b).toNat < 4 ∧ readVal (me s) a ≠ 0#64 ∧
    levelOf s1 (me s).csr.jobid.toNat (readVal (me s) a) (readVal (me s) b).toNat = some (job, ls, gs) ∧
    s2 = (if 2 ≤ (readVal (me s) b).toNat then
        cancelCounter (cancelLevel s1 ls gs (decide ((readVal (me s) b).toNat = 3)))
          { requester s s.cur with job := job } (readVal (me s) a)
      else cancelLevel s1 ls gs (decide ((readVal (me s) b).toNat = 3))) ∧
    s2.cur = s.cur ∧ (me s2).st ≠ .retired ∧ ∀ e ∈ s2.engines, e.2.launch ∉ ls :=
  ⟨other (sx lb 0#64) .pool, _, _, 4#7, 5#7, spad 0, 0, [2], [], by decide, by decide, addressed (by decide), by decide,
   by decide, by decide +kernel, rfl, by decide +kernel, by decide +kernel, by decide +kernel⟩

/-- The same with an engine operation of that launch. -/
def otherEngine (s : State) : State :=
  { other s .running with
    engines := [(0, { unit := 18, launch := 2, job := 0, kind := .ored 0 0#64 0x8000#64 0#64 })] }

theorem met_cancel_held : ∃ (s s1 s2 : State) (a b : BitVec 7) (x : XOk) (job : Nat) (ls : List Nat) (gs : List Graph),
    Legal (.cancel a b) s ∧ (me s).awaits = none ∧ address s .read (readVal (me s) a) 16 = .ok (x, s1) ∧
    (readVal (me s) b).toNat < 4 ∧ readVal (me s) a ≠ 0#64 ∧
    levelOf s1 (me s).csr.jobid.toNat (readVal (me s) a) (readVal (me s) b).toNat = some (job, ls, gs) ∧
    s2 = (if 2 ≤ (readVal (me s) b).toNat then
        cancelCounter (cancelLevel s1 ls gs (decide ((readVal (me s) b).toNat = 3)))
          { requester s s.cur with job := job } (readVal (me s) a)
      else cancelLevel s1 ls gs (decide ((readVal (me s) b).toNat = 3))) ∧
    s2.cur = s.cur ∧ (me s2).st ≠ .retired ∧ (∃ e ∈ s2.engines, e.2.launch ∈ ls) :=
  ⟨otherEngine (sx lb 0#64), _, _, 4#7, 5#7, spad 0, 0, [2], [], by decide, by decide, addressed (by decide), by decide,
   by decide, by decide +kernel, rfl, by decide +kernel, by decide +kernel, by decide +kernel⟩

/-- The state with a graph of another job whose phase counter is the scratchpad's first word. -/
def phased (s : State) : State :=
  { s with
    launches := [(1, lch), (2, { lch with job := 5, gctr := lb + 32#64, st := .pool, base := 2, page := 1, nctx := 1 })]
    graphs := [{ job := 5, die := 0, ctr := lb + 32#64, phase := lb, declared := 4 }] }

theorem met_cancel_phase : ∃ (s s1 s2 : State) (a b : BitVec 7) (x : XOk) (job : Nat) (ls : List Nat) (gs : List Graph),
    Legal (.cancel a b) s ∧ (me s).awaits = none ∧ address s .read (readVal (me s) a) 16 = .ok (x, s1) ∧
    (readVal (me s) b).toNat < 4 ∧ readVal (me s) a ≠ 0#64 ∧
    levelOf s1 (me s).csr.jobid.toNat (readVal (me s) a) (readVal (me s) b).toNat = some (job, ls, gs) ∧
    s2 = (if 2 ≤ (readVal (me s) b).toNat then
        cancelCounter (cancelLevel s1 ls gs (decide ((readVal (me s) b).toNat = 3)))
          { requester s s.cur with job := job } (readVal (me s) a)
      else cancelLevel s1 ls gs (decide ((readVal (me s) b).toNat = 3))) ∧
    s2.cur = s.cur ∧ (me s2).st ≠ .retired ∧ ∀ e ∈ s2.engines, e.2.launch ∉ ls :=
  ⟨phased (sx lb 2#64), _, _, 4#7, 5#7, spad 0, 5, _, _, by decide, by decide, addressed (by decide), by decide,
   by decide, rfl, rfl, by decide +kernel, by decide +kernel, by decide +kernel⟩

theorem met_cancel_none : ∃ (s s1 : State) (a b : BitVec 7) (x : XOk), Legal (.cancel a b) s ∧ (me s).awaits = none ∧
    address s .read (readVal (me s) a) 16 = .ok (x, s1) ∧
    levelOf s1 (me s).csr.jobid.toNat (readVal (me s) a) (readVal (me s) b).toNat = none :=
  ⟨sx lb 0#64, _, 4#7, 5#7, spad 0, by decide, by decide, addressed (by decide), by decide +kernel⟩

theorem met_jobdl : ∃ s a b, Legal (.jobdl a b) s ∧ (readVal (me s) a).toNat < 65536 ∧
    jobLive s (readVal (me s) a).toNat = true :=
  ⟨sx 0#64 9#64, 4#7, 5#7, by decide⟩

theorem met_jobdl_none : ∃ s a b, Legal (.jobdl a b) s ∧ jobLive s (readVal (me s) a).toNat = false :=
  ⟨sx 1#64 9#64, 4#7, 5#7, by decide⟩

theorem met_lturn : ∃ s a b l g, Legal (.lturn a b l g) s ∧ (readVal (me s) b).toNat < 2 :=
  ⟨sx 0#64 1#64, 6#7, 5#7, 3#2, 15#4, by decide⟩

theorem met_lturn_reserved : ∃ s a b l g, Legal (.lturn a b l g) s ∧ 2 ≤ (readVal (me s) b).toNat :=
  ⟨sx 0#64 2#64, 6#7, 5#7, 3#2, 15#4, by decide⟩

theorem met_lqry : ∃ s a b l, Legal (.lqry a b 1#1 l) s ∧ Legal (.lfloor a b l) s ∧ (readVal (me s) b).toNat < 256 ∧
    (readVal (me s) b).toNat % 16 ≤ 8 ∧ (readVal (me s) b).toNat / 16 % 16 ≤ 8 ∧
    keepsFloors (linkAt s l.toNat).dir ((readVal (me s) b).toNat % 16) ((readVal (me s) b).toNat / 16 % 16) = true ∧
    keepsFloors (linkAt s l.toNat).projected ((readVal (me s) b).toNat % 16) ((readVal (me s) b).toNat / 16 % 16) = true :=
  ⟨sx 0#64 0x88#64, 6#7, 5#7, 0#2, by decide⟩

theorem met_lfloor_range : ∃ s a b l, Legal (.lfloor a b l) s ∧ 8 < (readVal (me s) b).toNat % 16 :=
  ⟨sx 0#64 9#64, 6#7, 5#7, 0#2, by decide⟩

theorem met_lfloor_refused : ∃ s a b l, Legal (.lfloor a b l) s ∧ (readVal (me s) b).toNat < 256 ∧
    (readVal (me s) b).toNat % 16 ≤ 8 ∧ (readVal (me s) b).toNat / 16 % 16 ≤ 8 ∧
    keepsFloors (linkAt s l.toNat).dir ((readVal (me s) b).toNat % 16) ((readVal (me s) b).toNat / 16 % 16) = false :=
  ⟨{ sx 0#64 0x88#64 with links := Vector.replicate 4 { dir := 0xFFF0#16 } }, 6#7, 5#7, 0#2, by decide⟩

theorem met_mcst : ∃ (s s1 : State) (a b : BitVec 7) (m : BitVec 4) (xs : List (Word × XOk)), Legal (.mcst a b m) s ∧
    xlateReplicas s (readVal (me s) a) (regK2 (me s)) (replicas m) = .ok (xs, s1) ∧ (me s).st ≠ .retired ∧
    xs.Pairwise (fun x y => lineOf x.2.pa ≠ lineOf y.2.pa) ∧ (∀ x ∈ xs, isRegion x.2.pa = false ∧ x.2.pa % 8 = 0) ∧
    ∀ x ∈ xs, pinnedRange s none x.2.pa 8 = false :=
  ⟨withK (sx lb 77#64) 0#64 0#64 0x1000#64 0#64, _, 4#7, 5#7, 3#4, _, by decide, okOf (by decide +kernel), by decide,
   by decide +kernel, by decide +kernel, by decide +kernel⟩

theorem met_mcst_line : ∃ (s s1 : State) (a b : BitVec 7) (m : BitVec 4) (va w : Word × XOk), Legal (.mcst a b m) s ∧
    xlateReplicas s (readVal (me s) a) (regK2 (me s)) (replicas m) = .ok ([va, w], s1) ∧ (me s).st ≠ .retired ∧
    lineOf va.2.pa = lineOf w.2.pa :=
  ⟨withK (sx lb 77#64) 0#64 0#64 8#64 0#64, _, 4#7, 5#7, 3#4, (lb, spad 0), (lb + 8#64, spad 8), by decide, rfl, by decide,
   by decide +kernel⟩

/-- The state with an endpoint's block of 32 bytes in the scratchpad (R385). -/
def epBlock (s : State) : State :=
  { s with mem := wrNum (wrNum (wrNum s.mem 0x1000000000008 8 0x9000) 0x1000000000010 8 64) 0x1000000000018 8 0x9040 }

theorem met_epbind : ∃ (s s1 : State) (a : BitVec 7) (e : BitVec 5) (x : XOk), Legal (.epbind a e) s ∧
    address s .read (readVal (me s) a) 32 = .ok (x, s1) ∧ isRegion x.pa = false ∧ x.pa % 32 = 0 ∧
    poisonedIn s.mem x.pa 32 = none ∧
    (let blk := rdBytes s.mem x.pa 32
     jobLive s (numAt blk 0 2) = true ∧ numAt blk 2 6 = 0 ∧ numAt blk 8 8 % 64 = 0 ∧ numAt blk 16 8 % 64 = 0 ∧
       64 ≤ numAt blk 16 8 ∧ numAt blk 24 8 % 8 = 0 ∧ (endpointAt s e.toNat).bound = false ∧
       (endpointAt s e.toNat).frozen = false) :=
  ⟨epBlock (sx lb 0#64), _, 4#7, 31#5, spad 0, by decide, addressed (by decide), by decide, by decide, by decide,
   by decide +kernel⟩

theorem met_epunb : ∃ s e, Legal (.epunb e) s ∧ (endpointAt s e.toNat).bound = true ∧
    (endpointAt s e.toNat).frozen = false ∧ endpointInUse s e.toNat = false :=
  ⟨{ sx 0#64 0#64 with endpoints := Vector.replicate 32 { bound := true } }, 31#5, by decide⟩

theorem met_epunb_refused : ∃ s e, Legal (.epunb e) s ∧ (endpointAt s e.toNat).bound = false :=
  ⟨sx 0#64 0#64, 31#5, by decide⟩

theorem met_saveWords_range : ∃ s a b, Legal (.snapq a b) s ∧ 2 ^ 34 ≤ (readVal (me s) b).toNat :=
  ⟨sx 0#64 0x400000000#64, 6#7, 5#7, by decide⟩

theorem met_preempt_none : ∃ s a b, Legal (.preempt a b) s ∧ Legal (.resume a b) s ∧ Legal (.snapq a b) s ∧
    (readVal (me s) b).toNat < 2 ^ 34 ∧ mget s.launches (named (readVal (me s) b)) = none :=
  ⟨sx 0#64 2#64, 6#7, 5#7, by decide⟩

theorem met_preempt_own : ∃ s a b l, Legal (.preempt a b) s ∧ (readVal (me s) b).toNat < 2 ^ 34 ∧
    mget s.launches (named (readVal (me s) b)) = some l ∧ mayName s l ∧ named (readVal (me s) b) = (me s).launch :=
  ⟨sx 0#64 1#64, 6#7, 5#7, lch, by decide, by decide, by decide, .inl (by decide), by decide⟩

theorem met_preempt_refused : ∃ s a b l, Legal (.preempt a b) s ∧ (readVal (me s) b).toNat < 2 ^ 34 ∧
    mget s.launches (named (readVal (me s) b)) = some l ∧ mayName s l ∧ named (readVal (me s) b) ≠ (me s).launch ∧
    saveStatus s (named (readVal (me s) b)) ≠ 0 :=
  ⟨other (sx 0#64 2#64) .pool, 6#7, 5#7, _, by decide, by decide, rfl, .inl (by decide), by decide, by decide +kernel⟩

theorem met_preempt : ∃ s a b l, Legal (.preempt a b) s ∧ (readVal (me s) b).toNat < 2 ^ 34 ∧
    mget s.launches (named (readVal (me s) b)) = some l ∧ mayName s l ∧ named (readVal (me s) b) ≠ (me s).launch ∧
    saveStatus s (named (readVal (me s) b)) = 0 :=
  ⟨{ other (sx 0#64 2#64) .running with jobs := [(0, { save := lb })] }, 6#7, 5#7, _, by decide, by decide, rfl,
   .inl (by decide), by decide, by decide +kernel⟩

theorem met_resume : ∃ s a b l sh, Legal (.resume a b) s ∧ (readVal (me s) b).toNat < 2 ^ 34 ∧
    mget s.launches (named (readVal (me s) b)) = some l ∧ mayName s l ∧ l.st = .suspended ∧
    poolEntry s (named (readVal (me s) b) / 2 ^ 32) l.depth = some sh :=
  ⟨other (sx 0#64 2#64) .suspended, 6#7, 5#7, _, true, by decide, by decide, rfl, .inl (by decide), by decide, by decide +kernel⟩

theorem met_resume_full : ∃ s a b l, Legal (.resume a b) s ∧ (readVal (me s) b).toNat < 2 ^ 34 ∧
    mget s.launches (named (readVal (me s) b)) = some l ∧ mayName s l ∧ l.st = .suspended ∧
    poolEntry s (named (readVal (me s) b) / 2 ^ 32) l.depth = none :=
  ⟨{ full (sx 0#64 2#64) with
     launches := (2, { lch with st := .suspended, depth := 1 }) :: (full (sx 0#64 2#64)).launches.map fun x => (x.1 + 2, x.2) },
   6#7, 5#7, _, by decide, by decide, rfl, .inl (by decide), by decide, by decide +kernel⟩

theorem met_maintenance : ∃ s a b, Legal (.tlbinv a b) s ∧ (readVal (me s) b).toNat < 65536 ∧ Legal (.tlbinva a 0#1) s ∧
    Legal (.wcinv a) s ∧ Legal (.xlprobe a b) s ∧ (regK2 (me s)).toNat < 65536 ∧ jobLive s (regK2 (me s)).toNat = true ∧
    canonical (readVal (me s) b) = true :=
  ⟨sx 0#64 0#64, 4#7, 5#7, by decide⟩

theorem met_tlbinv_range : ∃ s a b, Legal (.tlbinv a b) s ∧ 65536 ≤ (readVal (me s) b).toNat :=
  ⟨sx 0#64 65536#64, 4#7, 5#7, by decide⟩

theorem met_xlprobe_canonical : ∃ s a b, Legal (.xlprobe a b) s ∧ (regK2 (me s)).toNat < 65536 ∧
    jobLive s (regK2 (me s)).toNat = true ∧ canonical (readVal (me s) b) = false :=
  ⟨sx 0#64 0x0200000000000000#64, 6#7, 5#7, by decide⟩

theorem met_freeze_nothing : ∃ s a, Legal (.freeze a) s ∧ readMaster (readVal (me s) a) = none := ⟨sx 0xFF#64 0#64, 4#7, by decide⟩

/-- The state with a bound endpoint of the system job, and a second unit of the launch. -/
def bound (s : State) : State :=
  { s with endpoints := Vector.replicate 32 { bound := true }, units := [(0, me s), (1, me s)] }

theorem met_freeze_endpoint : ∃ s a e, Legal (.freeze a) s ∧ e < 32 ∧
    readMaster (readVal (me s) a) = some (.endpoint e) ∧ mayFreeze s (me s).csr.jobid.toNat (.endpoint e) = true :=
  ⟨bound (sx 0x1C0000000000001F#64 0#64), 4#7, 31, by decide⟩

theorem met_freeze_unit : ∃ s a u, Legal (.freeze a) s ∧ readMaster (readVal (me s) a) = some (.unit u) ∧
    mayFreeze s (me s).csr.jobid.toNat (.unit u) = true ∧ u ≠ s.cur :=
  ⟨bound (sx 0x400000000000#64 0#64), 4#7, 1, by decide⟩

/-! ## Vector and online elements -/

/-- A DATA token. -/
def dat (v : Nat) : Token := { data := BitVec.ofNat 512 v }

/-- VADD of binary64 vectors. -/
def vaddCell : State := cell 8 0x20020000#32 [(0, [dat 0x3FF0000000000000, dat 0]), (1, [dat 0x3FF0000000000000, dat 1])] {}

theorem met_vectorWords : ∃ s s0 i f ps g, Ready s s0 ∧ vectorForm s0 i = some (f, ps, g) ∧ Offered s0 ps (tokensOf f.width) :=
  ⟨vaddCell, _, .vadd 0#5 8#5 0#3 0#2 0#4, .fp binary64, [portAs 0 0#5, portAs 1 8#5], _, ready (by decide) (by decide), rfl,
   offered (by decide +kernel)⟩

theorem met_vmac : ∃ s s0 a b f x, Ready s s0 ∧ Offered s0 [portAs 0 a, portAs 1 b] (tokensOf (laneFmt f x).width) :=
  ⟨vaddCell, _, 0#5, 8#5, 1#3, 0#4, ready (by decide) (by decide), offered (by decide +kernel)⟩

/-- VCVT from a format of a code. -/
def vcvtCell (c : Word) (q : List Token) : State := cell 8 0x2C000000#32 [(0, q)] { args := args c 0#64 0#64 0#64 }

theorem met_vcvt_gathers : ∃ s s0 a f x src got, Ready s s0 ∧ cvtSource (slot s0 0) = some src ∧
    Offered s0 [portAs 0 a] (tokensOf src.width) ∧
    got = (wk s0).got ++ present s0 [portAs 0 a] (tokensOf src.width) (portAs 0 a) ∧
    got.length * lanesOf src.width ≠ tokensOf src.width * max (lanesOf src.width) (lanesOf (laneFmt f x).width) :=
  ⟨vcvtCell 1#64 [dat 1], _, 0#5, 3#3, 0#4, .fp binary32, [dat 1], ready (by decide) (by decide), by decide,
   offered (by decide +kernel), by decide +kernel, by decide⟩

theorem met_vcvt_emits : ∃ s s0 a f x src got, Ready s s0 ∧ cvtSource (slot s0 0) = some src ∧
    Offered s0 [portAs 0 a] (tokensOf src.width) ∧
    got = (wk s0).got ++ present s0 [portAs 0 a] (tokensOf src.width) (portAs 0 a) ∧
    got.length * lanesOf src.width = tokensOf src.width * max (lanesOf src.width) (lanesOf (laneFmt f x).width) ∧
    ∀ v ∈ got, v.ty = tyData :=
  ⟨vcvtCell 3#64 [dat 0x3C00], _, 0#5, 1#3, 0#4, .fp binary16, [dat 0x3C00], ready (by decide) (by decide), by decide,
   offered (by decide +kernel), by decide +kernel, by decide, by decide⟩

/-- A flit of a value group, all of whose lanes hold a slot. -/
def flit (ty : BitVec 4) (n : Nat) : Token :=
  { ty := ty, data := BitVec.ofNat 512 ((List.range 128).foldl (fun v j => v + n * 16 ^ j) 0) }

/-- The header of a group whose exponents are 0, and one digit of 1 in every lane. -/
def group1 : List Token := [flit 2#4 0, flit 2#4 0, flit 2#4 0]

/-- OADD inside a group, with k digits taken at either port and one more at each. -/
def oaddCell (k : Nat) : State :=
  cell 0 0x01010000#32 [(0, [flit 1#4 9]), (1, [flit 1#4 9])]
    { grp := { active := true, inA := group1 ++ List.replicate k (flit 1#4 9), inB := group1 ++ List.replicate k (flit 1#4 9)
               hdrOut := if k + 1 ≤ 2 then 0 else 3 } }

/-- What DigitsOffered asks, as a check. -/
def offersDigits (s : State) (ps : List Port) : Bool :=
  decide (ps.map (·.k)).Nodup && ps.all fun p => (heldAt s p).isNone &&
    match (portFifo s p).q with
    | t :: _ => decide (t.ty = tyDigit) && !t.gend
    | [] => false

theorem offeredDigits {s : State} {ps : List Port} (h : offersDigits s ps = true) : DigitsOffered s ps := by
  unfold offersDigits at h
  simp only [Bool.and_eq_true, List.all_eq_true, decide_eq_true_eq] at h
  refine ⟨h.1, fun p hp => ?_⟩
  obtain ⟨h1, h2⟩ := h.2 p hp
  refine ⟨Option.isNone_iff_eq_none.mp h1, ?_⟩
  cases hq : (portFifo s p).q with
  | nil => rw [hq] at h2; cases h2
  | cons t q =>
    rw [hq] at h2
    simp only [Bool.and_eq_true, decide_eq_true_eq, Bool.not_eq_true'] at h2
    exact ⟨t, q, rfl, h2⟩

theorem met_digitWords_header : ∃ s s0 i op p ps d n, Ready s s0 ∧ digitForm i = some (op, p, ps) ∧ n = p.toNat + 6 ∧
    DigitsOffered s0 ps ∧ InGroup s0 op ps n d :=
  ⟨oaddCell 1, _, .oadd 0#5 8#5 0#5, .add, 0#5, _, 2, 6, ready (by decide) (by decide), rfl, rfl,
   offeredDigits (by decide +kernel), by decide +kernel⟩

theorem met_digitWords_digit : ∃ s s0 i op p ps d n, Ready s s0 ∧ digitForm i = some (op, p, ps) ∧ n = p.toNat + 6 ∧
    DigitsOffered s0 ps ∧ InGroup s0 op ps n d :=
  ⟨oaddCell 2, _, .oadd 0#5 8#5 0#5, .add, 0#5, _, 3, 6, ready (by decide) (by decide), rfl, rfl,
   offeredDigits (by decide +kernel), by decide +kernel⟩

/-- The same state with OCMP. -/
theorem met_digitWords_compare : ∃ s s0 i op p ps d n, Ready s s0 ∧ digitForm i = some (op, p, ps) ∧ n = p.toNat + 6 ∧
    DigitsOffered s0 ps ∧ InGroup s0 op ps n d ∧ op = .cmp :=
  ⟨oaddCell 1, _, .ocmp 0#5 8#5 0#5 0#1, .cmp, 0#5, _, 2, 6, ready (by decide) (by decide), rfl, rfl,
   offeredDigits (by decide +kernel), by decide +kernel, rfl⟩

/-- OW2D with some tokens of a group taken and one more at its input. -/
def ow2dCell (k : Nat) : State :=
  cell 0 0x10000000#32 [(0, [dat 0x3C00])] { grp := { active := true, inA := List.replicate k (dat 0x3C00) } }

theorem met_ow2d : ∃ s s0 a w t q ts, Ready s s0 ∧ heldAt s0 (portAs 0 a) = none ∧ (portAs 0 a).s = 0 ∧
    (portFifo s0 (portAs 0 a)).q = t :: q ∧ t.ty = tyData ∧ (wk s0).grp.active = true ∧ (wk s0).dropGrp = false ∧
    ts = (wk s0).grp.inA ++ [t] ∧ (∀ y ∈ ts, y.ty = tyData) ∧ ts.length < wordsPerGroup (wordFmt w) :=
  ⟨ow2dCell 1, _, 0#5, 3#2, dat 0x3C00, [], _, ready (by decide) (by decide), by decide +kernel, by decide, by decide +kernel,
   by decide, by decide +kernel, by decide +kernel, rfl, by decide +kernel, by decide +kernel⟩

theorem met_ow2d_last : ∃ s s0 a w t q ts, Ready s s0 ∧ heldAt s0 (portAs 0 a) = none ∧ (portAs 0 a).s = 0 ∧
    (portFifo s0 (portAs 0 a)).q = t :: q ∧ t.ty = tyData ∧ (wk s0).grp.active = true ∧ (wk s0).dropGrp = false ∧
    ts = (wk s0).grp.inA ++ [t] ∧ (∀ y ∈ ts, y.ty = tyData) ∧ ts.length = wordsPerGroup (wordFmt w) ∧
    killMask (el s0).killIn (BitVec.ofNat 12 (wk s0).seq) = 0#128 :=
  ⟨ow2dCell 3, _, 0#5, 3#2, dat 0x3C00, [], _, ready (by decide) (by decide), by decide +kernel, by decide, by decide +kernel,
   by decide, by decide +kernel, by decide +kernel, rfl, by decide +kernel, by decide +kernel, by decide +kernel⟩

/-- OD2W or OACC with a header taken and one digit flit at its input. -/
def od2wCell (gend : Bool) : State :=
  cell 0 0x11000000#32 [(0, [{ flit 1#4 9 with gend := gend }])] { grp := { active := true, inA := group1 } }

theorem met_od2w : ∃ s s0 a t q ts, Ready s s0 ∧ heldAt s0 (portAs 0 a) = none ∧ (portFifo s0 (portAs 0 a)).q = t :: q ∧
    t.ty = tyDigit ∧ (wk s0).grp.active = true ∧ (wk s0).dropGrp = false ∧ (wk s0).grp.endA = false ∧
    ts = (wk s0).grp.inA ++ [t] ∧ 4 ≤ ts.length ∧ killMask (el s0).killIn (BitVec.ofNat 12 (wk s0).seq) = 0#128 ∧
    t.gend = false :=
  ⟨od2wCell false, _, 0#5, { flit 1#4 9 with gend := false }, [], _, ready (by decide) (by decide), by decide +kernel,
   by decide +kernel, by decide, by decide +kernel, by decide +kernel, by decide +kernel, rfl, by decide +kernel,
   by decide +kernel, by decide⟩

theorem met_od2w_last : ∃ s s0 a t q ts, Ready s s0 ∧ heldAt s0 (portAs 0 a) = none ∧ (portFifo s0 (portAs 0 a)).q = t :: q ∧
    t.ty = tyDigit ∧ (wk s0).grp.active = true ∧ (wk s0).dropGrp = false ∧ (wk s0).grp.endA = false ∧
    ts = (wk s0).grp.inA ++ [t] ∧ 4 ≤ ts.length ∧ killMask (el s0).killIn (BitVec.ofNat 12 (wk s0).seq) = 0#128 ∧
    t.gend = true ∧ (laneOf ts true 6 127).mem = true :=
  ⟨od2wCell true, _, 0#5, { flit 1#4 9 with gend := true }, [], _, ready (by decide) (by decide), by decide +kernel,
   by decide +kernel, by decide, by decide +kernel, by decide +kernel, by decide +kernel, rfl, by decide +kernel,
   by decide +kernel, by decide, by decide +kernel⟩

/-! ## The array, the converter and the joiner -/

/-- An operation of the array on one row from row 0. -/
def maCell (w : BitVec 32) (m : Word) (q : List (Nat × List Token)) (i : IntakeState) : State :=
  cell 9 w q { args := args 0#64 m 0#64 0#64, intake := i }

/-- MMA on a row of binary64. -/
def mmaCell : State := maCell 0x40000000#32 1#64 [(0, [dat 0x3FF0000000000000])] {}

theorem met_mma : ∃ s s0 a b c f x i w, Ready s s0 ∧ i = Instr.mma a b c f x ∧
    w = { op := .mma, lf := laneFmt f x, c := c, ab := portAs 0 a :: (if (laneFmt f x).width = 8 then [portAs 1 b] else []) } ∧
    ArrayArgs s0 (accWidth w.lf.width) ∧ Fed s0 w ∧ Offered s0 w.ab 1 ∧ (wk s0).discard = false ∧
    RowFree s0 (accWidth w.lf.width) (rowNo (rawArgs s0) (wk s0).count) ∧
    (∀ p ∈ w.ab, ∀ t ∈ present s0 w.ab 1 p, ∀ q ∈ w.ab, ∀ u ∈ present s0 w.ab 1 q, t.seq = u.seq) :=
  ⟨mmaCell, _, 0#5, 8#5, 0#5, 0#3, 0#4, _, _, ready (by decide) (by decide), rfl, rfl, by decide, by decide,
   offered (by decide +kernel), by decide, by decide, by decide⟩

/-- MMAS on a row of E4M3 with its scales. -/
def mmasCell : State :=
  maCell 0x41000000#32 1#64 [(0, [dat 0x38]), (1, [dat 0x38])] { scales := [[{ ty := tyScale, data := 0x7F7F7F7F#512 }]] }

theorem met_mmas : ∃ s s0 a b c f x i w, Ready s s0 ∧ i = Instr.mmas a b c f x ∧ (laneFmt f x).width = 8 ∧
    w = { op := .mmas, lf := laneFmt f x, ab := [portAs 0 a, portAs 1 b], c := c } ∧
    ArrayArgs s0 (accWidth w.lf.width) ∧ Fed s0 w ∧ Offered s0 w.ab 1 ∧ (wk s0).discard = false ∧
    RowFree s0 (accWidth w.lf.width) (rowNo (rawArgs s0) (wk s0).count) ∧
    (∀ p ∈ w.ab, ∀ t ∈ present s0 w.ab 1 p, ∀ q ∈ w.ab, ∀ u ∈ present s0 w.ab 1 q, t.seq = u.seq) :=
  ⟨mmasCell, _, 0#5, 8#5, 16#5, 4#3, 0#4, _, _, ready (by decide) (by decide), rfl, by decide, rfl, by decide, by decide +kernel,
   offered (by decide +kernel), by decide, by decide, by decide⟩

/-- MMAC with a row that the converter has passed on, beside a converter of E4M3. -/
def mmacCell : State :=
  { maCell 0x42000000#32 1#64 [] { chain := [dat 0x38, dat 0, { ty := tyScale, data := 0x7F7F7F7F#512 }] } with
    banks := [(0, { words := { ewords := [(9, 0x42000000#32), (22, 0x50000100#32)], swords := [0x0900#16] }, launch := some 1 })] }

theorem met_mmac : ∃ s s0 c f x w u v z rest, Ready s s0 ∧ w = { op := .mmac, lf := laneFmt f x, ab := [], c := c } ∧
    (laneFmt f x).width = 8 ∧ ArrayArgs s0 (accWidth w.lf.width) ∧ Fed s0 w ∧ (intake s0).chain = u :: v :: z :: rest ∧
    u.ty ≠ tyEos ∧ u.ty ≠ tyTag ∧ (∀ t ∈ [u, v, z], t.ty ≠ tyErr) ∧ (ewordAt s0 s0.cur 22).extractLsb' 6 3 = f ∧
    RowFree s0 32 (rowNo (rawArgs s0) (wk s0).count) :=
  ⟨mmacCell, _, 0#5, 4#3, 0#4, _, dat 0x38, dat 0, { ty := tyScale, data := 0x7F7F7F7F#512 }, [], ready (by decide) (by decide),
   rfl, by decide, by decide, by decide +kernel, by decide +kernel, by decide, by decide, by decide, by decide, by decide⟩

/-- MSPM on a group of four rows of E4M3 with one element. -/
def mspmCell : State :=
  maCell 0x47000000#32 4#64 [(0, [dat 0x38]), (1, [dat 1])] { scales := [[{ ty := tyScale, data := 0x7F7F7F7F#512 }]] }

theorem met_mspm : ∃ s s0 a b c f x w g q, Ready s s0 ∧ w = { op := .mspm, lf := laneFmt f x, ab := [portAs 0 a, portAs 1 b], c := c } ∧
    (laneFmt f x).width = 8 ∧ ArrayArgs s0 32 ∧ (rawArgs s0).m % 4 = 0 ∧ (wk s0).count % 4 = 0 ∧ Fed s0 w ∧
    (wk s0).discard = false ∧ Plain s0 w.ab ∧ (portAs 0 a).k ≠ (portAs 1 b).k ∧
    (portFifo s0 (portAs 1 b)).q.head? = some g ∧ g.ty = tyData ∧ q.length = (popN 512 g.data.toNat + 63) / 64 ∧
    ((portFifo s0 (portAs 0 a)).q.take q.length).map (fun t => t.data.toNat) = q ∧
    (∀ t ∈ (portFifo s0 (portAs 0 a)).q.take q.length, t.ty = tyData) ∧
    (∀ t, (portFifo s0 (portAs 0 a)).q.head? = some t → t.ty = tyData) ∧
    (∀ j, j < 4 → RowFree s0 32 (rowNo (rawArgs s0) ((wk s0).count + j))) :=
  ⟨mspmCell, _, 0#5, 8#5, 16#5, 4#3, 0#4, _, dat 1, [0x38], ready (by decide) (by decide), rfl, by decide, by decide, by decide,
   by decide, by decide +kernel, by decide, by decide, by decide, by decide +kernel, by decide, by decide +kernel,
   by decide +kernel, by decide +kernel, fun t h => by cases (show some (dat 0x38) = some t from h); decide, by decide⟩

theorem met_mzero : ∃ s s0 a f x p aw, Ready s s0 ∧ p = portAs 0 a ∧ Offered s0 [p] 1 ∧ aw = accWidth (laneFmt f x).width ∧
    ArrayArgs s0 aw ∧ noCtl (rawArgs s0) = true ∧ RowFree s0 aw (rowNo (rawArgs s0) (wk s0).count) :=
  ⟨mmaCell, _, 0#5, 0#3, 0#4, _, _, ready (by decide) (by decide), rfl, offered (by decide +kernel), rfl, by decide,
   by decide, by decide⟩

/-- MRD's clause, for binary16 from binary32 accumulators. -/
theorem met_mrd : ∃ s s0 a f p aw, Ready s s0 ∧ p = portAs 0 a ∧ Offered s0 [p] 1 ∧
    aw = (if (rawArgs s0).kind = 1 then 64 else 32) ∧ ArrayArgs s0 aw ∧ noCtl (rawArgs s0) = true ∧
    kindSuits (BitVec.toNat (w := 3) f) (rawArgs s0) = true ∧ RowFree s0 aw (rowNo (rawArgs s0) (wk s0).count) :=
  ⟨mmaCell, _, 0#5, 2#3, _, _, ready (by decide) (by decide), rfl, offered (by decide +kernel), rfl, by decide,
   by decide, by decide, by decide⟩

/-- MLDB with k tokens of a block of binary64 taken and one more at its input. -/
def mldbCell (k : Nat) : State := maCell 0x43000000#32 1#64 [(0, [dat 9])] { part := List.replicate k (dat 9) }

theorem met_mldb : ∃ s s0 a f x p n u q ts, Ready s s0 ∧ p = portAs 0 a ∧
    n = blockToks (laneFmt f x).width + (if (laneFmt f x).isFp8 && x.getLsbD 0 then 3 else 0) ∧
    ts = (intake s0).part ++ [u] ∧ heldAt s0 p = none ∧ (portFifo s0 p).q = u :: q ∧
    u.ty = (if (intake s0).part.length < blockToks (laneFmt f x).width then tyData else tyScale) ∧
    (∀ y ∈ (intake s0).part, y.ty ≠ tyErr) ∧
    ((intake s0).part = [] → ArrayArgs s0 (accWidth (laneFmt f x).width) ∧ noCtl (rawArgs s0) = true) ∧ ts.length < n :=
  ⟨mldbCell 0, _, 0#5, 0#3, 0#4, _, _, dat 9, [], _, ready (by decide) (by decide), rfl, rfl, rfl, by decide +kernel,
   by decide +kernel, by decide +kernel, by decide, by decide, by decide +kernel⟩

theorem met_mldb_last : ∃ s s0 a f x p n u q ts, Ready s s0 ∧ p = portAs 0 a ∧
    n = blockToks (laneFmt f x).width + (if (laneFmt f x).isFp8 && x.getLsbD 0 then 3 else 0) ∧
    ts = (intake s0).part ++ [u] ∧ heldAt s0 p = none ∧ (portFifo s0 p).q = u :: q ∧
    u.ty = (if (intake s0).part.length < blockToks (laneFmt f x).width then tyData else tyScale) ∧
    (∀ y ∈ (intake s0).part, y.ty ≠ tyErr) ∧
    ((intake s0).part = [] → ArrayArgs s0 (accWidth (laneFmt f x).width) ∧ noCtl (rawArgs s0) = true) ∧ ts.length = n :=
  ⟨mldbCell 7, _, 0#5, 0#3, 0#4, _, _, dat 9, [], _, ready (by decide) (by decide), rfl, rfl, rfl, by decide +kernel,
   by decide +kernel, by decide +kernel, by decide, by decide, by decide +kernel⟩

/-- MCX of the 32 largest keys. -/
def mcxCell : State := cell 9 0x46000000#32 [(0, [dat 5])] { args := args 32#64 1#64 0#64 0#64 }

theorem met_mcx : ∃ s s0 a p u, Ready s s0 ∧ p = portAs 0 a ∧ Offered s0 [p] 1 ∧ present s0 [p] 1 p = [u] ∧
    1 ≤ (slot s0 0).toNat ∧ (slot s0 0).toNat ≤ 32 ∧ (slot s0 1).toNat < 2 :=
  ⟨mcxCell, _, 0#5, _, dat 5, ready (by decide) (by decide), rfl, offered (by decide +kernel), by decide +kernel, by decide,
   by decide, by decide⟩

/-- CVDN with some words of a block taken and one more token at its input. -/
def cvdnCell (k : Nat) (v : Word) : State :=
  cell 22 0x50000000#32 [(0, [dat 0x3F800000])] { args := args v 0x10100#64 0#64 0#64, got := List.replicate k (dat 1) }

theorem met_cvdn : ∃ s s0 a v u ts, Ready s s0 ∧ Offered s0 [portAs 0 a] 1 ∧ cvArgs s0 u = .ok v ∧
    present s0 [portAs 0 a] 1 (portAs 0 a) = [u] ∧ v.chain = false ∧ ts = (wk s0).got ++ [u] ∧ (∀ y ∈ ts, y.ty = tyData) ∧
    ts.length * 512 < 32 * (fmtOf v.src).width :=
  ⟨cvdnCell 0 0x40000#64, _, 0#5, _, dat 0x3F800000, _, ready (by decide) (by decide), offered (by decide +kernel),
   okOf (by decide), by decide +kernel, by decide, rfl, by decide +kernel, by decide +kernel⟩

theorem met_cvdn_last : ∃ s s0 a v u ts, Ready s s0 ∧ Offered s0 [portAs 0 a] 1 ∧ cvArgs s0 u = .ok v ∧
    present s0 [portAs 0 a] 1 (portAs 0 a) = [u] ∧ v.chain = false ∧ ts = (wk s0).got ++ [u] ∧ (∀ y ∈ ts, y.ty = tyData) ∧
    ts.length * 512 = 32 * (fmtOf v.src).width :=
  ⟨cvdnCell 1 0x40000#64, _, 0#5, _, dat 0x3F800000, _, ready (by decide) (by decide), offered (by decide +kernel),
   okOf (by decide), by decide +kernel, by decide, rfl, by decide +kernel, by decide +kernel⟩

/-- CVDN in chain mode beside MMAC. -/
def chainCell : State :=
  { cvdnCell 0 0x10000#64 with
    banks := [(0, { words := { ewords := [(9, 0x42000000#32), (22, 0x50000000#32)], swords := [0x0E00#16] }, launch := some 1 })] }

theorem met_cvdn_chain : ∃ s s0 a v u, Ready s s0 ∧ Offered s0 [portAs 0 a] 1 ∧ cvArgs s0 u = .ok v ∧
    present s0 [portAs 0 a] 1 (portAs 0 a) = [u] ∧ v.chain = true ∧ s.curElem = 22 ∧
    eopOf (ewordAt s0 s0.cur 9) = 0x42 ∧ (wk s0).count < v.mc ∧
    (∀ q, q < 4 → v.srow0 + (wk s0).count + v.sigma * q < accRows s0 s0.cur 32) ∧
    (∀ q, q < 4 → RowFree s0 32 (v.srow0 + (wk s0).count + v.sigma * q)) :=
  ⟨chainCell, _, 0#5, _, dat 0x3F800000, ready (by decide) (by decide), offered (by decide +kernel),
   okOf (by decide), by decide +kernel, by decide, rfl, by decide, by decide, by decide, by decide⟩

/-- CVUP of a scaled block. -/
def cvupCell (g : Bool) : State :=
  cell 22 0x51000000#32 [(0, [{ dat 0x38 with gend := g, band := 0x7F#16 }])] { args := args 4#64 0#64 0#64 0#64 }

theorem met_cvup : ∃ s s0 a u c, Ready s s0 ∧ Offered s0 [portAs 0 a] 1 ∧ present s0 [portAs 0 a] 1 (portAs 0 a) = [u] ∧
    u.gend = true ∧ c = (slot s0 0).toNat % 8 ∧ (c = 4 ∨ c = 5) :=
  ⟨cvupCell true, _, 0#5, { dat 0x38 with gend := true, band := 0x7F#16 }, _, ready (by decide) (by decide),
   offered (by decide +kernel), by decide +kernel, rfl, rfl, by decide⟩

theorem met_cvup_word : ∃ s s0 a u c, Ready s s0 ∧ Offered s0 [portAs 0 a] 1 ∧ present s0 [portAs 0 a] 1 (portAs 0 a) = [u] ∧
    u.gend = false ∧ c = (slot s0 0).toNat % 8 ∧ (c = 4 ∨ c = 5) :=
  ⟨cvupCell false, _, 0#5, { dat 0x38 with gend := false, band := 0x7F#16 }, _, ready (by decide) (by decide),
   offered (by decide +kernel), by decide +kernel, rfl, rfl, by decide⟩

/-- SJOIN of a token with a SCALE token. -/
def sjoinCell (g : Bool) (k : BitVec 12) : State :=
  cell 23 0x52000000#32 [(0, [{ dat 5 with gend := g }]), (1, [{ ty := tyScale, seq := k, data := 7#512 }])] {}

theorem met_sjoin : ∃ s s0 a b u, Ready s s0 ∧ Offered s0 [portAs 0 a] 1 ∧ present s0 [portAs 0 a] 1 (portAs 0 a) = [u] ∧
    (portAs 0 a).k ≠ (portAs 1 b).k ∧ (wk s0).discard = false ∧
    (∀ t, (portFifo s0 (portAs 1 b)).q.head? = some t → t.ty = tyScale) ∧ u.gend = false :=
  ⟨sjoinCell false 0#12, _, 0#5, 8#5, dat 5, ready (by decide) (by decide), offered (by decide +kernel), by decide +kernel,
   by decide, by decide, fun t h => by cases (show some ({ ty := tyScale, data := 7#512 } : Token) = some t from h); rfl, rfl⟩

theorem met_sjoin_scale (k : BitVec 12) (hk : k = 0#12 ∨ k = 1#12) : ∃ s s0 a b u c q, Ready s s0 ∧ Offered s0 [portAs 0 a] 1 ∧
    present s0 [portAs 0 a] 1 (portAs 0 a) = [u] ∧ (portAs 0 a).k ≠ (portAs 1 b).k ∧ (wk s0).discard = false ∧
    (∀ t, (portFifo s0 (portAs 1 b)).q.head? = some t → t.ty = tyScale) ∧ u.gend = true ∧ heldAt s0 (portAs 1 b) = none ∧
    (portFifo s0 (portAs 1 b)).q = c :: q ∧ c.ty = tyScale ∧ c.seq = k ∧ u.seq = 0#12 := by
  rcases hk with rfl | rfl <;> exact
    ⟨sjoinCell true _, _, 0#5, 8#5, { dat 5 with gend := true }, _, [], ready (by decide) (by decide), offered (by decide +kernel),
     by decide +kernel, by decide, by decide, fun t h => by cases (show some _ = some t from h); rfl, rfl, by decide +kernel, rfl,
     rfl, rfl, rfl⟩

/-! ## Memory ports, address streams, translation and the Sieve -/

/-- An element with an operation that starts and ends its wave. -/
def portCell (e : Nat) (w : BitVec 32) (fs : List (Nat × List Token)) (k : Work) : State :=
  { cell e w fs k with
    banks := [(0, { words := { ewords := [(e, w)], swords := [BitVec.ofNat 16 (256 * (8 + e % 8))], wwords := [(e, 3#32)] }
                    launch := some 1 })] }

/-- An address token that XL has translated to the first word of the scratchpad. -/
def addr0 : Token := { data := 0x10001000000000000#512, viaXl := true }

/-- What AtTurn asks of a token whose translation changes nothing, as a check. -/
def turns (s : State) (k : Access) (w : Nat) (a : Token) (x : XOk) : Bool :=
  (match portAddress s k w a with | .ok y => decide (y = (x, s)) | .error _ => false) && !isRegion x.pa && waveTurn s a

theorem atTurn {s : State} {k : Access} {w : Nat} {a : Token} {x : XOk} (h : turns s k w a x = true) : AtTurn s s k w a x := by
  unfold turns at h
  simp only [Bool.and_eq_true, Bool.not_eq_true'] at h
  refine ⟨?_, h.1.2, h.2⟩
  revert h
  cases portAddress s k w a with
  | error _ => intro h; cases h.1.1
  | ok y => intro h; rw [of_decide_eq_true h.1.1]

/-- MLD with an address at its input, and some tokens gathered. -/
def mldCell (k : Nat) : State := portCell 10 0x60000000#32 [(0, [addr0])] { got := List.replicate k (dat 1) }

/-- A check of what Poisoned asks. -/
def poisons (s : State) (n pa w : Nat) : Bool :=
  (accessWords pa w).any fun a => (poisonedIn s.mem a.1 a.2).isSome && decide (forward (ownStores s n) a.1 a.2 = .none)

theorem poisons_iff {s : State} {n pa w : Nat} : poisons s n pa w = true ↔ Poisoned s n pa w := by
  unfold poisons Poisoned
  simp [Option.isSome_iff_ne_none]

theorem clean {s : State} {n pa w : Nat} (h : poisons s n pa w = false) : ¬ Poisoned s n pa w := by
  rw [← poisons_iff, h]; decide

theorem supplied {s : State} {n pa w : Nat}
    (h : ((accessWords pa w).all fun a => (seenValue (ownStores s n) s.mem a.1 a.2).isSome) = true) : Supplied s n pa w :=
  fun a ha => List.all_eq_true.mp h a ha

theorem fromMemory {s : State} {n pa w : Nat}
    (h : ((accessWords pa w).any fun a => decide (forward (ownStores s n) a.1 a.2 = .none)) = true) : FromMemory s n pa w := by
  obtain ⟨a, h1, h2⟩ := List.any_eq_true.mp h
  exact ⟨a, h1, of_decide_eq_true h2⟩

theorem met_mld : ∃ s s0 s1 a wd z x y u w n i sx pk ty, Ready s s0 ∧ Offered s0 [portAs 0 a] 1 ∧
    present s0 [portAs 0 a] 1 (portAs 0 a) = [u] ∧ AtTurn s0 s1 .read w u y ∧ n = (el s0).round ∧ i = Instr.mld a wd z x ∧
    w = 64 / 2 ^ wd.toNat ∧ sx = x.getLsbD 0 ∧ pk = x.getLsbD 1 ∧ loadType s0 (x.getLsbD 2) u = .ok ty ∧
    ¬ Poisoned s n y.pa w ∧ Supplied s n y.pa w ∧ pk = false ∧ FromMemory s n y.pa w :=
  ⟨mldCell 0, _, _, 0#5, 3#3, 0#3, 0#3, spad 0, addr0, 8, _, _, _, _, tyData, ready (by decide) (by decide),
   offered (by decide +kernel), by decide +kernel, atTurn (by decide +kernel), rfl, rfl, rfl, rfl, rfl, rfl,
   clean (by decide +kernel), supplied (by decide +kernel), by decide, fromMemory (by decide +kernel)⟩

/-- A state whose round series has a store to the scratchpad's first word buffered. -/
def buffering (s : State) : State :=
  { s with series := [(4, { isOpen := true, rounds := [{ num := 0, stores := [{ pa := (spad 0).pa, size := 8, value := 9, tile := 0 }] }] })] }

theorem met_mld_forwarded : ∃ s s0 s1 a wd z x y u w n i sx pk ty, Ready s s0 ∧ Offered s0 [portAs 0 a] 1 ∧
    present s0 [portAs 0 a] 1 (portAs 0 a) = [u] ∧ AtTurn s0 s1 .read w u y ∧ n = (el s0).round ∧ i = Instr.mld a wd z x ∧
    w = 64 / 2 ^ wd.toNat ∧ sx = x.getLsbD 0 ∧ pk = x.getLsbD 1 ∧ loadType s0 (x.getLsbD 2) u = .ok ty ∧
    poisonedIn s.mem y.pa w ≠ none ∧ ¬ Poisoned s n y.pa w ∧ Supplied s n y.pa w ∧ pk = false :=
  ⟨buffering (poisoned (mldCell 0)), _, _, 0#5, 3#3, 0#3, 0#3, spad 0, addr0, 8, _, _, _, _, tyData,
   ready (by decide) (by decide), offered (by decide +kernel), by decide +kernel, atTurn (by decide +kernel), rfl, rfl, rfl, rfl,
   rfl, rfl, by decide, clean (by decide +kernel), supplied (by decide +kernel), by decide⟩

theorem met_mld_pack (k : Nat) (hk : k = 0 ∨ k = 7) : ∃ s s0 s1 a wd z x y u w n i sx pk ty got, Ready s s0 ∧
    Offered s0 [portAs 0 a] 1 ∧ present s0 [portAs 0 a] 1 (portAs 0 a) = [u] ∧ AtTurn s0 s1 .read w u y ∧ n = (el s0).round ∧
    i = Instr.mld a wd z x ∧ w = 64 / 2 ^ wd.toNat ∧ sx = x.getLsbD 0 ∧ pk = x.getLsbD 1 ∧
    loadType s0 (x.getLsbD 2) u = .ok ty ∧ ¬ Poisoned s n y.pa w ∧ Supplied s n y.pa w ∧ pk = true ∧
    got = (wk s0).got ++ [{ ty := ty, data := BitVec.ofNat 512 (loaded sx w (threadNum s n y.pa w))
                            seq := u.seq, gend := u.gend }] ∧
    (∀ v ∈ got, v.ty ≠ tyErr) ∧ u.gend = false ∧ got.length = k + 1 ∧ 64 / w = 8 := by
  rcases hk with rfl | rfl
  · exact ⟨mldCell 0, _, _, 0#5, 3#3, 0#3, 2#3, spad 0, addr0, 8, _, _, _, _, tyData, _, ready (by decide) (by decide),
        offered (by decide +kernel), by decide +kernel, atTurn (by decide +kernel), rfl, rfl, rfl, rfl, rfl, rfl,
        clean (by decide +kernel), supplied (by decide +kernel), by decide, rfl, by decide +kernel, rfl, rfl, rfl⟩
  · exact ⟨mldCell 7, _, _, 0#5, 3#3, 0#3, 2#3, spad 0, addr0, 8, _, _, _, _, tyData, _, ready (by decide) (by decide),
        offered (by decide +kernel), by decide +kernel, atTurn (by decide +kernel), rfl, rfl, rfl, rfl, rfl, rfl,
        clean (by decide +kernel), supplied (by decide +kernel), by decide, rfl, by decide +kernel, rfl, rfl, rfl⟩

theorem met_mld_poison : ∃ s s0 s1 a wd z x y u w n i sx pk ty, Ready s s0 ∧ Offered s0 [portAs 0 a] 1 ∧
    present s0 [portAs 0 a] 1 (portAs 0 a) = [u] ∧ AtTurn s0 s1 .read w u y ∧ n = (el s0).round ∧ i = Instr.mld a wd z x ∧
    w = 64 / 2 ^ wd.toNat ∧ sx = x.getLsbD 0 ∧ pk = x.getLsbD 1 ∧ loadType s0 (x.getLsbD 2) u = .ok ty ∧
    Poisoned s n y.pa w ∧ pk = false :=
  ⟨poisoned (mldCell 0), _, _, 0#5, 3#3, 0#3, 0#3, spad 0, addr0, 8, _, _, _, _, tyData, ready (by decide) (by decide),
   offered (by decide +kernel), by decide +kernel, atTurn (by decide +kernel), rfl, rfl, rfl, rfl, rfl, rfl,
   poisons_iff.mp (by decide +kernel), by decide⟩

/-- A handle of 16 numbers of binary64 in the scratchpad. -/
def handle16 : Handle := ((Vector.replicate 16 0#64).set 0 0x100#64).set 1 lb |>.set 2 16#64

/-- A state whose round series has that handle. -/
def handled (s : State) : State := { s with series := [(4, { handles := Vector.replicate 16 handle16 })] }

theorem met_mldt : ∃ s s0 s1 a h y u w n, Ready s s0 ∧ Offered s0 [portAs 0 a] 1 ∧
    present s0 [portAs 0 a] 1 (portAs 0 a) = [u] ∧ AtTurn s0 s1 .read w u y ∧ n = (el s0).round ∧
    portHandle s0 (portAs 0 a) u = .ok h ∧ w = hBytes h ∧ ¬ Poisoned s n y.pa w ∧ Supplied s n y.pa w :=
  ⟨handled (mldCell 0), _, _, 0#5, handle16, spad 0, addr0, 8, _, ready (by decide) (by decide), offered (by decide +kernel),
   by decide +kernel, atTurn (by decide +kernel), rfl, answered (by decide +kernel), by decide, clean (by decide +kernel),
   supplied (by decide +kernel)⟩

/-- MST with an address and a value at its inputs, and some lanes stored. -/
def mstCell (k : Nat) : State := handled (portCell 10 0x61000000#32 [(0, [addr0]), (1, [dat 258])] { count := k })

theorem met_mst (x : BitVec 3) (k : Nat) (hx : x = 0#3 ∨ x = 2#3) (hk : k = 0 ∨ k = 7) :
    ∃ s s0 s1 a b wd z y u v w i pk c, Starts s s0 ∧ Offered s0 [portAs 0 a, portAs 1 b] 1 ∧
    present s0 [portAs 0 a, portAs 1 b] 1 (portAs 0 a) = [u] ∧ present s0 [portAs 0 a, portAs 1 b] 1 (portAs 1 b) = [v] ∧
    AtTurn s0 s1 .write w u y ∧ c = (if pk then (wk s0).count else 0) ∧
    i = Instr.mst a b wd z x ∧ w = 64 / 2 ^ wd.toNat ∧ pk = x.getLsbD 1 ∧ (wk s0).count = k := by
  rcases hx with rfl | rfl <;> rcases hk with rfl | rfl <;> exact
    ⟨mstCell _, _, _, 0#5, 8#5, 3#3, 0#3, spad 0, addr0, dat 258, 8, _, _, _, starts (by decide), offered (by decide +kernel),
     by decide +kernel, by decide +kernel, atTurn (by decide +kernel), rfl, rfl, rfl, rfl, rfl⟩

theorem met_mstt : ∃ s s0 s1 a b h y u v w, Starts s s0 ∧ Offered s0 [portAs 0 a, portAs 1 b] 1 ∧
    present s0 [portAs 0 a, portAs 1 b] 1 (portAs 0 a) = [u] ∧ present s0 [portAs 0 a, portAs 1 b] 1 (portAs 1 b) = [v] ∧
    AtTurn s0 s1 .write w u y ∧ portHandle s0 (portAs 0 a) u = .ok h ∧ w = hBytes h :=
  ⟨mstCell 0, _, _, 0#5, 8#5, handle16, spad 0, addr0, dat 258, 8, starts (by decide), offered (by decide +kernel),
   by decide +kernel, by decide +kernel, atTurn (by decide +kernel), answered (by decide +kernel), by decide⟩

/-- MAMO of a function with an address and operands at its inputs. -/
def mamoCell (n : Word) : State :=
  portCell 10 0x64000000#32 [(0, [addr0]), (1, [dat 3]), (2, [dat 0])] { args := args n 0#64 0#64 0#64 }

theorem met_mamo (x : BitVec 1) (hx : x = 0#1 ∨ x = 1#1) : ∃ s s0 s1 a b c wd y u v w n ps, w = 64 / 2 ^ BitVec.toNat (w := 3) wd ∧ w ≤ 8 ∧
    n = (slot s0 0).toNat ∧ n ≤ 9 ∧ n ≠ 9 ∧ c = 0#5 ∧ ps = [portAs 0 a, portAs 1 b] ++ (if n = 9 then [portAs 2 c] else []) ∧
    (if x = 1#1 then Ready s s0 else Starts s s0) ∧ Offered s0 ps 1 ∧ present s0 ps 1 (portAs 0 a) = [u] ∧
    present s0 ps 1 (portAs 1 b) = [v] ∧ AtTurn s0 s1 .atomic w u y ∧
    pinnedRange s1 (some (seriesOf s s.cur)) y.pa w = false ∧ poisonedIn s.mem y.pa w = none := by
  rcases hx with rfl | rfl
  · exact ⟨mamoCell 0#64, _, _, 0#5, 8#5, 0#5, 3#3, spad 0, addr0, dat 3, 8, 0, _, rfl, by decide, by decide, by decide, by decide,
      rfl, rfl, starts (by decide), offered (by decide +kernel), by decide +kernel, by decide +kernel,
      atTurn (by decide +kernel), by decide, by decide⟩
  · exact ⟨mamoCell 0#64, _, _, 0#5, 8#5, 0#5, 3#3, spad 0, addr0, dat 3, 8, 0, _, rfl, by decide, by decide, by decide, by decide,
      rfl, rfl, ready (by decide) (by decide), offered (by decide +kernel), by decide +kernel, by decide +kernel,
      atTurn (by decide +kernel), by decide, by decide⟩

theorem met_mamo_swap : ∃ s s0 s1 a b c wd y u v k w n ps, w = 64 / 2 ^ BitVec.toNat (w := 3) wd ∧ w ≤ 8 ∧
    n = (slot s0 0).toNat ∧ n = 9 ∧ ps = [portAs 0 a, portAs 1 b] ++ (if n = 9 then [portAs 2 c] else []) ∧
    Ready s s0 ∧ Offered s0 ps 1 ∧ present s0 ps 1 (portAs 0 a) = [u] ∧
    present s0 ps 1 (portAs 1 b) = [v] ∧ present s0 ps 1 (portAs 2 c) = [k] ∧ AtTurn s0 s1 .atomic w u y ∧
    pinnedRange s1 (some (seriesOf s s.cur)) y.pa w = false ∧ poisonedIn s.mem y.pa w = none :=
  ⟨mamoCell 9#64, _, _, 0#5, 8#5, 16#5, 3#3, spad 0, addr0, dat 3, dat 0, 8, 9, _, rfl, by decide, by decide, rfl, rfl,
   ready (by decide) (by decide), offered (by decide +kernel), by decide +kernel, by decide +kernel, by decide +kernel,
   atTurn (by decide +kernel), by decide, by decide⟩

/-- MLDF with an address at its input. -/
def mldfCell : State := portCell 10 0x65000000#32 [(0, [addr0])] {}

theorem met_mldf (x : BitVec 1) (hx : x = 0#1 ∨ x = 1#1) :
    ∃ s s0 s1 k a y u, k = (if x = 1#1 then Access.atomic else Access.read) ∧ Ready s s0 ∧ Offered s0 [portAs 0 a] 1 ∧ (wk s0).got = [] ∧
    present s0 [portAs 0 a] 1 (portAs 0 a) = [u] ∧ AtTurn s0 s1 k 8 u y ∧ isSpad y.pa = true ∧
    poisonedIn s.mem y.pa 8 = none ∧ s.twaiters = [] ∧ isFull s.mem y.pa = true ∧
    pinnedRange s1 (some (seriesOf s s.cur)) y.pa 8 = false ∧ ∃ v, slotSees s0 s.cur s.curElem y.pa 8 = some v := by
  rcases hx with rfl | rfl <;> exact
    ⟨filled mldfCell, _, _, _, 0#5, spad 0, addr0, rfl, ready (by decide) (by decide), offered (by decide +kernel), by decide,
     by decide +kernel, atTurn (by decide +kernel), by decide, by decide, by decide, by decide, by decide,
     _, someOf (by decide +kernel)⟩

theorem met_mldf_empty : ∃ s s0 s1 a y u, Ready s s0 ∧ Offered s0 [portAs 0 a] 1 ∧ (wk s0).got = [] ∧
    present s0 [portAs 0 a] 1 (portAs 0 a) = [u] ∧ AtTurn s0 s1 .read 8 u y ∧ isSpad y.pa = true ∧
    poisonedIn s.mem y.pa 8 = none ∧ s.twaiters = [] ∧ isFull s.mem y.pa = false :=
  ⟨mldfCell, _, _, 0#5, spad 0, addr0, ready (by decide) (by decide), offered (by decide +kernel), by decide,
   by decide +kernel, atTurn (by decide +kernel), by decide, by decide, by decide, by decide⟩

/-- MSTE with an address and a value at its inputs. -/
def msteCell : State := portCell 10 0x66000000#32 [(0, [addr0]), (1, [dat 7])] {}

theorem met_mste : ∃ s s0 s1 a b y u v, Starts s s0 ∧ Offered s0 [portAs 0 a, portAs 1 b] 1 ∧ (wk s0).got = [] ∧
    present s0 [portAs 0 a, portAs 1 b] 1 (portAs 0 a) = [u] ∧ present s0 [portAs 0 a, portAs 1 b] 1 (portAs 1 b) = [v] ∧
    AtTurn s0 s1 .write 8 u y ∧ isSpad y.pa = true ∧ s.twaiters = [] ∧ isFull s.mem y.pa = false ∧
    pinnedRange s1 (some (seriesOf s s.cur)) y.pa 8 = false :=
  ⟨msteCell, _, _, 0#5, 8#5, spad 0, addr0, dat 7, starts (by decide), offered (by decide +kernel), by decide,
   by decide +kernel, by decide +kernel, atTurn (by decide +kernel), by decide, by decide, by decide, by decide⟩

theorem met_mste_full : ∃ s s0 s1 a b y u v, Starts s s0 ∧ Offered s0 [portAs 0 a, portAs 1 b] 1 ∧ (wk s0).got = [] ∧
    present s0 [portAs 0 a, portAs 1 b] 1 (portAs 0 a) = [u] ∧ present s0 [portAs 0 a, portAs 1 b] 1 (portAs 1 b) = [v] ∧
    AtTurn s0 s1 .write 8 u y ∧ isSpad y.pa = true ∧ s.twaiters = [] ∧ isFull s.mem y.pa = true :=
  ⟨filled msteCell, _, _, 0#5, 8#5, spad 0, addr0, dat 7, starts (by decide), offered (by decide +kernel), by decide,
   by decide +kernel, by decide +kernel, atTurn (by decide +kernel), by decide, by decide, by decide⟩

/-- A stream of a count, not started or under way. -/
def strm (n : Nat) (on : Bool) : Stream :=
  { count := n, rank := 1#2, roundsz := 0, scopedef := 3, handles := Vector.replicate 16 handle16, started := on
    args := #v[lb, 0#64, 0#64, 0#64, 0#64, lb, lb + 64#64, 0#64] }

/-- A source of a stream. -/
def sourceCell (e : Nat) (w : BitVec 32) (fs : List (Nat × List Token)) (x : Stream) (k : Work) : State :=
  { cell e w fs k with elems := [(e, { work := k, stream := some x })] }

/-- AGA over four words of the scratchpad. -/
def agaCell : State :=
  sourceCell 14 0x68000000#32 [] (strm 0 false)
    { args := #v[lb, 0x8000004#64, 0#64, 0#64, 0#64, lb, lb + 64#64, 1#64] }

theorem met_aga : ∃ s s0 x s1 ds, Ready s s0 ∧ (el s0).stream = some x ∧ s1 = streaming s0 x ∧ ds = affDims s1 ∧
    Runs x (decide (x.emitted < affTotal s0 x)) ∧ (x.started = false → affCheck s1 = .ok ()) :=
  ⟨agaCell, _, strm 0 false, _, _, ready (by decide) (by decide), by decide, rfl, rfl, fun h => absurd h (by decide),
   fun _ => answered (by decide +kernel)⟩

/-- AGX with an index at its input, in a window of eight words. -/
def agxCell (i : Nat) : State :=
  sourceCell 14 0x69000000#32 [(0, [dat i])] (strm 0 true)
    { args := #v[lb, 3#64, 0#64, 0#64, 0#64, lb, lb + 64#64, 0#64] }

theorem met_agx (i : Nat) (hi : i = 7 ∨ i = 8) : ∃ s s0 a x s1 u addr, Ready s s0 ∧ (el s0).stream = some x ∧
    s1 = streaming s0 x ∧ Offered s0 [portAs 0 a] 1 ∧ present s0 [portAs 0 a] 1 (portAs 0 a) = [u] ∧ x.count = 0 ∧ x.tagDue = false ∧
    (slot s0 1).toNat ≤ 6 ∧ canonical (slot s0 5) = true ∧ canonical (slot s0 6) = true ∧
    (slot s0 5).toNat < (slot s0 6).toNat ∧ addr = slot s0 0 + ((u.data.setWidth 64) <<< (slot s0 1).toNat) ∧
    ((slot s0 5).toNat ≤ addr.toNat ∧ addr.toNat < (slot s0 6).toNat ↔ i = 7) := by
  rcases hi with rfl | rfl
  · exact ⟨agxCell 7, _, 0#5, strm 0 true, _, dat 7, _, ready (by decide) (by decide), by decide, rfl, offered (by decide +kernel),
        by decide +kernel, rfl, by decide, by decide, by decide, by decide, by decide, rfl, by decide +kernel⟩
  · exact ⟨agxCell 8, _, 0#5, strm 0 true, _, dat 8, _, ready (by decide) (by decide), by decide, rfl, offered (by decide +kernel),
        by decide +kernel, rfl, by decide, by decide, by decide, by decide, by decide, rfl, by decide +kernel⟩

/-- AGH in a walk over one dense level. -/
def aghCell (fs : List WalkFrame) (got : List Token) : State :=
  sourceCell 14 0x6A000000#32 [] { strm 0 true with args := args 0#64 0x10000000#64 0#64 0#64 } { walk := fs, got := got }

theorem met_agh (got : List Token) (hg : got = [] ∨ got = [dat 8]) : ∃ s s0 x h f o, Ready s s0 ∧ (el s0).stream = some x ∧
    h = walkHandle s0 ∧ hLevels h = 1 ∧ lvFormat h 0 = 0 ∧ x.started = true ∧ (x.count = 0 ∨ x.emitted < x.count) ∧
    o = field (streamArg s0 1) 23 0 ∧ (wk s0).walk = [f] ∧ f.next < f.stop ∧ ((wk s0).got = [] ∨ x.tagDue = false) ∧
    (wk s0).got = got := by
  rcases hg with rfl | rfl
  · exact ⟨aghCell [{ p := 0, next := 0, stop := 16 }] [], _, { strm 0 true with args := args 0#64 0x10000000#64 0#64 0#64 }, _,
     { p := 0, next := 0, stop := 16 }, _, ready (by decide) (by decide), by decide, rfl, by decide, by decide, rfl, .inl rfl,
     rfl, by decide, by decide, by decide, by decide +kernel⟩
  · exact ⟨aghCell [{ p := 0, next := 0, stop := 16 }] [dat 8], _, { strm 0 true with args := args 0#64 0x10000000#64 0#64 0#64 }, _,
     { p := 0, next := 0, stop := 16 }, _, ready (by decide) (by decide), by decide, rfl, by decide, by decide, rfl, .inl rfl,
     rfl, by decide, by decide, by decide, by decide +kernel⟩

theorem met_agh_last : ∃ s s0 x h f v, Ready s s0 ∧ (el s0).stream = some x ∧
    h = walkHandle s0 ∧ hLevels h = 1 ∧ lvFormat h 0 = 0 ∧ x.started = true ∧ (x.count = 0 ∨ x.emitted < x.count) ∧
    (wk s0).walk = [f] ∧ f.stop ≤ f.next ∧ (wk s0).got = [v] ∧ v.ty = tyData ∧ x.tagDue = false :=
  ⟨aghCell [{ p := 0, next := 16, stop := 16 }] [dat 8], _, { strm 0 true with args := args 0#64 0x10000000#64 0#64 0#64 }, _,
   { p := 0, next := 16, stop := 16 }, dat 8, ready (by decide) (by decide), by decide, rfl, by decide, by decide, rfl,
   .inl rfl, by decide, by decide, by decide +kernel, rfl, by decide⟩

/-- XLATE with an address at its input. -/
def xlCell (v : Word) : State := cell 16 0x70000000#32 [(0, [{ data := v.setWidth 512 }])] {}

theorem met_xlate : ∃ s s0 a u k r q x, Ready s s0 ∧ Offered s0 [portAs 0 a] 1 ∧ present s0 [portAs 0 a] 1 (portAs 0 a) = [u] ∧
    xlateXl s0 (if k = 0#2 then .read else if k = 1#2 then .write else .atomic) (u.data.getLsbD 67) (u.data.setWidth 64) = (r, q) ∧
    r = .ok x :=
  ⟨xlCell lb, _, 0#5, { data := lb.setWidth 512 }, 0#2, _, _, spad 0, ready (by decide) (by decide), offered (by decide +kernel),
   by decide +kernel, rfl, answered (by decide +kernel)⟩

theorem met_xlate_fault : ∃ s s0 a u k r q c d, Ready s s0 ∧ Offered s0 [portAs 0 a] 1 ∧
    present s0 [portAs 0 a] 1 (portAs 0 a) = [u] ∧
    xlateXl s0 (if k = 0#2 then .read else if k = 1#2 then .write else .atomic) (u.data.getLsbD 67) (u.data.setWidth 64) = (r, q) ∧
    r = .error (.cause c d) :=
  ⟨xlCell 0x80000000#64, _, 0#5, { data := 0x80000000#512 }, 0#2, _, _, 0x05#8, 0#8, ready (by decide) (by decide),
   offered (by decide +kernel), by decide +kernel, (Prod.eta _).symm, failed (by decide +kernel)⟩

/-- SIEVE or UNSIEVE with a token at its input. -/
def svCell (v : Nat) (k : Work) : State := cell 17 0x72000000#32 [(0, [dat v])] k

theorem met_sieve : ∃ s s0 a u f z g, Ready s s0 ∧ Offered s0 [portAs 0 a] 1 ∧ present s0 [portAs 0 a] 1 (portAs 0 a) = [u] ∧
    g = sieveFmt f z ∧ (wk s0).count + g.lanes ≤ sieveMax ∧ (wk s0).keys.length < g.entries :=
  ⟨svCell 5 {}, _, 0#5, dat 5, 0#3, 0#3, _, ready (by decide) (by decide), offered (by decide +kernel), by decide +kernel, rfl,
   by decide, by decide⟩

/-- The token of one entry: value 5 at coordinate 0 or 8. -/
def entryAt (c : Nat) : Nat := (sieveFmt 0#3 0#3).pack (c, 5)

theorem met_unsieve : ∃ s s0 a u f z g es, Ready s s0 ∧ Offered s0 [portAs 0 a] 1 ∧ present s0 [portAs 0 a] 1 (portAs 0 a) = [u] ∧
    g = sieveFmt f z ∧ 1 ≤ (slot s0 0).toNat ∧ (slot s0 0).toNat < 2 ^ 24 ∧
    es = (splitLanes g.entryBits g.entries u.data.toNat).filterMap g.unpack ∧ es ≠ [] ∧ es.Pairwise (fun x y => x.1 < y.1) ∧
    (∀ e ∈ es, e.1 < (slot s0 0).toNat ∧ e.1 / g.lanes = (wk s0).count ∧ (wk s0).last.all (fun l => decide (l < e.1)) = true) :=
  ⟨svCell (entryAt 0) { args := args 64#64 0#64 0#64 0#64 }, _, 0#5, dat (entryAt 0), 0#3, 0#3, _, _, ready (by decide) (by decide),
   offered (by decide +kernel), by decide +kernel, rfl, by decide, by decide, rfl, by decide +kernel, by decide +kernel,
   by decide +kernel⟩

theorem met_unsieve_next : ∃ s s0 a u f z g e, Ready s s0 ∧ Offered s0 [portAs 0 a] 1 ∧ present s0 [portAs 0 a] 1 (portAs 0 a) = [u] ∧
    g = sieveFmt f z ∧ (slot s0 0).toNat < 2 ^ 24 ∧ (splitLanes g.entryBits g.entries u.data.toNat).filterMap g.unpack = [e] ∧
    e.1 < (slot s0 0).toNat ∧ e.1 / g.lanes = (wk s0).count + 1 ∧ (wk s0).last.all (fun l => decide (l < e.1)) = true ∧
    (∀ k ∈ (wk s0).keys, k.1 < g.lanes * ((wk s0).count + 1)) ∧ (wk s0).keys ≠ [] :=
  ⟨svCell (entryAt 8) { args := args 64#64 0#64 0#64 0#64, keys := [(3, 9)], last := some 3 }, _, 0#5, dat (entryAt 8), 0#3, 0#3, _,
   (8, 5), ready (by decide) (by decide), offered (by decide +kernel), by decide +kernel, rfl, by decide, by decide +kernel,
   by decide, by decide +kernel, by decide +kernel, by decide +kernel, by decide +kernel⟩

/-! ## Flow elements and routes -/

/-- A flow element with a token at each of its first n inputs. -/
def flowCell (n : Nat) (k : Work) : State :=
  cell 18 0x7C000000#32 ((List.range n).map fun p => (p, [{ dat (2 * p + 1) with ty := if p = 1 then tyCtok else tyData }])) k

/-- The same with DATA tokens alone. -/
def dataCell (n : Nat) (k : Work) : State := cell 18 0x7C000000#32 ((List.range n).map fun p => (p, [dat (2 * p + 1)])) k

theorem met_gateCtok_open : ∃ s s0 a b u k, Ready s s0 ∧ Between s0 ∧ Heads s0 (portAs 0 a) u ∧ (wk s0).isOpen = true ∧
    (portFifo s0 (portAs 1 b)).q.head? = some k ∧ k.ty = tyCtok ∧ (wk s0).openTo = some 1 :=
  ⟨flowCell 2 { isOpen := true, openTo := some 1 }, _, 0#5, 8#5, dat 1, { dat 3 with ty := tyCtok }, ready (by decide) (by decide),
   by decide, by decide +kernel, by decide, by decide +kernel, rfl, by decide⟩

theorem met_gateCtok_more : ∃ s s0 a b u, Ready s s0 ∧ Between s0 ∧ Heads s0 (portAs 0 a) u ∧ (wk s0).isOpen = true ∧
    (portFifo s0 (portAs 1 b)).q = [] ∧ (wk s0).openTo = some 2 ∧ u.ty = tyData :=
  ⟨flowCell 1 { isOpen := true, openTo := some 2 }, _, 0#5, 8#5, dat 1, ready (by decide) (by decide),
   by decide, by decide +kernel, by decide, by decide +kernel, by decide, rfl⟩

theorem met_gateCtok_closed : ∃ s s0 a b u v, Ready s s0 ∧ Between s0 ∧ Heads s0 (portAs 0 a) u ∧ (wk s0).isOpen = false ∧
    Heads s0 (portAs 1 b) v ∧ v.ty = tyCtok ∧ (portAs 0 a).k ≠ (portAs 1 b).k :=
  ⟨flowCell 2 {}, _, 0#5, 8#5, dat 1, { dat 3 with ty := tyCtok }, ready (by decide) (by decide),
   by decide, by decide +kernel, by decide, by decide +kernel, rfl, by decide⟩

/-- GATE on the counter at the scratchpad's first word, which is 0, with a target. -/
def counterCell (n : Word) : State := flowCell 1 { args := args lb n 0#64 0#64 }

theorem met_gateCounter : ∃ s s0 a u y s1, Ready s s0 ∧ Between s0 ∧ Heads s0 (portAs 0 a) u ∧ (wk s0).isOpen = false ∧
    (slot s0 0).toNat % 8 = 0 ∧ translate s0 (elemRequester s0) .read (slot s0 0) = (.ok y, s1) ∧ isRegion y.pa = false ∧
    poisonedIn s.mem y.pa 8 = none ∧ ((wk s0).target.getD (slot s0 1)).toNat ≤ rdNum s.mem y.pa 8 :=
  ⟨counterCell 0#64, _, 0#5, dat 1, spad 0, _, ready (by decide) (by decide), by decide, by decide +kernel, by decide,
   by decide, translated (by decide), by decide, by decide, by decide⟩

theorem met_gateCounter_below : ∃ s s0 a u y s1, Ready s s0 ∧ Between s0 ∧ Heads s0 (portAs 0 a) u ∧ (wk s0).isOpen = false ∧
    (slot s0 0).toNat % 8 = 0 ∧ translate s0 (elemRequester s0) .read (slot s0 0) = (.ok y, s1) ∧ isRegion y.pa = false ∧
    poisonedIn s.mem y.pa 8 = none ∧ rdNum s.mem y.pa 8 < ((wk s0).target.getD (slot s0 1)).toNat :=
  ⟨counterCell 1#64, _, 0#5, dat 1, spad 0, _, ready (by decide) (by decide), by decide, by decide +kernel, by decide,
   by decide, translated (by decide), by decide, by decide, by decide⟩

theorem met_carry_enter : ∃ s s0 a b c u, Ready s s0 ∧ Between s0 ∧ Heads s0 (portAs 0 a) u ∧ (wk s0).expectB = none ∧
    (wk s0).expectC = none ∧ (slot s0 0).toNat < 32 ∧ Quiet s0 (portAs 1 b) ∧ Quiet s0 (portAs 2 c) ∧
    (wk s0).looping = false :=
  ⟨dataCell 3 {}, _, 0#5, 8#5, 16#5, dat 1, ready (by decide) (by decide), by decide, by decide +kernel, by decide, by decide,
   by decide, by decide +kernel, by decide +kernel, by decide⟩

theorem met_carry_loop : ∃ s s0 a b c u v k, Ready s s0 ∧ Between s0 ∧ Heads s0 (portAs 0 a) u ∧ (wk s0).expectB = none ∧
    (wk s0).expectC = none ∧ (slot s0 0).toNat < 32 ∧ Quiet s0 (portAs 1 b) ∧ Quiet s0 (portAs 2 c) ∧
    (wk s0).looping = true ∧ Heads s0 (portAs 1 b) v ∧ Heads s0 (portAs 2 c) k ∧ (portAs 1 b).k ≠ (portAs 2 c).k :=
  ⟨dataCell 3 { looping := true }, _, 0#5, 8#5, 16#5, dat 1, dat 3, dat 5, ready (by decide) (by decide), by decide,
   by decide +kernel, by decide, by decide, by decide, by decide +kernel, by decide +kernel, by decide, by decide +kernel,
   by decide +kernel, by decide⟩

theorem met_steer_merge : ∃ s s0 a b c u v k, Ready s s0 ∧ Between s0 ∧ Heads s0 (portAs 0 a) u ∧ Heads s0 (portAs 1 b) v ∧
    Heads s0 (portAs 2 c) k ∧ (portAs 0 a).k ≠ (portAs 1 b).k ∧ [(portAs 0 a).k, (portAs 1 b).k, (portAs 2 c).k].Nodup :=
  ⟨dataCell 3 {}, _, 0#5, 8#5, 16#5, dat 1, dat 3, dat 5, ready (by decide) (by decide), by decide,
   by decide +kernel, by decide +kernel, by decide +kernel, by decide, by decide⟩

theorem met_dup : ∃ s s0 a u, Ready s s0 ∧ Between s0 ∧ Heads s0 (portAs 0 a) u ∧ 1 ≤ (slot s0 0).toNat ∧
    (slot s0 0).toNat < 65536 ∧ (wk s0).got = [] :=
  ⟨dataCell 1 { args := args 65535#64 0#64 0#64 0#64 }, _, 0#5, dat 1, ready (by decide) (by decide), by decide,
   by decide +kernel, by decide, by decide, by decide⟩

theorem met_eosgen : ∃ s s0 a u n r, Ready s s0 ∧ Between s0 ∧ Heads s0 (portAs 0 a) u ∧ (wk s0).heldEos = none ∧
    (slot s0 0).toNat = n + 2 ^ 24 * r ∧ 1 ≤ n ∧ n < 2 ^ 24 ∧ r ≤ 2 ∧ u.ty = tyData ∧ n ≤ (wk s0).count + 1 :=
  ⟨dataCell 1 { args := args 0x2000001#64 0#64 0#64 0#64 }, _, 0#5, dat 1, 1, 2, ready (by decide) (by decide), by decide,
   by decide +kernel, by decide, by decide, by decide, by decide, by decide, rfl, by decide⟩

theorem met_tagop : ∃ s s0 a u, Ready s s0 ∧ Between s0 ∧ Heads s0 (portAs 0 a) u ∧ (slot s0 0).toNat < 32 ∧ u.ty = tyData :=
  ⟨dataCell 1 { args := args 31#64 0#64 0#64 0#64 }, _, 0#5, dat 1, ready (by decide) (by decide), by decide,
   by decide +kernel, by decide, rfl⟩

/-- SINK with a token at its input and an endpoint of the job whose egress window has room. -/
def sinkCell : State :=
  { cell 21 0x7F000000#32 [(0, [dat 9])] {} with
    endpoints := Vector.replicate 32 { bound := true, isOpen := true, egress := 0x100, extent := 64, ingress := [dat 7, dat 8] } }

theorem met_sink : ∃ s s0 a u e, Starts s s0 ∧ Heads s0 (portAs 0 a) u ∧ (e = 0#1 ∨ u.ty ≠ tyData) :=
  ⟨sinkCell, _, 0#5, dat 9, 0#1, starts (by decide), by decide +kernel, .inl rfl⟩

theorem met_sink_egress : ∃ s s0 a u k, Starts s s0 ∧ Heads s0 (portAs 0 a) u ∧ u.ty = tyData ∧ (slot s0 0).toNat = k ∧ k < 32 ∧
    (endpointAt s k).bound = true ∧ (endpointAt s k).job = ((elemLaunch s).map (·.job)).getD 0 ∧
    (endpointAt s k).frozen = false ∧ (endpointAt s k).egrcnt + 64 ≤ (endpointAt s k).extent :=
  ⟨sinkCell, _, 0#5, dat 9, 0, starts (by decide), by decide +kernel, rfl, by decide, by decide, by decide, by decide,
   by decide, by decide⟩

/-- EMIT with a token of STRM.TOK in its queue. -/
def tokCell : State :=
  { cell 18 0x80000000#32 [] {} with elems := [(18, { cmds := [.tok 5#64 none (some (strm 0 false))] })] }

theorem met_emitTok : ∃ s s0 w str x l, Ready s s0 ∧ (el s0).cmds = .tok w none str :: l ∧ x = str.or (el s0).stream ∧
    (∀ y, (el s0).stream = some y → y.tagDue = false) :=
  ⟨tokCell, _, 5#64, some (strm 0 false), _, [], ready (by decide) (by decide), by decide, rfl,
   fun _ h => by cases (show (none : Option Stream) = some _ from h)⟩

theorem met_emitIota : ∃ s s0 x s1, Ready s s0 ∧ (el s0).stream = some x ∧ s1 = streaming s0 x ∧ x.emitted < x.count ∧
    (x.started = true → x.tagDue = false) :=
  ⟨sourceCell 18 0x80000000#32 [] (strm 3 false) {}, _, strm 3 false, _, ready (by decide) (by decide), by decide, rfl, by decide,
   by decide⟩

/-- EMIT of the tokens that the host has queued at endpoint 0. -/
def ingCell : State :=
  { sourceCell 18 0x80000000#32 [] { strm 0 true with args := args 0#64 0#64 0#64 0#64 } {} with
    endpoints := Vector.replicate 32 { bound := true, isOpen := true, ingress := [dat 7, dat 8] } }

theorem met_emitIng : ∃ s s0 x k u l, Ready s s0 ∧ (el s0).stream = some x ∧ x.started = true ∧ x.tagDue = false ∧
    (x.count = 0 ∨ x.emitted < x.count) ∧ (streamArg s0 0).toNat = k ∧ k < 32 ∧ (endpointAt s k).bound = true ∧
    (endpointAt s k).job = ((elemLaunch s).map (·.job)).getD 0 ∧ (endpointAt s k).isOpen = true ∧
    (endpointAt s k).ingress = u :: l ∧ u.ty ≠ tyEos :=
  ⟨ingCell, _, { strm 0 true with args := args 0#64 0#64 0#64 0#64 }, 0, dat 7, [dat 8], ready (by decide) (by decide), by decide,
   rfl, by decide, .inl rfl, by decide, by decide, by decide, by decide, by decide, by decide +kernel, by decide⟩

/-- A token in the output of element 8, and a bus port 9 that element 11 reads, with some credit. -/
def routeCell (swords : List (BitVec 16)) (credit : Nat) : State :=
  { sx 0#64 0#64 with
    banks := [(0, { words := { ewords := [(11, 0x60000000#32)], swords := swords }, launch := some 1 })]
    elems := [(8, { out := [dat 5] })]
    fifos := [(44, { credit := credit })] }

theorem met_routePass (i : Instr) (hi : i = .routePass 9 8 0 ∨ i = .routeSeam 9 8 0 ∨ i = .routeFanout 9 8 0) :
    ∃ s c n outs fs u r xl, crossForm s i = some (c, n, outs) ∧ ownContext s c = true ∧
    (∀ o ∈ outs, canRoute s s.cur o = true) ∧ inputHead s s.cur n = some (u, r, xl) ∧ fs = outs.flatMap (outFifos s s.cur) ∧
    fs.Nodup ∧ fs ≠ [] ∧ (n < 8 → meshNo s.cur n ∉ fs) ∧ (∀ f ∈ fs, 0 < (fifoAt s f).credit ∧ (fifoAt s f).inject = []) := by
  rcases hi with rfl | rfl | rfl <;> exact
    ⟨routeCell [0x9840#16] 4, 0#2, 8, [9], _, dat 5, 0, false, by decide, by decide, by decide, by decide +kernel, rfl, by decide,
     by decide, by decide, by decide⟩

theorem met_routePass_waits : ∃ s i c n outs fs u r xl, crossForm s i = some (c, n, outs) ∧ ownContext s c = true ∧
    (∀ o ∈ outs, canRoute s s.cur o = true) ∧ inputHead s s.cur n = some (u, r, xl) ∧ fs = outs.flatMap (outFifos s s.cur) ∧
    fs.Nodup ∧ fs ≠ [] ∧ (n < 8 → meshNo s.cur n ∉ fs) ∧ (∃ f ∈ fs, (fifoAt s f).credit = 0) :=
  ⟨routeCell [0x9800#16] 0, .routePass 9 8 0, 0#2, 8, [9], _, dat 5, 0, false, by decide, by decide, by decide, by decide +kernel,
   rfl, by decide, by decide, by decide, by decide⟩

theorem met_routeHold : ∃ s o m c f u r xl, ownContext s c = true ∧ canRoute s s.cur (BitVec.toNat (w := 4) o) = true ∧
    outFifos s s.cur o.toNat = [f] ∧ 0 < (fifoAt s f).credit ∧ (fifoAt s f).inject = [] ∧
    inputHead s s.cur (BitVec.toNat (w := 4) m) = some (u, r, xl) ∧ u.ty = tyData ∧ (routeAt s s.cur o.toNat).held = [] ∧
    (routeAt s s.cur o.toNat).full = false ∧ (routeAt s s.cur o.toNat).pos = 0 ∧ (m.toNat < 8 → meshNo s.cur m.toNat ≠ f) :=
  ⟨routeCell [0x9820#16] 4, 9, 8, 0#2, 44, dat 5, 0, false, by decide, by decide, by decide, by decide, by decide, by decide +kernel,
   rfl, by decide, by decide, by decide, by decide⟩

/-- The same route holding a token, with nothing at its input. -/
def holdingCell : State :=
  { routeCell [] 4 with
    banks := [(0, { words := { ewords := [(11, 0x60000000#32)], swords := [0x9820#16] }, launch := some 1
                    routes := [(9, { held := [dat 5], full := true })] })]
    elems := [] }

theorem met_routeHold_again : ∃ s o m c f u, ownContext s c = true ∧ canRoute s s.cur (BitVec.toNat (w := 4) o) = true ∧
    outFifos s s.cur o.toNat = [f] ∧ 0 < (fifoAt s f).credit ∧ (fifoAt s f).inject = [] ∧
    inputHead s s.cur (BitVec.toNat (w := 4) m) = none ∧ (routeAt s s.cur o.toNat).held = [u] ∧
    (routeAt s s.cur o.toNat).full = true ∧ (routeAt s s.cur o.toNat).pos = 0 :=
  ⟨holdingCell, 9, 8, 0#2, 44, dat 5, by decide, by decide, by decide, by decide, by decide, by decide,
   by decide +kernel, by decide, by decide⟩

/-! ## What happens by itself -/

theorem met_boundaryTrap (x : UnitRegs) (hx : x = { ux 0#64 0#64 with pend := [{ cause := 0x0B#8, detail := 1#8, value := 5#64 }] } ∨
    x = { ux 0#64 0#64 with pend := [{ cause := 0x0B#8, detail := 1#8, value := 5#64 }], csr := { status := 5#64 } }) :
    ∃ s u b l, unitSaving s u = false ∧ (unitAt s u).pend = b :: l ∧ (unitAt s u).st = .ready ∧ unitAt s u = x := by
  rcases hx with rfl | rfl <;> exact ⟨st _, 0, _, [], by decide, rfl, rfl, rfl⟩

/-- The unit waiting for a word, with a time limit of 100 cycles. -/
def waitingFor (k : WaitKind) (n : Nat) (td : Bool) : State :=
  st { ux 0#64 0#64 with st := .waiting, wait := some { kind := k, value := 5#64, count := n, aux := 1 }
                         csr := { status := if td then 5#64 else 1#64, waitlim := 100#64 } }

theorem met_waitTimeout (td : Bool) : ∃ s u w, unitSaving s u = false ∧ (unitAt s u).st = .waiting ∧
    (unitAt s u).wait = some w ∧ w.kind ≠ .sleep ∧ (unitAt s u).csr.waitlim.toNat ≤ w.count ∧ statusTD (unitAt s u) = td := by
  cases td
  · exact ⟨waitingFor .counter 100 false, 0, _, by decide, rfl, rfl, by decide, by decide, by decide⟩
  · exact ⟨waitingFor .counter 100 true, 0, _, by decide, rfl, rfl, by decide, by decide, by decide⟩

theorem met_waitTimeout_early : ∃ s u w, unitSaving s u = false ∧ (unitAt s u).st = .waiting ∧
    (unitAt s u).wait = some w ∧ w.kind ≠ .sleep ∧ w.count < (unitAt s u).csr.waitlim.toNat :=
  ⟨waitingFor .counter 99 false, 0, _, by decide, rfl, rfl, by decide, by decide⟩

theorem met_sleepuWake : ∃ s u w t, unitSaving s u = false ∧ (unitAt s u).st = .waiting ∧ (unitAt s u).wait = some w ∧
    w.kind = .sleep ∧ (w.value.toNat ≤ tbOf s (dieOf u) ∨ w.aux = 1) ∧
    (∀ e ∈ s.engines, mine { s with cur := u } e.2 = true →
      e.2.promise.any (fun p => decide (p ≤ tbOf s (dieOf u))) = true → e.2.complete = true) ∧
    t = joined { s with cur := u } (fun e => e.promise.any fun p => decide (p ≤ tbOf s (dieOf u))) :=
  ⟨waitingFor .sleep 0 false, 0, _, _, by decide, rfl, rfl, rfl, .inr rfl, List.forall_mem_nil _, rfl⟩

/-- A watch of the scratchpad's first word, which is 0, held by a sleeping unit. -/
def watching (n : Word) : State :=
  st { ux 0#64 0#64 with st := .waiting, wait := some { kind := .sleep, value := 5#64 }
                         watches := (Vector.replicate 8 none).set 7 (some { addr := lb, target := n }) }

theorem met_watchFire (k : Word) (hk : k = 0#64 ∨ k = 1#64) : ∃ s u n w x s1 z, unitSaving s u = false ∧ 1 ≤ n ∧ n < 8 ∧
    (unitAt s u).watches.toList.getD n none = some w ∧ (unitAt s u).st ≠ .free ∧ (unitAt s u).st ≠ .retired ∧
    (unitAt s u).st ≠ .frozen ∧ xlateD { s with cur := u } (requester { s with cur := u } u) .read w.addr = some (x, s1) ∧
    poisonedIn s1.mem x.pa 8 = none ∧ w.target = k ∧ readAt s1 x.pa 8 = 0 ∧ (unitAt s u).wait = some z ∧ z.kind = .sleep := by
  rcases hk with rfl | rfl
  · exact ⟨watching 0#64, 0, 7, { addr := lb, target := 0#64 }, _, _, _, by decide, by decide, by decide, by decide, by decide,
      by decide, by decide, rfl, by decide, rfl, by decide, rfl, rfl⟩
  · exact ⟨watching 1#64, 0, 7, { addr := lb, target := 1#64 }, _, _, _, by decide, by decide, by decide, by decide, by decide,
      by decide, by decide, rfl, by decide, rfl, by decide, rfl, rfl⟩

/-- A draining unit with one sink, which has passed an EOS of rank 2. -/
def draining : State :=
  { st { ux 0#64 0#64 with st := .draining } with
    banks := [(0, { words := { ewords := [(21, 0x7F000000#32)] }, launch := some 1 })]
    elems := [(21, { passed := [(2, none)] })] }

theorem met_unitRetire : ∃ s u, unitSaving s u = false ∧ (unitAt s u).st = .draining ∧ forksComplete { s with cur := u } ∧
    (∀ e ∈ activeElems s [u], eSink e.2.2 = true → ∃ p ∈ (elemAt s u e.2.1).passed, 2 ≤ p.1 ∧ p.2 = none) ∧
    activeElems s [u] ≠ [] :=
  ⟨draining, 0, by decide, rfl, by decide, by decide, by decide⟩

theorem met_unitRetire_forked : ∃ s u, unitSaving s u = false ∧ (unitAt s u).st = .draining ∧ ¬ forksComplete { s with cur := u } :=
  ⟨{ copying false 0 with units := [(0, { ux 0#64 0#64 with st := .draining })] }, 0, by decide, rfl, by decide⟩

theorem met_uncorrectableError : ∃ a, isSpad a = true ∧ mapped a = true := ⟨0x1000000000000, by decide⟩

/-! ## Elements, channels and rounds -/

/-- An EOS. -/
def eos (r : BitVec 2) : Token := { ty := tyEos, rank := r }

/-- VADD between what stands at its two inputs. -/
def pairCell (a b : List Token) (k : Work) : State := cell 8 0x20020000#32 [(0, a), (1, b)] k

theorem met_eosStep : ∃ s s0 w ps r, ps = portsOf w ∧ Acting s s0 w ∧ EosHeads s0 ps r :=
  ⟨pairCell [eos 1] [eos 2] {}, _, 0x20020000#32, _, 2#2, rfl, ⟨by decide, by decide, by decide, by decide, (starts (by decide)).2.2, by decide,
   by decide⟩, by decide +kernel⟩

/-- VADD whose input B holds a token until an EOS of rank 1 or higher. -/
def tillCell (a : List Token) : State :=
  cell 8 0x2003C000#32 [(0, a)] { held := #v[none, some { toks := [dat 1, dat 2], left := 0, till := true }, none] }

theorem met_eosStep_held (r : BitVec 2) (hr : r = 0#2 ∨ r = 1#2) : ∃ s s0 w ps p h, ps = portsOf w ∧ Acting s s0 w ∧
    EosHeads s0 ps r ∧ p ∈ owners ps ∧ heldAt s0 p = some h ∧ h.till = true := by
  rcases hr with rfl | rfl
  · exact ⟨tillCell [eos 0], _, 0x2003C000#32, _, portAs 1 15#5, _, rfl, ⟨by decide, by decide, by decide, by decide, (starts (by decide)).2.2,
      by decide, by decide⟩, by decide +kernel, by decide +kernel, rfl, rfl⟩
  · exact ⟨tillCell [eos 1], _, 0x2003C000#32, _, portAs 1 15#5, _, rfl, ⟨by decide, by decide, by decide, by decide, (starts (by decide)).2.2,
      by decide, by decide⟩, by decide +kernel, by decide +kernel, rfl, rfl⟩

theorem met_eosStep_sink : ∃ s s0 w ps r, ps = portsOf w ∧ Acting s s0 w ∧ EosHeads s0 ps r ∧ eSink w = true :=
  ⟨cell 21 0x7F000000#32 [(0, [eos 2])] {}, _, 0x7F000000#32, _, 2#2, rfl, ⟨by decide, by decide, by decide, by decide, (starts (by decide)).2.2,
   by decide, by decide⟩, by decide +kernel, by decide⟩

theorem met_roundStep : ∃ s s0 w ps n, ps = portsOf w ∧ n < 2 ^ 32 ∧ Acting s s0 w ∧ TagHeads s0 ps n ∧
    n ≤ (seriesAt s0 (seriesOf s0 s0.cur)).next :=
  ⟨pairCell [{ ty := tyTag }] [eos 1] {}, _, 0x20020000#32, _, 0, rfl, by decide, ⟨by decide, by decide, by decide,
   by decide, (starts (by decide)).2.2, by decide, by decide⟩, by decide +kernel, by decide⟩

theorem met_elementSave : ∃ s w ps, ps = portsOf w ∧ canAct s s.cur s.curElem = true ∧ ew s = w ∧ gathersNothing w ∧
    MrkHeads s ps ∧ (eDrives w = true → routedOut (bankAt s s.cur) s.curElem = true) :=
  ⟨pairCell [{ ty := tyMrk }] [{ ty := tyMrk }] {}, 0x20020000#32, _, rfl, by decide, by decide, by decide, by decide +kernel,
   by decide⟩

/-- EMIT of an IOTA stream under way. -/
def iotaCell (x : Stream) : State := sourceCell 18 0x80000001#32 [] x {}

theorem met_sourceTag : ∃ s s0 x, Ready s s0 ∧ ew s = encode .emitIota ∧ (el s0).stream = some x ∧ x.started = true ∧
    (wk s0).discard = false ∧ (wk s0).looping = false ∧ x.emitted < x.count ∧ 1 ≤ x.roundsz ∧ x.roundsz ≤ x.sinceTag ∧
    x.tag ≤ (seriesAt s0 (seriesOf s0 s0.cur)).next ∧ savingSlot s s.cur = false :=
  ⟨iotaCell { strm 5 true with emitted := 2, sinceTag := 2, roundsz := 2 }, _,
   { strm 5 true with emitted := 2, sinceTag := 2, roundsz := 2 }, ready (by decide) (by decide), by decide, by decide, rfl,
   by decide, by decide, by decide, by decide, by decide, by decide, by decide⟩

theorem met_sourceEos : ∃ s s0 x, Ready s s0 ∧ ew s = encode .emitIota ∧ (el s0).stream = some x ∧ x.started = true ∧
    (wk s0).discard = false ∧ (wk s0).looping = false ∧ x.count ≤ x.emitted :=
  ⟨iotaCell { strm 5 true with emitted := 5 }, _, { strm 5 true with emitted := 5 }, ready (by decide) (by decide), by decide,
   by decide, rfl, by decide, by decide, by decide⟩

theorem met_savedTokenInject : ∃ s f t l, (fifoAt s f).inject = t :: l ∧ 0 < (fifoAt s f).credit :=
  ⟨{ sx 0#64 0#64 with fifos := [(44, { inject := [dat 1, dat 2], credit := 1 })] }, 44, _, _, rfl, by decide⟩

theorem met_savedTokenInject_waits : ∃ s f t l, (fifoAt s f).inject = t :: l ∧ (fifoAt s f).credit = 0 :=
  ⟨{ sx 0#64 0#64 with fifos := [(44, { inject := [dat 1, dat 2], credit := 0 })] }, 44, _, _, rfl, by decide⟩

/-- A kill message from the FIFO of element 8's first input, which a route from a switch input feeds; the element before it
has a flit of the group in its output. -/
def killCell (inp : Nat) (m : BitVec 128) : State :=
  { sx 0#64 0#64 with
    banks := [(0, { words := { ewords := [(8, 0x20020000#32)], swords := [BitVec.ofNat 16 (0xE000 + 256 * inp)] }
                    launch := some 1 })]
    elems := [(0, { out := [flit tyDigit 9] })]
    kills := [{ fifo := 32, seq := 0#12, mask := m }]
    fifos := [(32, { killed := [{ seq := 0#12, mask := m }] })] }

theorem met_kill (inp : Nat) (m : BitVec 128) (h : (inp, m) = (8, 0#128) ∨ (inp, m) = (0, 5#128)) :
    ∃ s k ks v n, s.kills = k :: ks ∧ feeders s k.fifo = [(v, n)] ∧ n = inp ∧ killedInput s v n k.seq = m := by
  rcases h with h | h <;> cases h
  · exact ⟨killCell 8 0#128, { fifo := 32, seq := 0#12, mask := 0#128 }, [], 0, 8, rfl, by decide +kernel, rfl, by decide +kernel⟩
  · exact ⟨killCell 0 5#128, { fifo := 32, seq := 0#12, mask := 5#128 }, [], 0, 0, rfl, by decide +kernel, rfl, by decide +kernel⟩

theorem met_kill_element : ∃ s k ks v n e, s.kills = k :: ks ∧ feeders s k.fifo = [(v, n)] ∧ killedInput s v n k.seq ≠ 0#128 ∧
    8 ≤ n ∧ inElem s v (n - 8) = some e ∧ (elemAt s v e).frozen = false :=
  ⟨killCell 8 5#128, { fifo := 32, seq := 0#12, mask := 5#128 }, [], 0, 8, 0, rfl, by decide +kernel, by decide +kernel, by decide,
   by decide, by decide⟩

theorem met_kill_frozen : ∃ s k ks v n e, s.kills = k :: ks ∧ feeders s k.fifo = [(v, n)] ∧ killedInput s v n k.seq ≠ 0#128 ∧
    8 ≤ n ∧ inElem s v (n - 8) = some e ∧ (elemAt s v e).frozen = true :=
  ⟨{ killCell 8 5#128 with elems := [(0, { out := [flit tyDigit 9], efr := 0x8000000000000000#64 })] },
   { fifo := 32, seq := 0#12, mask := 5#128 }, [], 0, 8, 0, rfl, by decide +kernel, by decide +kernel, by decide, by decide,
   by decide⟩

/-- A unit with a pending segment, and element 8 and the route behind it past their final EOS. -/
def pendingCell (ended : Bool) : State :=
  { sx 0#64 0#64 with
    banks := [(0, { words := { ewords := [(8, 0x20020000#32), (11, 0x60000000#32)], swords := [0x9800#16] }
                    pending := some { ewords := [(8, 0x21020000#32), (11, 0x60000000#32)], swords := [0x9800#16] }
                    oldElems := [8], oldOuts := [9], launch := some 1, routes := [(9, { ended := true })] })]
    elems := [(8, { ended := ended })]
    fifos := [(44, { credit := 4 })] }

theorem met_pendingTakeover : ∃ s u p e, (bankAt s u).pending = some p ∧ e < 32 ∧ (bankAt s u).oldElems.contains e = true ∧
    (elemAt s u e).ended = true ∧ (elemAt s u e).out = [] ∧ eDrives (ewordAt s u e) = true ∧ routedOut (bankAt s u) e = true :=
  ⟨pendingCell true, 0, _, 8, rfl, by decide⟩

theorem met_pendingTakeover_route : ∃ s u p o fs, (bankAt s u).pending = some p ∧ (bankAt s u).oldOuts.contains o = true ∧
    (routeAt s u o).ended = true ∧ fs = outFifos s u o ∧ fs ≠ [] ∧ fs.Nodup ∧
    (∀ f ∈ fs, 0 < (fifoAt s f).credit ∧ (fifoAt s f).inject = []) :=
  ⟨pendingCell true, 0, _, 9, _, rfl, by decide, by decide, rfl, by decide, by decide, by decide⟩

theorem met_pendingTakeover_runs : ∃ s u p e, (bankAt s u).pending = some p ∧ e < 32 ∧ (elemAt s u e).ended = false :=
  ⟨pendingCell false, 0, _, 8, rfl, by decide⟩

/-- Round 0 of a series whose one sink has passed its boundary, with a store and a load. -/
def roundCell (round wts : Nat) : State :=
  { sx 0#64 0#64 with
    banks := [(0, { words := { ewords := [(21, 0x7F000000#32)] }, launch := some 1 })]
    elems := [(21, { round := round })]
    series := [(4, { isOpen := true, pts := 4
                     rounds := [{ num := 0, stores := [{ pa := 0x1000000000008, size := 8, value := 7#64, tile := 0 }]
                                  loads := [(0x40000000001, 2)] }] })]
    mem := { (sx 0#64 0#64).mem with lines := [(0x40000000001, { wts := wts, rts := wts, stores := [wts] })] } }

theorem met_roundCommit_open : ∃ s l k n x r, x = seriesAt s (4 * l + k) ∧ n = x.next ∧ r = x.round n ∧ x.isOpen = true ∧
    roundClosed s (4 * l + k) n = false :=
  ⟨roundCell 0 1, 1, 0, _, _, _, rfl, rfl, rfl, by decide, by decide +kernel⟩

theorem met_roundCommit : ∃ s l k n x r, x = seriesAt s (4 * l + k) ∧ n = x.next ∧ r = x.round n ∧ x.isOpen = true ∧
    roundClosed s (4 * l + k) n = true ∧ (∀ p ∈ s.series, ∀ q ∈ p.2.rounds, q.pinned = false) ∧
    (∀ y ∈ r.stores, isRegion y.pa = false) ∧
    (∀ y ∈ r.loads, ∀ w ∈ (getLine s.mem y.1).stores, ¬ (y.2 < w ∧ w ≤ commitTime s.mem x.pts r)) :=
  ⟨roundCell 1 1, 1, 0, _, _, _, rfl, rfl, rfl, by decide, by decide +kernel, by decide, by decide +kernel, by decide +kernel⟩

theorem met_roundCommit_void : ∃ s l k n x r, x = seriesAt s (4 * l + k) ∧ n = x.next ∧ r = x.round n ∧ x.isOpen = true ∧
    roundClosed s (4 * l + k) n = true ∧ (∀ p ∈ s.series, ∀ q ∈ p.2.rounds, q.pinned = false) ∧
    (∀ y ∈ r.stores, isRegion y.pa = false) ∧
    (∃ y ∈ r.loads, ∃ w ∈ (getLine s.mem y.1).stores, y.2 < w ∧ w ≤ commitTime s.mem x.pts r) :=
  ⟨roundCell 1 3, 1, 0, _, _, _, rfl, rfl, rfl, by decide, by decide +kernel, by decide, by decide +kernel, by decide +kernel⟩

/-! ## Packets and engines -/

/-- A packet of a job. -/
def packet (j : Nat) (stamp : BitVec 16) (path : List Nat) : Packet :=
  { unit := some 0, launch := 1, job := j, stamp := stamp, path := path }

/-- An arbiter with packets. -/
def arbited (ps : List Packet) : State := { sx 0#64 0#64 with arbiters := [(5, { packets := ps, lastJob := 1 })] }

theorem met_packetOrder : ∃ s a tb x l r p, a < 65536 ∧ tb = arbiterTb s a ∧ mget s.arbiters a = some x ∧ x.packets = l ++ p :: r ∧
    (∀ q ∈ l, q.job ≠ p.job) ∧
    (∀ q ∈ x.packets, q.job ≠ p.job → OldestOfJob x.packets q → slackOf p tb < slackOf q tb ∨
      (slackOf p tb = slackOf q tb ∧ rotation x.lastJob p.job < rotation x.lastJob q.job)) ∧ p.path = [6] :=
  ⟨arbited [packet 1 9#16 [6], packet 2 9#16 [6], packet 2 8#16 [6]], 5, _, _, [packet 1 9#16 [6]], [packet 2 8#16 [6]],
   packet 2 9#16 [6], by decide, rfl, rfl, rfl, by decide, by
     intro q hq hj _
     simp only [List.mem_cons, List.not_mem_nil, or_false] at hq
     rcases hq with rfl | rfl | rfl
     · exact .inr ⟨rfl, by decide⟩
     · exact absurd rfl hj
     · exact absurd rfl hj, rfl⟩

theorem met_packetOrder_late : ∃ s a tb x p y, a < 65536 ∧ tb = arbiterTb s a ∧ mget s.arbiters a = some x ∧ x.packets = [] ++ p :: [] ∧
    slackOf p tb < 0 ∧ p.late = false ∧ p.unit = some 0 ∧ mget s.units 0 = some y ∧ y.launch = p.launch ∧
    statusLPTE y = true := by
  have h : ∀ n, slackOf (packet 1 (BitVec.ofNat 16 (n / 256) - 1#16) []) n < 0 := fun n => by
    unfold slackOf packet
    generalize BitVec.ofNat 16 (n / 256) = b
    rw [show b - 1#16 - b = 0xFFFF#16 from by bv_omega]
    decide
  refine ⟨{ arbited [packet 1 (BitVec.ofNat 16 (arbiterTb (sx 0#64 0#64) 5 / 256) - 1#16) []] with
            units := [(0, { ux 0#64 0#64 with csr := { status := 0x4001#64 } })] }, 5, _, _, _, _, by decide, rfl, rfl, rfl, ?_,
    rfl, rfl, rfl, rfl, by decide⟩
  exact h _

/-- The state with an engine operation of its unit. -/
def working (s : State) (e : Engine) : State := { s with engines := [(0, e)], nextEng := 1 }

/-- An engine operation of the unit. -/
def engine (k : EngineKind) : Engine := { unit := 0, launch := 1, job := 0, kind := k }

/-- What Reaches asks, as a check. -/
def reaches (s : State) (e : Engine) (k : Access) (va : Word) (n : Nat) (x : XOk) : Bool :=
  (match (translate s (engineReq s e) k va).1 with | .ok y => decide (y = x) | .error _ => false) && !isRegion x.pa &&
    (poisonedIn s.mem x.pa n).isNone && !pinnedRange s none x.pa n

theorem reach {s : State} {e : Engine} {k : Access} {va : Word} {n : Nat} {x : XOk} (h : reaches s e k va n x = true) :
    Reaches s e k va n x := by
  unfold reaches at h
  simp only [Bool.and_eq_true, Bool.not_eq_true', Option.isNone_iff_eq_none] at h
  exact ⟨⟨_, translated h.1.1.1⟩, h.1.1.2, h.1.2, h.2⟩

/-- A copy of 16 bytes within the scratchpad. -/
def copier : Engine := engine (.copy lb.toNat (lb.toNat + 64) 16 (lb + 128#64))

theorem met_putsWord : ∃ s f e va bs x src dst len ctr, Moving s f e ∧ e.kind = .copy src dst len ctr ∧ e.put = some (va, bs) ∧
    8 ≤ bs.length ∧ va.toNat % 8 = 0 ∧ Reaches s e .write va 8 x ∧ (∀ w ∈ s.twaiters, w.pa ≠ wordOf x.pa) :=
  ⟨working (sx 0#64 0#64) { copier with put := some (lb + 64#64, toBytes 8 5) }, 0, _, lb + 64#64, toBytes 8 5, spad 64, lb.toNat,
   lb.toNat + 64, 16, lb + 128#64, ⟨rfl, rfl, rfl⟩, rfl, rfl, by decide, by decide, reach (by decide), List.forall_mem_nil _⟩

theorem met_copy_read : ∃ s f e x src dst len ctr, Moving s f e ∧ e.kind = .copy src dst len ctr ∧ e.put = none ∧
    8 * e.pos < len ∧ Reaches s e .read (BitVec.ofNat 64 (src + 8 * e.pos)) 8 x :=
  ⟨working (sx 0#64 0#64) { copier with pos := 1 }, 0, _, spad 8, lb.toNat, lb.toNat + 64, 16, lb + 128#64, ⟨rfl, rfl, rfl⟩, rfl,
   rfl, by decide, reach (by decide)⟩

theorem met_copy_fault : ∃ s f e src dst len ctr c d s1, Moving s f e ∧ e.kind = .copy src dst len ctr ∧ e.put = none ∧
    8 * e.pos < len ∧ translate s (engineReq s e) .read (BitVec.ofNat 64 (src + 8 * e.pos)) = (.error (.cause c d), s1) ∧
    e.cancelled = false :=
  ⟨working (sx 0#64 0#64) (engine (.copy 0x80000000 0 16 0#64)), 0, _, 0x80000000, 0, 16, 0#64, 5#8, 0#8, _, ⟨rfl, rfl, rfl⟩, rfl,
   rfl, by decide, untranslated (by decide +kernel), rfl⟩

theorem met_copy_count : ∃ s f e x src dst len ctr, Moving s f e ∧ e.kind = .copy src dst len ctr ∧ e.put = none ∧
    len ≤ 8 * e.pos ∧ ctr ≠ 0#64 ∧ Reaches s e .atomic ctr 8 x :=
  ⟨working (sx 0#64 0#64) { copier with pos := 2 }, 0, _, spad 128, lb.toNat, lb.toNat + 64, 16, lb + 128#64, ⟨rfl, rfl, rfl⟩, rfl,
   rfl, by decide, by decide, reach (by decide)⟩

/-- Contribution c of three of 16 bytes to a range of the scratchpad. -/
def sender (c : Nat) : Engine := engine (.merge lb.toNat (lb.toNat + 64) 16 0#64 3 c 0)

/-- The state with that contribution, and the range's episode. -/
def sending (e : Engine) (y : List Episode) : State := { working (sx 0#64 0#64) e with episodes := y }

/-- The episode with contribution k next. -/
def episode (k : Nat) : Episode := { dst := 0x1000000000040, len := 16, n := 3, next := k }

theorem met_merge (c k : Nat) (h : (c, k) = (0, 0) ∨ (c, k) = (1, 1) ∨ (c, k) = (2, 1) ∨ (c, k) = (0, 1)) :
    ∃ s s1 f src dst len n op ctr e x ep, Moving s f e ∧ e.kind = .merge src dst len ctr n c op ∧
    ep = s.episodes.find? (fun e => decide (e.dst = x.pa)) ∧ e.put = none ∧
    translate s (engineReq s e) .write (BitVec.ofNat 64 dst) = (.ok x, s1) ∧ e.admitted = false ∧
    ep = (if k = 0 then none else some (episode k)) := by
  rcases h with h | h | h | h <;> cases h
  · exact ⟨sending (sender 0) [], _, 0, lb.toNat, lb.toNat + 64, 16, 3, 0, 0#64, _, spad 64, _, ⟨rfl, rfl, rfl⟩, rfl, rfl, rfl,
      translated (by decide), rfl, by decide⟩
  · exact ⟨sending (sender 1) [episode 1], _, 0, lb.toNat, lb.toNat + 64, 16, 3, 0, 0#64, _, spad 64, _, ⟨rfl, rfl, rfl⟩, rfl, rfl,
      rfl, translated (by decide), rfl, by decide⟩
  · exact ⟨sending (sender 2) [episode 1], _, 0, lb.toNat, lb.toNat + 64, 16, 3, 0, 0#64, _, spad 64, _, ⟨rfl, rfl, rfl⟩, rfl, rfl,
      rfl, translated (by decide), rfl, by decide⟩
  · exact ⟨sending (sender 0) [episode 1], _, 0, lb.toNat, lb.toNat + 64, 16, 3, 0, 0#64, _, spad 64, _, ⟨rfl, rfl, rfl⟩, rfl, rfl,
      rfl, translated (by decide), rfl, by decide⟩

/-- Contribution c admitted, with some words merged and perhaps an incoming one read. -/
def merging (c pos : Nat) (b : List Byte) : State :=
  sending { sender c with admitted := true, pos := pos, buf := b } [{ episode c with busy := true }]

theorem met_merge_read : ∃ s s1 f src dst len n c op ctr e x y, Moving s f e ∧ e.kind = .merge src dst len ctr n c op ∧
    e.put = none ∧ translate s (engineReq s e) .write (BitVec.ofNat 64 dst) = (.ok x, s1) ∧ e.admitted = true ∧
    8 * e.pos < len ∧ e.buf = [] ∧ (BitVec.ofNat 64 (src + 8 * e.pos)).toNat % 8 = 0 ∧
    Reaches s1 e .read (BitVec.ofNat 64 (src + 8 * e.pos)) 8 y :=
  ⟨merging 1 1 [], _, 0, lb.toNat, lb.toNat + 64, 16, 3, 1, 0, 0#64, _, spad 64, spad 8, ⟨rfl, rfl, rfl⟩, rfl, rfl,
   translated (by decide), rfl, by decide, rfl, by decide, reach (by decide)⟩

theorem met_merge_word : ∃ s s1 f src dst len n c op ctr e x y, Moving s f e ∧ e.kind = .merge src dst len ctr n c op ∧
    e.put = none ∧ translate s (engineReq s e) .write (BitVec.ofNat 64 dst) = (.ok x, s1) ∧ e.admitted = true ∧
    8 * e.pos < len ∧ e.buf.length = 8 ∧ Reaches s1 e .atomic (BitVec.ofNat 64 (dst + 8 * e.pos)) 8 y :=
  ⟨merging 1 1 (toBytes 8 5), _, 0, lb.toNat, lb.toNat + 64, 16, 3, 1, 0, 0#64, _, spad 64, spad 72, ⟨rfl, rfl, rfl⟩, rfl, rfl,
   translated (by decide), rfl, by decide, by decide, reach (by decide)⟩

theorem met_merge_last (c : Nat) (hc : c = 1 ∨ c = 2) : ∃ s s1 f src dst len n op ctr e x, Moving s f e ∧
    e.kind = .merge src dst len ctr n c op ∧ e.put = none ∧
    translate s (engineReq s e) .write (BitVec.ofNat 64 dst) = (.ok x, s1) ∧ e.admitted = true ∧ len ≤ 8 * e.pos ∧ n = 3 ∧
    s.twaiters = [] := by
  rcases hc with rfl | rfl
  · exact ⟨merging 1 2 [], _, 0, lb.toNat, lb.toNat + 64, 16, 3, 0, 0#64, _, spad 64, ⟨rfl, rfl, rfl⟩, rfl, rfl,
      translated (by decide), rfl, by decide, rfl, rfl⟩
  · exact ⟨merging 2 2 [], _, 0, lb.toNat, lb.toNat + 64, 16, 3, 0, 0#64, _, spad 64, ⟨rfl, rfl, rfl⟩, rfl, rfl,
      translated (by decide), rfl, by decide, rfl, rfl⟩

theorem met_merge_counts : ∃ s f src dst len n c op ctr e, Moving s f e ∧ e.kind = .merge src dst len ctr n c op ∧
    e.put.isSome = true ∧ ctr = 0#64 :=
  ⟨sending { sender 0 with put := some (0#64, []) } [], 0, lb.toNat, lb.toNat + 64, 16, 3, 0, 0, 0#64, _, ⟨rfl, rfl, rfl⟩, rfl, rfl,
   rfl⟩

theorem met_red : ∃ s f e op a b x, Moving s f e ∧ e.cancelled = false ∧ e.kind = .red op a b ∧ Reaches s e .atomic a 8 x :=
  ⟨working (sx 0#64 0#64) (engine (.red 0 lb 5#64)), 0, _, 0, lb, 5#64, spad 0, ⟨rfl, rfl, rfl⟩, rfl, rfl, reach (by decide)⟩

/-- The state with an ORED object of three contributions in the scratchpad, its slots behind it, and a contribution to it. -/
def oredState (next c fn pos : Nat) : State :=
  let s := working (sx 0#64 0#64) { engine (.ored fn (BitVec.ofNat 64 c) lb 5#64) with pos := pos }
  { s with mem := wrNum (wrNum (wrNum s.mem 0x1000000000008 4 3) 0x100000000000C 4 next) 0x1000000000020 8 (lb.toNat + 256) }

theorem met_ored_refused : ∃ s f e fn c a v x b, Moving s f e ∧ e.cancelled = false ∧ e.kind = .ored fn c a v ∧
    Reaches s e .atomic a 64 x ∧ b = rdBytes s.mem x.pa 64 ∧ e.pos = 0 ∧ numAt b 12 4 ≠ numAt b 8 4 ∧ c.toNat < numAt b 12 4 :=
  ⟨oredState 2 1 0 0, 0, _, 0, 1#64, lb, 5#64, spad 0, _, ⟨rfl, rfl, rfl⟩, rfl, rfl, reach (by decide), rfl, rfl, by decide, by decide⟩

theorem met_ored (c : Nat) (hc : c = 1 ∨ c = 2) : ∃ s f e fn k a v x b s1 y, Moving s f e ∧ e.cancelled = false ∧
    e.kind = .ored fn k a v ∧ k.toNat = c ∧ Reaches s e .atomic a 64 x ∧ b = rdBytes s.mem x.pa 64 ∧ e.pos = 0 ∧
    numAt b 12 4 ≠ numAt b 8 4 ∧ numAt b 17 1 / 2 % 2 = 0 ∧ numAt b 16 1 = fn ∧ k.toNat < numAt b 8 4 ∧ numAt b 12 4 ≤ k.toNat ∧
    translate s (engineReq s e) .atomic a = (.ok x, s1) ∧
    Reaches s1 e .atomic (BitVec.ofNat 64 (numAt b 32 8) + BitVec.ofNat 64 (16 * k.toNat)) 16 y ∧
    numAt (rdBytes s.mem y.pa 16) 8 1 % 2 = 0 ∧
    (∀ s2, (translate s1 (engineReq s1 e) .atomic (BitVec.ofNat 64 (numAt b 32 8) + BitVec.ofNat 64 (16 * k.toNat))).2 = s2 →
      Reaches s2 e .atomic (BitVec.ofNat 64 (numAt b 32 8) + BitVec.ofNat 64 (16 * k.toNat)) 16 y) := by
  rcases hc with rfl | rfl
  · exact ⟨oredState 1 1 0 0, 0, _, 0, 1#64, lb, 5#64, spad 0, _, _, spad 272, ⟨rfl, rfl, rfl⟩, rfl, rfl, rfl, reach (by decide), rfl,
      rfl, by decide, by decide, by decide, by decide, by decide, translated (by decide), reach (by decide), by decide,
      fun _ h => h ▸ reach (by decide)⟩
  · exact ⟨oredState 1 2 0 0, 0, _, 0, 2#64, lb, 5#64, spad 0, _, _, spad 288, ⟨rfl, rfl, rfl⟩, rfl, rfl, rfl, reach (by decide), rfl,
      rfl, by decide, by decide, by decide, by decide, by decide, translated (by decide), reach (by decide), by decide,
      fun _ h => h ▸ reach (by decide)⟩

theorem met_ored_done : ∃ s f e fn c a v x b, Moving s f e ∧ e.cancelled = false ∧ e.kind = .ored fn c a v ∧
    Reaches s e .atomic a 64 x ∧ b = rdBytes s.mem x.pa 64 ∧ e.pos = 1 ∧ numAt b 17 1 / 2 % 2 = 0 ∧ numAt b 12 4 = numAt b 8 4 ∧
    numAt b 24 8 = 0 :=
  ⟨oredState 3 2 0 1, 0, _, 0, 2#64, lb, 5#64, spad 0, _, ⟨rfl, rfl, rfl⟩, rfl, rfl, reach (by decide), rfl, rfl, by decide, by decide,
   by decide⟩

/-- A gather or scatter of three elements of 8 bytes within the scratchpad. -/
def mover (g : Bool) : Engine := engine (.move g lb (lb + 256#64) (lb + 512#64) 3 8 false false 0#64)

theorem met_move_index : ∃ s f e g a b k2 n esz wide ctr x w, Moving s f e ∧ e.kind = .move g a b k2 n esz wide false ctr ∧
    (esz = 1 ∨ esz = 2 ∨ esz = 4 ∨ esz = 8) ∧ e.put = none ∧ e.pos < n ∧ e.idx = none ∧ w = (if wide then 8 else 4) ∧
    Reaches s e .read (b + BitVec.ofNat 64 (e.pos * w)) w x :=
  ⟨working (sx 0#64 0#64) { mover true with pos := 2 }, 0, _, true, lb, lb + 256#64, lb + 512#64, 3, 8, false, 0#64, spad 264, 4,
   ⟨rfl, rfl, rfl⟩, rfl, by decide, rfl, by decide, rfl, rfl, reach (by decide)⟩

theorem met_move_element (g : Bool) : ∃ s f e a b k2 n esz wide ctr x i va, Moving s f e ∧
    e.kind = .move g a b k2 n esz wide false ctr ∧ (esz = 1 ∨ esz = 2 ∨ esz = 4 ∨ esz = 8) ∧ e.put = none ∧ e.pos < n ∧
    e.idx = some i ∧ e.buf = [] ∧
    va = (if g then k2 + BitVec.ofNat 64 (i.toNat * esz) else a + BitVec.ofNat 64 (e.pos * esz)) ∧ Reaches s e .read va esz x := by
  cases g
  · exact ⟨working (sx 0#64 0#64) { mover false with pos := 2, idx := some 4#64 }, 0, _, lb, lb + 256#64, lb + 512#64, 3, 8, false,
      0#64, spad 16, 4#64, _, ⟨rfl, rfl, rfl⟩, rfl, by decide, rfl, by decide, rfl, rfl, rfl, reach (by decide)⟩
  · exact ⟨working (sx 0#64 0#64) { mover true with pos := 2, idx := some 4#64 }, 0, _, lb, lb + 256#64, lb + 512#64, 3, 8, false,
      0#64, spad 544, 4#64, _, ⟨rfl, rfl, rfl⟩, rfl, by decide, rfl, by decide, rfl, rfl, rfl, reach (by decide)⟩

theorem met_move_counts : ∃ s f e g a b k2 n esz wide ctr, Moving s f e ∧ e.kind = .move g a b k2 n esz wide false ctr ∧
    (esz = 1 ∨ esz = 2 ∨ esz = 4 ∨ esz = 8) ∧ e.put = none ∧ n ≤ e.pos :=
  ⟨working (sx 0#64 0#64) { mover true with pos := 3 }, 0, _, true, lb, lb + 256#64, lb + 512#64, 3, 8, false, 0#64,
   ⟨rfl, rfl, rfl⟩, rfl, by decide, rfl, by decide⟩

/-- The state with one attestation, whose nonce and buffer lie in the scratchpad. -/
def attesting (pos n : Nat) : State :=
  working (sx 0#64 0#64) { engine (.attest (lb + 4096#64) lb 0#64) with pos := pos, buf := List.replicate n 7#8 }

theorem met_attest_step (n : Nat) (hn : n = 8 ∨ n = 64) : ∃ s f e buf nonce ctr, Moving s f e ∧ e.kind = .attest buf nonce ctr ∧
    (∀ g e', (g, e') ∈ s.engines → e'.complete = false → (∃ x y z, e'.kind = .attest x y z) → f ≤ g) ∧ e.put = none ∧ e.pos = 0 ∧
    e.buf.length = n ∧ (n = 8 → ∃ x, Reaches s e .read (nonce + BitVec.ofNat 64 e.buf.length) 8 x) := by
  rcases hn with rfl | rfl
  · exact ⟨attesting 0 8, 0, _, lb + 4096#64, lb, 0#64, ⟨rfl, rfl, rfl⟩, rfl, fun _ _ _ _ _ => Nat.zero_le _, rfl, rfl, by decide,
      fun _ => ⟨spad 8, reach (by decide)⟩⟩
  · exact ⟨attesting 0 64, 0, _, lb + 4096#64, lb, 0#64, ⟨rfl, rfl, rfl⟩, rfl, fun _ _ _ _ _ => Nat.zero_le _, rfl, rfl, by decide,
      fun h => absurd h (by decide)⟩

theorem met_attest_counts : ∃ s f e buf nonce ctr x, Moving s f e ∧ e.kind = .attest buf nonce ctr ∧
    (∀ g e', (g, e') ∈ s.engines → e'.complete = false → (∃ x y z, e'.kind = .attest x y z) → f ≤ g) ∧ e.put = none ∧ e.pos = 1 ∧
    Reaches s e .atomic ctr 8 x :=
  ⟨attesting 1 0, 0, _, lb + 4096#64, lb, 0#64, ⟨0, 3, 7#6⟩, ⟨rfl, rfl, rfl⟩, rfl, fun _ _ _ _ _ => Nat.zero_le _, rfl, rfl,
   reach (by decide)⟩

/-! ## Launches, the loader, the allocator, snapshots and fault queues -/

/-- Memory with an image of one tile, with one unit, at an address (R104). -/
def imageMem (m : Memory) (a count : Nat) : Memory :=
  [(0, 4, 0x4A434647), (4, 4, 0x01010001), (8, 8, 7), (16, 4, count), (20, 4, 128), (24, 4, 64), (28, 4, 192), (64, 16, 0)].foldl
    (fun (m : Memory) (x : Nat × Nat × Nat) => wrNum m (a + x.1) x.2.1 x.2.2) m

/-- The bytes of the header and the segments of such an image. -/
def imageWords (count : Nat) : List Byte := rdBytes (imageMem {} 0 count) 0 80

/-- The launch loading such an image. -/
def loadingState (count : Nat) : State :=
  { sx 0#64 0#64 with launches := [(1, { lch with st := .loading, image := lb, words := imageWords count })] }

theorem met_segmentLoad : ∃ (s : State) (l : Nat) (x : Launch) (i : Image), mget s.launches l = some x ∧ x.st = .loading ∧
    readImage x.words = .ok i ∧ (i.segments.map fun g => (segmentSlot x g, g.entry.isSome)) = [(some 0, true)] :=
  ⟨loadingState 1, 1, _, _, rfl, rfl, okOf (by decide +kernel), by decide +kernel⟩

theorem met_segmentLoad_refused : ∃ (s : State) (l : Nat) (x : Launch) (o : Nat), mget s.launches l = some x ∧
    x.st = .loading ∧ readImage x.words = .error o :=
  ⟨loadingState 0, 1, _, 16, rfl, rfl, failed (by decide +kernel)⟩

/-- The launch loaded, its image declaring one queue. -/
def loadedState : State :=
  { st { ux 0#64 0#64 with st := .loaded } with
    launches := [(1, { lch with st := .loaded })]
    decls := [{ image := 7#64, queues := [{ home := 0x8000, base := 0x9000, esz := 3, capl := 4, flags := 0 }] }] }

theorem met_launchStart : ∃ s l x d y s1, mget s.launches l = some x ∧ x.st = .loaded ∧
    s.decls = [{ image := x.cfgid, queues := [d] }] ∧ d.esz ≤ 5 ∧ d.capl ≤ 24 ∧ d.flags < 8 ∧
    xlateD s (launchReq x) .atomic (x.arg + BitVec.ofNat 64 d.home) = some (y, s1) ∧ y.pa < 2 ^ 64 :=
  ⟨loadedState, 1, _, { home := 0x8000, base := 0x9000, esz := 3, capl := 4, flags := 0 }, ctr0, _, rfl, rfl, rfl, by decide,
   by decide, by decide, xlated (by decide +kernel), by decide⟩

theorem met_launchStart_plain : ∃ s l x, mget s.launches l = some x ∧ x.st = .loaded ∧ (∀ d ∈ s.decls, d.image ≠ x.cfgid) ∧
    ∃ u ∈ launchSlots x, (unitAt s u).st = .loaded :=
  ⟨{ loadedState with decls := [] }, 1, _, rfl, rfl, List.forall_mem_nil _, by decide⟩

theorem met_launchComplete : ∃ s l x, mget s.launches l = some x ∧ x.st = .running ∧ x.gctr = 0#64 ∧ s.phased = [] ∧
    (∀ u ∈ launchSlots x, (unitAt s u).st = .retired ∨ (unitAt s u).st = .free) ∧ (∀ e ∈ s.engines, e.2.launch ≠ l) :=
  ⟨st { ux 0#64 0#64 with st := .retired }, 1, _, rfl, rfl, rfl, rfl, by decide, List.forall_mem_nil _⟩

theorem met_launchComplete_runs : ∃ s l x, mget s.launches l = some x ∧ x.st = .running ∧ x.gctr = 0#64 ∧ s.phased = [] ∧
    (∃ u ∈ launchSlots x, (unitAt s u).st = .ready) :=
  ⟨sx 0#64 0#64, 1, _, rfl, rfl, rfl, rfl, by decide⟩

theorem met_bump : ∃ s q va bits y s1, xlateD s q .atomic va = some (y, s1) ∧ va ≠ 0#64 ∧ bits ≠ 0 ∧ bits < 2 ^ 32 ∧
    isRegion y.pa = false :=
  ⟨sx 0#64 0#64, launchReq lch, lb, 4, spad 0, _, xlated (by decide), by decide, by decide,
   by decide, by decide⟩

/-- A job with one graph in each of two phases, the first as given. -/
def twoPhases (done : Nat) : State :=
  { sx 0#64 0#64 with
    graphs := [{ job := 0, die := 0, ctr := lb, phase := lb + 16#64, declared := 1, held := 1, complete := done },
               { job := 0, die := 0, ctr := lb + 32#64, phase := lb + 48#64, declared := 1 }] }

theorem met_phaseComplete : ∃ (s : State) (job : Nat) (ctr : Word), (∃ g ∈ s.graphs, g.job = job ∧ g.phase = ctr) ∧ (∃ h ∈ s.graphs, h.job = job ∧ h.phase ≠ ctr) ∧
    (∀ g ∈ s.graphs, g.job = job → g.phase = ctr → g.declared ≤ g.complete ∧ g.rank3 = true) :=
  ⟨twoPhases 1, 0, lb + 16#64, by decide, by decide, by decide⟩

theorem met_phaseComplete_waits : ∃ (s : State) (job : Nat) (ctr : Word), (∃ g ∈ s.graphs, g.job = job ∧ g.phase = ctr) ∧
    (∃ h ∈ s.graphs, h.job = job ∧ h.phase ≠ ctr) ∧ (∃ g ∈ s.graphs, g.job = job ∧ g.phase = ctr ∧ g.complete < g.declared) :=
  ⟨twoPhases 0, 0, lb + 16#64, by decide, by decide, by decide⟩

/-- A bound endpoint of a job with a token at the head of its entries, and an image at 0x8000. -/
def descState (t : Token) (job : Nat) : State :=
  { sx 0#64 0#64 with
    mem := imageMem (sx 0#64 0#64).mem 0x8000 1
    endpoints := Vector.replicate 32 { bound := true, job := job, ingress := [t] } }

/-- A descriptor of configuration 7 at 0x8000, of job 0. -/
def desc0 : Token := dat (7 + 0x8000 * 2 ^ 64)

theorem met_loaderDescriptor (t : Token) (job : Nat) (h : (t, job) = (eos 2, 0) ∨ (t, job) = (desc0, 1)) :
    ∃ s s1 ep key d p rest, ep < 32 ∧ p = endpointAt s ep ∧ d = ep / 8 ∧ p.bound = true ∧ p.frozen = false ∧ p.isOpen = false ∧
    endpointHeld s ep = false ∧ p.ingress = t :: rest ∧ key = 2 ^ 32 * d + (dieAt s d).nextId ∧
    s1 = setDie s d { dieAt s d with nextId := (dieAt s d).nextId + 1 } ∧
    (t.ty = tyData → numAt (toBytes 64 t.data.toNat) 48 2 ≠ p.job) := by
  rcases h with h | h <;> cases h
  · exact ⟨descState (eos 2) 0, _, 9, _, _, _, [], by decide, rfl, rfl, by decide, by decide, by decide, by decide, by decide +kernel, rfl, rfl,
      by decide⟩
  · exact ⟨descState desc0 1, _, 9, _, _, _, [], by decide, rfl, rfl, by decide, by decide, by decide, by decide, by decide +kernel,
      rfl, rfl, by decide +kernel⟩

/-- What every clause about a descriptor that may launch asks. -/
abbrev Launches (s s1 : State) (ep key d : Nat) (p : Endpoint) (t : Token) (rest : List Token) (x : Descriptor) : Prop :=
  ep < 32 ∧ p = endpointAt s ep ∧ d = ep / 8 ∧ p.bound = true ∧ p.frozen = false ∧ p.isOpen = false ∧
    endpointHeld s ep = false ∧ p.ingress = t :: rest ∧ key = 2 ^ 32 * d + (dieAt s d).nextId ∧
    s1 = setDie s d { dieAt s d with nextId := (dieAt s d).nextId + 1 } ∧ t.ty = tyData ∧
    numAt (toBytes 64 t.data.toNat) 48 2 = p.job ∧ readDescriptor (toBytes 64 t.data.toNat) = some x

theorem met_loaderDescriptor_loads : ∃ (s s1 s2 : State) (ep key d : Nat) (p : Endpoint) (t : Token) (rest : List Token)
    (x : Descriptor) (sh : Bool) (r : Resident) (i : Image) (y : Launch), Launches s s1 ep key d p t rest x ∧
    poolEntry s d 0 = some sh ∧ x.gctr = 0#64 ∧ y = { ingressLaunch s ep p.job x sh with die := d } ∧
    findImage s1 d y = .ok (r, i, s2) := by
  have h : ∀ {e : Except ImageFault (Resident × Image × State)} (h : e.toOption.isSome = true),
      e = .ok ((e.toOption.get h).1, (e.toOption.get h).2.1, (e.toOption.get h).2.2) := fun {e} h => by
    cases e with
    | error _ => cases h
    | ok _ => rfl
  exact ⟨descState desc0 0, _, _, 9, _, _, _, desc0, [], _, true, _, _, _,
    ⟨by decide, rfl, rfl, by decide, by decide, by decide, by decide, by decide +kernel, rfl, rfl, rfl, by decide +kernel,
     someOf (by decide +kernel)⟩, by decide +kernel, by decide +kernel, rfl, h (by decide +kernel)⟩

theorem met_loaderDescriptor_other : ∃ (s s1 : State) (ep key d : Nat) (p : Endpoint) (t : Token) (rest : List Token)
    (x : Descriptor) (sh : Bool) (i : Image) (b : List Byte) (y : Launch), Launches s s1 ep key d p t rest x ∧
    poolEntry s d 0 = some sh ∧ x.gctr = 0#64 ∧ y = { ingressLaunch s ep p.job x sh with die := d } ∧
    (dieAt s d).images.find? (fun r => decide (r.id = x.id)) = none ∧
    fetchImage s1 (launchReq y) x.image = .ok (i, b) ∧ i.id ≠ x.id := by
  have h : ∀ {e : Except ImageFault (Image × List Byte)} (h : e.toOption.isSome = true),
      e = .ok ((e.toOption.get h).1, (e.toOption.get h).2) := fun {e} h => by
    cases e with
    | error _ => cases h
    | ok _ => rfl
  exact ⟨descState (dat (8 + 0x8000 * 2 ^ 64)) 0, _, 9, _, _, _, dat (8 + 0x8000 * 2 ^ 64), [], _, true, _, _, _,
    ⟨by decide, rfl, rfl, by decide, by decide, by decide, by decide, by decide +kernel, rfl, rfl, rfl, by decide +kernel,
     someOf (by decide +kernel)⟩, by decide +kernel, by decide +kernel, rfl, by decide +kernel, h (by decide +kernel),
    by decide +kernel⟩

theorem met_loaderDescriptor_waits : ∃ (s s1 : State) (ep key d : Nat) (p : Endpoint) (t : Token) (rest : List Token)
    (x : Descriptor), Launches s s1 ep key d p t rest x ∧ poolEntry s d 0 = none :=
  ⟨{ descState desc0 0 with
     launches := (List.range 3648).map fun k => (2 ^ 32 + k, { pooled 0 (decide (k < 3584)) with die := 1 }) }, _, 9, _, _, _, desc0,
   [], _, ⟨by decide, rfl, rfl, by decide, by decide, by decide, by decide +kernel, by decide +kernel, rfl, rfl, rfl,
     by decide +kernel, someOf (by decide +kernel)⟩, by decide +kernel⟩

/-- A die's pool with all its entries taken by launches of a depth: none of the shared ones free, none of the reserve. -/
theorem met_poolPlace_none : ∃ s d, ∀ y ∈ poolEntries s d, findPlace s y.1 y.2 = none :=
  ⟨sx 0#64 0#64, 1, by
    have h : poolEntries (sx 0#64 0#64) 1 = [] := by show List.mergeSort [] _ = _; rw [List.mergeSort_nil]
    rw [h]
    exact List.forall_mem_nil _⟩

/-- A launch that waits in die 0's pool, of a page set that its job's allowance admits, or not. -/
def waitingEntry (w parent : Nat) : Launch := { lch with st := .pool, shared := some true, width := w, nctx := 1, parent := some parent }

/-- The state with that entry beside launch 1, whose tiles have no units, so that nothing of it is frozen. -/
def pooledState (w : Nat) (x : UnitRegs) : State := { st x with launches := [(1, lch), (2, waitingEntry w 1)] }

theorem entries (w : Nat) (x : UnitRegs) (d : Nat) :
    poolEntries (pooledState w x) d = if d = 0 then [(2, waitingEntry w 1)] else [] := by
  unfold poolEntries
  by_cases h : d = 0
  · subst h
    simp [pooledState, waitingEntry, lch, st, Launch.inPool]
  · have h2 : ¬ 0 = d := Ne.symm h
    simp [pooledState, waitingEntry, lch, st, Launch.inPool, h, h2]

theorem met_poolPlace : ∃ s d, ∃ y ∈ poolEntries s d, (findPlace s y.1 y.2).isSome = true :=
  ⟨pooledState 1 {}, 0, by rw [entries]; decide +kernel⟩

theorem met_findPlace : ∃ s l x b g, findPlace s l x = some (b, g) :=
  ⟨pooledState 1 {}, 2, waitingEntry 1 1, 2, 0, by decide +kernel⟩

/-! ## The allocator, snapshots and fault queues -/

/-- The tables that a launch's unit, waiting for a counter, and a pool entry of another or the same launch make. -/
def waitingUnit : UnitRegs := { ux 0#64 0#64 with st := .waiting, wait := some { kind := .counter, value := lb } }

theorem noPlace (w : Nat) (x : UnitRegs) (h : findPlace (pooledState w x) 2 (waitingEntry w 1) = none) :
    blockedEntries (pooledState w x) = [(2, waitingEntry w 1)] := by
  unfold blockedEntries
  rw [show [0, 1, 2, 3].flatMap (poolEntries (pooledState w x)) = [(2, waitingEntry w 1)] from by simp [entries]]
  simp [h]

/-- An entry two pages wide cannot be placed, for its job's allowance is one page. -/
theorem wide : findPlace (pooledState 2 {}) 2 (waitingEntry 2 1) = none := by decide +kernel

theorem met_compact : ∃ s l x g, mget s.launches l = some x ∧ canMove s l x g = true ∧ nextToMove s x = true :=
  ⟨pooledState 2 {}, 1, lch, 1, rfl, by decide +kernel, by
    unfold nextToMove
    rw [noPlace 2 {} wide]
    decide +kernel⟩

theorem met_compact_not : ∃ s l x g, mget s.launches l = some x ∧ canMove s l x g = false := ⟨pooledState 2 {}, 1, lch, 0, rfl, by decide⟩

/-- The same with the entry's job of a higher class, and launch 1 in a context base from which it cannot move. -/
def victimState : State :=
  { pooledState 2 {} with
    launches := [(1, { lch with moved := some 0 }), (2, { waitingEntry 2 1 with job := 5 })]
    jobs := [(0, {}), (5, { cls := 2 })] }

theorem met_victimPreempt : ∃ s l x, mget s.launches l = some x ∧ victimOf s = some l ∧ allocatorBusy s = false := by
  have h0 : [0, 1, 2, 3].flatMap (poolEntries victimState) = [(2, { waitingEntry 2 1 with job := 5 })] := by
    simp [poolEntries, victimState, waitingEntry, lch, Launch.inPool]
  have h1 : blockedEntries victimState = [(2, { waitingEntry 2 1 with job := 5 })] := by
    unfold blockedEntries
    rw [h0]
    decide +kernel
  have h2 : victims victimState (policyOf victimState 5).cls = [(1, { lch with moved := some 0 })] := by decide +kernel
  refine ⟨victimState, 1, _, rfl, ?_, by decide⟩
  unfold victimOf
  rw [h1]
  have h3 : ([(2, { waitingEntry 2 1 with job := 5 })].find? fun e =>
      !compactionHelps victimState e.2 && !(victims victimState (policyOf victimState e.2.job).cls).isEmpty) =
      some (2, { waitingEntry 2 1 with job := 5 }) := by decide +kernel
  rw [h3]
  show (List.mergeSort (victims victimState (policyOf victimState 5).cls) _).head?.map Prod.fst = some 1
  rw [h2, List.mergeSort_singleton]
  rfl

theorem met_parentYield : ∃ s l x, mget s.launches l = some x ∧ mayYield s l = true :=
  ⟨pooledState 1 waitingUnit, 1, lch, rfl, by decide +kernel⟩

/-- Launch 1 after 2^22 cycles in which nothing happened, its job's watchdog cancelling it or not. -/
def quietState (wdc : Bool) (x : UnitRegs) : State :=
  { st x with launches := [(1, { lch with quiet := 2 ^ 22 })], jobs := [(0, { wdc := wdc })] }

theorem met_watchdogSnapshot (k : Nat) (h : k = 0 ∨ k = 2) : ∃ s l x s1, mget s.launches l = some x ∧ 2 ^ 22 ≤ x.quiet ∧
    (policyOf s x.job).wdc = false ∧ s1 = setLaunch s l { x with quiet := 0 } ∧ saveStatus s1 l = k := by
  rcases h with rfl | rfl
  · exact ⟨quietState false waitingUnit, 1, _, _, rfl, by decide, rfl, rfl, by decide +kernel⟩
  · exact ⟨quietState false { waitingUnit with st := .faulted }, 1, _, _, rfl, by decide, rfl, rfl, by decide +kernel⟩

theorem met_watchdogCancel : ∃ s l x, mget s.launches l = some x ∧ 2 ^ 22 ≤ x.quiet ∧ (policyOf s x.job).wdc = true ∧
    heldSlots s l ≠ [] := ⟨quietState true waitingUnit, 1, _, rfl, by decide, rfl, by decide +kernel⟩

theorem met_watchdog_early : ∃ (s : State) (l : Nat) (x : Launch), mget s.launches l = some x ∧ x.quiet < 2 ^ 22 := ⟨sx 0#64 0#64, 1, lch, rfl, by decide⟩

/-- A launch that is saving, of no page, whose save slot is at an address. -/
def savingState (slot : Word) : State :=
  { State.reset with launches := [(64, { lch with st := .saving, width := 0 })], jobs := [(0, { save := slot })] }

theorem met_snapshotClose : ∃ s l x s1 n, mget s.launches l = some x ∧ snapshotReady s l = true ∧
    n = snapshotBytes s (recordsOf s l x).length ∧
    xlateSlot s (launchReq x) (saveSlot s l x) ((n + 4095) / 4096) = .ok s1 ∧ x.inPlace = none ∧ x.dest = none := by
  have h : recordsOf (savingState lb) 64 { lch with st := .saving, width := 0 } = [] := by decide +kernel
  refine ⟨savingState lb, 64, _, (xlateSlot (savingState lb) (launchReq { lch with st := .saving, width := 0 })
    (saveSlot (savingState lb) 64 { lch with st := .saving, width := 0 }) 1).toOption.getD State.reset, _, rfl, by decide +kernel, rfl,
    ?_, rfl, rfl⟩
  rw [h]
  have h2 : (xlateSlot (savingState lb) (launchReq { lch with st := .saving, width := 0 })
    (saveSlot (savingState lb) 64 { lch with st := .saving, width := 0 }) 1).toOption.isSome = true := by decide +kernel
  rw [okOf h2]
  rfl

theorem header_le_snapshotBytes (s : State) (n : Nat) : 4096 ≤ snapshotBytes s n := by
  induction n with
  | zero => exact Nat.le_refl _
  | succ n ih => exact Nat.le_trans ih (Nat.le_add_right _ _)

theorem met_snapshotClose_fault : ∃ s l x c d a n, mget s.launches l = some x ∧ snapshotReady s l = true ∧
    n = snapshotBytes s (recordsOf s l x).length ∧
    xlateSlot s (launchReq x) (saveSlot s l x) ((n + 4095) / 4096) = .error (c, d, a) := by
  have h1 : xlateSlot (savingState 0#64) (launchReq { lch with st := .saving, width := 0 }) 0#64 1 = .error (5#8, 0#8, 0#64) :=
    failed (by decide +kernel)
  have h2 : ∀ k, xlateSlot (savingState 0#64) (launchReq { lch with st := .saving, width := 0 }) 0#64 (k + 1) =
      .error (5#8, 0#8, 0#64) := by
    intro k
    induction k with
    | zero => exact h1
    | succ k ih =>
      rw [xlateSlot, ih]
      rfl
  refine ⟨savingState 0#64, 64, _, 5#8, 0#8, 0#64, _, rfl, by decide +kernel, rfl, ?_⟩
  rw [show saveSlot (savingState 0#64) 64 { lch with st := .saving, width := 0 } = 0#64 from by decide]
  generalize hn : (snapshotBytes (savingState 0#64) _ + 4095) / 4096 = n
  have h3 : 1 ≤ n := by
    have := header_le_snapshotBytes (savingState 0#64)
      (recordsOf (savingState 0#64) 64 { lch with st := .saving, width := 0 }).length
    omega
  obtain ⟨k, rfl⟩ : ∃ k, n = k + 1 := ⟨n - 1, by omega⟩
  exact h2 k

theorem met_snapshotClose_waits : ∃ s l x, mget s.launches l = some x ∧ snapshotReady s l = false := ⟨sx 0#64 0#64, 1, lch, rfl, by decide⟩

/-- A launch to be restored, with the snapshot of one unit. -/
def restoring : State :=
  { State.reset with
    launches := [(1, { lch with
      st := .restoring
      snapshot := [{ dx := 1, dy := 0, ctx := 1, unit := some waitingUnit, bank := { words := { swords := [0x9800#16] } }, elems := []
                     fifos := [], rows := [], claims := [], spad := [], full := [], poisoned := [], single := [], barriers := []
                     episodes := [], forks := [] }] })] }

theorem met_restore : ∃ (s : State) (l : Nat) (x : Launch) (a : List Record) (r : Record) (b : List Record) (u tile : Nat) (z : UnitRegs), mget s.launches l = some x ∧ x.st = .restoring ∧ x.snapshot = a ++ r :: b ∧
    launchTile x r.dx r.dy = some tile ∧ u = 4 * tile + x.base + r.ctx ∧
    (∀ h ∈ b, ∀ tl, launchTile x h.dx h.dy = some tl → 4 * tl + x.base + h.ctx ≠ u) ∧ r.unit = some z :=
  ⟨restoring, 1, _, [], _, [], _, _, waitingUnit, rfl, rfl, rfl, rfl, rfl, List.forall_mem_nil _, rfl⟩

/-- A record of a job. -/
def record64 (job : Nat) : Bytes := (List.replicate 20 1#8) ++ toBytes 2 job ++ List.replicate 42 0#8

/-- A fault queue of four slots of 64 bytes at 0x8000, the slots mapped at 2^48 + 0x9000 by a second root entry. -/
def faultBlock (free : Nat) : Aqcb :=
  { head := 0, tail := 0, free := free, esz := 3, capl := 2, flags := 0, owner := 0#64, home := 0x8000, base := 0x1000000009000#64
    check := checkOf ({ head := 0, tail := 0, free := free, esz := 3, capl := 2, flags := 0, owner := 0#64, home := 0x8000,
                        base := 0x1000000009000#64, check := 0, zeros := true } : Aqcb).front
    zeros := true }

/-- A page with one record, and its job's fault queue. -/
def recorded (job free : Nat) : State :=
  let s := sx 0#64 0#64
  { s with
    mem := wrBytes (wrNum s.mem 8 8 0x1001) 0x8000 (faultBlock free).bytes
    pages := [(0, { records := [record64 job] })]
    jobs := [(0, { fq := 0x8000#64 })] }

theorem met_faultRecordWrite_gone : ∃ s pg job r l, (pageAt s pg).records = r :: l ∧ job = numAt r 20 2 ∧ jobLive s job = false :=
  ⟨recorded 9 4, 0, _, _, [], rfl, rfl, by decide⟩

theorem met_faultRecordWrite_full : ∃ s s1 pg job x r l, (pageAt s pg).records = r :: l ∧ job = numAt r 20 2 ∧
    jobLive s job = true ∧ xlateD s (regionReq pg job) .atomic (policyOf s job).fq = some (x, s1) ∧
    (paClass x.pa = 0 ∨ paClass x.pa = 2) ∧ poisonedIn s.mem x.pa 64 = none ∧ (blockAt s.mem x.pa).poison = false ∧
    (blockAt s.mem x.pa).consistent x.pa = true ∧ (blockAt s.mem x.pa).free = 0 :=
  ⟨recorded 0 0, _, 0, _, ctr0, _, [], rfl, rfl, by decide, xlated (by decide +kernel), by decide, by decide, by decide +kernel,
   by decide +kernel, by decide +kernel⟩

theorem met_faultRecordWrite_inconsistent : ∃ s s1 pg job x r l, (pageAt s pg).records = r :: l ∧ job = numAt r 20 2 ∧
    jobLive s job = true ∧ xlateD s (regionReq pg job) .atomic (policyOf s job).fq = some (x, s1) ∧
    (paClass x.pa = 0 ∨ paClass x.pa = 2) ∧ poisonedIn s.mem x.pa 64 = none ∧ (blockAt s.mem x.pa).poison = false ∧
    (blockAt s.mem x.pa).consistent x.pa = false ∧ s.qwaiters = [] :=
  ⟨recorded 0 3, _, 0, _, ctr0, _, [], rfl, rfl, by decide, xlated (by decide +kernel), by decide, by decide, by decide +kernel,
   by decide +kernel, rfl⟩

theorem met_faultRecordWrite : ∃ s s1 pg job x r l q slot s2, (pageAt s pg).records = r :: l ∧ job = numAt r 20 2 ∧
    jobLive s job = true ∧ xlateD s (regionReq pg job) .atomic (policyOf s job).fq = some (x, s1) ∧
    (paClass x.pa = 0 ∨ paClass x.pa = 2) ∧ poisonedIn s.mem x.pa 64 = none ∧ (blockAt s.mem x.pa).poison = false ∧
    (blockAt s.mem x.pa).consistent x.pa = true ∧ (blockAt s.mem x.pa).esz = 3 ∧
    q = blockAt s.mem x.pa ∧ 0 < q.free ∧ (q.multiDie = true ∨ paDie x.pa = pg / 64) ∧
    r.length = 64 ∧ translate s1 (regionReq pg job) .write (q.slot q.tail) = (.ok slot, s2) ∧
    pinnedRange s none slot.pa 64 = false ∧ pinnedRange s none x.pa 64 = false ∧ Apart slot.pa 64 x.pa 64 ∧ s.qwaiters = [] :=
  ⟨recorded 0 4, (translate (recorded 0 4) (regionReq 0 0) .atomic 0x8000#64).2, 0, 0, ctr0, record64 0, [],
   blockAt (recorded 0 4).mem 0x8000, ⟨0x9000, 3, 7#6⟩, _, rfl, rfl, by decide, xlated (by decide +kernel), by decide, by decide,
   by decide +kernel, by decide +kernel, by decide +kernel, rfl, by decide +kernel, by decide +kernel, by decide,
   translated (by decide +kernel), by decide, by decide, by decide, rfl⟩

/-! ## Region windows, links, host ports and management -/

/-- The state with page 0's RCSEL at a value, its unit in a state, and an element's EFR. -/
def window (sel : Word) (x : UnitRegs) (e : Nat) (efr : Word) : State :=
  { st x with
    banks := [(0, { words := {}, launch := some 1 })]
    pages := [(0, { rcsel := sel })]
    elems := [(e, { efr := efr })] }

/-- That unit faulted. -/
def faulted : UnitRegs := { ux 0#64 0#64 with st := .faulted }

theorem met_regionRegisters (sel : Nat) (x : UnitRegs) (v : Word)
    (h : (sel, x, v) = (24 * 64, faulted, 0x104#64) ∨ (sel, x, v) = (24 * 64, faulted, 0x1000#64) ∨
      (sel, x, v) = (23 * 64, faulted, 0x641#64) ∨ (sel, x, v) = (22 * 64, ux 0#64 0#64, 0x500#64)) :
    ∃ s pg u e y, u = selSlot pg (pageAt s pg) ∧ e = selElem (pageAt s pg) ∧ y = unitAt s u ∧ y = x ∧ e = sel / 64 ∧ pg < 256 ∧
      ((v.toNat < 2048 ∧ v.toNat / 64 ≤ 24 ∧ y.st = .faulted ∧ v.toNat % 4 = 0) ∨
       ((2048 ≤ v.toNat ∨ 24 < v.toNat / 64) ∧ y.st = .faulted ∧ v.toNat < 65536 ∧ v &&& csrReserved 0#12 = 0#64) ∨
       (24 < v.toNat / 64 ∧ y.st = .faulted ∧ v.toNat % 4 ≠ 0 ∧ e < 24 ∧ e ≠ 22) ∨
       (y.st ≠ .faulted ∧ e = 22 ∧ v.getLsbD 8 = true)) := by
  rcases h with h | h | h | h <;> cases h
  · exact ⟨window (24 * 64) faulted 22 0#64, 0, 0, 24, faulted, by decide⟩
  · exact ⟨window (24 * 64) faulted 22 0#64, 0, 0, 24, faulted, by decide⟩
  · exact ⟨window (23 * 64) faulted 22 0#64, 0, 0, 23, faulted, by decide⟩
  · exact ⟨window (22 * 64) (ux 0#64 0#64) 22 0#64, 0, 0, 22, ux 0#64 0#64, by decide⟩

theorem met_regionCommands_element (c : Nat) (h : c = 4 ∨ c = 5 ∨ c = 7 ∨ c = 8) : ∃ s pg u e, u = selSlot pg (pageAt s pg) ∧
    e = selElem (pageAt s pg) ∧ e < 24 ∧ (elemAt s u e).frozen = true ∧ (elemAt s u e).efr.toNat / 2 ^ 48 % 256 = c ∧
    (unitAt s u).st = .faulted ∧ (unitAt s u).selfFault = false ∧
    anyFrozen (setElem s u e { elemAt s u e with efr := (elemAt s u e).efr &&& 0x7FFFFFFFFFFFFFFF#64 }) u = false := by
  rcases h with rfl | rfl | rfl | rfl
  · exact ⟨window (23 * 64) faulted 23 (efrOf 0 4 0 0 0), 0, 0, 23, by decide⟩
  · exact ⟨window 0#64 faulted 0 (efrOf 0 5 0 0 0), 0, 0, 0, by decide⟩
  · exact ⟨window 0#64 faulted 0 (efrOf 0 7 0 0 0), 0, 0, 0, by decide⟩
  · exact ⟨window 0#64 faulted 0 (efrOf 0 8 0 0 0), 0, 0, 0, by decide⟩

theorem met_regionCommands_idle : ∃ s pg u e, u = selSlot pg (pageAt s pg) ∧ e = selElem (pageAt s pg) ∧ e < 24 ∧
    (elemAt s u e).frozen = false := ⟨window 0#64 faulted 1 0#64, 0, 0, 0, by decide⟩

theorem met_regionCommands_unit : ∃ s pg u e l x, u = selSlot pg (pageAt s pg) ∧ e = selElem (pageAt s pg) ∧ e = 24 ∧
    (unitAt s u).st = .faulted ∧ (bankAt s u).launch = some l ∧ heldSlots s l ≠ [] ∧ mget s.launches l = some x ∧
    saveStatus s l ≠ 0 := ⟨window (24 * 64) faulted 0 0#64, 0, 0, 24, 1, lch, by decide⟩

theorem met_regionCommands_snapshot : ∃ s pg u e l x, u = selSlot pg (pageAt s pg) ∧ e = selElem (pageAt s pg) ∧ e = 24 ∧
    (unitAt s u).st ≠ .faulted ∧ (∀ y ∈ s.engines, y.2.unit = u → y.2.frozen = false) ∧ (bankAt s u).launch = some l ∧
    mget s.launches l = some x ∧ saveStatus s l = 0 := ⟨window (24 * 64) (ux 0#64 0#64) 0 0#64, 0, 0, 24, 1, lch, by decide⟩

theorem met_regionCommands_none : ∃ s pg u, u = selSlot pg (pageAt s pg) ∧ (bankAt s u).launch = none :=
  ⟨State.reset, 255, _, rfl, by decide⟩

/-- A link with one turn at the head of its queue. -/
def turning (a : Turn) : State := { sx 0#64 0#64 with tb := 100, links := Vector.replicate 4 { queue := [a] } }

theorem met_linkTurns (a : Turn) (h : a = ⟨15, true, none, none⟩ ∨ a = ⟨0, false, some 5, none⟩ ∨ a = ⟨3, true, some 5, some 6⟩ ∨
      a = ⟨3, true, some 5, some 200⟩) :
    ∃ s k tb x l, k < 4 ∧ x = linkAt s k ∧ tb = tbOf s (endL k) ∧ x.queue = a :: l ∧ a.group < 16 ∧
      ((a.started = none ∧ a.drained = none) ∨ (∃ b, a.started = some b ∧ a.drained = none ∧ b < tb) ∨
       (∃ e, a.drained = some e ∧ e + 25 ≤ tb) ∨ ∃ e, a.drained = some e ∧ tb < e + 25) := by
  refine ⟨turning a, 3, _, _, [], by decide, rfl, rfl, rfl, ?_⟩
  unfold tbOf turning
  have hk := Nat.mod_lt (Config.skew (endL 3)) (show 0 < 3 by decide)
  rcases h with rfl | rfl | rfl | rfl
  · exact ⟨by decide, .inl ⟨rfl, rfl⟩⟩
  · exact ⟨by decide, .inr (.inl ⟨5, rfl, rfl, by show 5 < 100 + _; omega⟩)⟩
  · exact ⟨by decide, .inr (.inr (.inl ⟨6, rfl, by show 6 + 25 ≤ 100 + _; omega⟩))⟩
  · exact ⟨by decide, .inr (.inr (.inr ⟨200, rfl, by show 100 + _ < 200 + 25; omega⟩))⟩

/-- The state with a leaf entry's low byte (R313), a die's registers in every die, and an endpoint's in every endpoint. -/
def hosted (leaf : Byte) (x : Die) (p : Endpoint) : State :=
  { sx 0#64 0#64 with
    mem := { cells := [(0, 0x01#8), (1, 0x10#8), (0x1000, 0x01#8), (0x1001, 0x20#8), (0x2000, leaf)] }
    dies := Vector.replicate 4 x
    endpoints := Vector.replicate 32 p }

theorem met_hostFrozen : ∃ s d, d < 4 ∧ (dieAt s d).hFrozen = true := ⟨hosted 0x1F#8 { hFrozen := true } {}, 3, by decide⟩

theorem met_ingress (off size : Nat) (p : Endpoint) (h : (off, size, p) = (0x7C0, 64, { bound := true, isOpen := true }) ∨
      (off, size, p) = (0x7C0, 8, { bound := true, isOpen := true }) ∨ (off, size, p) = (0x7C8, 64, {})) :
    ∃ s ep q, ep < 32 ∧ q = endpointAt s ep ∧ q = p ∧ (dieAt s (ep / 8)).hFrozen = false ∧
      ((size = 64 ∧ off % 64 = 0 ∧ off ≤ 0x7C0 ∧ p.bound = true ∧ p.frozen = false ∧ p.ingress.length < 64) ∨
       ((size ≠ 64 ∨ off % 64 ≠ 0 ∨ 0x7C0 < off ∨ p.bound = false ∨ p.frozen = true ∨ 64 ≤ p.ingress.length) ∧
         (size = 8 → p.bound = true ∧ p.frozen = false ∧ p.ingress.length < 64 ∧ p.isOpen = true) ∧
         (size ≠ 8 → p.isOpen = false))) := by
  rcases h with h | h | h <;> (cases h; refine ⟨hosted 0x1F#8 {} _, 31, _, by decide, rfl, rfl, ?_⟩; decide)

theorem met_hostRegisters (v : Word) (off : Nat) (h : (v, off) = (0#64, 0x9000) ∨ (v, off) = (65535#64, 2 ^ 47) ∨
      (v, off) = (65536#64, 2 ^ 46 - 1) ∨ (v, off) = (0#64, 0x028) ∨ (v, off) = (0#64, 0x01C)) :
    ∃ s d, d < 4 ∧ (dieAt s d).hFrozen = false ∧
    (0x9000 ≤ off ∧ (off < 2 ^ 46 ∨ 2 ^ 47 ≤ off) ∨ off < 0x1000 ∧ (0x020 < off ∨ off % 8 ≠ 0)) ∧
    ((v.toNat < 65536 ∧ jobLive s v.toNat = true ∧ v.toNat % 4096 = 0 ∧ v.toNat < 2 ^ 57) ∨
     (jobLive s v.toNat = false ∧ v.toNat % 4096 ≠ 0) ∨ 65536 ≤ v.toNat) := by
  rcases h with h | h | h | h | h <;> (cases h; exact ⟨hosted 0x1F#8 {} {}, 3, by decide⟩)

theorem met_hostWindow (n : Nat) (h : n = 1 ∨ n = 2 ∨ n = 4 ∨ n = 8 ∨ n = 64) (k : Access) (hk : k = .read ∨ k = .write) :
    ∃ s s1 d off va x q, d < 4 ∧ (dieAt s d).hFrozen = false ∧ 2 ^ 46 ≤ off ∧ off < 2 ^ 47 ∧
      va = (dieAt s d).hwbase + BitVec.ofNat 64 (off - 2 ^ 46) ∧ q = hostReq s d ∧ va.toNat % n = 0 ∧ x.cl = false ∧
      (policyOf s q.job).conf = false ∧ isRegion x.pa = false ∧ translate s q k va = (.ok x, s1) ∧
      pinnedRange s none x.pa n = false ∧ poisonedIn s.mem x.pa n = none := by
  rcases hk with rfl | rfl <;> rcases h with rfl | rfl | rfl | rfl | rfl <;>
    exact ⟨hosted 0x1F#8 { hwbase := 0x8000#64 } {}, _, 3, 2 ^ 46 + 64, _, ⟨0x8040, 3, 7#6⟩, _, by decide, by decide, by decide,
      by decide, rfl, rfl, by decide, by decide, by decide, by decide, translated (by decide), by decide, by decide⟩

theorem met_hostAtomic (sa : Bool) : ∃ s s1 d off va x q, d < 4 ∧ (dieAt s d).hFrozen = false ∧ 2 ^ 46 ≤ off ∧ off < 2 ^ 47 ∧
    va = (dieAt s d).hwbase + BitVec.ofNat 64 (off - 2 ^ 46) ∧ q = hostReq s d ∧ va.toNat % 8 = 0 ∧ x.cl = false ∧
    (policyOf s q.job).conf = false ∧ isRegion x.pa = false ∧ translate s q .atomic va = (.ok x, s1) ∧
    pinnedRange s none x.pa 8 = false ∧ x.sa = sa ∧ poisonedIn s.mem x.pa 8 = none := by
  cases sa
  · exact ⟨hosted 0x1F#8 { hwbase := 0x8000#64 } {}, _, 0, 2 ^ 46, _, ⟨0x8000, 3, 7#6⟩, _, by decide, by decide, by decide,
      by decide, rfl, rfl, by decide, by decide, by decide, by decide, translated (by decide), by decide, by decide, by decide⟩
  · exact ⟨hosted 0x3F#8 { hwbase := 0x8000#64 } {}, _, 0, 2 ^ 46, _, ⟨0x8000, 3, 15#6⟩, _, by decide, by decide, by decide,
      by decide, rfl, rfl, by decide, by decide, by decide, by decide, translated (by decide), by decide, by decide, by decide⟩

theorem met_hostClosed (conf : Bool) : ∃ s s1 d off va x q, d < 4 ∧ (dieAt s d).hFrozen = false ∧ 2 ^ 46 ≤ off ∧ off < 2 ^ 47 ∧
    va = (dieAt s d).hwbase + BitVec.ofNat 64 (off - 2 ^ 46) ∧ q = hostReq s d ∧ va.toNat % 64 = 0 ∧
    translate s q .read va = (.ok x, s1) ∧ (x.cl = true ∨ (policyOf s q.job).conf = true) := by
  cases conf
  · exact ⟨hosted 0x9F#8 {} {}, _, 0, 2 ^ 47 - 2 ^ 46 + 2 ^ 46 - 2 ^ 46 + 0x8000, _, ⟨0x8000, 3, 0x27#6⟩, _, by decide, by decide,
      by decide, by decide, rfl, rfl, by decide, translated (by decide), .inl (by decide)⟩
  · exact ⟨{ hosted 0x1F#8 {} {} with jobs := [(0, { conf := true })] }, _, 0, 2 ^ 46 + 0x8000, _, ⟨0x8000, 3, 7#6⟩, _, by decide,
      by decide, by decide, by decide, rfl, rfl, by decide, translated (by decide), .inr (by decide)⟩

theorem met_hostUntranslated : ∃ s s1 d off va q c b, d < 4 ∧ (dieAt s d).hFrozen = false ∧ 2 ^ 46 ≤ off ∧ off < 2 ^ 47 ∧
    va = (dieAt s d).hwbase + BitVec.ofNat 64 (off - 2 ^ 46) ∧ q = hostReq s d ∧ va.toNat % 64 = 0 ∧
    translate s q .read va = (.error (.cause c b), s1) :=
  ⟨hosted 0x1F#8 {} {}, _, 0, 2 ^ 46 + 0x80000000, _, _, 5#8, 0#8, by decide, by decide, by decide, by decide, rfl, rfl, by decide,
   untranslated (by decide +kernel)⟩

/-- The state in which every die has a MGARG and bytes in MGBUF. -/
def managed (arg : Word) (buf : Map Byte) : State :=
  { hosted 0x1F#8 { mgArg := arg, mgbuf := buf } {} with units := [(0, { ux 0#64 0#64 with st := .frozen })] }

theorem managed_manages (arg : Word) (buf : Map Byte) : Manages (managed arg buf) 3 := ⟨by decide, rfl, rfl⟩

theorem met_release_unit : ∃ s d u, Manages s d ∧ readMaster (dieAt s d).mgArg = some (.unit u) ∧ (unitAt s u).st = .frozen :=
  ⟨_, 3, 0, managed_manages 0#64 [], by decide⟩

theorem met_release_unfrozen : ∃ s d u, Manages s d ∧ readMaster (dieAt s d).mgArg = some (.unit u) ∧ (unitAt s u).st ≠ .frozen :=
  ⟨_, 3, 1, managed_manages (1#64 <<< 46) [], by decide⟩

theorem met_release_endpoint : ∃ s d e, Manages s d ∧ e < 32 ∧ readMaster (dieAt s d).mgArg = some (.endpoint e) ∧
    (endpointAt s e).frozen = true := ⟨hosted 0x1F#8 { mgArg := 0x1C0000000000001F#64 } { frozen := true }, 3, 31, ⟨by decide, rfl, rfl⟩, by decide⟩

theorem met_release_port : ∃ s d k, Manages s d ∧ k < 4 ∧ readMaster (dieAt s d).mgArg = some (.port k) ∧ (dieAt s k).hFrozen = true :=
  ⟨hosted 0x1F#8 { mgArg := 0x2C00000000000000#64, hFrozen := true } {}, 0, 3, ⟨by decide, rfl, rfl⟩, by decide⟩

theorem met_release_malformed : ∃ s d, Manages s d ∧ readMaster (dieAt s d).mgArg = none := ⟨_, 3, managed_manages 0x20#64 [], by decide⟩

theorem met_policy : ∃ s d job p, Manages s d ∧ readPolicy (mgBytes (dieAt s d) 0 64) = some (job, p) :=
  ⟨_, 3, 65535, { cls := 3, pages := 256, fq := 64#64 },
   managed_manages 0#64 [(0, 0xFF#8), (1, 0xFF#8), (2, 3#8), (5, 1#8), (32, 64#8)], by decide⟩

theorem met_policy_malformed (o : Nat) (h : o = 32 ∨ o = 4) : ∃ s d, Manages s d ∧
    (numAt (mgBytes (dieAt s d) 0 64) 32 8 = 0 ∨ numAt (mgBytes (dieAt s d) 0 64) 32 8 % 64 ≠ 0 ∨
      numAt (mgBytes (dieAt s d) 0 64) 4 2 = 0) ∧ numAt (mgBytes (dieAt s d) 0 64) o 1 = 8 := by
  rcases h with rfl | rfl
  · exact ⟨_, 3, managed_manages 0#64 [(4, 1#8), (32, 8#8)], by decide⟩
  · exact ⟨_, 3, managed_manages 0#64 [(4, 8#8)], by decide⟩

theorem met_frame (arg : Word) (h : arg = 15624999#64 ∨ arg = 0x1000000#64) : ∃ s d e fr, Manages s d ∧ e = BitVec.ofNat 32 (ofBytes (mgBytes (dieAt s d) 0 4)) ∧
    fr = 2 ^ 25 * d + (dieAt s d).mgArg.toNat ∧ e.toNat < 2 ^ 17 ∧ (dieAt s d).mgArg.toNat < 2 ^ 25 ∧ mapped (4096 * fr) = true ∧
    e.getLsbD 16 = true ∧ (mget s.frames fr).getD 0#32 = 0#32 ∧ (dieAt s d).mgArg = arg := by
  rcases h with rfl | rfl
  · exact ⟨managed 15624999#64 [(2, 1#8)], 0, _, _, ⟨by decide, rfl, rfl⟩, rfl, rfl, by decide⟩
  · exact ⟨managed 0x1000000#64 [(2, 1#8)], 0, _, _, ⟨by decide, rfl, rfl⟩, rfl, rfl, by decide⟩

theorem met_frame_malformed (e : Bool) : ∃ s d, Manages s d ∧
    (if e then 2 ^ 17 ≤ (BitVec.ofNat 32 (ofBytes (mgBytes (dieAt s d) 0 4))).toNat else 2 ^ 25 ≤ (dieAt s d).mgArg.toNat) := by
  cases e
  · exact ⟨_, 3, managed_manages (2 ^ 25) [(2, 1#8)], by decide⟩
  · exact ⟨_, 3, managed_manages 0#64 [(2, 2#8)], by decide⟩

theorem met_pair (d k : Nat) (hd : d < 4) (hk : k < 2) : ∃ s, Manages s d ∧ k = (dieAt s d).mgArg.toNat ∧
    (Config.trains d k = true ∨ Config.trains d k = false) := by
  refine ⟨managed (BitVec.ofNat 64 k) [], ⟨hd, ?_⟩, ?_, by cases Config.trains d k <;> simp⟩ <;>
    (match d, k, hd, hk with
     | 0, 0, _, _ => decide | 0, 1, _, _ => decide | 1, 0, _, _ => decide | 1, 1, _, _ => decide
     | 2, 0, _, _ => decide | 2, 1, _, _ => decide | 3, 0, _, _ => decide | 3, 1, _, _ => decide)

theorem met_key : ∃ s d k, Manages s d ∧ k = (dieAt s d).mgArg.toNat ∧ k < 4 := ⟨_, 3, 3, managed_manages 3#64 [], by decide⟩

theorem met_log : ∃ s d k r, Manages s d ∧ k = (dieAt s d).mgArg.toNat ∧ (dieAt s d).seclog[k]? = some r ∧ r.length = 64 :=
  ⟨hosted 0x1F#8 { seclog := [List.replicate 64 0x15#8] } {}, 3, 0, List.replicate 64 0x15#8, ⟨by decide, rfl, rfl⟩, by decide⟩

theorem met_debug (right busy : Bool) : ∃ s d, d < 4 ∧ (dieAt s d).mgFrozen = false ∧ (dieAt s d).debug = right ∧
    (dieAt s d).mgBusy = busy ∧ 0x80 ≤ (0xFF#64).toNat ∧ (0xFF#64).toNat ≤ 0xFF :=
  ⟨hosted 0x1F#8 { debug := right, mgBusy := busy } {}, 3, by decide, rfl, rfl, rfl, by decide, by decide⟩

theorem met_standby (j : Nat) (h : j = 0 ∨ j = 1) : ∃ s d, Manages s d ∧ s.power = .p1 ∧
    if j = 0 then ∀ i ∈ s.jobs, i.1 = 0 else ∃ i ∈ s.jobs, i.1 ≠ 0 := by
  rcases h with rfl | rfl
  · exact ⟨{ managed 0#64 [] with power := .p1 }, 3, ⟨by decide, rfl, rfl⟩, rfl, by decide⟩
  · exact ⟨{ managed 0#64 [] with power := .p1, jobs := [(0, {}), (9, {})] }, 3, ⟨by decide, rfl, rfl⟩, rfl, by decide⟩

theorem met_wake : ∃ s d, Manages s d ∧ s.power = .p2 := ⟨{ managed 0#64 [] with power := .p2 }, 3, ⟨by decide, rfl, rfl⟩, rfl⟩

theorem met_wakeComplete : ∃ s : State, s.power = .waking 0 := ⟨{ managed 0#64 [] with power := .waking 0 }, rfl⟩

theorem met_thcfg (v : Word) (h : v = 0x0100#64 ∨ v = 0x5F5F#64) : ∃ s d, d < 4 ∧ (dieAt s d).mgFrozen = false ∧
    (v.toNat % 256 < v.toNat / 256 % 256 ∨ v.toNat / 256 % 256 ≤ v.toNat % 256) :=
  ⟨managed 0#64 [], 3, by decide, rfl, by rcases h with rfl | rfl <;> decide⟩

theorem met_monitor : ∃ (s : State) (d : Nat), d < 4 ∧ s.steps < 6 ∧
    s.lastStep.all (fun b => decide (b + 2 ^ 20 ≤ s.tb)) = true := ⟨{ managed 0#64 [] with steps := 5, lastStep := some 0, tb := 2 ^ 20 }, 3, by decide⟩

theorem met_stepUp : ∃ s : State, 0 < s.steps ∧ s.lastStep.all (fun b => decide (b + 2 ^ 20 ≤ s.tb)) = true ∧
    ∀ k, k < 4 → (dieAt s k).coolSince + 2 ^ 24 ≤ s.tb := by
  refine ⟨{ hosted 0x1F#8 { coolSince := 1 } {} with steps := 6, lastStep := some 0, tb := 2 ^ 24 + 1 }, by decide, by decide,
    fun k hk => ?_⟩
  match k, hk with
  | 0, _ => decide | 1, _ => decide | 2, _ => decide | 3, _ => decide

theorem met_held : ∃ s : State, s.held = true := ⟨{ State.reset with held := true }, rfl⟩

/-! ## Words of the spec's worked cases, decoded (01_encodings.md to 25_bringup_power.md) -/

theorem test_decode_tagged_and_queue_words :
    decodeC 0xAC40A160#32 = .ok (.send 8#7 10#7 11#7) ∧ decodeC 0xA4010000#32 = .ok (.sleepu 8#7) ∧
    decodeC 0x9C0060E0#32 = .ok (.redadd 6#7 7#7) ∧ decodeC 0xA04860E0#32 = .ok (.oredFadd 9#7 6#7 7#7) := ⟨rfl, rfl, rfl, rfl⟩

theorem test_decode_launch_words :
    decodeC 0xC8286000#32 = .ok (.launch 5#7 6#7) ∧ decodeC 0xC80060E2#32 = .ok (.cancel 6#7 7#7) ∧
    decodeC 0xC80060E4#32 = .ok (.jobdl 6#7 7#7) ∧ decodeC 0xD000A180#32 = .ok (.preempt 5#7 6#7) ∧
    decodeC 0xD010A180#32 = .ok (.resume 5#7 6#7) ∧ decodeC 0xD020A180#32 = .ok (.snapq 5#7 6#7) ∧
    decodeC 0xD400C1C0#32 = .ok (.tlbinv 6#7 7#7) ∧ decodeC 0xD430A180#32 = .ok (.xlprobe 5#7 6#7) := ⟨rfl, rfl, rfl, rfl, rfl, rfl, rfl, rfl⟩

theorem test_decode_online_words :
    decodeE 0x0303C040#32 = .ok (.omul 0#5 0x0F#5 4#5) ∧ decodeE 0x10400042#32 = .ok (.ow2d 8#5 4#5 2#2) ∧
    decodeE 0x12000040#32 = .ok (.oacc 0#5 4#5) ∧ decodeE 0x05820040#32 = .ok (.odiv 16#5 8#5 4#5) ∧
    decodeE 0x11400072#32 = .ok (.od2w 8#5 7#5 0#2 2#2) ∧ decodeE 0x0F800071#32 = .ok (.othr 16#5 7#5 1#1) := ⟨rfl, rfl, rfl, rfl, rfl, rfl⟩

theorem test_decode_vector_words :
    decodeE 0x330201C0#32 = .ok (.vmac 0#5 8#5 7#3 0#2 0#4) ∧ decodeE 0x280001C2#32 = .ok (.vabs 0#5 7#3 0#2 2#4) ∧
    decodeE 0x2C000000#32 = .ok (.vcvt 0#5 0#3 0#2 0#4) ∧ decodeE 0x2D000000#32 = .ok (.vred 0#5 0#3 0#2 0#4) := ⟨rfl, rfl, rfl, rfl⟩

theorem test_decode_array_words :
    decodeE 0x41001100#32 = .ok (.mmas 0#5 0#5 8#5 4#3 0#4) ∧ decodeE 0x42001100#32 = .ok (.mmac 8#5 4#3 0#4) ∧
    decodeE 0x40001080#32 = .ok (.mma 0#5 0#5 8#5 2#3 0#4) ∧ decodeE 0x50000101#32 = .ok (.cvdn 0#5 4#3 1#1) := ⟨rfl, rfl, rfl, rfl⟩

theorem test_decode_memory_words :
    decodeE 0x60400142#32 = .ok (.mld 8#5 5#3 0#3 2#3) ∧ decodeE 0x61C20100#32 = .ok (.mst 24#5 8#5 4#3 0#3 0#3) ∧
    decodeE 0x654000C8#32 = .ok (.mldf 8#5 3#3 1#3 0#1) ∧ decodeE 0x68000000#32 = .ok .aga ∧
    decodeE 0x70400000#32 = .ok (.xlate 8#5 0#2 0#1) := ⟨rfl, rfl, rfl, rfl, rfl⟩

theorem test_decode_flow_words :
    decodeE 0x7D800000#32 = .ok (.eosgen 16#5 0#1) ∧ decodeE 0x7F400001#32 = .ok (.sink 8#5 1#1) ∧
    decodeE 0x80000001#32 = .ok .emitIota ∧ decodeE 0x03000004#32 = .error .unusedNonzero := ⟨rfl, rfl, rfl, rfl⟩

theorem test_decode_routes :
    decodeS 0x9310#16 = .ok (.routePass 9#4 3#4 2#2) ∧ decodeS 0xBF18#16 = .ok (.routePass 11#4 15#4 3#2) := ⟨rfl, rfl⟩

/-- The W-words of 01_encodings.md: own 5 between 4 and 6, and own 0, which starts a wave. -/
theorem test_wave_words : wOwn 0x01404018#32 = 5 ∧ wPred 0x01404018#32 = 4 ∧ wSucc 0x01404018#32 = 6 ∧ wLegal 0x01404018#32 = true ∧
    wStart 0x003FF006#32 = true ∧ wLegal 0x003FF006#32 = true := by decide

/-! ## Ill-formed terms that WellFormed refuses -/

/-- Scope code 5 is unassigned (R22, cause 0x01). -/
theorem test_refuses_field : wellFormed (.ldd 5#7 3#7 5#3 2#7) = false ∧ wellFormed (.ldd 5#7 3#7 4#3 2#7) = true := by decide
/-- A predicate is no value destination (R20, cause 0x02). -/
theorem test_refuses_operand : wellFormed (.add 0x51#7 4#7 5#7) = false ∧ wellFormed (.add 0x40#7 4#7 0x48#7) = true := by decide
/-- An l register is no destination. -/
theorem test_refuses_destination : wellFormed (.add 0x48#7 4#7 5#7) = false := by decide
/-- The vector unit takes no E4M3 (R184). -/
theorem test_refuses_mode : wellFormed (.vadd 0#5 8#5 4#3 0#2 0#4) = false ∧ wellFormed (.vadd 0#5 8#5 0#3 0#2 0#4) = true := by decide
/-- Ports that read one bus with two counts break R26. -/
theorem test_refuses_ports : wellFormed (.vadd 1#5 2#5 0#3 0#2 0#4) = false := by decide
/-- MMA of a 64-byte format has no field B (R195). -/
theorem test_refuses_mma_b : wellFormed (.mma 0#5 8#5 8#5 2#3 0#4) = false := by decide
/-- A route does not turn a port back onto itself (R33). -/
theorem test_refuses_route : wellFormed (.routePass 9#4 9#4 0#2) = false ∧ wellFormed (.routePass 9#4 3#4 0#2) = true := by decide

end Sys2Proof.Tests
end

section
/-!
PROOFS of the unit's traps (02_unit.md): TRAP, BREAK and ERET (R50, R51, R87, R88).
What a trap leaves is said once, for every cause and both values of TD (`trapped_raise`); a C-word whose body
raises one answers that state (`trapped_of_body`), as does one whose check fails; the three instructions are uses of these.
-/

namespace Sys2Proof.Proofs

open Sys2Proof Sys2Proof.Machine Sys2Proof.Claims

/-! ## The issuing unit written -/

/-- Writing the issuing unit's registers and taking free values changes no other part of the machine. -/
theorem onlyMe_setUnit_burn (s : State) (x : UnitRegs) : OnlyMe s (setUnit (burn s) s.cur x) :=
  ⟨rfl, fun u hu => unitAt_setUnit_ne (burn s) s.cur u x hu⟩

theorem onlyMe_modMe (s : State) (f : UnitRegs → UnitRegs) : OnlyMe s (modMe s f) :=
  ⟨rfl, fun u hu => unitAt_modMe_ne s u f hu⟩

/-! ## What a trap leaves (R50) -/

/-- The handler's entry with the unit's own PC as TRAPPC is the trap frame of R50. -/
theorem enterTrap_pc (x : UnitRegs) (c d : BitVec 8) (v : Word) : enterTrap x c d v x.pc = framed x c d v := by
  simp only [enterTrap, framed, statusWith_trap]

/-- With TD = 0 a trap of the issuing unit's C-word writes the trap frame. -/
theorem raise_burn_taken (s : State) (c d : BitVec 8) (v : Word) (htd : statusTD (me s) = false) :
    raise (burn s) s.cur c d v (me s).pc = setUnit (burn s) s.cur (framed (me s) c d v) :=
  (raise_taken (burn s) s.cur c d v (me s).pc htd).trans
    (congrArg (setUnit (burn s) s.cur) (enterTrap_pc (me s) c d v))

/-- A recorded fault stands among its page's records with the fields that it was given (R173, R175). -/
theorem record_fields (s : State) (p : Place) (c d kind : BitVec 8) (v pc : Word) (efr : Nat) :
    ∃ r, (pageAt (record s p kind.toNat c.toNat d.toNat v.toNat efr pc.toNat) (pageOfTile p.tile)).records =
        insertRecord r (pageAt s (pageOfTile p.tile)).records ∧
      numAt r 0 1 = c.toNat ∧ numAt r 1 1 = d.toNat ∧ numAt r 2 1 = kind.toNat ∧ numAt r 8 8 = v.toNat ∧
      numAt r 40 8 = pc.toNat := by
  obtain ⟨hc, hd, hk, hv, hpc⟩ :=
    numAt_faultRecord p kind.toNat c.toNat d.toNat v.toNat (tbOf s (dieOfTile p.tile)) efr pc.toNat
  refine ⟨_, by rw [record_eq, pageAt_setPage], ?_, ?_, ?_, ?_, ?_⟩
  · rw [hc, Nat.mod_eq_of_lt c.isLt]
  · rw [hd, Nat.mod_eq_of_lt d.isLt]
  · rw [hk, Nat.mod_eq_of_lt kind.isLt]
  · rw [hv, Nat.mod_eq_of_lt v.isLt]
  · rw [hpc, Nat.mod_eq_of_lt pc.isLt]

/-- A trap of the issuing unit's C-word leaves what R50 says, whatever TD is. -/
theorem trapped_raise (s : State) (c d : BitVec 8) (v : Word) :
    Trapped s (raise (burn s) s.cur c d v (me s).pc) c d v := by
  constructor <;> intro htd
  · rw [raise_burn_taken s c d v htd]
    exact ⟨onlyMe_setUnit_burn s _, unitAt_setUnit (burn s) s.cur _⟩
  · rw [raise_double (burn s) s.cur c d v (me s).pc htd]
    refine ⟨fun u hu => ?_, ?_, rfl, record_fields _ (placeOf (burn s) s.cur 24) c d 1#8 v (me s).pc 0⟩
    · exact unitAt_setUnit_ne (burn s) s.cur u _ hu
    · exact unitAt_setUnit (burn s) s.cur _

/-! ## C-words that trap -/

/-- A C-word that passes its checks and whose body raises a trap leaves that trap alone. -/
theorem trapped_of_body {i : Instr} {s : State} {c d : BitVec 8} {v : Word} {body : State → Except Stop State}
    (he : exec i s = cword i s body) (hi : Legal i s) (hb : body s = .error (.trap c d v)) :
    ∃ t, exec i s = .next t ∧ Trapped s t c d v := by
  obtain ⟨hf, hp, ho⟩ := hi
  exact ⟨_, he.trans (cword_error i s _ body (decodeChecks_none i (me s) hf hp ho) hb), trapped_raise s c d v⟩

/-- A privileged C-word in user mode fails the check of R23. -/
theorem decodeChecks_user {i : Instr} {x : UnitRegs} (hf : fieldsOk i = true) (hp : privileged i = true)
    (hm : modeM x = false) : decodeChecks i x = some 3#8 := by
  simp [decodeChecks, hf, hp, hm]

/-- TRAP and BREAK are legal in either mode. -/
theorem legal_trap (imm : BitVec 6) (s : State) : Legal (.trap imm) s := ⟨rfl, nofun, rfl⟩
theorem legal_breakI (imm : BitVec 6) (s : State) : Legal (.breakI imm) s := ⟨rfl, nofun, rfl⟩

/-- The bodies of TRAP and BREAK (R87). -/
theorem exec_trap (imm : BitVec 6) (s : State) :
    exec (.trap imm) s = cword (.trap imm) s fun _ => .error (.trap 0x14#8 0#8 (imm.setWidth 64)) := rfl
theorem exec_breakI (imm : BitVec 6) (s : State) :
    exec (.breakI imm) s = cword (.breakI imm) s fun _ => .error (.trap 0x16#8 0#8 (imm.setWidth 64)) := rfl

theorem trapAndBreakRule : TrapAndBreakRule := fun s imm =>
  ⟨trapped_of_body (exec_trap imm s) (legal_trap imm s) rfl,
   trapped_of_body (exec_breakI imm s) (legal_breakI imm s) rfl⟩

/-! ## ERET (R51, R88) -/

theorem exec_eret (s : State) :
    exec .eret s = cflow .eret s fun s => .ok (modMe s leaveTrap, (me s).csr.trappc) := rfl

/-- ERET in system mode leaves the handler: STATUS has M from PM, and PM and TD clear, and PC is TRAPPC. -/
theorem exec_eret_system (s : State) (hm : modeM (me s) = true) :
    exec .eret s = .next (modMe s fun x => goOn (leaveTrap x) (me s).csr.trappc) := by
  have hok : decodeChecks .eret (me s) = none := decodeChecks_none .eret (me s) rfl (fun _ => hm) rfl
  rw [exec_eret, cflow_ok .eret s _ _ _ hok rfl, modMe_modMe]

/-- What ERET writes of the unit beside the PC. -/
theorem leaveTrap_eq (x : UnitRegs) :
    leaveTrap x = { x with csr := { x.csr with
      status := (x.csr.status &&& 0xFFFFFFFFFFFFFFF8#64) ||| (if modePM x then 1#64 else 0#64) } } := by
  rw [leaveTrap, statusWith_eret]

theorem returnFromTrapRule : ReturnFromTrapRule := by
  intro s
  constructor <;> intro hm
  · refine ⟨_, exec_eret_system s hm, onlyMe_modMe s _, rfl, ?_⟩
    rw [← leaveTrap_eq]
    exact me_modMe s _
  · have hcheck : decodeChecks .eret (me s) = some 3#8 := decodeChecks_user rfl rfl hm
    exact ⟨_, exec_cflow_check (exec_eret s) hcheck, trapped_raise s 3#8 0#8 _⟩

/-- Settles O14: TRAP and BREAK by the trap that their bodies raise, ERET by its effect in system mode and by the check of its
privilege in user mode. -/
theorem trapAndReturn : Obligations.TrapAndReturn := ⟨trapAndBreakRule, returnFromTrapRule⟩

end Sys2Proof.Proofs
end

section
/-!
PROOFS of the integer, constant, compare, predicate and selection C-words (03_unit_instructions_compute.md, R58 to R67).
Where the model computes a result otherwise than the rule says it, the two are proved equal once, as functions of words;
a word on registers alone completes with its destination written (`exec_writesVal`, `exec_writesPred`); each C-word is then
a use of these two.
-/

namespace Sys2Proof.Proofs

open Sys2Proof Sys2Proof.Machine Sys2Proof.Claims

/-! ## Division (R59) -/

theorem divU_eq_udiv (a b : Word) : divU a b = if b = 0#64 then BitVec.allOnes 64 else a / b := by
  rw [divU, ← BitVec.toNat_udiv, BitVec.ofNat_toNat, BitVec.setWidth_eq]

theorem remU_eq_umod (a b : Word) : remU a b = if b = 0#64 then a else a % b := by
  rw [remU, ← BitVec.toNat_umod, BitVec.ofNat_toNat, BitVec.setWidth_eq]

/-- Signed overflow has one pair of operands. -/
theorem operands_of_overflow {a b : Word} (h : a.toInt = -(2 ^ 63 : Int) ∧ b.toInt = -1) :
    a = 0x8000000000000000#64 ∧ b = 0xFFFFFFFFFFFFFFFF#64 :=
  ⟨BitVec.eq_of_toInt_eq h.1, BitVec.eq_of_toInt_eq h.2⟩

theorem divS_eq_sdiv (a b : Word) : divS a b = if b = 0#64 then BitVec.allOnes 64 else a.sdiv b := by
  have hdiv : BitVec.ofInt 64 (a.toInt.tdiv b.toInt) = a.sdiv b :=
    BitVec.eq_of_toInt_eq (by rw [BitVec.toInt_ofInt, BitVec.toInt_sdiv])
  unfold divS
  split
  · rfl
  split
  · next h => obtain ⟨rfl, rfl⟩ := operands_of_overflow h; rfl
  · exact hdiv

theorem remS_eq_srem (a b : Word) : remS a b = if b = 0#64 then a else a.srem b := by
  have hrem : BitVec.ofInt 64 (a.toInt - b.toInt * a.toInt.tdiv b.toInt) = a.srem b := by
    rw [← Int.tmod_def, ← BitVec.toInt_srem, BitVec.ofInt_toInt]
  unfold remS
  split
  · rfl
  split
  · next h => obtain ⟨rfl, rfl⟩ := operands_of_overflow h; rfl
  · exact hrem

/-! ## Bits counted (R58) -/

theorem clz64_eq_clz (a : Word) : clz64 a = a.clz := by
  unfold clz64
  split
  · next h => subst h; rfl
  · next h =>
    have hlow : 2 ^ (63 - a.clz.toNat) ≤ a.toNat := BitVec.two_pow_sub_clz_le_toNat_of_ne_zero (by decide) h
    have hhigh : a.toNat < 2 ^ (64 - a.clz.toNat) := BitVec.toNat_lt_two_pow_sub_clz
    have hlt : a.clz.toNat < 64 := BitVec.clz_lt_iff_ne_zero.2 h
    have hlog : a.toNat.log2 = 63 - a.clz.toNat := by
      rw [Nat.log2_eq_iff (BitVec.toNat_ne.1 h), show 63 - a.clz.toNat + 1 = 64 - a.clz.toNat by omega]
      exact ⟨hlow, hhigh⟩
    apply BitVec.eq_of_toNat_eq
    rw [hlog, BitVec.toNat_ofNat]
    omega

theorem ctzN_zero (n : Nat) : ctzN n 0 = n := by
  induction n with
  | zero => rfl
  | succ n ih => simp [ctzN, ih, Nat.add_comm]

/-- The lowest set bit of a number is what its trailing zeros count to. -/
theorem ctzN_of_testBit {n x k : Nat} (hk : k < n) (hset : x.testBit k = true)
    (hclear : ∀ i < k, x.testBit i = false) : ctzN n x = k := by
  induction n generalizing x k with
  | zero => omega
  | succ n ih =>
    cases k with
    | zero => rw [ctzN, if_pos (by simpa using hset)]
    | succ k =>
      have heven : ¬ x % 2 = 1 := by simpa using hclear 0 k.succ_pos
      have hhalf : ctzN n (x / 2) = k := by
        refine ih (Nat.lt_of_succ_lt_succ hk) (by rwa [Nat.testBit_succ] at hset) fun i hi => ?_
        rw [← Nat.testBit_succ]
        exact hclear (i + 1) (Nat.succ_lt_succ hi)
      rw [ctzN, if_neg heven, hhalf, Nat.add_comm]

theorem ctz64_eq_ctz (a : Word) : ctz64 a = a.ctz := by
  by_cases h : a = 0#64
  · subst h
    rw [ctz64, BitVec.toNat_zero, ctzN_zero, BitVec.ctz_eq_reverse_clz, BitVec.reverse_eq_zero_iff.2 rfl]
    rfl
  · have hcount : ctzN 64 a.toNat = a.ctz.toNat :=
      ctzN_of_testBit (BitVec.ctz_lt_iff_ne_zero.2 h) (BitVec.getLsbD_true_ctz_of_ne_zero h)
        fun _ => BitVec.getLsbD_false_of_lt_ctz
    rw [ctz64, hcount, BitVec.ofNat_toNat, BitVec.setWidth_eq]

/-- The count of one bits taken from its high end, as `BitVec.cpop` takes it. -/
theorem popN_succ_testBit (n x : Nat) : popN (n + 1) x = popN n x + (x.testBit n).toNat := by
  induction n generalizing x with
  | zero => simp [popN, Nat.toNat_testBit, -Nat.testBit_zero]
  | succ n ih => rw [popN, ih, Nat.testBit_succ, popN, Nat.add_assoc]

theorem popN_toNat (n : Nat) (a : Word) : popN n a.toNat = a.cpopNatRec n 0 := by
  induction n with
  | zero => rfl
  | succ n ih =>
    rw [popN_succ_testBit, ih, BitVec.testBit_toNat, BitVec.cpopNatRec_succ, BitVec.cpopNatRec_eq (0 + _), Nat.zero_add]

theorem popc64_eq_cpop (a : Word) : popc64 a = a.cpop := by
  rw [popc64, popN_toNat, BitVec.cpop]

/-! ## Extensions, addresses and choices (R58, R60, R63) -/

theorem sextAt_eq_signExtend (a b : Word) : sextAt a b = (a.setWidth (b.toNat % 64 + 1)).signExtend 64 := by
  rw [sextAt, sext64, BitVec.ofNat_toNat]
  rfl

theorem zextAt_eq_setWidth (a b : Word) : zextAt a b = (a.setWidth (b.toNat % 64 + 1)).setWidth 64 :=
  BitVec.eq_of_toNat_eq (by simp [zextAt, low6])

theorem addrPlus_eq_mul {n : Nat} (a : Word) (imm : BitVec n) : addrPlus a imm = a + 4#64 * imm.signExtend 64 := by
  rw [addrPlus, BitVec.shiftLeft_eq_mul_twoPow, BitVec.mul_comm]
  rfl

/-- A minimum or a maximum chosen by the strict order of its operands is that chosen by the order the other way. -/
theorem ite_eq_pick {strict order : Bool} (h : order = !strict) (x y : Word) :
    (if strict then y else x) = pick order x y := by
  subst h
  cases strict <;> rfl

/-! ## C-words on registers alone -/

/-- A legal C-word on registers alone, whose registers keep the PC, completes and goes on at the next word. -/
theorem exec_regWord {i : Instr} {s : State} {f : UnitRegs → UnitRegs} (hi : Legal i s) (he : exec i s = regWord i s f)
    (hpc : (f (me s)).pc = (me s).pc) : exec i s = .next (nextWord s (f (me s))) := by
  obtain ⟨hf, hp, ho⟩ := hi
  rw [he, regWord_ok i s f (decodeChecks_none i (me s) hf hp ho), hpc]
  rfl

/-- A legal C-word that writes a value destination alone. -/
theorem exec_writesVal {i : Instr} {s : State} {d : BitVec 7} {f : UnitRegs → Word} {v : Word} (hi : Legal i s)
    (he : exec i s = regWord i s fun x => writeVal x d (f x)) (hv : f (me s) = v) :
    exec i s = .next (nextWord s (writeVal (me s) d v)) := by
  rw [exec_regWord hi he (pc_writeVal ..), hv]

/-- A legal C-word that writes a predicate destination alone. -/
theorem exec_writesPred {i : Instr} {s : State} {d : BitVec 7} {f : UnitRegs → Bool} {v : Bool} (hi : Legal i s)
    (he : exec i s = regWord i s fun x => writePred x d (f x)) (hv : f (me s) = v) :
    exec i s = .next (nextWord s (writePred (me s) d v)) := by
  rw [exec_regWord hi he (pc_writePred ..), hv]

/-! ## The rules -/

/-- The words named are those whose result the model computes by a function of its own; for the others that function is the
rule's. -/
theorem integerWordsRule : IntegerWordsRule := by
  intro s i d v h hi
  cases i <;> cases h
  case div => exact exec_writesVal hi rfl (divS_eq_sdiv ..)
  case divn => exact exec_writesVal hi rfl (divU_eq_udiv ..)
  case rem => exact exec_writesVal hi rfl (remS_eq_srem ..)
  case remn => exact exec_writesVal hi rfl (remU_eq_umod ..)
  case min | max => exact exec_writesVal hi rfl (ite_eq_pick (BitVec.sle_eq_not_slt ..) ..)
  case minn | maxn => exact exec_writesVal hi rfl (ite_eq_pick (BitVec.ule_eq_not_ult ..) ..)
  case clz => exact exec_writesVal hi rfl (clz64_eq_clz _)
  case ctz => exact exec_writesVal hi rfl (ctz64_eq_ctz _)
  case popc => exact exec_writesVal hi rfl (popc64_eq_cpop _)
  case sext => exact exec_writesVal hi rfl (sextAt_eq_signExtend ..)
  case zext => exact exec_writesVal hi rfl (zextAt_eq_setWidth ..)
  case lpc => exact exec_writesVal hi rfl (addrPlus_eq_mul ..)
  all_goals exact exec_writesVal hi rfl rfl

/-- The four divisions are legal together, so the corners are the values of `integerWordsRule` at their operands. -/
theorem divisionCornersRule : DivisionCornersRule := by
  intro s d a b
  constructor
  · intro hb hi
    refine ⟨?_, ?_, ?_, ?_⟩
    · rw [integerWordsRule s (.div d a b) d _ rfl hi, if_pos hb]
      rfl
    · rw [integerWordsRule s (.divn d a b) d _ rfl hi, if_pos hb]
      rfl
    · rw [integerWordsRule s (.rem d a b) d _ rfl hi, if_pos hb]
    · rw [integerWordsRule s (.remn d a b) d _ rfl hi, if_pos hb]
  · intro ha hb hi
    constructor
    · rw [integerWordsRule s (.div d a b) d _ rfl hi, ha, hb]
      rfl
    · rw [integerWordsRule s (.rem d a b) d _ rfl hi, ha, hb]
      rfl

theorem predicateWordsRule : PredicateWordsRule := by
  intro s i d v h hi
  cases i <;> cases h
  case cmpne | cmptst | pset => exact exec_writesPred hi rfl decide_not
  all_goals exact exec_writesPred hi rfl rfl

/-- Settles O1: every word is a use of `exec_writesVal` or `exec_writesPred`, with its result equal to the rule's. -/
theorem integerAndPredicateWords : Obligations.IntegerAndPredicateWords :=
  ⟨integerWordsRule, divisionCornersRule, predicateWordsRule⟩

end Sys2Proof.Proofs
end
